-- ==== Sys2Proof/Word.lean ====
section
/-! DEFINITION. The word types of the device: bytes, and the 32-bit words of a tile's core. -/

namespace Sys2Proof

/-- A byte, the unit of every memory and message of the device (R2). -/
abbrev Byte := BitVec 8

/-- A register of a tile's RV32IMC core (R225). -/
abbrev Word := BitVec 32

end Sys2Proof
end

