-- ==== Sys2Proof/Outside.lean ====
section
/-! DEFINITION. What comes from outside the device with a command: the operand types of the commands. -/

namespace Sys2Proof

/-- The transports of the dictionary (R356): the mailbox, CAN FD and the SSP slave port. -/
inductive Transport | mailbox | can | ssp
  deriving DecidableEq, Repr

/-- The transport codes of R356. -/
def Transport.code : Transport → Nat
  | .mailbox => 0 | .can => 1 | .ssp => 2

/-- A VDP request as its transport carries it (R280, R299): the mailbox's RequestLength and Request, or a CAN
FD identifier with its data field. -/
inductive VdpIn
  | mailbox (len : Nat) (request : List Byte)
  | can (identifier : Nat) (data : List Byte)
  deriving DecidableEq, Repr

/-- What the fuse bank delivers at cold reset (R57, R58): the identity words, whether a single-bit error was
corrected, and whether an identity word has a double-bit error. -/
structure FuseRead where
  serial : Nat := 0
  lot : List Byte := []
  wafer : Nat := 0
  dieX : Byte := 0
  dieY : Byte := 0
  dieId : Nat := 0
  corrected : Bool := false
  doubleError : Bool := false
  deriving DecidableEq, Repr

/-- The host-written registers of a queue slot, SqBase to CoalesceTime (Table 7.4). -/
structure SlotRegs where
  sqBase : Nat := 0
  cqBase : Nat := 0
  sqEntries : Nat := 0
  cqEntries : Nat := 0
  cls : Nat := 2
  vector : Nat := 0
  irqFlags : Nat := 1
  coalesceCount : Nat := 0
  coalesceTime : Nat := 0
  deriving DecidableEq, Repr

/-- Which host read failed (R181): a submission entry read of a queue, the data of a command of a queue (by
its command ID), or the read of a page-in. -/
inductive ReadFailure
  | submission (burrow queue : Nat)
  | data (burrow queue commandId : Nat)
  | pageIn (segment : Nat)
  deriving DecidableEq, Repr

/-- What the FTF measured of one shot (R325): the raw time T and the widths w1 and w2, in LSB of 15.625 ps,
whether each half-wave exceeded DetectLevel, and whether a peak reached ClipLevel. -/
structure ShotMeasure where
  time : Nat
  w1 : Nat
  w2 : Nat
  half1 : Bool := true
  half2 : Bool := true
  clipped : Bool := false
  deriving DecidableEq, Repr

/-- What a generator run found (Table 6.8). -/
structure GeneratorFind where
  errors : Nat := 0
  firstError : Nat := 0
  corrected : Nat := 0
  uncorrectable : Nat := 0
  deriving DecidableEq, Repr

/-- What the read of one 32-byte burst found (R143): no error, one bit in error, or an uncorrectable error. -/
inductive BurstRead | clean | corrected | uncorrectable
  deriving DecidableEq, Repr

end Sys2Proof
end

