-- ==== Sys2Proof/Syntax.lean ====
section
/-! DEFINITION. The commands of the device: one constructor per row of spec/opcode_table.json. Operands are
what comes from outside with the command; everything else is read from the state.
In the rows of messages, `i` is the place of the message among those received and not yet consumed. -/

namespace Sys2Proof

/-- The commands. -/
inductive Instr
  /-- SQ_TAIL_DOORBELL (R176). -/
  | sqTailDoorbell (byAlias : Bool) (b : Fin 64) (q : Fin 16) (value : Nat)
  /-- CQ_HEAD_DOORBELL (R178). -/
  | cqHeadDoorbell (byAlias : Bool) (b : Fin 64) (q : Fin 16) (value : Nat)
  /-- QUEUE_CREATE (R174). -/
  | queueCreate (b : Fin 64) (q : Fin 16) (regs : SlotRegs)
  /-- QUEUE_DELETE (R175). -/
  | queueDelete (b : Fin 64) (q : Fin 16)
  /-- HOST_FETCH (R90). -/
  | hostFetch (b : Fin 64) (q : Fin 16) (data : List Byte)
  /-- HOST_READ_ERROR (R181). -/
  | hostReadError (what : ReadFailure)
  /-- ADMISSION (R134). -/
  | admission
  /-- QUERY (R91). -/
  | query
  /-- INSERT (R120). -/
  | insert
  /-- DELETE (R120). -/
  | delete
  /-- UPSERT (R120). -/
  | upsert
  /-- SELECT (R251). -/
  | select
  /-- PAYLOAD_READ (R266). -/
  | payloadRead
  /-- PAYLOAD_WRITE (R265). -/
  | payloadWrite (data : List Byte)
  /-- FENCE (R133). -/
  | fence
  /-- FENCE_COMPLETE (R133). -/
  | fenceComplete (b : Fin 64) (q : Fin 16)
  /-- COLLECTION_CREATE (R183). -/
  | collectionCreate
  /-- COLLECTION_DROP (R183). -/
  | collectionDrop
  /-- COMPACT (R135). -/
  | compact
  /-- LOAD_LISTS (R88). -/
  | loadLists (data : List Byte)
  /-- SNAPSHOT_EXPORT (R141). -/
  | snapshotExport
  /-- PROGRAM_LOAD (R243). -/
  | programLoad (data : List Byte)
  /-- COMPLETION_WRITE (R179). -/
  | completionWrite (b : Fin 64) (q : Fin 16)
  /-- COALESCE_TIMER (R180). -/
  | coalesceTimer (b : Fin 64) (q : Fin 16)
  /-- MSIX_VECTOR_UNMASK (R180). -/
  | msixVectorUnmask (fn : Fin 65) (vec : Fin 32) (addr data : Nat)
  /-- BURROW_ENABLE (R187). -/
  | burrowEnable (via : Transport) (b : Fin 64) (enable : Bool)
  /-- VF_FLR (R190). -/
  | vfFlr (b : Fin 64)
  /-- PF_FLR (R191). -/
  | pfFlr
  /-- VF_ENABLE_CHANGE (R191). -/
  | vfEnableChange (enable : Bool) (numVfs : Nat)
  /-- BURROW_DRAIN_END (R189). -/
  | burrowDrainEnd (b : Fin 64)
  /-- STAMP_REQ (R125). -/
  | stampReq (i : Nat)
  /-- STAMP_RSP (R125). -/
  | stampRsp (i : Nat)
  /-- QUERY_DISPATCH (R96). -/
  | queryDispatch (x : Nat)
  /-- RANKING_MERGE (R97). -/
  | rankingMerge (x : Nat)
  /-- LIST_ISSUE (R104). -/
  | listIssue (i : Nat)
  /-- SEGMENT_DELIVERY (R105). -/
  | segmentDelivery (i : Nat) (found : BurstRead) (fromSlot : List Byte)
  /-- NEED_MASK (R105). -/
  | needMask (t : Fin 256)
  /-- SORTER_POST (R108). -/
  | sorterPost (sorter : Fin 16)
  /-- WAVE_END (R102). -/
  | waveEnd (x : Nat)
  /-- QUERY_DEADLINE (R114). -/
  | queryDeadline (x : Nat)
  /-- RESULT_WRITE (R116). -/
  | resultWrite (x : Nat)
  /-- WAVE_REQ (R110). -/
  | waveReq (i : Nat)
  /-- WAVE_RSP (R111). -/
  | waveRsp (i : Nat)
  /-- RELEASE (R112). -/
  | release (i : Nat)
  /-- REMOTE_STATE_TIMEOUT (R112). -/
  | remoteStateTimeout (x : Nat)
  /-- REQUEST_LOST (R214). -/
  | requestLost (i : Nat)
  /-- MUTATION_HANDOFF (R129). -/
  | mutationHandoff (b : Fin 64) (q : Fin 16)
  /-- MUT_FWD (R121). -/
  | mutFwd (i : Nat)
  /-- MUT_RSP (R126). -/
  | mutRsp (i : Nat)
  /-- SEQUENCER_ACCEPT (R121). -/
  | sequencerAccept (g : Nat)
  /-- STASH_WRITE (R123). -/
  | stashWrite (i : Nat)
  /-- KILL_WRITE (R66). -/
  | killWrite (i : Nat)
  /-- STASH_ACK (R121). -/
  | stashAck (i : Nat)
  /-- KILL_ACK (R121). -/
  | killAck (i : Nat)
  /-- REVOKE (R127). -/
  | revoke (i : Nat)
  /-- REVOKE_ACK (R127). -/
  | revokeAck (i : Nat)
  /-- STASH_FLUSH (R123). -/
  | stashFlush (g : Nat)
  /-- COMPACT_TRIGGER_EVAL (R135). -/
  | compactTriggerEval
  /-- COMPACT_COPY_DONE (R137). -/
  | compactCopyDone (g : Nat)
  /-- COLL_CTRL_PREPARE (R137). -/
  | collCtrlPrepare (i : Nat)
  /-- COLL_CTRL_FLIP (R137). -/
  | collCtrlFlip (i : Nat)
  /-- CTRL_ACK (R137). -/
  | ctrlAck (i : Nat)
  /-- COLL_CTRL_CREATE (R60). -/
  | collCtrlCreate (i : Nat)
  /-- COLL_CTRL_DROP (R183). -/
  | collCtrlDrop (i : Nat)
  /-- COLL_CTRL_SCRUB_STATE (R139). -/
  | collCtrlScrubState (i : Nat)
  /-- COLL_CTRL_LOAD_PREPARE (R88). -/
  | collCtrlLoadPrepare (i : Nat)
  /-- COLL_CTRL_LOAD_ABANDON (R88). -/
  | collCtrlLoadAbandon (i : Nat)
  /-- COLL_CTRL_LOST (R349). -/
  | collCtrlLost (i : Nat)
  /-- SEGMENT_FREE (R137). -/
  | segmentFree (g : Nat)
  /-- STARTUP_SCRUB (R139). -/
  | startupScrub
  /-- LIST_PULL (R141). -/
  | listPull (i : Nat)
  /-- LIST_DATA (R141). -/
  | listData (i : Nat)
  /-- IMAGE_PULL (R88). -/
  | imagePull (i : Nat) (data : List Byte)
  /-- IMAGE_DATA (R88). -/
  | imageData (i : Nat)
  /-- REFUSED (R221). -/
  | refused (i : Nat)
  /-- HBM_READ_DONE (R143). -/
  | hbmReadDone (frame burst : Nat) (found : BurstRead)
  /-- PATROL_SCRUB (R144). -/
  | patrolScrub (frame burst : Nat) (found : BurstRead)
  /-- PAGE_OUT_START (R153). -/
  | pageOutStart
  /-- PAGE_OUT_DONE (R153). -/
  | pageOutDone (seg : Nat)
  /-- PAGE_IN_START (R154). -/
  | pageInStart (seg : Nat)
  /-- PAGE_IN_DONE (R154). -/
  | pageInDone (seg : Nat) (data : List Byte)
  /-- PC_RETIRED (R158). -/
  | pcRetired (pc : Fin 256)
  /-- RETIRE_PC (R158). -/
  | retirePc (via : Transport) (pc : Fin 256)
  /-- EVACUATION_COPY_DONE (R158). -/
  | evacuationCopyDone (seg : Nat) (found : BurstRead)
  /-- TOKEN_REFILL (R160). -/
  | tokenRefill
  /-- TOKEN_CHARGE (R160). -/
  | tokenCharge (b : Fin 64) (n : Nat)
  /-- GUARANTEE_WRITE (R163). -/
  | guaranteeWrite (via : Transport) (b : Fin 64) (value : Nat)
  /-- GENERATOR_START (R166). -/
  | generatorStart (via : Transport) (st : Fin 8)
  /-- GENERATOR_STOP (R166). -/
  | generatorStop (via : Transport) (st : Fin 8)
  /-- GENERATOR_DONE (R166). -/
  | generatorDone (st : Fin 8) (found : GeneratorFind)
  /-- READ_SPARE_RESOURCES (R167). -/
  | readSpareResources (via : Transport) (st : Fin 8)
  /-- SOFT_REPAIR (R167). -/
  | softRepair (via : Transport) (st : Fin 8)
  /-- CLEAR_SOFT_REPAIRS (R167). -/
  | clearSoftRepairs (via : Transport) (st : Fin 8)
  /-- HARD_REPAIR_WRITE (R168). -/
  | hardRepairWrite (via : Transport) (st : Fin 8) (slot : Fin 32) (value : Nat)
  /-- PORT_ENABLE (R210). -/
  | portEnable (via : Transport) (p : Fin 10) (enable : Bool)
  /-- LINK_FLIT (R194). -/
  | linkFlit (p : Fin 10) (flit : List Byte)
  /-- DATA_FLIT (R207). -/
  | dataFlit (p : Fin 10) (flit : List Byte)
  /-- NAK (R207). -/
  | nak (p : Fin 10) (flit : List Byte)
  /-- REPLAY_TIMEOUT (R207). -/
  | replayTimeout (p : Fin 10)
  /-- RETRAINING (R208). -/
  | retraining (p : Fin 10)
  /-- RETRAIN_DONE (R208). -/
  | retrainDone (p : Fin 10) (flit : List Byte)
  /-- RETRAIN_TIMEOUT (R209). -/
  | retrainTimeout (p : Fin 10)
  /-- LINK_UP_RETRY (R209). -/
  | linkUpRetry (p : Fin 10) (link : Option (List Byte))
  /-- PORT_DRAIN_END (R210). -/
  | portDrainEnd (p : Fin 10)
  /-- MESSAGE_FORWARD (R195). -/
  | messageForward (i : Nat)
  /-- BIND (R220). -/
  | bind (p : Fin 10) (flit : List Byte)
  /-- BIND_ACK (R220). -/
  | bindAck (p : Fin 10) (flit : List Byte)
  /-- BIND_REFUSE (R220). -/
  | bindRefuse (p : Fin 10) (flit : List Byte)
  /-- TABLE_IMAGE_WRITE (R219). -/
  | tableImageWrite (via : Transport) (p : Fin 10) (slot : Fin 32) (image : List Byte)
  /-- QUERY_IN (R228). -/
  | queryIn (t : Fin 256)
  /-- META (R228). -/
  | metaEvent (t : Fin 256)
  /-- VEC (R228). -/
  | vec (t : Fin 256)
  /-- PBLOCK (R228). -/
  | pblock (t : Fin 256)
  /-- RETIRE (R228). -/
  | retire (t : Fin 256)
  /-- MSG (R231). -/
  | msgEvent (t : Fin 256)
  /-- QSEL (R232). -/
  | qsel (t : Fin 256)
  /-- XDOT (R233). -/
  | xdot (t : Fin 256)
  /-- XDSQ (R233). -/
  | xdsq (t : Fin 256)
  /-- XRD32 (R235). -/
  | xrd32 (t : Fin 256)
  /-- XRD64 (R235). -/
  | xrd64 (t : Fin 256)
  /-- XASTAT (R232). -/
  | xastat (t : Fin 256)
  /-- XFOP (R236). -/
  | xfop (t : Fin 256)
  /-- XF32 (R232). -/
  | xf32 (t : Fin 256)
  /-- XFMV_DX (R232). -/
  | xfmvDx (t : Fin 256)
  /-- XFMV_XD (R232). -/
  | xfmvXd (t : Fin 256)
  /-- XFCMP (R232). -/
  | xfcmp (t : Fin 256)
  /-- XKEY (R237). -/
  | xkey (t : Fin 256)
  /-- XFCV (R232). -/
  | xfcv (t : Fin 256)
  /-- XPASS (R238). -/
  | xpass (t : Fin 256)
  /-- XPCLR (R238). -/
  | xpclr (t : Fin 256)
  /-- XPOST (R239). -/
  | xpost (t : Fin 256)
  /-- XMSEND (R231). -/
  | xmsend (t : Fin 256)
  /-- XMRECV (R231). -/
  | xmrecv (t : Fin 256)
  /-- KERNEL_TIME_LIMIT (R240). -/
  | kernelTimeLimit (t : Fin 256)
  /-- TILE_RESET (R350). -/
  | tileReset (via : Transport) (value : Nat)
  /-- TILE_RESET_EXECUTE (R350). -/
  | tileResetExecute (t : Fin 256)
  /-- SELECT_ROUND_END (R256). -/
  | selectRoundEnd (x : Nat) (source : List Byte)
  /-- SELECT_DEADLINE (R257). -/
  | selectDeadline (x : Nat)
  /-- PAYLOAD_GRANULE_FREE (R265). -/
  | payloadGranuleFree (i : Nat)
  /-- VDP_READ (R277). -/
  | vdpRead (m : VdpIn)
  /-- VDP_WRITE (R277). -/
  | vdpWrite (m : VdpIn)
  /-- VDP_SEGMENT (R278). -/
  | vdpSegment (m : VdpIn)
  /-- VDP_ABORT (R279). -/
  | vdpAbort (m : VdpIn)
  /-- VDP_TRANSFER_TIMEOUT (R279). -/
  | vdpTransferTimeout (via : Transport)
  /-- MAILBOX_CLEAR (R280). -/
  | mailboxClear (value : Nat)
  /-- DICTIONARY_WRITE (R275). -/
  | dictionaryWrite (via : Transport) (index subindex : Nat) (data : List Byte)
  /-- STORE_BASE (R311). -/
  | storeBase (via : Transport) (ended : Option Bool)
  /-- PENDING_STORE_START (R283). -/
  | pendingStoreStart (ended : Option Bool)
  /-- RESTORE_DEFAULTS (R283). -/
  | restoreDefaults (via : Transport)
  /-- MODE_REQUEST (R286). -/
  | modeRequest (via : Transport) (mode : Nat)
  /-- QUIET_POINT (R286). -/
  | quietPoint
  /-- LOCK_ALL (R292). -/
  | lockAll (via : Transport)
  /-- CLEAR_OVERLAY (R290). -/
  | clearOverlay (via : Transport) (mode : Fin 5)
  /-- DELTA_ENABLE (R290). -/
  | deltaEnable (via : Transport) (mode : Fin 5) (delta : Fin 256) (enable : Bool)
  /-- CALENDAR_TIME_WRITE (R294). -/
  | calendarTimeWrite (via : Transport) (value : Nat)
  /-- CALENDAR_COMMIT (R295). -/
  | calendarCommit (via : Transport) (value : Nat)
  /-- CALENDAR_SECOND (R294). -/
  | calendarSecond
  /-- CLEAR_LOG (R353). -/
  | clearLog (via : Transport)
  /-- WARM_RESET_RETAIN (R348). -/
  | warmResetRetain (via : Transport)
  /-- WARM_RESET_NO_RETAIN (R348). -/
  | warmResetNoRetain (via : Transport)
  /-- AUDIT_NOW (R354). -/
  | auditNow (via : Transport)
  /-- CREDIT_AUDIT (R354). -/
  | creditAudit
  /-- CAN_BUS_OFF (R302). -/
  | canBusOff
  /-- CAN_BUS_RECOVER (R302). -/
  | canBusRecover
  /-- CAN_HEARTBEAT (R299). -/
  | canHeartbeat
  /-- CAN_SETTINGS_APPLY (R302). -/
  | canSettingsApply
  /-- SSP_GO (R307). -/
  | sspGo (via : Transport)
  /-- SSP_FRAME_DONE (R305). -/
  | sspFrameDone (data : List Byte)
  /-- SSP_SELECT_FALL (R313). -/
  | sspSelectFall
  /-- SSP_SELECT_RISE (R314). -/
  | sspSelectRise (edges : Nat) (slot : List Byte)
  /-- NOP (R316). -/
  | nop
  /-- READ (R316). -/
  | read
  /-- WRITE (R316). -/
  | write
  /-- STAGE (R317). -/
  | stage
  /-- WRITE_STAGED (R317). -/
  | writeStaged
  /-- LENGTH (R316). -/
  | length
  /-- IDENT (R319). -/
  | ident
  /-- ENUM (R320). -/
  | enum
  /-- SSP_STALL (R321). -/
  | sspStall
  /-- COLD_RESET_RELEASE (R341). -/
  | coldResetRelease (locked : Bool) (fuse : FuseRead) (tray : Fin 16)
  /-- PLL_LOCK_RETRY (R341). -/
  | pllLockRetry (locked : Bool) (fuse : FuseRead)
  /-- PERST_DEASSERT (R342). -/
  | perstDeassert
  /-- FIRMWARE_READ_DONE (R310). -/
  | firmwareReadDone
  /-- CONFIG_LOAD (R283). -/
  | configLoad
  /-- BUNDLE_LOAD (R344). -/
  | bundleLoad
  /-- HBM_TRAINING_DONE (R347). -/
  | hbmTrainingDone (failed : List (Fin 256))
  /-- BOOT_COMPLETE (R345). -/
  | bootComplete
  /-- RECOVERY_BOOT_FIRMWARE (R346). -/
  | recoveryBootFirmware (window : List Byte)
  /-- RECOVERY_WRITE_FIRMWARE (R346). -/
  | recoveryWriteFirmware (window : List Byte) (written : Bool)
  /-- RECOVERY_TAKE_BUNDLE (R346). -/
  | recoveryTakeBundle (window : List Byte)
  /-- RECOVERY_WRITE_BUNDLE (R346). -/
  | recoveryWriteBundle (window : List Byte) (written : Bool)
  /-- WARM_RST_N (R348). -/
  | warmRstN
  /-- WATCHDOG (R348). -/
  | watchdog
  /-- WARM_RESET_EXECUTE (R348). -/
  | warmResetExecute
  /-- PCIE_HOT_RESET (R348). -/
  | pcieHotReset
  /-- SHOT_UP (R325). -/
  | shotUp (via : Transport) (c : Fin 2)
  /-- SHOT_DOWN (R325). -/
  | shotDown (via : Transport) (c : Fin 2)
  /-- SHOT_START (R324). -/
  | shotStart
  /-- SHOT_RESULT (R326). -/
  | shotResult (c : Fin 2) (measured : Option ShotMeasure)
  /-- FLOW_STALE (R328). -/
  | flowStale (c : Fin 2)
  /-- RING_DOWN_END (R325). -/
  | ringDownEnd (c : Fin 2)
  /-- RTD_CONVERT (R330). -/
  | rtdConvert (via : Transport) (r : Fin 2)
  /-- RTD_RESULT (R330). -/
  | rtdResult (r : Fin 2) (ref1 rtd ref2 : Option Nat)
  /-- FLOW_CHANNEL_ENABLE (R333). -/
  | flowChannelEnable (via : Transport) (c : Fin 2) (enable : Bool)
  /-- ZERO_CALIBRATE (R329). -/
  | zeroCalibrate (via : Transport) (c : Fin 2) (n : Nat)
  /-- NO_FLOW_TIMEOUT (R332). -/
  | noFlowTimeout
  /-- GOVERNOR_SAMPLE (R336). -/
  | governorSample (power : Nat)
  /-- MCLK_STEP_DONE (R338). -/
  | mclkStepDone
  /-- VR_CORRECTION (R334). -/
  | vrCorrection (reading : Option Nat)
  /-- GOVERNOR_SAFE (R340). -/
  | governorSafe
  /-- GOVERNOR_CAUSE_CLEAR (R340). -/
  | governorCauseClear
  /-- COLD_RST_N_ASSERTED (R312). -/
  | coldRstNAsserted
  /-- IDLE_FLIT (R207). -/
  | idleFlit (p : Fin 10) (flit : List Byte)
  /-- PHY_TRAINED (R194). -/
  | phyTrained (p : Fin 10)
  /-- GO_WHILE_BUSY (R280). -/
  | goWhileBusy
  /-- CAN_BUS_ERROR (R302). -/
  | canBusError (txErrors rxErrors : Nat)
  /-- HARD_REPAIR_CHECK_DONE (R168). -/
  | hardRepairCheckDone (st : Fin 8) (pass : Bool)
  /-- RV32IMC_INSTRUCTION (R240). -/
  | rv32imcInstruction (t : Fin 256)
  deriving DecidableEq, Repr

end Sys2Proof
end

