-- ==== Sys2Proof/WellFormed.lean ====
section
/-! DEFINITION. Which commands are well formed: operands that fit what the spec gives them. A command that is not
well formed spells nothing the outside world can send; `exec` is total on it all the same. -/

namespace Sys2Proof

/-- A VDP request as its transport can carry it: at most 64 bytes (R280, R299), a 29-bit identifier (R298). -/
def VdpIn.wf : VdpIn → Bool
  | .mailbox len request => decide (len < 2 ^ 32) && decide (request.length ≤ 64)
  | .can identifier data => decide (identifier < 2 ^ 29) && decide (data.length ≤ 64)

/-- The registers of a queue slot fit their widths (Table 7.4). -/
def SlotRegs.wf (r : SlotRegs) : Bool :=
  decide (r.sqBase < 2 ^ 64) && decide (r.cqBase < 2 ^ 64) && decide (r.sqEntries < 2 ^ 16)
    && decide (r.cqEntries < 2 ^ 16) && decide (r.cls < 2 ^ 8) && decide (r.vector < 2 ^ 8)
    && decide (r.irqFlags < 2 ^ 8) && decide (r.coalesceCount < 2 ^ 16) && decide (r.coalesceTime < 2 ^ 16)

/-- A shot's measurement fits the TDC's 24-bit count (R323). -/
def ShotMeasure.wf (m : ShotMeasure) : Bool :=
  decide (m.time < 2 ^ 24) && decide (m.w1 < 2 ^ 24) && decide (m.w2 < 2 ^ 24)

/-- A TDC count, if there is one, fits 24 bits (R323). -/
def tdcFits : Option Nat → Bool
  | none => true
  | some t => decide (t < 2 ^ 24)

/-- A flit is 256 bytes (R198). -/
def isFlit (bs : List Byte) : Bool := bs.length == 256

/-- The well-formed commands. -/
def Instr.wf : Instr → Bool
  | .sqTailDoorbell _ _ _ v => decide (v < 2 ^ 32)
  | .cqHeadDoorbell _ _ _ v => decide (v < 2 ^ 32)
  | .queueCreate _ _ r => r.wf
  | .hostFetch _ _ d => d.length % 128 == 0
  | .vfEnableChange _ n => decide (n ≤ 64)
  | .guaranteeWrite _ _ v => decide (v < 2 ^ 32)
  | .hardRepairWrite _ _ _ v => decide (v < 2 ^ 32)
  | .linkFlit _ f => isFlit f
  | .dataFlit _ f => isFlit f
  | .nak _ f => isFlit f
  | .retrainDone _ f => isFlit f
  | .linkUpRetry _ l => (l.map isFlit).getD true
  | .bind _ f => isFlit f
  | .bindAck _ f => isFlit f
  | .bindRefuse _ f => isFlit f
  | .idleFlit _ f => isFlit f
  | .tileReset _ v => decide (v < 2 ^ 16)
  | .vdpRead m => m.wf
  | .vdpWrite m => m.wf
  | .vdpSegment m => m.wf
  | .vdpAbort m => m.wf
  | .dictionaryWrite _ ix sub d => decide (ix < 2 ^ 16) && decide (sub < 2 ^ 8) && decide (d.length ≤ 65536)
  | .modeRequest _ m => decide (m < 2 ^ 8)
  | .calendarTimeWrite _ v => decide (v < 2 ^ 64)
  | .calendarCommit _ v => decide (v < 2 ^ 8)
  | .sspSelectRise _ slot => slot.length == 8
  | .shotResult _ m => (m.map ShotMeasure.wf).getD true
  | .rtdResult _ a b c => tdcFits a && tdcFits b && tdcFits c
  | .zeroCalibrate _ _ n => decide (n < 2 ^ 8)
  | .vrCorrection r => (r.map fun v => decide (v < 2 ^ 32)).getD true
  | .pageInDone _ d => d.length == 65536
  | _ => true

end Sys2Proof
end

