-- ==== Sys2Proof/Decode.lean ====
section
/-! DEFINITION. The command a word spells by the table's bits. No row of spec/opcode_table.json gives bits: the
commands of this block are events and register accesses, so no word spells one. -/

namespace Sys2Proof

/-- The command of a word numbered as spec/opcode_table.json numbers it: none, since no row has bits. -/
def decodeTableWord (_nbits _w : Nat) : Option Instr := none

end Sys2Proof
end

