-- ==== Sys2Proof/Config.lean ====
section
/-! DEFINITION. What an implementation fixes and what the spec leaves open.
Limits of the spec stand here by name; every `opaque` constant is a free value: nothing constrains it. -/

namespace Sys2Proof.Config

/-! ## Free values (log entry 2) -/

/-- A choice the spec leaves open (which free frame, segment, page slot, context, request number): the
argument is the state's free-value counter. -/
opaque choice : Nat → Nat

/-- The payload of a quiet NaN that a binary64 operation of a tile gives (R236). -/
opaque nanBits : Nat → Nat → BitVec 64

/-- The code of an accumulator's format in XASTAT bits [3:2] (R232 gives the field, no codes). -/
opaque accFormatCode : Nat → BitVec 2

/-- Where in the dispatcher ROM a kernel returns to (R225, R228 give no address). -/
opaque dispatcherReturn : BitVec 10

/-- What a register other than those the calling convention passes holds when the dispatcher calls a
kernel (R228). -/
opaque callerRegister : Nat → Nat → BitVec 32

/-- The Walotte boot key: x and y, 48 bytes each, fixed in the boot ROM (R343); its value is not given. -/
opaque bootKey : List Byte

/-- Spare rows a bank holds when it is new (R167): stack, pseudo-channel, bank. -/
opaque spareRows : Nat → Nat → Nat → Nat

/-- A value the spec does not state for one result, by the place that needs it and the state's counter. -/
opaque openValue : Nat → Nat → Nat

/-! ## Sizes the spec fixes -/

/-- Fetch slots (Table 2.7). -/
def fetchSlots : Nat := 2048
/-- Completion slots (Table 2.7). -/
def completionSlots : Nat := 1024
/-- Query contexts (Table 2.7). -/
def queryContexts : Nat := 4096
/-- Chunks of a sorter that local admission may use (R205). -/
def localChunks : Nat := 446
/-- Chunks of a sorter kept for remote queries (R205). -/
def remoteReserve : Nat := 66
/-- Mutation slots (Table 2.7). -/
def mutationSlots : Nat := 1024
/-- Rendezvous entries (Table 2.7). -/
def rendezvousEntries : Nat := 262144
/-- Remote contexts (R205). -/
def remoteContexts : Nat := 512
/-- Result staging places (Table 2.7). -/
def stagingPlaces : Nat := 8192
/-- Post credits of a sorter (Table 2.7). -/
def postCredits : Nat := 1024
/-- Landing units granted to each peer (R202). -/
def landingUnits : Nat := 10
/-- Outstanding MGMT requests per destination (R204). -/
def mgmtSlots : Nat := 4
/-- Receive units per port, channel and class (R201). -/
def linkUnits : Nat := 128
/-- Host page fetch tags, and those kept for demand page-ins (R50, R107). -/
def hostPageTags : Nat := 256
/-- Tags that prefetch leaves free (R107). -/
def prefetchReserve : Nat := 64
/-- Fetch tags of one stack (R50). -/
def stackTags : Nat := 128
/-- Frames of HBM (R145). -/
def frames : Nat := 3145728
/-- Frames of the pool, local indices 0 to 12,219 (R146). -/
def poolFrames : Nat := 3128320
/-- Bytes of a frame and of a segment. -/
def frameBytes : Nat := 65536
/-- The highest segment number allocation hands out (R61). -/
def lastSegment : Nat := 0xFFFFFE
/-- The segment number that means "no segment" (R61). -/
def noSegment : Nat := 0xFFFFFFFF
/-- The root field of a dropped collection (R67, R183). -/
def droppedRoot : Nat := 0xFFFFFF
/-- Bytes of the stash buffer (R123). -/
def stashBufferBytes : Nat := 4194304
/-- The last sequence number a mutation can receive (Table 5.2, step 7). -/
def lastSequence : Nat := 0xFFFFFFFFFFFE
/-- m_L of an empty list, and τ's sequence while there is none (Table 3.7). -/
def noSequence : Nat := 0xFFFFFFFFFFFF
/-- The recovery bound of a fabric request, in µs (R214). -/
def recoveryBoundUs : Nat := 400
/-- The product code (R1). -/
def productCode : Nat := 0x4D590001
/-- The vendor code (R57). -/
def vendorCode : Nat := 0x57414C54
/-- The PCI vendor ID (R57, R170). -/
def pciVendorId : Nat := 0x1FD3
/-- The Device ID of the physical function (R170). -/
def pfDeviceId : Nat := 0x0A01
/-- The VF Device ID (R170). -/
def vfDeviceId : Nat := 0x0A02
/-- The class code of both kinds of function (R170). -/
def classCode : Nat := 0x120000
/-- The silicon revision, also the Revision ID of every function (R57, R170). -/
def siliconRevision : Nat := 0xA0

end Sys2Proof.Config
end

