-- ==== Sys2Proof/Machine/Bytes.lean ====
section
/-! DEFINITION. Byte order, bit fields, finite maps, byte memories and CRC-32C: the helpers every layout uses. -/

namespace Sys2Proof.Machine

/-! ## Numbers and bytes (R2: least significant byte first) -/

/-- The number that a byte string spells, least significant byte first (R2). -/
def leNat : List Byte → Nat
  | [] => 0
  | b :: bs => b.toNat + 256 * leNat bs

/-- A number as `n` bytes, least significant first, its higher bits dropped (R2). -/
def toLE : Nat → Nat → List Byte
  | 0, _ => []
  | n + 1, v => BitVec.ofNat 8 v :: toLE n (v / 256)

/-- The number that a byte string spells, most significant byte first. -/
def beNat (bs : List Byte) : Nat := leNat bs.reverse

/-- A number as `n` bytes, most significant first. -/
def toBE (n v : Nat) : List Byte := (toLE n v).reverse

/-- `n` bytes from offset `off`, as many as there are. -/
def slice (bs : List Byte) (off n : Nat) : List Byte := (bs.drop off).take n

/-- The `n`-byte field at offset `off`. -/
def field (bs : List Byte) (off n : Nat) : Nat := leNat (slice bs off n)

/-- Bits [hi:lo] of a number. -/
def bits (v hi lo : Nat) : Nat := v / 2 ^ lo % 2 ^ (hi + 1 - lo)

/-- True when every byte from `off` on, `n` of them, is zero. -/
def zeroAt (bs : List Byte) (off n : Nat) : Bool := (slice bs off n).all (· == 0)

/-- `n` zero bytes. -/
def zeros (n : Nat) : List Byte := List.replicate n 0

/-- The bytes of an ASCII string. -/
def ascii (s : String) : List Byte := s.toList.map fun c => BitVec.ofNat 8 c.toNat

/-- `bs` brought to `n` bytes: cut, or filled with zeros. -/
def padTo (n : Nat) (bs : List Byte) : List Byte := (bs ++ zeros (n - bs.length)).take n

/-- Each element once, at its last place. -/
def once {α : Type} [DecidableEq α] : List α → List α
  | [] => []
  | a :: as => if a ∈ as then once as else a :: once as

/-- Division rounded up. -/
def ceilDiv (a b : Nat) : Nat := (a + b - 1) / b

/-- Write `new` over `bs` at offset `off`. -/
def splice (bs : List Byte) (off : Nat) (new : List Byte) : List Byte :=
  bs.take off ++ new ++ bs.drop (off + new.length)

/-! ## Finite maps: a list of keys and values, keys rising -/

/-- A finite map from numbers, its keys strictly rising. -/
abbrev Map (α : Type) := List (Nat × α)

/-- The value at a key. -/
def Map.get? {α : Type} : Map α → Nat → Option α
  | [], _ => none
  | (k, v) :: m, i => if k = i then some v else Map.get? m i

/-- The value at a key, or `d` where the map holds none. -/
def Map.getD {α : Type} (m : Map α) (i : Nat) (d : α) : α := (Map.get? m i).getD d

/-- The map with `v` at key `i`. -/
def Map.put {α : Type} : Map α → Nat → α → Map α
  | [], i, v => [(i, v)]
  | (k, w) :: m, i, v =>
    if i < k then (i, v) :: (k, w) :: m
    else if k = i then (i, v) :: m
    else (k, w) :: Map.put m i v

/-- The map without key `i`. -/
def Map.del {α : Type} (m : Map α) (i : Nat) : Map α := m.filter fun e => e.1 != i

/-- The map with the value at `i` changed by `f`, `d` standing for an absent value. -/
def Map.modify {α : Type} (m : Map α) (i : Nat) (d : α) (f : α → α) : Map α :=
  Map.put m i (f (Map.getD m i d))

/-- The values of a map, by rising key. -/
def Map.vals {α : Type} (m : Map α) : List α := m.map Prod.snd

/-- The keys of a map, rising. -/
def Map.keys {α : Type} (m : Map α) : List Nat := m.map Prod.fst

/-- The lowest number from `i` on that is no key, looking `fuel` numbers far. -/
def Map.freeKey {α : Type} (m : Map α) : Nat → Nat → Nat
  | 0, i => i
  | fuel + 1, i => if (Map.get? m i).isSome then Map.freeKey m fuel (i + 1) else i

/-! ## Byte memories: cells by rising address, none equal to what an unlisted address reads as -/

/-- A byte memory: the cells that differ from the byte `d` an unlisted address reads as. -/
abbrev Memory := List Host.Cell

/-- Reading one byte. -/
def Memory.read (d : Byte) : Memory → Nat → Byte
  | [], _ => d
  | (k, v) :: m, a => if k = a then v else Memory.read d m a

/-- Writing one byte: the canonical form is kept. -/
def Memory.write (d : Byte) : Memory → Nat → Byte → Memory
  | [], a, v => if v = d then [] else [(a, v)]
  | (k, w) :: m, a, v =>
    if a < k then (if v = d then (k, w) :: m else (a, v) :: (k, w) :: m)
    else if k = a then (if v = d then m else (a, v) :: m)
    else (k, w) :: Memory.write d m a v

/-- Reading `n` bytes from address `a` on. -/
def Memory.readN (d : Byte) (m : Memory) (a : Nat) : Nat → List Byte
  | 0 => []
  | n + 1 => Memory.read d m a :: Memory.readN d m (a + 1) n

/-- The cells of a run of bytes that must be listed. -/
def Memory.cellsOf (d : Byte) (a : Nat) : List Byte → Memory
  | [] => []
  | b :: bs => if b = d then Memory.cellsOf d (a + 1) bs else (a, b) :: Memory.cellsOf d (a + 1) bs

/-- Writing a run of bytes from address `a` on. -/
def Memory.writeN (d : Byte) (m : Memory) (a : Nat) (bs : List Byte) : Memory :=
  m.filter (fun c => c.1 < a) ++ Memory.cellsOf d a bs ++ m.filter (fun c => a + bs.length ≤ c.1)

/-- Making every byte of `a` to `a + n - 1` read as the unlisted byte. -/
def Memory.clear (m : Memory) (a n : Nat) : Memory := m.filter fun c => c.1 < a || a + n ≤ c.1

/-- The canonical form: addresses strictly rising, no cell equal to the unlisted byte. -/
def Memory.wf (d : Byte) : Memory → Bool
  | [] => true
  | [(_, v)] => v != d
  | (k, v) :: (k', v') :: m => v != d && decide (k < k') && Memory.wf d ((k', v') :: m)

/-! ## CRC-32C (R63, R84, R198, R219, R282, R310)
The spec names the code; its polynomial, bit order and initial value are those of the code's standard
(PRESUMED, log entry 10). -/

/-- One bit of the reflected CRC-32C. -/
def crcBit (c : Nat) : Nat := if c % 2 = 1 then (c / 2) ^^^ 0x82F63B78 else c / 2

/-- One byte of CRC-32C. -/
def crcByte (c : Nat) (b : Byte) : Nat :=
  crcBit (crcBit (crcBit (crcBit (crcBit (crcBit (crcBit (crcBit (c ^^^ b.toNat))))))))

/-- CRC-32C of a byte string. -/
def crc32c (bs : List Byte) : Nat := (bs.foldl crcByte 0xFFFFFFFF) ^^^ 0xFFFFFFFF

/-! ## Lists -/

/-- The first element that satisfies `p`, with the rest of the list. -/
def takeFirst {α : Type} (p : α → Bool) : List α → Option (α × List α)
  | [] => none
  | x :: xs =>
    if p x then some (x, xs)
    else match takeFirst p xs with
      | none => none
      | some (y, ys) => some (y, x :: ys)

/-- The numbers 0 to n − 1 whose bit is set in `m`. -/
def maskBits (m n : Nat) : List Nat := (List.range n).filter fun i => m.testBit i

/-- Sum of a list of numbers. -/
def sumNat (l : List Nat) : Nat := l.foldl (· + ·) 0

end Sys2Proof.Machine
end

