-- ==== Sys2Proof/Machine/Numerics.lean ====
section
/-! DEFINITION. Exact arithmetic and its roundings (R9 to R15, R73, R75, R235 to R237, R253, R262, R263).
Every sum is exact; a value is rounded in one place, `packScaled`. -/

namespace Sys2Proof.Machine

/-- A rounding direction: to nearest with ties to even, toward −infinity, toward +infinity. -/
inductive Round | near | down | up
  deriving DecidableEq, Repr

/-- A binary floating-point format: precision with the hidden bit, exponent bits, and whether it has
infinities (E4M3 has none, R261). -/
structure Fmt where
  prec : Nat
  ebits : Nat
  hasInf : Bool
  deriving DecidableEq, Repr

def Fmt.b32 : Fmt := ⟨24, 8, true⟩
def Fmt.b64 : Fmt := ⟨53, 11, true⟩
def Fmt.bf16 : Fmt := ⟨8, 8, true⟩
def Fmt.b16 : Fmt := ⟨11, 5, true⟩
def Fmt.e5m2 : Fmt := ⟨3, 5, true⟩
def Fmt.e4m3 : Fmt := ⟨4, 4, false⟩

/-- The exponent bias. -/
def Fmt.bias (f : Fmt) : Nat := 2 ^ (f.ebits - 1) - 1
/-- The exponent of the unit in the last place of a subnormal. -/
def Fmt.ulpMin (f : Fmt) : Int := 1 - (f.bias : Int) - ((f.prec : Int) - 1)
/-- Width of the stored fraction. -/
def Fmt.frac (f : Fmt) : Nat := f.prec - 1
/-- The sign bit's weight in the pattern. -/
def Fmt.signBit (f : Fmt) : Nat := 2 ^ (f.frac + f.ebits)
/-- The pattern of +infinity, in a format that has it. -/
def Fmt.infBits (f : Fmt) : Nat := (2 ^ f.ebits - 1) * 2 ^ f.frac
/-- The largest finite magnitude's pattern (E4M3: 0x7E, that is 448). -/
def Fmt.maxBits (f : Fmt) : Nat :=
  if f.hasInf then f.infBits - 1 else 2 ^ (f.frac + f.ebits) - 2

/-- A value: a finite one is (−1)^neg × m × 2^e. -/
inductive FVal
  | nan
  | inf (neg : Bool)
  | fin (neg : Bool) (m : Nat) (e : Int)
  deriving DecidableEq, Repr

/-- The value of a bit pattern. -/
def FVal.ofBits (f : Fmt) (v : Nat) : FVal :=
  let neg := decide (f.signBit ≤ v % (2 * f.signBit))
  let mag := v % f.signBit
  let ex := mag / 2 ^ f.frac
  let fr := mag % 2 ^ f.frac
  if f.hasInf && ex == 2 ^ f.ebits - 1 then
    if fr = 0 then .inf neg else .nan
  else if !f.hasInf && mag == f.signBit - 1 then .nan
  else if ex = 0 then .fin neg fr f.ulpMin
  else .fin neg (fr + 2 ^ f.frac) (f.ulpMin + ((ex : Int) - 1))

/-- Rounding a magnitude up by one unit, given the remainder `rem` of `full` and whether more nonzero
bits lie below. -/
def roundsUp (r : Round) (neg : Bool) (odd : Bool) (rem full : Nat) (sticky : Bool) : Bool :=
  match r with
  | .near => decide (full < 2 * rem) || (decide (2 * rem = full) && (sticky || odd))
  | .up => !neg && (decide (0 < rem) || sticky)
  | .down => neg && (decide (0 < rem) || sticky)

/-- The pattern of (−1)^neg × (q + ε) × 2^e rounded once, where 0 < ε < 1 when `sticky`, else ε = 0.
A caller that sets `sticky` passes a `q` of at least two bits more than the precision. -/
def packScaled (f : Fmt) (r : Round) (neg : Bool) (q : Nat) (sticky : Bool) (e : Int) : Nat :=
  let top : Int := (Nat.log2 q : Int) + e
  let ulp : Int := if q = 0 then f.ulpMin else max (top - ((f.prec : Int) - 1)) f.ulpMin
  let sh : Int := ulp - e
  let full := 2 ^ sh.toNat
  let m0 := if 0 ≤ sh then q / full else q * 2 ^ (-sh).toNat
  let rem := if 0 ≤ sh then q % full else 0
  let m := if roundsUp r neg (m0 % 2 == 1) rem full sticky then m0 + 1 else m0
  let mag := m + (ulp - f.ulpMin).toNat * 2 ^ f.frac
  let big :=
    if f.hasInf then
      match r with
      | .near => f.infBits
      | .up => if neg then f.maxBits else f.infBits
      | .down => if neg then f.infBits else f.maxBits
    else f.maxBits
  (if neg then f.signBit else 0) + (if f.maxBits < mag then big else mag)

/-- Rounding an exact value n × 2^e. -/
def roundDyadic (f : Fmt) (r : Round) (n : Int) (e : Int) : Nat :=
  packScaled f r (decide (n < 0)) n.natAbs false e

/-- Rounding an exact quotient (−1)^neg × (num / den) × 2^e, den nonzero. -/
def roundQuot (f : Fmt) (r : Round) (neg : Bool) (num den : Nat) (e : Int) : Nat :=
  let k := (f.prec + 3 + Nat.log2 den) - Nat.log2 num
  let q := num * 2 ^ k / den
  packScaled f r neg q (num * 2 ^ k % den != 0) (e - k)

/-- The integer square root, bit by bit: `r` holds what is found, `b` is the next bit's weight. -/
def isqrtAux (n : Nat) : Nat → Nat → Nat
  | 0, r => r
  | k + 1, r => isqrtAux n k (if (r + 2 ^ k) * (r + 2 ^ k) ≤ n then r + 2 ^ k else r)

/-- The integer square root. -/
def isqrt (n : Nat) : Nat := isqrtAux n (Nat.log2 n / 2 + 1) 0

/-- Rounding the square root of m × 2^e. -/
def roundSqrt (f : Fmt) (r : Round) (m : Nat) (e : Int) : Nat :=
  let pad := 2 * (f.prec + 3)
  let m' := if (e - pad) % 2 = 0 then m * 2 ^ pad else m * 2 ^ (pad + 1)
  let e' := if (e - pad) % 2 = 0 then e - pad else e - pad - 1
  let s := isqrt m'
  packScaled f r false s (s * s != m') (e' / 2)

/-- The pattern of a value in a format that holds it exactly or is to be rounded to. -/
def FVal.toBits (f : Fmt) (r : Round) : FVal → Nat
  | .nan => if f.hasInf then f.infBits + 2 ^ (f.frac - 1) else f.signBit - 1
  | .inf neg => (if neg then f.signBit else 0) + (if f.hasInf then f.infBits else f.maxBits)
  | .fin neg m e => packScaled f r neg m false e

/-- A finite value's signed mantissa. -/
def FVal.signed (neg : Bool) (m : Nat) : Int := if neg then -(m : Int) else m

/-! ## binary64 operations (R11, R73, R236, R331) -/

/-- The operations of XFOP (Table 9.7). -/
inductive FOp | add | sub | mul | div | sqrt | min | max
  deriving DecidableEq, Repr

/-- The sign of a sum that is exactly zero: −0 only when rounding toward −infinity, or when both operands
have the sign −. -/
def zeroSumNeg (r : Round) (na nb : Bool) : Bool := if na = nb then na else r == .down

/-- An exact sum of two finite values, as mantissa and exponent. -/
def addExact (na : Bool) (ma : Nat) (ea : Int) (nb : Bool) (mb : Nat) (eb : Int) : Int × Int :=
  let e := min ea eb
  (FVal.signed na ma * 2 ^ (ea - e).toNat + FVal.signed nb mb * 2 ^ (eb - e).toNat, e)

/-- The sum of two values in binary64; `none` where the result is a NaN. -/
def fAdd (r : Round) (a b : FVal) : Option Nat :=
  match a, b with
  | .nan, _ => none
  | _, .nan => none
  | .inf na, .inf nb => if na = nb then some (FVal.toBits .b64 r (.inf na)) else none
  | .inf na, _ => some (FVal.toBits .b64 r (.inf na))
  | _, .inf nb => some (FVal.toBits .b64 r (.inf nb))
  | .fin na ma ea, .fin nb mb eb =>
    let s := addExact na ma ea nb mb eb
    if s.1 = 0 then some (if zeroSumNeg r na nb then Fmt.b64.signBit else 0)
    else some (roundDyadic .b64 r s.1 s.2)

/-- The value with its sign turned. -/
def FVal.negate : FVal → FVal
  | .nan => .nan
  | .inf n => .inf (!n)
  | .fin n m e => .fin (!n) m e

/-- The product. -/
def fMul (r : Round) (a b : FVal) : Option Nat :=
  match a, b with
  | .nan, _ => none
  | _, .nan => none
  | .inf na, .inf nb => some (FVal.toBits .b64 r (.inf (na != nb)))
  | .inf na, .fin nb mb _ => if mb = 0 then none else some (FVal.toBits .b64 r (.inf (na != nb)))
  | .fin na ma _, .inf nb => if ma = 0 then none else some (FVal.toBits .b64 r (.inf (na != nb)))
  | .fin na ma ea, .fin nb mb eb => some (packScaled .b64 r (na != nb) (ma * mb) false (ea + eb))

/-- The quotient. -/
def fDiv (r : Round) (a b : FVal) : Option Nat :=
  match a, b with
  | .nan, _ => none
  | _, .nan => none
  | .inf _, .inf _ => none
  | .inf na, .fin nb _ _ => some (FVal.toBits .b64 r (.inf (na != nb)))
  | .fin na _ _, .inf nb => some (if na != nb then Fmt.b64.signBit else 0)
  | .fin na ma ea, .fin nb mb eb =>
    if mb = 0 then (if ma = 0 then none else some (FVal.toBits .b64 r (.inf (na != nb))))
    else if ma = 0 then some (if na != nb then Fmt.b64.signBit else 0)
    else some (roundQuot .b64 r (na != nb) ma mb (ea - eb))

/-- The square root. -/
def fSqrt (r : Round) (a : FVal) : Option Nat :=
  match a with
  | .nan => none
  | .inf true => none
  | .inf false => some Fmt.b64.infBits
  | .fin neg m e =>
    if m = 0 then some (if neg then Fmt.b64.signBit else 0)
    else if neg then none
    else some (roundSqrt .b64 r m e)

/-- How two values compare, −0 equal to +0; `none` when unordered. -/
def fCmp (a b : FVal) : Option Ordering :=
  match a, b with
  | .nan, _ => none
  | _, .nan => none
  | .inf na, .inf nb => some (if na = nb then .eq else if na then .lt else .gt)
  | .inf na, _ => some (if na then .lt else .gt)
  | _, .inf nb => some (if nb then .gt else .lt)
  | .fin na ma ea, .fin nb mb eb =>
    let s := addExact na ma ea (!nb) mb eb
    some (if s.1 < 0 then .lt else if s.1 = 0 then .eq else .gt)

/-- Minimum or maximum, −0 less than +0 (R236). -/
def fPick (wantMax : Bool) (a b : Nat) : Option Nat :=
  match fCmp (.ofBits .b64 a) (.ofBits .b64 b) with
  | none => none
  | some .lt => some (if wantMax then b else a)
  | some .gt => some (if wantMax then a else b)
  | some .eq =>
    let aNeg := decide (Fmt.b64.signBit ≤ a)
    some (if aNeg = wantMax then b else a)

/-- One operation of XFOP on binary64 patterns; `none` where the result is a NaN (R236). -/
def fOp (op : FOp) (r : Round) (a b : Nat) : Option Nat :=
  let x := FVal.ofBits .b64 a
  let y := FVal.ofBits .b64 b
  match op with
  | .add => fAdd r x y
  | .sub => fAdd r x y.negate
  | .mul => fMul r x y
  | .div => fDiv r x y
  | .sqrt => fSqrt r x
  | .min => fPick false a b
  | .max => fPick true a b

/-- The quiet NaN the device's own computations give where the spec names none. -/
def nan64 : Nat := 0x7FF8000000000000

def add64 (r : Round) (a b : Nat) : Nat := (fOp .add r a b).getD nan64
def sub64 (r : Round) (a b : Nat) : Nat := (fOp .sub r a b).getD nan64
def mul64 (r : Round) (a b : Nat) : Nat := (fOp .mul r a b).getD nan64
def div64 (r : Round) (a b : Nat) : Nat := (fOp .div r a b).getD nan64
def sqrt64 (r : Round) (a : Nat) : Nat := (fOp .sqrt r a 0).getD nan64

/-- A binary64 pattern rounded to binary32. -/
def to32 (r : Round) (a : Nat) : Nat := (FVal.ofBits .b64 a).toBits .b32 r
/-- A binary32 pattern as binary64, exactly. -/
def to64 (a : Nat) : Nat := (FVal.ofBits .b32 a).toBits .b64 .near
/-- An integer as binary64. -/
def int64 (n : Int) : Nat := roundDyadic .b64 .near n 0
/-- True for the binary64 patterns below, at or below. -/
def lt64 (a b : Nat) : Bool := fCmp (.ofBits .b64 a) (.ofBits .b64 b) == some .lt
def le64 (a b : Nat) : Bool :=
  fCmp (.ofBits .b64 a) (.ofBits .b64 b) == some .lt || fCmp (.ofBits .b64 a) (.ofBits .b64 b) == some .eq
/-- 1.0 in binary64. -/
def one64 : Nat := 0x3FF0000000000000
/-- −1.0 in binary64. -/
def negOne64 : Nat := 0xBFF0000000000000
/-- −x in binary64: the sign bit turned. -/
def neg64 (a : Nat) : Nat := a ^^^ 0x8000000000000000
def isNan (f : Fmt) (v : Nat) : Bool := FVal.ofBits f v == .nan
def isInf (f : Fmt) (v : Nat) : Bool :=
  match FVal.ofBits f v with
  | .inf _ => true
  | _ => false

/-! ## Element types and the Exact Sum Register (Table 1.1) -/

/-- The element types of a collection (Table 3.1). -/
inductive ElemType | fp32 | bf16 | fp16 | int8
  deriving DecidableEq, Repr

/-- The element type of a code of Table 3.1. -/
def ElemType.ofCode? : Nat → Option ElemType
  | 0 => some .fp32
  | 1 => some .bf16
  | 2 => some .fp16
  | 3 => some .int8
  | _ => none

def ElemType.code : ElemType → Nat
  | .fp32 => 0 | .bf16 => 1 | .fp16 => 2 | .int8 => 3

/-- Bytes of an element. -/
def ElemType.size : ElemType → Nat
  | .fp32 => 4 | .bf16 => 2 | .fp16 => 2 | .int8 => 1

/-- Minus the weight exponent of an ESR's bit 0 (Table 1.1). -/
def ElemType.esrFrac : ElemType → Nat
  | .fp32 => 298 | .bf16 => 298 | .fp16 => 48 | .int8 => 0

/-- An element's value. -/
def ElemType.val (t : ElemType) (v : Nat) : FVal :=
  match t with
  | .fp32 => .ofBits .b32 v
  | .bf16 => .ofBits .bf16 v
  | .fp16 => .ofBits .b16 v
  | .int8 => .fin (decide (128 ≤ v % 256)) (if v % 256 < 128 then v % 256 else 256 - v % 256) 0

/-- A finite element scaled to half the ESR's fraction, an integer (R9: subnormals at their exact value). -/
def ElemType.scaled (t : ElemType) (v : Nat) : Int :=
  match t.val v with
  | .fin neg m e => FVal.signed neg (m * 2 ^ (e + t.esrFrac / 2).toNat)
  | _ => 0

/-- True when an element is a NaN or an infinity (R16). -/
def ElemType.bad (t : ElemType) (v : Nat) : Bool :=
  match t.val v with
  | .fin _ _ _ => false
  | _ => true

/-- The elements of a packed vector, as patterns (R62, R89: element 0 first). -/
def elements (t : ElemType) : Nat → List Byte → List Nat
  | 0, _ => []
  | n + 1, bs => leNat (bs.take t.size) :: elements t n (bs.drop t.size)

/-- Σ qᵢ·xᵢ, exact, in units of the ESR's bit 0 (R9, R10). -/
def esrDot (t : ElemType) : List Nat → List Nat → Int
  | q :: qs, x :: xs => t.scaled q * t.scaled x + esrDot t qs xs
  | _, _ => 0

/-- Σ (qᵢ − xᵢ)², exact, in units of the ESR's bit 0 (R9, R10). -/
def esrDsq (t : ElemType) : List Nat → List Nat → Int
  | q :: qs, x :: xs => (t.scaled q - t.scaled x) * (t.scaled q - t.scaled x) + esrDsq t qs xs
  | _, _ => 0

/-- The exact squared norm (R12). -/
def sqNorm (t : ElemType) (x : List Nat) : Int := esrDot t x x

/-- An ESR's content rounded once. -/
def esrRound (f : Fmt) (r : Round) (t : ElemType) (n : Int) : Nat := roundDyadic f r n (-(t.esrFrac : Int))

/-! ## Scores and order keys (R10, R11, R14, R15) -/

/-- The metrics of a collection (Table 3.1). -/
inductive Metric | innerProduct | cosine | sqEuclid | custom
  deriving DecidableEq, Repr

def Metric.ofCode? : Nat → Option Metric
  | 0 => some .innerProduct
  | 1 => some .cosine
  | 2 => some .sqEuclid
  | 3 => some .custom
  | _ => none

def Metric.code : Metric → Nat
  | .innerProduct => 0 | .cosine => 1 | .sqEuclid => 2 | .custom => 3

/-- −0 becomes +0 (R14). -/
def posZero (v : Nat) : Nat := if v = 0x80000000 then 0 else v

/-- The stored squared norm, RN64 of the exact one (R11). -/
def storedNorm (t : ElemType) (x : List Nat) : Nat := esrRound .b64 .near t (sqNorm t x)

/-- The cosine score's sequence (R11), from D, Nq² and the stored Nx². -/
def cosineScore (a b nx : Nat) : Nat :=
  to32 .near (div64 .near a (sqrt64 .near (mul64 .near b nx)))

/-- The score of an entry for a query (R10), as a binary32 pattern; a custom metric's comes from its kernel. -/
def score (m : Metric) (t : ElemType) (q x : List Nat) (nx : Nat) : Nat :=
  match m with
  | .innerProduct => esrRound .b32 .near t (esrDot t q x)
  | .sqEuclid => esrRound .b32 .near t (esrDsq t q x)
  | .cosine => cosineScore (esrRound .b64 .near t (esrDot t q x)) (storedNorm t q) nx
  | .custom => 0

/-- The order key of a binary32 pattern (R15), −0 taken as +0 first (R14). -/
def orderKey (v : Nat) : Nat :=
  let w := posZero v
  if w < 0x80000000 then w ^^^ 0x80000000 else w ^^^ 0xFFFFFFFF

/-- The pattern whose order key is `k`: the inverse of `orderKey` on patterns other than −0. -/
def keyPattern (k : Nat) : Nat := if 0x80000000 ≤ k then k ^^^ 0x80000000 else k ^^^ 0xFFFFFFFF

/-- −v of a binary32 pattern, −0 taken as +0. -/
def negate32 (v : Nat) : Nat := posZero (v ^^^ 0x80000000)

/-- The rank key's order key for a score (R14, R15): the score itself for squared Euclidean and custom,
its negation for inner product and cosine. -/
def rankOrderKey (m : Metric) (sc : Nat) : Nat :=
  match m with
  | .sqEuclid => orderKey sc
  | .custom => orderKey sc
  | .innerProduct => orderKey (negate32 (posZero sc))
  | .cosine => orderKey (negate32 (posZero sc))

/-- The score that has a given rank order key (R17: the record carries the score, not the rank key). -/
def scoreOfKey (m : Metric) (k : Nat) : Nat :=
  match m with
  | .sqEuclid => keyPattern k
  | .custom => keyPattern k
  | .innerProduct => negate32 (keyPattern k)
  | .cosine => negate32 (keyPattern k)

/-- The order of candidates: by order key, then by sequence number (R15). -/
def better (k₁ s₁ k₂ s₂ : Nat) : Bool := decide (k₁ < k₂) || (decide (k₁ = k₂) && decide (s₁ < s₂))

/-! ## List bounds (R73) and their widening (R75) -/

/-- The order key of a list's bound β for squared Euclidean. -/
def boundSqEuclid (t : ElemType) (q c : List Nat) (r : Nat) : Nat :=
  let d := sqrt64 .down (esrRound .b64 .down t (esrDsq t q c))
  let g := sub64 .down d r
  if le64 g 0 then orderKey 0 else orderKey (to32 .down (mul64 .down g g))

/-- For inner product. -/
def boundInner (t : ElemType) (q c : List Nat) (r : Nat) : Nat :=
  let a := esrRound .b64 .up t (esrDot t q c)
  let n := sqrt64 .up (esrRound .b64 .up t (sqNorm t q))
  let u := add64 .up a (mul64 .up n r)
  orderKey (negate32 (posZero (to32 .up u)))

/-- 2⁻⁴⁸ in binary64. -/
def eps48 : Nat := 0x3CF0000000000000

/-- The cosine cone's upper bound U (R73). -/
def coneU (C kappa : Nat) : Nat :=
  if lt64 kappa C then one64
  else
    let s := sqrt64 .up (sub64 .up one64 (mul64 .down C C))
    let sg := sqrt64 .up (sub64 .up one64 (mul64 .down kappa kappa))
    add64 .up (mul64 .up C kappa) (mul64 .up s sg)

/-- For cosine. -/
def boundCosine (t : ElemType) (q c : List Nat) (kappa : Nat) : Nat :=
  let D := esrDot t q c
  let nq := sqNorm t q
  let nc := sqNorm t c
  let hd := sqrt64 .down (mul64 .down (esrRound .b64 .down t nq) (esrRound .b64 .down t nc))
  let hu := sqrt64 .up (mul64 .up (esrRound .b64 .up t nq) (esrRound .b64 .up t nc))
  let C := div64 .up (esrRound .b64 .up t D) (if 0 ≤ D then hd else hu)
  let C := if lt64 one64 C then one64 else C
  orderKey (negate32 (posZero (to32 .up (add64 .up (coneU C kappa) eps48))))

/-- β's order key for a standard metric (R73). -/
def boundKey (m : Metric) (t : ElemType) (q c : List Nat) (param : Nat) : Nat :=
  match m with
  | .sqEuclid => boundSqEuclid t q c param
  | .innerProduct => boundInner t q c param
  | .cosine => boundCosine t q c param
  | .custom => 0

/-- What an entry asks of its list's bound parameter (R75): a radius at least this, or a κ at most this. -/
def coverParam (m : Metric) (t : ElemType) (x c : List Nat) : Nat :=
  match m with
  | .cosine =>
    let D := esrDot t x c
    let nx := sqNorm t x
    let nc := sqNorm t c
    let hu := sqrt64 .up (mul64 .up (esrRound .b64 .up t nx) (esrRound .b64 .up t nc))
    let hd := sqrt64 .down (mul64 .down (esrRound .b64 .down t nx) (esrRound .b64 .down t nc))
    let w := div64 .down (esrRound .b64 .down t D) (if 0 ≤ D then hu else hd)
    if lt64 w negOne64 then negOne64 else w
  | _ => sqrt64 .up (esrRound .b64 .up t (esrDsq t x c))

/-- The bound parameter widened to cover an entry (R75). -/
def widen (m : Metric) (t : ElemType) (x c : List Nat) (param : Nat) : Nat :=
  let w := coverParam m t x c
  match m with
  | .cosine => if lt64 w param then w else param
  | .custom => param
  | _ => if lt64 param w then w else param

/-- An entry lies within its list's bound (R85, step 8; standard metrics). -/
def covered (m : Metric) (t : ElemType) (x c : List Nat) (param : Nat) : Bool :=
  match m with
  | .cosine => le64 param (coverParam m t x c)
  | .custom => false
  | _ => le64 (coverParam m t x c) param

end Sys2Proof.Machine
end

