-- ==== Sys2Proof/Machine/Objects.lean ====
section
/-! DEFINITION. The object table: every object of the dictionary with its type, access, default and range
(Tables 4.7, 5.3, 6.7, 6.8, 7.9, 8.8, 9.9, 10.5, 11.9, 11.11 to 11.14, 12.3, 12.5, 12.11, 13.2 to 13.4, 14.7; R167, R168, R186). -/

namespace Sys2Proof.Machine

/-- The types of Table 11.1. -/
inductive ObjType | bool | u8 | u16 | u32 | u64 | i8 | i32 | f32 | f64 | str | domain | time64
  deriving DecidableEq, Repr

/-- The type codes of Table 11.1. -/
def ObjType.code : ObjType → Nat
  | .bool => 0 | .u8 => 1 | .u16 => 2 | .u32 => 3 | .u64 => 4 | .i8 => 5 | .i32 => 6 | .f32 => 7 | .f64 => 8
  | .str => 9 | .domain => 10 | .time64 => 11

/-- The length of a value of fixed length. -/
def ObjType.size : ObjType → Option Nat
  | .bool => some 1 | .u8 => some 1 | .u16 => some 2 | .u32 => some 4 | .u64 => some 8 | .i8 => some 1
  | .i32 => some 4 | .f32 => some 4 | .f64 => some 8 | .time64 => some 8 | .str => none | .domain => none

/-- The access classes of Table 11.2. -/
inductive Access | ro | rw | wo | rwl | w1 | cmd
  deriving DecidableEq, Repr

/-- What an object's table says of its values. -/
inductive Range
  /-- Every value of the type. -/
  | any
  | between (lo hi : Nat)
  | among (values : List Nat)
  /-- Even values in a range. -/
  | even (lo hi : Nat)
  /-- No bit outside the mask. -/
  | mask (m : Nat)
  /-- A multiple. -/
  | multiple (n : Nat)
  | real32 (lo hi : Nat)
  | real64 (lo hi : Nat)
  deriving DecidableEq, Repr

/-- One object: type, access, default, range, and allowed lengths of a DOMAIN (empty: 0 to the bound). -/
structure Obj where
  ty : ObjType
  acc : Access
  dflt : List Byte
  range : Range := .any
  lens : List Nat := []
  bound : Nat := 65536
  deriving DecidableEq, Repr

/-- A number as a value of a type. -/
def ObjType.enc (t : ObjType) (v : Nat) : List Byte := toLE (t.size.getD 0) v

/-- An object of fixed length with a numeric default. -/
def num (t : ObjType) (a : Access) (d : Nat) (r : Range := .any) : Obj := ⟨t, a, t.enc d, r, [], 0⟩
/-- A DOMAIN object, empty by default. -/
def dom (a : Access) (lens : List Nat) (bound : Nat) : Obj := ⟨.domain, a, [], .any, lens, bound⟩

/-- What an index holds: one simple object, a record of objects at subindices 1 up, or an array of like objects. -/
inductive Shape
  | simple (o : Obj)
  | record (os : List Obj)
  | array (n : Nat) (o : Obj)
  deriving DecidableEq, Repr

/-- A flow channel's configuration (Table 13.2). -/
def channelObjects : List Obj :=
  [num .bool .rw 1, num .u8 .ro 1, num .u8 .cmd 0 (.among [1, 2]), num .u8 .rwl 3 (.between 1 3), num .u8 .rwl 2 (.between 1 2),
   num .f64 .rwl 0x3FAEB851EB851EB8 (.real64 0x3F50624DD2F1A9FC 0x3FF0000000000000), num .f64 .rwl 0x3F0A5A856DCECBBC (.real64 0x3EB0C6F7A0B5ED8D 0x3F847AE147AE147B),
   num .f64 .rwl 0x3FF0000000000000 (.real64 0x3FE0000000000000 0x3FF8000000000000), num .f64 .rwl 0 (.real64 0 0x40C3880000000000),
   num .f64 .rw 0 (.real64 0xC08F400000000000 0x408F400000000000), num .u8 .cmd 0 (.between 1 255),
   num .u32 .rw 250 (.between 10 1000), num .u32 .rw 300 (.between 10 1000),
   num .f32 .rw 0x3F0CCCCD (.real32 0 0x40000000), num .f32 .rw 0x3F59999A (.real32 0 0x40000000),
   num .u32 .rw 30000 (.between 1000 200000), num .u32 .rw 200000 (.between 0 262000),
   num .u32 .rw 50 (.between 10 1000), num .u32 .rw 10000 (.between 100 1000000),
   num .u16 .rw 50 (.between 10 1000), num .u16 .rw 900 (.between 10 1000), num .bool .ro 0, num .u16 .ro 0]

/-- A flow channel's results (Table 13.2). -/
def resultObjects : List Obj :=
  [num .u32 .ro 0, num .u32 .ro 0, num .u8 .ro 0, num .u8 .ro 0, num .f32 .ro 0, num .f32 .ro 0, num .bool .ro 0,
   num .u8 .ro 0, num .u32 .ro 0]

/-- A burrow's objects (Table 7.9). -/
def burrowObjects : List Obj :=
  [num .bool .rw 0, num .u8 .ro 0, num .u8 .rwl 16 (.between 1 16), num .u8 .rwl 1 (.between 1 64), num .u16 .ro 0,
   num .bool .ro 0, num .u8 .rwl 1 (.mask 7), ⟨.domain, .rwl, zeros 512, .any, [512], 512⟩, num .u32 .ro 0,
   num .u64 .ro 0, num .u16 .rwl 4096 (.between 0 4096)]

/-- A fabric port's objects (Table 8.8). -/
def portObjects : List Obj :=
  [num .bool .rw 1, num .u8 .ro 0, num .u8 .ro 0, num .u64 .ro 0, num .u32 .ro 0, num .u32 .ro 0, num .bool .rw 1,
   num .u8 .ro 0, num .u8 .ro 0, num .bool .ro 0, num .u16 .ro 0]

/-- A traffic generator's objects (Table 6.8). -/
def generatorObjects : List Obj :=
  [num .u8 .cmd 0 (.between 0 1), num .u8 .rw 0 (.between 0 31), num .u8 .rw 0 (.between 0 2), num .u8 .rw 0 (.between 0 2),
   num .u32 .rw 1 (.between 1 12220), num .u16 .rw 0 (.between 0 12219), num .u32 .rw 1 (.mask 0x7FFFFFFF),
   num .u8 .ro 0, num .u32 .ro 0, num .u64 .ro 0, num .u32 .ro 0, num .u32 .ro 0]

/-- The objects of 0x1000 to 0x1FFF. -/
def shape1 (ix : Nat) : Option Shape :=
  if ix = 0x1010 then some (.simple (num .time64 .rw 0))
  else if ix = 0x1011 then some (.record [num .u16 .rw 0, num .u8 .rw 0, num .u8 .rw 0, num .u8 .rw 0, num .u8 .rw 0, num .u8 .rw 0, num .u8 .cmd 0 (.among [1])])
  else if ix = 0x1012 then some (.simple (num .bool .ro 0))
  else if ix = 0x1018 then some (.record [num .u32 .ro Config.vendorCode, num .u32 .ro Config.productCode, num .u8 .ro Config.siliconRevision, num .u32 .ro 0, num .u16 .ro Config.pciVendorId])
  else if ix = 0x1019 then some (.record [⟨.str, .ro, zeros 6, .any, [6], 6⟩, num .u8 .ro 0, num .i8 .ro 0, num .i8 .ro 0, num .u64 .ro 0])
  else if ix = 0x1200 then some (.record [num .u8 .rwl 0 (.between 0 127), num .u8 .rwl 3 (.between 0 3), num .u8 .rw 3 (.between 0 7), num .u16 .rw 1000 (.between 0 60000), num .bool .rw 0, num .u8 .ro 0, num .u8 .ro 0, num .u8 .ro 0, num .u32 .ro 0, num .bool .rw 1, num .bool .rw 1])
  else if ix = 0x1210 then some (.record [num .u32 .ro 0, num .u32 .ro 0, num .u32 .ro 0, num .u32 .ro 0])
  else if ix = 0x1220 then some (.record [num .u8 .rw 2 (.between 2 7), num .u8 .rw 8 (.among [0, 8]), num .u8 .rw 0, num .u8 .rw 0 (.among [0, 8, 16, 24, 32]), num .u32 .rw 0, num .u8 .rw 0 (.between 0 31), num .u8 .rw 0 (.between 0 1), num .u16 .rw 0 (.between 0 256), dom .rw [] 256, dom .ro [] 256, num .bool .rw 0, num .u8 .rw 8 (.even 4 200), num .u8 .cmd 0 (.among [1]), num .u8 .ro 0])
  else if ix = 0x1F00 then some (.record [num .u8 .cmd 0 (.among [1]), num .bool .ro 0, num .bool .rwl 0])
  else none

/-- The objects of 0x2000 to 0x2FFF. -/
def shape2 (ix : Nat) : Option Shape :=
  if ix = 0x2000 then some (.record [num .u8 .cmd 0 (.among [1]), num .u8 .ro 0, num .u32 .ro 0, num .u8 .cmd 0 (.among [1])])
  else if ix = 0x2001 then some (.record [num .u8 .rw 0 (.between 0 4), num .u8 .ro 0, num .u8 .ro 0, num .u8 .ro 0, num .u8 .rwl 0 (.between 0 3), num .u32 .ro 0])
  else if ix = 0x2002 then some (.record [num .u16 .rw 0, num .u8 .rw 0, dom .ro [] 65536, num .bool .ro 0])
  else if ix = 0x2100 then some (.record [num .u32 .rw 0 (.between 0 100000), num .u8 .rw 16 (.between 1 64), num .u8 .rw 8 (.between 0 64), num .u8 .rw 4 (.between 0 16), num .u8 .rw 8 (.among [1, 2, 4, 8, 16])])
  else if ix = 0x2110 then some (.record [num .u8 .rw 8 (.between 1 64), num .u8 .rw 4 (.between 1 64), num .u8 .rw 1 (.between 1 64), num .u8 .rw 10 (.between 0 100), num .u8 .rw 16 (.between 1 255)])
  else if ix = 0x2120 then some (.record [num .u16 .rw 100 (.between 1 10000), num .u32 .rw 1048576 (.between 1024 16777216), num .u16 .rw 500 (.between 1 10000), num .bool .rw 1, num .u32 .rw 20 (.between 1 1000)])
  else if ix = 0x2130 then some (.record [num .bool .rwl 0])
  else if ix = 0x2140 then some (.record [num .u32 .rw 1000 (.between 10 100000), num .u32 .ro 0])
  else if ix = 0x2141 then some (.array 4 (dom .w1 [97] 97))
  else if ix = 0x2142 then some (.array 8 (num .u32 .ro 0))
  else if ix = 0x2143 then some (.array 8 (num .u8 .ro 0xFF))
  else if ix = 0x2144 then some (.array 8 (num .u16 .ro 0))
  else if ix = 0x2150 then some (.record [num .u8 .rw 16 (.between 0 64), num .u32 .ro 0])
  else none

/-- The overlay objects, 0x3000 to 0x35FF (Table 11.11). -/
def shape3 (ix : Nat) : Option Shape :=
  if ix < 0x3005 then some (.record [num .u16 .ro 0, num .u8 .cmd 0 (.among [1])])
  else if 0x3100 ≤ ix ∧ ix < 0x3600 then some (.record [num .u16 .rwl 0, num .u8 .rwl 0, dom .rwl [] 8, num .bool .rwl 0])
  else none

/-- The objects of the memory system (Table 6.7). -/
def shape4 (ix : Nat) : Option Shape :=
  if ix = 0x4000 then some (.record [num .u16 .ro 256, num .u16 .ro 400, num .u32 .ro 79872, num .u32 .ro 0, num .bool .ro 0, num .u32 .ro Config.poolFrames, num .u32 .ro 0, num .u32 .ro 0, num .u32 .ro 0, ⟨.domain, .ro, zeros 32, .any, [32], 32⟩])
  else if ix = 0x4010 then some (.record [num .u32 .rw 65536 (.between 1024 1048576), num .u32 .rw 131072 (.between 0 2097152), num .u32 .rw 512 (.between 16 1000000), num .u32 .rw 86400 (.between 3600 604800), num .u8 .cmd 0 (.between 0 255)])
  else if ix = 0x4100 then some (.array 64 (num .u32 .rwl 0 (.between 0 16777215)))
  else if ix = 0x4101 then some (.array 64 (num .u64 .rwl 0 (.multiple 65536)))
  else if ix = 0x4102 then some (.array 64 (num .u32 .rwl 0 (.between 0 4194304)))
  else if ix = 0x4110 then some (.array 64 (num .u32 .rwl 0 (.between 0 102400)))
  else if ix = 0x4111 then some (.array 64 (num .u32 .rwl 102400 (.between 0 102400)))
  else if ix = 0x4112 then some (.array 64 (num .u32 .rwl 4096 (.between 1024 65536)))
  else if ix = 0x4113 then some (.array 64 (num .u32 .ro 0))
  else none

/-- The objects of the fabric (Table 8.8). -/
def shape6 (ix : Nat) : Option Shape :=
  if ix = 0x6000 then some (.record [num .u8 .ro 0xFF, num .u8 .ro 0, num .u8 .ro 0xFF, num .u8 .rwl 16 (.between 1 16)])
  else if 0x6010 ≤ ix ∧ ix < 0x601A then some (.record portObjects)
  else if ix = 0x6020 then some (.record [num .u32 .ro 0, num .u32 .ro 0, num .u32 .ro 0])
  else if 0x6100 ≤ ix ∧ ix < 0x6240 then some (.record [dom .rw [0, 36, 148] 148, num .u32 .ro 0])
  else none

/-- The objects of coolant and power (Tables 13.2 to 13.4). -/
def shape7 (ix : Nat) : Option Shape :=
  if 0x7010 ≤ ix ∧ ix < 0x7012 then some (.record channelObjects)
  else if 0x7020 ≤ ix ∧ ix < 0x7022 then some (.record resultObjects)
  else if 0x7030 ≤ ix ∧ ix < 0x7032 then some (.record [num .u8 .cmd 0 (.among [1]), num .f64 .rwl 0x408F400000000000 (.real64 0x407F400000000000 0x409F400000000000), num .f64 .ro 0, num .f32 .ro 0, num .u8 .ro 1, num .u32 .ro 0])
  else if ix = 0x7040 then some (.record [num .f64 .rwl 0x408F200000000000, num .f64 .rwl 0x40B0520000000000, num .f64 .rwl 0x4095E98F5C28F5C3, num .f64 .rwl 0x401425FD8ADAB9F5, num .f64 .rwl 0xBFADBD512EC6BCE8, num .f32 .ro 0x7FC00000, num .f32 .ro 0x7FC00000, num .f32 .ro 0x7FC00000, num .u32 .ro 0])
  else if ix = 0x7100 then some (.record [num .u8 .rwl 150 (.between 90 150), num .u8 .ro 0, num .u8 .ro 150, num .f32 .ro 0, num .u8 .ro 0, num .u8 .ro 0, num .u8 .ro 0, num .u8 .rwl 0 (.among [0, 2, 3, 4, 5, 6, 7]), num .u8 .rwl 0, num .u32 .ro 0])
  else none

/-- The diagnostic and event log objects, 0x8000 to 0x9FFF. -/
def shape8 (ix : Nat) : Option Shape :=
  if ix = 0x8000 then some (.record [num .u8 .cmd 0 (.between 1 2), num .u16 .cmd 0 (.between 0 255), num .u8 .cmd 0 (.among [1]), num .u32 .ro 0, num .u16 .ro 0, num .u32 .ro 0, num .u32 .ro 0, num .u32 .ro 0])
  else if 0x8100 ≤ ix ∧ ix < 0x8108 then some (.record generatorObjects)
  else if 0x8200 ≤ ix ∧ ix < 0x8208 then some (.record [num .u8 .cmd 0 (.between 1 3), num .u8 .rw 0 (.between 0 31), num .u8 .rw 0 (.between 0 63), num .u16 .rw 0 (.between 0 12287), num .u8 .ro 0, num .u8 .ro 0])
  else if 0x8280 ≤ ix ∧ ix < 0x8288 then some (.array 32 (num .u32 .w1 0))
  else if ix = 0x9000 then some (.record [⟨.domain, .ro, zeros 32, .any, [32], 32⟩, num .u8 .cmd 0 (.among [1]), num .u8 .rw 2 (.between 0 4)])
  else if 0x9100 ≤ ix ∧ ix < 0x9500 then some (.simple ⟨.domain, .ro, zeros 32, .any, [32], 32⟩)
  else none

/-- What an index holds (R270, R274); none where it holds no object. -/
def shapeOf (ix : Nat) : Option Shape :=
  match ix / 4096 with
  | 1 => shape1 ix
  | 2 => shape2 ix
  | 3 => shape3 ix
  | 4 => shape4 ix
  | 5 => if ix < 0x5400 ∧ ix % 16 = 0 then some (.record burrowObjects) else none
  | 6 => shape6 ix
  | 7 => shape7 ix
  | 8 => shape8 ix
  | 9 => shape8 ix
  | _ => none

/-- The highest subindex of a shape. -/
def Shape.top : Shape → Nat
  | .simple _ => 0
  | .record os => os.length
  | .array n _ => n

/-- The object at a subindex of a shape; subindex 0 of a record is a U8, RO, giving the highest (R270). -/
def Shape.at (sh : Shape) (sub : Nat) : Option Obj :=
  match sh with
  | .simple o => if sub = 0 then some o else none
  | .record os => if sub = 0 then some (num .u8 .ro os.length) else os[sub - 1]?
  | .array n o => if sub = 0 then some (num .u8 .ro n) else if sub ≤ n then some o else none

/-- An object of the table. -/
def objAt (ix sub : Nat) : Option Obj := (shapeOf ix).bind fun sh => sh.at sub

/-- The key of an object in the base layer. -/
def objKey (ix sub : Nat) : Nat := ix * 256 + sub

/-- The request objects (R281). -/
def isRequest (ix sub : Nat) : Bool :=
  ix == 0x1010 || (ix == 0x1011 && 1 ≤ sub && sub ≤ 6) || (ix == 0x2001 && sub == 1) || (ix == 0x2002 && 1 ≤ sub && sub ≤ 2)

/-- The base layer holds the object (R281): RW, WO, RWL and W1 objects that are no request objects. A hard repair
slot's value lives in its stack's fuses (R291). -/
def inBase (ix sub : Nat) (o : Obj) : Bool :=
  (match o.acc with
   | .rw => true | .wo => true | .rwl => true | .w1 => true | .ro => false | .cmd => false)
  && !isRequest ix sub && !(0x8280 ≤ ix && ix < 0x8288)

/-- The length fits the type and the object (R271). -/
def lengthOk (o : Obj) (bs : List Byte) : Bool :=
  match o.ty.size with
  | some n => bs.length == n
  | none => if o.lens = [] then decide (bs.length ≤ o.bound) else o.lens.contains bs.length

/-- A value's own range (R271, R275 step 8), without cross-object checks. -/
def rangeOk (o : Obj) (bs : List Byte) : Bool :=
  let v := leNat bs
  (match o.ty with
   | .bool => decide (v ≤ 1)
   | .f32 => !isNan .b32 v
   | .f64 => !isNan .b64 v
   | .str => bs.all fun b => decide (0x20 ≤ b.toNat ∧ b.toNat ≤ 0x7E)
   | _ => true) &&
  match o.range with
  | .any => true
  | .between lo hi => decide (lo ≤ v ∧ v ≤ hi)
  | .among vs => vs.contains v
  | .even lo hi => decide (lo ≤ v ∧ v ≤ hi ∧ v % 2 = 0)
  | .mask m => v &&& m == v
  | .multiple n => v % n == 0
  | .real32 lo hi => le64 (to64 lo) (to64 v) && le64 (to64 v) (to64 hi)
  | .real64 lo hi => le64 lo v && le64 v hi

/-- An overlay may shadow the object (R285). -/
def shadowable (ix : Nat) (o : Obj) : Bool :=
  (match o.acc with
   | .rw => true | .rwl => true | _ => false) &&
  (match o.ty with
   | .str => false | .domain => false | .time64 => false | _ => true) &&
  (decide (0x2100 ≤ ix ∧ ix ≤ 0x2FFF) || decide (0x4000 ≤ ix ∧ ix ≤ 0x7FFF))

end Sys2Proof.Machine
end

