-- ==== Sys2Proof/Machine/Codec.lean ====
section
/-! DEFINITION. The exponent codec (R215 to R219, R222, R223) and the payload formats (R261 to R263), on bytes. -/

namespace Sys2Proof.Machine

/-! ## Code tables (R218, R219) -/

/-- A codec table in force in a slot: its ID, its element type (true for FP16) and its code lengths by symbol. -/
structure CodecTable where
  id : Nat
  fp16 : Bool
  lens : List Nat
  deriving DecidableEq, Repr

/-- Bytes of a table image. -/
def tableImageBytes (fp16 : Bool) : Nat := if fp16 then 36 else 148

/-- The code lengths of an image, two symbols a byte, the even one low (Table 8.6). -/
def imageLens (img : List Byte) (fp16 : Bool) : List Nat :=
  (slice img 16 (tableImageBytes fp16 - 20)).flatMap fun b => [b.toNat % 16, b.toNat / 16]

/-- Σ 2^(15 − len) over the symbols with a code (R218). -/
def kraftSum (lens : List Nat) : Nat := sumNat (lens.map fun l => if l = 0 then 0 else 2 ^ (15 - l))

/-- The checks of a table image (R219): the abort code of the first that fails, or the table.
An empty value clears the slot (log entry 12). -/
def checkTableImage (img : List Byte) : Except Nat (Option CodecTable) :=
  let ty := field img 6 1
  let fp16 := ty == 2
  if img = [] then .ok none
  else if img.length ≠ 148 ∧ img.length ≠ 36 then .error 0x06060000
  else if (ty = 1 ∧ img.length ≠ 148) ∨ (ty = 2 ∧ img.length ≠ 36) then .error 0x06060000
  else if slice img 0 4 ≠ ascii "RLCT" ∨ field img 4 2 ≠ 1 ∨ (ty ≠ 1 ∧ ty ≠ 2) then .error 0x06040000
  else if field img (img.length - 4) 4 ≠ crc32c (img.take (img.length - 4)) then .error 0x06040000
  else if field img 8 4 = 0 ∨ field img 12 4 ≠ 0 then .error 0x06040000
  else if field img 7 1 = 0 ∨ 15 < field img 7 1 then .error 0x06040000
  else if (imageLens img fp16).any (fun l => field img 7 1 < l) then .error 0x06040000
  else if 2 ^ 15 < kraftSum (imageLens img fp16) then .error 0x06040000
  else .ok (some ⟨field img 8 4, fp16, imageLens img fp16⟩)

/-- The symbols that have length `len`, ascending. -/
def symbolsOf (lens : List Nat) (len : Nat) : List Nat :=
  (List.range lens.length).filter fun s => lens.getD s 0 = len

/-- The canonical codes (R218): symbol, length, code. -/
def canonicalFrom (lens : List Nat) : Nat → Nat → Nat → List (Nat × Nat × Nat)
  | 0, _, _ => []
  | n + 1, len, code =>
    let ss := symbolsOf lens len
    ss.zipIdx.map (fun si => (si.1, len, code + si.2)) ++ canonicalFrom lens n (len + 1) (2 * (code + ss.length))

/-- The canonical codes of a table, lengths 1 to 15. -/
def canonical (lens : List Nat) : List (Nat × Nat × Nat) := canonicalFrom lens 15 1 0

/-- A number as bits, most significant first. -/
def bitsMsb (n v : Nat) : List Bool := (List.range n).map fun i => v.testBit (n - 1 - i)
/-- A number as bits, least significant first. -/
def bitsLsb (n v : Nat) : List Bool := (List.range n).map fun i => v.testBit i
/-- The number that bits spell, least significant first. -/
def natOfLsb : List Bool → Nat
  | [] => 0
  | b :: bs => (if b then 1 else 0) + 2 * natOfLsb bs
/-- Bits to bytes, each byte filled from bit 7 down, the last padded with zeros; `n` bytes. -/
def bytesMsb : Nat → List Bool → List Byte
  | 0, _ => []
  | n + 1, bs => BitVec.ofNat 8 (natOfLsb ((bs.take 8 ++ List.replicate (8 - (bs.take 8).length) false).reverse)) :: bytesMsb n (bs.drop 8)
/-- Bits to bytes, each byte filled from bit 0 up; `n` bytes. -/
def bytesLsb : Nat → List Bool → List Byte
  | 0, _ => []
  | n + 1, bs => BitVec.ofNat 8 (natOfLsb (bs.take 8)) :: bytesLsb n (bs.drop 8)

/-! ## Blocks (R216, R217) -/

/-- The exponent symbol of a 16-bit element. -/
def expOf (fp16 : Bool) (v : Nat) : Nat := if fp16 then bits v 14 10 else bits v 14 7
/-- Sign and mantissa: 8 bits for BF16, 11 for FP16 (R216). -/
def signMant (fp16 : Bool) (v : Nat) : Nat :=
  if fp16 then bits v 15 15 * 1024 + bits v 9 0 else bits v 15 15 * 128 + bits v 6 0
/-- The element from its exponent and its sign and mantissa. -/
def joinElem (fp16 : Bool) (ex sm : Nat) : Nat :=
  if fp16 then bits sm 10 10 * 2 ^ 15 + ex % 32 * 1024 + bits sm 9 0
  else bits sm 7 7 * 2 ^ 15 + ex % 256 * 128 + bits sm 6 0
/-- Bits of a sign-and-mantissa field. -/
def smBits (fp16 : Bool) : Nat := if fp16 then 11 else 8
/-- Bytes of the sign-and-mantissa section of `n` elements. -/
def smBytes (fp16 : Bool) (n : Nat) : Nat := ceilDiv (n * smBits fp16) 8

/-- The 16-bit elements of raw bytes. -/
def halves : List Byte → List Nat
  | a :: b :: bs => (a.toNat + 256 * b.toNat) :: halves bs
  | _ => []

/-- The code of one exponent. -/
def codeOf (codes : List (Nat × Nat × Nat)) (sym : Nat) : Option (List Bool) :=
  match codes.find? (fun c => c.1 == sym) with
  | none => none
  | some (_, len, code) => some (bitsMsb len code)

/-- The exponent codes of a block's elements; `none` when one has no code. -/
def codeBits (codes : List (Nat × Nat × Nat)) (fp16 : Bool) : List Nat → Option (List Bool)
  | [] => some []
  | v :: vs =>
    match codeOf codes (expOf fp16 v), codeBits codes fp16 vs with
    | some c, some r => some (c ++ r)
    | _, _ => none

/-- A block coded with one table, without its header. -/
def codeBlock (t : CodecTable) (elems : List Nat) : Option (List Byte) :=
  match codeBits (canonical t.lens) t.fp16 elems with
  | none => none
  | some bs =>
    some (bytesLsb (smBytes t.fp16 elems.length) (elems.flatMap fun v => bitsLsb (smBits t.fp16) (signMant t.fp16 v))
      ++ bytesMsb (ceilDiv bs.length 8) bs)

/-- The header of a block. -/
def blockHeader (coded : Bool) (slot len : Nat) : List Byte :=
  toLE 2 ((if coded then 2 ^ 15 else 0) + slot % 16 * 2 ^ 11 + len % 2 ^ 11)

/-- The shortest coding over the slots, the lowest slot among equals (R217). -/
def bestCoding (fp16 : Bool) (elems : List Nat) : List (Nat × CodecTable) → Option (Nat × List Byte)
  | [] => none
  | (s, t) :: ts =>
    let rest := bestCoding fp16 elems ts
    if t.fp16 != fp16 then rest
    else match codeBlock t elems, rest with
      | none, r => r
      | some c, none => some (s, c)
      | some c, some (s', c') => if c'.length < c.length then some (s', c') else some (s, c)

/-- One block on the wire (R216, R217). -/
def encodeBlock (fp16 enabled : Bool) (tables : List (Nat × CodecTable)) (raw : List Byte) : List Byte :=
  match (if enabled then bestCoding fp16 (halves raw) tables else none) with
  | some (s, c) => if c.length < raw.length then blockHeader true s c.length ++ c else blockHeader false 0 raw.length ++ raw
  | none => blockHeader false 0 raw.length ++ raw

/-- A vector field on the wire: blocks of 512 raw bytes, the last shorter (R215); `n` blocks. -/
def encodeField (fp16 enabled : Bool) (tables : List (Nat × CodecTable)) : Nat → List Byte → List Byte
  | 0, _ => []
  | n + 1, bs => encodeBlock fp16 enabled tables (bs.take 512) ++ encodeField fp16 enabled tables n (bs.drop 512)

/-- Matching one code at the front of a bit stream: the symbol and the bits after it. -/
def matchCode (codes : List (Nat × Nat × Nat)) (bs : List Bool) : Option (Nat × List Bool) :=
  match codes.find? (fun c => decide (c.2.1 ≤ bs.length) && bs.take c.2.1 == bitsMsb c.2.1 c.2.2) with
  | none => none
  | some (s, len, _) => some (s, bs.drop len)

/-- Reading `n` exponents; `none` for a code not assigned or a section that ends too early (R223). -/
def readExps (codes : List (Nat × Nat × Nat)) : Nat → List Bool → Option (List Nat × List Bool)
  | 0, bs => some ([], bs)
  | n + 1, bs =>
    match matchCode codes bs with
    | none => none
    | some (s, r) =>
      match readExps codes n r with
      | none => none
      | some (ss, r') => some (s :: ss, r')

/-- Reading the `n` sign-and-mantissa fields. -/
def readSm (w : Nat) : Nat → List Bool → List Nat
  | 0, _ => []
  | n + 1, bs => natOfLsb (bs.take w) :: readSm w n (bs.drop w)

/-- Decoding one coded block of `n` elements (R222, R223): `none` is a decode fault. -/
def decodeCoded (t : CodecTable) (n : Nat) (body : List Byte) : Option (List Byte) :=
  let smLen := smBytes t.fp16 n
  let sm := readSm (smBits t.fp16) n ((body.take smLen).flatMap fun b => bitsLsb 8 b.toNat)
  match readExps (canonical t.lens) n ((body.drop smLen).flatMap fun b => bitsMsb 8 b.toNat) with
  | none => none
  | some (es, rest) =>
    if body.length < smLen ∨ 8 ≤ rest.length ∨ rest.any id then none
    else some ((List.zipWith (joinElem t.fp16) es sm).flatMap (toLE 2))

/-- Decoding a framed field of `raw` bytes: its raw bytes and the wire bytes after it; `none` is a decode
fault (R223). `n` bounds the blocks. -/
def decodeField (fp16 : Bool) (tables : List (Nat × CodecTable)) : Nat → Nat → List Byte → Option (List Byte × List Byte)
  | 0, raw, w => if raw = 0 then some ([], w) else none
  | n + 1, raw, w =>
    if raw = 0 then some ([], w)
    else
      let h := field w 0 2
      let len := h % 2 ^ 11
      let size := min 512 raw
      let body := slice w 2 len
      let blk :=
        if body.length < len then none
        else if h < 2 ^ 15 then (if len = size ∧ bits h 14 11 = 0 then some body else none)
        else if 512 ≤ len then none
        else match tables.find? (fun t => t.1 == bits h 14 11) with
          | none => none
          | some (_, t) => if t.fp16 != fp16 then none else decodeCoded t (size / 2) body
      match blk with
      | none => none
      | some b =>
        match decodeField fp16 tables n (raw - size) (w.drop (2 + len)) with
        | none => none
        | some (bs, rest) => some (b ++ bs, rest)

/-! ## Payload formats (R261 to R263) -/

/-- The formats of Table 10.2. -/
inductive PayFmt | raw | e4m3 | e5m2
  deriving DecidableEq, Repr

def PayFmt.ofCode? : Nat → Option PayFmt
  | 0 => some .raw
  | 1 => some .e4m3
  | 2 => some .e5m2
  | _ => none

def PayFmt.code : PayFmt → Nat
  | .raw => 0 | .e4m3 => 1 | .e5m2 => 2

/-- The stored size S of N (Table 10.2). -/
def PayFmt.stored (f : PayFmt) (n : Nat) : Nat :=
  match f with
  | .raw => n
  | _ => 4 * ceilDiv n 4 + 4 * ceilDiv n 128

/-- The body length in wide form (R266). -/
def PayFmt.wide (f : PayFmt) (n : Nat) : Nat :=
  match f with
  | .raw => n
  | _ => 4 * ceilDiv (2 * n) 4 + 4 * ceilDiv n 128

/-- The 8-bit format of a payload. -/
def PayFmt.fmt : PayFmt → Fmt
  | .e5m2 => .e5m2
  | _ => .e4m3

/-- F of R262. -/
def PayFmt.largest : PayFmt → Nat
  | .e5m2 => 57344
  | _ => 448

/-- The scale of a block of BF16 elements (R262). -/
def blockScale (f : PayFmt) (xs : List Nat) : Nat :=
  let m := (xs.map (· % 2 ^ 15)).foldl max 0
  if m = 0 then 0x3F800000
  else match FVal.ofBits .bf16 m with
    | .fin _ k e => roundQuot .b32 .near false k f.largest e
    | _ => 0x3F800000

/-- One element divided by its block's scale, rounded once (R262). -/
def quantise (f : PayFmt) (s x : Nat) : Nat :=
  match FVal.ofBits .bf16 x, FVal.ofBits .b32 s with
  | .fin neg m e, .fin _ ms es =>
    if m = 0 ∨ ms = 0 then (if neg then 0x80 else 0) else roundQuot f.fmt .near neg m ms (e - es)
  | _, _ => 0

/-- The blocks of 128 elements. -/
def chunks128 : Nat → List Nat → List (List Nat)
  | 0, _ => []
  | n + 1, xs => xs.take 128 :: chunks128 n (xs.drop 128)

/-- The stored form of a payload from its source bytes (R262). -/
def storedForm (f : PayFmt) (n : Nat) (src : List Byte) : List Byte :=
  match f with
  | .raw => src.take n
  | _ =>
    let blks := chunks128 (ceilDiv n 128) ((halves src).take n)
    let els := blks.flatMap fun b => b.map fun x => BitVec.ofNat 8 (quantise f (blockScale f b) x)
    padTo (4 * ceilDiv n 4) els ++ blks.flatMap fun b => toLE 4 (blockScale f b)

/-- One stored element as BF16 (R263). -/
def widenElem (f : PayFmt) (v : Nat) : Nat :=
  let sign := v / 128 * 2 ^ 15
  match FVal.ofBits f.fmt v with
  | .nan => if f = .e5m2 then sign + 0x7F80 + v % 4 * 32 else sign + 0x7FC0
  | x => x.toBits .bf16 .near

/-- The wide form of a stored payload (R263, R266). -/
def wideForm (f : PayFmt) (n : Nat) (body : List Byte) : List Byte :=
  match f with
  | .raw => body
  | _ =>
    padTo (4 * ceilDiv (2 * n) 4) ((body.take n).flatMap fun b => toLE 2 (widenElem f b.toNat))
      ++ slice body (4 * ceilDiv n 4) (4 * ceilDiv n 128)

end Sys2Proof.Machine
end

