-- ==== Sys2Proof/Machine/State.lean ====
section
/-! DEFINITION. The state of the device as plain data, the reasons a command can stop, and the state after reset.
Every structure's defaults are the reset values; a map holds what differs from reset (absent: the reset value). -/

namespace Sys2Proof.Machine

/-! ## Time, boot and the event log -/

/-- Time: microseconds since cold reset (R4), the calendar (R294) and the staged fields (R295). -/
structure Clk where
  now : Nat := 0
  sec : Nat := 0
  us : Nat := 0
  valid : Bool := false
  year : Nat := 0
  month : Nat := 0
  day : Nat := 0
  hour : Nat := 0
  minute : Nat := 0
  second : Nat := 0
  deriving DecidableEq, Repr

/-- What recovery is for (R346). -/
inductive RecoveryFor | firmware | bundle
  deriving DecidableEq, Repr

/-- Pins, boot and the global status page (Table 14.1, R341 to R348). -/
structure Boot where
  coldHeld : Bool := true
  perstHeld : Bool := true
  /-- The host interface answers configuration requests (R342). -/
  hostUp : Bool := false
  stage : Nat := 0
  flags : Nat := 0
  creditFault : Bool := false
  fenced : Bool := false
  /-- A fault of the class Fence has come since the last reset (Table 14.4): FENCED in DeviceFlags. -/
  fenceFlag : Bool := false
  scrubbing : Bool := false
  recoveryStatus : Nat := 0
  recoveryLength : Nat := 0
  recovery : Option RecoveryFor := none
  fwVersion : Nat := 0
  fwEntry : Nat := 0
  fwImage : List Byte := []
  /-- The secondary firmware copy is the one being read (R310). -/
  secondary : Bool := false
  firmwareOk : Bool := false
  configDone : Bool := false
  bundleDone : Bool := false
  hbmDone : Bool := false
  /-- The boot in progress follows a warm reset (R348), and whether with retention. -/
  warmBoot : Option Bool := none
  fuse : FuseRead := {}
  fuseFault : Bool := false
  tray : Nat := 0
  position : Option Nat := none
  /-- A warm reset on its way: with retention or not, and when it takes place (R348). -/
  warmPending : Option (Bool × Nat) := none
  watchdogLog : Bool := false
  storeBroken : Bool := false
  deriving DecidableEq, Repr

/-- The event log (R352, R353): entries by entry number mod 1,024. -/
structure EventLog where
  ring : Map (List Byte) := []
  last : Nat := 0
  overwritten : Nat := 0
  deriving DecidableEq, Repr

/-- What leaves the device, in order: posted writes, MSI-X messages, CAN FD frames, master frames, flits. -/
inductive Out
  | write (requester addr : Nat) (data : List Byte) (relaxed : Bool)
  | hostRead (requester addr len : Nat)
  | msix (fn vec addr data : Nat)
  | can (identifier : Nat) (data : List Byte)
  | sspFrame (select : Nat) (command address : List Byte) (dummy : Nat) (write : Bool) (data : List Byte) (len : Nat)
  | flit (port : Nat) (bytes : List Byte)
  | sspOut (slot : List Byte)
  deriving DecidableEq, Repr

/-! ## Dictionary, VDP, CAN FD and SSP -/

/-- The answer of the last dictionary write: its abort code, or success with SHADOWED. -/
inductive Answer
  | none
  | ok (shadowed : Bool)
  | abort (code : Nat)
  deriving DecidableEq, Repr

/-- The dictionary (11): base layer by index × 256 + subindex, store, mode and probe. -/
structure Dict where
  base : Map (List Byte) := []
  locked : Bool := false
  answer : Answer := .none
  storeStatus : Nat := 0
  storeGeneration : Nat := 0
  /-- The copy loaded or last stored (R282): 0 A, 1 B. -/
  storeCopy : Option Nat := none
  /-- The store that runs: copy, generation, the bytes it writes (R311). -/
  storing : Option (Nat × Nat × List Byte) := none
  storePending : Bool := false
  mode : Nat := 0
  applying : Bool := false
  target : Nat := 0
  safeCause : Nat := 0
  safeWaiting : Bool := false
  /-- The transition in progress is the device's own selection of SAFE, which is not refused (R289). -/
  forced : Bool := false
  /-- SafeCause [0] was set before the selection in progress cleared it; a refusal sets it again (R287, R289). -/
  hostWas : Bool := false
  modeRequest : Nat := 0
  modeChanges : Nat := 0
  /-- Objects written while a transition runs, with the value the device still acts on (R287). -/
  heldOld : Map (List Byte) := []
  /-- The keys of those writes, in arrival order. -/
  heldKeys : List Nat := []
  /-- The overlay edited while active, waiting for its re-application (R288): the overlay's old values. -/
  overlayOld : Option (Map (List Byte)) := none
  probeIndex : Nat := 0
  probeSubindex : Nat := 0
  deriving DecidableEq, Repr

/-- An open segmented transfer (R277 to R279). -/
structure Transfer where
  write : Bool
  index : Nat
  subindex : Nat
  total : Nat
  data : List Byte := []
  sent : Nat := 0
  toggle : Nat := 0
  started : Bool := false
  last : List Byte := []
  since : Nat := 0
  deriving DecidableEq, Repr

/-- One VDP transport's transfer and the answer it keeps after a final SEGMENT (R278). -/
structure VdpPort where
  transfer : Option Transfer := none
  kept : Option (Nat × Bool × List Byte) := none
  deriving DecidableEq, Repr

/-- The mailbox registers (Table 11.7) and the two VDP transports' transfers. -/
structure Vdp where
  busy : Bool := false
  done : Bool := false
  overrun : Bool := false
  reqLen : Nat := 0
  request : List Byte := []
  respLen : Nat := 0
  response : List Byte := []
  mailbox : VdpPort := {}
  can : VdpPort := {}
  /-- The last READ or WRITE frame on CAN FD with its answer and when it arrived (R300). -/
  canLast : Option (Nat × List Byte × List Byte × Nat) := none
  deriving DecidableEq, Repr

/-- CAN FD (R296 to R302): settings in force and the bus. -/
structure Can where
  node : Nat := 0
  rate : Nat := 3
  enable : Bool := true
  state : Nat := 0
  txErrors : Nat := 0
  rxErrors : Nat := 0
  busOffs : Nat := 0
  /-- AutoRecover or Enable was written while bus-off (R302). -/
  rejoin : Bool := false
  eventSeq : Nat := 0
  heartbeatSeq : Nat := 0
  deriving DecidableEq, Repr

/-- A framed transfer of the master port (R305, R306). -/
structure MasterFrame where
  select : Nat
  command : List Byte
  address : List Byte
  dummy : Nat
  write : Bool
  eightBit : Bool
  data : List Byte
  len : Nat
  deriving DecidableEq, Repr

/-- The serial sideband: master port (R303 to R307) and slave port (R313 to R321). -/
structure Ssp where
  status : Nat := 0
  readData : List Byte := []
  frame : Option MasterFrame := none
  response : List Byte := [6, 0, 0, 0, 0, 0, 0, 0]
  shifted : List Byte := [6, 0, 0, 0, 0, 0, 0, 0]
  selected : Bool := false
  stalled : Bool := false
  request : Option (List Byte) := none
  staging : List Byte := []
  target : Option (Nat × Nat) := none
  /-- The last staging operation was a WRITE_STAGED (R317). -/
  latched : Nat := 0
  discarded : Nat := 0
  slotsBusy : Nat := 0
  badCommands : Nat := 0
  deriving DecidableEq, Repr

/-! ## Host interface -/

/-- The states of a queue slot (Table 7.4). -/
inductive QueueStatus | absent | live | deleting | refused | halted
  deriving DecidableEq, Repr

/-- A queue slot (Table 7.4). -/
structure QSlot where
  regs : SlotRegs := {}
  status : QueueStatus := .absent
  reason : Nat := 0
  pendingCreate : Bool := false
  sqHead : Nat := 0
  tail : Nat := 0
  cqTail : Nat := 0
  cqHead : Nat := 0
  phase : Bool := true
  /-- Entries posted since the queue's last interrupt (R180). -/
  unsignalled : Nat := 0
  firstUnsignalled : Nat := 0
  deriving DecidableEq, Repr

/-- The states of a burrow (R187). -/
inductive BurrowState | disabled | enabled | draining
  deriving DecidableEq, Repr

/-- A burrow (Tables 7.9, 7.10, 7.3). -/
structure Burrow where
  state : BurrowState := .disabled
  generation : Nat := 0
  pendingEnable : Bool := false
  discard : Bool := false
  /-- A function-level reset of its virtual function is in progress (R190). -/
  resetting : Bool := false
  errorFlags : Nat := 0
  discarded : Nat := 0
  admitted : Nat := 0
  deficit : Nat := 0
  /-- Weighted round robin of R134, level 3: the class in service, what is left of its weight, and the last
  queue served. -/
  cls : Nat := 1
  clsLeft : Nat := 0
  lastQueue : Nat := 0
  deriving DecidableEq, Repr

/-- Whose command it is: burrow, queue, generation tag at fetch (R188) and command ID. -/
structure Origin where
  burrow : Nat
  queue : Nat
  gen : Nat
  cmdId : Nat
  deriving DecidableEq, Repr

/-- A command read from the host and not yet admitted, its entries' bytes in order (R90). -/
structure Fetched where
  origin : Origin
  bytes : List Byte
  entries : Nat
  order : Nat
  deriving DecidableEq, Repr

/-- A SNAPSHOT_EXPORT in progress (R141): its stamp, the generation and root it reads, and the records pulled so far from
each range of another device, by the range's first list, each with its vector; ranges that are complete. -/
structure Exporting where
  stamp : Nat := 0
  generation : Nat := 0
  root : Nat := 0
  got : Map (List (List Byte × List Byte)) := []
  complete : List Nat := []
  deriving DecidableEq, Repr

/-- A command admitted and not yet complete. -/
structure Live where
  origin : Origin
  opcode : Nat
  coll : Nat := 0
  bytes : List Byte := []
  /-- Submission order, and admission order. -/
  order : Nat := 0
  admitted : Nat := 0
  /-- A query has its stamp; a mutation has been handed to its sequencer (R129). -/
  passed : Bool := false
  /-- The generation tag of the command slot (R213). -/
  tag : Nat := 0
  ctx : Option Nat := none
  mutationSlot : Bool := false
  /-- The image or source a command read from its host. -/
  data : List Byte := []
  exporting : Option Exporting := none
  deriving DecidableEq, Repr

/-- A completion that waits for completion-queue space (R52, Table 4.10). -/
structure Completion where
  origin : Origin
  status : Nat := 0
  sealed : Bool := false
  count : Nat := 0
  lists : Nat := 0
  stamp : Nat := 0
  waves : Nat := 0
  /-- A query context to return when the entry is posted (R50). -/
  ctx : Option Nat := none
  deriving DecidableEq, Repr

/-- One MSI-X table entry with its PBA bit (R171, R172, R180). -/
structure Vector where
  addr : Nat := 0
  data : Nat := 0
  masked : Bool := true
  pending : Bool := false
  deriving DecidableEq, Repr

/-- The host interface, fetch and admission. Queue slot q of burrow n is at key 16n + q; vector v of function f
at key 32f + v, function 0 being the physical one. -/
structure HostIf where
  vfEnable : Bool := false
  numVfs : Nat := 0
  vectors : Map Vector := []
  burrows : Map Burrow := []
  slots : Map QSlot := []
  fetched : List Fetched := []
  fetchOrder : Nat := 0
  /-- The command admission has chosen and not yet carried out (R134). -/
  admitting : Option Fetched := none
  live : Map Live := []
  admitOrder : Nat := 0
  waiting : List Completion := []
  urgentTokens : Nat := 0
  /-- Hundredths of an urgent token (UrgentShare per 100 admissions). -/
  urgentPart : Nat := 0
  burrowTurn : Nat := 0
  urgentTurn : Nat := 0
  /-- The burrow whose round of R134, level 2, is in progress. -/
  inService : Option Nat := none
  /-- Admission decisions counted for the throttle (R337). -/
  decisions : Nat := 0
  deriving DecidableEq, Repr

/-- One credit pool (R354). -/
structure Pool where
  issued : Nat := 0
  returned : Nat := 0
  outstanding : Nat := 0
  deriving DecidableEq, Repr

/-- The credit pools of Table 14.8 at key code × 256 + number of the pool, and the audit objects. -/
structure Credits where
  pools : Map Pool := []
  auditCount : Nat := 0
  faultPool : Nat := 0
  faultIssued : Nat := 0
  faultReturned : Nat := 0
  faultOutstanding : Nat := 0
  deriving DecidableEq, Repr

/-! ## Memory: segments, regulators, diagnostics -/

/-- The states of a segment (Table 6.5). -/
inductive SegState | free | resident | paged | pagingOut | pagingIn | retiring | quarantined
  deriving DecidableEq, Repr

def SegState.code : SegState → Nat
  | .free => 0 | .resident => 1 | .paged => 2 | .pagingOut => 3 | .pagingIn => 4 | .retiring => 5 | .quarantined => 6

/-- A segment (Table 6.4). -/
structure Seg where
  state : SegState := .free
  frame : Option Nat := none
  slot : Option Nat := none
  kind : Nat := 0
  burrow : Nat := 0
  coll : Nat := 0
  list : Nat := 0xFFFFFFFF
  /-- The generation in which it was written (Table 3.3, bytes 8–15). -/
  written : Nat := 0
  /-- The clock sweep's reference bit, and outstanding fetch tags (R153). -/
  referenced : Bool := false
  tags : Nat := 0
  /-- The page-in read has been retried once (R155). -/
  retried : Bool := false
  /-- Kill writes held until the segment is RESIDENT or remapped (R156, R158): offset, sequence, and the
  sender's acknowledgement. -/
  kills : List (Nat × Nat × Nat × Nat) := []
  /-- Evacuation is copying it (R158). -/
  copying : Bool := false
  deriving DecidableEq, Repr

/-- The Segment Manager (06): HBM content is in `State.mem`. -/
structure SegMan where
  map : Map Seg := []
  free : Nat := 3128320
  live : Nat := 0
  retiring : Nat := 0
  total : Nat := 3128320
  /-- Frames quarantined and not returned (R157, R168), and how many since cold reset. -/
  quarantine : List Nat := []
  quarantined : Nat := 0
  /-- Frames quarantined per pseudo-channel since cold reset (R158). -/
  failures : Map Nat := []
  retired : List Nat := []
  /-- When the corrected errors of the last hour came, per pseudo-channel (R158). -/
  corrected : Map (List Nat) := []
  patrolled : Nat := 0
  /-- System-area frames replaced by pool frames (R158). -/
  replaced : Map Nat := []
  clockHand : Nat := 0
  pagingOut : Bool := false
  frozen : Bool := false
  /-- Page-ins asked for and not started, in order: segment, on demand or prefetch. -/
  wanted : List (Nat × Bool) := []
  deriving DecidableEq, Repr

/-- The bandwidth regulators (R160 to R165): maps by burrow. -/
structure Regulator where
  pool : Nat := 0
  bucket : Map Nat := []
  spent : Map Nat := []
  deliverable : Nat := 79872
  channelTokens : Nat := 400
  healthy : Nat := 256
  effective : Map Nat := []
  scaled : Bool := false
  deriving DecidableEq, Repr

/-- A traffic generator (Table 6.8). -/
structure Generator where
  status : Nat := 0
  errors : Nat := 0
  firstError : Nat := 0
  corrected : Nat := 0
  uncorrectable : Nat := 0
  /-- Frames taken, and whether each was free (else quarantined). -/
  frames : List (Nat × Bool) := []
  deriving DecidableEq, Repr

/-- Diagnostics (R166 to R168): generators, repairs and hard repair fuses by stack. -/
structure Diag where
  generators : Map Generator := []
  spareRead : Map Nat := []
  repairStatus : Map Nat := []
  /-- Soft repairs in force: stack, pseudo-channel in the stack, bank, row. -/
  soft : List (Nat × Nat × Nat × Nat) := []
  /-- Hard repair slots, at stack × 32 + slot; they live in the stacks' fuses. -/
  hard : Map Nat := []
  /-- The frames whose PRBS31 pass after a hard repair is due or runs, by stack, the first one running. -/
  checking : Map (List Nat) := []
  deriving DecidableEq, Repr

/-! ## Collections -/

/-- A mutation at the sequencer (R121): who sent it and what it carries. -/
structure MutReq where
  /-- The device that holds the command, and the command's tag there. -/
  device : Nat
  tag : Nat
  burrow : Nat
  desc : List Byte
  vec : List Byte := []
  deriving DecidableEq, Repr

/-- The mutation in flight at the sequencer. -/
structure InFlight where
  req : MutReq
  n : Nat
  /-- Whom the stash write and the kill write wait on. -/
  stashAt : Option Nat := none
  killAt : Option Nat := none
  /-- Devices that received a write. -/
  sent : List Nat := []
  /-- The entry it puts into or takes from the ID map. -/
  ext : Nat := 0
  owner : Nat := 0
  failed : Bool := false
  status : Nat := 0
  /-- Devices whose REVOKE_ACK is missing, and those whose REVOKE was not answered (R127). -/
  revoking : List Nat := []
  unanswered : List Nat := []
  /-- Its requester has been answered already (R127). -/
  answered : Bool := false
  deriving DecidableEq, Repr

/-- The phases of a generation change (Table 5.5). -/
inductive RunPhase | copy | prepare | publish
  deriving DecidableEq, Repr

/-- A compaction run or a load that publishes a generation (R137, R88). -/
structure Run where
  phase : RunPhase := .copy
  load : Bool := false
  cut : Nat := 0
  waiting : List Nat := []
  status : Nat := 0
  /-- The loading device, and the command's holder and tag for a load. -/
  loader : Nat := 0
  device : Nat := 0
  tag : Nat := 0
  deriving DecidableEq, Repr

/-- A creation at its sequencer: pieces still to be acknowledged, and the command (R60). -/
structure Creation where
  waiting : List (Nat × Nat) := []
  /-- Devices that have created it. -/
  made : List Nat := []
  status : Nat := 0
  cmd : Nat := 0
  deriving DecidableEq, Repr

/-- The collection sequencer (R121). -/
structure Sequencer where
  committed : Nat := 0
  accepted : Nat := 0
  queue : List MutReq := []
  current : Option InFlight := none
  held : Bool := false
  /-- Live entry per external ID: sequence number and storing device (R122). -/
  idMap : Map (Nat × Nat) := []
  run : Option Run := none
  /-- COMPACT commands that wait for a run started after their admission: device, tag. -/
  compactNow : List (Nat × Nat) := []
  compactNext : List (Nat × Nat) := []
  creation : Option Creation := none
  /-- A drop that is being published: devices to acknowledge, the command's device and tag. -/
  drop : Option (List Nat × Nat × Nat) := none
  /-- A run found no space; the automatic trigger waits until a retirement frees segments (R136). -/
  starved : Bool := false
  /-- Publish decisions in the anchor (R138): generations decided. -/
  decided : List Nat := []
  /-- What the ID map named before each accepted mutation above the cut: number, external ID, entry. -/
  undo : List (Nat × Nat × Option (Nat × Nat)) := []
  deriving DecidableEq, Repr

/-- What a device has built for a new generation (R137, R88): its chains and tables, until its root is written. -/
structure Prepared where
  /-- The root segment; none before Prepare. -/
  root : Option Nat := none
  generation : Nat
  cut : Nat
  dirs : List Nat := []
  cents : List Nat := []
  adjs : List Nat := []
  /-- Segments allocated for it. -/
  fresh : List Nat := []
  /-- Where its rewritten records lie, as in the locator table. -/
  locator : Map (Bool × Nat × Nat) := []
  /-- Its pinned blocks: list, tile. -/
  blocks : List (Nat × Nat) := []
  /-- A load's entries of the ID map, and its entry count (R86). -/
  ids : Map (Nat × Nat) := []
  entries : Option Nat := none
  /-- Segments of the ID map and of the locator table that a load takes. -/
  idSegs : List Nat := []
  locSegs : List Nat := []
  /-- A list that a repair carries stays DAMAGED (R87). -/
  lacking : Bool := false
  deriving DecidableEq, Repr

/-- A load as a storing device pulls it (R88): loading device, the load's tag, and the parts pulled so far by image
offset. -/
structure Pull where
  loader : Nat
  tag : Nat := 0
  got : Map (List Byte) := []
  deriving DecidableEq, Repr

/-- How far the initial load has come (R86). -/
inductive LoadState | notLoaded | running | loaded
  deriving DecidableEq, Repr

/-- A collection on this device (R59, R67, R77). -/
structure Coll where
  owner : Nat := 0
  dim : Nat := 8
  ty : ElemType := .int8
  metric : Metric := .innerProduct
  kernel : Nat := 0
  lists : Nat := 1
  a0 : Nat := 0
  a1 : Nat := 0
  pinned : Bool := false
  /-- Shard map: first list ID and device of each range (R83). -/
  shards : List (Nat × Nat) := []
  /-- Pieces of its creation received so far, by index of the first range record. -/
  pieces : List Nat := []
  /-- It serves commands (its creation is complete on this device). -/
  created : Bool := true
  /-- Generation pointer (R67). -/
  generation : Nat := 0
  root : Nat := 0
  /-- Older generations still read: number, root (R137). -/
  old : List (Nat × Nat) := []
  prepared : Option Prepared := none
  load : LoadState := .notLoaded
  pull : Option Pull := none
  lost : Bool := false
  dropped : Bool := false
  readOnly : Bool := false
  /-- Quarantined structures (Table 6.6): queries fail, mutations fail, no adjacency. -/
  mediaQuery : Bool := false
  mediaMutation : Bool := false
  noAdjacency : Bool := false
  /-- Commands complete SHARD_LOST until every scrub has ended (R139). -/
  scrubbing : Bool := false
  /-- Recovered sequence to report with the first FENCE with STAMP (R139). -/
  recovered : Option Nat := none
  /-- The chain of stash stripes, first to last (R77). -/
  stash : List Nat := []
  flushed : Nat := 0
  /-- Stash records placed in the stash buffer and not yet in HBM: when the oldest was placed. -/
  unflushed : Option Nat := none
  /-- The highest number of a stash record or kill that came to this device. -/
  seen : Nat := 0
  /-- Kills above the cut that came to this device: number and target (R127, R139). -/
  kills : List (Nat × Nat) := []
  /-- Flushed sequences of other devices, as reported (R139). -/
  reported : Map Nat := []
  /-- Where a sequence number's record lies on this device: segment and index, or tile and index (R122). -/
  locator : Map (Bool × Nat × Nat) := []
  /-- Where records that compaction moved lie in generations still read (R137): sequence number, place. -/
  oldLocator : List (Nat × Bool × Nat × Nat) := []
  /-- DAMAGED lists found while a generation was in use: generation, list. -/
  damaged : List (Nat × Nat) := []
  /-- Pinned blocks: list, tile (R80); a block's bytes are in its tile. Those of older generations: generation, list,
  tile. -/
  blocks : List (Nat × Nat) := []
  oldBlocks : List (Nat × Nat × Nat) := []
  /-- Segments of the ID map and of the locator table (R122). -/
  idSegs : List Nat := []
  locSegs : List Nat := []
  seqr : Option Sequencer := none
  deriving DecidableEq, Repr

/-- A record in the stash buffer that HBM does not hold yet (R123): segment, offset, bytes. -/
structure Buffered where
  coll : Nat
  seg : Nat
  offset : Nat
  bytes : List Byte
  deriving DecidableEq, Repr

/-! ## Queries -/

/-- A candidate in a sorter (R108): order key, sequence number, reference (a record locator of R106, or an index
of the remote record area), and what withdraws it: the list and wave it came from. -/
structure Cand where
  key : Nat
  seq : Nat
  remote : Bool := false
  ref : Nat
  list : Option Nat := none
  wave : Nat := 0
  /-- The tile and invocation that posted it (R241). -/
  tile : Nat := 0
  invocation : Nat := 0
  deriving DecidableEq, Repr

/-- A query's sorter state (R108). -/
structure Sorter where
  k : Nat := 0
  top : List Cand := []
  intake : List Cand := []
  /-- Candidates of the wave in progress that pre-selection or a merge let go: the withdrawal of a damaged list
  (R115) leaves the exact top k over the others (R29), so they come back then. -/
  spill : List Cand := []
  coarse : List Nat := List.replicate 64 0
  fine : List Nat := List.replicate 64 0
  focus : Nat := 63
  threshold : Nat := 4095
  deriving DecidableEq, Repr

/-- A ranked list (Table 4.6). -/
structure Ranked where
  key : Nat
  list : Nat
  minSeq : Nat
  owner : Nat := 0
  deriving DecidableEq, Repr

/-- How far a query has come. -/
inductive CtxPhase | stamping | ready | ranking | ranked | wave | decided | writing | finished
  deriving DecidableEq, Repr

/-- A query context: of a query of this device, or of a remote query (R92, R205). -/
structure Ctx where
  /-- The command's key in `host.live`; none for a remote query. -/
  cmd : Option Nat := none
  /-- The home device and its tag, for a remote query. -/
  home : Nat := 0
  tag : Nat := 0
  burrow : Nat := 0
  coll : Nat := 0
  vec : List Byte := []
  terms : Nat := 0
  filter : List Byte := []
  k : Nat := 0
  stamp : Nat := 0
  day : Nat := 0
  generation : Nat := 0
  root : Nat := 0
  sorterNo : Nat := 0
  chunks : Nat := 0
  budgeted : Bool := false
  budget : Nat := 0
  full : Bool := false
  payload : Bool := false
  width : Nat := 16
  deadline : Nat := 0
  deadlinePassed : Bool := false
  resultAddr : Nat := 0
  payloadAddr : Nat := 0
  payloadSize : Nat := 0
  phase : CtxPhase := .ready
  /-- Tiles of the group by column order, with the slot held on each. -/
  tiles : List (Nat × Nat) := []
  /-- Ranking: lists computed so far, those after the cursor counting; during a wave, its lists. -/
  ranks : List Ranked := []
  cursor : Option Ranked := none
  table : List Ranked := []
  beyond : Option (Nat × Nat) := none
  /-- The lists beyond the table; τ at the query's first seal test, once one has run (R30). -/
  far : List Ranked := []
  firstTau : Option (Option (Nat × Nat)) := none
  waves : Nat := 0
  /-- Lists of the wave not yet scanned here; whether the stash still is. -/
  waveLists : List Nat := []
  stashLeft : Bool := false
  /-- Devices whose response of the wave is missing; devices that were sent a first request. -/
  remotes : List Nat := []
  opened : List Nat := []
  lostDevices : List Nat := []
  /-- A kernel fault keeps these lists from ever counting as scanned (R241). -/
  blocked : List (Option Nat) := []
  scanned : Nat := 0
  /-- Lists removed from the scan, with their bounds: damaged, or of a lost device. -/
  damagedLists : List Nat := []
  outLists : List (Bool × Ranked) := []
  mediaNeeded : Bool := false
  shardNeeded : Bool := false
  collFault : Bool := false
  tableMismatch : Bool := false
  sorter : Sorter := {}
  tau : Option (Nat × Nat) := none
  records : Map (List Byte) := []
  status : Nat := 0
  sealed : Bool := false
  written : Nat := 0
  /-- SELECT: row, round, rows done, records written (R255, R258). -/
  row : Nat := 0
  round : Nat := 0
  /-- A remote query: wave asked for, and lists found damaged or scanned in it. -/
  asked : Nat := 0
  waveDamaged : List Nat := []
  waveScanned : Nat := 0
  deriving DecidableEq, Repr

/-- What a stream carries (R97, R104): centroids, one list, or the stash. -/
inductive StreamOf | centroids | list (l : Nat) | stash
  deriving DecidableEq, Repr

/-- How far the stripe of a stream has come (R105). -/
inductive StripePhase | metaDue | needDue | vectorsDue
  deriving DecidableEq, Repr

/-- A waiter of a stream: the query context (remote ones at 4,096 + number) and the stripes it still needs. -/
structure Waiter where
  ctx : Nat
  stripes : List Nat
  since : Nat := 0
  deriving DecidableEq, Repr

/-- A rendezvous table (R104). -/
structure Stream where
  coll : Nat
  root : Nat
  what : StreamOf
  waiters : List Waiter := []
  issued : Bool := false
  stripe : Nat := 0
  phase : StripePhase := .metaDue
  need : Nat := 0
  /-- Tiles whose need mask is missing; tiles that received the stripe, each with its metadata buffer. -/
  tilesDue : List Nat := []
  tiles : List (Nat × Nat) := []
  /-- The waiters that take part in the stripe, and the stripe's metadata segment: as it was read, and its number. -/
  part : List Nat := []
  metaBytes : List Byte := []
  seg : Nat := 0
  /-- The stack of the fetch tag it holds for its first read. -/
  tag : Option Nat := none
  deriving DecidableEq, Repr

/-- Scheduler, rendezvous and posts. Remote contexts are at keys 4,096 and up. -/
structure Sched where
  ctxs : Map Ctx := []
  /-- Generation tags of contexts and command slots (R213). -/
  tags : Map Nat := []
  streams : List Stream := []
  /-- Posts waiting at each sorter, oldest first: context, candidate. -/
  posts : List (Nat × Nat × Cand) := []
  deriving DecidableEq, Repr

/-! ## Tiles -/

/-- The events of a kernel's scan entry (Table 9.5). -/
inductive TileEventKind | queryIn | metaSeg | vec | pblock | retire | msg
  deriving DecidableEq, Repr

/-- An event waiting at a tile. -/
structure TileEvent where
  kind : TileEventKind
  kernel : Nat
  ctxs : List Nat := []
  /-- The stripe: what it belongs to, its stripe index, its metadata segment, its header's record count. -/
  coll : Nat := 0
  what : StreamOf := .stash
  root : Nat := 0
  stripe : Nat := 0
  seg : Nat := 0
  metaBytes : List Byte := []
  vecBytes : List Byte := []
  vecIndex : Nat := 0
  first : Nat := 0
  count : Nat := 0
  metaBuf : Nat := 0
  vecBuf : Nat := 0
  /-- Records already scored by a standard kernel. -/
  done : Nat := 0
  deriving DecidableEq, Repr

/-- A USER message: sender, payload bytes, tag (R230, R231). -/
structure UserMsg where
  source : Nat
  dest : Nat
  kernel : Nat
  tag : Nat
  payload : List Byte
  deriving DecidableEq, Repr

/-- The format of an accumulator (R233). -/
inductive AccFormat | int32 | fix96 | fix640
  deriving DecidableEq, Repr

/-- An accumulator acc0 to acc31 (Table 9.1). -/
structure Acc where
  value : Int := 0
  format : AccFormat := .int32
  deriving DecidableEq, Repr

/-- One forager tile (R225, R226). Data SRAM is held as cells, addresses as Table 9.2 gives. -/
structure Tile where
  regs : Map (BitVec 32) := []
  pc : BitVec 32 := 0
  dregs : Map (BitVec 64) := []
  accs : Map Acc := []
  mem : Memory := []
  /-- The array's query operand: none, a query slot, or an address. -/
  operand : Option (Bool × Nat) := none
  /-- Query slots in use: the context held, by slot. -/
  slots : Map Nat := []
  /-- Pass bits by record × 64 + slot. -/
  passes : List Nat := []
  events : List TileEvent := []
  /-- The invocation in progress, and when it started (R240). -/
  running : Option TileEvent := none
  started : Nat := 0
  invocations : Nat := 0
  sendQueue : List UserMsg := []
  recvQueue : List UserMsg := []
  faulted : List Nat := []
  resetPending : Bool := false
  /-- The pinned block held here: collection, list, bytes (R80). -/
  block : Option (Nat × Nat × List Byte) := none
  /-- Stream buffers in use. -/
  buffers : List Nat := []
  deriving DecidableEq, Repr

/-- A kernel slot (R227, R243 to R247). Text and data are the bytes at the slot's windows. -/
structure Kernel where
  owner : Nat := 0xFF
  kernelId : Nat := 0
  version : Nat := 0
  entry : Nat := 0
  hasBound : Bool := false
  bound : Nat := 0
  cover : Nat := 0
  text : List Byte := []
  data : List Byte := []
  deriving DecidableEq, Repr

/-- The forager grid. -/
structure Grid where
  tiles : Map Tile := []
  kernels : Map Kernel := []
  faults : Nat := 0
  deriving DecidableEq, Repr

/-! ## Fabric -/

/-- The states of a port (Table 8.5). -/
inductive PortState | disabled | training | up | retraining | draining | down | refused
  deriving DecidableEq, Repr

def PortState.code : PortState → Nat
  | .disabled => 0 | .training => 1 | .up => 2 | .retraining => 3 | .draining => 4 | .down => 5 | .refused => 6

/-- A codec slot: table in force, staged table (receive slots only). -/
structure CodecSlot where
  image : List Byte := []
  table : Option CodecTable := none
  staged : Option (Option CodecTable) := none
  deriving DecidableEq, Repr

/-- A flit kept for replay: sequence, bytes, resends (R207, R208). -/
structure Sent where
  seq : Nat
  bytes : List Byte
  resends : Nat := 0
  deriving DecidableEq, Repr

/-- A fabric port (08). -/
structure Port where
  state : PortState := .disabled
  reason : Nat := 0
  neighbour : Nat := 0
  replays : Nat := 0
  retrains : Nat := 0
  txBind : Nat := 0
  rxBind : Nat := 0
  pendingEnable : Bool := false
  generation : Nat := 0
  txSeq : Nat := 0
  /-- Sequence expected next, and whether a NAK for the gap has been sent. -/
  rxSeq : Nat := 0
  nakSent : Bool := false
  /-- A flit has been accepted in sequence since link-up. -/
  rxAny : Bool := false
  /-- A ninth replay of one flit has fallen due (R208). -/
  retrainDue : Bool := false
  replay : List Sent := []
  /-- When the last acknowledgement arrived, and when the state was entered. -/
  ackTime : Nat := 0
  since : Nat := 0
  /-- Receive units of the neighbour not in use, by channel + 4 × class. -/
  units : Map Nat := []
  /-- Units to return to the neighbour, by channel + 4 × class. -/
  owed : Map Nat := []
  /-- Partly received messages by channel + 4 × class: wire bytes. -/
  partials : Map (List Byte) := []
  /-- Slots 0 to 15 transmit, 16 to 31 receive. -/
  codec : Map CodecSlot := []
  bindNo : Nat := 0
  linkSent : Bool := false
  deriving DecidableEq, Repr

/-- A message of 08: header, body after decoding, and how it travels. -/
structure Message where
  bytes : List Byte
  channel : Nat
  cls : Nat := 0
  /-- A ring hop has been taken (R195). -/
  ringHop : Bool := false
  /-- The port it arrived at and the units it holds there. -/
  port : Option Nat := none
  units : Nat := 0
  deriving DecidableEq, Repr

/-- A request to another device that waits for its answer (R214). -/
structure Request where
  kind : Nat
  dest : Nat
  tag : Nat
  coll : Nat := 0
  /-- Context, live command or collection it serves, by kind. -/
  owner : Nat := 0
  until_ : Nat := 0
  landing : Nat := 0
  deriving DecidableEq, Repr

/-- The fabric. -/
structure Fabric where
  ports : Map Port := []
  /-- Messages that wait to be sent on, in order. -/
  transit : List Message := []
  /-- Messages for this device not yet consumed, in order. -/
  inbox : List Message := []
  requests : List Request := []
  /-- Requests that wait for landing units or an MGMT slot at their destination (R202, R204). -/
  queued : List (Message × Request) := []
  lateResponses : Nat := 0
  lostRequests : Nat := 0
  decodeFaults : Nat := 0
  deriving DecidableEq, Repr

/-! ## Payload store, coolant and power -/

/-- A directory entry of the payload store (R260): format, N, S, data segment and first granule. -/
structure Handle where
  fmt : PayFmt := .raw
  n : Nat := 0
  s : Nat := 0
  seg : Nat := 0
  granule : Nat := 0
  damaged : Bool := false
  deriving DecidableEq, Repr

/-- The payload store: handles at burrow × 2^24 + handle; directory pages at burrow × 4096 + page; granules in use
by data segment; replaced versions not yet freed. -/
structure PayStore where
  handles : Map Handle := []
  pages : Map Nat := []
  granules : Map (List Nat) := []
  /-- Replaced versions whose granules are not free yet: burrow, version. -/
  old : List (Nat × Handle) := []
  deriving DecidableEq, Repr

/-- The states of a flow channel (R333). -/
inductive ChannelState | disabled | idle | busy | draining
  deriving DecidableEq, Repr

/-- A flow channel (Table 13.2). -/
structure Channel where
  state : ChannelState := .idle
  pendingEnable : Bool := false
  generation : Nat := 0
  upTime : Nat := 0
  downTime : Nat := 0
  upStatus : Nat := 0
  downStatus : Nat := 0
  ratio : Nat := 0
  /-- The flow as F32, and its Q as binary64 (R331). -/
  flow : Nat := 0
  q : Nat := 0
  flowValid : Bool := false
  /-- FLOW_STALE has been logged since the last valid reading (R328). -/
  stale : Bool := false
  hold : Nat := 0
  shots : Nat := 0
  /-- Last good times, and the unpaired GOOD shots with when each completed. -/
  lastUp : Option Nat := none
  lastDown : Option Nat := none
  pairUp : Option (Nat × Nat) := none
  pairDown : Option (Nat × Nat) := none
  /-- Calibration: readings left, readings asked for, sum as binary64. -/
  calLeft : Nat := 0
  calAsked : Nat := 0
  calSum : Nat := 0
  /-- The shot has ended and rings down (R325). -/
  ringing : Bool := false
  deriving DecidableEq, Repr

/-- An RTD input (Table 13.3). -/
structure Rtd where
  status : Nat := 1
  resistance : Nat := 0
  temperature : Nat := 0
  at_ : Nat := 0
  busy : Bool := false
  /-- The temperature as computed, binary64. -/
  exact : Nat := 0
  deriving DecidableEq, Repr

/-- A measurement of the TDC (R324): a shot of a channel (up or down, with the generation of its trigger), or
an RTD conversion. -/
inductive Measurement
  | shot (channel : Nat) (up : Bool) (generation : Nat)
  | rtd (input : Nat)
  deriving DecidableEq, Repr

/-- The front end (R323 to R333). -/
structure Ftf where
  channelA : Channel := {}
  channelB : Channel := {}
  rtd0 : Rtd := {}
  rtd1 : Rtd := {}
  running : Option Measurement := none
  waiting : List Measurement := []
  /-- When the last valid reading came, or boot ended (R332). -/
  lastValid : Nat := 0
  deriving DecidableEq, Repr

/-- The power governor (R334 to R340); powers are binary64 patterns. -/
structure Gov where
  over_ : Nat := 0
  calm : Nat := 0
  under : Nat := 0
  throttle : Nat := 0
  cclk : Nat := 0
  mclk : Nat := 0
  /-- The step MCLK is moving to (R338). -/
  mclkTo : Option Nat := none
  /-- D changes at the next refill (R163). -/
  dDue : Bool := false
  f : Nat := 0x3FF0000000000000
  power : Nat := 0
  cap : Nat := 150
  flowCap : Bool := false
  stepsDown : Nat := 0
  limitRun : Nat := 0
  safeRun : Nat := 0
  /-- Energy samples of the running millisecond: sum and count. -/
  eSum : Nat := 0
  eCount : Nat := 0
  vrFailed : Bool := false
  deriving DecidableEq, Repr

/-! ## The whole -/

/-- The state of the device. -/
structure State where
  pending : List Instr := []
  /-- Draws of free values so far: the model's own field. -/
  draws : Nat := 0
  clk : Clk := {}
  boot : Boot := {}
  log : EventLog := {}
  out : List Out := []
  dict : Dict := {}
  flash : Memory := []
  vdp : Vdp := {}
  can : Can := {}
  ssp : Ssp := {}
  host : HostIf := {}
  cred : Credits := {}
  mem : Memory := []
  seg : SegMan := {}
  bw : Regulator := {}
  diag : Diag := {}
  colls : Map Coll := []
  stash : List Buffered := []
  sched : Sched := {}
  grid : Grid := {}
  fab : Fabric := {}
  pay : PayStore := {}
  ftf : Ftf := {}
  gov : Gov := {}
  deriving DecidableEq, Repr

/-- The reasons the model stops with a fault. -/
inductive Fault
  /-- Raised by HBM_READ_DONE and PATROL_SCRUB for a frame that R145 does not give the device, or a burst
  outside its frame. Safe: no such read exists. -/
  | frameOutsideHbm (frame : Nat)
  deriving DecidableEq, Repr

/-- The reasons a command has no meaning. -/
inductive Refusal
  /-- Raised by `exec` for a command that is not modelled yet. Safe: nothing is claimed of it. -/
  | notModelled (mnemonic : String)
  deriving DecidableEq, Repr

/-- The device as power-up leaves it: COLD_RST_N held low (R341). -/
def State.reset : State := {}

end Sys2Proof.Machine
end

