-- ==== Sys2Proof/Machine/Ops.lean ====
section
/-! DEFINITION. The named operations over the state that every family uses: object values, free values, interrupts,
the event log, credits, completions, burrows and queue slots, memory frames. -/

namespace Sys2Proof.Machine

/-! ## Free values (log entry 2) -/

/-- The next free choice, and the state with its counter advanced. -/
def State.draw (s : State) : Nat × State := (Config.choice s.draws, { s with draws := s.draws + 1 })

/-! ## Object values (R281, R284, R287) -/

/-- An object's value in the base layer: the value written, or its default; an unset W1 object is empty (R272). -/
def State.baseValue (s : State) (ix sub : Nat) : List Byte :=
  match Map.get? s.dict.base (objKey ix sub) with
  | some v => v
  | none =>
    match objAt ix sub with
    | none => []
    | some o => if o.acc = .w1 then [] else o.dflt

/-- The enabled deltas' sub 4 keys of mode `m` in the base layer (five modes; deltas are disabled by default, Table 11.11). -/
def isEnabledDelta (m : Nat) (e : Nat × List Byte) : Bool :=
  m < 5 && e.1 / 65536 = 0x31 + m && e.1 % 256 = 4 && e.2 = [1]

/-- The overlay of a mode: its enabled deltas, object key and value; of two deltas on one object the lower one wins (R290). -/
def State.overlayOf (s : State) (m : Nat) : Map (List Byte) :=
  s.dict.base.foldr (fun e rest =>
    if isEnabledDelta m e then
      let ix := e.1 / 256
      Map.put rest (objKey (leNat (s.baseValue ix 1)) (leNat (s.baseValue ix 2))) (s.baseValue ix 3)
    else rest) []

/-- The overlay in force: the active mode's, or the one before an edit that waits for its re-application (R288). -/
def State.overlay (s : State) : Map (List Byte) :=
  match s.dict.overlayOld with
  | some o => o
  | none => s.overlayOf s.dict.mode

/-- The active overlay shadows the object (R284). -/
def State.shadowed (s : State) (ix sub : Nat) : Bool := (Map.get? s.overlay (objKey ix sub)).isSome

/-- The effective value (R284). -/
def State.effective (s : State) (ix sub : Nat) : List Byte :=
  match Map.get? s.overlay (objKey ix sub) with
  | some v => v
  | none => s.baseValue ix sub

/-- The value the device acts on: the effective value, but during a transition the one from before (R287). -/
def State.acted (s : State) (ix sub : Nat) : List Byte :=
  match Map.get? s.dict.heldOld (objKey ix sub) with
  | some v => v
  | none => s.effective ix sub

/-- The number the device acts on. -/
def State.cfg (s : State) (ix sub : Nat) : Nat := leNat (s.acted ix sub)

/-! ## Identity (R57, R58, R193) -/

/-- The device ID, once the position is set (R193). -/
def State.deviceId (s : State) : Option Nat := s.boot.position.map fun p => s.boot.tray * 8 + p

/-- The serial number as it reads (R58). -/
def State.serial (s : State) : Nat := if s.boot.fuseFault then 0 else s.boot.fuse.serial

/-- The unique die ID as it reads (R58). -/
def State.dieId (s : State) : Nat := if s.boot.fuseFault then 0 else s.boot.fuse.dieId

/-- The dictionary service runs: firmware is up and the device is not in recovery (R346; log entry 13). -/
def State.serviceUp (s : State) : Bool := decide (4 ≤ s.boot.stage)

/-! ## Output -/

/-- Something leaves the device. -/
def State.emit (s : State) (o : Out) : State := { s with out := s.out ++ [o] }

/-- A vector is raised: the message is sent, or held in the PBA while the vector is masked (R180). -/
def State.raise (s : State) (fn vec : Nat) : State :=
  let v := Map.getD s.host.vectors (32 * fn + vec) {}
  if v.masked then { s with host := { s.host with vectors := Map.put s.host.vectors (32 * fn + vec) { v with pending := true } } }
  else s.emit (.msix fn vec v.addr v.data)

/-! ## CAN FD frames (R298, R299) -/

/-- The node ID in force: 0 selects 1 + position, and no position none (Table 12.3, R320). -/
def State.canNode (s : State) : Option Nat :=
  if s.can.node = 0 then s.boot.position.map (· + 1) else some s.can.node

/-- The smallest CAN FD data length that holds `n` bytes (R299). -/
def canLength (n : Nat) : Nat :=
  if n ≤ 8 then 8 else if n ≤ 12 then 12 else if n ≤ 16 then 16 else if n ≤ 20 then 20 else if n ≤ 24 then 24
  else if n ≤ 32 then 32 else if n ≤ 48 then 48 else 64

/-- An identifier (Table 12.2). -/
def canId (priority function node sequence : Nat) : Nat :=
  priority * 2 ^ 26 + function * 2 ^ 20 + node * 2 ^ 13 + sequence % 2 ^ 13

/-- The port takes part in the bus: enabled, not bus-off, with a node ID. -/
def State.canOn (s : State) : Bool := s.can.enable && s.can.state != 2 && s.canNode.isSome

/-- A frame leaves on the CAN FD bus, while the port takes part in it. -/
def State.canSend (s : State) (function sequence : Nat) (data : List Byte) : State :=
  match s.canOn, s.canNode with
  | true, some node => s.emit (.can (canId (s.cfg 0x1200 3) function node sequence) (padTo (canLength data.length) data))
  | _, _ => s

/-! ## The event log (R352, R356) -/

/-- The severity of an event (Table 14.12). -/
def severity (code : Nat) : Nat :=
  if [0x0100, 0x0101, 0x0104, 0x010A, 0x0203, 0x0206, 0x0207, 0x0404, 0x0407, 0x0500, 0x0901, 0x0902].contains code then 0
  else if code = 0x0107 then 1
  else if [0x0103, 0x0105, 0x0106, 0x0108, 0x0403, 0x0904, 0x0905].contains code then 3
  else if [0x0300, 0x0302, 0x0303].contains code then 4
  else 2

/-- The number after an entry number (R352). -/
def nextEntry (e : Nat) : Nat := if e = 0xFFFFFFFF then 1 else e + 1

/-- An event log entry (Table 14.5). -/
def eventEntry (number code source sec us : Nat) (params : List Byte) : List Byte :=
  toLE 4 number ++ toLE 2 code ++ toLE 1 (severity code) ++ toLE 1 source ++ toLE 8 (sec * 2 ^ 20 + us) ++ padTo 16 params

/-- The log with an entry appended: the slot's older entry, if any, is overwritten. -/
def EventLog.append (l : EventLog) (entry : List Byte) : EventLog :=
  let e := nextEntry l.last
  { ring := Map.put l.ring (e % 1024) entry, last := e
    overwritten := if (Map.get? l.ring (e % 1024)).isSome then (l.overwritten + 1) % 2 ^ 32 else l.overwritten }

/-- An event is logged; it raises vector 1 at NotifySeverity or above, is broadcast when EventFrames is 1, and a
coolant or governor event raises vector 2 (R171, R352; log entry 14). -/
def State.logFrom (s : State) (source code : Nat) (params : List Byte) : State :=
  let entry := eventEntry (nextEntry s.log.last) code source s.clk.sec s.clk.us params
  let s := { s with log := s.log.append entry }
  let s := if s.cfg 0x9000 3 ≤ severity code then s.raise 0 1 else s
  let s := if code / 256 = 9 then s.raise 0 2 else s
  if s.cfg 0x1200 5 = 1 ∧ s.canOn = true ∧ s.cfg 0x9000 3 ≤ severity code then
    let s := s.canSend 3 s.can.eventSeq entry
    { s with can := { s.can with eventSeq := (s.can.eventSeq + 1) % 8192 } }
  else s

/-- An event of the device. -/
def State.logEvent (s : State) (code : Nat) (params : List Byte := []) : State := s.logFrom 0 code params
/-- An event of a burrow. -/
def State.logBurrow (s : State) (b code : Nat) (params : List Byte := []) : State := s.logFrom (64 + b) code params
/-- An event of a port. -/
def State.logPort (s : State) (p code : Nat) (params : List Byte := []) : State := s.logFrom (128 + p) code params
/-- An event of a stack. -/
def State.logStack (s : State) (st code : Nat) (params : List Byte := []) : State := s.logFrom (192 + st) code params

/-! ## Credits (R49, R50, R354) -/

/-- The key of a pool (Table 14.8). -/
def poolKey (code number : Nat) : Nat := code * 256 + number

/-- A pool. -/
def State.pool (s : State) (code number : Nat) : Pool := Map.getD s.cred.pools (poolKey code number) {}

/-- Credits of a pool in use. -/
def State.used (s : State) (code number : Nat) : Nat := (s.pool code number).outstanding

/-- `n` credits are reserved. -/
def State.reserve (s : State) (code number n : Nat) : State :=
  let p := s.pool code number
  let q := { p with issued := p.issued + n, outstanding := p.outstanding + n }
  { s with cred := { s.cred with pools := Map.put s.cred.pools (poolKey code number) q } }

/-- `n` credits are returned. -/
def State.giveBack (s : State) (code number n : Nat) : State :=
  let p := s.pool code number
  let q := { p with returned := p.returned + n, outstanding := p.outstanding - n }
  { s with cred := { s.cred with pools := Map.put s.cred.pools (poolKey code number) q } }

/-! ## Burrows and queue slots -/

def State.burrow (s : State) (b : Nat) : Burrow := Map.getD s.host.burrows b {}
def State.setBurrow (s : State) (b : Nat) (v : Burrow) : State :=
  { s with host := { s.host with burrows := Map.put s.host.burrows b v } }
def slotKey (b q : Nat) : Nat := 16 * b + q
def State.slot (s : State) (b q : Nat) : QSlot := Map.getD s.host.slots (slotKey b q) {}
def State.setSlot (s : State) (b q : Nat) (v : QSlot) : State :=
  { s with host := { s.host with slots := Map.put s.host.slots (slotKey b q) v } }

/-- The index of burrow n's objects (R185). -/
def burrowIndex (b : Nat) : Nat := 0x5000 + 16 * b

/-- The virtual function of burrow n is present (R187). -/
def State.vfPresent (s : State) (b : Nat) : Bool := s.host.vfEnable && decide (b < s.host.numVfs)

/-- A burrow error flag is set (Table 7.3): 0 DOORBELL_INVALID, 1 HOST_DMA_ERROR, 2 BW_SCALED. -/
def State.flagBurrow (s : State) (b bit : Nat) : State :=
  s.setBurrow b { s.burrow b with errorFlags := (s.burrow b).errorFlags ||| 2 ^ bit }

/-- The queue's vector is raised and its count restarts (R180). -/
def State.signal (s : State) (b q : Nat) : State :=
  let sl := s.slot b q
  if sl.unsignalled = 0 ∨ sl.regs.irqFlags % 2 = 0 then s.setSlot b q { sl with unsignalled := 0 }
  else (s.setSlot b q { sl with unsignalled := 0 }).raise (b + 1) sl.regs.vector

/-! ## Completions (R50, R52) -/

/-- A command's completion waits for completion-queue space. -/
def State.complete (s : State) (c : Completion) : State :=
  { s with host := { s.host with waiting := s.host.waiting ++ [c] } }

/-- A live command completes. -/
def State.finish (s : State) (key : Nat) (c : Completion) : State :=
  let s := { s with host := { s.host with live := Map.del s.host.live key } }
  s.complete c

/-- A completion of a refused or plain command: its status and nothing else. -/
def plain (o : Origin) (status : Nat) : Completion := { origin := o, status := status }

/-! ## Statuses (Table 7.8) -/

def stOk : Nat := 0x0000
def stUnsealed : Nat := 0x0001
def stIncomplete : Nat := 0x0002
def stInvalid : Nat := 0x0010
def stBadVector : Nat := 0x0011
def stDim : Nat := 0x0012
def stNoColl : Nat := 0x0020
def stQuota : Nat := 0x0021
def stAborted : Nat := 0x0030
def stMedia : Nat := 0x0040
def stShardLost : Nat := 0x0041
def stTable : Nat := 0x0050

/-! ## Frames of HBM (R145, R146) -/

/-- The pseudo-channel of a frame (Table 6.2). -/
def frameChannel (f : Nat) : Nat :=
  let l := f / 256
  (f % 256) ^^^ (l % 256) ^^^ (l / 256 % 64)

/-- The row of a frame: its local index. -/
def frameRow (f : Nat) : Nat := f / 256

/-- The frame of a pseudo-channel and a row: the matrix of Table 6.2 is its own inverse on the lane. -/
def frameAt (pc row : Nat) : Nat := row * 256 + ((pc ^^^ (row % 256) ^^^ (row / 256 % 64)) % 256)

/-- Bytes of a frame. -/
def State.frameBytes (s : State) (f off n : Nat) : List Byte := Memory.readN 0 s.mem (f * Config.frameBytes + off) n

/-- Bytes are written into a frame. -/
def State.writeFrame (s : State) (f off : Nat) (bs : List Byte) : State :=
  { s with mem := Memory.writeN 0 s.mem (f * Config.frameBytes + off) bs }

/-! ## Idle (log entry 1) -/

/-- One microsecond passes: the clock counts, and the microsecond of the calendar's second up to its last. -/
def idle (s : State) : State :=
  { s with clk := { s.clk with now := s.clk.now + 1, us := min 999999 (s.clk.us + 1) } }

end Sys2Proof.Machine
end

