-- ==== Sys2Proof/Machine/Modes.lean ====
section
/-! DEFINITION. SAFE and its causes (R289, Table 11.10). -/

namespace Sys2Proof.Machine

/-- The SAFE cause bits: 0 HOST, 1 COOLANT, 2 FUSE, 3 GOVERNOR. -/
def causeCoolant : Nat := 1
def causeFuse : Nat := 2
def causeGovernor : Nat := 3

/-- A device cause of SAFE holds (bits 1 to 3 of SafeCause). -/
def State.deviceCause (s : State) : Bool := decide (s.dict.safeCause / 2 ≠ 0)

/-- The fixed effects of SAFE are in force: from the cause on, without waiting for the quiet point (R289). -/
def State.safeFixed (s : State) : Bool := s.dict.mode == 4 || s.deviceCause

/-- The device selects SAFE on its own and sets the cause's bit (R289): the transition starts, or waits for the one in
progress; while SAFE is the active mode only the bit is set. -/
def State.forceSafe (s : State) (cause : Nat) : State :=
  let d := { s.dict with safeCause := s.dict.safeCause ||| 2 ^ cause }
  let d' :=
    if d.applying then (if d.target = 4 then { d with forced := d.forced || d.mode != 4 } else { d with safeWaiting := true })
    else if d.mode = 4 then d
    else { d with applying := true, target := 4, forced := true, modeRequest := 4 }
  { s with dict := d' }

/-- A cause bit clears when its condition ends; FUSE never clears (R289). -/
def State.clearCause (s : State) (cause : Nat) : State :=
  if s.dict.safeCause.testBit cause ∧ cause ≠ causeFuse then
    { s with dict := { s.dict with safeCause := s.dict.safeCause - 2 ^ cause } }
  else s

end Sys2Proof.Machine
end

