-- ==== Sys2Proof/Machine/FrontEnd.lean ====
section
/-! DEFINITION. The flow and temperature front end (R323 to R333): what a trigger, a shot, a pair and an RTD conversion do.
Times are in LSB of 15.625 ps, which is 1/64 ns; computed values are binary64 patterns. -/

namespace Sys2Proof.Machine

def State.channel (s : State) (c : Nat) : Channel := if c = 0 then s.ftf.channelA else s.ftf.channelB
def State.setChannel (s : State) (c : Nat) (v : Channel) : State :=
  if c = 0 then { s with ftf := { s.ftf with channelA := v } } else { s with ftf := { s.ftf with channelB := v } }
def State.rtdInput (s : State) (r : Nat) : Rtd := if r = 0 then s.ftf.rtd0 else s.ftf.rtd1
def State.setRtd (s : State) (r : Nat) (v : Rtd) : State :=
  if r = 0 then { s with ftf := { s.ftf with rtd0 := v } } else { s with ftf := { s.ftf with rtd1 := v } }

/-- A flow channel's configuration object. -/
def State.chanCfg (s : State) (c sub : Nat) : Nat := s.cfg (0x7010 + c) sub

/-- The source of a measurement: flow channels 0 and 1, RTD inputs 2 and 3. -/
def Measurement.source : Measurement → Nat
  | .shot c _ _ => c
  | .rtd r => 2 + r

/-- The measurement starts on the TDC; a shot's channel is BUSY (R324, R325). -/
def State.startMeasurement (s : State) (m : Measurement) : State :=
  let s := { s with ftf := { s.ftf with running := some m } }
  match m with
  | .shot c _ _ => s.setChannel c { s.channel c with state := .busy, ringing := false }
  | .rtd r => s.setRtd r { s.rtdInput r with busy := true }

/-- A trigger (R324): refused while its source is busy, has a trigger queued, or its channel is not IDLE; else it
starts when the TDC is free, or waits in its source's one-place queue. -/
def State.trigger (s : State) (m : Measurement) : Except Nat State :=
  let busy := match s.ftf.running with
    | some r => r.source == m.source
    | none => false
  let queued := s.ftf.waiting.any fun w => w.source == m.source
  let idle := match m with
    | .shot c _ _ => (s.channel c).state == .idle
    | .rtd r => !(s.rtdInput r).busy
  if busy || queued || !idle then .error 0x06040000
  else if s.ftf.running.isNone ∧ s.ftf.waiting = [] then .ok (s.startMeasurement m)
  else .ok { s with ftf := { s.ftf with waiting := s.ftf.waiting ++ [m] } }

/-- A Shot command of a channel. -/
def State.triggerShot (s : State) (c : Nat) (up : Bool) : Except Nat State :=
  s.trigger (.shot c up (s.channel c).generation)

/-- The next queued trigger starts when the TDC is free, in arrival order (R324). -/
def State.startNext (s : State) : State :=
  match s.ftf.running, s.ftf.waiting with
  | none, m :: rest => { s with ftf := { s.ftf with waiting := rest } }.startMeasurement m
  | _, _ => s

/-! ## Checks on a shot (R326) -/

/-- w1 / w2 as F32. -/
def widthRatio (w1 w2 : Nat) : Nat := if w2 = 0 then 0x7FC00000 else roundQuot .b32 .near false w1 w2 0

/-- The status of a shot: 0 GOOD, 1 TIMEOUT, 2 DISTURBED, 3 CYCLE_SKIP (R326, in order). -/
def State.shotStatus (s : State) (c : Nat) (up : Bool) (m : Option ShotMeasure) : Nat :=
  match m with
  | none => 1
  | some m =>
    let skip := s.chanCfg c 4
    let ratio := to64 (widthRatio m.w1 m.w2)
    let last := if up then (s.channel c).lastUp else (s.channel c).lastDown
    if s.chanCfg c 0x11 * 64 < m.time then 1
    else if !m.half1 || !m.half2 || m.clipped then 2
    else if skip.testBit 1 && !(le64 (to64 (s.chanCfg c 0x0E)) ratio && le64 ratio (to64 (s.chanCfg c 0x0F))) then 2
    else match last with
      | none => 0
      | some t => if skip.testBit 0 ∧ s.chanCfg c 0x0C * 64 < (max t m.time - min t m.time) then 3 else 0

/-! ## Pairs (R327, R328, R331) -/

/-- A transit time in ns: T × 15.625 ps − CircuitDelay. -/
def State.transit (s : State) (c t : Nat) : Nat := sub64 .near (packScaled .b64 .near false t false (-6)) (s.chanCfg c 9)

/-- The inlet temperature is GOOD and no older than 1 s. -/
def State.rtdFresh (s : State) (r : Nat) : Bool :=
  (s.rtdInput r).status == 0 && decide (s.clk.now - (s.rtdInput r).at_ ≤ 1000000)

/-- c(T) = C0 + C1·T + C2·T² (R327). -/
def State.soundSpeed (s : State) (t : Nat) : Nat :=
  add64 .near (add64 .near (s.cfg 0x7040 3) (mul64 .near (s.cfg 0x7040 4) t)) (mul64 .near (s.cfg 0x7040 5) (mul64 .near t t))

/-- |x| of a binary64 pattern. -/
def abs64 (x : Nat) : Nat := x % 2 ^ 63

/-- The sum test of a pair (R327). -/
def State.sumTest (s : State) (c tUp tDown : Nat) : Bool :=
  if !(s.chanCfg c 4).testBit 0 then true
  else if !s.rtdFresh 0 then (s.channel c).lastUp.isSome && (s.channel c).lastDown.isSome
  else
    let cT := s.soundSpeed s.ftf.rtd0.exact
    if !lt64 0 cT || isInf .b64 cT then false
    else
      let expected := mul64 .near (div64 .near (mul64 .near 0x4000000000000000 (s.chanCfg c 6)) cT) 0x41CDCD6500000000
      le64 (abs64 (sub64 .near (add64 .near (s.transit c tUp) (s.transit c tDown)) expected)) (int64 (s.chanCfg c 0x0D))

/-- Q of a pair, in m³/s as binary64 (R331). -/
def State.rateOf (s : State) (c tUp tDown : Nat) : Nat :=
  let up := s.transit c tUp
  let down := s.transit c tDown
  let diff := sub64 .near up down
  let delta := if s.chanCfg c 5 = 1 then sub64 .near diff (s.chanCfg c 0x0A) else diff
  let seconds := fun x => mul64 .near x 0x3E112E0BE826D695
  let v := div64 .near (mul64 .near (div64 .near (s.chanCfg c 6) 0x4000000000000000) (seconds delta)) (mul64 .near (seconds up) (seconds down))
  mul64 .near (mul64 .near (s.chanCfg c 8) (s.chanCfg c 7)) v

/-- Flow = 60,000 × Q, in L/min as F32 (R331). -/
def flowOf (q : Nat) : Nat := to32 .near (mul64 .near 0x40ED4C0000000000 q)

/-- A valid reading counts toward a running calibration; the last one sets ZeroOffset (R329). -/
def State.calibrate (s : State) (c tUp tDown : Nat) : State :=
  let ch := s.channel c
  if ch.calLeft = 0 then s
  else
    let sum := add64 .near ch.calSum (sub64 .near (s.transit c tUp) (s.transit c tDown))
    if ch.calLeft = 1 then
      let mean := div64 .near sum (int64 ch.calAsked)
      let s := s.setChannel c { ch with calLeft := 0, calSum := 0 }
      let s := { s with dict := { s.dict with base := Map.put s.dict.base (objKey (0x7010 + c) 0x0A) (toLE 8 mean) } }
      s.logEvent 0x0902 (toLE 1 c)
    else s.setChannel c { ch with calLeft := ch.calLeft - 1, calSum := sum }

/-- A valid flow reading (R328, R332). -/
def State.validReading (s : State) (c tUp tDown : Nat) : State :=
  let stale := (s.channel c).stale
  let q := s.rateOf c tUp tDown
  let s := s.calibrate c tUp tDown
  let s := s.setChannel c { s.channel c with lastUp := some tUp, lastDown := some tDown, flow := flowOf q, q := q, flowValid := true, stale := false, hold := 0 }
  let s := { s with ftf := { s.ftf with lastValid := s.clk.now } }
  let s := s.clearCause causeCoolant
  if stale then s.logEvent 0x0901 (toLE 1 c) else s

/-- A GOOD shot meets the unpaired GOOD shot of the other direction, if that one is recent enough (R327). -/
def State.pairShot (s : State) (c : Nat) (up : Bool) (t : Nat) : State :=
  let ch := s.channel c
  let other := if up then ch.pairDown else ch.pairUp
  let alone := if up then { ch with pairUp := some (t, s.clk.now) } else { ch with pairDown := some (t, s.clk.now) }
  match other with
  | none => s.setChannel c alone
  | some (t', when_) =>
    if s.chanCfg c 0x13 < s.clk.now - when_ then s.setChannel c alone
    else
      let s := s.setChannel c { ch with pairUp := none, pairDown := none }
      let tUp := if up then t else t'
      let tDown := if up then t' else t
      if s.sumTest c tUp tDown then s.validReading c tUp tDown
      else
        let ch := s.channel c
        s.setChannel c { ch with upStatus := 3, downStatus := 3, hold := min 255 (ch.hold + 2) }

/-- The result objects of a shot (Table 13.2). -/
def Channel.record (ch : Channel) (up : Bool) (status : Nat) (m : Option ShotMeasure) : Channel :=
  let ch := { ch with shots := (ch.shots + 1) % 2 ^ 32 }
  let ch := if up then { ch with upStatus := status } else { ch with downStatus := status }
  match m with
  | none => ch
  | some m =>
    let ch := { ch with ratio := widthRatio m.w1 m.w2 }
    if up then { ch with upTime := m.time % 2 ^ 24 } else { ch with downTime := m.time % 2 ^ 24 }

/-- A shot of a channel ends (R325 to R328, R333): the TDC is free, the channel rings down, and the result is recorded
unless the channel drains or the trigger's generation is not current. -/
def State.shotEnds (s : State) (c : Nat) (m : Option ShotMeasure) : State :=
  match s.ftf.running with
  | some (.shot c' up gen) =>
    if c' ≠ c then s
    else
      let s := { s with ftf := { s.ftf with running := none } }
      let s := s.setChannel c { s.channel c with ringing := true }
      let ch := s.channel c
      if ch.state ≠ .busy ∨ ch.generation ≠ gen then s
      else
        let status := s.shotStatus c up m
        let s := s.setChannel c (ch.record up status m)
        match status, m with
        | 0, some m => s.pairShot c up m.time
        | _, _ => s.setChannel c { s.channel c with hold := min 255 ((s.channel c).hold + 1) }
  | _ => s

/-- The hold count has reached 9: the flow is stale (R328). -/
def State.flowStale (s : State) (c : Nat) : State :=
  let ch := s.channel c
  if ch.hold < 9 ∨ ch.stale then s
  else (s.setChannel c { ch with flowValid := false, stale := true, lastUp := none, lastDown := none }).logEvent 0x0900 (toLE 1 c)

/-- RingDown has passed after a shot: the channel is IDLE again, or its drain ends (R325, R333). -/
def State.ringDownEnds (s : State) (c : Nat) : State :=
  let ch := s.channel c
  let shooting := match s.ftf.running with
    | some m => m.source == c
    | none => false
  if shooting then s
  else match ch.state with
    | .busy => if ch.ringing then s.setChannel c { ch with state := .idle, ringing := false } else s
    | .draining =>
      if ch.pendingEnable then
        s.setChannel c { ch with state := .idle, generation := (ch.generation + 1) % 2 ^ 16, pendingEnable := false, ringing := false,
                                 lastUp := none, lastDown := none, pairUp := none, pairDown := none, hold := 0, flowValid := false, stale := false }
      else s.setChannel c { ch with state := .disabled, ringing := false }
    | _ => s

/-- A write of Enable (R333). A queued trigger of a channel that runs no shot is dropped; its drain has nothing to wait
for and ends at once, in DISABLED (DEDUCED, log entry 142). -/
def State.channelEnable (s : State) (c : Nat) (on : Bool) : State :=
  let ch := s.channel c
  let dropped := { s with ftf := { s.ftf with waiting := s.ftf.waiting.filter fun w => w.source != c } }
  match on, ch.state with
  | true, .disabled =>
    s.setChannel c { ch with state := .idle, generation := (ch.generation + 1) % 2 ^ 16, lastUp := none, lastDown := none,
                             pairUp := none, pairDown := none, hold := 0, flowValid := false, stale := false }
  | true, .draining => s.setChannel c { ch with pendingEnable := true }
  | true, _ => s
  | false, .idle => dropped.setChannel c { ch with state := .disabled }
  | false, .busy => dropped.setChannel c { ch with state := .draining }
  | false, .draining => s.setChannel c { ch with pendingEnable := false }
  | false, .disabled => s

/-- A write of ZeroCalibrate (R329). -/
def State.zeroCalibrate (s : State) (c n : Nat) : Except Nat State :=
  if s.chanCfg c 5 = 2 then .error 0x06040000
  else .ok (s.setChannel c { s.channel c with calLeft := n, calAsked := n, calSum := 0 })

/-- A write to L, CircuitDelay or ZeroMethod clears the last good times. -/
def State.clearLastGood (s : State) (c : Nat) : State :=
  s.setChannel c { s.channel c with lastUp := none, lastDown := none }

/-! ## Temperature (R330) -/

/-- R = Rref × t_rtd / ((t_ref1 + t_ref2) / 2). -/
def rtdResistance (rref t1 t t2 : Nat) : Nat :=
  div64 .near (mul64 .near rref (int64 t)) (div64 .near (int64 (t1 + t2)) 0x4000000000000000)

/-- T = (−A + sqrt(A² − 4B(1 − R / 1,000))) / (2B). -/
def rtdTemperature (r : Nat) : Nat :=
  let inner := sub64 .near (mul64 .near 0x3F7002264AED641C 0x3F7002264AED641C)
    (mul64 .near (mul64 .near 0x4010000000000000 0xBEA360AFEE19CE88) (sub64 .near 0x3FF0000000000000 (div64 .near r 0x408F400000000000)))
  div64 .near (add64 .near (neg64 0x3F7002264AED641C) (sqrt64 .near inner)) (mul64 .near 0x4000000000000000 0xBEA360AFEE19CE88)

/-- A discharge's time, none when it passed 100 µs. -/
def discharge (t : Option Nat) : Option Nat :=
  match t with
  | some n => if 6400000 < n then none else some n
  | none => none

/-- An RTD conversion ends. -/
def State.rtdEnds (s : State) (r : Nat) (t1 t t2 : Option Nat) : State :=
  if s.ftf.running ≠ some (.rtd r) then s
  else
    let s := { s with ftf := { s.ftf with running := none } }
    let old := { s.rtdInput r with busy := false, at_ := s.clk.now }
    match discharge t1, discharge t, discharge t2 with
    | some a, some b, some c =>
      let res := rtdResistance (s.cfg (0x7030 + r) 2) a b c
      if le64 0x408F400000000000 res && le64 res 0x4098950000000000 then
        let temp := rtdTemperature res
        s.setRtd r { old with status := 0, resistance := res, exact := temp, temperature := to32 .near temp }
      else s.setRtd r { old with status := 2, resistance := res }
    | _, _, _ => s.setRtd r { old with status := 1 }

/-! ## Coolant (R331, R332) -/

/-- A channel counts for the coolant: enabled, with FlowValid 1. -/
def Channel.counts (c : Channel) : Bool := c.state != .disabled && c.flowValid

/-- The channel that gives CoolantFlow: the one of the smallest Flow among the enabled channels whose FlowValid is 1. -/
def State.coolantChannel (s : State) : Option Channel :=
  match s.ftf.channelA.counts, s.ftf.channelB.counts with
  | true, true => some (if lt64 (to64 s.ftf.channelB.flow) (to64 s.ftf.channelA.flow) then s.ftf.channelB else s.ftf.channelA)
  | true, false => some s.ftf.channelA
  | false, true => some s.ftf.channelB
  | false, false => none

/-- CoolantFlow. -/
def State.coolantFlow (s : State) : Option Nat := s.coolantChannel.map (·.flow)

/-- ΔT, 0x7FC0_0000 while either RTD is not GOOD and fresh or no CoolantFlow exists. -/
def State.deltaT (s : State) : Nat :=
  if s.rtdFresh 0 && s.rtdFresh 1 && s.coolantFlow.isSome then to32 .near (sub64 .near s.ftf.rtd1.exact s.ftf.rtd0.exact) else 0x7FC00000

/-- Heat removed: ρ × c_p × (T_out − T_in) × Q, with the Q that CoolantFlow comes from. -/
def State.heatRemoved (s : State) : Nat :=
  match s.coolantChannel with
  | none => 0x7FC00000
  | some ch =>
    if s.rtdFresh 0 && s.rtdFresh 1 then
      to32 .near (mul64 .near (mul64 .near (mul64 .near (s.cfg 0x7040 1) (s.cfg 0x7040 2))
        (sub64 .near s.ftf.rtd1.exact s.ftf.rtd0.exact)) ch.q)
    else 0x7FC00000

end Sys2Proof.Machine
end

