-- ==== Sys2Proof/Machine/Governor.lean ====
section
/-! DEFINITION. The power governor (R334 to R340). -/

namespace Sys2Proof.Machine

/-- The governor's SAFE state (R339): SAFE is in force, or no enabled channel has FlowValid 1. -/
def State.govSafe (s : State) : Bool := s.safeFixed || s.coolantFlow.isNone

/-- CoolantFlow is below 0.6 L/min. -/
def State.flowLow (s : State) : Bool :=
  match s.coolantFlow with
  | some f => lt64 (to64 f) 0x3FE3333333333333
  | none => false

/-- The effective cap C in W (R335). -/
def State.effectiveCap (s : State) : Nat :=
  min (s.cfg 0x7100 1) (min (if s.flowLow then 100 else 255) (if s.govSafe then 90 else 255))

/-- GovernorState (Table 13.4). -/
def State.governorState (s : State) : Nat :=
  if s.govSafe then 3 else if s.gov.flowCap then 2
  else if s.gov.throttle = 0 ∧ s.gov.cclk = 0 ∧ s.gov.mclk = 0 then 0 else 1

/-- Tokens per µs per pseudo-channel at an MCLK step (Table 6.1). -/
def stepTokens (mclk : Nat) : Nat := if mclk = 0 then 400 else if mclk = 1 then 350 else 300

/-- CCLK one step down; CCLK steps take effect at once (R338). -/
def Gov.cclkDown (g : Gov) : Gov := { g with cclk := g.cclk + 1, stepsDown := (g.stepsDown + 1) % 2 ^ 32 }

/-- MCLK one step down starts; one step at a time (R338). -/
def Gov.mclkDown (g : Gov) : Gov :=
  if g.mclkTo.isSome then g else { g with mclkTo := some (g.mclk + 1), stepsDown := (g.stepsDown + 1) % 2 ^ 32 }

/-- MCLK one step up starts. -/
def Gov.mclkUp (g : Gov) : Gov := if g.mclkTo.isSome then g else { g with mclkTo := some (g.mclk - 1) }

/-- The counters and the throttle of a sample above the cap (R336). -/
def Gov.above (g : Gov) : Gov :=
  { g with over_ := g.over_ + 1, calm := 0, under := 0, throttle := min 7 (g.throttle + 1) }

/-- The counters and the throttle of a sample at or below the cap (R336). -/
def Gov.below (g : Gov) (farBelow : Bool) : Gov :=
  let calm := g.calm + 1
  { g with over_ := 0, calm := calm, throttle := if calm % 10 = 0 ∧ 0 < g.throttle then g.throttle - 1 else g.throttle
           under := if farBelow then g.under + 1 else 0 }

/-- The clock steps of a sample above the cap (R336). -/
def Gov.stepsAbove (g : Gov) : Gov :=
  if g.over_ % 10 = 0 ∧ g.cclk < 4 then g.cclkDown
  else if g.over_ % 100 = 0 ∧ g.mclk < 2 then g.mclkDown
  else g

/-- The clock steps of a sample at or below the cap (R336). -/
def Gov.stepsBelow (g : Gov) : Gov :=
  if 0 < g.under ∧ g.under % 100 = 0 ∧ g.throttle = 0 then
    if 0 < g.mclk then g.mclkUp else if 0 < g.cclk then { g with cclk := g.cclk - 1 } else g
  else g

/-- The clock steps of the SAFE state (R339): down to CCLK step 4 and MCLK step 2, one step per sample. -/
def Gov.stepsSafe (g : Gov) : Gov :=
  if g.cclk < 4 then g.cclkDown else if g.mclk < 2 then g.mclkDown else g

/-- One sample of the governor on P, C and whether the SAFE state holds (R336, R339, R340). -/
def Gov.sample (g : Gov) (p c : Nat) (safe : Bool) : Gov :=
  let capBits := int64 c
  let above := lt64 capBits p
  let farBelow := le64 p (int64 ((c : Int) - 10))
  let strictly := lt64 p (int64 ((c : Int) - 10))
  let atLimit := g.cclk == 4 && g.mclk == 2 && g.throttle == 7
  let g := { g with power := to32 .near p, cap := c, limitRun := if above && atLimit then g.limitRun + 1 else 0
                    safeRun := if farBelow then g.safeRun + 1 else 0 }
  let g := if above then g.above else g.below strictly
  if safe then g.stepsSafe else if above then g.stepsAbove else g.stepsBelow

/-- GOVERNOR_SAMPLE (R334 to R336, R339): `power` is E in W, a binary64 pattern. -/
def execGovernorSample (power : Nat) (s : State) : Host.Outcome State Fault Refusal :=
  let p := mul64 .near power s.gov.f
  let c := s.effectiveCap
  let binds := s.flowLow && c == 100
  let started := binds && !s.gov.flowCap
  let g := s.gov.sample p c s.govSafe
  let g := { g with flowCap := binds, eSum := add64 .near g.eSum power, eCount := g.eCount + 1 }
  let s := { s with gov := g }
  .next (if started then s.logEvent 0x0904 else s)

/-- MCLK_STEP_DONE (R338, R163): the step takes effect; a step down only once D has fallen at a refill. D rises at the
refill after a step up. -/
def execMclkStepDone (s : State) : Host.Outcome State Fault Refusal :=
  .next (match s.gov.mclkTo with
    | none => s
    | some m =>
      if s.gov.mclk < m ∧ s.bw.channelTokens ≠ stepTokens m then s
      else { s with gov := { s.gov with mclk := m, mclkTo := none } })

/-- f of R334: the VR power in mW over the mean E of the millisecond, clamped to 0.80 to 1.25. -/
def correction (mw eSum eCount : Nat) : Nat :=
  let f := div64 .near (div64 .near (int64 mw) 0x408F400000000000) (div64 .near eSum (int64 eCount))
  if lt64 f 0x3FE999999999999A then 0x3FE999999999999A else if lt64 0x3FF4000000000000 f then 0x3FF4000000000000 else f

/-- VR_CORRECTION (R334): the read of the regulator's power, or its failure. -/
def execVrCorrection (reading : Option Nat) (s : State) : Host.Outcome State Fault Refusal :=
  let sel := s.cfg 0x7100 8
  let fresh : Gov := { s.gov with eSum := 0, eCount := 0 }
  .next (if sel = 0 then { s with gov := { fresh with f := one64 } }
    else
      let s := s.emit (.sspFrame sel (toLE 1 (s.cfg 0x7100 9)) [] 0 false [] 4)
      match reading with
      | some mw =>
        { s with gov := { fresh with f := if s.gov.eCount = 0 then s.gov.f else correction mw s.gov.eSum s.gov.eCount, vrFailed := false } }
      | none =>
        let first := !s.gov.vrFailed
        let s := { s with gov := { fresh with vrFailed := true } }
        if first then s.logEvent 0x0903 else s)

/-- GOVERNOR_SAFE (R340): 100 consecutive samples above the cap at full limiting. -/
def execGovernorSafe (s : State) : Host.Outcome State Fault Refusal :=
  .next (if 100 ≤ s.gov.limitRun ∧ s.dict.safeCause.testBit causeGovernor = false then
    (s.forceSafe causeGovernor).logEvent 0x0905 else s)

/-- GOVERNOR_CAUSE_CLEAR (R340): 100,000 consecutive samples at or below C − 10 W. -/
def execGovernorCauseClear (s : State) : Host.Outcome State Fault Refusal :=
  .next (if 100000 ≤ s.gov.safeRun then s.clearCause causeGovernor else s)

end Sys2Proof.Machine
end

