-- ==== Sys2Proof/Machine/Regulator.lean ====
section
/-! DEFINITION. The bandwidth regulators (R159 to R165). A token stands for 64 bytes of HBM traffic. -/

namespace Sys2Proof.Machine

def State.guarantee (s : State) (b : Nat) : Nat := s.cfg 0x4110 (b + 1)
def State.ceiling (s : State) (b : Nat) : Nat := s.cfg 0x4111 (b + 1)
def State.depth (s : State) (b : Nat) : Nat := s.cfg 0x4112 (b + 1)
def State.bucket (s : State) (b : Nat) : Nat := Map.getD s.bw.bucket b 0
def State.spent (s : State) (b : Nat) : Nat := Map.getD s.bw.spent b 0

/-- Σ g over the burrows. -/
def State.guaranteeSum (s : State) : Nat := sumNat ((List.range 64).map s.guarantee)

/-- The effective guarantee g′ (R165). -/
def State.effectiveGuarantee (s : State) (b : Nat) : Nat := if s.bw.scaled then Map.getD s.bw.effective b 0 else s.guarantee b

/-- D = floor(78 × h × t / 100) (R161). -/
def deliverableOf (h t : Nat) : Nat := 78 * h * t / 100

/-- Tokens of a transfer (R159). -/
def tokensFor (bytes : Nat) : Nat := ceilDiv bytes 64

/-- g′ is recomputed: scaling starts, goes on or ends (R165). -/
def State.rescale (s : State) : State :=
  let sum := s.guaranteeSum
  let d := s.bw.deliverable
  if d < sum then
    let eff := (List.range 64).map fun b => (b, s.guarantee b * d / sum)
    let was := s.bw.scaled
    let s := { s with bw := { s.bw with effective := eff, scaled := true } }
    if was then s
    else
      let hit := (List.range 64).filter fun b => Map.getD eff b 0 < s.guarantee b
      (hit.foldl (fun s b => s.flagBurrow b 2) s).logEvent 0x0403
  else if s.bw.scaled then { s with bw := { s.bw with effective := [], scaled := false } }.logEvent 0x0404
  else s

/-- The per-channel rate from this boundary on: a step down counts before it takes effect, a step up after (R163). -/
def State.refillTokens (s : State) : Nat :=
  match s.gov.mclkTo with
  | some m => if s.gov.mclk < m then stepTokens m else stepTokens s.gov.mclk
  | none => stepTokens s.gov.mclk

/-- The refill of one burrow (R160): what it gets, and what spills into the pool. -/
def State.refillOne (s : State) (b : Nat) : State :=
  let g := s.effectiveGuarantee b
  let (bucket, spill) :=
    if (s.burrow b).state = .enabled then (min (s.depth b) (s.bucket b + g), s.bucket b + g - s.depth b) else (s.bucket b, g)
  { s with bw := { s.bw with bucket := Map.put s.bw.bucket b bucket, pool := s.bw.pool + spill } }

/-- A bucket depth has changed: what exceeds it goes to the pool, so that the token law goes on to hold (R35, R160). -/
def State.shed (s : State) (b : Nat) : State :=
  let over_ := s.bucket b - s.depth b
  if over_ = 0 then s
  else { s with bw := { s.bw with bucket := Map.put s.bw.bucket b (s.depth b), pool := min (s.bw.pool + over_) s.bw.deliverable } }

/-- The token law of R35, audited at a refill over what the interval left: the pool is clamped to the refill total less the
buckets. -/
def State.tokenAudit (s : State) : State :=
  let buckets := sumNat ((List.range 64).map s.bucket)
  let total := s.bw.deliverable + sumNat ((List.range 64).map s.depth)
  if total < s.bw.pool + buckets then { s with bw := { s.bw with pool := total - buckets } }.logEvent 0x0301 else s

/-- The refill of every microsecond (R160, R163). -/
def State.refill (s : State) : State :=
  let s := s.tokenAudit
  let t := s.refillTokens
  let d := deliverableOf s.bw.healthy t
  let changed := d != s.bw.deliverable
  let s := { s with bw := { s.bw with channelTokens := t, deliverable := d } }
  let s := if changed then s.rescale else s
  let sum := sumNat ((List.range 64).map s.effectiveGuarantee)
  let s := (List.range 64).foldl State.refillOne s
  { s with bw := { s.bw with pool := min (s.bw.pool + (d - sum)) d, spent := [] } }

/-- The charge passes now (R160). -/
def State.canPay (s : State) (b n : Nat) : Bool :=
  decide (s.spent b + n ≤ min (s.ceiling b) s.bw.deliverable) && decide (n ≤ s.bucket b + s.bw.pool)

/-- A charge of `n` tokens: from the bucket first, the rest from the pool; none while it has to wait (R160). -/
def State.charge (s : State) (b n : Nat) : Option State :=
  if s.canPay b n then
    let own := min n (s.bucket b)
    some { s with bw := { s.bw with bucket := Map.put s.bw.bucket b (s.bucket b - own), pool := s.bw.pool - (n - own)
                                    spent := Map.put s.bw.spent b (s.spent b + n) } }
  else none

/-- A charge that never waits: as far as bucket and pool can pay (R123, R159). -/
def State.chargeUpTo (s : State) (b n : Nat) : State :=
  let room := min (s.ceiling b) s.bw.deliverable - s.spent b
  let m := min n (min room (s.bucket b + s.bw.pool))
  (s.charge b m).getD s

/-- The burrow's bucket holds a token, or the pool does (R134). -/
def State.hasTokens (s : State) (b : Nat) : Bool := decide (0 < s.bucket b + s.bw.pool)

/-- TOKEN_REFILL (R160, R163, R165). -/
def execTokenRefill (s : State) : Host.Outcome State Fault Refusal := .next s.refill

/-- TOKEN_CHARGE (R160): the charge of HBM traffic that no other command charges; it waits while it cannot pay. -/
def execTokenCharge (b : Fin 64) (n : Nat) (s : State) : Host.Outcome State Fault Refusal :=
  .next ((s.charge b.val n).getD s)

end Sys2Proof.Machine
end

