-- ==== Sys2Proof/Machine/Messages.lean ====
section
/-! DEFINITION. Fabric messages: their layout (Tables 8.3, 8.4, 8.11), their form check (R212), sending, requests and
their answers (R202 to R204, R213, R214). -/

namespace Sys2Proof.Machine

/-! ## Types and channels (Table 8.4) -/

def mWaveReq : Nat := 0x01
def mWaveRsp : Nat := 0x02
def mRelease : Nat := 0x03
def mMutFwd : Nat := 0x10
def mMutRsp : Nat := 0x11
def mStashWrite : Nat := 0x12
def mKillWrite : Nat := 0x13
def mStashAck : Nat := 0x14
def mKillAck : Nat := 0x15
def mRevoke : Nat := 0x16
def mRevokeAck : Nat := 0x17
def mStamp : Nat := 0x20
def mCollCtrl : Nat := 0x21
def mListPull : Nat := 0x30
def mListData : Nat := 0x31
def mImagePull : Nat := 0x32
def mImageData : Nat := 0x33
def mRefused : Nat := 0x3F

/-- The virtual channel of a message type: 0 REQ, 1 RSP, 2 BULK, 3 MGMT; none for a type not listed. -/
def channelOf (ty : Nat) : Option Nat :=
  if [mWaveReq, mRelease, mMutFwd, mStashWrite, mKillWrite, mRevoke, mListPull, mImagePull].contains ty then some 0
  else if [mWaveRsp, mMutRsp, mStashAck, mKillAck, mRevokeAck].contains ty then some 1
  else if [mListData, mImageData].contains ty then some 2
  else if [mStamp, mCollCtrl, mRefused].contains ty then some 3
  else none

/-! ## Header fields (Table 8.3) -/

def msgDest (m : List Byte) : Nat := field m 0 1 % 128
def msgSource (m : List Byte) : Nat := field m 1 1 % 128
def msgType (m : List Byte) : Nat := field m 2 1
def msgFlags (m : List Byte) : Nat := field m 3 1
def msgFramed (m : List Byte) : Bool := (msgFlags m).testBit 0
def msgFp16 (m : List Byte) : Bool := (msgFlags m).testBit 1
def msgLast (m : List Byte) : Bool := (msgFlags m).testBit 2
def msgRaw (m : List Byte) : Nat := field m 4 2
def msgTag (m : List Byte) : Nat := field m 8 4
def msgRequester (m : List Byte) : Nat := field m 12 1 % 128
def msgColl (m : List Byte) : Nat := field m 14 2 % 4096
/-- The message after its header. -/
def msgBody (m : List Byte) : List Byte := m.drop 16

/-- The header of a message of `raw` bytes. -/
def msgHeader (dest source ty flags raw wire tag requester coll : Nat) : List Byte :=
  toLE 1 dest ++ toLE 1 source ++ toLE 1 ty ++ toLE 1 flags ++ toLE 2 raw ++ toLE 2 wire ++ toLE 4 tag
    ++ toLE 1 requester ++ [0] ++ toLE 2 coll

/-- Where the vector field of a message starts in its bytes: none when it carries none (Table 8.11). -/
def vecOffset (m : List Byte) : Option Nat :=
  let b := msgBody m
  let ty := msgType m
  let at_ :=
    if ty = mWaveReq then (if field b 22 1 % 2 = 1 then some (16 + 48 + 4 * field b 34 2 + (if field b 23 1 = 0 then 0 else 8 + 16 * field b 23 1)) else none)
    else if ty = mMutFwd then (some (16 + 136))
    else if ty = mStashWrite then some (16 + 64)
    else if ty = mListData then some (16 + 16 + 64 * field b 8 4)
    else none
  match at_ with
  | some o => if o < msgRaw m then some o else none
  | none => none

/-- The fields of a fixed part that are written as zero are zero, and the length fits the fixed part and its counts
(R212). -/
def bodyOk (ty : Nat) (b : List Byte) : Bool :=
  let n := b.length
  if ty = mWaveReq then
    decide (48 ≤ n) && zeroAt b 40 8 && zeroAt b 13 3 && decide (field b 22 1 < 2) && decide (field b 23 1 ≤ 16)
      && decide (field b 34 2 ≤ 64) && decide (1 ≤ field b 20 2 ∧ field b 20 2 ≤ 4096)
      && (if field b 22 1 = 1 then decide (48 + 4 * field b 34 2 + (if field b 23 1 = 0 then 0 else 8 + 16 * field b 23 1) < n)
          else decide (field b 23 1 = 0) && n == 48 + 4 * field b 34 2)
  else if ty = mWaveRsp then
    decide (8 ≤ n) && decide (field b 2 2 ≤ 500) && decide (field b 4 2 ≤ 64) && n == 8 + 4 * field b 4 2 + 40 * field b 2 2
  else if ty = mRelease then n == 0
  else if ty = mMutFwd then
    decide (136 ≤ n) && zeroAt b 129 7 && decide (field b 128 1 < 64)
      && (if field b 0 1 = 0x10 ∨ field b 0 1 = 0x12 then decide (136 < n) else n == 136 && [0x11, 0x51, 0x52, 0x53].contains (field b 0 1))
  else if ty = mMutRsp then n == 16 && zeroAt b 8 8
  else if ty = mStashWrite then decide (64 ≤ n)
  else if ty = mKillWrite then n == 16 && zeroAt b 12 4
  else if ty = mStashAck ∨ ty = mKillAck then n == 8
  else if ty = mRevoke ∨ ty = mRevokeAck then n == 8 && zeroAt b 6 2
  else if ty = mStamp then n == 8 && decide (field b 0 1 < 2) && zeroAt b 1 1 && (field b 0 1 == 1 || zeroAt b 2 6)
  else if ty = mCollCtrl then
    let op := field b 1 1
    decide (48 ≤ n) && decide (field b 0 1 < 2) && decide (1 ≤ op ∧ op ≤ 8) && (field b 0 1 == 1 || zeroAt b 2 2)
      && zeroAt b 4 4 && zeroAt b 23 1 && zeroAt b 43 5 && (op == 3 || op == 4 || zeroAt b 8 8)
      && (op == 3 || op == 5 || zeroAt b 16 6) && (op == 6 || op == 8 || zeroAt b 22 1)
      && (op == 1 || zeroAt b 24 19) && decide (field b 42 1 ≤ 22) && n == 48 + 8 * field b 42 1
  else if ty = mListPull then n == 40 && zeroAt b 6 2 && zeroAt b 13 3 && decide (field b 32 1 < 2) && zeroAt b 33 7
  else if ty = mListData then decide (16 ≤ n) && zeroAt b 12 4 && decide (16 + 64 * field b 8 4 ≤ n)
  else if ty = mImagePull then n == 16 && zeroAt b 12 4 && decide (1 ≤ field b 8 4 ∧ field b 8 4 ≤ 65536)
  else if ty = mImageData then decide (16 ≤ n) && zeroAt b 12 4 && n == 16 + field b 8 4
  else if ty = mRefused then n == 8 && zeroAt b 2 6
  else false

/-- A decoded message keeps the form of Tables 8.3 and 8.11 (R211, R212). -/
def msgOk (m : List Byte) : Bool :=
  decide (16 ≤ m.length) && m.length == msgRaw m && decide (msgRaw m ≤ 20480) && decide (msgFlags m < 8)
    && zeroAt m 13 1 && decide (field m 14 2 < 4096) && bodyOk (msgType m) (msgBody m)

/-! ## Sending -/

/-- The source a message carries: the own device ID. -/
def State.self (s : State) : Nat := s.deviceId.getD 127

/-- A message of this device. -/
def State.mkMsg (s : State) (dest ty flags tag requester coll : Nat) (body : List Byte) : Message :=
  { bytes := msgHeader dest s.self ty flags (16 + body.length) (16 + body.length) tag requester coll ++ body
    channel := (channelOf ty).getD 3 }

/-- A message starts on its way: to this device itself at once, else to the ports (R195). -/
def State.post (s : State) (m : Message) : State :=
  if s.deviceId = some (msgDest m.bytes) then { s with fab := { s.fab with inbox := s.fab.inbox ++ [m] } }
  else { s with fab := { s.fab with transit := s.fab.transit ++ [m] } }

/-- A message that needs no answer, or is one. -/
def State.send (s : State) (dest ty flags tag requester coll : Nat) (body : List Byte) : State :=
  s.post (s.mkMsg dest ty flags tag requester coll body)

/-- Landing units a request needs (R202). -/
def landingNeed (m : Message) : Nat := ceilDiv m.bytes.length 2048

/-- The pool and the credits that a request holds at its destination: landing units, or an MGMT slot. -/
def requestPool (m : Message) : Nat × Nat := if m.channel = 3 then (0x11, 1) else (0x0E, landingNeed m)

/-- The size of that pool for one peer. -/
def poolSize (code : Nat) : Nat := if code = 0x11 then Config.mgmtSlots else Config.landingUnits

/-- A request leaves once it holds its landing units or MGMT slot; its recovery bound starts then (R214). To this
device itself it needs none. -/
def State.startRequest (s : State) (m : Message) (r : Request) : Option State :=
  let r' : Request := { r with until_ := s.clk.now + Config.recoveryBoundUs }
  if s.deviceId = some r.dest then
    some { s.post m with fab := { (s.post m).fab with requests := s.fab.requests ++ [{ r' with landing := 0 }] } }
  else
    let pn := requestPool m
    if s.used pn.1 r.dest + pn.2 ≤ poolSize pn.1 then
      let s := (s.reserve pn.1 r.dest pn.2).post m
      some { s with fab := { s.fab with requests := s.fab.requests ++ [{ r' with landing := pn.2 }] } }
    else none

/-- A request to another device (or to this one) for a command that `requester` holds, with its answer awaited. -/
def State.requestFor (s : State) (dest ty flags tag requester coll owner : Nat) (body : List Byte) : State :=
  let m := s.mkMsg dest ty flags tag requester coll body
  let r : Request := { kind := ty, dest := dest, tag := tag, coll := coll, owner := owner }
  match s.startRequest m r with
  | some s' => s'
  | none => { s with fab := { s.fab with queued := s.fab.queued ++ [(m, r)] } }

/-- A request for a command of this device. -/
def State.request (s : State) (dest ty flags tag coll owner : Nat) (body : List Byte) : State :=
  s.requestFor dest ty flags tag s.self coll owner body

/-- Requests that waited start in order, as far as credits go. -/
def State.startQueued (s : State) : List (Message × Request) → State
  | [] => s
  | (m, r) :: rest =>
    match s.startRequest m r with
    | some s' => s'.startQueued rest
    | none =>
      let s' := s.startQueued rest
      { s' with fab := { s'.fab with queued := (m, r) :: s'.fab.queued } }

/-- A request ends: its credits return, and waiting ones may start (R202, R204; log entry 15). -/
def State.endRequest (s : State) (r : Request) : State :=
  let s := { s with fab := { s.fab with requests := s.fab.requests.erase r } }
  let s := if r.landing = 0 then s
    else if r.kind = mStamp ∨ r.kind = mCollCtrl then s.giveBack 0x11 r.dest r.landing else s.giveBack 0x0E r.dest r.landing
  let q := s.fab.queued
  { s with fab := { s.fab with queued := [] } }.startQueued q

/-- The request that an answer of a kind from a device with a tag answers. -/
def State.awaited (s : State) (kind dest tag coll : Nat) : Option Request :=
  s.fab.requests.find? fun r => r.kind == kind && r.dest == dest && r.tag == tag && r.coll == coll

/-- A late response is discarded and counted (R213). -/
def State.lateResponse (s : State) : State :=
  { s with fab := { s.fab with lateResponses := (s.fab.lateResponses + 1) % 2 ^ 32 } }

/-! ## The inbox -/

/-- The link units a message held at its port are returned when it leaves the port's buffer (R201). -/
def State.unitsBack (s : State) (m : Message) : State :=
  match m.port with
  | none => s
  | some p =>
    let port := Map.getD s.fab.ports p {}
    let k := m.channel + 4 * m.cls
    let port := { port with owed := Map.put port.owed k (Map.getD port.owed k 0 + m.units) }
    { s with fab := { s.fab with ports := Map.put s.fab.ports p port } }

/-- The message at place `i` of the inbox, if it is of the type, with the state without it. -/
def State.take (s : State) (i ty : Nat) : Option (List Byte × State) :=
  match s.fab.inbox[i]? with
  | none => none
  | some m =>
    if msgType m.bytes = ty then
      some (m.bytes, { s with fab := { s.fab with inbox := s.fab.inbox.eraseIdx i } }.unitsBack m)
    else none

/-! ## Generation tags (R213) -/

/-- The tag of a slot: its number and its 20-bit generation. -/
def State.tagOf (s : State) (slot : Nat) : Nat := slot % 4096 + 4096 * (Map.getD s.sched.tags slot 0)

/-- The tag of a slot is increased when the slot is taken. -/
def State.newTag (s : State) (slot : Nat) : State :=
  { s with sched := { s.sched with tags := Map.put s.sched.tags slot ((Map.getD s.sched.tags slot 0 + 1) % 2 ^ 20) } }

end Sys2Proof.Machine
end

