-- ==== Sys2Proof/Machine/Records.lean ====
section
/-! DEFINITION. The byte layouts of collections: metadata records (R64), visibility (R65), filters (R93, R94), segment
headers (R63), stripe geometry (R62), bound records (R71), result records (R116). -/

namespace Sys2Proof.Machine

/-! ## The metadata record (R64) -/

def recSeq (r : List Byte) : Nat := field r 0 6
def recFlags (r : List Byte) : Nat := field r 6 2
def recValid (r : List Byte) : Bool := (recFlags r).testBit 0
def recTomb (r : List Byte) : Bool := (recFlags r).testBit 1
def recLink (r : List Byte) : Nat := field r 8 6
def recExt (r : List Byte) : Nat := field r 16 8
def recAttr (r : List Byte) : Nat := field r 24 8
def recA0 (r : List Byte) : Nat := field r 32 4
def recA1 (r : List Byte) : Nat := field r 36 4
def recExpiry (r : List Byte) : Nat := field r 40 4
def recHandle (r : List Byte) : Nat := field r 44 4
def recList (r : List Byte) : Nat := field r 48 4 % 2 ^ 20
def recNorm (r : List Byte) : Nat := field r 56 8

/-- A metadata record. -/
def mkRecord (seq flags link ext attr a0 a1 expiry handle list norm : Nat) : List Byte :=
  toLE 6 seq ++ toLE 2 flags ++ toLE 6 link ++ zeros 2 ++ toLE 8 ext ++ toLE 8 attr ++ toLE 4 a0 ++ toLE 4 a1
    ++ toLE 4 expiry ++ toLE 4 handle ++ toLE 4 list ++ zeros 4 ++ toLE 8 norm

/-- A record with another link sequence. -/
def withLink (r : List Byte) (link : Nat) : List Byte := splice r 8 (toLE 6 link)

/-- A record with another sequence number. -/
def withSeq (r : List Byte) (seq : Nat) : List Byte := splice r 0 (toLE 6 seq)

/-- A record with other flags. -/
def withFlags (r : List Byte) (flags : Nat) : List Byte := splice r 6 (toLE 2 flags)

/-- Visible at a stamp (R65). -/
def visible (r : List Byte) (stamp : Nat) : Bool :=
  recValid r && !recTomb r && decide (recSeq r ≤ stamp) && (recLink r == 0 || decide (stamp < recLink r))

/-! ## Filter programs (R93, R94) -/

/-- A term and its operand. -/
structure Term where
  code : Nat
  lo : Nat
  hi : Nat
  mask : Nat
  deriving DecidableEq, Repr

/-- Term `i` of a program. -/
def termAt (p : List Byte) (i : Nat) : Term :=
  let b := p.drop (8 + 16 * i)
  { code := field b 0 1, lo := field b 8 4, hi := field b 12 4, mask := field b 8 8 }

/-- The clause sizes of a program's header. -/
def clauseSizes (p : List Byte) : List Nat := (List.range 4).map fun i => field p i 1

/-- The type of a term's attribute: A0, A1, or none. -/
def termType (a0 a1 code : Nat) : Option Nat := if code = 4 then some a0 else if code = 5 then some a1 else none

/-- A program of `n` terms is well formed for the attribute types (R94). -/
def filterOk (p : List Byte) (n a0 a1 : Nat) : Bool :=
  let cs := clauseSizes p
  cs.all (· ≤ 4) && sumNat cs == n && zeroAt p 4 4
    && (cs.dropWhile (· != 0)).all (· == 0)
    && (List.range n).all fun i =>
      let t := termAt p i
      decide (1 ≤ t.code ∧ t.code ≤ 6) && zeroAt p (8 + 16 * i + 1) 7
        && (t.code != 6 || t.mask == 0)
        && (termType a0 a1 t.code != some 2 || (!isNan .b32 t.lo && !isNan .b32 t.hi))

/-- `lo ≤ v ≤ hi` in an attribute's type (R94): 0 U32, 1 I32, 2 F32. -/
def inRange (ty lo v hi : Nat) : Bool :=
  if ty = 0 then decide (lo ≤ v ∧ v ≤ hi)
  else if ty = 1 then decide ((BitVec.ofNat 32 lo).toInt ≤ (BitVec.ofNat 32 v).toInt ∧ (BitVec.ofNat 32 v).toInt ≤ (BitVec.ofNat 32 hi).toInt)
  else !isNan .b32 v && le64 (to64 lo) (to64 v) && le64 (to64 v) (to64 hi)

/-- A term passes a record (Table 4.5). -/
def termPasses (t : Term) (a0 a1 day : Nat) (r : List Byte) : Bool :=
  let w := recAttr r
  if t.code = 1 then w &&& t.mask != 0
  else if t.code = 2 then w &&& t.mask == t.mask
  else if t.code = 3 then w &&& t.mask == 0
  else if t.code = 4 then inRange a0 t.lo (recA0 r) t.hi
  else if t.code = 5 then inRange a1 t.lo (recA1 r) t.hi
  else recExpiry r == 0 || decide (day < recExpiry r)

/-- The clauses of a program: first term and size of each present clause. -/
def clauses : Nat → List Nat → List (Nat × Nat)
  | _, [] => []
  | at_, n :: ns => if n = 0 then [] else (at_, n) :: clauses (at_ + n) ns

/-- A filter passes a record: some clause passes, or no clause is present (R94). -/
def filterPasses (p : List Byte) (a0 a1 day : Nat) (r : List Byte) : Bool :=
  let cs := clauses 0 (clauseSizes p)
  cs.isEmpty || cs.any fun c => (List.range c.2).all fun i => termPasses (termAt p (c.1 + i)) a0 a1 day r

/-! ## Stripe geometry (R62) -/

/-- Vectors per vector segment. -/
def geoE (b : Nat) : Nat := 65536 / b
/-- Largest vector-segment count of a stripe. -/
def geoV (b : Nat) : Nat := min 32 (ceilDiv 1020 (geoE b))
/-- Entries of a stripe. -/
def geoC (b : Nat) : Nat := min 1020 (geoV b * geoE b)

/-- Records of a pinned block (R80). -/
def geoN (b : Nat) : Nat := 130816 / (64 + b)

/-! ## Segment headers (R63) -/

def hdrType (h : List Byte) : Nat := field h 0 1
def hdrColl (h : List Byte) : Nat := field h 2 2 % 4096
def hdrNext (h : List Byte) : Nat := field h 4 4
def hdrList (h : List Byte) : Nat := field h 16 4 % 2 ^ 20
def hdrCount (h : List Byte) : Nat := field h 24 2
def hdrV (h : List Byte) : Nat := field h 28 1
/-- Vector segment `i` of a stripe. -/
def hdrVec (h : List Byte) (i : Nat) : Nat := field h (128 + 4 * i) 4

/-- The CRC of a header, bytes 48 to 51 taken as zero. -/
def headerCrc (h : List Byte) : Nat := crc32c (splice (h.take 256) 48 (zeros 4))

/-- The header passes R63: its CRC, its type and its collection ID. -/
def headerOk (h : List Byte) (ty coll : Nat) : Bool :=
  field h 48 4 == headerCrc h && hdrType h == ty && hdrColl h == coll

/-- A header. -/
def mkHeader (ty coll next generation list stripe count e minSeq maxSeq : Nat) (vecs : List Nat) : List Byte :=
  let h := toLE 1 ty ++ [1] ++ toLE 2 coll ++ toLE 4 next ++ toLE 8 generation ++ toLE 4 list ++ toLE 4 stripe
    ++ toLE 2 count ++ toLE 2 (if vecs = [] then 0 else e) ++ toLE 1 vecs.length ++ zeros 3 ++ toLE 6 minSeq ++ zeros 2 ++ toLE 6 maxSeq ++ zeros 2
    ++ zeros 80 ++ (vecs.map (toLE 4)).flatten ++ (List.replicate (4 * (32 - vecs.length)) (0xFF : Byte))
  splice h 48 (toLE 4 (headerCrc h))

/-- A header with changed bytes and its CRC made good. -/
def rehash (h : List Byte) : List Byte := splice h 48 (toLE 4 (headerCrc h))

/-- The smallest sequence number among records, or `Config.noSequence`. -/
def minSeqOf (rs : List (List Byte)) : Nat := rs.foldl (fun m r => min m (recSeq r)) Config.noSequence
def maxSeqOf (rs : List (List Byte)) : Nat := rs.foldl (fun m r => max m (recSeq r)) 0

/-! ## Bound records (Table 3.7) -/

def boundList (r : List Byte) : Nat := field r 0 4 % 2 ^ 20
def boundEmpty (r : List Byte) : Bool := (field r 0 4).testBit 20
def boundOwner (r : List Byte) : Nat := field r 4 1 % 128
def boundMin (r : List Byte) : Nat := field r 8 6
def boundParam (r : List Byte) : Nat := field r 16 8
def boundCustom (r : List Byte) : List Byte := slice r 24 32

/-- A bound record. -/
def mkBound (list : Nat) (empty : Bool) (owner minSeq param : Nat) (custom : List Byte) : List Byte :=
  toLE 4 (list + if empty then 2 ^ 20 else 0) ++ toLE 1 owner ++ zeros 3 ++ toLE 6 minSeq ++ zeros 2 ++ toLE 8 param
    ++ padTo 32 custom ++ zeros 8

/-! ## Directory entries (Table 3.6) -/

def dirFirst (e : List Byte) : Nat := field e 0 4
def dirStripes (e : List Byte) : Nat := field e 4 4
def dirRecords (e : List Byte) : Nat := field e 8 4
def dirList (e : List Byte) : Nat := field e 12 4 % 2 ^ 20
def dirDamaged (e : List Byte) : Bool := (field e 12 4).testBit 20

/-- A directory entry. -/
def mkDir (first stripes records list : Nat) (damaged pinned : Bool) (written : Nat) : List Byte :=
  toLE 4 first ++ toLE 4 stripes ++ toLE 4 records
    ++ toLE 4 (list + (if damaged then 2 ^ 20 else 0) + (if pinned then 2 ^ 21 else 0)) ++ toLE 8 written ++ zeros 8

/-! ## Generation roots (Table 3.5) -/

def rootGen (r : List Byte) : Nat := field r 256 8 % 2 ^ 40
def rootCut (r : List Byte) : Nat := field r 264 6
def rootStart (r : List Byte) : Nat := field r 272 4
def rootDirs (r : List Byte) : Nat := field r 276 4
def rootCents (r : List Byte) : Nat := field r 280 4
def rootAdjs (r : List Byte) : Nat := field r 284 4
/-- Segment number `i` of those the root lists. -/
def rootSeg (r : List Byte) (i : Nat) : Nat := field r (512 + 4 * i) 4

/-- A generation root. -/
def mkRoot (coll generation cut start : Nat) (dirs cents adjs : List Nat) (owned : Nat) : List Byte :=
  mkHeader 6 coll Config.noSegment generation 0 0 0 0 0 0 []
    ++ toLE 8 generation ++ toLE 6 cut ++ zeros 2 ++ toLE 4 start ++ toLE 4 dirs.length ++ toLE 4 cents.length
    ++ toLE 4 adjs.length ++ toLE 4 owned ++ zeros 220 ++ ((dirs ++ cents ++ adjs).map (toLE 4)).flatten

/-! ## Result records (Tables 4.8, 4.9) -/

/-- A full result record. -/
def fullRecord (rec : List Byte) (score list device : Nat) (stash : Bool) : List Byte :=
  toLE 8 (recExt rec) ++ toLE 4 score ++ toLE 4 (recHandle rec) ++ toLE 8 (recAttr rec) ++ toLE 6 (recSeq rec) ++ zeros 2
    ++ toLE 4 (list + 2 ^ 20 * device + (if stash then 2 ^ 27 else 0)) ++ zeros 4

/-- Score, sequence number and payload handle of a full record. -/
def fullScore (f : List Byte) : Nat := field f 8 4
def fullSeq (f : List Byte) : Nat := field f 24 6
def fullHandle (f : List Byte) : Nat := field f 12 4

end Sys2Proof.Machine
end

