-- ==== Sys2Proof/Machine/Sorter.lean ====
section
/-! DEFINITION. The sorter (R108, R109): pre-selection, merge, τ, and the withdrawal of R115. -/

namespace Sys2Proof.Machine

/-- The order of candidates: order key, then sequence number (R15). -/
def Cand.better (a b : Cand) : Bool := Machine.better a.key a.seq b.key b.seq

/-- A candidate enters a sorted list after every candidate that is not worse: the sort is stable. -/
def insertCand (c : Cand) : List Cand → List Cand
  | [] => [c]
  | d :: ds => if c.better d then c :: d :: ds else d :: insertCand c ds

/-- Candidates in order. -/
def sortCands (cs : List Cand) : List Cand := cs.foldl (fun acc c => insertCand c acc) []

/-- The bucket of an order key: its bits [31:20]. -/
def bucketOf (key : Nat) : Nat := key / 2 ^ 20 % 4096

/-- One more in counter `i`. -/
def bump (l : List Nat) (i : Nat) : List Nat := l.modify i (· + 1)

/-- Candidates held. -/
def Sorter.held (s : Sorter) : Nat := s.top.length + s.intake.length

/-- The smallest index at which the running sum from `acc` reaches `k`; `i` is the index of the list's head. -/
def reach (k : Nat) : Nat → Nat → List Nat → Nat
  | _, i, [] => i - 1
  | acc, i, n :: ns => if k ≤ acc + n then i else reach k (acc + n) (i + 1) ns

/-- The threshold bucket T. -/
def Sorter.computeT (s : Sorter) : Nat :=
  if s.held < s.k then 4095
  else
    let c := reach s.k 0 0 s.coarse
    if c = s.focus then 64 * c + reach s.k (sumNat (s.coarse.take c)) 0 s.fine else 64 * c + 63

/-- A candidate is counted in both levels. -/
def Sorter.count (s : Sorter) (c : Cand) : Sorter :=
  let b := bucketOf c.key
  { s with coarse := bump s.coarse (b / 64), fine := if b / 64 = s.focus then bump s.fine (b % 64) else s.fine }

/-- Merge: the first k of intake and top list, the focus, both levels rebuilt, T (R108). -/
def Sorter.merge (s : Sorter) : Sorter :=
  let all := s.intake.foldl (fun acc c => insertCand c acc) s.top
  let top := all.take s.k
  let focus := if top.length < s.k then 63 else (top[s.k - 1]?.map fun c => bucketOf c.key / 64).getD 63
  let empty : Sorter := { s with top := top, intake := [], spill := s.spill ++ all.drop s.k, focus := focus
                                 coarse := List.replicate 64 0, fine := List.replicate 64 0 }
  let counted := top.foldl Sorter.count empty
  { counted with threshold := counted.computeT }

/-- A post (R108). -/
def Sorter.post (s : Sorter) (c : Cand) : Sorter :=
  if s.k ≤ s.held ∧ s.threshold < bucketOf c.key then { s with spill := s.spill ++ [c] }
  else
    let s1 := { s with intake := s.intake ++ [c] }.count c
    let s2 := { s1 with threshold := s1.computeT }
    if 48 ≤ s2.intake.length then s2.merge else s2

/-- τ: key and sequence number of the k-th entry of the top list, if there is one. -/
def Sorter.tau (s : Sorter) : Option (Nat × Nat) :=
  if s.k = 0 then none else s.top[s.k - 1]?.map fun c => (c.key, c.seq)

/-- The end of a wave: merge, and nothing of the wave comes back later. -/
def Sorter.endWave (s : Sorter) : Sorter := { s.merge with spill := [] }

/-- Every candidate that satisfies `p` is withdrawn, and the exact top k over the others is held (R29, R115, R241). -/
def Sorter.withdraw (s : Sorter) (p : Cand → Bool) : Sorter :=
  let rest := (s.top ++ s.intake ++ s.spill).filter fun c => !p c
  let merged := { s with top := [], intake := sortCands rest, spill := [] }.merge
  merged

/-- The references into the remote record area that candidates still use. -/
def Sorter.refs (s : Sorter) : List Nat :=
  ((s.top ++ s.intake ++ s.spill).filter (·.remote)).map (·.ref)

end Sys2Proof.Machine
end

