-- ==== Sys2Proof/Machine/Sched.lean ====
section
/-! DEFINITION. Query contexts and live commands: taking and freeing them, their streams, tiles, posts and chunks, and the
statuses that end a query (R29 to R31, R50, R104, R112). -/

namespace Sys2Proof.Machine

/-! ## Maps of the state -/

def State.ctx? (s : State) (x : Nat) : Option Ctx := Map.get? s.sched.ctxs x
def State.setCtx (s : State) (x : Nat) (c : Ctx) : State := { s with sched := { s.sched with ctxs := Map.put s.sched.ctxs x c } }
def State.modCtx (s : State) (x : Nat) (f : Ctx → Ctx) : State :=
  match s.ctx? x with
  | some c => s.setCtx x (f c)
  | none => s
def State.coll? (s : State) (g : Nat) : Option Coll := Map.get? s.colls g
def State.setColl (s : State) (g : Nat) (c : Coll) : State := { s with colls := Map.put s.colls g c }
def State.modColl (s : State) (g : Nat) (f : Coll → Coll) : State :=
  match s.coll? g with
  | some c => s.setColl g (f c)
  | none => s
def State.tile (s : State) (t : Nat) : Tile := Map.getD s.grid.tiles t {}
def State.setTile (s : State) (t : Nat) (v : Tile) : State := { s with grid := { s.grid with tiles := Map.put s.grid.tiles t v } }
def State.kernel (s : State) (k : Nat) : Kernel := Map.getD s.grid.kernels k {}
def State.setKernel (s : State) (k : Nat) (v : Kernel) : State := { s with grid := { s.grid with kernels := Map.put s.grid.kernels k v } }
def State.live? (s : State) (key : Nat) : Option Live := Map.get? s.host.live key
def State.setLive (s : State) (key : Nat) (v : Live) : State := { s with host := { s.host with live := Map.put s.host.live key v } }

/-- Remote contexts stand at keys from here on (R205). -/
def remoteBase : Nat := 4096

/-- The context is one of another device's query. -/
def isRemote (x : Nat) : Bool := decide (remoteBase ≤ x)

/-! ## Shard maps (R83) -/

/-- The device that owns a list. -/
def ownerOf (shards : List (Nat × Nat)) (l : Nat) : Nat :=
  (shards.foldl (fun acc r => if r.1 ≤ l then some r.2 else acc) none).getD 0

/-- The devices of a shard map, each once. -/
def mapDevices (shards : List (Nat × Nat)) : List Nat := once (shards.map Prod.snd)

/-- The lowest device ID of the map: the sequencer device (R60). -/
def sequencerOf (shards : List (Nat × Nat)) : Nat := (shards.map Prod.snd).foldl min 127

/-- The lists of a collection that a device owns, rising. -/
def Coll.owned (c : Coll) (d : Nat) : List Nat := (List.range c.lists).filter fun l => ownerOf c.shards l == d

/-- Bytes of a vector. -/
def Coll.vecBytes (c : Coll) : Nat := c.dim * c.ty.size

/-- The device holds the collection's sequencer (R60, R121). -/
def State.isSequencer (s : State) (c : Coll) : Bool := s.deviceId == some (sequencerOf c.shards)

/-- The metric has a bound function: every standard one, and a custom one whose kernel brings it (R22). -/
def State.hasBound (s : State) (c : Coll) : Bool := c.metric != .custom || (s.kernel c.kernel).hasBound

/-! ## Sorters and chunks (R45, R50, R205) -/

/-- Chunks of a k (R50). -/
def chunksFor (k : Nat) : Nat := if k = 0 then 0 else ceilDiv k 64 + 1

/-- The sorter with the most free chunks of a pool, the lowest number among equals. -/
def State.bestSorter (s : State) (code size : Nat) : Nat :=
  (List.range 16).foldl (fun best n => if size - s.used code best < size - s.used code n then n else best) 0

/-! ## Posts -/

/-- The posts of a context leave, and their credits return. -/
def State.dropPosts (s : State) (x : Nat) : State :=
  let mine := s.sched.posts.filter fun p => p.2.1 == x
  let s := { s with sched := { s.sched with posts := s.sched.posts.filter fun p => p.2.1 != x } }
  mine.foldl (fun s p => s.giveBack 0x0A p.1 1) s

/-! ## Streams (R104) -/

/-- A context leaves the streams that satisfy `p`; rendezvous entries return. -/
def State.leaveStreams (s : State) (x : Nat) (p : Stream → Bool) : State :=
  let left := s.sched.streams.filter fun st => p st && st.waiters.any fun w => w.ctx == x
  let ss := (s.sched.streams.map fun st => if p st then { st with waiters := st.waiters.filter fun w => w.ctx != x } else st)
  let ss := ss.filter fun st => st.waiters != [] || st.issued
  { s with sched := { s.sched with streams := ss } }.giveBack 0x06 0 left.length

/-- The stream of something, if it has one. -/
def State.streamIndex (s : State) (coll root : Nat) (what : StreamOf) : Option Nat :=
  s.sched.streams.findIdx? fun st => st.coll == coll && st.root == root && st.what == what

/-- A context enters a rendezvous table for the stripes given (R104); one entry per pair. -/
def State.enterStream (s : State) (x coll root : Nat) (what : StreamOf) (stripes : List Nat) : State :=
  let w : Waiter := { ctx := x, stripes := stripes, since := s.clk.now }
  let ss := match s.streamIndex coll root what with
    | some i => s.sched.streams.modify i fun st => { st with waiters := st.waiters ++ [w] }
    | none => s.sched.streams ++ [{ coll := coll, root := root, what := what, waiters := [w] }]
  { s with sched := { s.sched with streams := ss } }.reserve 0x06 0 1

/-! ## Tiles of a query (R96) -/

/-- A context leaves the events of a tile; the events themselves still release their buffers. -/
def Tile.dropCtx (t : Tile) (x : Nat) : Tile :=
  { t with events := t.events.map fun e => if e.kind = .metaSeg ∨ e.kind = .vec ∨ e.kind = .pblock then { e with ctxs := e.ctxs.filter (· != x) } else e }

/-- The scheduler retires a query on its tiles: the retirement waits at each tile (R228). -/
def State.retireTiles (s : State) (x kernel : Nat) (tiles : List (Nat × Nat)) : State :=
  tiles.foldl (fun s ts =>
    let t := (s.tile ts.1).dropCtx x
    s.setTile ts.1 { t with events := t.events ++ [{ kind := .retire, kernel := kernel, ctxs := [x], first := ts.2 }] }) s

/-! ## Freeing a context -/

/-- What a query holds beside its context returns: streams, posts, tiles, chunks; remote state is released (R112). -/
def State.freeQuery (s : State) (x : Nat) : State :=
  match s.ctx? x with
  | none => s
  | some c =>
    if c.phase = .finished then s else
    let kernel := ((s.coll? c.coll).map (·.kernel)).getD 0
    let s := (s.leaveStreams x fun _ => true).dropPosts x
    let s := s.retireTiles x kernel c.tiles
    let s := if c.chunks = 0 then s else s.giveBack (if isRemote x then 0x0F else 0x04) c.sorterNo c.chunks
    let s := c.opened.foldl (fun s d => s.send d mRelease 0 (s.tagOf x) s.self c.coll []) s
    s.setCtx x { c with chunks := 0, opened := [], remotes := [], waveLists := [], phase := .finished }

/-- The context itself is free (R50). -/
def State.dropCtx (s : State) (x : Nat) : State :=
  { s with sched := { s.sched with ctxs := Map.del s.sched.ctxs x } }.giveBack (if isRemote x then 0x10 else 0x03) 0 1

/-! ## The end of a query (R29, R31, R117) -/

/-- A query's decision has been made: its status is fixed and its records are due (R116). -/
def State.conclude (s : State) (x status : Nat) (sealed keep : Bool) : State :=
  let s := (s.leaveStreams x fun _ => true).dropPosts x
  s.modCtx x fun c =>
    if c.phase == .decided ∨ c.phase == .writing ∨ c.phase == .finished then c
    else { c with phase := .decided, status := status, sealed := sealed, waveLists := [], stashLeft := false, remotes := []
                  sorter := if keep then { c.sorter.endWave with spill := [] } else { k := c.sorter.k } }

/-- A running query ends at once with no records (Table 1.5). -/
def State.stopQuery (s : State) (x status : Nat) : State :=
  match s.ctx? x with
  | some c =>
    if isRemote x ∨ c.phase = .decided ∨ c.phase = .writing ∨ c.phase = .finished then s else s.conclude x status false false
  | none => s

/-- Every running query of a collection with k ≥ 1 stops (Table 6.6). -/
def State.stopQueries (s : State) (coll status : Nat) : State :=
  (Map.keys s.sched.ctxs).foldl (fun s x =>
    match s.ctx? x with
    | some c => if c.coll = coll ∧ 0 < c.k then s.stopQuery x status else s
    | none => s) s

/-- The query is over: resources return, and its completion waits for completion-queue space. -/
def State.endQuery (s : State) (x : Nat) : State :=
  match s.ctx? x with
  | none => s
  | some c =>
    let s := s.freeQuery x
    match c.cmd with
    | none => s.dropCtx x
    | some key =>
      match s.live? key with
      | none => s.dropCtx x
      | some l =>
        s.finish key { origin := l.origin, status := c.status, sealed := c.sealed, count := c.written, lists := c.scanned
                       stamp := c.stamp, waves := c.waves % 65536, ctx := some x }

/-! ## Live commands -/

/-- The context of a live command is given up without a completion entry (R190). -/
def State.dropLive (s : State) (key : Nat) : State :=
  match s.live? key with
  | none => s
  | some l =>
    let s := match l.ctx with
      | some x => (s.freeQuery x).dropCtx x
      | none => s
    let s := if l.mutationSlot then s.giveBack 0x05 0 1 else s
    { s with host := { s.host with live := Map.del s.host.live key } }.giveBack 0x02 0 1

/-- A live command completes with a status and nothing else, giving up what it holds. -/
def State.failLive (s : State) (key status : Nat) : State :=
  match s.live? key with
  | none => s
  | some l =>
    match l.ctx with
    | some x =>
      let s := s.freeQuery x
      s.finish key { plain l.origin status with ctx := some x }
    | none =>
      let s := if l.mutationSlot then s.giveBack 0x05 0 1 else s
      s.finish key (plain l.origin status)

/-- A command is admitted: it takes the lowest free key (R50). -/
def State.newLive (s : State) (o : Origin) (opcode coll order : Nat) (bytes : List Byte) : Nat × State :=
  let key := Map.freeKey s.host.live 4096 0
  let s := s.newTag (8192 + key)
  let l : Live := { origin := o, opcode := opcode, coll := coll, bytes := bytes, order := order, admitted := s.host.admitOrder
                    tag := Map.getD s.sched.tags (8192 + key) 0 }
  let b := s.burrow o.burrow
  let s := s.setBurrow o.burrow { b with admitted := (b.admitted + 1) % 2 ^ 64 }
  (key, { (s.setLive key l) with host := { (s.setLive key l).host with admitOrder := s.host.admitOrder + 1 } })

/-- A context one of whose scratch frames, or its replacement, is quarantined waits for its replacement frames (R158). -/
def State.withheld (s : State) (x : Nat) : Bool :=
  decide (x < 4096) && (List.range 3).any fun i =>
    s.seg.quarantine.contains (Map.getD s.seg.replaced (3129344 + 3 * x + i) (3129344 + 3 * x + i))

/-- The first context from `x` on that is free and not withheld, looking `fuel` numbers far. -/
def State.freeCtx (s : State) : Nat → Nat → Option Nat
  | 0, _ => none
  | fuel + 1, x => if (s.ctx? x).isNone && !s.withheld x then some x else s.freeCtx fuel (x + 1)

/-- A query context is taken, which one being free (R50, R92); none while none is free. -/
def State.newCtx (s : State) (base size : Nat) (c : Ctx) : Option (Nat × State) :=
  let pick := s.draw.1 % size + base
  let s := s.draw.2
  let found := if (s.ctx? pick).isNone && !s.withheld pick then some pick else s.freeCtx size base
  found.map fun x => (x, ((s.newTag x).setCtx x c).reserve (if base = 0 then 0x03 else 0x10) 0 1)

/-- The fabric tag of a command slot (R213): a forwarded mutation's or a pull's. -/
def State.cmdTag (s : State) (key : Nat) : Nat := key % 4096 + 4096 * Map.getD s.sched.tags (8192 + key) 0

/-- A command outside the query path completes, and its mutation slot returns. -/
def State.done (s : State) (key : Nat) (c : Origin → Completion) : State :=
  match s.live? key with
  | none => s
  | some l =>
    let s := if l.mutationSlot then s.giveBack 0x05 0 1 else s
    s.finish key (c l.origin)

end Sys2Proof.Machine
end

