-- ==== Sys2Proof/Machine/Segments.lean ====
section
/-! DEFINITION. The Segment Manager: frames, allocation, states, paging, kills, quarantine, retirement and evacuation
(R61, R145 to R158), and reading a generation's structures (R67 to R76). -/

namespace Sys2Proof.Machine

/-! ## Segments and frames -/

/-- A segment; one that the map does not list is FREE. -/
def State.seg_ (s : State) (n : Nat) : Seg := Map.getD s.seg.map n {}
def State.setSeg (s : State) (n : Nat) (v : Seg) : State := { s with seg := { s.seg with map := Map.put s.seg.map n v } }
def State.modSeg (s : State) (n : Nat) (f : Seg → Seg) : State := s.setSeg n (f (s.seg_ n))

/-- Kinds that are never paged (R150). -/
def fixedKind (k : Nat) : Bool := [2, 4, 6, 9, 0x0A].contains k

/-- A segment holds the frame. -/
def State.frameHeld (s : State) (f : Nat) : Bool := s.seg.map.any fun e => e.2.frame == some f

/-- The traffic generator holds the frame. -/
def State.frameTested (s : State) (f : Nat) : Bool := s.diag.generators.any fun g => g.2.frames.any fun p => p.1 == f

/-- The pseudo-channel of the frame is retired. -/
def State.pcRetired (s : State) (f : Nat) : Bool := s.seg.retired.contains (frameChannel f)

/-- The frame replaces a system-area frame (R158). -/
def State.frameReplaces (s : State) (f : Nat) : Bool := s.seg.replaced.any fun e => e.2 == f

/-- A free frame of the pool that allocation may take (R149, R158). -/
def State.frameFree (s : State) (f : Nat) : Bool :=
  decide (f < Config.poolFrames) && !s.frameHeld f && !s.frameTested f && !s.seg.quarantine.contains f && !s.pcRetired f
    && !s.frameReplaces f

/-- The first free frame from `i` on. -/
def State.findFrame (s : State) : Nat → Nat → Option Nat
  | 0, _ => none
  | n + 1, i => if s.frameFree i then some i else s.findFrame n (i + 1)

/-- A free frame, which one being free; none while there is none. -/
def State.pickFrame (s : State) : Option Nat :=
  if s.seg.free = 0 then none
  else
    let f := s.draw.1 % Config.poolFrames
    if s.frameFree f then some f else s.findFrame Config.poolFrames 0

/-- Segments charged to a burrow (R150). -/
def State.charged (s : State) (b : Nat) : Nat := (s.seg.map.filter fun e => e.2.burrow == b && e.2.state != .free).length

/-- Segments of the burrow that its quota leaves (R150). -/
def State.quotaLeft (s : State) (b : Nat) : Nat := s.cfg 0x4100 (b + 1) - s.charged b

/-- One segment is allocated: FREE to RESIDENT; none under R150, or while allocation is frozen (R35). -/
def State.alloc (s : State) (b kind coll list written : Nat) : Option (Nat × State) :=
  if s.seg.frozen || s.quotaLeft b == 0 then none
  else
    let pick := (s.draw.2).draw.1 % (Config.lastSegment + 1)
    let n := if (s.seg_ pick).state = .free then pick else Map.freeKey s.seg.map (Config.lastSegment + 1) 0
    if Config.lastSegment < n then none
    else match s.pickFrame with
      | none => none
      | some f =>
        let s := (s.draw.2).draw.2
        let v : Seg := { state := .resident, frame := some f, kind := kind, burrow := b, coll := coll, list := list, written := written }
        let s := s.setSeg n v
        some (n, { s with seg := { s.seg with free := s.seg.free - 1, live := s.seg.live + 1 } })

/-- Several segments of one kind, all or none. -/
def State.allocMany (s : State) (b kind coll list written : Nat) : Nat → Option (List Nat × State)
  | 0 => some ([], s)
  | n + 1 =>
    match s.alloc b kind coll list written with
    | none => none
    | some (x, s) =>
      match s.allocMany b kind coll list written n with
      | none => none
      | some (xs, s) => some (x :: xs, s)

/-- A frame leaves its segment for good use: it is free, or out of total on a retired pseudo-channel (R149). -/
def State.frameBack (s : State) (f : Nat) : State :=
  if s.pcRetired f then { s with seg := { s.seg with total := s.seg.total - 1 } }
  else { s with seg := { s.seg with free := s.seg.free + 1 } }

/-- A frame in state `st` is counted out of that state. -/
def State.countOut (s : State) (st : SegState) : State :=
  match st with
  | .resident => { s with seg := { s.seg with live := s.seg.live - 1 } }
  | .pagingOut => { s with seg := { s.seg with live := s.seg.live - 1 } }
  | .pagingIn => { s with seg := { s.seg with live := s.seg.live - 1 } }
  | .retiring => { s with seg := { s.seg with retiring := s.seg.retiring - 1 } }
  | _ => s

/-- A segment becomes FREE. -/
def State.freeSeg (s : State) (n : Nat) : State :=
  let v := s.seg_ n
  if v.state = .free then s
  else
    let s := match v.frame with
      | some f => (s.countOut v.state).frameBack f
      | none => s
    { s with seg := { s.seg with map := Map.del s.seg.map n, wanted := s.seg.wanted.filter fun w => w.1 != n } }

/-- A segment becomes RETIRING; one in transit first ends its transfer (R148). -/
def State.retireSeg (s : State) (n : Nat) : State :=
  let v := s.seg_ n
  match v.state with
  | .resident =>
    let s := s.setSeg n { v with state := .retiring }
    { s with seg := { s.seg with live := s.seg.live - 1, retiring := s.seg.retiring + 1 } }
  | .paged => s.setSeg n { v with state := .retiring }
  | _ => s

/-- The segment's bytes are on the device now. -/
def State.readable (s : State) (n : Nat) : Bool :=
  let v := s.seg_ n
  v.frame.isSome && v.state != .pagingIn && v.state != .quarantined && v.state != .free

/-- Bytes over a segment's content. -/
def overlayBytes (bs : List Byte) (items : List Buffered) (off n : Nat) : List Byte :=
  items.foldl (fun acc it =>
    (List.range it.bytes.length).foldl (fun acc i =>
      if off ≤ it.offset + i ∧ it.offset + i < off + n then acc.set (it.offset + i - off) (it.bytes.getD i 0) else acc) acc) bs

/-- Bytes of a segment: its frame's, with the newer version of the stash buffer (R123). -/
def State.segRead (s : State) (n off len : Nat) : List Byte :=
  match (s.seg_ n).frame with
  | none => zeros len
  | some f => overlayBytes (s.frameBytes f off len) (s.stash.filter fun it => it.seg == n) off len

/-- Bytes are written into a segment's frame. -/
def State.segWrite (s : State) (n off : Nat) (bs : List Byte) : State :=
  match (s.seg_ n).frame with
  | none => s
  | some f => s.writeFrame f off bs

/-- The header of a segment. -/
def State.header (s : State) (n : Nat) : List Byte := s.segRead n 0 256

/-- The header of a readable segment passes R63. -/
def State.headerGood (s : State) (n ty coll : Nat) : Bool := headerOk (s.header n) ty coll

/-- A read sets the reference bit (R153). -/
def State.touch (s : State) (n : Nat) : State := s.modSeg n fun v => { v with referenced := true }

/-- A segment that is paged out is wanted in HBM. -/
def State.want (s : State) (demand : Bool) (n : Nat) : State :=
  if (s.seg_ n).state = .paged ∧ (s.seg.wanted.all fun w => w.1 != n) then
    { s with seg := { s.seg with wanted := s.seg.wanted ++ [(n, demand)] } }
  else s

/-- The segment's content is lost for good (R157). -/
def State.segLost (s : State) (n : Nat) : Bool := (s.seg_ n).state == .quarantined

/-- Segments among `ns` whose bytes are not on the device and can still be paged in. -/
def State.missing (s : State) (ns : List Nat) : List Nat := ns.filter fun n => !s.readable n && !s.segLost n

/-! ## A generation's structures (R67 to R76) -/

/-- The segment numbers of a root from place `i` on, `n` of them. -/
def State.rootList (s : State) (root i n : Nat) : List Nat :=
  let r := s.segRead root 0 65536
  (List.range n).map fun j => rootSeg r (i + j)

def State.rootBody (s : State) (root : Nat) : List Byte := s.segRead root 0 512
def State.dirSegs (s : State) (root : Nat) : List Nat := s.rootList root 0 (rootDirs (s.rootBody root))
def State.centSegs (s : State) (root : Nat) : List Nat :=
  let r := s.rootBody root
  s.rootList root (rootDirs r) (rootCents r)
def State.adjSegs (s : State) (root : Nat) : List Nat :=
  let r := s.rootBody root
  s.rootList root (rootDirs r + rootCents r) (rootAdjs r)

/-- The directory entry of a list in a generation; an empty one where the generation names none. -/
def State.dirEntry (s : State) (c : Coll) (root l : Nat) : List Byte :=
  let own := c.owned s.self
  let i := own.idxOf l
  match (s.dirSegs root)[i / 2040]? with
  | some d => if i < own.length then s.segRead d (256 + 32 * (i % 2040)) 32 else mkDir Config.noSegment 0 0 l false false 0
  | none => mkDir Config.noSegment 0 0 l false false 0

/-- The bound record of a list in a generation (R71); EMPTY where there is none. -/
def State.boundRec (s : State) (c : Coll) (root l : Nat) : List Byte :=
  let cap := geoC c.vecBytes
  match (s.centSegs root)[l / cap]? with
  | some g => s.segRead g (256 + 64 * (l % cap)) 64
  | none => mkBound l true 0 Config.noSequence 0 []

/-- Vector `i` of the stripe whose metadata segment is `n`. -/
def State.stripeVec (s : State) (c : Coll) (n i : Nat) : List Byte :=
  let e := geoE c.vecBytes
  s.segRead (hdrVec (s.header n) (i / e)) (i % e * c.vecBytes) c.vecBytes

/-- The centroid of a list. -/
def State.centroid (s : State) (c : Coll) (root l : Nat) : List Byte :=
  let cap := geoC c.vecBytes
  match (s.centSegs root)[l / cap]? with
  | some g => s.stripeVec c g (l % cap)
  | none => zeros c.vecBytes

/-- The neighbours of a list (R76). -/
def State.neighbours (s : State) (root l : Nat) : List Nat :=
  match (s.adjSegs root)[l / 2040]? with
  | some a =>
    let e := s.segRead a (256 + 32 * (l % 2040)) 32
    ((List.range 8).map fun i => field e (4 * i) 4).filter (· != Config.noSegment)
  | none => []

/-- The stripes of a chain: metadata segments from the first on, `fuel` at most; it ends at a segment that is not on the
device, which it still names. -/
def State.chain (s : State) : Nat → Nat → List Nat
  | 0, _ => []
  | fuel + 1, n =>
    if n = Config.noSegment then []
    else if s.readable n then n :: s.chain fuel (hdrNext (s.header n)) else [n]

/-- The chain of a list in a generation. -/
def State.listChain (s : State) (c : Coll) (root l : Nat) : List Nat :=
  let e := s.dirEntry c root l
  s.chain (dirStripes e) (dirFirst e)

/-- The vector segments of a stripe. -/
def State.stripeVecs (s : State) (n : Nat) : List Nat :=
  let h := s.header n
  (List.range (hdrV h)).map (hdrVec h)

/-- Every segment of a chain, vectors included. -/
def State.chainSegs (s : State) (ns : List Nat) : List Nat :=
  (ns.map fun n => if s.readable n then n :: s.stripeVecs n else [n]).flatten

/-- The root, a directory or a centroid stripe of a generation is lost: the generation cannot be worked on (Table 6.6). -/
def State.structureLost (s : State) (root : Nat) : Bool :=
  (root :: (s.dirSegs root ++ s.chainSegs (s.centSegs root))).any s.segLost

/-- The records of a stripe. -/
def State.stripeRecords (s : State) (n : Nat) : List (List Byte) :=
  (List.range (hdrCount (s.header n))).map fun i => s.segRead n (256 + 64 * i) 64

/-- The generations of a collection that this device can read: the current one, the older ones still read, and a prepared one
(R67, R137). -/
def Coll.generations (c : Coll) : List (Nat × Nat) :=
  let next := match c.prepared with
    | some p => (p.root.map fun r => (p.generation, r)).toList
    | none => []
  (c.generation, c.root) :: (c.old ++ next)

/-- The pinned blocks of a generation: list, tile (R80). -/
def Coll.blocksOf (c : Coll) (generation : Nat) : List (Nat × Nat) :=
  if generation = c.generation then c.blocks
  else match c.prepared with
    | some p => if p.generation = generation then p.blocks else (c.oldBlocks.filter fun b => b.1 == generation).map Prod.snd
    | none => (c.oldBlocks.filter fun b => b.1 == generation).map Prod.snd

/-- The list is DAMAGED in the generation (R70). -/
def State.isDamaged (s : State) (c : Coll) (generation root l : Nat) : Bool :=
  c.damaged.contains (generation, l) || dirDamaged (s.dirEntry c root l)

/-! ## Quarantine (R157, Table 6.6) -/

/-- Generations whose chain of a list was written in a given generation: those that reference the segment. -/
def State.damageList (s : State) (g l written : Nat) : State :=
  match s.coll? g with
  | none => s
  | some c =>
    let hit := c.generations.filter fun gr =>
      let e := s.dirEntry c gr.2 l
      decide (dirFirst e ≠ Config.noSegment) && (field e 16 8 % 2 ^ 40) == written
    s.setColl g { c with damaged := once (c.damaged ++ hit.map fun gr => (gr.1, l)) }

/-- The payload handles that lie in a segment become damaged (R260). -/
def State.damagePayloads (s : State) (n : Nat) : State :=
  let burrow := (s.seg_ n).burrow
  let isPage := fun key => Map.get? s.pay.pages (burrow * 4096 + key / 4096) == some n
  { s with pay := { s.pay with handles := s.pay.handles.map fun e =>
      if e.1 / 2 ^ 24 = burrow ∧ (e.2.seg = n ∨ isPage (e.1 % 2 ^ 24)) then (e.1, { e.2 with damaged := true }) else e } }

/-- The vector segment belongs to a stash stripe of the collection. -/
def State.inStash (s : State) (c : Coll) (n : Nat) : Bool := c.stash.any fun m => s.stripeVecs m |>.contains n

/-- The effect of a quarantine by kind (Table 6.6). -/
def State.quarantineEffect (s : State) (n : Nat) (v : Seg) : State :=
  let whole := fun (s : State) => (s.modColl v.coll fun c => { c with mediaQuery := true }).stopQueries v.coll stMedia
  let stash := fun (s : State) => (s.modColl v.coll fun c => { c with mediaQuery := true, mediaMutation := true }).stopQueries v.coll stMedia
  if v.kind = 1 then s.damageList v.coll v.list v.written
  else if v.kind = 8 then
    if v.list ≠ Config.noSegment then s.damageList v.coll v.list v.written
    else if ((s.coll? v.coll).map fun c => s.inStash c n).getD false then stash s else whole s
  else if v.kind = 3 ∨ v.kind = 4 ∨ v.kind = 6 then whole s
  else if v.kind = 2 ∨ v.kind = 9 ∨ v.kind = 0x0A then stash s
  else if v.kind = 5 then s.modColl v.coll fun c => { c with noAdjacency := true }
  else if v.kind = 0x0B then s.damagePayloads n
  else s

/-- A frame leaves the pool for the quarantine list (R149, R157). -/
def State.quarantineFrame (s : State) (f : Nat) : State :=
  let pc := frameChannel f
  let s := { s with seg := { s.seg with total := s.seg.total - 1, quarantine := s.seg.quarantine ++ [f], quarantined := s.seg.quarantined + 1
                                        failures := Map.modify s.seg.failures pc 0 (· + 1) } }
  s.logStack (pc / 32) 0x0400 (toLE 4 f ++ toLE 1 pc ++ toLE 2 (frameRow f))

/-- A segment is quarantined; its frame leaves the pool where the frame is bad (R155, R157). -/
def State.quarantine (s : State) (n : Nat) (bad : Bool) : State :=
  let v := s.seg_ n
  if v.state = .free ∨ v.state = .quarantined then s
  else
    let s := match v.frame with
      | some f => if bad then (s.countOut v.state).quarantineFrame f else (s.countOut v.state).frameBack f
      | none => s
    let s := s.quarantineEffect n v
    s.setSeg n { v with state := .quarantined, frame := none, slot := none, kills := [], copying := false }

/-! ## Retirement of a pseudo-channel (R158) -/

/-- Free frames of a pseudo-channel. -/
def State.freeOn (s : State) (pc : Nat) : Nat := ((List.range 12220).filter fun row => s.frameFree (frameAt pc row)).length

/-- The frame that holds the content of a system-area frame: itself, or its replacement (R158). -/
def State.systemFrame (s : State) (f : Nat) : Nat := Map.getD s.seg.replaced f f

/-- The three scratch frames of a query context (Table 6.3). -/
def scratchFrames (x : Nat) : List Nat := (List.range 3).map fun i => 3129344 + 3 * x + i

/-- System-area frames of retired pseudo-channels that are not replaced yet. -/
def State.unreplaced (s : State) : List Nat :=
  (s.seg.retired.map fun pc => ((List.range 68).map fun i => frameAt pc (12220 + i)).filter fun f => (Map.get? s.seg.replaced f).isNone).flatten

/-- A system-area frame gets a pool frame, taken for good, with its content. -/
def State.replaceFrame (s : State) (f : Nat) : State :=
  match s.pickFrame with
  | none => s
  | some g =>
    let bytes := s.frameBytes (s.systemFrame f) 0 Config.frameBytes
    let s := (s.draw.2).writeFrame g 0 bytes
    { s with seg := { s.seg with replaced := Map.put s.seg.replaced f g, free := s.seg.free - 1, total := s.seg.total - 1 } }

/-- A context whose scratch frame was quarantined takes three replacement frames, once they can be had (Table 6.6). -/
def State.replaceScratch (s : State) (x : Nat) : State :=
  if s.withheld x ∧ 3 ≤ s.seg.free then (scratchFrames x).foldl State.replaceFrame s else s

/-- Every system-area frame that can be replaced is. -/
def State.replaceAll (s : State) : State :=
  ((s.seg.quarantine.filter fun f => decide (3129344 ≤ f ∧ f < 3141632) || s.frameReplaces f).map fun f =>
    ((((s.seg.replaced.find? fun (e : Nat × Nat) => e.2 == f).map Prod.fst).getD f) - 3129344) / 3).foldl State.replaceScratch
    (s.unreplaced.foldl State.replaceFrame s)

/-- A pseudo-channel is retired; one that is retired already changes nothing. -/
def State.retirePc (s : State) (pc : Nat) : State :=
  if s.seg.retired.contains pc then s
  else
    let n := s.freeOn pc
    let onPc := fun (v : Seg) => (v.frame.map frameChannel) == some pc && v.state != .retiring
    let s := { s with
      bw := { s.bw with healthy := s.bw.healthy - 1 }
      seg := { s.seg with retired := s.seg.retired ++ [pc], free := s.seg.free - n, total := s.seg.total - n
                          map := s.seg.map.map fun (e : Nat × Seg) => if onPc e.2 then (e.1, { e.2 with copying := true }) else e } }
    (s.logStack (pc / 32) 0x0402 (toLE 1 pc)).replaceAll

/-- One of the causes of R158 holds. -/
def State.mustRetire (s : State) (pc : Nat) : Bool :=
  decide (s.cfg 0x4010 3 < (Map.getD s.seg.corrected pc []).length) || decide (2 ≤ Map.getD s.seg.failures pc 0)

/-- A corrected error is counted on its pseudo-channel, those older than one hour dropped. -/
def State.countCorrected (s : State) (pc : Nat) : State :=
  let recent := (Map.getD s.seg.corrected pc []).filter fun t => s.clk.now < t + 3600000000
  { s with seg := { s.seg with corrected := Map.put s.seg.corrected pc (recent ++ [s.clk.now]) } }

/-! ## Kills (R66, R156) -/

/-- An acknowledgement that a kill is in place: where it goes, its tag, its number (R121). -/
def State.killAck (s : State) (dest tag coll n : Nat) : State :=
  s.send dest mKillAck 0 tag dest coll (toLE 2 stOk ++ toLE 6 n)

/-- The address of a page slot in host memory (R151). -/
def State.pageAddr (s : State) (b slot : Nat) : Nat := leNat (s.acted 0x4101 (b + 1)) + slot * 65536

/-- Bytes reach a segment: its stash buffer version, its frame, or its page slot. -/
def State.poke (s : State) (n off : Nat) (bs : List Byte) : State :=
  let v := s.seg_ n
  if s.stash.any fun it => it.seg == n then { s with stash := s.stash ++ [{ coll := v.coll, seg := n, offset := off, bytes := bs }] }
  else match v.frame, v.slot with
    | some f, _ => s.writeFrame f off bs
    | none, some slot => s.emit (.write (v.burrow + 1) (s.pageAddr v.burrow slot + off) bs false)
    | none, none => s

/-- A kill write to a record at an offset of a segment, by the segment's state (R156, R158). -/
def State.killAt (s : State) (n off seq dest tag : Nat) : State :=
  let v := s.seg_ n
  if v.copying ∨ v.state = .pagingIn then s.setSeg n { v with kills := v.kills ++ [(off, seq, dest, tag)] }
  else
    let s := if v.state = .pagingOut then s.setSeg n { v with state := .resident, slot := none } else s
    (s.poke n (off + 8) (toLE 6 seq)).killAck dest tag v.coll seq

/-- Held kills are written, and acknowledged. -/
def State.releaseKills (s : State) (n : Nat) : State :=
  let v := s.seg_ n
  let s := s.setSeg n { v with kills := [], copying := false }
  v.kills.foldl (fun s k => s.killAt n k.1 k.2.1 k.2.2.1 k.2.2.2) s

/-! ## Paging (R153 to R155) -/

/-- Page slots of a burrow in use. -/
def State.slotsInUse (s : State) (b : Nat) : List Nat := (s.seg.map.filter fun e => e.2.burrow == b).filterMap fun e => e.2.slot

/-- A free page slot of a burrow, which one being free. -/
def State.freeSlot (s : State) (b : Nat) : Option Nat :=
  let total := s.cfg 0x4102 (b + 1)
  let used := s.slotsInUse b
  let pick := s.draw.1 % max total 1
  if total = 0 then none
  else if !used.contains pick then some pick
  else (List.range total).find? fun i => !used.contains i

/-- A victim of the clock sweep (R153). -/
def State.pageable (s : State) (v : Seg) : Bool :=
  v.state == .resident && !fixedKind v.kind && v.tags == 0 && !v.copying && s.vfPresent v.burrow && (s.freeSlot v.burrow).isSome

/-- The clock sweep over the segments from the hand on: it clears set bits and takes the first whose bit is clear. -/
def State.sweep (s : State) : List Nat → Option Nat × State
  | [] => (none, s)
  | n :: ns =>
    let v := s.seg_ n
    if !s.pageable v then s.sweep ns
    else if v.referenced then (s.setSeg n { v with referenced := false }).sweep ns
    else (some n, { s with seg := { s.seg with clockHand := n + 1 } })

/-- The order of one sweep, twice round: from the hand on, then from the start. -/
def State.sweepOrder (s : State) : List Nat :=
  let ks := Map.keys s.seg.map
  let one := ks.filter (s.seg.clockHand ≤ ·) ++ ks.filter (· < s.seg.clockHand)
  one ++ one

/-- Page-out runs: below low water it starts, at high water it ends. -/
def State.pageOutRuns (s : State) : Bool :=
  decide (s.seg.free < s.cfg 0x4010 1) || (s.seg.pagingOut && decide (s.seg.free < s.cfg 0x4010 2))

/-- A page-out starts: the frame's bytes go to the slot, and a zero-length read follows. -/
def State.pageOut (s : State) (n : Nat) : State :=
  let v := s.seg_ n
  match s.freeSlot v.burrow, s.charge v.burrow 1024 with
  | some slot, some s =>
    let s := s.draw.2
    let addr := s.pageAddr v.burrow slot
    let bytes := s.segRead n 0 65536
    let s := s.setSeg n { v with state := .pagingOut, slot := some slot }
    (s.emit (.write (v.burrow + 1) addr bytes false)).emit (.hostRead (v.burrow + 1) addr 0)
  | _, _ => s

/-- The segments of a list's chain that was written in a generation: a chain is always written whole. -/
def State.listSegs (s : State) (g l written : Nat) : List Nat :=
  (s.seg.map.filter fun (e : Nat × Seg) => e.2.coll == g && e.2.list == l && (e.2.kind == 1 || e.2.kind == 8) && e.2.written == written).map Prod.fst

/-- The vector segments of the centroid stripes: those of no list and of no stash stripe. -/
def State.centVecs (s : State) (g : Nat) (c : Coll) : List Nat :=
  let stash := s.chainSegs c.stash
  (s.seg.map.filter fun (e : Nat × Seg) => e.2.coll == g && e.2.kind == 8 && e.2.list == Config.noSegment && e.2.state != .retiring
    && !stash.contains e.1).map Prod.fst

/-- Segments that a generation of a collection references, beside its stash. -/
def State.genSegs (s : State) (g : Nat) (c : Coll) (root : Nat) : List Nat :=
  if root = Config.droppedRoot then []
  else
    let lists := (c.owned s.self).map fun l => s.listSegs g l (field (s.dirEntry c root l) 16 8)
    root :: s.dirSegs root ++ s.centSegs root ++ s.centVecs g c ++ s.adjSegs root ++ lists.flatten

/-- A segment whose transfer has ended retires when no current structure of its collection references it (R148). -/
def State.settle (s : State) (n : Nat) : State :=
  let v := s.seg_ n
  match s.coll? v.coll with
  | none => s
  | some c =>
    if c.old = [] ∨ v.kind = 0x0B ∨ (s.genSegs v.coll c c.root).contains n ∨ (s.chainSegs c.stash).contains n then s else s.retireSeg n

/-- A page-out ends: the segment is PAGED and the frame is free. -/
def State.pagedOut (s : State) (n : Nat) : State :=
  let v := s.seg_ n
  if v.state ≠ .pagingOut then s
  else match v.frame with
    | none => s
    | some f =>
      let s := (s.setSeg n { v with state := .paged, frame := none }).countOut .resident |>.frameBack f
      ((s.releaseKills n).settle n).replaceAll

/-- Host page tags in use (R50, R107). -/
def hostTagPool : Nat := 8

/-- A page-in starts (R154). -/
def State.pageIn (s : State) (n : Nat) : State :=
  let v := s.seg_ n
  let asked := s.seg.wanted.find? fun w => w.1 == n
  match asked, v.slot, s.pickFrame with
  | some (_, demand), some slot, some f =>
    let limit := if demand then Config.hostPageTags else Config.hostPageTags - Config.prefetchReserve
    if v.state ≠ .paged ∨ limit ≤ s.used 7 hostTagPool ∨ s.vfPresent v.burrow = false then s
    else match s.charge v.burrow 1024 with
      | none => s
      | some s =>
        let s := (s.draw.2).setSeg n { v with state := .pagingIn, frame := some f, retried := false }
        let s := { s with seg := { s.seg with wanted := s.seg.wanted.filter fun w => w.1 != n, free := s.seg.free - 1, live := s.seg.live + 1 } }
        (s.reserve 7 hostTagPool 1).emit (.hostRead (v.burrow + 1) (s.pageAddr v.burrow slot) 65536)
  | _, _, _ => s

/-- A page-in ends: every byte has arrived, the slot is released, and held kills are written, but for a segment that
evacuation has still to copy (R158). -/
def State.pagedIn (s : State) (n : Nat) (data : List Byte) : State :=
  let v := s.seg_ n
  match v.state, v.frame with
  | .pagingIn, some f =>
    let s := (s.writeFrame f 0 (padTo 65536 data)).giveBack 7 hostTagPool 1
    let s := s.setSeg n { v with state := .resident, slot := none, referenced := true }
    (if v.copying then s else s.releaseKills n).settle n
  | _, _ => s

/-- The read of a page-in fails: once it is retried, then the segment is quarantined (R155). -/
def State.pageInFails (s : State) (n : Nat) : State :=
  let v := s.seg_ n
  if v.state ≠ .pagingIn then s
  else if v.retried then
    ((s.quarantine n false).giveBack 7 hostTagPool 1).logEvent 0x0401 (toLE 4 n)
  else
    let s := s.setSeg n { v with retried := true }
    match v.slot with
    | some slot => s.emit (.hostRead (v.burrow + 1) (s.pageAddr v.burrow slot) 65536)
    | none => s

/-! ## The segment law (R35) -/

/-- free + live + retiring = total. -/
def State.segmentLaw (s : State) : Bool := s.seg.free + s.seg.live + s.seg.retiring == s.seg.total

/-- The check on a state change: a mismatch freezes allocation. -/
def State.segmentAudit (s : State) : State :=
  if s.segmentLaw || s.seg.frozen then s else { s with seg := { s.seg with frozen := true }, boot := { s.boot with fenceFlag := true } }.logEvent 0x0302

end Sys2Proof.Machine
end

