-- ==== Sys2Proof/Machine/Burrows.lean ====
section
/-! DEFINITION. Burrows and their queue slots: creation and deletion of slots, drains, virtual functions (R174, R175, R187 to R191). -/

namespace Sys2Proof.Machine

/-! ## Queue slots -/

/-- Commands fetched from a queue and not admitted. -/
def State.fetchedOf (s : State) (b q : Nat) : List Fetched :=
  s.host.fetched.filter fun f => f.origin.burrow == b && f.origin.queue == q

/-- The queue holds no command any more: none fetched, none admitted, no completion waiting. -/
def State.queueIdle (s : State) (b q : Nat) : Bool :=
  (s.fetchedOf b q).isEmpty
    && (s.host.live.all fun e => !(e.2.origin.burrow == b && e.2.origin.queue == q))
    && (s.host.waiting.all fun c => !(c.origin.burrow == b && c.origin.queue == q))
    && ((s.host.admitting.map fun f => !(f.origin.burrow == b && f.origin.queue == q)).getD true)

/-- The refuse reason of a create, 0 when it passes (Table 7.5, in order). -/
def State.createReason (s : State) (b q : Nat) : Nat :=
  let r := (s.slot b q).regs
  let others := (List.range 16).filter fun p => p != q && (s.slot b p).status == .live
  if (s.burrow b).state ≠ .enabled then 1
  else if r.sqBase % 4096 ≠ 0 ∨ r.cqBase % 4096 ≠ 0 ∨ r.sqEntries < 2 ∨ 4096 < r.sqEntries ∨ r.cqEntries < 2 ∨ 4096 < r.cqEntries then 2
  else if s.cfg (burrowIndex b) 3 < others.length + 1 then 3
  else if 3 < r.cls ∨ (r.cls = 0 ∧ (s.cfg (burrowIndex b) 7).testBit 2 = false) then 4
  else if 31 < r.vector ∨ 10000 < r.coalesceTime then 5
  else 0

/-- A create is checked and applied (R174). -/
def State.createQueue (s : State) (b q : Nat) : State :=
  let sl := s.slot b q
  let reason := s.createReason b q
  if reason = 0 then
    s.setSlot b q { regs := sl.regs, status := .live }
  else s.setSlot b q { sl with status := .refused, reason := reason, pendingCreate := false }

/-- A DELETING slot that holds no command any more is ABSENT; a create that waited is applied (R175). -/
def State.settleSlot (s : State) (b q : Nat) : State :=
  let sl := s.slot b q
  if sl.status = .deleting ∧ s.queueIdle b q then
    let s := s.setSlot b q { regs := sl.regs }
    if sl.pendingCreate then s.createQueue b q else s
  else s

/-- A command that was fetched completes without being admitted (R50): its fetch slots return. -/
def State.refuseFetched (s : State) (f : Fetched) (status : Nat) : State :=
  ((s.giveBack 0x01 0 f.entries).reserve 0x02 0 1).complete (plain f.origin status)

/-- Fetched commands that satisfy `p` complete ABORTED, as far as completion slots are free; the others stay. -/
def State.abortFetched (s : State) (p : Fetched → Bool) : List Fetched → State
  | [] => s
  | f :: fs =>
    if p f ∧ s.used 0x02 0 < Config.completionSlots then
      { s with host := { s.host with fetched := s.host.fetched.filter fun g => g.order != f.order } }.refuseFetched f stAborted
        |>.abortFetched p fs
    else s.abortFetched p fs

/-- A slot leaves LIVE or HALTED for DELETING (R175, R180). -/
def State.deleteSlot (s : State) (b q : Nat) : State :=
  let s := s.signal b q
  let sl := s.slot b q
  let s := s.setSlot b q { sl with status := .deleting }
  (s.abortFetched (fun f => f.origin.burrow == b && f.origin.queue == q) s.host.fetched).settleSlot b q

/-- A slot becomes HALTED (R177, R181). -/
def State.haltSlot (s : State) (b q : Nat) : State :=
  let s := s.signal b q
  s.setSlot b q { s.slot b q with status := .halted }

/-! ## Burrow states (R187) -/

/-- The codes of Table 7.9. -/
def BurrowState.code : BurrowState → Nat
  | .disabled => 0 | .enabled => 1 | .draining => 2

/-- A change of State: physical function vector 3 and a BURROW_STATE event. -/
def State.moveBurrow (s : State) (b : Nat) (nxt : BurrowState) : State :=
  let v := s.burrow b
  let gen := if nxt = .enabled then (v.generation + 1) % 65536 else v.generation
  let s := s.setBurrow b { v with state := nxt, generation := gen, discard := if nxt = .draining then v.discard else false }
  (s.raise 0 3).logBurrow b 0x0500 (toLE 1 v.state.code ++ toLE 1 nxt.code ++ toLE 2 gen)

/-- ENABLED: a new generation, no queue slot live. -/
def State.enableBurrow (s : State) (b : Nat) : State :=
  let s := s.setBurrow b { s.burrow b with pendingEnable := false }
  s.moveBurrow b .enabled

/-- A normal drain starts (R189). -/
def State.normalDrain (s : State) (b : Nat) : State :=
  let s := s.moveBurrow b .draining
  (List.range 16).foldl (fun s q => if (s.slot b q).status = .live ∨ (s.slot b q).status = .halted then s.deleteSlot b q else s) s

/-- An opcode that R128 counts as a mutation of its collection. -/
def isMutationOp (op : Nat) : Bool := [0x10, 0x11, 0x12, 0x51, 0x52, 0x53].contains op

/-- A live command that a discard drain gives up: a query, export, selection or FENCE, or a mutation not handed to its
sequencer (R190). -/
def Live.discardable (l : Live) : Bool :=
  l.ctx.isSome || l.opcode == 0x40 || l.opcode == 0x54 || (isMutationOp l.opcode && !l.passed)

/-- The discard drain's work on commands and slots (R190). -/
def State.discardWork (s : State) (b : Nat) : State :=
  let mine := s.host.fetched.filter fun f => f.origin.burrow == b
  let s := mine.foldl (fun s f => s.giveBack 0x01 0 f.entries) s
  let s := match s.host.admitting with
    | some f => if f.origin.burrow = b then { s with host := { s.host with admitting := none } }.giveBack 0x01 0 f.entries else s
    | none => s
  let s := { s with host := { s.host with fetched := s.host.fetched.filter fun f => f.origin.burrow != b } }
  let keys := (s.host.live.filter fun e => e.2.origin.burrow == b && e.2.discardable).map Prod.fst
  let s := keys.foldl State.dropLive s
  (List.range 16).foldl (fun s q =>
    let sl := s.slot b q
    if sl.status = .absent then s else s.setSlot b q { sl with status := .deleting, unsignalled := 0, pendingCreate := false }) s

/-- A discard drain starts, or a normal drain turns into one (R187, R190). -/
def State.discardDrain (s : State) (b : Nat) : State :=
  let s := if (s.burrow b).state = .enabled then s.moveBurrow b .draining else s
  let s := s.setBurrow b { s.burrow b with discard := true }
  s.discardWork b

/-- A write of Enable (Table 7.10). -/
def State.burrowEnable (s : State) (b : Nat) (on : Bool) : State :=
  let v := s.burrow b
  match on, v.state with
  | true, .disabled => if s.vfPresent b ∧ 6 ≤ s.boot.stage then s.enableBurrow b else s.setBurrow b { v with pendingEnable := true }
  | false, .disabled => s.setBurrow b { v with pendingEnable := false }
  | true, .enabled => s
  | false, .enabled => s.normalDrain b
  | true, .draining => s.setBurrow b { v with pendingEnable := true }
  | false, .draining => s.setBurrow b { v with pendingEnable := false }

/-- The Enable object of a burrow is 1. -/
def State.burrowWanted (s : State) (b : Nat) : Bool := s.cfg (burrowIndex b) 1 == 1

/-- The virtual function of a burrow ceases to be present. -/
def State.vfLoss (s : State) (b : Nat) : State :=
  let v := s.burrow b
  match v.state with
  | .enabled => (s.setBurrow b { v with pendingEnable := s.burrowWanted b }).discardDrain b
  | .draining => s.discardDrain b
  | .disabled => s

/-- A burrow whose enable waited becomes ENABLED when its virtual function is present (Table 7.10). -/
def State.vfArrives (s : State) (b : Nat) : State :=
  let v := s.burrow b
  if v.state = .disabled ∧ v.pendingEnable ∧ s.vfPresent b ∧ 6 ≤ s.boot.stage then s.enableBurrow b else s

/-- The virtual function's BAR0 registers and MSI-X table at their reset values (R190). -/
def State.resetVf (s : State) (b : Nat) : State :=
  let s := (List.range 16).foldl (fun s q => s.setSlot b q {}) s
  let s := s.setBurrow b { s.burrow b with errorFlags := 0, resetting := false }
  { s with host := { s.host with vectors := s.host.vectors.filter fun e => e.1 / 32 != b + 1 } }

/-- A function-level reset of a virtual function (R190). -/
def State.vfFlr (s : State) (b : Nat) : State :=
  if s.vfPresent b = false then s
  else match (s.burrow b).state with
    | .disabled => s.resetVf b
    | .enabled => (s.setBurrow b { s.burrow b with pendingEnable := true, resetting := true }).discardDrain b
    | .draining => (s.setBurrow b { s.burrow b with resetting := true }).discardDrain b

/-- The mailbox and the BAR registers of the physical function reset, its transfer in progress ends (R191). -/
def State.pfFlr (s : State) : State :=
  { s with
    vdp := { s.vdp with busy := false, done := false, overrun := false, reqLen := 0, request := [], respLen := 0, response := [], mailbox := {} }
    host := { s.host with vectors := s.host.vectors.filter fun e => 32 ≤ e.1 }
    boot := { s.boot with recoveryLength := 0 } }

/-- A write of SR-IOV VF Enable and NumVFs (R187, R191). -/
def State.vfChange (s : State) (enable : Bool) (numVfs : Nat) : State :=
  let was := (List.range 64).filter s.vfPresent
  let s := { s with host := { s.host with vfEnable := enable, numVfs := numVfs } }
  let s := was.foldl (fun s b => if s.vfPresent b then s else s.vfLoss b) s
  (List.range 64).foldl State.vfArrives s

/-- The burrow holds no fetch slot, completion slot, query context or remote query state (R189). -/
def State.burrowIdle (s : State) (b : Nat) : Bool :=
  (s.host.fetched.all fun f => f.origin.burrow != b) && (s.host.live.all fun e => e.2.origin.burrow != b)
    && (s.host.waiting.all fun c => c.origin.burrow != b)
    && ((s.host.admitting.map fun f => f.origin.burrow != b).getD true)

/-- A drain ends (Table 7.10). -/
def State.drainEnd (s : State) (b : Nat) : State :=
  let v := s.burrow b
  if v.state ≠ .draining ∨ s.burrowIdle b = false then s
  else
    let s := if v.resetting then s.resetVf b
      else (List.range 16).foldl (fun s q => s.setSlot b q { regs := (s.slot b q).regs }) s
    if v.pendingEnable ∧ s.vfPresent b then s.enableBurrow b else s.moveBurrow b .disabled

end Sys2Proof.Machine
end

