-- ==== Sys2Proof/Machine/Checks.lean ====
section
/-! DEFINITION. What admission checks of a command (Tables 4.2, 5.2; R183, R251, R265, R268), in the order given. -/

namespace Sys2Proof.Machine

/-! ## Descriptor fields -/

def dOpcode (d : List Byte) : Nat := field d 0 1
def dFlags (d : List Byte) : Nat := field d 1 1
def dCmdId (d : List Byte) : Nat := field d 2 2
def dColl (d : List Byte) : Nat := field d 4 2 % 4096
/-- Bits [15:12] of the collection ID field. -/
def dCollHigh (d : List Byte) : Nat := field d 4 2 / 4096

/-! ## Access to collections -/

/-- The collection exists on this device (R60, R183). -/
def State.served (s : State) (g : Nat) : Option Coll :=
  match s.coll? g with
  | some c => if c.created && !c.dropped then some c else none
  | none => none

/-- The burrow holds a read-only grant to the collection (R186). -/
def State.granted (s : State) (b g : Nat) : Bool := (leNat (slice (s.acted (burrowIndex b) 8) (g / 8) 1)).testBit (g % 8)

/-- Owned by the burrow. -/
def State.ownsColl (s : State) (b g : Nat) : Bool := ((s.served g).map fun c => c.owner == b).getD false

/-- Owned by, or granted read-only to, the burrow. -/
def State.mayRead (s : State) (b g : Nat) : Bool := s.ownsColl b g || ((s.served g).isSome && s.granted b g)

/-- Lapses that a command on an accessible collection meets before any later check (R139, R349). -/
def Coll.lapsed (c : Coll) : Bool := c.lost || c.scrubbing

/-! ## Vectors -/

/-- Vector entries of a command (R89, R118). -/
def vecEntries (bytes : Nat) : Nat := ceilDiv bytes 128

/-- The vector holds a NaN or an infinity, or has a zero norm in a cosine collection (R12, R16). -/
def badVector (m : Metric) (t : ElemType) (dim : Nat) (v : List Byte) : Bool :=
  let es := elements t dim v
  es.any t.bad || (m == .cosine && sqNorm t es == 0)

/-! ## QUERY (Table 4.2) -/

/-- Filter entries of a QUERY (R89). -/
def filterEntries (terms : Nat) : Nat := if terms = 0 then 0 else ceilDiv (8 + 16 * terms) 128

def qK (d : List Byte) : Nat := field d 8 2
def qTerms (d : List Byte) : Nat := field d 11 1
def qBudgeted (d : List Byte) : Bool := (dFlags d).testBit 0
def qFull (d : List Byte) : Bool := (dFlags d).testBit 1
def qPayload (d : List Byte) : Bool := (dFlags d).testBit 2

/-- Bytes of a result record. -/
def recordSize (full : Bool) : Nat := if full then 40 else 16

/-- The payload buffer of a QUERY (R268). -/
def payloadBufferOk (d : List Byte) : Bool :=
  let size := field d 36 4
  let addr := field d 40 8
  if qPayload d then decide (64 * ceilDiv (16 * qK d) 64 ≤ size) && addr != 0 && addr % 64 == 0
  else size == 0 && addr == 0

/-- Step 1 of Table 4.2. -/
def queryFieldsOk (d : List Byte) : Bool :=
  decide (dFlags d < 8) && dCollHigh d == 0 && zeroAt d 13 3 && zeroAt d 48 80 && decide (qK d ≤ 4096)
    && decide (field d 10 1 ≤ 64) && decide (qTerms d ≤ 16) && decide (1 ≤ field d 12 1 ∧ field d 12 1 ≤ 131)
    && decide (1 ≤ field d 20 4 ∧ field d 20 4 ≤ 10000000)
    && (!qBudgeted d || decide (1 ≤ field d 16 4 ∧ field d 16 4 ≤ 1048576))
    && field d 24 8 % 64 == 0 && decide (qK d * recordSize (qFull d) ≤ field d 32 4) && payloadBufferOk d

/-- The vector of a command whose entries are `bs`. -/
def cmdVector (c : Coll) (bs : List Byte) : List Byte := slice bs 128 c.vecBytes
/-- The filter program of a QUERY. -/
def cmdFilter (c : Coll) (bs : List Byte) : List Byte := slice bs (128 + 128 * vecEntries c.vecBytes) (8 + 16 * qTerms bs)

/-- Step 5 of Table 4.2. -/
def queryPaddingOk (c : Coll) (bs : List Byte) : Bool :=
  let v := vecEntries c.vecBytes
  let n := qTerms bs
  zeroAt bs (128 + c.vecBytes) (128 * v - c.vecBytes)
    && (n == 0 || (zeroAt bs (128 + 128 * v + 8 + 16 * n) (128 * filterEntries n - (8 + 16 * n)) && filterOk (cmdFilter c bs) n c.a0 c.a1))

/-- The checks of a QUERY: the status of the first that fails (Table 4.2; R139, R349, Table 6.6). -/
def State.queryCheck (s : State) (b : Nat) (bs : List Byte) : Option Nat :=
  if !queryFieldsOk bs then some stInvalid
  else if !s.mayRead b (dColl bs) then some stNoColl
  else match s.served (dColl bs) with
    | none => some stNoColl
    | some c =>
      if c.lapsed then some stShardLost
      else if field bs 6 2 ≠ c.dim then some stDim
      else if field bs 12 1 ≠ vecEntries c.vecBytes + filterEntries (qTerms bs) then some stInvalid
      else if !queryPaddingOk c bs then some stInvalid
      else if badVector c.metric c.ty c.dim (cmdVector c bs) then some stBadVector
      else if !qBudgeted bs && !s.hasBound c then some stInvalid
      else none

/-! ## Mutations (Table 5.2, steps 1 to 4) -/

/-- Step 1. -/
def mutationFieldsOk (d : List Byte) : Bool :=
  dFlags d == 0 && dCollHigh d == 0 && zeroAt d 9 7 && zeroAt d 48 80
    && (if dOpcode d = 0x11 then zeroAt d 6 2 && zeroAt d 24 24 && field d 8 1 == 0
        else decide (1 ≤ field d 8 1 ∧ field d 8 1 ≤ 128))

/-- The checks of a mutation at admission. -/
def State.mutationCheck (s : State) (b : Nat) (bs : List Byte) : Option Nat :=
  if !mutationFieldsOk bs then some stInvalid
  else if !s.ownsColl b (dColl bs) then some stNoColl
  else match s.served (dColl bs) with
    | none => some stNoColl
    | some c =>
      if c.lapsed then some stShardLost
      else if dOpcode bs = 0x11 then (if c.mediaMutation then some stMedia else none)
      else if field bs 6 2 ≠ c.dim then some stDim
      else if field bs 8 1 ≠ vecEntries c.vecBytes then some stInvalid
      else if !zeroAt bs (128 + c.vecBytes) (128 * vecEntries c.vecBytes - c.vecBytes) then some stInvalid
      else if badVector c.metric c.ty c.dim (cmdVector c bs) then some stBadVector
      else if c.mediaMutation then some stMedia
      else none

/-! ## SELECT (R250, R251) -/

/-- Bytes of a SELECT element; none for a code not listed. -/
def selectSize (code : Nat) : Option Nat :=
  if code = 0 ∨ code = 4 then some 4 else if code = 1 ∨ code = 2 then some 2 else none

/-- The checks of a SELECT. -/
def selectCheck (d : List Byte) : Option Nat :=
  match selectSize (field d 4 1) with
  | none => some stInvalid
  | some size =>
    let k := field d 8 2
    let l := field d 12 4
    let rows := field d 16 4
    if !(decide (dFlags d < 2) && zeroAt d 5 3 && zeroAt d 10 2 && zeroAt d 56 72 && decide (k ≤ 4096) && decide (l ≤ 16777216)
        && decide (rows ≤ 65536) && decide (1 ≤ field d 20 4 ∧ field d 20 4 ≤ 10000000)) then some stInvalid
    else if !(field d 24 8 % 64 == 0 && field d 40 8 % 64 == 0 && field d 32 8 % 64 == 0 && decide (l * size ≤ field d 32 8)
        && decide (rows * k * (if (dFlags d).testBit 0 then 8 else 4) ≤ field d 48 8)) then some stInvalid
    else none

/-- A SELECT that reads rows reserves chunks (R252). -/
def selectK (d : List Byte) : Nat := if field d 12 4 = 0 ∨ field d 16 4 = 0 then 0 else field d 8 2

/-! ## Management, payload and FENCE -/

/-- The fields of COLLECTION_DROP and COMPACT (Table 7.7). -/
def dropFieldsOk (d : List Byte) : Bool := dFlags d == 0 && dCollHigh d == 0 && zeroAt d 6 122
/-- The fields of LOAD_LISTS. -/
def loadFieldsOk (d : List Byte) : Bool :=
  dFlags d == 0 && dCollHigh d == 0 && zeroAt d 6 10 && zeroAt d 32 96 && field d 16 8 % 64 == 0
/-- The fields of SNAPSHOT_EXPORT (R141). -/
def exportFieldsOk (d : List Byte) : Bool :=
  decide (dFlags d < 2) && dCollHigh d == 0 && zeroAt d 6 10 && zeroAt d 40 88 && field d 24 8 % 64 == 0
/-- The fields of FENCE (R133). -/
def fenceFieldsOk (d : List Byte) : Bool :=
  decide (dFlags d < 4) && zeroAt d 6 122 && (if (dFlags d).testBit 1 then dCollHigh d == 0 else zeroAt d 4 2)

/-- The checks of a FENCE: its fields, and with STAMP the access to the collection and its lapses (R133, R139, R349). -/
def State.fenceCheck (s : State) (b : Nat) (d : List Byte) : Option Nat :=
  if !fenceFieldsOk d then some stInvalid
  else if (dFlags d).testBit 1 && !s.mayRead b (dColl d) then some stNoColl
  else if (dFlags d).testBit 1 && ((s.served (dColl d)).map Coll.lapsed).getD false then some stShardLost
  else none

/-- The checks of COLLECTION_DROP, COMPACT and LOAD_LISTS at admission (R183, R349). -/
def State.manageCheck (s : State) (b : Nat) (d : List Byte) (fields drop : Bool) : Option Nat :=
  if !fields then some stInvalid
  else if !s.ownsColl b (dColl d) then some stNoColl
  else match s.served (dColl d) with
    | none => some stNoColl
    | some c => if c.lapsed && !(drop && c.lost) then some stShardLost else none

/-- Entries that a descriptor's command needs (R177, Table 7.6). -/
def entriesOf (d : List Byte) : Nat :=
  let op := dOpcode d
  if op = 0x01 then 1 + field d 12 1
  else if op = 0x10 ∨ op = 0x12 then 1 + field d 8 1
  else if op = 0x50 then 1 + field d 13 1
  else 1

/-- The opcodes of Table 7.6. -/
def knownOpcode (op : Nat) : Bool :=
  [0x01, 0x10, 0x11, 0x12, 0x20, 0x30, 0x31, 0x40, 0x50, 0x51, 0x52, 0x53, 0x54, 0x60].contains op

end Sys2Proof.Machine
end

