-- ==== Sys2Proof/Machine/Admission.lean ====
section
/-! DEFINITION. Host fetch and admission: ordering, credits, arbitration (R53, R90, R128, R129, R132 to R134, R337). -/

namespace Sys2Proof.Machine

/-! ## Host fetch (R90, R176, R177) -/

/-- Entries submitted and not yet fetched. -/
def QSlot.waiting (sl : QSlot) : Nat := (sl.tail + sl.regs.sqEntries - sl.sqHead) % max sl.regs.sqEntries 1

/-- Whether host fetch may read a queue: its burrow is ENABLED and its slot LIVE. -/
def State.fetches (s : State) (b q : Nat) : Bool :=
  (s.burrow b).state == .enabled && (s.slot b q).status == .live && s.vfPresent b

/-- The reads of `n` entries from `head` on: one, or two where they wrap. -/
def State.fetchReads (s : State) (b head n : Nat) (r : SlotRegs) : State :=
  let first := min n (r.sqEntries - head)
  let s := s.emit (.hostRead (b + 1) (r.sqBase + 128 * head) (128 * first))
  if first = n then s else s.emit (.hostRead (b + 1) r.sqBase (128 * (n - first)))

/-- Host fetch of one command whose entries the host's memory holds as `data`. -/
def State.hostFetch (s : State) (b q : Nat) (data : List Byte) : State :=
  let sl := s.slot b q
  let n := entriesOf data
  let o : Origin := { burrow := b, queue := q, gen := (s.burrow b).generation, cmdId := dCmdId data }
  if s.fetches b q = false ∨ sl.waiting = 0 ∨ data.length < 128 then s
  else if sl.regs.sqEntries - 1 < n then
    if s.used 0x02 0 < Config.completionSlots then
      let s := (s.setSlot b q { sl with sqHead := sl.tail }).haltSlot b q
      (s.reserve 0x02 0 1).complete (plain o stInvalid)
    else s
  else if sl.waiting < n ∨ Config.fetchSlots < s.used 0x01 0 + n ∨ data.length ≠ 128 * n then s
  else
    let s := s.fetchReads b sl.sqHead n sl.regs
    let s := (s.setSlot b q { sl with sqHead := (sl.sqHead + n) % sl.regs.sqEntries }).reserve 0x01 0 n
    let f : Fetched := { origin := o, bytes := data, entries := n, order := s.host.fetchOrder }
    { s with host := { s.host with fetched := s.host.fetched ++ [f], fetchOrder := s.host.fetchOrder + 1 } }

/-! ## Order (R128, R129, R133) -/

/-- Live commands of one submission queue. -/
def State.liveOf (s : State) (b q : Nat) : List Live :=
  (Map.vals s.host.live).filter fun l => l.origin.burrow == b && l.origin.queue == q

/-- An opcode that R128 counts as a query of its collection. -/
def isQueryOp (op : Nat) : Bool := op == 0x01 || op == 0x54

/-- Every earlier query on the collection in the queue has its stamp, and every earlier mutation has been handed to the
sequencer (R129). -/
def State.handOffOk (s : State) (b q g before : Nat) : Bool :=
  (s.liveOf b q).all fun l => l.coll != g || before ≤ l.order || !(isQueryOp l.opcode || isMutationOp l.opcode) || l.passed

/-- The command at the head of its queue may be admitted as far as order goes (R128, R129, R133). -/
def State.orderOk (s : State) (f : Fetched) : Bool :=
  let b := f.origin.burrow
  let q := f.origin.queue
  let op := dOpcode f.bytes
  let g := dColl f.bytes
  ((s.liveOf b q).all fun l => l.opcode != 0x40)
    && (!isQueryOp op || (s.liveOf b q).all fun l => !(l.coll == g && isMutationOp l.opcode))
    && (!isMutationOp op || s.handOffOk b q g f.order)

/-! ## Credits (R50, R53) -/

/-- A context and the chunks of k are free on the sorter that R45 names. -/
def State.queryCredits (s : State) (k : Nat) : Bool :=
  (s.freeCtx Config.queryContexts 0).isSome
    && decide (s.used 0x04 (s.bestSorter 0x04 Config.localChunks) + chunksFor k ≤ Config.localChunks)

/-- The command obtains its credits at admission: a refused one needs its completion slot only (R50, R91). -/
def State.creditsOk (s : State) (f : Fetched) : Bool :=
  let op := dOpcode f.bytes
  let b := f.origin.burrow
  decide (s.used 0x02 0 < Config.completionSlots)
    && (if op = 0x01 then (s.queryCheck b f.bytes).isSome || s.queryCredits (qK f.bytes)
        else if op = 0x20 then (selectCheck f.bytes).isSome || s.queryCredits (selectK f.bytes)
        else if op = 0x10 ∨ op = 0x11 ∨ op = 0x12 then (s.mutationCheck b f.bytes).isSome || decide (s.used 0x05 0 < Config.mutationSlots)
        else true)

/-! ## Charges of a pass (R159) -/

/-- The burrow that pays for a waiter: the querying burrow at home, the collection's owner on a remote device. -/
def State.payer (s : State) (c : Coll) (x : Nat) : Nat :=
  if isRemote x then c.owner else ((s.ctx? x).map (·.burrow)).getD 0

/-- What each of n burrows pays of T tokens: the first, that of the oldest waiter, also the remainder. -/
def shares (total : Nat) (bs : List Nat) : List (Nat × Nat) :=
  let n := max bs.length 1
  bs.zipIdx.map fun b => (b.1, total / n + if b.2 = 0 then total % n else 0)

/-- Burrows that can pay their share, the share recomputed over those that remain. -/
def State.payers (s : State) (total : Nat) : Nat → List Nat → List Nat
  | 0, bs => bs
  | fuel + 1, bs =>
    let ok := ((shares total bs).filter fun p => s.canPay p.1 p.2).map Prod.fst
    if ok.length = bs.length then bs else s.payers total fuel ok

/-- A charge of the burrow for the segment a stream delivers next has to wait (R159, R160). -/
def State.streamWaits (s : State) (b : Nat) (st : Stream) : Bool :=
  match s.coll? st.coll with
  | none => false
  | some c =>
    let among := fun xs => once (xs.map (s.payer c))
    if !st.issued then false
    else match st.phase with
      | .needDue => false
      | .metaDue =>
        let bs := among ((st.waiters.filter fun w => w.stripes.contains st.stripe).map (·.ctx))
        bs.contains b && !(s.payers 1024 64 bs).contains b
      | .vectorsDue => (shares 1024 (among st.part)).any fun p => p.1 == b && !s.canPay b p.2

/-- A payload command of the burrow waits for its charge: a write, or a read whose page is in HBM (R159, R265, R266). -/
def State.payWaits (s : State) (b : Nat) (l : Live) : Bool :=
  l.origin.burrow == b && (l.opcode == 0x31
    || (l.opcode == 0x30 && ((Map.get? s.pay.handles (b * 2 ^ 24 + field l.bytes 4 4)).map fun v => s.readable v.seg).getD false))

/-- A page movement that a command needs waits for its charge (R154, R159). -/
def State.pageWaits (s : State) (b : Nat) : Bool :=
  s.seg.wanted.any fun w => w.2 && (s.seg_ w.1).burrow == b && (s.seg_ w.1).state == .paged && !s.canPay b 1024

/-- The burrow takes part in the round of R134, level 2: it can draw tokens, and none of its charges waits (R160). -/
def State.eligible (s : State) (b : Nat) : Bool :=
  s.hasTokens b && !(s.sched.streams.any (s.streamWaits b) || s.pageWaits b || s.host.live.any fun e => s.payWaits b e.2)

/-! ## Arbitration (R134) -/

/-- The command at the head of a queue. -/
def State.headOf (s : State) (b q : Nat) : Option Fetched := (s.fetchedOf b q).head?

/-- The head of a queue that can proceed now (R132). -/
def State.ready (s : State) (b q : Nat) : Option Fetched :=
  match s.headOf b q with
  | some f => if s.orderOk f && s.creditsOk f then some f else none
  | none => none

/-- The queues of a burrow in round robin after the last one served. -/
def State.queueOrder (s : State) (b : Nat) : List Nat := (List.range 16).map fun i => ((s.burrow b).lastQueue + 1 + i) % 16

/-- The first ready queue of a burrow whose class satisfies `p`. -/
def State.pickClass (s : State) (b : Nat) (p : Nat → Bool) : Option (Nat × Fetched) :=
  (s.queueOrder b).findSome? fun q => if p (s.slot b q).regs.cls then (s.ready b q).map fun f => (q, f) else none

/-- Level 3: the weight of a class (Table 5.3). -/
def State.classWeight (s : State) (c : Nat) : Nat := s.cfg 0x2110 c

/-- The next class after one: HIGH, MEDIUM, LOW, HIGH. -/
def nextClass (c : Nat) : Nat := if c = 1 then 2 else if c = 2 then 3 else 1

/-- Ready queues of a class at level 3; URGENT takes part with the HIGH weight while its bucket is empty. -/
def State.pickAt (s : State) (b c : Nat) : Option (Nat × Fetched) :=
  s.pickClass b fun cls => cls == c || (cls == 0 && c == 1 && s.host.urgentTokens == 0)

/-- Weighted round robin within a burrow: queue, command, class in service and what is left of its weight. -/
def State.pickLevel3 (s : State) (b : Nat) : Option (Nat × Fetched × Nat × Nat) :=
  let v := s.burrow b
  let try_ := fun c left => (s.pickAt b c).map fun p => (p.1, p.2, c, left - 1)
  let c1 := nextClass v.cls
  let c2 := nextClass c1
  (if 0 < v.clsLeft then try_ v.cls v.clsLeft else none)
    |>.or (try_ c1 (s.classWeight c1)) |>.or (try_ c2 (s.classWeight c2)) |>.or (try_ v.cls (s.classWeight v.cls))

/-- The command leaves the fetch queue for admission. -/
def State.choose (s : State) (b q : Nat) (f : Fetched) : State :=
  let s := s.setBurrow b { s.burrow b with lastQueue := q }
  { s with host := { s.host with fetched := s.host.fetched.filter fun g => g.order != f.order, admitting := some f } }

/-- Level 2 at a burrow whose round is in progress: its next command, when the deficit covers it. -/
def State.serveBurrow (s : State) (b : Nat) : Option State :=
  if s.eligible b then
    match s.pickLevel3 b with
    | some (q, f, c, left) =>
      let v := s.burrow b
      if f.entries ≤ v.deficit then
        let s := s.setBurrow b { v with deficit := v.deficit - f.entries, cls := c, clsLeft := left }
        some ((({ s with host := { s.host with inService := some b } }).choose b q f))
      else none
    | none => none
  else none

/-- What a burrow keeps of its deficit when its turn ends. -/
def State.endTurn (s : State) (b : Nat) : State :=
  let s := if (s.pickLevel3 b).isNone then s.setBurrow b { s.burrow b with deficit := 0 } else s
  { s with host := { s.host with inService := none, burrowTurn := (b + 1) % 64 } }

/-- Level 2: deficit round robin over the burrows from the one whose turn it is. -/
def State.rounds (s : State) : Nat → State
  | 0 => s
  | n + 1 =>
    let b := s.host.burrowTurn
    let s := if s.eligible b then s.setBurrow b { s.burrow b with deficit := (s.burrow b).deficit + s.cfg (burrowIndex b) 4 * 16 } else s
    match s.serveBurrow b with
    | some s => s
    | none => (s.endTurn b).rounds n

/-- Some queue of some burrow that level 2 may serve is ready. -/
def State.anyReady (s : State) : Bool := (List.range 64).any fun b => s.eligible b && (s.pickLevel3 b).isSome

/-- Level 2. -/
def State.level2 (s : State) : State :=
  let s := match s.host.inService with
    | some b => match s.serveBurrow b with
      | some s => s
      | none => s.endTurn b
    | none => s
  if s.host.admitting.isSome then s
  else if s.anyReady then s.rounds 1024 else s

/-- Level 1: URGENT queues in round robin across burrows, while the urgent bucket holds a token. -/
def State.level1 (s : State) : Option State :=
  if s.host.urgentTokens = 0 then none
  else
    let order := (List.range 64).map fun i => (s.host.urgentTurn + 1 + i) % 64
    (order.findSome? fun b => (s.pickClass b (· == 0)).map fun p => (b, p.1, p.2)).map fun p =>
      let s := { s with host := { s.host with urgentTokens := s.host.urgentTokens - 1, urgentTurn := p.1 } }
      s.choose p.1 p.2.1 p.2.2

/-- The urgent bucket's gain of one admission. -/
def State.gainUrgent (s : State) : State :=
  let part := s.host.urgentPart + s.cfg 0x2110 4
  { s with host := { s.host with urgentPart := part % 100, urgentTokens := min (s.cfg 0x2110 5) (s.host.urgentTokens + part / 100) } }

/-- Admission is open: READY, no fence, no scrub (R139, R345, R355). -/
def State.admissionOpen (s : State) : Bool := s.boot.stage == 7 && !s.boot.fenced && !s.boot.scrubbing

/-- Commands fetched from queues that are being deleted complete ABORTED as completion slots come free (R175, R189). -/
def State.abortDeleted (s : State) : State :=
  s.abortFetched (fun f => (s.slot f.origin.burrow f.origin.queue).status == .deleting) s.host.fetched

/-- An unknown opcode completes INVALID_FIELD and consumes one entry (R182). -/
def State.refuseUnknown (s : State) : State :=
  match s.host.admitting with
  | some f => if knownOpcode (dOpcode f.bytes) then s else { s with host := { s.host with admitting := none } }.refuseFetched f stInvalid
  | none => s

/-- An admission decision is counted (R337). -/
def State.countDecision (s : State) : State := { s with host := { s.host with decisions := s.host.decisions + 1 } }

/-- One admission decision (R134, R337). -/
def State.admissionStep (s : State) : State :=
  let s := s.abortDeleted
  if s.admissionOpen = false ∨ s.host.admitting.isSome then s
  else if s.host.decisions % 2 ^ s.gov.throttle ≠ 0 then s.countDecision
  else
    let s := ((s.level1).getD s.level2).countDecision
    if s.host.admitting.isSome then s.gainUrgent.refuseUnknown else s

/-- The command that admission has chosen, when its opcode is `op`: its completion slot is reserved and its fetch slots
return (R50). -/
def State.begin_ (s : State) (op : Nat) : Option (Fetched × State) :=
  match s.host.admitting with
  | some f =>
    if dOpcode f.bytes = op ∧ s.admissionOpen ∧ s.used 0x02 0 < Config.completionSlots then
      some (f, ({ s with host := { s.host with admitting := none } }.giveBack 0x01 0 f.entries).reserve 0x02 0 1)
    else none
  | none => none

/-- The chosen command is refused: it completes with a status and nothing else (R91, R119). -/
def State.refuse (s : State) (f : Fetched) (status : Nat) : State := s.complete (plain f.origin status)

/-- The chosen command becomes a live one. -/
def State.takeIn (s : State) (f : Fetched) : Nat × State := s.newLive f.origin (dOpcode f.bytes) (dColl f.bytes) f.order f.bytes

end Sys2Proof.Machine
end

