-- ==== Sys2Proof/Machine/Waves.lean ====
section
/-! DEFINITION. A query's ranking, waves and seal test (R22, R24 to R32, R96 to R103, R110 to R115). -/

namespace Sys2Proof.Machine

/-! ## Order and seal (R24, R27) -/

/-- The scan order of lists: bound key, then list ID. -/
def Ranked.before (a b : Ranked) : Bool := decide (a.key < b.key) || (a.key == b.key && decide (a.list < b.list))

def insertRanked (r : Ranked) : List Ranked → List Ranked
  | [] => [r]
  | x :: xs => if r.before x then r :: x :: xs else x :: insertRanked r xs

def sortRanked (rs : List Ranked) : List Ranked := rs.foldl (fun acc r => insertRanked r acc) []

/-- A bound (β, m) blocks the seal at τ: β < t, or β = t and m ≤ u; every bound blocks while there is no τ (R27). -/
def blocks (tau : Option (Nat × Nat)) (key minSeq : Nat) : Bool :=
  match tau with
  | none => true
  | some (t, u) => decide (key < t) || (key == t && decide (minSeq ≤ u))

def Ranked.blocks (tau : Option (Nat × Nat)) (r : Ranked) : Bool := Machine.blocks tau r.key r.minSeq

/-- The pair beyond a table: the smallest bound, and the smallest m_L among the lists with it (R97). -/
def beyondPair (rs : List Ranked) : Option (Nat × Nat) :=
  match rs with
  | [] => none
  | r :: _ => some (r.key, (rs.filter fun x => x.key == r.key).foldl (fun m x => min m x.minSeq) Config.noSequence)

/-- The bound table from ranked lists: the first 512 after the cursor, and the pair beyond (R97, R99); the lists of a
lost device stay out of it and are only judged (R113). -/
def Ctx.fillTable (c : Ctx) (rs : List Ranked) : Ctx :=
  let after := match c.cursor with
    | none => rs
    | some q => rs.filter fun r => q.before r
  let kept := after.filter fun r => !c.lostDevices.contains r.owner
  let lost := after.filter fun r => c.lostDevices.contains r.owner && !c.outLists.contains (false, r)
  let table := kept.take 512
  { c with table := table, beyond := beyondPair (kept.drop 512), far := kept.drop 512, cursor := table.getLast?.or c.cursor, ranks := []
           outLists := c.outLists ++ lost.map fun r => (false, r) }

/-- Lists leave the scan as damaged (true) or lost (false) (R113, R115). -/
def Ctx.putOut (c : Ctx) (damaged : Bool) (rs : List Ranked) : Ctx :=
  { c with outLists := c.outLists ++ rs.map fun r => (damaged, r) }

/-- R30: the lists that are damaged or lost and that some seal test of the query found unscanned and blocking. No test
has a looser τ than the first one, so a list that blocked at any test blocked at the first. -/
def State.judge (s : State) (q : Ctx) (c : Coll) : Ctx :=
  match q.firstTau with
  | none => q
  | some t =>
    let hit := (q.outLists.filter fun o => o.2.blocks t)
    let left := (q.table ++ q.far).filter fun r => r.blocks t
    { q with mediaNeeded := q.mediaNeeded || hit.any (·.1)
               || left.any fun r => r.owner == s.self && s.isDamaged c q.generation q.root r.list
             shardNeeded := q.shardNeeded || hit.any (!·.1) || left.any fun r => q.lostDevices.contains r.owner }

/-- The seal test over the unscanned lists of the table and the pair beyond (R27, R103). -/
def Ctx.sealTest (q : Ctx) : Bool :=
  !(q.table.any (Ranked.blocks q.tau) || ((q.beyond.map fun b => blocks q.tau b.1 b.2).getD false))

/-- The status of a query whose end is decided, in the precedence of R31; `base` is its status without a lapse. -/
def Ctx.finalStatus (c : Ctx) (base : Nat) : Nat :=
  if c.tableMismatch then stTable else if c.mediaNeeded || c.collFault then stMedia else if c.shardNeeded then stShardLost else base

/-! ## Ranking (R97, R99, R100) -/

/-- The generation a query reads is that of its context. -/
def State.rankedOf (s : State) (c : Coll) (root l key : Nat) : Ranked :=
  { key := key, list := l, minSeq := boundMin (s.boundRec c root l), owner := ownerOf c.shards l }

/-- Lists that are not EMPTY in the generation (R26, R74). -/
def State.nonEmpty (s : State) (c : Coll) (generation root : Nat) : List Nat :=
  if generation = 0 then [] else (List.range c.lists).filter fun l => !boundEmpty (s.boundRec c root l)

/-- A ranking pass starts: one-list collections and kernels without a bound function need no centroid (R82, R100). -/
def State.startRanking (s : State) (x : Nat) (q : Ctx) (c : Coll) : State :=
  if q.generation = 0 then s.setCtx x ({ q with phase := .ranked }.fillTable [])
  else if c.lists = 1 then
    s.setCtx x ({ q with phase := .ranked }.fillTable ((s.nonEmpty c q.generation q.root).map fun l => s.rankedOf c q.root l 0x80000000))
  else if !s.hasBound c then
    s.setCtx x ({ q with phase := .ranked }.fillTable ((s.nonEmpty c q.generation q.root).map fun l => s.rankedOf c q.root l 0))
  else
    let s := s.setCtx x { q with phase := .ranking, ranks := [] }
    s.enterStream x q.coll q.root .centroids (List.range (s.centSegs q.root).length)

/-! ## The query group (R96) -/

/-- Query slots of a tile (R37). -/
def slotCount (vecBytes : Nat) : Nat := min 64 (262144 / max vecBytes 1)

/-- A tile takes part: its kernel slot is not FAULTED and no reset is pending (R240, R350). -/
def State.tileUsable (s : State) (t kernel : Nat) : Bool := !(s.tile t).faulted.contains kernel && !(s.tile t).resetPending

/-- Free slots of a tile for vectors of a size. -/
def State.slotsFree (s : State) (t vecBytes : Nat) : Nat := slotCount vecBytes - (s.tile t).slots.length

/-- The tile of a column with the most free slots, the lowest row among equals; none without a free slot. -/
def State.columnTile (s : State) (col kernel vecBytes : Nat) : Option Nat :=
  (List.range 16).foldl (fun best y =>
    let t := 16 * y + col
    if s.tileUsable t kernel ∧ 0 < s.slotsFree t vecBytes then
      match best with
      | none => some t
      | some u => if s.slotsFree u vecBytes < s.slotsFree t vecBytes then some t else some u
    else best) none

/-- The tiles of group index g of width G; none unless every column has one. -/
def State.groupTiles (s : State) (g width kernel vecBytes : Nat) : Option (List Nat) :=
  ((List.range width).map fun i => s.columnTile (g + i * (16 / width)) kernel vecBytes).foldr
    (fun t acc => match t, acc with
      | some t, some ts => some (t :: ts)
      | _, _ => none) (some [])

/-- The lowest free slot number of a tile. -/
def Tile.freeSlotNo (t : Tile) : Nat := Map.freeKey t.slots 64 0

/-- A slot is taken on a tile, and QUERY_IN waits there (R228). -/
def State.takeSlot (s : State) (x t kernel : Nat) : Nat × State :=
  let v := s.tile t
  let n := v.freeSlotNo
  let e : TileEvent := { kind := .queryIn, kernel := kernel, ctxs := [x], first := n }
  (n, (s.setTile t { v with slots := Map.put v.slots n x, events := v.events ++ [e] }).reserve 0x09 t 1)

def State.takeSlots (s : State) (x kernel : Nat) : List Nat → List (Nat × Nat) × State
  | [] => ([], s)
  | t :: ts =>
    let (n, s) := s.takeSlot x t kernel
    let (rest, s) := s.takeSlots x kernel ts
    ((t, n) :: rest, s)

/-- The tiles a query is served by: those that hold its pinned blocks, or a group of G (R96). -/
def State.chooseTiles (s : State) (c : Coll) (generation kernel vecBytes : Nat) : Option (List Nat) :=
  let blocksAt := once ((c.blocksOf generation).map Prod.snd)
  if c.pinned ∧ blocksAt ≠ [] then
    if blocksAt.all (fun t => s.tileUsable t kernel && decide (0 < s.slotsFree t vecBytes)) then some blocksAt else none
  else
    let width := s.cfg 0x2100 5
    let n := 16 / max width 1
    let pick := s.draw.1 % max n 1
    (s.groupTiles pick width kernel vecBytes).or ((List.range n).findSome? fun g => s.groupTiles g width kernel vecBytes)

/-! ## Waves (R101, R110) -/

/-- The body of a WAVE_REQ (Table 8.11). -/
def waveReqBody (q : Ctx) (now : Nat) (first : Bool) (lists : List Nat) : List Byte :=
  let terms := if first then q.terms else 0
  toLE 6 q.stamp ++ toLE 2 q.waves ++ toLE 8 q.generation ++ toLE 4 q.day ++ toLE 2 q.k ++ toLE 1 (if first then 1 else 0) ++ toLE 1 terms
    ++ toLE 4 ((q.tau.map Prod.fst).getD 0xFFFFFFFF) ++ toLE 6 ((q.tau.map Prod.snd).getD Config.noSequence) ++ toLE 2 lists.length
    ++ toLE 4 (q.deadline - now) ++ zeros 8 ++ (lists.map (toLE 4)).flatten
    ++ (if first then (if terms = 0 then [] else q.filter) ++ q.vec else [])

/-- The wave request to one device: with the query itself on the first one. -/
def State.sendWave (s : State) (x d : Nat) (lists : List Nat) : State :=
  match s.ctx? x with
  | none => s
  | some q =>
    let first := !q.opened.contains d
    let s := s.setCtx x { q with opened := if first then q.opened ++ [d] else q.opened, remotes := q.remotes ++ [d] }
    s.request d mWaveReq 0 (s.tagOf x) q.coll x (waveReqBody q s.clk.now first lists)

/-- The pass bits of records on a tile: those that are visible, above the stash cut and pass the filter (R95). -/
def Ctx.passes (q : Ctx) (c : Coll) (cut : Nat) (stash : Bool) (r : List Byte) : Bool :=
  visible r q.stamp && (!stash || decide (cut < recSeq r)) && filterPasses q.filter c.a0 c.a1 q.day r

/-- Keys of the pass bits that a context gets at a tile for the records of a metadata buffer. -/
def State.passKeys (s : State) (c : Coll) (t metaBuf : Nat) (stash : Bool) (recs : List (List Byte)) (xs : List Nat) : List Nat :=
  (xs.map fun x =>
    match s.ctx? x with
    | none => []
    | some q =>
      match q.tiles.find? fun p => p.1 == t with
      | none => []
      | some p =>
        let cut := if stash then rootCut (s.rootBody q.root) else 0
        ((List.range recs.length).filter fun i => q.passes c cut stash (recs.getD i [])).map fun i => (metaBuf * 2048 + i) * 64 + p.2).flatten

/-- The bytes of the pinned block of a list on a tile. -/
def Tile.blockBytes (t : Tile) : List Byte := (t.block.map fun b => b.2.2).getD []

/-- A pinned block of a list waits for the query at its tile (R80, R228). -/
def State.issueBlock (s : State) (x : Nat) (c : Coll) (l t : Nat) : State :=
  let v := s.tile t
  let bytes := v.blockBytes
  let n := hdrCount bytes
  let recs := (List.range n).map fun i => slice bytes (256 + 64 * i) 64
  let keys := s.passKeys c t 2 false recs [x]
  let e : TileEvent := { kind := .pblock, kernel := c.kernel, ctxs := [x], coll := (v.block.map Prod.fst).getD 0, what := .list l
                         metaBytes := bytes, vecBytes := bytes.drop (256 + 64 * geoN c.vecBytes), count := n, metaBuf := 2 }
  s.setTile t { v with events := v.events ++ [e], passes := v.passes ++ keys }

/-- A list of a wave enters its rendezvous table, or its blocks wait at their tiles. -/
def State.issueList (s : State) (x : Nat) (q : Ctx) (c : Coll) (l : Nat) : State :=
  if c.pinned then (((c.blocksOf q.generation).filter fun b => b.1 == l).map Prod.snd).foldl (fun s t => s.issueBlock x c l t) s
  else s.enterStream x q.coll q.root (.list l) (List.range (dirStripes (s.dirEntry c q.root l)))

/-- The stash stripes a generation reads: the chain from its stash start (R79). -/
def State.stashChain (s : State) (root : Nat) : List Nat := s.chain 65536 (rootStart (s.rootBody root))

/-- The stash enters its rendezvous table, when it has a stripe. -/
def State.issueStash (s : State) (x : Nat) (q : Ctx) : State :=
  let n := (s.stashChain q.root).length
  if n = 0 then s else s.enterStream x q.coll q.root .stash (List.range n)

/-- Lists of the bound order for a wave: the first W in wave 1; later up to the last one that blocks, at most 64; a
BUDGETED query never passes its budget (R101). -/
def Ctx.waveLists' (q : Ctx) (width : Nat) : List Ranked :=
  let room := if q.budgeted then q.budget - q.scanned else q.table.length
  let beyondBlocks := (q.beyond.map fun b => blocks q.tau b.1 b.2).getD false
  let upTo := if q.waves = 0 then width
    else if beyondBlocks then 64
    else min 64 ((q.table.zipIdx.foldl (fun m r => if r.1.blocks q.tau then r.2 + 1 else m) 0))
  q.table.take (min upTo room)

/-- A pinned block of the list fails R63. -/
def State.blockBad (s : State) (g : Nat) (c : Coll) (generation l : Nat) : Bool :=
  c.pinned && (c.blocksOf generation).any fun b => b.1 == l && !headerOk (s.tile b.2).blockBytes 7 g

/-- A list whose pinned block fails R63 is DAMAGED in every generation that references the block (Table 6.6). -/
def State.damageBlock (s : State) (g generation l : Nat) : State :=
  match s.coll? g with
  | none => s
  | some c =>
    let bad := ((c.blocksOf generation).filter fun b => b.1 == l && !headerOk (s.tile b.2).blockBytes 7 g).map Prod.snd
    let hit := c.generations.filter fun gr => (c.blocksOf gr.1).any fun b => b.1 == l && bad.contains b.2
    let s := s.setColl g { c with damaged := once (c.damaged ++ hit.map fun gr => (gr.1, l)) }
    bad.foldl (fun s t => s.logEvent 0x0400 (toLE 4 0xFFFFFFFF ++ toLE 1 0xFF ++ toLE 2 t)) s

/-- The segments of lists are wanted in HBM, ahead of use (R107). -/
def State.prefetchLists (s : State) (q : Ctx) (c : Coll) (ls : List Nat) : State :=
  let lists := ls.filter fun l => ownerOf c.shards l == s.self
  if c.pinned then s else (lists.map fun l => s.chainSegs (s.listChain c q.root l)).flatten.foldl (fun s n => s.want false n) s

/-- Neighbour prefetch at the end of a wave: unscanned neighbours of the lists of the best N candidates (R107). -/
def State.neighbourPrefetch (s : State) (q : Ctx) (c : Coll) : State :=
  let best := (q.sorter.top.take (s.cfg 0x2100 4)).filterMap fun d => if d.remote then none else d.list
  let near := if c.noAdjacency then [] else (best.map (s.neighbours q.root)).flatten
  s.prefetchLists q c (near.filter fun l => q.table.any fun r => r.list == l)

/-- The metadata record of a local candidate (R106, R116): from its segment, or from the pinned block of its tile. -/
def State.candRecord (s : State) (d : Cand) : Option (List Byte) :=
  let i := d.ref / 2 ^ 24 % 2048
  if d.ref.testBit 35 then some (slice (s.tile (d.ref % 256)).blockBytes (256 + 64 * i) 64)
  else
    let n := d.ref % 2 ^ 24
    if s.readable n then some (s.segRead n (256 + 64 * i) 64) else none

/-- The payload handle of a candidate, as far as its record can be read now. -/
def State.candHandle (s : State) (q : Ctx) (d : Cand) : Nat :=
  if d.remote then fullHandle (Map.getD q.records d.ref []) else ((s.candRecord d).map recHandle).getD 0

/-- The published version of a payload (R259, R260). -/
def State.handle (s : State) (burrow h : Nat) : Option Handle := if h = 0 then none else Map.get? s.pay.handles (burrow * 2 ^ 24 + h)

/-- Payload prefetch after a wave (R269). -/
def State.payloadPrefetch (s : State) (q : Ctx) (c : Coll) : State :=
  if q.payload then
    ((q.sorter.top.take (s.cfg 0x2150 1)).filterMap fun d => s.handle c.owner (s.candHandle q d)).foldl (fun (s : State) (h : Handle) => s.want false h.seg) s
  else s

/-- The next wave is issued (R101, R110): stash and lists here, wave requests to the other devices. -/
def State.issueWave (s : State) (x : Nat) (q : Ctx) (c : Coll) : State :=
  let first := q.waves == 0
  let chosen := q.waveLists' q.width
  let q := { q with table := q.table.drop chosen.length, waves := q.waves + 1, phase := .wave }
  let lost := chosen.filter fun r => q.lostDevices.contains r.owner
  let kept := chosen.filter fun r => !q.lostDevices.contains r.owner
  let mine := kept.filter fun r => r.owner == s.self
  let found := mine.filter fun r => !s.isDamaged c q.generation q.root r.list && s.blockBad q.coll c q.generation r.list
  let s := found.foldl (fun s r => s.damageBlock q.coll q.generation r.list) s
  let isBad := fun (r : Ranked) => s.isDamaged c q.generation q.root r.list || s.blockBad q.coll c q.generation r.list
  let bad := mine.filter isBad
  let good := mine.filter fun r => !isBad r
  let q := (q.putOut false lost).putOut true bad
  let away := kept.filter fun r => r.owner != s.self
  let q := { q with waveLists := good.map (·.list), stashLeft := first, remotes := [], asked := q.waves, ranks := good ++ away }
  let s := s.setCtx x q
  let s := good.foldl (fun s r => s.issueList x q c r.list) s
  let s := if first then s.issueStash x q else s
  let s := s.prefetchLists q c ((q.table.take (s.cfg 0x2100 3)).map (·.list))
  let devices := (mapDevices c.shards).filter fun d => d != s.self && !q.lostDevices.contains d && (first || away.any fun r => r.owner == d)
  devices.foldl (fun s d => s.sendWave x d ((away.filter fun r => r.owner == d).map (·.list))) s

/-! ## What is still under way (R102) -/

/-- A tile event of a context for a part of a collection. -/
def TileEvent.serves (e : TileEvent) (x : Nat) (what : StreamOf) : Bool := e.what == what && e.ctxs.contains x && (e.kind == .metaSeg || e.kind == .vec || e.kind == .pblock)

/-- Something of a part is still being streamed, scored or posted for the context. -/
def State.busyWith (s : State) (x : Nat) (what : StreamOf) : Bool :=
  let posted := match what with
    | .list l => some l
    | _ => none
  (s.sched.streams.any fun st => st.what == what && st.waiters.any fun w => w.ctx == x)
    || (s.grid.tiles.any fun t => t.2.events.any (fun e => e.serves x what) || ((t.2.running.map fun e => e.serves x what).getD false))
    || (what != .centroids && s.sched.posts.any fun p => p.2.1 == x && p.2.2.list == posted)

/-- A part of the wave that a kernel fault keeps from counting as scanned (R241). -/
def Ctx.isBlocked (q : Ctx) (l : Option Nat) : Bool := q.blocked.contains l

/-- Everything of the wave on this device has been scanned. -/
def State.waveDone (s : State) (x : Nat) (q : Ctx) : Bool :=
  (q.waveLists.all fun l => !s.busyWith x (.list l) && !q.isBlocked (some l))
    && !s.busyWith x .stash && !q.isBlocked none

/-! ## The end of a wave (R102, R103, R114) -/

/-- The query ends INCOMPLETE (R114, R31). -/
def State.endIncomplete (s : State) (x : Nat) (q : Ctx) (c : Coll) : State :=
  let q := s.judge q c
  let s := s.setCtx x q
  let st := q.finalStatus stIncomplete
  s.conclude x st false (st != stTable && !q.collFault)

/-- The next wave, after a refill where the table is used up (R99). -/
def State.nextWave (s : State) (x : Nat) (q : Ctx) (c : Coll) : State :=
  if q.table = [] then s.startRanking x q c else s.issueWave x q c

/-- The decision after a wave: the seal, the budget, or the next wave (R29, R32, R101, R103). -/
def State.afterWave (s : State) (x : Nat) (q : Ctx) (c : Coll) : State :=
  let q := s.judge { q with firstTau := q.firstTau.or (some q.tau) } c
  let s := s.setCtx x q
  if q.sealTest then
    let st := q.finalStatus stOk
    s.conclude x st (st == stOk) (st != stTable)
  else if q.budgeted ∧ q.budget ≤ q.scanned then
    let st := q.finalStatus stUnsealed
    s.conclude x st false (st != stTable)
  else s.nextWave x q c

/-- The deadline of a query has passed (R32: the last instant still belongs to it). -/
def State.tooLate (s : State) (q : Ctx) : Bool := q.deadlinePassed || decide (q.deadline < s.clk.now)

/-- A wave of a home query ends (R102). -/
def State.endHomeWave (s : State) (x : Nat) (q : Ctx) (c : Coll) : State :=
  let q := { q with scanned := q.scanned + q.waveLists.length, waveLists := [], stashLeft := false, sorter := q.sorter.endWave }
  let q := { q with tau := q.sorter.tau, ranks := [] }
  let s := ((s.setCtx x q).neighbourPrefetch q c).payloadPrefetch q c
  if s.tooLate q then s.endIncomplete x q c else s.afterWave x q c

end Sys2Proof.Machine
end

