-- ==== Sys2Proof/Machine/Query.lean ====
section
/-! DEFINITION. A query from admission to its decision, on its home device (R91, R92, R96 to R103, R114, R125). -/

namespace Sys2Proof.Machine

/-! ## Stamps (R92, R125) -/

/-- The committed sequence of a collection on its sequencer device. -/
def Coll.committed (c : Coll) : Nat := (c.seqr.map (·.committed)).getD 0

/-- The calendar day a query samples (R20). -/
def State.today (s : State) : Nat := s.clk.sec / 86400

/-- The query receives stamp, day and generation in one step, and its deadline starts (R92): until
then the field holds the descriptor's deadline. One with k = 0 is complete. -/
def State.stampQuery (s : State) (x stamp : Nat) : State :=
  match s.ctx? x with
  | none => s
  | some q =>
    match q.cmd, s.served q.coll with
    | some key, some c =>
      let s := match s.live? key with
        | some l => s.setLive key { l with passed := true }
        | none => s
      let q := { q with stamp := stamp, day := s.today, generation := c.generation, root := c.root, deadline := s.clk.now + q.deadline, phase := .ready }
      if q.k = 0 then (s.setCtx x { q with status := stOk, sealed := true }).endQuery x
      else if c.mediaQuery then (s.setCtx x q).stopQuery x stMedia
      else s.setCtx x q
    | some key, none => s.failLive key stNoColl
    | none, _ => s

/-- A stamp is asked for: requests that still wait to leave share one round trip (R125). -/
def State.askStamp (s : State) (c : Coll) (g owner tag : Nat) : State :=
  s.request (sequencerOf c.shards) mStamp 0 tag g owner (zeros 8)

/-- A stamp request of the collection that has not left yet: its owner. -/
def State.waitingStamp (s : State) (g : Nat) : Option Nat :=
  (s.fab.queued.find? fun r => r.2.kind == mStamp && r.2.coll == g).map fun r => r.2.owner

/-- The context a QUERY takes (Table 4.1). -/
def queryCtx (c : Coll) (bs : List Byte) (key burrow firstWave : Nat) : Ctx :=
  { cmd := some key, burrow := burrow, coll := dColl bs, vec := cmdVector c bs, terms := qTerms bs
    filter := if qTerms bs = 0 then [] else cmdFilter c bs
    k := qK bs, chunks := chunksFor (qK bs), budgeted := qBudgeted bs, budget := field bs 16 4, full := qFull bs, payload := qPayload bs
    width := if field bs 10 1 = 0 then firstWave else field bs 10 1, deadline := field bs 20 4
    resultAddr := field bs 24 8, payloadAddr := field bs 40 8, payloadSize := field bs 36 4, phase := .stamping, sorter := { k := qK bs } }

/-- A QUERY that passes its checks obtains its credits, and its stamp here or from the sequencer device. -/
def State.admitQuery (s : State) (f : Fetched) (c : Coll) : State :=
  let k := qK f.bytes
  let n := s.bestSorter 0x04 Config.localChunks
  let (key, s) := s.takeIn f
  let q := { queryCtx c f.bytes key f.origin.burrow (s.cfg 0x2100 2) with sorterNo := n }
  match s.newCtx 0 Config.queryContexts q with
  | none => s.failLive key stAborted
  | some (x, s) =>
    let s := if k = 0 then s else s.reserve 0x04 n (chunksFor k)
    let s := match s.live? key with
      | some l => s.setLive key { l with ctx := some x }
      | none => s
    if s.isSequencer c then s.stampQuery x c.committed
    else match s.waitingStamp q.coll with
      | some y => s.setCtx x { q with tag := y }
      | none => (s.setCtx x { q with tag := x }).askStamp c q.coll x (s.tagOf x)

/-- QUERY (R89 to R92). -/
def execQuery (s : State) : Host.Outcome State Fault Refusal :=
  .next (match s.begin_ 0x01 with
    | none => s
    | some (f, s') =>
      match s.queryCheck f.origin.burrow f.bytes, s.served (dColl f.bytes) with
      | some st, _ => s'.refuse f st
      | none, some c => if s.queryCredits (qK f.bytes) then s'.admitQuery f c else s
      | none, none => s'.refuse f stNoColl)

/-- A message of the STAMP or COLL_CTRL type with the kind byte given. -/
def State.takeKind (s : State) (i ty kind : Nat) : Option (List Byte × State) :=
  match s.take i ty with
  | some (m, s') => if field (msgBody m) 0 1 = kind then some (m, s') else none
  | none => none

/-- STAMP_REQ (R125): the sequencer device answers with the committed sequence. -/
def execStampReq (i : Nat) (s : State) : Host.Outcome State Fault Refusal :=
  .next (match s.takeKind i mStamp 0 with
    | none => s
    | some (m, s) =>
      match s.served (msgColl m) with
      | some c =>
        if s.isSequencer c then
          s.send (msgSource m) mStamp 0 (msgTag m) (msgRequester m) (msgColl m) ([1, 0] ++ toLE 6 c.committed)
        else s
      | none => s)

/-- The stamp of a FENCE or an export: kept in the live command's data (R133); an export reads the generation current at
that moment (R141). -/
def State.stampLive (s : State) (key stamp : Nat) : State :=
  match s.live? key with
  | some l =>
    let x : Option Exporting := if l.opcode = 0x54 then (s.coll? l.coll).map fun c => { stamp := stamp, generation := c.generation, root := c.root }
      else l.exporting
    s.setLive key { l with data := toLE 6 stamp, passed := true, exporting := x }
  | none => s

/-- Every query that shares the stamp request of an owner. -/
def State.stampShared (s : State) (owner stamp : Nat) : State :=
  (Map.keys s.sched.ctxs).foldl (fun s x =>
    match s.ctx? x with
    | some q => if q.phase = .stamping ∧ q.tag = owner ∧ q.cmd.isSome then s.stampQuery x stamp else s
    | none => s) s

/-- STAMP_RSP (R125, R213). -/
def execStampRsp (i : Nat) (s : State) : Host.Outcome State Fault Refusal :=
  .next (match s.takeKind i mStamp 1 with
    | none => s
    | some (m, s) =>
      match s.awaited mStamp (msgSource m) (msgTag m) (msgColl m) with
      | none => s.lateResponse
      | some r =>
        let s := s.endRequest r
        let stamp := field (msgBody m) 2 6
        if 8192 ≤ r.owner then s.stampLive (r.owner - 8192) stamp else s.stampShared r.owner stamp)

/-! ## Dispatch (R96) -/

/-- The query obtains its slots, or waits; ranking starts, or wave 1. -/
def State.dispatchQuery (s : State) (x : Nat) : State :=
  match s.ctx? x with
  | none => s
  | some q =>
    match s.coll? q.coll with
    | none => s
    | some c =>
      if q.phase ≠ .ready ∨ isRemote x then s
      else match s.chooseTiles c q.generation c.kernel c.vecBytes with
        | none => s
        | some ts =>
          let (tiles, s) := (s.draw.2).takeSlots x c.kernel ts
          let q := { q with tiles := tiles }
          let s := s.startRanking x q c
          match s.ctx? x with
          | some q => if q.phase = .ranked then s.issueWave x q c else s
          | none => s

/-- RANKING_MERGE (R97, R99): every centroid stripe has been ranked; the bound table is filled and the wave issued. -/
def execRankingMerge (x : Nat) (s : State) : Host.Outcome State Fault Refusal :=
  .next (match s.ctx? x with
    | none => s
    | some q =>
      match s.coll? q.coll with
      | none => s
      | some c =>
        if q.phase ≠ .ranking ∨ s.busyWith x .centroids ∨ q.isBlocked none then s
        else if s.tooLate q then s.endIncomplete x q c
        else s.issueWave x ({ q with phase := .ranked }.fillTable (sortRanked q.ranks)) c)

/-! ## Deadlines (R114) -/

/-- A part of the wave has begun to stream for the query. -/
def State.begun (s : State) (x : Nat) (what : StreamOf) (total : Nat) : Bool :=
  (s.sched.streams.all fun st => st.what != what || st.part.contains x || (st.waiters.all fun w => w.ctx != x || decide (w.stripes.length < total)))

/-- The query's wave requests are given up: their answers are late (R114, R213). -/
def State.forgetWaves (s : State) (x : Nat) : State :=
  let mine := s.fab.requests.filter fun r => r.kind == mWaveReq && r.owner == x
  let s := mine.foldl State.endRequest s
  { s with fab := { s.fab with queued := s.fab.queued.filter fun r => !(r.2.kind == mWaveReq && r.2.owner == x) } }

/-- The deadline of a query in a wave: what has not begun leaves the wave, what has begun is scanned to the end. -/
def State.cutWave (s : State) (x : Nat) (q : Ctx) (c : Coll) : State :=
  let stays := fun l => !q.isBlocked (some l) && s.begun x (.list l) (dirStripes (s.dirEntry c q.root l))
  let kept := q.waveLists.filter stays
  let s := s.leaveStreams x fun st => match st.what with
    | .list l => !kept.contains l
    | .stash => !s.begun x .stash (s.stashChain q.root).length
    | .centroids => false
  let q := { q with deadlinePassed := true, waveLists := kept, remotes := [], blocked := [] }
  let s := (s.setCtx x q).forgetWaves x
  if s.waveDone x q then s.endHomeWave x q c else s

/-- QUERY_DEADLINE (R114). -/
def execQueryDeadline (x : Nat) (s : State) : Host.Outcome State Fault Refusal :=
  .next (match s.ctx? x with
    | none => s
    | some q =>
      match s.coll? q.coll with
      | none => s
      | some c =>
        if isRemote x ∨ s.clk.now < q.deadline then s
        else match q.phase with
          | .ready => s.endIncomplete x q c
          | .ranked => s.endIncomplete x q c
          | .ranking => s.endIncomplete x q c
          | .wave => s.cutWave x q c
          | _ => s)

end Sys2Proof.Machine
end

