-- ==== Sys2Proof/Machine/Streams.lean ====
section
/-! DEFINITION. Rendezvous and streaming: issue, segment delivery, need masks, stream buffers, damaged stripes
(R95, R104, R105, R115, R148, R153, R154, R159). -/

namespace Sys2Proof.Machine

/-! ## Tiles of a stripe (R97, R105) -/

/-- The tile of a query that stripe `j` of a stream goes to: list ID plus stripe, modulo the tiles of its group. -/
def Ctx.tileFor (q : Ctx) (what : StreamOf) (j : Nat) : Option Nat :=
  let l := match what with
    | .list l => l
    | _ => 0
  (q.tiles[(l + j) % max q.tiles.length 1]?).map Prod.fst

/-- The kernel slot that a stream's events call (Table 9.3). -/
def StreamOf.kernel (what : StreamOf) (c : Coll) : Nat := if what = .centroids then 1 else c.kernel

/-- Stream buffers of a tile that a stream may take: two on a tile that holds pinned data (R38, R50). -/
def Tile.bufferLimit (t : Tile) : Nat := if t.block.isSome then 2 else 4

/-- The lowest free stream buffer of a tile. -/
def Tile.freeBuffer (t : Tile) : Option Nat := (List.range t.bufferLimit).find? fun b => !t.buffers.contains b

/-- Vector segments in which a tile's pass bits of a metadata buffer are set (R105, step 2). -/
def Tile.needs (t : Tile) (metaBuf e : Nat) : Nat :=
  t.passes.foldl (fun m k => if k / 64 / 2048 = metaBuf then m ||| 2 ^ (k / 64 % 2048 / max e 1) else m) 0

/-- A stripe of some stream still needs a tile's metadata buffer. -/
def State.metaInUse (s : State) (t metaBuf : Nat) : Bool :=
  let v := s.tile t
  let waits := fun (e : TileEvent) => e.metaBuf == metaBuf && (e.kind == .metaSeg || e.kind == .vec)
  v.events.any waits || ((v.running.map waits).getD false)
    || s.sched.streams.any fun st => st.tiles.contains (t, metaBuf) && (st.tilesDue.contains t || st.need != 0)

/-- A stream buffer of a tile is released (R50, R228). -/
def State.freeBuffer (s : State) (t b : Nat) : State :=
  let v := s.tile t
  if v.buffers.contains b then
    (s.setTile t { v with buffers := v.buffers.erase b, passes := v.passes.filter fun k => k / 64 / 2048 != b }).giveBack 0x08 t 1
  else s

/-- A metadata buffer is released once nothing needs it any more. -/
def State.releaseMeta (s : State) (t metaBuf : Nat) : State := if s.metaInUse t metaBuf then s else s.freeBuffer t metaBuf

/-! ## Damage (R115) -/

/-- A list leaves a query's wave as damaged: its streams, events, posts and candidates of the wave are withdrawn. -/
def State.loseList (s : State) (x l : Nat) : State :=
  let s := s.leaveStreams x fun st => st.what == .list l
  let strip := fun (e : TileEvent) => if e.what = .list l ∧ (e.kind = .metaSeg ∨ e.kind = .vec ∨ e.kind = .pblock) then { e with ctxs := e.ctxs.filter (· != x) } else e
  let tiles := s.grid.tiles.map fun (t : Nat × Tile) => (t.1, { t.2 with events := t.2.events.map strip })
  let s := { s with grid := { s.grid with tiles := tiles } }
  let gone := s.sched.posts.filter fun (p : Nat × Nat × Cand) => p.2.1 == x && p.2.2.list == some l
  let kept := s.sched.posts.filter fun (p : Nat × Nat × Cand) => !(p.2.1 == x && p.2.2.list == some l)
  let s := gone.foldl (fun (s : State) p => s.giveBack 0x0A p.1 1) { s with sched := { s.sched with posts := kept } }
  match s.ctx? x with
  | some q =>
    if !q.waveLists.contains l then s
    else
      let q := { q with waveLists := q.waveLists.erase l, sorter := q.sorter.withdraw fun d => d.list == some l && d.wave == q.waves }
      s.setCtx x (if isRemote x then { q with waveDamaged := q.waveDamaged ++ [l] } else q.putOut true (q.ranks.filter fun r => r.list == l))
  | none => s

/-- The fetch tag a stream holds returns. -/
def State.returnTag (s : State) (st : Stream) : State :=
  match st.tag with
  | some k => s.giveBack 0x07 k 1
  | none => s

/-- Stream `i` becomes another one, or ends. -/
def State.setStream (s : State) (i : Nat) (st : Option Stream) : State :=
  match st with
  | some st => { s with sched := { s.sched with streams := s.sched.streams.modify i fun _ => st } }
  | none => { s with sched := { s.sched with streams := s.sched.streams.eraseIdx i } }

/-- A stream ends: its tag returns, and the buffers its stripe held are released where no event needs them. -/
def State.endStream (s : State) (i : Nat) (st : Stream) : State :=
  let s := (s.returnTag st).setStream i none
  st.tiles.foldl (fun s tb => s.releaseMeta tb.1 tb.2) s

/-- A stripe turns out damaged: a list leaves every query that waits on it; the segment has been quarantined before. -/
def State.streamDamaged (s : State) (st : Stream) : State :=
  let xs := st.waiters.map (·.ctx)
  let s := match st.what with
    | .list l => xs.foldl (fun (s : State) x => s.loseList x l) s
    | _ => xs.foldl (fun (s : State) x => (s.leaveStreams x fun r => r.what == st.what && r.root == st.root).modCtx x
        fun q => { q with collFault := true, blocked := if isRemote x then none :: q.blocked else q.blocked }) s
  match s.streamIndex st.coll st.root st.what with
  | some j => s.endStream j st
  | none => st.tiles.foldl (fun (s : State) tb => s.releaseMeta tb.1 tb.2) (s.returnTag st)

/-! ## Stripes -/

/-- The metadata segment of a stripe, read off the stripe before where that was just streamed. -/
def State.stripeSeg (s : State) (c : Coll) (st : Stream) : Option Nat :=
  let walk := match st.what with
    | .list l => (s.listChain c st.root l)[st.stripe]?.or (s.listChain c st.root l).getLast?
    | .stash => (s.stashChain st.root)[st.stripe]?.or (s.stashChain st.root).getLast?
    | .centroids => (s.centSegs st.root)[st.stripe]?
  if st.what ≠ .centroids ∧ st.stripe ≠ 0 ∧ st.metaBytes ≠ [] then some (hdrNext st.metaBytes) else walk

/-- The next stripe that some waiter needs: later ones first, then the earlier ones in a following pass (R104). -/
def Stream.nextStripe (st : Stream) : Option Nat :=
  let all := (st.waiters.map (·.stripes)).flatten
  let best := fun (l : List Nat) => l.foldl (fun m j => match m with
    | none => some j
    | some k => some (min j k)) none
  (best (all.filter (st.stripe < ·))).or (best all)

/-- A stripe is done: those that took part are done with it; the next stripe follows, or the stream ends. -/
def State.finishStripe (s : State) (i : Nat) (st : Stream) : State :=
  let ws := st.waiters.map fun w => if st.part.contains w.ctx then { w with stripes := w.stripes.erase st.stripe } else w
  let left := ws.filter fun w => w.stripes != []
  let held := st.tiles
  let st' := { st with waiters := left, part := [], tiles := [], tilesDue := [], need := 0, phase := .metaDue }
  let s := s.giveBack 0x06 0 (ws.length - left.length)
  let s := match left, st'.nextStripe with
    | [], _ => (s.returnTag st).setStream i none
    | _, some j => s.setStream i (some { st' with stripe := j, metaBytes := if j = st.stripe + 1 then st.metaBytes else [] })
    | _, none => (s.returnTag st).setStream i none
  held.foldl (fun s tb => s.releaseMeta tb.1 tb.2) s

/-! ## Charges of a pass (R159) -/

/-- The shares are charged. -/
def State.payAll (s : State) (total : Nat) (bs : List Nat) : State :=
  (shares total bs).foldl (fun s p => (s.charge p.1 p.2).getD s) s

/-! ## LIST_ISSUE (R104) -/

/-- The stack of a segment's frame, 0 while it has none. -/
def State.stackOf (s : State) (n : Nat) : Nat := (((s.seg_ n).frame.map frameChannel).getD 0) / 32

/-- A list with waiters is issued: a fetch tag is free and its oldest waiter has waited for GatherWindow, in ns. -/
def State.listIssue (s : State) (i : Nat) : State :=
  match s.sched.streams[i]? with
  | none => s
  | some st =>
    match s.coll? st.coll, st.waiters with
    | some c, w :: _ =>
      match st.nextStripe with
      | none => s
      | some j =>
        let st := { st with stripe := min j st.stripe }
        match s.stripeSeg c { st with stripe := j, metaBytes := [] } with
        | none => s
        | some n =>
          let stack := s.stackOf n
          if st.issued ∨ Config.stackTags ≤ s.used 0x07 stack ∨ (s.clk.now - w.since) * 1000 < s.cfg 0x2100 1 then s
          else
            let s := (s.reserve 0x07 stack 1).modSeg n fun v => { v with tags := v.tags + 1 }
            s.setStream i (some { st with issued := true, stripe := j, phase := .metaDue, tag := some stack, metaBytes := [] })
    | _, _ => s

/-- LIST_ISSUE (R104). -/
def execListIssue (i : Nat) (s : State) : Host.Outcome State Fault Refusal := .next (s.listIssue i)

/-! ## SEGMENT_DELIVERY (R105) -/

/-- What a read of a segment gives. -/
inductive ReadOutcome
  | bytes (bs : List Byte) (s : State)
  | damaged (s : State)
  | wait (s : State)

/-- The read of a whole segment by its state (R148, R153, R154, R157). -/
def State.readSegment (s : State) (n : Nat) (found : BurstRead) (fromSlot : List Byte) : ReadOutcome :=
  let v := s.seg_ n
  match v.state, v.frame with
  | .free, _ => .damaged s
  | .quarantined, _ => .damaged s
  | .paged, _ => .wait (s.want true n)
  | .pagingIn, _ => .wait s
  | .retiring, none =>
    match v.slot with
    | some slot => if fromSlot.length = 65536 then .bytes fromSlot (s.emit (.hostRead (v.burrow + 1) (s.pageAddr v.burrow slot) 65536)) else .wait s
    | none => .damaged s
  | _, some f =>
    match found with
    | .uncorrectable => .damaged (s.quarantine n true)
    | .corrected => .bytes (s.segRead n 0 65536) ((s.countCorrected (frameChannel f)).touch n)
    | .clean => .bytes (s.segRead n 0 65536) (s.touch n)
  | _, none => .damaged s

/-- The header type a stream's stripes carry. -/
def StreamOf.headerType : StreamOf → Nat
  | .centroids => 3 | .list _ => 1 | .stash => 2

/-- A metadata segment reaches one tile: a buffer is taken, pass bits are formed, META waits (R95, R105). -/
def State.deliverMeta (s : State) (c : Coll) (st : Stream) (n : Nat) (bytes : List Byte) (t : Nat) : State × (Nat × Nat) :=
  let v := s.tile t
  let b := v.freeBuffer.getD 0
  let xs := st.part.filter fun x => ((s.ctx? x).bind fun q => q.tileFor st.what st.stripe) == some t
  let recs := (List.range (hdrCount bytes)).map fun i => slice bytes (256 + 64 * i) 64
  let keys := if st.what = .centroids then [] else s.passKeys c t b (st.what == .stash) recs xs
  let e : TileEvent := { kind := .metaSeg, kernel := st.what.kernel c, ctxs := xs, coll := st.coll, what := st.what, root := st.root
                         stripe := st.stripe, seg := n, metaBytes := bytes, count := hdrCount bytes, metaBuf := b }
  ((s.setTile t { v with events := v.events ++ [e], passes := v.passes ++ keys, buffers := v.buffers ++ [b] }).reserve 0x08 t 1, (t, b))

def State.deliverMetas (s : State) (c : Coll) (st : Stream) (n : Nat) (bytes : List Byte) : List Nat → State × List (Nat × Nat)
  | [] => (s, [])
  | t :: ts =>
    let (s, tb) := s.deliverMeta c st n bytes t
    let (s, rest) := s.deliverMetas c st n bytes ts
    (s, tb :: rest)

/-- The vector segments that tiles need, as far as they have answered. -/
def State.needOf (s : State) (e : Nat) (tiles : List (Nat × Nat)) : Nat := tiles.foldl (fun m tb => m ||| (s.tile tb.1).needs tb.2 e) 0

/-- The tiles that take part in a stripe, each once. -/
def State.stripeTiles (s : State) (st : Stream) (part : List Nat) : List Nat :=
  once (part.filterMap fun x => (s.ctx? x).bind fun q => q.tileFor st.what st.stripe)

/-- The metadata segment of the stripe arrives. -/
def State.metaArrives (s : State) (i : Nat) (st : Stream) (c : Coll) (n : Nat) (bytes : List Byte) : State :=
  let wanting := (st.waiters.filter fun w => w.stripes.contains st.stripe).map (·.ctx)
  let able := s.payers 1024 64 (once (wanting.map (s.payer c)))
  let part := wanting.filter fun x => able.contains (s.payer c x)
  let tiles := s.stripeTiles st part
  if part = [] ∨ tiles.any (fun t => (s.tile t).freeBuffer.isNone) then s
  else
    let s := (s.payAll 1024 able).returnTag st
    let s := if st.tag.isSome then s.modSeg n fun v => { v with tags := v.tags - 1 } else s
    let st := { st with part := part, tag := none, metaBytes := bytes, seg := n }
    let (s, tbs) := s.deliverMetas c st n bytes tiles
    let plain := st.what == .centroids || part.all fun x => ((s.ctx? x).map fun q => q.terms == 0).getD true
    let need := if st.what = .centroids then 2 ^ hdrV bytes - 1 else if plain then s.needOf (geoE c.vecBytes) tbs else 0
    let st := { st with tiles := tbs, tilesDue := if plain then [] else tiles, need := need, phase := if plain then .vectorsDue else .needDue }
    let s := s.setStream i (some st)
    if plain ∧ need = 0 then s.finishStripe i st else s

/-- A vector segment reaches the tiles that need it: VEC waits at each (R105, R228). -/
def State.deliverVec (s : State) (c : Coll) (st : Stream) (v : Nat) (bytes : List Byte) (tb : Nat × Nat) : State :=
  let e := geoE c.vecBytes
  let t := s.tile tb.1
  let b := t.freeBuffer.getD 0
  let n := hdrCount st.metaBytes
  let xs := st.part.filter fun x => ((s.ctx? x).bind fun q => q.tileFor st.what st.stripe) == some tb.1
  let ev : TileEvent := { kind := .vec, kernel := st.what.kernel c, ctxs := xs, coll := st.coll, what := st.what, root := st.root, stripe := st.stripe
                          seg := st.seg, metaBytes := st.metaBytes, vecBytes := bytes, vecIndex := v, first := v * e, count := min e (n - v * e)
                          metaBuf := tb.2, vecBuf := b + 1 }
  (s.setTile tb.1 { t with events := t.events ++ [ev], buffers := t.buffers ++ [b] }).reserve 0x08 tb.1 1

/-- The lowest bit set in a mask of 32. -/
def lowestBit (m : Nat) : Option Nat := (List.range 32).find? fun i => m.testBit i

/-- A vector segment of the stripe arrives. -/
def State.vecArrives (s : State) (i : Nat) (st : Stream) (c : Coll) (v : Nat) (bytes : List Byte) : State :=
  let bs := once (st.part.map (s.payer c))
  let takes := st.tiles.filter fun tb => st.what == .centroids || ((s.tile tb.1).needs tb.2 (geoE c.vecBytes)).testBit v
  if !((shares 1024 bs).all fun p => s.canPay p.1 p.2) || takes.any (fun tb => (s.tile tb.1).freeBuffer.isNone) then s
  else
    let s := s.payAll 1024 bs
    let s := takes.foldl (fun s tb => s.deliverVec c st v bytes tb) s
    let st := { st with need := st.need - 2 ^ v }
    let s := s.setStream i (some st)
    if st.need = 0 then s.finishStripe i st else s

/-- The next segment of stream `i` arrives. -/
def State.deliver (s : State) (i : Nat) (found : BurstRead) (fromSlot : List Byte) : State :=
  match s.sched.streams[i]? with
  | none => s
  | some st =>
    match s.coll? st.coll with
    | none => s
    | some c =>
      if !st.issued then s
      else match st.phase with
        | .needDue => s
        | .metaDue =>
          match s.stripeSeg c st with
          | none => s.finishStripe i { st with part := st.waiters.map (·.ctx) }
          | some n =>
            match s.readSegment n found fromSlot with
            | .wait s => s
            | .damaged s => s.streamDamaged st
            | .bytes bs s' =>
              if headerOk (bs.take 256) st.what.headerType st.coll then s'.metaArrives i st c n bs
              else (s'.quarantine n true).streamDamaged st
        | .vectorsDue =>
          match lowestBit st.need with
          | none => s.finishStripe i st
          | some v =>
            match s.readSegment (hdrVec st.metaBytes v) found fromSlot with
            | .wait s => s
            | .damaged s => s.streamDamaged st
            | .bytes bs s' => s'.vecArrives i st c v bs

/-- SEGMENT_DELIVERY (R105). -/
def execSegmentDelivery (i : Nat) (found : BurstRead) (fromSlot : List Byte) (s : State) : Host.Outcome State Fault Refusal :=
  .next (s.deliver i found fromSlot)

/-! ## NEED_MASK (R105, R228) -/

/-- The tile has returned from META of the stripe. -/
def State.maskReady (s : State) (t : Nat) (st : Stream) : Bool :=
  st.tilesDue.contains t && st.tiles.any fun tb => tb.1 == t &&
    !((s.tile t).events.any fun e => e.kind == .metaSeg && e.metaBuf == tb.2) &&
    !(((s.tile t).running.map fun e => e.kind == .metaSeg && e.metaBuf == tb.2).getD false)

/-- NEED_MASK (R105): the tile's mask; after the last one the vector segments follow. -/
def execNeedMask (t : Fin 256) (s : State) : Host.Outcome State Fault Refusal :=
  .next (match s.sched.streams.findIdx? (s.maskReady t.val) with
    | none => s
    | some i =>
      match s.sched.streams[i]?, (s.sched.streams[i]?).bind fun st => s.coll? st.coll with
      | some st, some c =>
        let mine := st.tiles.filter fun tb => tb.1 == t.val
        let st := { st with tilesDue := st.tilesDue.erase t.val, need := st.need ||| s.needOf (geoE c.vecBytes) mine }
        let st := if st.tilesDue = [] then { st with phase := .vectorsDue } else st
        let s := s.setStream i (some st)
        if st.tilesDue = [] ∧ st.need = 0 then s.finishStripe i st else s
      | _, _ => s)

end Sys2Proof.Machine
end

