-- ==== Sys2Proof/Machine/Rv32.lean ====
section
/-! DEFINITION. The control core of a tile: the kernel's address windows (R226), the calling convention (R228), and RV32IMC.
The manual names RV32IMC and the standard calling convention without restating them: they follow the RISC-V standard
(PRESUMED, log entry 16). -/

namespace Sys2Proof.Machine

/-! ## Decoding -/

/-- A decoded instruction of the core. -/
inductive Rv
  | lui (rd : Nat) (imm : BitVec 32)
  | auipc (rd : Nat) (imm : BitVec 32)
  | jal (rd : Nat) (off : BitVec 32)
  | jalr (rd rs1 : Nat) (off : BitVec 32)
  | branch (f3 rs1 rs2 : Nat) (off : BitVec 32)
  | load (f3 rd rs1 : Nat) (off : BitVec 32)
  | store (f3 rs1 rs2 : Nat) (off : BitVec 32)
  | opImm (f3 rd rs1 : Nat) (imm : BitVec 32)
  | op (f3 f7 rd rs1 rs2 : Nat)
  | fence
  | ext (w : Nat)
  | illegal
  deriving DecidableEq, Repr

/-- An `n`-bit two's-complement number as a word. -/
def sext (n v : Nat) : BitVec 32 := (BitVec.ofNat n v).signExtend 32

def immI (w : Nat) : BitVec 32 := sext 12 (bits w 31 20)
def immS (w : Nat) : BitVec 32 := sext 12 (bits w 31 25 * 32 + bits w 11 7)
def immB (w : Nat) : BitVec 32 := sext 13 (bits w 31 31 * 4096 + bits w 7 7 * 2048 + bits w 30 25 * 32 + bits w 11 8 * 2)
def immU (w : Nat) : BitVec 32 := BitVec.ofNat 32 (bits w 31 12 * 4096)
def immJ (w : Nat) : BitVec 32 := sext 21 (bits w 31 31 * 2 ^ 20 + bits w 19 12 * 4096 + bits w 20 20 * 2048 + bits w 30 21 * 2)

/-- A 32-bit instruction. -/
def decode32 (w : Nat) : Rv :=
  let op := bits w 6 0
  let rd := bits w 11 7
  let f3 := bits w 14 12
  let r1 := bits w 19 15
  let r2 := bits w 24 20
  let f7 := bits w 31 25
  if op = 0x37 then .lui rd (immU w)
  else if op = 0x17 then .auipc rd (immU w)
  else if op = 0x6F then .jal rd (immJ w)
  else if op = 0x67 then (if f3 = 0 then .jalr rd r1 (immI w) else .illegal)
  else if op = 0x63 then (if f3 = 2 ∨ f3 = 3 then .illegal else .branch f3 r1 r2 (immB w))
  else if op = 0x03 then (if [0, 1, 2, 4, 5].contains f3 then .load f3 rd r1 (immI w) else .illegal)
  else if op = 0x23 then (if f3 < 3 then .store f3 r1 r2 (immS w) else .illegal)
  else if op = 0x13 then
    (if f3 = 1 then (if f7 = 0 then .op 1 0x40 rd r1 r2 else .illegal)
     else if f3 = 5 then (if f7 = 0 then .op 5 0x40 rd r1 r2 else if f7 = 0x20 then .op 5 0x60 rd r1 r2 else .illegal)
     else .opImm f3 rd r1 (immI w))
  else if op = 0x33 then
    (if f7 = 0 ∨ f7 = 1 ∨ (f7 = 0x20 ∧ (f3 = 0 ∨ f3 = 5)) then .op f3 f7 rd r1 r2 else .illegal)
  else if op = 0x0F then (if f3 = 0 then .fence else .illegal)
  else if op = 0x0B ∨ op = 0x2B ∨ op = 0x5B then .ext w
  else .illegal

/-- A 16-bit instruction (extension C for RV32, integer forms only). -/
def decode16 (h : Nat) : Rv :=
  let rd := bits h 11 7
  let r2 := bits h 6 2
  let rc := 8 + bits h 9 7
  let rc2 := 8 + bits h 4 2
  let imm6 := bits h 12 12 * 32 + bits h 6 2
  let jImm := sext 12 (bits h 12 12 * 2048 + bits h 8 8 * 1024 + bits h 10 9 * 256 + bits h 6 6 * 128 + bits h 7 7 * 64 + bits h 2 2 * 32
    + bits h 11 11 * 16 + bits h 5 3 * 2)
  let bImm := sext 9 (bits h 12 12 * 256 + bits h 6 5 * 64 + bits h 2 2 * 32 + bits h 11 10 * 8 + bits h 4 3 * 2)
  let lwImm := BitVec.ofNat 32 (bits h 5 5 * 64 + bits h 12 10 * 8 + bits h 6 6 * 4)
  let f := bits h 15 13
  match bits h 1 0 with
  | 0 =>
    let n := bits h 10 7 * 64 + bits h 12 11 * 16 + bits h 5 5 * 8 + bits h 6 6 * 4
    if f = 0 then (if n = 0 then .illegal else .opImm 0 rc2 2 (BitVec.ofNat 32 n))
    else if f = 2 then .load 2 rc2 rc lwImm
    else if f = 6 then .store 2 rc rc2 lwImm
    else .illegal
  | 1 =>
    if f = 0 then .opImm 0 rd rd (sext 6 imm6)
    else if f = 1 then .jal 1 jImm
    else if f = 2 then .opImm 0 rd 0 (sext 6 imm6)
    else if f = 3 then
      (if imm6 = 0 then .illegal
       else if rd = 2 then .opImm 0 2 2 (sext 10 (bits h 12 12 * 512 + bits h 4 3 * 128 + bits h 5 5 * 64 + bits h 2 2 * 32 + bits h 6 6 * 16))
       else .lui rd (sext 18 (imm6 * 4096)))
    else if f = 4 then
      (if bits h 11 10 = 0 then (if bits h 12 12 = 1 then .illegal else .op 5 0x40 rc rc r2)
       else if bits h 11 10 = 1 then (if bits h 12 12 = 1 then .illegal else .op 5 0x60 rc rc r2)
       else if bits h 11 10 = 2 then .opImm 7 rc rc (sext 6 imm6)
       else if bits h 12 12 = 1 then .illegal
       else if bits h 6 5 = 0 then .op 0 0x20 rc rc rc2
       else if bits h 6 5 = 1 then .op 4 0 rc rc rc2
       else if bits h 6 5 = 2 then .op 6 0 rc rc rc2
       else .op 7 0 rc rc rc2)
    else if f = 5 then .jal 0 jImm
    else if f = 6 then .branch 0 rc 0 bImm
    else .branch 1 rc 0 bImm
  | 2 =>
    if f = 0 then (if bits h 12 12 = 1 then .illegal else .op 1 0x40 rd rd r2)
    else if f = 2 then (if rd = 0 then .illegal else .load 2 rd 2 (BitVec.ofNat 32 (bits h 3 2 * 64 + bits h 12 12 * 32 + bits h 6 4 * 4)))
    else if f = 4 then
      (if bits h 12 12 = 0 then
         (if r2 ≠ 0 then .op 0 0 rd 0 r2 else if rd = 0 then .illegal else .jalr 0 rd 0)
       else if r2 ≠ 0 then .op 0 0 rd rd r2
       else if rd = 0 then .illegal else .jalr 1 rd 0)
    else if f = 6 then .store 2 2 r2 (BitVec.ofNat 32 (bits h 8 7 * 64 + bits h 12 9 * 4))
    else .illegal
  | _ => .illegal

/-! ## The windows of R226 -/

/-- The invocation's queries: context and query slot (R226). -/
def State.invQueries (s : State) (t : Nat) (e : TileEvent) : List (Nat × Nat) :=
  (s.tile t).slots.filterMap fun p => if e.ctxs.contains p.2 then some (p.2, p.1) else none

/-- The query that holds a slot of the tile among the invocation's; none when its context is gone before the tile has
retired it. -/
def State.slotQuery (s : State) (t x i : Nat) : Option Ctx := (s.ctx? x).bind fun q => if q.tiles.contains (t, i) then some q else none

/-- The collection of the invocation. -/
def State.invColl (s : State) (e : TileEvent) : Option Coll :=
  ((e.ctxs.head?.bind s.ctx?).bind fun q => s.coll? q.coll).or (s.coll? e.coll)

/-- The descriptor of a query slot (R229). -/
def descriptor (q : Ctx) (c : Coll) : List Byte :=
  toLE 2 (q.coll + 32768) ++ toLE 2 c.dim ++ toLE 1 c.ty.code ++ toLE 1 c.kernel ++ toLE 2 q.k
    ++ toLE 4 ((q.tau.map Prod.fst).getD 0xFFFFFFFF) ++ toLE 6 ((q.tau.map Prod.snd).getD Config.noSequence) ++ zeros 2 ++ toLE 4 q.day
    ++ toLE 8 (storedNorm c.ty (elements c.ty c.dim q.vec)) ++ zeros 32

/-- Bytes of a window, those it does not define being open. -/
def openBytes (bs : List Byte) (base off n : Nat) : List Byte :=
  (List.range n).map fun i => bs.getD (off + i) (BitVec.ofNat 8 (Config.openValue 1 (base + off + i)))

/-- The bytes of a stream buffer that the event concerns. -/
def TileEvent.buffer (e : TileEvent) (b : Nat) : Option (List Byte) :=
  if e.kind = .pblock then (if b = 2 then some (e.metaBytes.take 65536) else if b = 3 then some (e.metaBytes.drop 65536) else none)
  else if e.kind = .metaSeg then (if b = e.metaBuf then some e.metaBytes else none)
  else if e.kind = .vec then (if b = e.metaBuf then some e.metaBytes else if b + 1 = e.vecBuf then some e.vecBytes else none)
  else none

/-- What a kernel's load of `n` bytes reads; none outside its windows (R226). -/
def State.tileRead (s : State) (t : Nat) (e : TileEvent) (a n : Nat) : Option (List Byte) :=
  let v := s.tile t
  let own := 0x10080000 + e.kernel * 0x1000
  if own ≤ a ∧ a + n ≤ own + 0x1000 then some (Memory.readN 0 v.mem a n)
  else if 0x10088000 ≤ a ∧ a + n ≤ 0x1008C000 then some (Memory.readN 0 v.mem a n)
  else if 0x10040000 ≤ a ∧ a + n ≤ 0x10080000 then
    let b := (a - 0x10040000) / 0x10000
    let off := (a - 0x10040000) % 0x10000
    if 0x10000 < off + n then none else (e.buffer b).map fun bs => openBytes bs (0x10040000 + b * 0x10000) off n
  else if 0x10090000 ≤ a ∧ a + n ≤ 0x10091000 then
    let i := (a - 0x10090000) / 64
    let off := (a - 0x10090000) % 64
    match (s.invQueries t e).find? fun p => p.2 == i with
    | some p =>
      let bs := ((s.slotQuery t p.1 i).bind fun q => (s.coll? q.coll).map fun c => descriptor q c).getD []
      if 64 < off + n then none else some (openBytes bs (0x10090000 + i * 64) off n)
    | none => none
  else if 0x10000000 ≤ a ∧ a + n ≤ 0x10040000 then
    let stride := 262144 / max (slotCount (((s.invColl e).map Coll.vecBytes).getD 1)) 1
    let i := (a - 0x10000000) / stride
    let off := (a - 0x10000000) % stride
    match (s.invQueries t e).find? fun p => p.2 == i with
    | some p => if stride < off + n then none else some (openBytes (((s.slotQuery t p.1 i).map (·.vec)).getD []) (0x10000000 + i * stride) off n)
    | none => none
  else none

/-- A kernel's store: its own data window and the stack (R226). -/
def Tile.storeAt (v : Tile) (kernel a : Nat) (bs : List Byte) : Option Tile :=
  let own := 0x10080000 + kernel * 0x1000
  let n := bs.length
  if (own ≤ a ∧ a + n ≤ own + 0x1000) ∨ (0x10088000 ≤ a ∧ a + n ≤ 0x1008C000) then some { v with mem := Memory.writeN 0 v.mem a bs }
  else none

/-! ## Registers -/

def Tile.x (v : Tile) (r : Nat) : BitVec 32 := if r = 0 then 0 else Map.getD v.regs r 0
def Tile.setX (v : Tile) (r : Nat) (w : BitVec 32) : Tile := if r = 0 then v else { v with regs := Map.put v.regs r w }
def Tile.d (v : Tile) (r : Nat) : BitVec 64 := Map.getD v.dregs r 0
def Tile.setD (v : Tile) (r : Nat) (w : BitVec 64) : Tile := { v with dregs := Map.put v.dregs r w }

/-- The address a kernel returns to (R225). -/
def returnAddress : BitVec 32 := 0x10000 + 4 * (Config.dispatcherReturn.setWidth 32)

/-- The registers of a call (R228): the arguments, by number, ra, sp; every other one is open. -/
def Tile.call (v : Tile) (draw entry : Nat) (args : List (Nat × BitVec 32)) : Tile :=
  let base := (List.range 31).foldl (fun (v : Tile) i => v.setX (i + 1) (Config.callerRegister (i + 1) draw)) v
  let v := args.foldl (fun (v : Tile) p => v.setX (10 + p.1) p.2) base
  { (v.setX 1 returnAddress).setX 2 0x1008C000 with pc := BitVec.ofNat 32 entry }

/-! ## One instruction -/

/-- How an instruction ends. -/
inductive RvOut
  | ok (v : Tile)
  | fault (cause : Nat)

/-- Register operations; funct7 values 0x40 and 0x60 stand for the immediate shifts. -/
def rvOp (f3 f7 : Nat) (a b : BitVec 32) (sh : Nat) : BitVec 32 :=
  if f7 = 0x40 then (if f3 = 1 then a <<< sh else a >>> sh)
  else if f7 = 0x60 then a.sshiftRight sh
  else if f7 = 1 then
    match f3 with
    | 0 => a * b
    | 1 => BitVec.ofInt 32 (a.toInt * b.toInt / 2 ^ 32)
    | 2 => BitVec.ofInt 32 (a.toInt * (b.toNat : Int) / 2 ^ 32)
    | 3 => BitVec.ofNat 32 (a.toNat * b.toNat / 2 ^ 32)
    | 4 => if b = 0 then BitVec.allOnes 32 else BitVec.ofInt 32 (a.toInt.tdiv b.toInt)
    | 5 => if b = 0 then BitVec.allOnes 32 else a / b
    | 6 => if b = 0 then a else BitVec.ofInt 32 (a.toInt.tmod b.toInt)
    | _ => if b = 0 then a else a % b
  else match f3 with
    | 0 => if f7 = 0x20 then a - b else a + b
    | 1 => a <<< (b.toNat % 32)
    | 2 => if a.slt b then 1 else 0
    | 3 => if a.ult b then 1 else 0
    | 4 => a ^^^ b
    | 5 => if f7 = 0x20 then a.sshiftRight (b.toNat % 32) else a >>> (b.toNat % 32)
    | 6 => a ||| b
    | _ => a &&& b

/-- A branch is taken. -/
def rvTaken (f3 : Nat) (a b : BitVec 32) : Bool :=
  match f3 with
  | 0 => a == b
  | 1 => a != b
  | 4 => a.slt b
  | 5 => !a.slt b
  | 6 => a.ult b
  | _ => !a.ult b

/-- Bytes of a load or store by funct3. -/
def rvSize (f3 : Nat) : Nat := if f3 % 4 = 0 then 1 else if f3 % 4 = 1 then 2 else 4

/-- A loaded value, extended as funct3 says. -/
def rvExtend (f3 v : Nat) : BitVec 32 := if f3 = 0 then sext 8 v else if f3 = 1 then sext 16 v else BitVec.ofNat 32 v

/-- One base instruction of `len` bytes. -/
def State.rvExec (s : State) (t : Nat) (e : TileEvent) (len : Nat) (i : Rv) : RvOut :=
  let v := s.tile t
  let next := v.pc + BitVec.ofNat 32 len
  let at_ := fun (v : Tile) (pc : BitVec 32) => RvOut.ok { v with pc := pc }
  match i with
  | .lui rd imm => at_ (v.setX rd imm) next
  | .auipc rd imm => at_ (v.setX rd (v.pc + imm)) next
  | .jal rd off => at_ (v.setX rd next) (v.pc + off)
  | .jalr rd r1 off => at_ (v.setX rd next) ((v.x r1 + off) &&& 0xFFFFFFFE)
  | .branch f3 r1 r2 off => at_ v (if rvTaken f3 (v.x r1) (v.x r2) then v.pc + off else next)
  | .load f3 rd r1 off =>
    let a := (v.x r1 + off).toNat
    let n := rvSize f3
    if a % n ≠ 0 then .fault 2
    else match s.tileRead t e a n with
      | some bs => at_ (v.setX rd (rvExtend f3 (leNat bs))) next
      | none => .fault 2
  | .store f3 r1 r2 off =>
    let a := (v.x r1 + off).toNat
    let n := rvSize f3
    if a % n ≠ 0 then .fault 2
    else match v.storeAt e.kernel a (toLE n (v.x r2).toNat) with
      | some v => at_ v next
      | none => .fault 2
  | .opImm f3 rd r1 imm => at_ (v.setX rd (rvOp f3 0 (v.x r1) imm 0)) next
  | .op f3 f7 rd r1 r2 => at_ (v.setX rd (rvOp f3 f7 (v.x r1) (v.x r2) r2)) next
  | .fence => at_ v next
  | .ext _ => .fault 1
  | .illegal => .fault 1

/-- The instruction at the program counter: its length and form; none outside the slot's text window (R226). -/
def State.rvFetch (s : State) (t : Nat) (e : TileEvent) : Option (Nat × Rv) :=
  let base := e.kernel * 0x2000
  let pc := (s.tile t).pc.toNat
  let text := (s.kernel e.kernel).text
  if pc < base ∨ base + 0x2000 < pc + 2 then none
  else
    let h := field (padTo 8192 text) (pc - base) 2
    if h % 4 = 3 then
      if base + 0x2000 < pc + 4 then none else some (4, decode32 (field (padTo 8192 text) (pc - base) 4))
    else some (2, decode16 h)

end Sys2Proof.Machine
end

