-- ==== Sys2Proof/Machine/Forager.lean ====
section
/-! DEFINITION. The tiles: events and their invocations, the contract of the standard kernels, posts, kernel faults, and the
commands of the dispatcher and of the sorter's intake (R10, R73, R97, R106, R108, R228, R231, R239 to R241, R247). -/

namespace Sys2Proof.Machine

/-! ## Events and invocations (R228) -/

/-- The slot holds one of Walotte's kernels (R227). -/
def standardKernel (k : Nat) : Bool := decide (k < 4)

/-- The base address of a stream buffer (Table 9.2). -/
def bufferBase (b : Nat) : Nat := 0x10040000 + b * 0x10000

/-- The arguments of an event, by number (Table 9.5). -/
def State.eventArgs (s : State) (t : Nat) (e : TileEvent) : List (Nat × BitVec 32) :=
  let w := fun (n : Nat) => BitVec.ofNat 32 n
  match e.kind with
  | .queryIn => [(0, w 1), (1, w e.first)]
  | .metaSeg => [(0, w (2 + 16 * e.metaBuf)), (1, w (bufferBase e.metaBuf)), (4, w e.count)]
  | .vec => [(0, w (3 + 16 * (e.vecBuf - 1) + 64 * e.metaBuf + 256 * e.vecIndex)), (1, w (bufferBase e.metaBuf)),
             (2, w (bufferBase (e.vecBuf - 1))), (3, w e.first), (4, w e.count)]
  | .pblock =>
    let n := geoN (((s.invColl e).map Coll.vecBytes).getD 0)
    [(0, w (4 + 16 * 2)), (1, w (bufferBase 2)), (2, w (bufferBase 2 + 256 + 64 * n)), (3, 0), (4, w n)]
  | .retire => [(0, w 5), (1, w e.first)]
  | .msg => [(0, w 6), (4, w ((s.tile t).recvQueue.filter fun m => m.kernel == e.kernel).length)]

/-- The dispatcher calls an entry of a kernel for an event. -/
def State.call (s : State) (t : Nat) (e : TileEvent) (entry : Nat) (args : List (Nat × BitVec 32)) : State :=
  let v := (s.tile t).call s.draws entry args
  (s.draw.2).setTile t { v with running := some e, started := s.clk.now, invocations := v.invocations + 1 }

/-- An event has been dealt with: what it held returns (R50, R228). -/
def State.eventDone (s : State) (t : Nat) (e : TileEvent) : State :=
  match e.kind with
  | .queryIn => s
  | .metaSeg => s.releaseMeta t e.metaBuf
  | .vec => (s.freeBuffer t (e.vecBuf - 1)).releaseMeta t e.metaBuf
  | .pblock =>
    let v := s.tile t
    let mine := (s.invQueries t e).map Prod.snd
    s.setTile t { v with passes := v.passes.filter fun k => !(k / 64 / 2048 == e.metaBuf && mine.contains (k % 64)) }
  | .retire =>
    let v := s.tile t
    if (Map.get? v.slots e.first).isSome then (s.setTile t { v with slots := Map.del v.slots e.first }).giveBack 0x09 t 1 else s
  | .msg => s

/-- The invocation in progress ends. -/
def State.endInvocation (s : State) (t : Nat) : State :=
  match (s.tile t).running with
  | none => s
  | some e => (s.setTile t { s.tile t with running := none }).eventDone t e

/-- The event at the head of a tile's queue, if it is of the kind and nothing runs, with the state without it. -/
def State.nextEvent (s : State) (t : Nat) (kind : TileEventKind) : Option (TileEvent × State) :=
  let v := s.tile t
  match v.running, v.events with
  | none, e :: rest => if e.kind = kind then some (e, s.setTile t { v with events := rest }) else none
  | _, _ => none

/-! ## Posts (R50, R106, R239) -/

/-- A post credit of a sorter is free for the tile: 4 per tile, 1,024 in all (R50). -/
def State.postFree (s : State) (t sorter : Nat) : Bool :=
  decide (s.used 0x0A sorter < Config.postCredits) && decide ((s.sched.posts.filter fun p => p.1 == sorter && p.2.2.tile == t).length < 4)

/-- The locator of record `i` of an event's stripe or block (R106). -/
def TileEvent.locator (e : TileEvent) (t i : Nat) : Nat := if e.kind = .pblock then t + i * 2 ^ 24 + 2 ^ 35 else e.seg % 2 ^ 24 + i * 2 ^ 24

/-- The list that a part of a collection is. -/
def StreamOf.list? (w : StreamOf) : Option Nat :=
  match w with
  | .list l => some l
  | _ => none

/-- Record `i` of an event's stripe or block. -/
def TileEvent.record (e : TileEvent) (i : Nat) : List Byte := slice e.metaBytes (256 + 64 * i) 64

/-- The pass bit of a record for a slot. -/
def Tile.passBit (v : Tile) (metaBuf i slot : Nat) : Bool := v.passes.contains ((metaBuf * 2048 + i) * 64 + slot)

/-- The candidate is better than the τ that the tile was sent for the wave (R106). -/
def Ctx.beatsTau (q : Ctx) (key seq : Nat) : Bool :=
  match q.tau with
  | none => true
  | some (k, u) => better key seq k u

/-- The candidate that record `i` gives with an order key. -/
def State.candOf (s : State) (t : Nat) (e : TileEvent) (q : Ctx) (i key : Nat) : Cand :=
  { key := key, seq := recSeq (e.record i), ref := e.locator t i, list := e.what.list?, wave := q.waves, tile := t, invocation := (s.tile t).invocations }

/-- A candidate is on its way to its query's sorter, with a post credit. -/
def State.postCand (s : State) (x : Nat) (q : Ctx) (c : Cand) : State :=
  ({ s with sched := { s.sched with posts := s.sched.posts ++ [(q.sorterNo, x, c)] } }).reserve 0x0A q.sorterNo 1

/-! ## SCAN: the contract of slot 0 for the standard metrics (R10, R95, R106) -/

/-- The vector of record `i` of the event. -/
def TileEvent.vector (e : TileEvent) (b i : Nat) : List Byte := slice e.vecBytes ((i - e.first) * b) b

/-- SCAN scores record `i` for one query; none while a post credit is missing. -/
def State.scanOne (s : State) (t : Nat) (e : TileEvent) (c : Coll) (i x slot : Nat) : Option State :=
  if !(s.tile t).passBit e.metaBuf i slot then some s
  else match s.ctx? x with
    | none => some s
    | some q =>
      let rec_ := e.record i
      let key := rankOrderKey c.metric (score c.metric c.ty (elements c.ty c.dim q.vec) (elements c.ty c.dim (e.vector c.vecBytes i)) (recNorm rec_))
      if !q.beatsTau key (recSeq rec_) then some s
      else if s.postFree t q.sorterNo then some (s.postCand x q (s.candOf t e q i key)) else none

/-- SCAN over (record, query, slot) triples: how many it has done, and whether it came to the end. -/
def State.scanAll (s : State) (t : Nat) (e : TileEvent) (c : Coll) : List (Nat × Nat × Nat) → Nat → State × Nat × Bool
  | [], n => (s, n, true)
  | (i, x, slot) :: rest, n =>
    match s.scanOne t e c i x slot with
    | some s => s.scanAll t e c rest (n + 1)
    | none => (s, n, false)

/-- The (record, query, slot) triples of an event, in order. -/
def State.scanPairs (s : State) (t : Nat) (e : TileEvent) : List (Nat × Nat × Nat) :=
  let qs := s.invQueries t e
  ((List.range e.count).map fun i => qs.map fun p => (e.first + i, p.1, p.2)).flatten

/-- SCAN takes the event at the head of its tile as far as post credits go. -/
def State.scanEvent (s : State) (t : Nat) (e : TileEvent) (popped : State) : State :=
  match s.invColl e with
  | none => popped.eventDone t e
  | some c =>
    let (s, n, all) := s.scanAll t e c ((s.scanPairs t e).drop e.done) e.done
    let v := s.tile t
    if all then (s.setTile t { v with events := v.events.drop 1, invocations := v.invocations + 1 }).eventDone t e
    else s.setTile t { v with events := v.events.modify 0 fun e => { e with done := n } }

/-! ## Kernel faults (R240, R241) -/

/-- The queries of a faulted invocation: its candidates are withdrawn, and its part of the wave never counts as scanned. -/
def State.faultQuery (s : State) (t inv : Nat) (what : StreamOf) (x : Nat) : State :=
  let mine := fun (p : Nat × Nat × Cand) => p.2.1 == x && p.2.2.tile == t && p.2.2.invocation == inv
  let gone := s.sched.posts.filter mine
  let kept := s.sched.posts.filter fun p => !mine p
  let s := gone.foldl (fun (s : State) p => s.giveBack 0x0A p.1 1) { s with sched := { s.sched with posts := kept } }
  s.modCtx x fun q => { q with sorter := q.sorter.withdraw fun d => !d.remote && d.tile == t && d.invocation == inv
                               blocked := q.blocked ++ [what.list?] }

/-- A kernel slot faults on a tile: the mark, the event and the counter. -/
def State.markFault (s : State) (t kernel cause pc : Nat) : State :=
  let v := s.tile t
  let s := s.setTile t { v with faulted := if v.faulted.contains kernel then v.faulted else v.faulted ++ [kernel] }
  let s := { s with grid := { s.grid with faults := (s.grid.faults + 1) % 2 ^ 32 } }
  s.logEvent 0x0700 (toLE 1 (t % 16) ++ toLE 1 (t / 16) ++ toLE 1 kernel ++ toLE 1 cause ++ toLE 4 pc)

/-- The running invocation ends with a kernel fault. -/
def State.kernelFault (s : State) (t cause : Nat) : State :=
  let v := s.tile t
  match v.running with
  | none => s
  | some e =>
    let s := s.markFault t e.kernel cause v.pc.toNat
    let hit := if e.kind = .metaSeg ∨ e.kind = .vec ∨ e.kind = .pblock then e.ctxs else []
    (hit.foldl (fun (s : State) x => s.faultQuery t v.invocations e.what x) s).endInvocation t

/-- The CCLK frequency in MHz (R46, R338). -/
def State.cclkMHz (s : State) : Nat := 1600 - 200 * s.gov.cclk

/-- KernelTimeLimit in µs. -/
def State.kernelLimit (s : State) : Nat := s.cfg 0x2140 1

/-! ## RANK: the contract of slot 1 (R73, R97) -/

/-- The lists of a centroid stripe's vector segment, by record. -/
def rankList (c : Coll) (e : TileEvent) (i : Nat) : Nat := e.stripe * geoC c.vecBytes + i

/-- RANK's bound of record `i` for a query under a standard metric: none for an EMPTY list (R74). -/
def rankOne (c : Coll) (e : TileEvent) (q : Ctx) (i : Nat) : Option Ranked :=
  let r := e.record i
  if boundEmpty r then none
  else
    let key := boundKey c.metric c.ty (elements c.ty c.dim q.vec) (elements c.ty c.dim (e.vector c.vecBytes i)) (boundParam r)
    some { key := key, list := rankList c e i, minSeq := boundMin r, owner := ownerOf c.shards (rankList c e i) }

/-- RANK over a vector segment of centroids, for every query of the event. -/
def State.rankStandard (s : State) (t : Nat) (e : TileEvent) (c : Coll) : State :=
  (s.invQueries t e).foldl (fun (s : State) p => s.modCtx p.1 fun q =>
    { q with ranks := q.ranks ++ (List.range e.count).filterMap fun i => rankOne c e q (e.first + i) }) s

/-! ## Commands -/

/-- Events that a standard kernel returns from at once, and those that call a custom kernel's scan entry. -/
def State.simpleEvent (s : State) (t : Nat) (kind : TileEventKind) : State :=
  match s.nextEvent t kind with
  | none => s
  | some (e, s) =>
    if standardKernel e.kernel ∨ (e.ctxs = [] ∧ kind ≠ .msg) then s.eventDone t e
    else s.call t e (s.kernel e.kernel).entry (s.eventArgs t e)

/-- QUERY_IN (R228). -/
def execQueryIn (t : Fin 256) (s : State) : Host.Outcome State Fault Refusal := .next (s.simpleEvent t.val .queryIn)

/-- META (R228): a standard kernel returns at once. -/
def execMetaEvent (t : Fin 256) (s : State) : Host.Outcome State Fault Refusal := .next (s.simpleEvent t.val .metaSeg)

/-- RETIRE (R228): the query's slot on the tile is free when the entry has returned. -/
def execRetire (t : Fin 256) (s : State) : Host.Outcome State Fault Refusal := .next (s.simpleEvent t.val .retire)

/-- The oldest USER message on its way from a tile to another (R231). -/
def State.mail (s : State) (from_ t : Nat) : Option (UserMsg × List UserMsg) :=
  takeFirst (fun m => m.dest == t) (s.tile from_).sendQueue

/-- A USER message arrives while the receive queue has room: which sender's comes first is open (R231). -/
def State.deliverMail (s : State) (t : Nat) : State :=
  if 32 ≤ (s.tile t).recvQueue.length then s
  else
    let senders := (List.range 256).filter fun u => (s.mail u t).isSome
    match senders[s.draw.1 % max senders.length 1]? with
    | none => s
    | some u =>
      match s.mail u t with
      | none => s
      | some (m, rest) =>
        let s := (s.draw.2).setTile u { s.tile u with sendQueue := rest }
        let v := s.tile t
        s.setTile t { v with recvQueue := v.recvQueue ++ [m], events := v.events ++ [{ kind := .msg, kernel := m.kernel }] }

/-- MSG (R231): a message arrives, and the dispatcher calls the kernel. -/
def execMsgEvent (t : Fin 256) (s : State) : Host.Outcome State Fault Refusal := .next ((s.deliverMail t.val).simpleEvent t.val .msg)

/-- The time an invocation has run is above KernelTimeLimit. -/
def State.overTime (s : State) (t : Nat) : Bool :=
  (s.tile t).running.isSome && decide (s.kernelLimit < s.clk.now - (s.tile t).started)

/-- KERNEL_TIME_LIMIT (R240). -/
def execKernelTimeLimit (t : Fin 256) (s : State) : Host.Outcome State Fault Refusal :=
  .next (if s.overTime t.val then s.kernelFault t.val 5 else s)

/-- The sorter consumes its oldest post: the candidate enters its query's sorter, and the credit returns (R50, R108). -/
def State.consumePost (s : State) (n : Nat) : State :=
  match takeFirst (fun p => p.1 == n) s.sched.posts with
  | none => s
  | some ((_, x, cand), rest) =>
    let s := { s with sched := { s.sched with posts := rest } }.giveBack 0x0A n 1
    s.modCtx x fun q => if q.phase = .wave then { q with sorter := q.sorter.post cand } else q

/-- SORTER_POST (R108). -/
def execSorterPost (sorter : Fin 16) (s : State) : Host.Outcome State Fault Refusal := .next (s.consumePost sorter.val)

end Sys2Proof.Machine
end

