-- ==== Sys2Proof/Machine/Ext.lean ====
section
/-! DEFINITION. The Riltia scan extension (R231 to R239), the instructions of a running invocation, and the bound and cover
entries of custom kernels (R247). -/

namespace Sys2Proof.Machine

/-! ## Encodings (R232, Table 9.7) -/

/-- The extension's instructions. -/
inductive ExtOp
  | qsel | xdot | xdsq | xrd32 | xrd64 | xastat | xfop | xf32 | xfmvDx | xfmvXd | xfcmp | xkey | xfcv
  | xpass | xpclr | xpost | xmsend | xmrecv
  deriving DecidableEq, Repr

def fRd (w : Nat) : Nat := bits w 11 7
def fR1 (w : Nat) : Nat := bits w 19 15
def fR2 (w : Nat) : Nat := bits w 24 20
def fF3 (w : Nat) : Nat := bits w 14 12
def fF7 (w : Nat) : Nat := bits w 31 25
/-- A field that names a d-register. -/
def dOk (r : Nat) : Bool := decide (r < 8)
/-- Mode 11 is illegal. -/
def modeOk (w : Nat) : Bool := fF7 w % 4 != 3

/-- The instruction a word encodes: none for an encoding that R232 makes illegal. -/
def extOp (w : Nat) : Option ExtOp :=
  let f7 := fF7 w
  let is := fun (ok : Bool) (o : ExtOp) => if ok then some o else none
  match bits w 6 0, fF3 w with
  | 0x0B, 0 => is (decide (f7 < 2) && fRd w == 0 && fR2 w == 0) .qsel
  | 0x0B, 1 => is (!f7.testBit 5) .xdot
  | 0x0B, 2 => is (!f7.testBit 5) .xdsq
  | 0x0B, 4 => is (decide (f7 < 4) && modeOk w && fR2 w == 0) .xrd32
  | 0x0B, 5 => is (decide (f7 < 4) && modeOk w && fR2 w == 0 && dOk (fRd w)) .xrd64
  | 0x0B, 6 => is (f7 == 0) .xastat
  | 0x2B, 0 => is (decide (f7 / 16 < 7) && f7 / 4 % 4 == 0 && modeOk w && dOk (fRd w) && dOk (fR1 w) && dOk (fR2 w)) .xfop
  | 0x2B, 1 => is (decide (f7 < 4) && modeOk w && dOk (fR1 w)) .xf32
  | 0x2B, 2 => is (f7 == 0 && dOk (fRd w)) .xfmvDx
  | 0x2B, 3 => is (decide (f7 < 2) && dOk (fR1 w)) .xfmvXd
  | 0x2B, 4 => is (f7 == 0 && dOk (fR1 w) && dOk (fR2 w)) .xfcmp
  | 0x2B, 5 => is (decide (f7 < 2)) .xkey
  | 0x2B, 6 => is (f7 == 0 && dOk (fRd w)) .xfcv
  | 0x5B, 0 => is (decide (f7 < 2)) .xpass
  | 0x5B, 1 => is (decide (f7 < 2) && fRd w == 0) .xpclr
  | 0x5B, 2 => is (f7 == 0) .xpost
  | 0x5B, 3 => is (f7 == 0) .xmsend
  | 0x5B, 4 => is (f7 == 0) .xmrecv
  | _, _ => none

/-- The rounding of a mode field. -/
def modeOf (w : Nat) : Round :=
  match fF7 w % 4 with
  | 1 => .down
  | 2 => .up
  | _ => .near

/-! ## How an instruction goes -/

/-- The tile after an instruction, a wait, or a kernel fault's cause. -/
inductive ExtOut
  | ok (s : State)
  | wait
  | fault (cause : Nat)

/-- The tile's next state, its program counter past the instruction. -/
def State.stepped (s : State) (t : Nat) (v : Tile) : ExtOut := .ok (s.setTile t { v with pc := v.pc + 4 })

/-! ## The Exact Dot Array (R232 to R235) -/

/-- Fraction bits of a format: the weight of its bit 0 is 2 to minus this (Table 1.1). -/
def AccFormat.frac : AccFormat → Nat
  | .int32 => 0 | .fix96 => 48 | .fix640 => 298

/-- The format of an unweighted sum (Table 1.1). -/
def plainFormat : ElemType → AccFormat
  | .int8 => .int32 | .fp16 => .fix96 | .bf16 => .fix640 | .fp32 => .fix640

/-- The format of a weighted sum (R233). -/
def weightedFormat : ElemType → AccFormat
  | .int8 => .fix96 | _ => .fix640

/-- An accumulator. -/
def Tile.acc (v : Tile) (a : Nat) : Acc := Map.getD v.accs a {}
def Tile.setAcc (v : Tile) (a : Nat) (x : Acc) : Tile := { v with accs := Map.put v.accs a x }

/-- QSEL. -/
def State.qsel (s : State) (t w : Nat) : ExtOut :=
  let v := s.tile t
  s.stepped t { v with operand := some (fF7 w % 2 == 1, (v.x (fR1 w)).toNat) }

/-- The array's query operand: its bytes, or none where the access falls outside the windows of R226. -/
def State.operandBytes (s : State) (t : Nat) (e : TileEvent) (b : Nat) : Option (List Byte) :=
  match (s.tile t).operand with
  | some (true, a) => s.tileRead t e a b
  | some (false, i) =>
    match (s.invQueries t e).find? fun p => p.2 == i with
    | some p => some (openBytes (((s.slotQuery t p.1 i).map (·.vec)).getD []) 0 0 b)
    | none => none
  | none => some (openBytes [] 0 0 b)

/-- One term of a sum, in units of the element type's squared unit (R9). -/
def sumTerm (t : ElemType) (square : Bool) (w q x : Nat) : Int :=
  let a := t.scaled q
  let b := t.scaled x
  (w : Int) * if square then (a - b) * (a - b) else a * b

/-- The exact sum of a vector, with its weights. -/
def exactSum (t : ElemType) (square : Bool) (ws q x : List Nat) : Int :=
  ((ws.zip (q.zip x)).map fun p => sumTerm t square p.1 p.2.1 p.2.2).foldl (· + ·) 0

/-- The weights of XDOT and XDSQ: 1 each where rs2 names x0. -/
def State.weights (s : State) (t : Nat) (e : TileEvent) (r2 dim : Nat) : Option (List Nat) :=
  if r2 = 0 then some (List.replicate dim 1)
  else (s.tileRead t e ((s.tile t).x r2).toNat dim).map fun bs => bs.map BitVec.toNat

/-- What one target accumulator holds after the instruction; an element that is no number leaves the sum open. -/
def Acc.add (x : Acc) (clr : Bool) (f : AccFormat) (ty : ElemType) (square : Bool) (ws q v : List Nat) (draw : Nat) : Acc :=
  let sum := if q.any ty.bad || v.any ty.bad then (Config.openValue 2 draw : Int) else exactSum ty square ws q v * 2 ^ (f.frac - ty.esrFrac)
  { value := (if clr then 0 else x.value) + sum, format := if clr then f else x.format }

/-- Vectors read one after the other with stride b. -/
def State.readVectors (s : State) (t : Nat) (e : TileEvent) (b : Nat) : Nat → Nat → Option (List (List Byte))
  | 0, _ => some []
  | n + 1, a =>
    match s.tileRead t e a b, s.readVectors t e b n (a + b) with
    | some x, some xs => some (x :: xs)
    | _, _ => none

/-- XDOT and XDSQ (R233). -/
def State.arraySum (s : State) (t : Nat) (e : TileEvent) (w : Nat) (square : Bool) : ExtOut :=
  let v := s.tile t
  let n := fF7 w % 32 + 1
  let a := fRd w
  let clr := (fF7 w).testBit 6
  match s.invColl e with
  | none => .fault 3
  | some c =>
    let f := if fR2 w = 0 then plainFormat c.ty else weightedFormat c.ty
    if 32 < a + n then .fault 3
    else if !clr && (List.range n).any (fun j => (v.acc (a + j)).format != f) then .fault 3
    else match s.operandBytes t e c.vecBytes, s.weights t e (fR2 w) c.dim, s.readVectors t e c.vecBytes n (v.x (fR1 w)).toNat with
      | some q, some ws, some xs =>
        let q := elements c.ty c.dim q
        let v := xs.zipIdx.foldl (fun (v : Tile) (x : List Byte × Nat) =>
          v.setAcc (a + x.2) ((v.acc (a + x.2)).add clr f c.ty square ws q (elements c.ty c.dim x.1) (s.draws + x.2))) v
        { s with draws := s.draws + n }.stepped t v
      | _, _, _ => .fault 2

/-- XDOT. -/
def State.xdot (s : State) (t : Nat) (e : TileEvent) (w : Nat) : ExtOut := s.arraySum t e w false
/-- XDSQ. -/
def State.xdsq (s : State) (t : Nat) (e : TileEvent) (w : Nat) : ExtOut := s.arraySum t e w true

/-- The exact content of an accumulator, rounded once (R235). -/
def Acc.round (x : Acc) (f : Fmt) (r : Round) : Nat := roundDyadic f r x.value (-(x.format.frac : Int))

/-- XRD32. -/
def State.xrd32 (s : State) (t w : Nat) : ExtOut :=
  let v := s.tile t
  s.stepped t (v.setX (fRd w) (BitVec.ofNat 32 ((v.acc (fR1 w)).round .b32 (modeOf w))))

/-- XRD64. -/
def State.xrd64 (s : State) (t w : Nat) : ExtOut :=
  let v := s.tile t
  s.stepped t (v.setD (fRd w) (BitVec.ofNat 64 ((v.acc (fR1 w)).round .b64 (modeOf w))))

/-- XASTAT: the format's code is open. -/
def State.xastat (s : State) (t w : Nat) : ExtOut :=
  let v := s.tile t
  let x := v.acc (fR1 w)
  let code := (Config.accFormatCode (match x.format with
    | .int32 => 0
    | .fix96 => 1
    | .fix640 => 2)).toNat
  s.stepped t (v.setX (fRd w) (BitVec.ofNat 32 ((if x.value = 0 then 1 else 0) + (if x.value < 0 then 2 else 0) + 4 * code)))

/-! ## The binary64 unit (R236, R237) -/

/-- The operation of XFOP. -/
def fopOf (w : Nat) : FOp :=
  match fF7 w / 16 with
  | 0 => .add
  | 1 => .sub
  | 2 => .mul
  | 3 => .div
  | 4 => .sqrt
  | 5 => .min
  | _ => .max

/-- A quiet NaN whose sign and payload are open. -/
def openNan (op draw : Nat) : BitVec 64 := 0x7FF8000000000000 ||| (Config.nanBits op draw &&& 0x8007FFFFFFFFFFFF)

/-- XFOP. -/
def State.xfop (s : State) (t w : Nat) : ExtOut :=
  let v := s.tile t
  match fOp (fopOf w) (modeOf w) (v.d (fR1 w)).toNat (v.d (fR2 w)).toNat with
  | some r => s.stepped t (v.setD (fRd w) (BitVec.ofNat 64 r))
  | none => (s.draw.2).stepped t (v.setD (fRd w) (openNan (fF7 w / 16) s.draws))

/-- XF32: a NaN stays a quiet NaN, its payload open. -/
def State.xf32 (s : State) (t w : Nat) : ExtOut :=
  let v := s.tile t
  let a := (v.d (fR1 w)).toNat
  if isNan .b64 a then (s.draw.2).stepped t (v.setX (fRd w) (0x7FC00000 ||| (BitVec.ofNat 32 (Config.openValue 3 s.draws) &&& 0x803FFFFF)))
  else s.stepped t (v.setX (fRd w) (BitVec.ofNat 32 (to32 (modeOf w) a)))

/-- XFMV.DX. -/
def State.xfmvDx (s : State) (t w : Nat) : ExtOut :=
  let v := s.tile t
  s.stepped t (v.setD (fRd w) (v.x (fR2 w) ++ v.x (fR1 w)))

/-- XFMV.XD. -/
def State.xfmvXd (s : State) (t w : Nat) : ExtOut :=
  let v := s.tile t
  let d := v.d (fR1 w)
  s.stepped t (v.setX (fRd w) (if fF7 w % 2 = 1 then d.extractLsb' 32 32 else d.extractLsb' 0 32))

/-- XFCMP. -/
def State.xfcmp (s : State) (t w : Nat) : ExtOut :=
  let v := s.tile t
  let r := match fCmp (.ofBits .b64 (v.d (fR1 w)).toNat) (.ofBits .b64 (v.d (fR2 w)).toNat) with
    | some .lt => 0
    | some .eq => 1
    | some .gt => 2
    | none => 3
  s.stepped t (v.setX (fRd w) r)

/-- XKEY: a NaN is a kernel fault (R237). -/
def State.xkey (s : State) (t w : Nat) : ExtOut :=
  let v := s.tile t
  let a := (v.x (fR1 w)).toNat
  if isNan .b32 a then .fault 3
  else s.stepped t (v.setX (fRd w) (BitVec.ofNat 32 (orderKey (if fF7 w % 2 = 1 then negate32 a else posZero a))))

/-- XFCV. -/
def State.xfcv (s : State) (t w : Nat) : ExtOut :=
  let v := s.tile t
  s.stepped t (v.setD (fRd w) (BitVec.ofNat 64 (int64 (v.x (fR1 w)).toInt)))

/-! ## Pass bits and posts (R238, R239) -/

/-- The event concerns a stripe or a block. -/
def TileEvent.ofStripe (e : TileEvent) : Bool := e.kind == .metaSeg || e.kind == .vec || e.kind == .pblock

/-- XPASS: slots that are not the invocation's queries read as 0. -/
def State.xpass (s : State) (t : Nat) (e : TileEvent) (w : Nat) : ExtOut :=
  let v := s.tile t
  let lo := if fF7 w % 2 = 1 then 32 else 0
  let i := (v.x (fR1 w)).toNat
  let set := if e.ofStripe then (s.invQueries t e).filter (fun p => decide (lo ≤ p.2 ∧ p.2 < lo + 32 ∧ i < 2048) && v.passBit e.metaBuf i p.2) else []
  s.stepped t (v.setX (fRd w) (BitVec.ofNat 32 (sumNat (set.map fun p => 2 ^ (p.2 - lo)))))

/-- XPCLR: legal only in a META or PBLOCK invocation. -/
def State.xpclr (s : State) (t : Nat) (e : TileEvent) (w : Nat) : ExtOut :=
  let v := s.tile t
  let lo := if fF7 w % 2 = 1 then 32 else 0
  let i := (v.x (fR1 w)).toNat
  let m := (v.x (fR2 w)).toNat
  if e.kind = .metaSeg ∨ e.kind = .pblock then
    s.stepped t { v with passes := v.passes.filter fun k => !(k / 64 == e.metaBuf * 2048 + i && decide (i < 2048 ∧ lo ≤ k % 64) && m.testBit (k % 64 - lo)) }
  else .fault 3

/-- The records of an event's stripe or block. -/
def State.recordLimit (s : State) (e : TileEvent) : Nat :=
  if e.kind = .pblock then geoN (((s.invColl e).map Coll.vecBytes).getD 0) else hdrCount e.metaBytes

/-- XPOST: legal only in a VEC or PBLOCK invocation of a scan, for one of its queries and records; it waits while no
post credit is free. -/
def State.xpost (s : State) (t : Nat) (e : TileEvent) (w : Nat) : ExtOut :=
  let v := s.tile t
  let a := (v.x (fR2 w)).toNat
  let i := a / 64 % 2048
  let slot := a % 64
  let key := (v.x (fR1 w)).toNat
  if !((e.kind == .vec || e.kind == .pblock) && e.what != .centroids) then .fault 3
  else if a / 2 ^ 17 ≠ 0 ∨ s.recordLimit e ≤ i then .fault 3
  else match (s.invQueries t e).find? fun p => p.2 == slot with
    | none => .fault 3
    | some p =>
      match s.slotQuery t p.1 slot with
      | none => s.stepped t (v.setX (fRd w) 0)
      | some q =>
        if !v.passBit e.metaBuf i slot || !q.beatsTau key (recSeq (e.record i)) then s.stepped t (v.setX (fRd w) 0)
        else if s.postFree t q.sorterNo then (s.postCand p.1 q (s.candOf t e q i key)).stepped t (v.setX (fRd w) 1)
        else .wait

/-! ## USER messages (R230, R231) -/

/-- A USER message's bytes with its header (Table 9.6). -/
def UserMsg.bytes (m : UserMsg) : List Byte :=
  toLE 2 m.dest ++ toLE 2 m.source ++ [3] ++ toLE 1 m.kernel ++ toLE 2 ((m.payload.length - 48) / 64) ++ toLE 4 m.tag ++ zeros 4 ++ m.payload

/-- A header a kernel may send: channel USER, at most 3 data packets, to another tile and no edge unit. -/
def sendable (t : Nat) (h : List Byte) : Bool :=
  decide (field h 0 2 < 256) && field h 0 2 != t && field h 4 1 == 3 && decide (field h 6 2 ≤ 3)

/-- XMSEND: what a message that a kernel cannot send leaves in rd is open. -/
def State.xmsend (s : State) (t : Nat) (e : TileEvent) (w : Nat) : ExtOut :=
  let v := s.tile t
  let a := (v.x (fR2 w)).toNat
  match s.tileRead t e a 16 with
  | none => .fault 2
  | some h =>
    if !sendable t h then (s.draw.2).stepped t (v.setX (fRd w) (BitVec.ofNat 32 (Config.openValue 4 s.draws)))
    else match s.tileRead t e a (64 + 64 * field h 6 2) with
      | none => .fault 2
      | some m =>
        if 32 ≤ v.sendQueue.length then s.stepped t (v.setX (fRd w) 1)
        else
          let u : UserMsg := { source := t, dest := field h 0 2, kernel := e.kernel, tag := field h 8 4, payload := m.drop 16 }
          s.stepped t ({ v with sendQueue := v.sendQueue ++ [u] }.setX (fRd w) 0)

/-- XMRECV. -/
def State.xmrecv (s : State) (t : Nat) (e : TileEvent) (w : Nat) : ExtOut :=
  let v := s.tile t
  match takeFirst (fun m => m.kernel == e.kernel) v.recvQueue with
  | none => s.stepped t (v.setX (fRd w) 0)
  | some (m, rest) =>
    match v.storeAt e.kernel (v.x (fR1 w)).toNat m.bytes with
    | none => .fault 2
    | some v => s.stepped t ({ v with recvQueue := rest }.setX (fRd w) (BitVec.ofNat 32 m.tag))

/-! ## Running -/

/-- One extension instruction. -/
def State.extRun (s : State) (t : Nat) (e : TileEvent) (o : ExtOp) (w : Nat) : ExtOut :=
  match o with
  | .qsel => s.qsel t w
  | .xdot => s.xdot t e w
  | .xdsq => s.xdsq t e w
  | .xrd32 => s.xrd32 t w
  | .xrd64 => s.xrd64 t w
  | .xastat => s.xastat t w
  | .xfop => s.xfop t w
  | .xf32 => s.xf32 t w
  | .xfmvDx => s.xfmvDx t w
  | .xfmvXd => s.xfmvXd t w
  | .xfcmp => s.xfcmp t w
  | .xkey => s.xkey t w
  | .xfcv => s.xfcv t w
  | .xpass => s.xpass t e w
  | .xpclr => s.xpclr t e w
  | .xpost => s.xpost t e w
  | .xmsend => s.xmsend t e w
  | .xmrecv => s.xmrecv t e w

/-- The running invocation and the extension instruction at its program counter. -/
def State.extAt (s : State) (t : Nat) : Option (TileEvent × ExtOp × Nat) :=
  match (s.tile t).running with
  | none => none
  | some e =>
    match s.rvFetch t e with
    | some (_, .ext w) => (extOp w).map fun o => (e, o, w)
    | _ => none

/-- The outcome of an instruction of the running invocation: the entry returns where the pc reaches the return address. -/
def State.afterInstr (s : State) (t : Nat) (o : ExtOut) : State :=
  match o with
  | .wait => s
  | .fault cause => s.kernelFault t cause
  | .ok s => if (s.tile t).pc = returnAddress then s.endInvocation t else s

/-- The next instruction runs, if it is that one. -/
def State.extStep (s : State) (t : Nat) (o : ExtOp) : State :=
  match s.extAt t with
  | some (e, o', w) => if o' = o then s.afterInstr t (s.extRun t e o w) else s
  | none => s

/-- One instruction of an event's entry, base or extension. -/
def State.anyInstr (s : State) (t : Nat) (e : TileEvent) : ExtOut :=
  match s.rvFetch t e with
  | none => .fault 2
  | some (_, .ext w) =>
    match extOp w with
    | some o => s.extRun t e o w
    | none => .fault 1
  | some (len, i) =>
    match s.rvExec t e len i with
    | .ok v => .ok (s.setTile t v)
    | .fault c => .fault c

/-- An entry runs until it returns: the state with a0, or a fault's cause with the pc. -/
def State.runEntry (s : State) (t : Nat) (e : TileEvent) : Nat → State × Except (Nat × Nat) Nat
  | 0 => (s, .error (5, (s.tile t).pc.toNat))
  | fuel + 1 =>
    if (s.tile t).pc = returnAddress then (s, .ok ((s.tile t).x 10).toNat)
    else match s.anyInstr t e with
      | .ok s => s.runEntry t e fuel
      | .wait => s.runEntry t e fuel
      | .fault c => (s, .error (c, (s.tile t).pc.toNat))

/-- A bound or cover entry is called and runs to its end. -/
def State.callEntry (s : State) (t : Nat) (e : TileEvent) (entry : Nat) (args : List (Nat × BitVec 32)) : State × Except (Nat × Nat) Nat :=
  let s := s.call t e entry args
  let (s, r) := s.runEntry t e (s.kernelLimit * s.cclkMHz)
  (s.setTile t { s.tile t with running := none }, r)

/-- RANK calls the bound entry of a custom kernel for record `i` and one query; a NaN is a fault (R240, R247). -/
def State.boundCall (s : State) (t : Nat) (e : TileEvent) (c : Coll) (x slot i : Nat) : State :=
  let b := e.record i
  let e' := { e with kernel := c.kernel, ctxs := [x] }
  let args := [(0, BitVec.ofNat 32 slot), (1, BitVec.ofNat 32 (bufferBase e.metaBuf + 256 + 64 * i)),
               (2, BitVec.ofNat 32 (bufferBase (e.vecBuf - 1) + (i - e.first) * c.vecBytes))]
  if boundEmpty b then s
  else
    let (s, r) := s.callEntry t e' (s.kernel c.kernel).bound args
    let blocked := fun (s : State) => s.modCtx x fun q => { q with blocked := q.blocked ++ [none] }
    match r with
    | .error (cause, pc) => blocked (s.markFault t c.kernel cause pc)
    | .ok v =>
      let v := v % 2 ^ 32
      if isNan .b32 v then blocked (s.markFault t c.kernel 4 returnAddress.toNat)
      else
        let l := rankList c e i
        s.modCtx x fun q => { q with ranks := q.ranks ++ [{ key := orderKey v, list := l, minSeq := boundMin b, owner := ownerOf c.shards l }] }

/-- RANK over a vector segment of centroids of a custom collection. -/
def State.rankCustom (s : State) (t : Nat) (e : TileEvent) (c : Coll) : State :=
  (s.invQueries t e).foldl (fun (s : State) p =>
    (List.range e.count).foldl (fun (s : State) i =>
      if ((s.ctx? p.1).map fun q => q.blocked.contains none).getD true then s else s.boundCall t e c p.1 p.2 (e.first + i)) s) s

/-- MAINT calls the cover entry for one entry of a list (R75, R85, R247): covered or not, or a fault. The addresses the
arguments point to, and the tile, are open: the model uses stream buffers 0 and 1 of tile `t`. -/
def State.coverCall (s : State) (t coll : Nat) (c : Coll) (bound centroid vec : List Byte) : State × Except (Nat × Nat) Bool :=
  let e : TileEvent := { kind := .vec, kernel := c.kernel, coll := coll, what := .centroids, metaBytes := bound, vecBytes := centroid ++ vec, metaBuf := 0, vecBuf := 2 }
  let args := [(1, BitVec.ofNat 32 (bufferBase 0)), (2, BitVec.ofNat 32 (bufferBase 1)), (3, BitVec.ofNat 32 (bufferBase 1 + c.vecBytes))]
  let (s, r) := s.callEntry t e (s.kernel c.kernel).cover args
  match r with
  | .error (cause, pc) => (s.markFault t c.kernel cause pc, .error (cause, pc))
  | .ok v => (s, .ok (v % 2 ^ 32 == 1))

/-! ## VEC and PBLOCK (R228) -/

/-- A VEC or PBLOCK event at the head of its tile: SCAN and RANK keep their contract, a custom kernel is called. -/
def State.scoreEvent (s : State) (t : Nat) (kind : TileEventKind) : State :=
  match s.nextEvent t kind with
  | none => s
  | some (e, popped) =>
    if e.ctxs = [] then popped.eventDone t e
    else if e.kernel = 1 then
      match s.coll? e.coll with
      | none => popped.eventDone t e
      | some c => ((if c.metric = .custom then popped.rankCustom t e c else popped.rankStandard t e c)).eventDone t e
    else if standardKernel e.kernel then s.scanEvent t e popped
    else popped.call t e (s.kernel e.kernel).entry (s.eventArgs t e)

/-- VEC (R228). -/
def execVec (t : Fin 256) (s : State) : Host.Outcome State Fault Refusal := .next (s.scoreEvent t.val .vec)

/-- PBLOCK (R228). -/
def execPblock (t : Fin 256) (s : State) : Host.Outcome State Fault Refusal := .next (s.scoreEvent t.val .pblock)

/-! ## The rows of the extension -/

/-- QSEL (R232). -/
def execQsel (t : Fin 256) (s : State) : Host.Outcome State Fault Refusal := .next (s.extStep t .qsel)
/-- XDOT (R233). -/
def execXdot (t : Fin 256) (s : State) : Host.Outcome State Fault Refusal := .next (s.extStep t .xdot)
/-- XDSQ (R233). -/
def execXdsq (t : Fin 256) (s : State) : Host.Outcome State Fault Refusal := .next (s.extStep t .xdsq)
/-- XRD32 (R235). -/
def execXrd32 (t : Fin 256) (s : State) : Host.Outcome State Fault Refusal := .next (s.extStep t .xrd32)
/-- XRD64 (R235). -/
def execXrd64 (t : Fin 256) (s : State) : Host.Outcome State Fault Refusal := .next (s.extStep t .xrd64)
/-- XASTAT (R232). -/
def execXastat (t : Fin 256) (s : State) : Host.Outcome State Fault Refusal := .next (s.extStep t .xastat)
/-- XFOP (R236). -/
def execXfop (t : Fin 256) (s : State) : Host.Outcome State Fault Refusal := .next (s.extStep t .xfop)
/-- XF32 (R232). -/
def execXf32 (t : Fin 256) (s : State) : Host.Outcome State Fault Refusal := .next (s.extStep t .xf32)
/-- XFMV.DX (R232). -/
def execXfmvDx (t : Fin 256) (s : State) : Host.Outcome State Fault Refusal := .next (s.extStep t .xfmvDx)
/-- XFMV.XD (R232). -/
def execXfmvXd (t : Fin 256) (s : State) : Host.Outcome State Fault Refusal := .next (s.extStep t .xfmvXd)
/-- XFCMP (R232). -/
def execXfcmp (t : Fin 256) (s : State) : Host.Outcome State Fault Refusal := .next (s.extStep t .xfcmp)
/-- XKEY (R237). -/
def execXkey (t : Fin 256) (s : State) : Host.Outcome State Fault Refusal := .next (s.extStep t .xkey)
/-- XFCV (R232). -/
def execXfcv (t : Fin 256) (s : State) : Host.Outcome State Fault Refusal := .next (s.extStep t .xfcv)
/-- XPASS (R238). -/
def execXpass (t : Fin 256) (s : State) : Host.Outcome State Fault Refusal := .next (s.extStep t .xpass)
/-- XPCLR (R238). -/
def execXpclr (t : Fin 256) (s : State) : Host.Outcome State Fault Refusal := .next (s.extStep t .xpclr)
/-- XPOST (R239). -/
def execXpost (t : Fin 256) (s : State) : Host.Outcome State Fault Refusal := .next (s.extStep t .xpost)
/-- XMSEND (R231). -/
def execXmsend (t : Fin 256) (s : State) : Host.Outcome State Fault Refusal := .next (s.extStep t .xmsend)
/-- XMRECV (R231). -/
def execXmrecv (t : Fin 256) (s : State) : Host.Outcome State Fault Refusal := .next (s.extStep t .xmrecv)

/-- RV32IMC_INSTRUCTION (R240): the next instruction, if it is none of the extension's. -/
def State.baseStep (s : State) (t : Nat) : State :=
  match (s.tile t).running with
  | none => s
  | some e => if (s.extAt t).isSome then s else s.afterInstr t (s.anyInstr t e)

/-- RV32IMC_INSTRUCTION (R240). -/
def execRv32imcInstruction (t : Fin 256) (s : State) : Host.Outcome State Fault Refusal := .next (s.baseStep t)

end Sys2Proof.Machine
end

