-- ==== Sys2Proof/Machine/Mutations.lean ====
section
/-! DEFINITION. Mutations on the data path: admission, hand-off, forwarding, stash and kill writes, their acknowledgements,
commit and revocation (R77, R118 to R129, R156). -/

namespace Sys2Proof.Machine

/-! ## Helpers -/

def State.modLive (s : State) (key : Nat) (f : Live → Live) : State :=
  match s.live? key with
  | some l => s.setLive key (f l)
  | none => s

/-- The sequencer of a collection, changed. -/
def State.modSeqr (s : State) (g : Nat) (f : Sequencer → Sequencer) : State :=
  s.modColl g fun c => { c with seqr := c.seqr.map f }

/-- The live command that a tag names (R213). -/
def State.byTag (s : State) (tag : Nat) : Option Nat :=
  if (s.live? (tag % 4096)).isSome ∧ s.cmdTag (tag % 4096) = tag then some (tag % 4096) else none

/-! ## Admission of a mutation (R119) -/

/-- INSERT, DELETE and UPSERT at admission: the checks of Table 5.2, steps 1 to 4, then a mutation slot. -/
def State.admitMutation (s : State) (op : Nat) : State :=
  match s.begin_ op with
  | none => s
  | some (f, s') =>
    match s.mutationCheck f.origin.burrow f.bytes with
    | some st => s'.refuse f st
    | none =>
      if s.used 0x05 0 < Config.mutationSlots then
        let (key, s) := s'.takeIn f
        (s.reserve 0x05 0 1).modLive key fun l => { l with mutationSlot := true }
      else s

/-- INSERT (R118 to R120). -/
def execInsert (s : State) : Host.Outcome State Fault Refusal := .next (s.admitMutation 0x10)

/-- DELETE (R118 to R120). -/
def execDelete (s : State) : Host.Outcome State Fault Refusal := .next (s.admitMutation 0x11)

/-- UPSERT (R118 to R120). -/
def execUpsert (s : State) : Host.Outcome State Fault Refusal := .next (s.admitMutation 0x12)

/-! ## Answers -/

/-- The completion of a mutation or of a command ordered as one (R124, R183): a mutation's result count is 1 when it was
accepted, and the stamp field carries its number, or a load's committed sequence. -/
def mutCompletion (op status seq : Nat) (o : Origin) : Completion :=
  { origin := o, status := status, count := if (op = 0x10 ∨ op = 0x11 ∨ op = 0x12) ∧ seq ≠ 0 then 1 else 0, stamp := seq }

/-- A command handed to a sequencer completes on the device that holds it. -/
def State.doneMut (s : State) (tag status seq : Nat) : State :=
  match s.byTag tag with
  | some key =>
    match s.live? key with
    | some l => s.done key (mutCompletion l.opcode status seq)
    | none => s
  | none => s

/-- The sequencer answers the device that holds the command (R121). -/
def State.answerMut (s : State) (g : Nat) (device tag status seq : Nat) : State :=
  if device = s.self then s.doneMut tag status seq
  else s.send device mMutRsp 0 tag device g (toLE 2 status ++ toLE 6 seq ++ zeros 8)

/-! ## Hand-off (R121, R129) -/

/-- A command reaches the sequencer; while the collection is mutation-held, it completes SHARD_LOST, but for
COLLECTION_DROP (R127). -/
def State.queueMut (s : State) (g : Nat) (q : Sequencer) (r : MutReq) : State :=
  if q.held ∧ dOpcode r.desc ≠ 0x51 then s.answerMut g r.device r.tag stShardLost 0
  else s.modSeqr g fun q => { q with queue := q.queue ++ [r] }

/-- The oldest command of a queue that may go to its sequencer now (R129). -/
def State.unhanded (s : State) (b q : Nat) : Option (Nat × Live) :=
  let mine := s.host.live.filter fun e =>
    e.2.origin.burrow == b && e.2.origin.queue == q && isMutationOp e.2.opcode && !e.2.passed && s.handOffOk b q e.2.coll e.2.order
  mine.foldl (fun best e => match best with
    | none => some e
    | some b => if e.2.order < b.2.order then some e else some b) none

/-- The body of a MUT_FWD (Table 8.11). -/
def mutFwdBody (burrow : Nat) (desc vec : List Byte) : List Byte := desc ++ toLE 1 burrow ++ zeros 7 ++ vec

/-- A live command goes to its sequencer: into the queue here, or forwarded (R121, R183). -/
def State.handOff (s : State) (key : Nat) (l : Live) : State :=
  match s.served l.coll with
  | none => s.failLive key stNoColl
  | some c =>
    let s := s.setLive key { l with passed := true }
    let desc := padTo 128 l.bytes
    let vec := if l.opcode = 0x10 ∨ l.opcode = 0x12 then cmdVector c l.bytes else []
    match s.isSequencer c, c.seqr with
    | true, some q => s.queueMut l.coll q { device := s.self, tag := s.cmdTag key, burrow := l.origin.burrow, desc := desc, vec := vec }
    | true, none => s
    | false, _ => s.request (sequencerOf c.shards) mMutFwd 0 (s.cmdTag key) l.coll key (mutFwdBody l.origin.burrow desc vec)

/-- A fenced device takes no new fabric request (R355). -/
def State.intake (s : State) : Bool := !s.boot.fenced

/-- MUT_FWD (R121): the sequencer device takes a forwarded command. -/
def execMutFwd (i : Nat) (s : State) : Host.Outcome State Fault Refusal :=
  .next (if s.intake = false then s
    else match s.take i mMutFwd with
      | none => s
      | some (m, s) =>
        let b := msgBody m
        let g := msgColl m
        let r : MutReq := { device := msgSource m, tag := msgTag m, burrow := field b 128 1 % 64, desc := b.take 128, vec := b.drop 136 }
        match s.served g with
        | none => s.answerMut g r.device r.tag stNoColl 0
        | some c =>
          match c.seqr with
          | some q => s.queueMut g q r
          | none => s)

/-- MUT_RSP (R124, R126, R213). -/
def execMutRsp (i : Nat) (s : State) : Host.Outcome State Fault Refusal :=
  .next (match s.take i mMutRsp with
    | none => s
    | some (m, s) =>
      match s.awaited mMutFwd (msgSource m) (msgTag m) (msgColl m) with
      | none => s.lateResponse
      | some r =>
        let s := s.endRequest r
        if (s.byTag (msgTag m)).isNone then s.lateResponse else s.doneMut (msgTag m) (field (msgBody m) 0 2) (field (msgBody m) 2 6))

/-! ## Flushing (R123, R138, R159) -/

/-- Buffered bytes go into the segment's frame. -/
def State.flushItem (s : State) (it : Buffered) : State :=
  let v := s.seg_ it.seg
  match v.frame, v.slot with
  | some f, _ => s.writeFrame f it.offset it.bytes
  | none, some slot => s.emit (.write (v.burrow + 1) (s.pageAddr v.burrow slot + it.offset) it.bytes false)
  | none, none => s

/-- Sequence numbers of the kill writes of a collection that wait for their segment (R156, R158): not yet in HBM. -/
def State.waitingKills (s : State) (g : Nat) : List Nat :=
  ((s.seg.map.filter fun (e : Nat × Seg) => e.2.coll == g).map fun (e : Nat × Seg) => e.2.kills.map fun k => k.2.1).flatten

/-- The records of a collection leave the stash buffer for HBM: charged as far as bucket and pool can pay, and the
flushed sequence moves up, but not to a kill that still waits for its segment (R138). -/
def State.flushStash (s : State) (g : Nat) : State :=
  match s.coll? g with
  | none => s
  | some c =>
    let items := s.stash.filter fun it => it.coll == g
    let s := s.chargeUpTo c.owner (sumNat (items.map fun it => tokensFor it.bytes.length))
    let s := items.foldl State.flushItem { s with stash := s.stash.filter fun it => it.coll != g }
    let top := (s.waitingKills g).foldl (fun top n => min top (n - 1)) (max c.seen c.committed)
    s.setColl g { c with unflushed := none, flushed := max c.flushed top }

/-- STASH_FLUSH (R123): within StashFlushInterval of the oldest record placed. -/
def execStashFlush (g : Nat) (s : State) : Host.Outcome State Fault Refusal :=
  .next (match s.coll? g with
    | none => s
    | some c => if c.unflushed.isSome then s.flushStash g else s)

/-! ## The stash (R77, R122, R123) -/

/-- Bytes in the stash buffer. -/
def State.stashUsed (s : State) : Nat := sumNat (s.stash.map fun it => it.bytes.length)

/-- Bytes are placed in the stash buffer, over an older version of the same bytes. -/
def State.buffer (s : State) (g seg off : Nat) (bytes : List Byte) : State :=
  let same := fun (it : Buffered) => it.seg == seg && it.offset == off && it.bytes.length == bytes.length
  let it : Buffered := { coll := g, seg := seg, offset := off, bytes := bytes }
  { s with stash := s.stash.filter (fun it => !same it) ++ [it] }

/-- A table segment of the ID map or the locator table for one more entry, where the entries outgrow those held; 4,096
entries of 16 bytes a segment. -/
def State.tableSpace (s : State) (c : Coll) (g kind entries : Nat) (held : List Nat) : Option (List Nat × State) :=
  if entries < 4096 * held.length then some (held, s)
  else (s.alloc c.owner kind g Config.noSegment c.generation).map fun p => (held ++ [p.1], p.2)

/-- A root whose stash start names no stripe takes one: its first stash stripe. -/
def State.startStash (s : State) (n : Nat) (root : Nat) : State :=
  if rootStart (s.rootBody root) = Config.noSegment then s.segWrite root 272 (toLE 4 n) else s

/-- The stripe that takes the next stash record: the last one while it has room, else a new one. -/
def State.stashStripe (s : State) (g : Nat) (c : Coll) : Option (Nat × List Byte × Coll × State) :=
  let fresh : Option (Nat × List Byte × Coll × State) :=
    (s.alloc c.owner 2 g Config.noSegment c.generation).map fun p =>
      let n := p.1
      let h := mkHeader 2 g Config.noSegment c.generation 0 c.stash.length 0 0 Config.noSequence 0 []
      let s := match c.stash.getLast? with
        | some prev => p.2.buffer g prev 0 (rehash (splice (p.2.header prev) 4 (toLE 4 n)))
        | none =>
          let s := p.2.startStash n c.root
          match c.prepared.bind (·.root) with
          | some r => s.startStash n r
          | none => s
      (n, h, { c with stash := c.stash ++ [n] }, s)
  match c.stash.getLast? with
  | some n => if hdrCount (s.header n) < geoC c.vecBytes then some (n, s.header n, c, s) else fresh
  | none => fresh

/-- A record with its vector goes to the end of the stash; none when the segments for it cannot be had. -/
def State.appendStash (s : State) (g : Nat) (c : Coll) (rec vec : List Byte) : Option State :=
  match s.stashStripe g c with
  | none => none
  | some (n, h, c, s) =>
    let e := geoE c.vecBytes
    let i := hdrCount h
    let seq := recSeq rec
    let vecs := (List.range (hdrV h)).map (hdrVec h)
    let space := if i % e = 0 then (s.alloc c.owner 8 g Config.noSegment c.generation).map fun p => (vecs ++ [p.1], p.2) else some (vecs, s)
    match space with
    | none => none
    | some (vecs, s) =>
      match s.tableSpace c g 0x0A c.locator.length c.locSegs with
      | none => none
      | some (locSegs, s) =>
        let h' := mkHeader 2 g Config.noSegment (field h 8 8) 0 (field h 20 4) (i + 1) e (min (field h 32 6) seq) (max (field h 40 6) seq) vecs
        let s := ((s.buffer g n 0 h').buffer g n (256 + 64 * i) rec).buffer g (vecs.getD (i / e) 0) (i % e * c.vecBytes) (padTo c.vecBytes vec)
        let c := { c with locSegs := locSegs, locator := Map.put c.locator seq (false, n, i), seen := max c.seen seq
                          unflushed := c.unflushed.or (some s.clk.now) }
        some (s.setColl g c)

/-- The list of the target of a tombstone record, on the device that stores it (R78). -/
def State.targetList (s : State) (c : Coll) (target : Nat) : Nat :=
  match Map.get? c.locator target with
  | some (false, n, i) => if s.readable n then recList (s.segRead n (256 + 64 * i) 64) else (s.seg_ n).list % 2 ^ 20
  | some (true, t, i) => recList (slice (s.tile t).blockBytes (256 + 64 * i) 64)
  | none => 0

/-- STASH_WRITE (R77, R121, R123): the owning device appends the record; it waits while the stash buffer is full. A number
that comes again after its revocation (R127) is flushed at once, since the flushed sequence never decreases. -/
def execStashWrite (i : Nat) (s : State) : Host.Outcome State Fault Refusal :=
  .next (match s.take i mStashWrite with
    | none => s
    | some (m, s') =>
      let b := msgBody m
      let g := msgColl m
      let record := b.take 64
      let n := recSeq record
      let ack := fun (s : State) st => s.send (msgSource m) mStashAck 0 (msgTag m) (msgRequester m) g (toLE 2 st ++ toLE 6 n)
      match s'.served g with
      | none => ack s' stNoColl
      | some c =>
        if s.intake = false ∨ Config.stashBufferBytes < s.stashUsed + 576 + c.vecBytes then s
        else if c.mediaMutation then ack s' stMedia
        else
          let record' := if recTomb record then splice record 48 (toLE 4 (s'.targetList c (recLink record))) else record
          match s'.appendStash g c record' (b.drop 64) with
          | none => ack s' stQuota
          | some s => ack (if n ≤ c.flushed then s.flushStash g else s) stOk)

/-! ## Kills (R66, R121, R137, R156) -/

/-- A segment in which a kill has to be held for a while. -/
def State.holdsKills (s : State) (n : Nat) : Bool := (s.seg_ n).copying || (s.seg_ n).state == .pagingIn

/-- The link sequence of a record in a pinned block is written. -/
def State.pokeBlock (s : State) (t i link : Nat) : State :=
  let v := s.tile t
  s.setTile t { v with block := v.block.map fun b => (b.1, b.2.1, splice b.2.2 (256 + 64 * i + 8) (toLE 6 link)) }

/-- The link sequence of a record is written where a locator entry says; a page-out in progress is abandoned first. -/
def State.pokeLink (s : State) (at_ : Bool × Nat × Nat) (link : Nat) : State :=
  let (pinned, n, i) := at_
  if pinned then s.pokeBlock n i link
  else
    let v := s.seg_ n
    let s := if v.state = .pagingOut then s.setSeg n { v with state := .resident, slot := none } else s
    s.poke n (256 + 64 * i + 8) (toLE 6 link)

/-- The other copies of a record: in a generation in preparation, and in older ones still read. -/
def Coll.copiesOf (c : Coll) (seq : Nat) : List (Bool × Nat × Nat) :=
  (c.prepared.bind fun p => Map.get? p.locator seq).toList ++ (c.oldLocator.filter fun e => e.1 == seq).map Prod.snd

/-- A kill goes to its target and to its other copies; none while the segment of another copy holds kills. -/
def State.killRecord (s : State) (g : Nat) (c : Coll) (target seq dest tag : Nat) : Option State :=
  let copies := c.copiesOf target
  if copies.any fun at_ => !at_.1 && s.holdsKills at_.2.1 then none
  else
    let s := copies.foldl (fun (s : State) at_ => s.pokeLink at_ seq) s
    match Map.get? c.locator target with
    | none => some (s.killAck dest tag g seq)
    | some (true, t, i) => some ((s.pokeBlock t i seq).killAck dest tag g seq)
    | some (false, n, i) => some (s.killAt n (256 + 64 * i) seq dest tag)

/-- KILL_WRITE (R66, R121, R156): acknowledged once the kill is in place. -/
def execKillWrite (i : Nat) (s : State) : Host.Outcome State Fault Refusal :=
  .next (match s.take i mKillWrite with
    | none => s
    | some (m, s') =>
      let b := msgBody m
      let g := msgColl m
      let target := field b 0 6
      let n := field b 6 6
      match s'.coll? g with
      | none => s'.send (msgSource m) mKillAck 0 (msgTag m) (msgRequester m) g (toLE 2 stNoColl ++ toLE 6 n)
      | some c =>
        match s'.killRecord g c target n (msgSource m) (msgTag m) with
        | none => s
        | some s =>
          s.modColl g fun c => { c with kills := c.kills ++ [(n, target)], seen := max c.seen n
                                        flushed := if c.unflushed = none then max c.flushed n else c.flushed })

/-! ## Revocation (R127) -/

/-- The kill of a record under a number is undone at one place: a held one is forgotten, a written one reset to 0; none
while the segment holds kills that this one is not among. -/
def State.unkillAt (s : State) (n : Nat) (at_ : Bool × Nat × Nat) : Option State :=
  let v := s.seg_ at_.2.1
  if at_.1 then some (s.pokeBlock at_.2.1 at_.2.2 0)
  else if v.kills.any fun k => k.2.1 == n then some (s.setSeg at_.2.1 { v with kills := v.kills.filter fun k => k.2.1 != n })
  else if s.holdsKills at_.2.1 then none
  else some (s.pokeLink at_ 0)

/-- Every kill that carries a number is undone. -/
def State.unkill (s : State) (c : Coll) (n : Nat) : Option State :=
  (c.kills.filter fun k => k.1 == n).foldl (fun acc k =>
    ((Map.get? c.locator k.2).toList ++ c.copiesOf k.2).foldl (fun acc at_ => acc.bind fun (s : State) => s.unkillAt n at_) acc) (some s)

/-- The stash record that carries a number loses VALID. -/
def State.invalidate (s : State) (c : Coll) (n : Nat) : State :=
  match Map.get? c.locator n with
  | some (false, seg, i) =>
    let flags := recFlags (s.segRead seg (256 + 64 * i) 64)
    s.poke seg (256 + 64 * i + 6) (toLE 2 (flags - flags % 2))
  | _ => s

/-- REVOKE (R127). -/
def execRevoke (i : Nat) (s : State) : Host.Outcome State Fault Refusal :=
  .next (match s.take i mRevoke with
    | none => s
    | some (m, s') =>
      let g := msgColl m
      let n := field (msgBody m) 0 6
      let ack := fun (s : State) => s.send (msgSource m) mRevokeAck 0 (msgTag m) (msgRequester m) g (toLE 6 n ++ zeros 2)
      match s'.coll? g with
      | none => ack s'
      | some c =>
        match s'.unkill c n with
        | none => s
        | some s =>
          ack ((s.invalidate c n).modColl g fun c => { c with locator := Map.del c.locator n, kills := c.kills.filter fun k => k.1 != n }))

/-! ## Commit (R121, R35) -/

/-- The sequence law: one number per accepted mutation, no gaps; a mismatch turns the collection read-only. -/
def State.sequenceAudit (s : State) (g : Nat) : State :=
  match s.coll? g with
  | none => s
  | some c =>
    match c.seqr with
    | none => s
    | some q =>
      if q.committed = q.accepted ∨ c.readOnly then s
      else
        let s := { s with boot := { s.boot with fenceFlag := true } }
        (s.setColl g { c with readOnly := true }).logEvent 0x0303 (toLE 2 g)

/-- Every write of the mutation in flight is in place: the committed sequence advances, which assigns its number. -/
def State.commit (s : State) (g : Nat) (q : Sequencer) (m : InFlight) : State :=
  let ids := if dOpcode m.req.desc = 0x11 then Map.del q.idMap m.ext else Map.put q.idMap m.ext (m.n, m.owner)
  let s := s.modSeqr g fun q => { q with committed := m.n, accepted := q.accepted + 1, idMap := ids, current := none, undo := q.undo ++ [(m.n, m.ext, Map.get? q.idMap m.ext)] }
  (s.answerMut g m.req.device m.req.tag stOk m.n).sequenceAudit g

/-- REVOKE goes to every device that received a write of the failed mutation; with none, it fails at once. -/
def State.startRevoke (s : State) (g : Nat) (m : InFlight) : State :=
  if m.sent = [] then (s.modSeqr g fun q => { q with current := none }).answerMut g m.req.device m.req.tag m.status 0
  else
    let s := s.modSeqr g fun q => { q with current := some { m with revoking := m.sent } }
    m.sent.foldl (fun s d => s.requestFor d mRevoke 0 m.req.tag m.req.device g g (toLE 6 m.n ++ zeros 2)) s

/-- The writes of the mutation in flight have all been answered, or lost: it commits, or is revoked. -/
def State.settleWrites (s : State) (g : Nat) : State :=
  match (s.coll? g).bind (·.seqr) with
  | none => s
  | some q =>
    match q.current with
    | none => s
    | some m =>
      if m.stashAt.isSome ∨ m.killAt.isSome ∨ m.revoking ≠ [] then s
      else if m.failed then s.startRevoke g m else s.commit g q m

/-- One write of the mutation in flight has been answered with a status, or lost. -/
def State.writeAnswered (s : State) (g : Nat) (stash : Bool) (status : Nat) : State :=
  (s.modSeqr g fun q => { q with current := q.current.map fun m =>
    let m := if stash then { m with stashAt := none } else { m with killAt := none }
    if status = stOk ∨ m.failed then m else { m with failed := true, status := status } }).settleWrites g

/-- An acknowledgement of a write at the sequencer (R121, R213). -/
def State.takeAck (s : State) (i ty request : Nat) (stash : Bool) : State :=
  match s.take i ty with
  | none => s
  | some (m, s) =>
    match s.awaited request (msgSource m) (msgTag m) (msgColl m) with
    | none => s.lateResponse
    | some r => (s.endRequest r).writeAnswered (msgColl m) stash (field (msgBody m) 0 2)

/-- STASH_ACK (R121). -/
def execStashAck (i : Nat) (s : State) : Host.Outcome State Fault Refusal := .next (s.takeAck i mStashAck mStashWrite true)

/-- KILL_ACK (R121). -/
def execKillAck (i : Nat) (s : State) : Host.Outcome State Fault Refusal := .next (s.takeAck i mKillAck mKillWrite false)

/-- A device has acknowledged a REVOKE: with the last one the mutation fails, and a hold ends. -/
def State.revoked (s : State) (g d : Nat) : State :=
  match (s.coll? g).bind (·.seqr) with
  | none => s
  | some q =>
    match q.current with
    | none => s
    | some m =>
      let m := { m with revoking := m.revoking.erase d, unanswered := m.unanswered.erase d }
      if m.revoking ≠ [] then s.modSeqr g fun q => { q with current := some m }
      else
        let s := s.modSeqr g fun q => { q with current := none, held := false }
        if m.answered then s else s.answerMut g m.req.device m.req.tag m.status 0

/-- REVOKE_ACK (R127). -/
def execRevokeAck (i : Nat) (s : State) : Host.Outcome State Fault Refusal :=
  .next (match s.take i mRevokeAck with
    | none => s
    | some (m, s) =>
      match s.awaited mRevoke (msgSource m) (msgTag m) (msgColl m) with
      | none => s.lateResponse
      | some r => (s.endRequest r).revoked (msgColl m) (msgSource m))

/-- A REVOKE was not answered within the recovery bound: the collection is mutation-held, and the mutations that wait
complete SHARD_LOST (R127). -/
def State.hold (s : State) (g d : Nat) : State :=
  match (s.coll? g).bind (·.seqr) with
  | none => s
  | some q =>
    match q.current with
    | none => s
    | some m =>
      let stay := q.queue.filter fun r => dOpcode r.desc == 0x51
      let go := q.queue.filter fun r => dOpcode r.desc != 0x51
      let s := s.modSeqr g fun q => { q with held := true, queue := stay, current := some { m with unanswered := m.unanswered ++ [d], answered := true } }
      let s := go.foldl (fun s r => s.answerMut g r.device r.tag stShardLost 0) s
      if m.answered then s else s.answerMut g m.req.device m.req.tag m.status 0

/-- REVOKE goes again to the unanswered devices whose route satisfies `p`, when a port on it becomes UP (R127). -/
def State.resendRevokes (s : State) (p : Nat → Bool) : State :=
  s.colls.foldl (fun (s : State) (e : Nat × Coll) =>
    match (e.2.seqr.bind (·.current)) with
    | none => s
    | some m =>
      let again := m.unanswered.filter p
      let s := s.modSeqr e.1 fun q => { q with current := q.current.map fun m => { m with unanswered := m.unanswered.filter fun d => !p d } }
      again.foldl (fun s d => s.requestFor d mRevoke 0 m.req.tag m.req.device e.1 e.1 (toLE 6 m.n ++ zeros 2)) s) s

/-! ## Acceptance of one mutation (Table 5.2, steps 5 to 7; R120 to R122) -/

/-- The assigned list of an entry (R78): best rank key over the centroids, ties to the lower list ID. The spec states no
rank key between an entry and a centroid for a custom metric, and none for a centroid that is lost (Table 6.6 stops the
queries of such a collection only): which list is open there. -/
def State.assignedList (s : State) (c : Coll) (vec : List Byte) : Nat × State :=
  if c.lists = 1 then (0, s)
  else if c.metric = .custom ∨ s.structureLost c.root then (Config.openValue 10 s.draws % c.lists, s.draw.2)
  else
    let x := elements c.ty c.dim vec
    let keyOf := fun l =>
      let ce := elements c.ty c.dim (s.centroid c c.root l)
      rankOrderKey c.metric (score c.metric c.ty x ce (storedNorm c.ty ce))
    let best := (List.range (c.lists - 1)).foldl (fun (b : Nat × Nat) l => let k := keyOf (l + 1); if k < b.2 then (l + 1, k) else b) (0, keyOf 0)
    (best.1, s)

/-- The record of an INSERT or UPSERT under number `n` (R64, R120). -/
def entryRecord (c : Coll) (d vec : List Byte) (n list : Nat) (replaces : Bool) : List Byte :=
  let norm := if c.metric = .cosine then storedNorm c.ty (elements c.ty c.dim vec) else 0
  mkRecord n (if replaces then 5 else 1) 0 (field d 16 8) (field d 24 8) (field d 32 4) (field d 36 4) (field d 40 4) (field d 44 4) list norm

/-- The tombstone record of a DELETE (R65, R66, R120); its list is filled in where the target lies. -/
def tombRecord (d : List Byte) (n target : Nat) : List Byte := mkRecord n 3 target (field d 16 8) 0 0 0 0 0 0 0

/-- The stash write and the kill write of a mutation leave (R121, step 3). -/
def State.sendWrites (s : State) (g : Nat) (r : MutReq) (n owner : Nat) (rec vec : List Byte) (kill : Option (Nat × Nat)) : State :=
  let ext := field r.desc 16 8
  let cur : InFlight := { req := r, n := n, stashAt := some owner, killAt := kill.map Prod.snd, ext := ext, owner := owner
                          sent := match kill with
                            | some k => if k.2 = owner then [owner] else [owner, k.2]
                            | none => [owner] }
  let s := s.modSeqr g fun q => { q with current := some cur }
  let s := s.requestFor owner mStashWrite 0 r.tag r.device g g (rec ++ vec)
  match kill with
  | some (target, d) => s.requestFor d mKillWrite 0 r.tag r.device g g (toLE 6 target ++ toLE 6 n ++ zeros 4)
  | none => s

/-- Space in the ID map for one more live entry (R122). -/
def State.idSpace (s : State) (g : Nat) (c : Coll) (q : Sequencer) (needed : Bool) : Option State :=
  if needed then (s.tableSpace c g 9 q.idMap.length c.idSegs).map fun p => p.2.modColl g fun c => { c with idSegs := p.1 } else some s

/-- The sequencer takes one INSERT, DELETE or UPSERT from its queue (R120, R121): refused, a no-op, or its writes leave. -/
def State.acceptMutation (s : State) (g : Nat) (c : Coll) (q : Sequencer) (r : MutReq) : State :=
  let d := r.desc
  let op := dOpcode d
  let n := q.committed + 1
  let live := Map.get? q.idMap (field d 16 8)
  let refuse := fun st => s.answerMut g r.device r.tag st 0
  if c.lapsed then refuse stShardLost
  else if c.mediaMutation then refuse stMedia
  else if c.readOnly || s.seg.frozen || c.load != .loaded then refuse stAborted
  else if op = 0x10 ∧ live.isSome then refuse stInvalid
  else if op = 0x11 ∧ live.isNone then refuse stOk
  else if Config.lastSequence < n then refuse stQuota
  else match s.idSpace g c q (op != 0x11 && live.isNone) with
    | none => refuse stQuota
    | some s =>
      match op == 0x11, live with
      | true, some (target, dev) => s.sendWrites g r n dev (tombRecord d n target) [] (some (target, dev))
      | _, _ =>
        let (l, s) := s.assignedList c r.vec
        s.sendWrites g r n (ownerOf c.shards l) (entryRecord c d r.vec n l live.isSome) r.vec live

end Sys2Proof.Machine
end

