-- ==== Sys2Proof/Machine/Builds.lean ====
section
/-! DEFINITION. Building a generation: list chains and pinned blocks, directories, centroid stripes with recomputed bounds,
roots; choosing a cut; flipping, retiring and freeing (R62, R68, R71, R75, R80, R81, R136, R137). -/

namespace Sys2Proof.Machine

/-- An entry: its metadata record and its vector. -/
abbrev Entry := List Byte × List Byte

/-- A list in pieces of `n`. -/
def pieces {α : Type} (n : Nat) : Nat → List α → List (List α)
  | 0, _ => []
  | fuel + 1, xs => if xs.isEmpty then [] else xs.take n :: pieces n fuel (xs.drop n)

/-- Entries by rising sequence number. -/
def insertEntry (e : Entry) : List Entry → List Entry
  | [] => [e]
  | x :: xs => if recSeq e.1 < recSeq x.1 then e :: x :: xs else x :: insertEntry e xs
def sortEntries (es : List Entry) : List Entry := es.foldl (fun acc e => insertEntry e acc) []

/-! ## Reading a generation's entries -/

/-- The entries stored in a stripe. -/
def State.stripeEntries (s : State) (c : Coll) (n : Nat) : List Entry :=
  (List.range (hdrCount (s.header n))).map fun i => (s.segRead n (256 + 64 * i) 64, s.stripeVec c n i)

/-- The entries of a pinned block (R80). -/
def blockEntries (c : Coll) (bytes : List Byte) : List Entry :=
  let n := geoN c.vecBytes
  (List.range (hdrCount bytes)).map fun i => (slice bytes (256 + 64 * i) 64, slice bytes (256 + 64 * n + c.vecBytes * i) c.vecBytes)

/-- The entries stored in a list of a generation. -/
def State.listEntries (s : State) (c : Coll) (generation root l : Nat) : List Entry :=
  if c.pinned then (((c.blocksOf generation).filter fun b => b.1 == l).map fun b => blockEntries c (s.tile b.2).blockBytes).flatten
  else ((s.listChain c root l).map (s.stripeEntries c)).flatten

/-- The stash entries above the cut of a generation, tombstones included, revoked ones not. -/
def State.stashEntries (s : State) (c : Coll) (root : Nat) : List Entry :=
  let cut := rootCut (s.rootBody root)
  ((s.stashChain root).map (s.stripeEntries c)).flatten.filter fun e => recValid e.1 && decide (cut < recSeq e.1)

/-- Segments whose bytes a list's entries need. -/
def State.listNeeds (s : State) (c : Coll) (root l : Nat) : List Nat := if c.pinned then [] else s.chainSegs (s.listChain c root l)

/-! ## Writing stripes and blocks -/

/-- What a build has written so far. -/
structure Build where
  st : State
  fresh : List Nat := []
  locator : Map (Bool × Nat × Nat) := []
  blocks : List (Nat × Nat) := []

/-- Segments are allocated for the build. -/
def Build.take (b : Build) (owner kind g list written n : Nat) : Option (List Nat × Build) :=
  (b.st.allocMany owner kind g list written n).map fun p => (p.1, { b with st := p.2, fresh := b.fresh ++ p.1 })

/-- The bytes of a segment's start are written. -/
def Build.write (b : Build) (n off : Nat) (bytes : List Byte) : Build := { b with st := b.st.segWrite n off bytes }

/-- Vectors go into their segments, E to a segment. -/
def Build.writeVectors (b : Build) (e : Nat) (vs : List Nat) (vecs : List (List Byte)) : Build :=
  (vs.zip (pieces e vecs.length vecs)).foldl (fun b p => b.write p.1 0 p.2.flatten) b

/-- One stripe of a chain: its vector segments, header, records and vectors (R62, R63). -/
def Build.stripe (b : Build) (g : Nat) (c : Coll) (kind list generation index n next : Nat) (es : List Entry) : Option Build :=
  let e := geoE c.vecBytes
  let rs := es.map Prod.fst
  match b.take c.owner 8 g (if kind = 1 then list else Config.noSegment) generation (ceilDiv es.length e) with
  | none => none
  | some (vs, b) =>
    let h := mkHeader kind g next generation (if kind = 1 then list else 0) index es.length e
      (if kind = 1 then minSeqOf rs else 0) (if kind = 1 then maxSeqOf rs else 0) vs
    let b := (b.write n 0 (h ++ rs.flatten)).writeVectors e vs (es.map Prod.snd)
    some (if kind = 1 then { b with locator := es.zipIdx.foldl (fun m (p : Entry × Nat) => Map.put m (recSeq p.1.1) (false, n, p.2)) b.locator } else b)

/-- The stripes of a chain whose metadata segments are `ns`. -/
def Build.stripes (b : Build) (g : Nat) (c : Coll) (kind list generation : Nat) : Nat → List Nat → List (List Entry) → Option Build
  | i, n :: ns, es :: rest =>
    match b.stripe g c kind list generation i n (ns.headD Config.noSegment) es with
    | none => none
    | some b => b.stripes g c kind list generation (i + 1) ns rest
  | _, _, _ => some b

/-- A chain of stripes for entries: its metadata segments. -/
def Build.chain (b : Build) (g : Nat) (c : Coll) (kind list generation : Nat) (es : List Entry) : Option (List Nat × Build) :=
  let parts := pieces (geoC c.vecBytes) es.length es
  match b.take c.owner kind g (if kind = 1 then list else Config.noSegment) generation parts.length with
  | none => none
  | some (ns, b) => (b.stripes g c kind list generation 0 ns parts).map fun b => (ns, b)

/-- The tiles in the order of R44: column 0 from row 0 upward, then column 1, and so on. -/
def tileOrder : List Nat := ((List.range 16).map fun x => (List.range 16).map fun y => 16 * y + x).flatten

/-- The first tiles in that order that hold no pinned block. -/
def State.freeTiles (s : State) (n : Nat) : List Nat := (tileOrder.filter fun t => (s.tile t).block.isNone).take n

/-- The bytes of a pinned block (R80): 128 KiB. -/
def mkBlock (g : Nat) (c : Coll) (list generation index : Nat) (es : List Entry) : List Byte :=
  let rs := es.map Prod.fst
  let h := mkHeader 7 g Config.noSegment generation list index es.length 0 (minSeqOf rs) (maxSeqOf rs) []
  padTo 131072 (h ++ padTo (64 * geoN c.vecBytes) rs.flatten ++ (es.map Prod.snd).flatten)

/-- A list of a pinned collection goes into blocks of its own; none while too few tiles are free (R81). -/
def Build.pin (b : Build) (g : Nat) (c : Coll) (list generation : Nat) (es : List Entry) : Option Build :=
  let parts := pieces (geoN c.vecBytes) es.length es
  let ts := b.st.freeTiles parts.length
  if ts.length < parts.length then none
  else some ((ts.zip parts).zipIdx.foldl (fun (b : Build) (p : (Nat × List Entry) × Nat) =>
    let t := p.1.1
    let v := b.st.tile t
    { b with st := b.st.setTile t { v with block := some (g, list, mkBlock g c list generation p.2 p.1.2) }
             blocks := b.blocks ++ [(list, t)]
             locator := p.1.2.zipIdx.foldl (fun m (q : Entry × Nat) => Map.put m (recSeq q.1.1) (true, t, q.2)) b.locator }) b)

/-- A list's entries are stored: a chain, or pinned blocks. Answers the first stripe and the number of stripes. -/
def Build.list (b : Build) (g : Nat) (c : Coll) (l generation : Nat) (es : List Entry) : Except Nat ((Nat × Nat) × Build) :=
  if c.pinned then
    match b.pin g c l generation es with
    | some b => .ok ((Config.noSegment, 0), b)
    | none => .error stAborted
  else match b.chain g c 1 l generation es with
    | some (ns, b) => .ok ((ns.headD Config.noSegment, ns.length), b)
    | none => .error stQuota

/-- A table segment: header and body. -/
def tableSegment (kind g next generation index count : Nat) (body : List Byte) : List Byte :=
  mkHeader kind g next generation 0 index count 0 0 0 [] ++ body

/-- Table segments for items of equal size, `per` to a segment, linked up to the segment `after`. -/
def Build.table (b : Build) (g : Nat) (c : Coll) (kind generation per after : Nat) (items : List (List Byte)) : Option (List Nat × Build) :=
  let parts := pieces per items.length items
  match b.take c.owner kind g Config.noSegment generation parts.length with
  | none => none
  | some (ns, b) =>
    let nexts := ns.drop 1 ++ [after]
    some (ns, ((ns.zip nexts).zip parts).zipIdx.foldl (fun (b : Build) (p : ((Nat × Nat) × List (List Byte)) × Nat) =>
      b.write p.1.1.1 0 (tableSegment kind g p.1.1.2 generation p.2 p.1.2.length p.1.2.flatten)) b)

/-! ## A compaction's lists (R75, R136, R137) -/

/-- Killed at or below a number. -/
def killedBy (r : List Byte) (n : Nat) : Bool := recLink r != 0 && decide (recLink r ≤ n)

/-- The stash entries at or below a cut that a list receives: neither killed at or below it nor tombstones. -/
def merged (stash : List Entry) (l cut : Nat) : List Entry :=
  stash.filter fun e => decide (recSeq e.1 ≤ cut) && !recTomb e.1 && !killedBy e.1 cut && recList e.1 == l

/-- Killed records of a list at or below a number, and its records. -/
def State.killedOf (s : State) (c : Coll) (l n : Nat) : Nat × Nat :=
  let es := s.listEntries c c.generation c.root l
  ((es.filter fun e => killedBy e.1 n).length, es.length)

/-- The killed share of a list exceeds the trigger. -/
def State.killedOver (s : State) (c : Coll) (l cut : Nat) : Bool :=
  let k := s.killedOf c l (max c.committed cut)
  decide (s.cfg 0x2120 3 * k.2 < 10000 * k.1)

/-- The lists of this device that a run with a cut rewrites; a DAMAGED list is left as it is. -/
def State.changedLists (s : State) (c : Coll) (cut : Nat) : List Nat :=
  let stash := s.stashEntries c c.root
  (c.owned s.self).filter fun l =>
    !s.isDamaged c c.generation c.root l && (merged stash l cut != [] || s.killedOver c l cut)

/-- The entries of a list after a run with a cut. -/
def State.compacted (s : State) (c : Coll) (stash : List Entry) (l cut : Nat) : List Entry :=
  sortEntries (((s.listEntries c c.generation c.root l).filter fun e => !killedBy e.1 cut) ++ merged stash l cut)

/-- Segments of a chain of `n` entries. -/
def chainSize (b n : Nat) : Nat :=
  let cap := geoC b
  sumNat ((pieces cap n (List.range n)).map fun p => 1 + ceilDiv p.length (geoE b))

/-- Segments that a run with a cut needs on this device: one copy of each changed list, and new tables. -/
def State.runSize (s : State) (c : Coll) (cut : Nat) : Nat :=
  let stash := s.stashEntries c c.root
  let lists := if c.pinned then 0 else sumNat ((s.changedLists c cut).map fun l => chainSize c.vecBytes (s.compacted c stash l cut).length)
  lists + (s.dirSegs c.root).length + (s.centSegs c.root).length + 1

/-- The run fits into the free segments within the burrow's quota (R136). -/
def State.runFits (s : State) (c : Coll) (cut : Nat) : Bool := decide (s.runSize c cut ≤ min s.seg.free (s.quotaLeft c.owner))

/-- An entry of the stash is covered by its list's bound (R75, R136): for a standard metric the bound widens, for a custom
one its cover entry decides, a fault counting as not covered. -/
def State.stashCovered (s : State) (g : Nat) (c : Coll) (e : Entry) : State × Bool :=
  if c.metric ≠ .custom ∨ recTomb e.1 then (s, true)
  else
    let l := recList e.1
    match s.coverCall 0 g c (s.boundRec c c.root l) (s.centroid c c.root l) e.2 with
    | (s, .ok b) => (s, b)
    | (s, .error _) => (s, false)

/-- The first entry that stands in the way of a merge: not covered, or of a DAMAGED list. -/
def State.firstStuck (s : State) (g : Nat) (c : Coll) : List Entry → State × Option Nat
  | [] => (s, none)
  | e :: es =>
    let (s, ok) := s.stashCovered g c e
    if ok && !(s.isDamaged c c.generation c.root (recList e.1) && !recTomb e.1) then s.firstStuck g c es else (s, some (recSeq e.1))

/-- The cut that this device proposes (R136): the largest at which every condition holds; the current one where none
does. -/
def State.proposal (s : State) (g : Nat) (c : Coll) (committed : Nat) : State × Nat :=
  let old := rootCut (s.rootBody c.root)
  let top := max old (min committed c.flushed)
  let es := (s.stashEntries c c.root).filter fun e => decide (recSeq e.1 ≤ top)
  let (s, stuck) := s.firstStuck g c es
  let limit := match stuck with
    | some q => max old (q - 1)
    | none => top
  let below := ((es.map fun e => max old (recSeq e.1 - 1)).filter (· ≤ limit)).reverse
  (s, ((limit :: below).find? fun k => s.runFits c k).getD old)

/-! ## Bounds of a new generation (R71, R75) -/

/-- The bound record of a list of this device that stores entries `es`, of which `new` were merged (R75). -/
def State.newBound (s : State) (c : Coll) (l : Nat) (es new : List Entry) : List Byte :=
  let old := s.boundRec c c.root l
  let ce := elements c.ty c.dim (s.centroid c c.root l)
  let param := new.foldl (fun p e => widen c.metric c.ty (elements c.ty c.dim e.2) ce p) (boundParam old)
  mkBound l es.isEmpty (boundOwner old) (minSeqOf (es.map Prod.fst)) param (boundCustom old)

/-- The bound record of another device's list in a new generation: no message carries what its owner computed (Table
8.11), so m_L, EMPTY and the bound parameter are open. -/
def openBound (old : List Byte) (l draw : Nat) : List Byte :=
  let v := fun i => Config.openValue (11 + i) (draw * 2 ^ 20 + l)
  mkBound l (v 0 % 2 == 1) (boundOwner old) (v 1 % 2 ^ 48) (v 2 % 2 ^ 64) (boundCustom old)

/-- The bound records of a new generation: recomputed for changed lists, open for those of other devices, else as they
were. -/
def State.newBounds (s : State) (c : Coll) (changed : Map (List Byte)) : List (List Byte) :=
  (List.range c.lists).map fun l =>
    if ownerOf c.shards l = s.self then Map.getD changed l (s.boundRec c c.root l) else openBound (s.boundRec c c.root l) l s.draws

/-- The centroid stripes that carry new bound records: metadata segments are rewritten up to the last stripe that changes,
vector segments are shared. -/
def Build.bounds (b : Build) (g : Nat) (c : Coll) (generation : Nat) (changed : Map (List Byte)) : Option (List Nat × Build) :=
  let cap := geoC c.vecBytes
  let cents := b.st.centSegs c.root
  let all := b.st.newBounds c changed
  let same := fun i => (all.getD i []) == b.st.boundRec c c.root i
  let last := (List.range c.lists).foldl (fun m i => if same i then m else i / cap + 1) 0
  match b.take c.owner 3 g Config.noSegment generation last with
  | none => none
  | some (ns, b) =>
    let out := ns ++ cents.drop last
    some (out, (List.range last).foldl (fun (b : Build) i =>
      let h := b.st.header (cents.getD i 0)
      let vs := (List.range (hdrV h)).map (hdrVec h)
      let h' := mkHeader 3 g (out.getD (i + 1) Config.noSegment) generation 0 i (hdrCount h) (field h 26 2) 0 0 vs
      b.write (out.getD i 0) 0 (h' ++ ((all.drop (i * cap)).take (hdrCount h)).flatten)) b)

/-- The directory segments that carry new entries, rewritten up to the last one that changes. -/
def Build.directories (b : Build) (g : Nat) (c : Coll) (generation : Nat) (changed : Map (List Byte)) : Option (List Nat × Build) :=
  let own := c.owned b.st.self
  let olds := b.st.dirSegs c.root
  let entry := fun l =>
    let e := b.st.dirEntry c c.root l
    let e := if b.st.isDamaged c c.generation c.root l then mkDir (dirFirst e) (dirStripes e) (dirRecords e) l true c.pinned (field e 16 8) else e
    Map.getD changed l e
  let last := own.zipIdx.foldl (fun m (p : Nat × Nat) => if entry p.1 == b.st.dirEntry c c.root p.1 then m else p.2 / 2040 + 1) 0
  let rest := olds.drop last
  (b.table g c 4 generation 2040 (rest.headD Config.noSegment) ((own.take (2040 * last)).map entry)).map fun p => (p.1 ++ rest, p.2)

/-! ## A generation in preparation (R137) -/

/-- The changed lists of a run are written one after the other: directory entries and bound records by list. -/
def Build.runLists (b : Build) (g : Nat) (c : Coll) (generation cut : Nat) (stash : List Entry) :
    List Nat → Except Nat ((Map (List Byte) × Map (List Byte)) × Build)
  | [] => .ok (([], []), b)
  | l :: ls =>
    let es := b.st.compacted c stash l cut
    match b.list g c l generation es with
    | .error e => .error e
    | .ok ((first, n), b) =>
      match b.runLists g c generation cut stash ls with
      | .error e => .error e
      | .ok ((ds, bs), b) =>
        .ok ((Map.put ds l (mkDir first n es.length l false c.pinned generation), Map.put bs l (b.st.newBound c l es (merged stash l cut))), b)

/-- The Copy phase on this device: everything of generation g + 1 but its root. -/
def State.buildRun (s : State) (g : Nat) (c : Coll) (generation cut : Nat) : Except Nat (Prepared × State) :=
  let stash := s.stashEntries c c.root
  let lists := s.changedLists c cut
  let b : Build := { st := s.draw.2 }
  match b.runLists g c generation cut stash lists with
  | .error e => .error e
  | .ok ((ds, bs), b) =>
    match b.directories g c generation ds with
    | none => .error stQuota
    | some (dirs, b) =>
      match b.bounds g c generation bs with
      | none => .error stQuota
      | some (cents, b) =>
        let kept := c.blocks.filter fun p => !lists.contains p.1
        .ok ({ generation := generation, cut := cut, dirs := dirs, cents := cents, adjs := s.adjSegs c.root, fresh := b.fresh
               locator := b.locator, blocks := kept ++ b.blocks }, b.st)

/-- Segments that a Copy phase on this device reads and that are not on the device. -/
def State.runMissing (s : State) (c : Coll) : List Nat :=
  s.missing (s.chainSegs (s.centSegs c.root) ++ ((c.owned s.self).map fun l => s.listNeeds c c.root l).flatten)

/-- Blocks of a generation that no other one uses leave their tiles. -/
def State.clearBlocks (s : State) (ts : List Nat) : State :=
  ts.foldl (fun (s : State) t => s.setTile t { s.tile t with block := none }) s

/-- A generation in preparation is given up: its segments are FREE, and its blocks leave their tiles. -/
def State.abandonBuild (s : State) (g : Nat) : State :=
  match s.coll? g with
  | none => s
  | some c =>
    match c.prepared with
    | none => s
    | some p =>
      let s := s.setColl g { c with prepared := none }
      let s := (p.fresh ++ p.root.toList).foldl State.freeSeg s
      s.clearBlocks ((p.blocks.filter fun b => !c.blocks.contains b).map Prod.snd)

/-- The Prepare phase on this device: the root of generation g + 1, with the stash start that follows from R68. -/
def State.writeRoot (s : State) (g : Nat) : Option State :=
  match s.coll? g with
  | none => none
  | some c =>
    match c.prepared with
    | none => none
    | some p =>
      match s.alloc c.owner 6 g Config.noSegment p.generation with
      | none => none
      | some (r, s) =>
        let start := (c.stash.find? fun n => decide (p.cut < field (s.header n) 40 6)).getD Config.noSegment
        let bytes := mkRoot g p.generation p.cut start p.dirs p.cents p.adjs (c.owned s.self).length
        some ((s.segWrite r 0 bytes).setColl g { c with prepared := some { p with root := some r } })

/-! ## Flip, Retire and Free (R67, R137, R148) -/

/-- Every segment of a collection that is not among `keep` becomes RETIRING. -/
def State.retireRest (s : State) (g : Nat) (keep : List Nat) : State :=
  (s.seg.map.filter fun (e : Nat × Seg) => e.2.coll == g && e.2.kind != 0x0B && !keep.contains e.1).foldl
    (fun (s : State) e => s.retireSeg e.1) s

/-- The ID map and the counters of a load that is published (R86). -/
def Sequencer.loaded (q : Sequencer) (p : Prepared) : Sequencer :=
  match p.entries with
  | some n => { q with committed := n, accepted := n, idMap := p.ids }
  | none => q

/-- The device replaces its generation pointer by that of the prepared root, and Retire begins. -/
def State.flip (s : State) (g : Nat) : State :=
  match s.coll? g with
  | none => s
  | some c =>
    match c.prepared with
    | none => s
    | some p =>
      match p.root with
      | none => s
      | some r =>
        let kept := c.stash.filter fun n => decide (p.cut < field (s.header n) 40 6)
        let tables := c.idSegs ++ c.locSegs ++ p.idSegs ++ p.locSegs
        let keep := s.genSegs g c r ++ s.chainSegs kept ++ tables
        let stays := fun (e : Nat × Bool × Nat × Nat) => if e.2.1 then p.blocks.any fun b => b.2 == e.2.2.1 else keep.contains e.2.2.1
        let c' := { c with
          generation := p.generation, root := r, old := (c.generation, c.root) :: c.old, prepared := none, pull := none, stash := kept
          locator := p.locator.foldl (fun m (e : Nat × (Bool × Nat × Nat)) => Map.put m e.1 e.2) (c.locator.filter stays)
          oldLocator := c.oldLocator ++ c.locator.filter fun e => !stays e
          idSegs := c.idSegs ++ p.idSegs, locSegs := c.locSegs ++ p.locSegs
          blocks := p.blocks, oldBlocks := c.oldBlocks ++ c.blocks.map fun b => (c.generation, b.1, b.2)
          load := if p.entries.isSome then .loaded else c.load, seqr := (c.seqr.map fun q => q.loaded p).map fun q => { q with undo := q.undo.filter fun u => p.cut < u.1 }
          kills := c.kills.filter fun k => p.cut < k.1
          flushed := max c.flushed (p.entries.getD 0), seen := max c.seen (p.entries.getD 0) }
        (s.setColl g c').retireRest g keep

/-- A generation still has a reader on this device (R137). -/
def State.hasReader (s : State) (g generation : Nat) : Bool :=
  (s.sched.ctxs.any fun (e : Nat × Ctx) => e.2.coll == g && e.2.generation == generation && e.2.phase != .finished && e.2.phase != .stamping)
    || s.host.live.any fun (e : Nat × Live) => e.2.coll == g && ((e.2.exporting.map fun x => x.generation == generation).getD false)

/-- What a generation references, its stash included. -/
def State.refs (s : State) (g : Nat) (c : Coll) (root : Nat) : List Nat := s.genSegs g c root ++ s.chainSegs (s.stashChain root)

/-- Free: old generations without a reader are forgotten, and segments that no remaining one references become FREE; a
dropped collection is gone once it holds no segment (R137, R148, R183). -/
def State.freeGenerations (s : State) (g : Nat) : State :=
  match s.coll? g with
  | none => s
  | some c =>
    let old := c.old.filter fun gr => s.hasReader g gr.1
    let c' := { c with old := old, oldBlocks := c.oldBlocks.filter fun b => old.any fun gr => gr.1 == b.1
                       damaged := c.damaged.filter fun d => d.1 == c.generation || old.any fun gr => gr.1 == d.1 }
    let held := (old.map fun gr => s.refs g c gr.2).flatten ++ (if c.dropped then [] else s.refs g c c.root)
    let s := s.setColl g c'
    let goes := fun (e : Nat × Seg) => e.2.coll == g && e.2.kind != 0x0B && (e.2.state == .retiring || e.2.state == .quarantined) && !held.contains e.1
    let s := if s.seg.map.any goes then s.modSeqr g fun q => { q with starved := false } else s
    let s := (s.seg.map.filter goes).foldl (fun (s : State) e => s.freeSeg e.1) s
    let stays := (c'.blocks ++ c'.oldBlocks.map Prod.snd ++ (c'.prepared.map (·.blocks)).getD []).map Prod.snd
    let s := s.clearBlocks (((List.range 256).filter fun t => ((s.tile t).block.map fun b => b.1 == g).getD false).filter fun t => !stays.contains t)
    let busy := ((c.seqr.map fun q => q.drop.isSome || q.creation.isSome)).getD false
    let gone := fun (e : Nat × Bool × Nat × Nat) => if e.2.1 then !stays.contains e.2.2.1 else (s.seg_ e.2.2.1).state == .free
    let s := s.modColl g fun c => { c with oldLocator := c.oldLocator.filter fun e => !gone e }
    if c'.dropped && old.isEmpty && !busy && s.seg.map.all fun (e : Nat × Seg) => e.2.coll != g || e.2.kind == 0x0B
    then { s with colls := Map.del s.colls g } else s

/-- SEGMENT_FREE (R137). -/
def execSegmentFree (g : Nat) (s : State) : Host.Outcome State Fault Refusal := .next (s.freeGenerations g).segmentAudit

end Sys2Proof.Machine
end

