-- ==== Sys2Proof/Machine/Image.lean ====
section
/-! DEFINITION. The LOAD_LISTS image: its layout (R84) and the loading device's checks, steps 1 to 7 of Table 3.10 (R85). -/

namespace Sys2Proof.Machine

/-! ## Header and sections (Tables 3.8, 3.9) -/

def imgSectionCount (m : List Byte) : Nat := field m 6 2
def imgDim (m : List Byte) : Nat := field m 8 2
def imgLists (m : List Byte) : Nat := field m 12 4
def imgFlags (m : List Byte) : Nat := field m 16 4
def imgRepair (m : List Byte) : Bool := (imgFlags m).testBit 0
def imgCarried (m : List Byte) : Nat := field m 20 4
def imgEntries (m : List Byte) : Nat := field m 24 8

/-- A section table entry. -/
structure ImgSection where
  kind : Nat
  crc : Nat
  off : Nat
  len : Nat
  deriving DecidableEq, Repr

/-- The section table of an image's first bytes. -/
def imgSections (m : List Byte) : List ImgSection :=
  (List.range (imgSectionCount m)).map fun i =>
    let e := m.drop (128 + 24 * i)
    { kind := field e 0 4, crc := field e 4 4, off := field e 8 8, len := field e 16 8 }

/-- The section of a type. -/
def sectionOf (ss : List ImgSection) (kind : Nat) : Option ImgSection := ss.find? fun x => x.kind == kind

/-- The bytes of the section of a type; none where the image has no such section. -/
def imgBytes (m : List Byte) (kind : Nat) : List Byte :=
  match sectionOf (imgSections m) kind with
  | some x => slice m x.off x.len
  | none => []

/-- A LIST_INDEX entry: list ID, record count, first record index. -/
abbrev IndexEntry := Nat × Nat × Nat

/-- The entries of a LIST_INDEX section. -/
def indexEntries (bs : List Byte) (n : Nat) : List IndexEntry :=
  (List.range n).map fun i => (field bs (16 * i) 4, field bs (16 * i + 4) 4, field bs (16 * i + 8) 8)

/-- What the checks need of the collection. -/
structure ImgTarget where
  dim : Nat
  ty : ElemType
  metric : Metric
  lists : Nat
  notLoaded : Bool
  loaded : Bool

def ImgTarget.vecBytes (c : ImgTarget) : Nat := c.dim * c.ty.size

/-! ## The checks (Table 3.10) -/

/-- Step 1. -/
def imgHeaderOk (m : List Byte) : Bool :=
  decide (128 ≤ m.length) && m.take 4 == ascii "RLIX" && field m 4 2 == 1 && field m 124 4 == crc32c (m.take 124)

/-- Step 3. -/
def imgFieldsOk (c : ImgTarget) (m : List Byte) : Bool :=
  field m 10 1 == c.ty.code && field m 11 1 == c.metric.code && imgLists m == c.lists && decide (1 ≤ imgSectionCount m ∧ imgSectionCount m ≤ 6)
    && decide (imgCarried m ≤ c.lists) && zeroAt m 38 86 && decide (imgFlags m < 2)
    && (if imgRepair m then c.loaded else c.notLoaded)

/-- Strictly rising. -/
def rising : List Nat → Bool
  | x :: y :: r => decide (x < y) && rising (y :: r)
  | _ => true

/-- No two of the sections overlap. -/
def apart : List ImgSection → Bool
  | [] => true
  | x :: r => (r.all fun y => decide (x.off + x.len ≤ y.off ∨ y.off + y.len ≤ x.off)) && apart r

/-- Step 4. -/
def imgTableOk (m : List Byte) : Bool :=
  let n := 128 + 24 * imgSectionCount m
  let ss := imgSections m
  let has := fun k => (sectionOf ss k).isSome
  decide (n ≤ m.length) && (ss.all fun x => decide (1 ≤ x.kind ∧ x.kind ≤ 6)) && rising (ss.map (·.kind))
    && (ss.all fun x => decide (n ≤ x.off ∧ x.off + x.len ≤ m.length)) && apart ss
    && (ss.all fun x => x.crc == crc32c (slice m x.off x.len))
    && (imgRepair m || (has 1 && has 2 && has 3))
    && (imgCarried m == 0 || has 4) && (imgEntries m == 0 || (has 5 && has 6))

/-- First record indices follow on from one another. -/
def indexFollows : Nat → List IndexEntry → Bool
  | _, [] => true
  | at_, e :: r => e.2.2 == at_ && indexFollows (at_ + e.2.1) r

/-- Step 5. -/
def imgLengthsOk (c : ImgTarget) (m : List Byte) : Bool :=
  let ss := imgSections m
  let len := fun k n => ((sectionOf ss k).map fun x => x.len == n).getD true
  let ix := indexEntries (imgBytes m 4) (imgCarried m)
  len 1 (c.lists * c.vecBytes) && len 2 (c.lists * 64) && len 3 (c.lists * 32) && len 4 (imgCarried m * 16)
    && len 5 (imgEntries m * 64) && len 6 (imgEntries m * c.vecBytes)
    && rising (ix.map Prod.fst) && (ix.all fun e => decide (e.1 < c.lists)) && indexFollows 0 ix
    && sumNat (ix.map fun e => e.2.1) == imgEntries m

/-- The bound parameter is finite and in the metric's range. -/
def boundParamOk (m : Metric) (p : Nat) : Bool :=
  !isNan .b64 p && !isInf .b64 p
    && (match m with
      | .cosine => le64 negOne64 p && le64 p one64
      | .custom => p == 0
      | _ => le64 0 p)

/-- Bound record `i` of the image (step 6). -/
def imgBoundOk (c : ImgTarget) (i : Nat) (r : List Byte) : Bool :=
  boundList r == i && decide (field r 0 4 < 2 ^ 21) && decide (field r 4 1 < 128) && zeroAt r 5 3 && zeroAt r 14 2 && zeroAt r 56 8
    && (c.metric == .custom || zeroAt r 24 32) && boundParamOk c.metric (boundParam r)

/-- No number twice. -/
def distinct : List Nat → Bool
  | [] => true
  | x :: r => !r.contains x && distinct r

/-- The adjacency entry of list `i` keeps R76. -/
def adjacencyOk (lists i : Nat) (e : List Byte) : Bool :=
  let fs := (List.range 8).map fun j => field e (4 * j) 4
  let used := fs.takeWhile (· != Config.noSegment)
  (fs.drop used.length).all (· == Config.noSegment) && used.all (fun n => decide (n < lists) && n != i) && distinct used

/-- A metadata record of the image, in the group of list `l` (step 6). -/
def imgRecordOk (repair : Bool) (l : Nat) (r : List Byte) : Bool :=
  recValid r && !recTomb r && decide (recFlags r < 8) && zeroAt r 14 2 && zeroAt r 52 4 && decide (field r 48 4 < 2 ^ 20) && recList r == l
    && (if repair then recSeq r != 0 else recSeq r == 0)

/-- Record `i` of a section of `n`-byte items. -/
def item (bs : List Byte) (n i : Nat) : List Byte := slice bs (n * i) n

/-- Step 6. -/
def imgRecordsOk (c : ImgTarget) (m : List Byte) : Bool :=
  let repair := imgRepair m
  let bounds := imgBytes m 2
  let adj := imgBytes m 3
  let metas := imgBytes m 5
  let ix := indexEntries (imgBytes m 4) (imgCarried m)
  (repair || ((List.range c.lists).all fun i => imgBoundOk c i (item bounds 64 i) && adjacencyOk c.lists i (item adj 32 i)))
    && (ix.all fun e => (List.range e.2.1).all fun j => imgRecordOk repair e.1 (item metas 64 (e.2.2 + j)))
    && (repair || distinct ((List.range (imgEntries m)).map fun j => recExt (item metas 64 j)))

/-- A vector has no NaN or infinity and, for cosine, no zero norm. -/
def vectorOk (c : ImgTarget) (v : List Byte) : Bool :=
  let es := elements c.ty c.dim v
  !(es.any c.ty.bad) && (c.metric != .cosine || sqNorm c.ty es != 0)

/-- Step 7. -/
def imgValuesOk (c : ImgTarget) (m : List Byte) : Bool :=
  let b := c.vecBytes
  let cents := imgBytes m 1
  let vecs := imgBytes m 6
  (imgRepair m || (List.range c.lists).all fun i => vectorOk c (item cents b i))
    && (List.range (imgEntries m)).all fun j => vectorOk c (item vecs b j)

/-- Steps 1 to 7: the status of the first check that fails; 0x0010 INVALID_FIELD, 0x0012 DIM_MISMATCH, 0x0011
BAD_VECTOR. -/
def imageCheck (c : ImgTarget) (m : List Byte) : Option Nat :=
  if !imgHeaderOk m then some 0x0010
  else if imgDim m ≠ c.dim then some 0x0012
  else if !imgFieldsOk c m then some 0x0010
  else if !imgTableOk m then some 0x0010
  else if !imgLengthsOk c m then some 0x0010
  else if !imgRecordsOk c m then some 0x0010
  else if !imgValuesOk c m then some 0x0011
  else none

end Sys2Proof.Machine
end

