-- ==== Sys2Proof/Machine/Loads.lean ====
section
/-! DEFINITION. LOAD_LISTS: admission, pulling the image, building the loaded or repaired generation (R84 to R88). -/

namespace Sys2Proof.Machine

/-! ## COLL_CTRL (Table 8.11) -/

def opCreate : Nat := 1
def opDrop : Nat := 2
def opPrepare : Nat := 3
def opFlip : Nat := 4
def opScrub : Nat := 5
def opLoadPrepare : Nat := 6
def opLoadAbandon : Nat := 7
def opLost : Nat := 8

/-- The body of a COLL_CTRL or CTRL_ACK that is no CREATE. -/
def ctrlBody (kind op status generation seq device : Nat) : List Byte :=
  toLE 1 kind ++ toLE 1 op ++ toLE 2 status ++ zeros 4 ++ toLE 8 generation ++ toLE 6 seq ++ toLE 1 device ++ zeros 25

/-- A COLL_CTRL to one device. -/
def State.ctrl (s : State) (g dest op tag requester generation seq device : Nat) : State :=
  s.requestFor dest mCollCtrl 0 tag requester g op (ctrlBody 0 op 0 generation seq device)

/-- A COLL_CTRL to several devices. -/
def State.ctrlAll (s : State) (g : Nat) (ds : List Nat) (op tag requester generation seq device : Nat) : State :=
  ds.foldl (fun s d => s.ctrl g d op tag requester generation seq device) s

/-- The acknowledgement of a COLL_CTRL message. -/
def State.ackCtrl (s : State) (m : List Byte) (status seq : Nat) : State :=
  s.send (msgSource m) mCollCtrl 0 (msgTag m) (msgRequester m) (msgColl m) (ctrlBody 1 (field (msgBody m) 1 1) status 0 seq 0)

/-- A COLL_CTRL message of the operation given. -/
def State.takeCtrl (s : State) (i op : Nat) : Option (List Byte × State) :=
  match s.takeKind i mCollCtrl 0 with
  | some (m, s') => if field (msgBody m) 1 1 = op then some (m, s') else none
  | none => none

/-! ## Admission and the first reading (R88, step 1) -/

/-- What the image checks need of a collection. -/
def Coll.target (c : Coll) : ImgTarget :=
  { dim := c.dim, ty := c.ty, metric := c.metric, lists := c.lists, notLoaded := c.load == .notLoaded, loaded := c.load == .loaded }

/-- LOAD_LISTS (R84, R85, R88, R183): `data` is the whole image as the host's memory holds it. -/
def execLoadLists (data : List Byte) (s : State) : Host.Outcome State Fault Refusal :=
  .next (match s.begin_ 0x53 with
    | none => s
    | some (f, s') =>
      let d := f.bytes
      let b := f.origin.burrow
      match s.manageCheck b d (loadFieldsOk d) false, s'.served (dColl d) with
      | some st, _ => s'.refuse f st
      | none, none => s'.refuse f stNoColl
      | none, some c =>
        if data.length ≠ field d 24 8 then s
        else
          let s' := s'.emit (.hostRead (b + 1) (field d 16 8) data.length)
          match imageCheck c.target data with
          | some st => s'.refuse f st
          | none => (s'.takeIn f).2)

/-! ## Pulling (R88, step 3) -/

/-- Bytes of the image that have been pulled, from `off` on, `n` of them; fewer where some are missing. -/
def Pull.bytes (p : Pull) (off n : Nat) : Nat → List Byte
  | 0 => []
  | fuel + 1 =>
    if n = 0 then []
    else match p.got.find? fun (e : Nat × List Byte) => decide (e.1 ≤ off ∧ off < e.1 + e.2.length) with
      | none => []
      | some e =>
        let part := (e.2.drop (off - e.1)).take n
        part ++ Pull.bytes p (off + part.length) (n - part.length) fuel

/-- The same with fuel for every part. -/
def Pull.read (p : Pull) (off n : Nat) : List Byte := p.bytes off n (p.got.length + 1)

/-- A range in parts of at most 64 KiB. -/
def pullParts (off n : Nat) : Nat → List (Nat × Nat)
  | 0 => []
  | fuel + 1 => if n = 0 then [] else (off, min n 65536) :: pullParts (off + 65536) (n - 65536) fuel

/-- The part has been pulled in full. -/
def Pull.has (p : Pull) (r : Nat × Nat) : Bool := ((Map.get? p.got r.1).map fun b => b.length == r.2).getD false

/-- The section table as pulled. -/
def Pull.sections (p : Pull) : List ImgSection :=
  let h := p.read 0 128
  imgSections (h ++ p.read 128 (24 * imgSectionCount h))

/-- The parts of a section. -/
def Pull.sectionParts (p : Pull) (kind : Nat) : List (Nat × Nat) :=
  match sectionOf p.sections kind with
  | some x => pullParts x.off x.len (x.len / 65536 + 1)
  | none => []

/-- The bytes of a section as pulled. -/
def Pull.section_ (p : Pull) (kind : Nat) : List Byte :=
  match sectionOf p.sections kind with
  | some x => p.read x.off x.len
  | none => []

/-- The LIST_INDEX as pulled. -/
def Pull.index (p : Pull) : List IndexEntry :=
  let bs := p.section_ 4
  indexEntries bs (bs.length / 16)

/-- The image is a repair, as pulled. -/
def Pull.repair (p : Pull) : Bool := imgRepair (p.read 0 128)

/-- The carried lists whose entries this device stores: those it owns, in a repair only the DAMAGED ones (R87, R88). -/
def State.pullLists (s : State) (c : Coll) (p : Pull) : List IndexEntry :=
  p.index.filter fun e =>
    ownerOf c.shards e.1 == s.self && (!p.repair || s.isDamaged c c.generation c.root e.1)

/-- The parts this device pulls, in the order in which it can know of them: header, section table, tables, entries. The
sequencer device also needs every metadata record of an initial load, for its ID map. -/
def State.pullPlan (s : State) (c : Coll) (p : Pull) : List (Nat × Nat) :=
  let head := [(0, 128)]
  if !p.has (0, 128) then head
  else
    let table := pullParts 128 (24 * imgSectionCount (p.read 0 128)) 32
    if !table.all p.has then head ++ table
    else
      let tables := ((if p.repair then [4] else [1, 2, 3, 4]).map p.sectionParts).flatten
      if !tables.all p.has then head ++ table ++ tables
      else
        let off := fun k => ((sectionOf p.sections k).map (·.off)).getD 0
        let whole := if s.isSequencer c && !p.repair then p.sectionParts 5 else []
        let mine := (s.pullLists c p).map fun e =>
          (if whole = [] then pullParts (off 5 + 64 * e.2.2) (64 * e.2.1) (e.2.1 / 1024 + 1) else [])
            ++ pullParts (off 6 + c.vecBytes * e.2.2) (c.vecBytes * e.2.1) (c.vecBytes * e.2.1 / 65536 + 1)
        head ++ table ++ tables ++ whole ++ mine.flatten

/-- The next part to pull. -/
def State.nextPull (s : State) (c : Coll) (p : Pull) : Option (Nat × Nat) := (s.pullPlan c p).find? fun r => !p.has r

/-- An IMAGE_PULL leaves. -/
def State.sendPull (s : State) (g : Nat) (p : Pull) (r : Nat × Nat) : State :=
  s.requestFor p.loader mImagePull 0 p.tag p.loader g r.1 (toLE 8 r.1 ++ toLE 4 r.2 ++ zeros 4)

/-- Answers of up to 64 KiB in messages of at most 20,480 bytes, LAST on the final one (R200, R212). -/
def State.sendImage (s : State) (dest tag requester g off : Nat) : List (List Byte) → State
  | [] => s
  | bs :: rest =>
    let s := s.send dest mImageData (if rest.isEmpty then 4 else 0) tag requester g (toLE 8 off ++ toLE 4 bs.length ++ zeros 4 ++ bs)
    s.sendImage dest tag requester g (off + bs.length) rest

/-- IMAGE_PULL (R88): `data` is what the host's memory holds there at this moment. -/
def execImagePull (i : Nat) (data : List Byte) (s : State) : Host.Outcome State Fault Refusal :=
  .next (match s.take i mImagePull with
    | none => s
    | some (m, s') =>
      let off := field (msgBody m) 0 8
      let n := field (msgBody m) 8 4
      match (s'.byTag (msgTag m)).bind s'.live? with
      | none => s'
      | some l =>
        if l.opcode ≠ 0x53 then s'
        else if data.length ≠ n then s
        else (s'.emit (.hostRead (l.origin.burrow + 1) (field l.bytes 16 8 + off) n)).sendImage
          (msgSource m) (msgTag m) (msgRequester m) (msgColl m) off (pieces 20448 n data))

/-! ## Entries of an image -/

/-- Entry `j` of the image as pulled: its record and its vector. -/
def Pull.entry (p : Pull) (b j : Nat) : Entry :=
  let off := fun k => ((sectionOf p.sections k).map (·.off)).getD 0
  (p.read (off 5 + 64 * j) 64, p.read (off 6 + b * j) b)

/-- The entries of a LIST_INDEX group. -/
def Pull.group (p : Pull) (b : Nat) (e : IndexEntry) : List (Nat × Entry) := (List.range e.2.1).map fun i => (e.2.2 + i, p.entry b (e.2.2 + i))

/-- A record with its squared norm as R86 computes it. -/
def withNorm (c : Coll) (e : Entry) : Entry :=
  (splice e.1 56 (toLE 8 (if c.metric = .cosine then storedNorm c.ty (elements c.ty c.dim e.2) else 0)), e.2)

/-- A record of an initial load: sequence number j from 1, kill sequence 0, REPLACES clear (R86). -/
def loadEntry (c : Coll) (je : Nat × Entry) : Entry :=
  withNorm c (withFlags (withLink (withSeq je.2.1 (je.1 + 1)) 0) 1, je.2.2)

/-- Step 8 for one entry: it lies within a bound; a fault of a cover entry counts as not covered. -/
def State.entryCovered (s : State) (g : Nat) (c : Coll) (bound centroid vec : List Byte) : State × Bool :=
  if c.metric = .custom then
    match s.coverCall 0 g c bound centroid vec with
    | (s, .ok b) => (s, b)
    | (s, .error _) => (s, false)
  else (s, covered c.metric c.ty (elements c.ty c.dim vec) (elements c.ty c.dim centroid) (boundParam bound))

/-- Step 8 for the entries of a list. -/
def State.allCovered (s : State) (g : Nat) (c : Coll) (bound centroid : List Byte) : List Entry → State × Bool
  | [] => (s, true)
  | e :: es =>
    match s.entryCovered g c bound centroid e.2 with
    | (s, true) => s.allCovered g c bound centroid es
    | (s, false) => (s, false)

/-! ## The generation of an initial load (R86) -/

/-- The bound record of list `l` in the loaded generation: m_L, EMPTY and the owner are the device's own (R85). -/
def loadBound (c : Coll) (ix : List IndexEntry) (bounds : List Byte) (l : Nat) : List Byte :=
  let r := item bounds 64 l
  let first := match ix.find? fun e => e.1 == l && e.2.1 != 0 with
    | some e => some (e.2.2 + 1)
    | none => none
  mkBound l first.isNone (ownerOf c.shards l) (first.getD Config.noSequence) (boundParam r) (boundCustom r)

/-- The lists of this device with their entries, stored one after the other: directory entries by list. -/
def Build.loadLists (b : Build) (g : Nat) (c : Coll) (p : Pull) : List IndexEntry → Except Nat (Map (List Byte) × Build)
  | [] => .ok ([], b)
  | e :: es =>
    let entries := (p.group c.vecBytes e).map (loadEntry c)
    match b.list g c e.1 1 entries with
    | .error _ => .error stQuota
    | .ok ((first, n), b) =>
      match b.loadLists g c p es with
      | .error x => .error x
      | .ok (ds, b) => .ok (Map.put ds e.1 (mkDir first n entries.length e.1 false c.pinned 1), b)

/-- Step 8 of an initial load: the entries this device stores, within the image's bounds. -/
def State.loadCovered (s : State) (g : Nat) (c : Coll) (p : Pull) (bounds cents : List Byte) : List IndexEntry → State × Bool
  | [] => (s, true)
  | e :: es =>
    match s.allCovered g c (item bounds 64 e.1) (item cents c.vecBytes e.1) ((p.group c.vecBytes e).map Prod.snd) with
    | (s, true) => s.loadCovered g c p bounds cents es
    | (s, false) => (s, false)

/-- What this device stores of an initial load: all but the root. -/
def State.buildLoad (s : State) (g : Nat) (c : Coll) (p : Pull) : Except Nat (Prepared × State) :=
  let cents := p.section_ 1
  let bounds := p.section_ 2
  let adj := p.section_ 3
  let ix := p.index
  let n := imgEntries (p.read 0 128)
  match ({ st := s } : Build).loadLists g c p (s.pullLists c p) with
  | .error e => .error e
  | .ok (ds, b) =>
    let own := (c.owned s.self).map fun l => Map.getD ds l (mkDir Config.noSegment 0 0 l false c.pinned 1)
    let table := (List.range c.lists).map fun l => (loadBound c ix bounds l, item cents c.vecBytes l)
    match b.table g c 4 1 2040 Config.noSegment own with
    | none => .error stQuota
    | some (dirs, b) =>
      match b.chain g c 3 0 1 table with
      | none => .error stQuota
      | some (centSegs, b) =>
        match b.table g c 5 1 2040 Config.noSegment ((List.range c.lists).map fun l => item adj 32 l) with
        | none => .error stQuota
        | some (adjs, b) =>
          match b.take c.owner 0x0A g Config.noSegment 1 (ceilDiv b.locator.length 4096) with
          | none => .error stQuota
          | some (locSegs, b) =>
            match b.take c.owner 9 g Config.noSegment 1 (if s.isSequencer c then ceilDiv n 4096 else 0) with
            | none => .error stQuota
            | some (idSegs, b) =>
              let ids : Map (Nat × Nat) := if s.isSequencer c then
                  ix.foldl (fun m e => (p.group 0 e).foldl (fun m je => Map.put m (recExt je.2.1) (je.1 + 1, ownerOf c.shards e.1)) m) []
                else []
              .ok ({ generation := 1, cut := n, dirs := dirs, cents := centSegs, adjs := adjs, fresh := b.fresh, locator := b.locator
                     blocks := b.blocks, ids := ids, entries := some n, idSegs := idSegs, locSegs := locSegs }, b.st)

/-! ## The generation of a repair (R87) -/

/-- The ID map names a record as the live entry of its external ID. Only the sequencer device holds the ID map, and no
message carries what it says (Table 8.11): elsewhere this is open. -/
def State.namedLive (s : State) (c : Coll) (r : List Byte) : Bool :=
  match c.seqr with
  | some q => ((Map.get? q.idMap (recExt r)).map fun e => e.1 == recSeq r).getD false
  | none => Config.openValue 15 (s.draws * 2 ^ 48 + recSeq r) % 2 == 1

/-- The list in which a locator entry of this device says a record is stored, outside the stash. -/
def State.storedList (s : State) (c : Coll) (at_ : Bool × Nat × Nat) : Option Nat :=
  if at_.1 then (c.blocks.find? fun b => b.2 == at_.2.1).map Prod.fst
  else if (s.seg_ at_.2.1).kind = 1 then some (s.seg_ at_.2.1).list else none

/-- Live entries of a list that the ID map and the locator table record. -/
def State.liveOfList (s : State) (c : Coll) (l : Nat) : List Nat :=
  match c.seqr with
  | some q => ((Map.vals q.idMap).filter fun e => e.2 == s.self && ((Map.get? c.locator e.1).bind fun a => s.storedList c a) == some l).map Prod.fst
  | none => []

/-- The repaired entries of a list: those named live, with kill sequence 0 and their norms (R86, R87). -/
def State.repairEntries (s : State) (c : Coll) (p : Pull) (e : IndexEntry) : List Entry :=
  sortEntries (((p.group c.vecBytes e).map Prod.snd |>.filter fun x => s.namedLive c x.1).map fun x => withNorm c (withLink x.1 0, x.2))

/-- The list is restored: every live entry recorded for it is among the restored ones. -/
def State.restored (s : State) (c : Coll) (l : Nat) (es : List Entry) : Bool :=
  if c.seqr.isSome then (s.liveOfList c l).all fun n => es.any fun e => recSeq e.1 == n
  else Config.openValue 16 (s.draws * 2 ^ 20 + l) % 2 == 1

/-- The restored lists of this device, stored one after the other: directory entries and bound records by list. -/
def Build.repairLists (b : Build) (g : Nat) (c : Coll) (p : Pull) (generation : Nat) :
    List IndexEntry → Except Nat ((Map (List Byte) × Map (List Byte)) × Build)
  | [] => .ok (([], []), b)
  | e :: es =>
    let entries := b.st.repairEntries c p e
    if !b.st.restored c e.1 entries then b.repairLists g c p generation es
    else match b.list g c e.1 generation entries with
      | .error x => .error x
      | .ok ((first, n), b) =>
        match b.repairLists g c p generation es with
        | .error x => .error x
        | .ok ((ds, bs), b) =>
          .ok ((Map.put ds e.1 (mkDir first n entries.length e.1 false c.pinned generation), Map.put bs e.1 (b.st.newBound c e.1 entries [])), b)

/-- What this device stores of a repair: all but the root. -/
def State.buildRepair (s : State) (g : Nat) (c : Coll) (p : Pull) (generation cut : Nat) : Except Nat (Prepared × State) :=
  let lists := s.pullLists c p
  match ({ st := s.draw.2 } : Build).repairLists g c p generation lists with
  | .error e => .error e
  | .ok ((ds, bs), b) =>
    match b.directories g c generation ds with
    | none => .error stQuota
    | some (dirs, b) =>
      match b.bounds g c generation bs with
      | none => .error stQuota
      | some (cents, b) =>
        let kept := c.blocks.filter fun x => !(Map.get? ds x.1).isSome
        .ok ({ generation := generation, cut := cut, dirs := dirs, cents := cents, adjs := s.adjSegs c.root, fresh := b.fresh
               locator := b.locator, blocks := kept ++ b.blocks, lacking := lists.any fun e => (Map.get? ds e.1).isNone }, b.st)

/-- Step 8 of a repair: the entries of the lists this device repairs, within the bounds of the generation it replaces. -/
def State.repairCovered (s : State) (g : Nat) (c : Coll) (p : Pull) : List IndexEntry → State × Bool
  | [] => (s, true)
  | e :: es =>
    match s.allCovered g c (s.boundRec c c.root e.1) (s.centroid c c.root e.1) ((p.group c.vecBytes e).map Prod.snd) with
    | (s, true) => s.repairCovered g c p es
    | (s, false) => (s, false)

/-! ## The end of pulling (R88, step 4) -/

/-- The acknowledgement of LOAD_PREPARE, to the sequencer. -/
def State.ackLoad (s : State) (g : Nat) (c : Coll) (p : Pull) (status : Nat) : State :=
  s.send (sequencerOf c.shards) mCollCtrl 0 p.tag p.loader g (ctrlBody 1 opLoadPrepare status 0 0 0)

/-- Everything has been pulled: an initial load is stored, a repair checked, and LOAD_PREPARE answered. -/
def State.endPull (s : State) (g : Nat) (c : Coll) (p : Pull) : State :=
  if p.repair then
    if c.load ≠ .loaded then s.ackLoad g c p stInvalid
    else match s.repairCovered g c p (s.pullLists c p) with
      | (s, true) => s.ackLoad g c p stOk
      | (s, false) => s.ackLoad g c p stInvalid
  else if c.load = .loaded then s.ackLoad g c p stInvalid
  else match s.loadCovered g c p (p.section_ 2) (p.section_ 1) (s.pullLists c p) with
    | (s, false) => s.ackLoad g c p stInvalid
    | (s, true) =>
      match s.buildLoad g c p with
      | .error e => s.ackLoad g c p e
      | .ok (q, s) => (s.modColl g fun c => { c with prepared := some q }).ackLoad g c p stOk

/-- The next pull leaves, or pulling ends. -/
def State.goOnPulling (s : State) (g : Nat) : State :=
  match s.coll? g with
  | none => s
  | some c =>
    match c.pull with
    | none => s
    | some p =>
      match s.nextPull c p with
      | some r => s.sendPull g p r
      | none => s.endPull g c p

/-- IMAGE_DATA (R88, R213). -/
def execImageData (i : Nat) (s : State) : Host.Outcome State Fault Refusal :=
  .next (match s.take i mImageData with
    | none => s
    | some (m, s) =>
      let g := msgColl m
      match s.awaited mImagePull (msgSource m) (msgTag m) g with
      | none => s.lateResponse
      | some r =>
        let bytes := (msgBody m).drop 16
        let so := (((s.coll? g).bind (·.pull)).map fun p => (Map.getD p.got r.owner []).length).getD 0
        if field (msgBody m) 0 8 ≠ r.owner + so then s.lateResponse
        else
        let s := s.modColl g fun c => { c with pull := c.pull.map fun p => { p with got := Map.put p.got r.owner (Map.getD p.got r.owner [] ++ bytes) } }
        if msgLast m then (s.endRequest r).goOnPulling g else s)

/-- COLL_CTRL LOAD_PREPARE (R88): the device begins to pull. A prepared generation that was never published is given up. -/
def execCollCtrlLoadPrepare (i : Nat) (s : State) : Host.Outcome State Fault Refusal :=
  .next (match s.takeCtrl i opLoadPrepare with
    | none => s
    | some (m, s) =>
      let g := msgColl m
      match s.served g with
      | none => s.ackCtrl m stNoColl 0
      | some _ =>
        let p : Pull := { loader := field (msgBody m) 22 1 % 128, tag := msgTag m }
        let s := s.abandonBuild g
        (s.modColl g fun c => { c with pull := some p, load := if c.load = .notLoaded then .running else c.load }).goOnPulling g)

/-- A load is given up on this device: its new segments are FREE (R88, step 4). -/
def State.abandonLoad (s : State) (g : Nat) : State :=
  (s.abandonBuild g).modColl g fun c => { c with pull := none, load := if c.load = .running then .notLoaded else c.load }

/-- COLL_CTRL LOAD_ABANDON (R88). -/
def execCollCtrlLoadAbandon (i : Nat) (s : State) : Host.Outcome State Fault Refusal :=
  .next (match s.takeCtrl i opLoadAbandon with
    | none => s
    | some (m, s) => (s.abandonLoad (msgColl m)).ackCtrl m stOk 0)

end Sys2Proof.Machine
end

