-- ==== Sys2Proof/Machine/Exports.lean ====
section
/-! DEFINITION. SNAPSHOT_EXPORT: its checks, pulling other devices' lists, the image and the completion (R141, R203). -/

namespace Sys2Proof.Machine

def expRepair (d : List Byte) : Bool := (dFlags d).testBit 0

/-- The lists an export carries: the range of a repair form, else all. -/
def expLists (c : Coll) (d : List Byte) : Nat × Nat := if expRepair d then (field d 16 4, field d 20 4) else (0, c.lists - 1)

/-- The checks of a SNAPSHOT_EXPORT. -/
def State.exportCheck (s : State) (b : Nat) (d : List Byte) : Option Nat :=
  if !exportFieldsOk d then some stInvalid
  else if !s.mayRead b (dColl d) then some stNoColl
  else match s.served (dColl d) with
    | none => some stNoColl
    | some c =>
      if c.lapsed then some stShardLost
      else if expRepair d && !decide (field d 16 4 ≤ field d 20 4 ∧ field d 20 4 < c.lists) then some stInvalid
      else if c.mediaQuery then some stMedia
      else none

/-! ## What a device contributes -/

/-- A list's entries in an export: in full form those visible at the stamp, stash included; in repair form the records as
stored, kills above the stamp reset. -/
def State.exportList (s : State) (c : Coll) (generation root stamp : Nat) (repair : Bool) (stash : List Entry) (l : Nat) : List Entry :=
  let es := s.listEntries c generation root l
  if repair then es.map fun e => if stamp < recLink e.1 then (withLink e.1 0, e.2) else e
  else (es ++ stash.filter fun e => recList e.1 == l && !recTomb e.1).filter fun e => visible e.1 stamp

/-- The entries of a range of lists on their owner, list by list. -/
def State.exportRange (s : State) (c : Coll) (generation root stamp : Nat) (repair : Bool) (ls : List Nat) : List Entry :=
  let stash := s.stashEntries c root
  (ls.map fun l => s.exportList c generation root stamp repair stash l).flatten

/-- Segments that an export reads for some lists and that are not on the device. -/
def State.exportMissing (s : State) (c : Coll) (root : Nat) (ls : List Nat) : List Nat :=
  s.missing (s.chainSegs (s.centSegs root) ++ (ls.map fun l => s.listNeeds c root l).flatten ++ s.chainSegs (s.stashChain root))

/-- One of the lists is DAMAGED in the generation. -/
def State.exportDamaged (s : State) (g : Nat) (c : Coll) (generation root : Nat) (ls : List Nat) : Bool :=
  ls.any fun l => s.isDamaged c generation root l || s.blockBad g c generation l

/-- Bytes of a record with its vector, and how many of them a pull of 64 KiB and a LIST_DATA message carry. -/
def Coll.pullUnit (c : Coll) : Nat := 64 + c.vecBytes
def Coll.perPull (c : Coll) : Nat := 65536 / c.pullUnit
def Coll.perData (c : Coll) : Nat := (20480 - 32) / c.pullUnit

/-- The body of a LIST_DATA. -/
def listDataBody (off : Nat) (es : List Entry) : List Byte :=
  toLE 8 off ++ toLE 4 es.length ++ zeros 4 ++ (es.map Prod.fst).flatten ++ (es.map Prod.snd).flatten

/-- The answer of a pull leaves in messages, LAST on the final one; one without records where there are none. -/
def State.sendListData (s : State) (m : List Byte) (off : Nat) : List (List Entry) → State
  | [] => s.send (msgSource m) mListData 4 (msgTag m) (msgRequester m) (msgColl m) (listDataBody off [])
  | [es] => s.send (msgSource m) mListData 4 (msgTag m) (msgRequester m) (msgColl m) (listDataBody off es)
  | es :: rest => (s.send (msgSource m) mListData 0 (msgTag m) (msgRequester m) (msgColl m) (listDataBody off es)).sendListData m off rest

/-- LIST_PULL (R141): a fenced device takes none (R355); a DAMAGED list is not sent. -/
def execListPull (i : Nat) (s : State) : Host.Outcome State Fault Refusal :=
  .next (if s.intake = false then s
    else match s.take i mListPull with
      | none => s
      | some (m, s') =>
        let b := msgBody m
        let g := msgColl m
        match s'.served g with
        | none => s'
        | some c =>
          match c.generations.find? fun gr => gr.1 == field b 8 8 with
          | none => s'
          | some gr =>
            let first := field b 16 4
            let ls := (c.owned s.self).filter fun l => decide (first ≤ l ∧ l ≤ field b 20 4)
            if s'.exportDamaged g c gr.1 gr.2 ls then s'
            else if s'.exportMissing c gr.2 ls ≠ [] then (s'.exportMissing c gr.2 ls).foldl (fun (s : State) n => s.want true n) s
            else
              let es := s'.exportRange c gr.1 gr.2 (field b 0 6) (field b 32 1 == 1) ls
              let part := (es.drop (field b 24 8 / c.pullUnit)).take c.perPull
              s'.sendListData m (field b 24 8) (pieces (max c.perData 1) part.length part))

/-! ## Pulling on the exporting device -/

/-- The ranges of other devices that an export reads: first list, last list, device. -/
def State.pullRanges (s : State) (c : Coll) (d : List Byte) : List (Nat × Nat × Nat) :=
  let (first, last) := expLists c d
  let ends := (c.shards.drop 1).map Prod.fst ++ [c.lists]
  ((c.shards.zip ends).filter fun r => r.1.2 != s.self && decide (r.1.1 ≤ last ∧ first < r.2)).map fun r =>
    (max first r.1.1, min last (r.2 - 1), r.1.2)

/-- The next range that is not complete. -/
def State.nextRange (s : State) (c : Coll) (d : List Byte) (x : Exporting) : Option (Nat × Nat × Nat) :=
  (s.pullRanges c d).find? fun r => !x.complete.contains r.1

/-- A pull of an export is outstanding. -/
def State.pulling (s : State) (key g : Nat) : Bool :=
  (s.fab.requests.any fun r => r.kind == mListPull && r.tag == s.cmdTag key && r.coll == g)
    || s.fab.queued.any fun r => r.2.kind == mListPull && r.2.tag == s.cmdTag key && r.2.coll == g

/-- A LIST_PULL leaves for what a range still lacks. -/
def State.sendListPull (s : State) (key : Nat) (l : Live) (c : Coll) (x : Exporting) (r : Nat × Nat × Nat) : State :=
  let off := c.pullUnit * (Map.getD x.got r.1 []).length
  s.request r.2.2 mListPull 0 (s.cmdTag key) l.coll r.1
    (toLE 6 x.stamp ++ zeros 2 ++ toLE 8 x.generation ++ toLE 4 r.1 ++ toLE 4 r.2.1 ++ toLE 8 off
      ++ toLE 1 (if expRepair l.bytes then 1 else 0) ++ zeros 7)

/-- LIST_DATA (R141, R203, R213): the records that came; a pull that brought fewer than it could ends its range. -/
def execListData (i : Nat) (s : State) : Host.Outcome State Fault Refusal :=
  .next (match s.take i mListData with
    | none => s
    | some (m, s) =>
      let g := msgColl m
      match s.awaited mListPull (msgSource m) (msgTag m) g with
      | none => s.lateResponse
      | some r =>
        let b := msgBody m
        let n := field b 8 4
        let s := if msgLast m then s.endRequest r else s
        match (s.byTag (msgTag m)), s.coll? g with
        | some key, some c =>
          s.modLive key fun l => { l with exporting := l.exporting.map fun x =>
            let es := (List.range n).map fun j => (slice b (16 + 64 * j) 64, slice b (16 + 64 * n + c.vecBytes * j) c.vecBytes)
            let all := Map.getD x.got r.owner [] ++ es
            let ends := msgLast m && decide (all.length < field b 0 8 / c.pullUnit + c.perPull)
            { x with got := Map.put x.got r.owner all, complete := if ends then x.complete ++ [r.owner] else x.complete } }
        | _, _ => s)

/-! ## The image (R84, R141) -/

/-- A section: type and content. -/
abbrev Section := Nat × List Byte

/-- The section table of sections laid out one after the other from an offset on. -/
def sectionTable : Nat → List Section → List Byte
  | _, [] => []
  | off, x :: xs => toLE 4 x.1 ++ toLE 4 (crc32c x.2) ++ toLE 8 off ++ toLE 8 x.2.length ++ sectionTable (off + x.2.length) xs

/-- The header of an image (Table 3.8). -/
def imageHeader (c : Coll) (sections carried entries stamp : Nat) (repair : Bool) : List Byte :=
  let h := ascii "RLIX" ++ toLE 2 1 ++ toLE 2 sections ++ toLE 2 c.dim ++ toLE 1 c.ty.code ++ toLE 1 c.metric.code ++ toLE 4 c.lists
    ++ toLE 4 (if repair then 1 else 0) ++ toLE 4 carried ++ toLE 8 entries ++ toLE 6 stamp ++ zeros 86
  h ++ toLE 4 (crc32c h)

/-- LIST_INDEX of the carried lists with their record counts. -/
def listIndex : Nat → List (Nat × Nat) → List Byte
  | _, [] => []
  | at_, x :: xs => toLE 4 x.1 ++ toLE 4 x.2 ++ toLE 8 at_ ++ listIndex (at_ + x.2) xs

/-- A bound record that covers every entry of its list in the image (R75, Table 3.10, step 8). -/
def State.exportBound (s : State) (c : Coll) (root l : Nat) (es : List Entry) : List Byte :=
  let old := s.boundRec c root l
  let ce := elements c.ty c.dim (s.centroid c root l)
  let param := if c.metric = .custom then boundParam old
    else es.foldl (fun p e => widen c.metric c.ty (elements c.ty c.dim e.2) ce p) (boundParam old)
  mkBound l es.isEmpty (boundOwner old) (minSeqOf (es.map Prod.fst)) param (boundCustom old)

/-- The adjacency entry of a list (R76). -/
def State.adjEntry (s : State) (root l : Nat) : List Byte :=
  match (s.adjSegs root)[l / 2040]? with
  | some a => s.segRead a (256 + 32 * (l % 2040)) 32
  | none => List.replicate 32 0xFF

/-- The image of an export. -/
def State.exportImage (s : State) (c : Coll) (d : List Byte) (x : Exporting) : List Byte :=
  let repair := expRepair d
  let (first, last) := expLists c d
  let ls := (List.range (last + 1 - first)).map (first + ·)
  let stash := s.stashEntries c x.root
  let pulled := (Map.vals x.got).flatten
  let groups := ls.map fun l =>
    (l, if ownerOf c.shards l = s.self then s.exportList c x.generation x.root x.stamp repair stash l else pulled.filter fun e => recList e.1 == l)
  let es := (groups.map Prod.snd).flatten
  let metas := if repair then es.map Prod.fst else es.map fun e => withFlags (withLink (withSeq e.1 0) 0) 1
  let tables : List Section := if repair then [] else
    [(1, ((List.range c.lists).map fun l => s.centroid c x.root l).flatten), (2, (groups.map fun gr => s.exportBound c x.root gr.1 gr.2).flatten),
     (3, ((List.range c.lists).map fun l => s.adjEntry x.root l).flatten)]
  let sections : List Section := tables ++ [(4, listIndex 0 (groups.map fun gr => (gr.1, gr.2.length))), (5, metas.flatten), (6, (es.map Prod.snd).flatten)]
  imageHeader c sections.length ls.length es.length x.stamp repair
    ++ sectionTable (128 + 24 * sections.length) sections ++ (sections.map Prod.snd).flatten

/-- An export ends: its image is written to the host, or its buffer is too small. -/
def State.endExport (s : State) (key : Nat) (l : Live) (c : Coll) (x : Exporting) : State :=
  let image := s.exportImage c l.bytes x
  if field l.bytes 32 8 < image.length then s.done key fun o => { plain o stInvalid with count := ceilDiv image.length 1048576, stamp := x.stamp }
  else
    let v := s.burrow l.origin.burrow
    let s := if v.discard ∨ l.origin.gen ≠ v.generation then s.setBurrow l.origin.burrow { v with discarded := (v.discarded + 1) % 2 ^ 32 }
      else s.emit (.write (l.origin.burrow + 1) (field l.bytes 24 8) image true)
    s.done key fun o => { plain o stOk with stamp := x.stamp }

/-- The next step of an export: a pull, a page-in, or its end. -/
def State.goOnExporting (s : State) (key : Nat) (l : Live) : State :=
  match l.exporting, s.coll? l.coll with
  | some x, some c =>
    let (first, last) := expLists c l.bytes
    let own := (c.owned s.self).filter fun n => decide (first ≤ n ∧ n ≤ last)
    if c.lapsed then s.failLive key stShardLost
    else if s.exportDamaged l.coll c x.generation x.root own || c.mediaQuery then s.failLive key stMedia
    else if s.pulling key l.coll then s
    else match s.nextRange c l.bytes x with
      | some r => s.sendListPull key l c x r
      | none =>
        let lacking := s.exportMissing c x.root own
        if lacking ≠ [] then lacking.foldl (fun (s : State) n => s.want true n) s else s.endExport key l c x
  | some _, none => s.failLive key stNoColl
  | none, _ => s

/-- The oldest export that has its stamp and is not waiting for a pull. -/
def State.oldestExport (s : State) : Option (Nat × Live) :=
  (s.host.live.filter fun (e : Nat × Live) => e.2.opcode == 0x54 && e.2.exporting.isSome && !s.pulling e.1 e.2.coll).foldl
    (fun best e => match best with
      | none => some e
      | some b => if e.2.admitted < b.2.admitted then some e else some b) none

/-- SNAPSHOT_EXPORT (R141): the command admission has chosen is checked, admitted and stamped; with none chosen, the oldest
export goes on. -/
def execSnapshotExport (s : State) : Host.Outcome State Fault Refusal :=
  .next (match s.begin_ 0x54 with
    | some (f, s) =>
      match s.exportCheck f.origin.burrow f.bytes, s.served (dColl f.bytes) with
      | some st, _ => s.refuse f st
      | none, none => s.refuse f stNoColl
      | none, some c =>
        let (key, s) := s.takeIn f
        if s.isSequencer c then s.stampLive key c.committed
        else s.askStamp c (dColl f.bytes) (8192 + key) (s.cmdTag key)
    | none =>
      match s.oldestExport with
      | some e => s.goOnExporting e.1 e.2
      | none => s)

end Sys2Proof.Machine
end

