-- ==== Sys2Proof/Machine/Control.lean ====
section
/-! DEFINITION. Collections as a whole: creation, drop, compaction runs, and the control messages between the devices of
a shard map (R59, R60, R83, R135 to R137, R183, R349). -/

namespace Sys2Proof.Machine

/-! ## Creation (R59, R60, R83, R183) -/

/-- The range records of a shard map: first list ID, device (R83). -/
def parseRanges (bs : List Byte) (n : Nat) : List (Nat × Nat) :=
  (List.range n).map fun i => (field bs (8 * i) 8 % 2 ^ 20, field bs (8 * i) 8 / 2 ^ 20 % 128)

/-- The map keeps R83. -/
def rangesOk (bs : List Byte) (n lists : Nat) : Bool :=
  let rs := parseRanges bs n
  ((List.range n).all fun i => decide (field bs (8 * i) 8 < 2 ^ 27)) && (rs.headD (1, 0)).1 == 0 && rising (rs.map Prod.fst)
    && rs.all fun r => decide (r.1 < lists)

def createRanges (d : List Byte) : Nat := field d 14 2
def createLists (d : List Byte) : Nat := field d 16 4

/-- Step 1 of R183: field encodings, continuation count, reserved fields, the map. -/
def createFieldsOk (bs : List Byte) : Bool :=
  let n := createRanges bs
  let custom := field bs 9 1 == 3
  decide (dFlags bs < 2) && dCollHigh bs == 0 && decide (8 ≤ field bs 6 2 ∧ field bs 6 2 ≤ 4096) && field bs 6 2 % 8 == 0
    && decide (field bs 8 1 < 4) && decide (field bs 9 1 < 4)
    && (if custom then decide (4 ≤ field bs 10 1 ∧ field bs 10 1 ≤ 7) else field bs 10 1 == 0)
    && decide (field bs 11 1 < 3) && decide (field bs 12 1 < 3) && decide (1 ≤ n ∧ n ≤ 256) && field bs 13 1 == ceilDiv n 16
    && decide (1 ≤ createLists bs ∧ createLists bs ≤ 1048576) && zeroAt bs 20 108
    && zeroAt bs (128 + 8 * n) (128 * ceilDiv n 16 - 8 * n) && rangesOk (bs.drop 128) n (createLists bs)

/-- The collection that a descriptor's bytes 4 to 19 and flags describe. -/
def newColl (params : List Byte) (flags owner : Nat) (shards : List (Nat × Nat)) : Coll :=
  { owner := owner, dim := field params 2 2, ty := (ElemType.ofCode? (field params 4 1)).getD .int8
    metric := (Metric.ofCode? (field params 5 1)).getD .innerProduct, kernel := if field params 5 1 = 3 then field params 6 1 else 0
    lists := field params 12 4, a0 := field params 7 1, a1 := field params 8 1, pinned := flags % 2 == 1, shards := shards }

/-- Generation 0 on this device: a root with no tables and a stash cut of 0 (R60); none while its segment cannot be had. -/
def State.makeColl (s : State) (g : Nat) (c : Coll) : Option State :=
  match s.alloc c.owner 6 g Config.noSegment 0 with
  | none => none
  | some (r, s) =>
    let s := s.setColl g { c with generation := 0, root := r }
    some (s.segWrite r 0 (mkRoot g 0 0 Config.noSegment [] [] [] (c.owned s.self).length))

/-- A collection is taken away again: its segments are FREE. -/
def State.unmakeColl (s : State) (g : Nat) : State :=
  let mine := s.seg.map.filter fun (e : Nat × Seg) => e.2.coll == g && e.2.kind != 0x0B
  let s := mine.foldl (fun (s : State) e => s.freeSeg e.1) s
  { s with colls := Map.del s.colls g }

/-- Collections that a burrow owns. -/
def State.ownedCount (s : State) (b : Nat) : Nat := (s.colls.filter fun (e : Nat × Coll) => e.2.owner == b && !e.2.dropped).length

/-- The checks of R183 that this device can make by itself. -/
def State.createCheck (s : State) (b : Nat) (bs : List Byte) : Option Nat :=
  if !createFieldsOk bs then some stInvalid
  else if sequencerOf (parseRanges (bs.drop 128) (createRanges bs)) ≠ s.self then some stInvalid
  else if !(s.cfg (burrowIndex b) 7).testBit 0 then some stInvalid
  else if s.cfg (burrowIndex b) 0x0B < s.ownedCount b + 1 then some stQuota
  else if (s.coll? (dColl bs)).isSome then some stInvalid
  else none

/-- The COLL_CTRL CREATE pieces for one device: up to 22 range records each. -/
def State.sendCreate (s : State) (g d tag : Nat) (bs : List Byte) : Nat → List (List Byte) → State
  | _, [] => s
  | first, rs :: rest =>
    let n := rs.length / 8
    let body := [0, 1] ++ zeros 22 ++ slice bs 4 16 ++ toLE 1 (dFlags bs) ++ toLE 1 first ++ toLE 1 n ++ zeros 5 ++ rs
    (s.request d mCollCtrl 0 tag g opCreate body).sendCreate g d tag bs (first + n) rest

/-- First range indices of the pieces of a map. -/
def pieceStarts (n : Nat) : List Nat := (List.range (ceilDiv n 22)).map (22 * ·)

/-- A creation ends: with OK the collection serves commands, else it exists nowhere (R60). -/
def State.endCreation (s : State) (g : Nat) (c : Coll) (k : Creation) : State :=
  if k.status = stOk then
    (s.setColl g { c with created := true, seqr := c.seqr.map fun q => { q with creation := none } }).failLive k.cmd stOk
  else
    let s := s.ctrlAll g k.made opDrop (s.cmdTag k.cmd) s.self 0 0 0
    (s.unmakeColl g).failLive k.cmd k.status

/-- COLLECTION_CREATE (R59, R60, R183). -/
def execCollectionCreate (s : State) : Host.Outcome State Fault Refusal :=
  .next (match s.begin_ 0x50 with
    | none => s
    | some (f, s) =>
      let bs := f.bytes
      let g := dColl bs
      let n := createRanges bs
      match s.createCheck f.origin.burrow bs with
      | some st => s.refuse f st
      | none =>
        let shards := parseRanges (bs.drop 128) n
        let others := (mapDevices shards).filter (· != s.self)
        let (key, s) := s.takeIn f
        let k : Creation := { cmd := key, waiting := (others.map fun d => (pieceStarts n).map fun i => (d, i)).flatten }
        let c := { newColl (slice bs 4 16) (dFlags bs) f.origin.burrow shards with created := false, seqr := some { creation := some k } }
        match s.makeColl g c with
        | none => s.failLive key stQuota
        | some s =>
          if others = [] then s.endCreation g ((s.coll? g).getD c) k
          else others.foldl (fun (s : State) d => s.sendCreate g d (s.cmdTag key) bs 0 (pieces 176 (8 * n) (slice bs 128 (8 * n)))) s)

/-- COLL_CTRL CREATE (R60, R212): a piece is kept; with the last one the collection is created here. The message names no
owner burrow, so which burrow the owner is stays open. -/
def execCollCtrlCreate (i : Nat) (s : State) : Host.Outcome State Fault Refusal :=
  .next (match s.takeCtrl i opCreate with
    | none => s
    | some (m, s) =>
      let g := msgColl m
      let b := msgBody m
      let params := slice b 24 16
      let first := field b 41 1
      let n := field b 42 1
      let rs := parseRanges (b.drop 48) n
      let total := field params 10 2
      let known := match s.coll? g with
        | some c => if c.created then none else some c
        | none => if first = 0 then some { newColl params (field b 40 1) 0 [] with created := false } else none
      let last := decide (total ≤ first + n)
      match known with
      | none => s.ackCtrl m (if last then stInvalid else stOk) 0
      | some c =>
        let owner := Config.openValue 17 s.draws % 64
        let c := { c with shards := c.shards ++ rs, pieces := c.pieces ++ [first] }
        if !last then (s.setColl g c).ackCtrl m stOk 0
        else match (s.draw.2).makeColl g { c with created := true, owner := owner } with
          | some s => s.ackCtrl m stOk 0
          | none => { s with colls := Map.del s.colls g }.ackCtrl m stQuota 0)

/-- A CTRL_ACK of a creation. -/
def State.createAcked (s : State) (g d status : Nat) : State :=
  match s.coll? g with
  | none => s
  | some c =>
    match c.seqr.bind (·.creation) with
    | none => s
    | some k =>
      match takeFirst (fun (p : Nat × Nat) => p.1 == d) k.waiting with
      | none => s
      | some (_, rest) =>
        let ended := rest.all fun p => p.1 != d
        let k := { k with waiting := rest, made := if ended ∧ status = stOk then k.made ++ [d] else k.made
                          status := if k.status = stOk then status else k.status }
        if rest = [] then s.endCreation g c k
        else s.setColl g { c with seqr := c.seqr.map fun q => { q with creation := some k } }

/-! ## Runs (R135 to R137) -/

/-- The COMPACT commands that ended with a run are answered. -/
def State.answerAll (s : State) (g status : Nat) (cmds : List (Nat × Nat)) : State :=
  cmds.foldl (fun s p => s.answerMut g p.1 p.2 status 0) s

/-- Proposals of the other devices of the map (R136): no message carries them, so each is open, at most the committed
sequence. -/
def State.otherProposals (s : State) (c : Coll) (committed : Nat) : State × Nat :=
  ((mapDevices c.shards).filter (· != s.self)).foldl (fun (p : State × Nat) _ => (p.1.draw.2, min p.2 (Config.openValue 14 p.1.draws % (committed + 1)))) (s, committed)

/-- A list of this device holds killed records above the trigger, and only for that reason would be rewritten. -/
def State.killedOnly (s : State) (c : Coll) (cut : Nat) : Bool := (s.changedLists c cut) != [] && s.runFits c cut

/-- A run starts with its cut, or finds no space: QUOTA and COMPACT_SPACE (R136). While allocation is frozen it fails
ABORTED (R35). -/
def State.startRun (s : State) (g : Nat) (cmds : List (Nat × Nat)) : State :=
  match s.coll? g with
  | none => s
  | some c =>
    match c.seqr with
    | none => s
    | some q =>
      if s.seg.frozen || c.load != .loaded then s.answerAll g stAborted cmds
      else
        let old := rootCut (s.rootBody c.root)
        let (s, own) := s.proposal g c q.committed
        let (s, rest) := s.otherProposals c q.committed
        let cut := max old (min own rest)
        if cut ≤ old ∧ s.killedOnly c cut = false then
          ((s.modSeqr g fun q => { q with starved := true }).answerAll g stQuota cmds).logEvent 0x0406 (toLE 2 g)
        else s.modSeqr g fun q => { q with run := some { cut := cut }, compactNow := cmds }

/-- A run is over: its COMPACT commands or its load are answered, and a COMPACT that waited starts the next. -/
def State.endRun (s : State) (g status : Nat) : State :=
  match (s.coll? g).bind (·.seqr) with
  | none => s
  | some q =>
    match q.run with
    | none => s
    | some r =>
      let next := q.compactNext
      let s := s.modSeqr g fun q => { q with run := none, compactNow := [], compactNext := [] }
      let s := if r.load then s.answerMut g r.device r.tag status (if status = stOk ∨ status = stMedia then q.committed else 0)
        else s.answerAll g status q.compactNow
      if next = [] then s else s.startRun g next

/-- PREPARE goes to every device of the map, this one included. -/
def State.sendPrepare (s : State) (g : Nat) (c : Coll) (r : Run) : State :=
  let ds := mapDevices c.shards
  let s := s.modSeqr g fun q => { q with run := some { r with phase := .prepare, waiting := ds } }
  s.ctrlAll g ds opPrepare 0 s.self (c.generation + 1) r.cut 0

/-- COMPACT_COPY_DONE (R81, R136, R137): the Copy phase ends on the sequencer device, and PREPARE is sent; it waits while
pages that it reads are not in HBM. -/
def execCompactCopyDone (g : Nat) (s : State) : Host.Outcome State Fault Refusal :=
  .next (match s.coll? g with
    | none => s
    | some c =>
      match c.seqr.bind (·.run) with
      | none => s
      | some r =>
        if r.load ∨ r.phase ≠ .copy then s
        else
          let missing := s.runMissing c
          if s.structureLost c.root ∨ c.mediaMutation then s.endRun g stMedia
          else if missing ≠ [] then missing.foldl (State.want · true ·) s
          else
            let s := s.abandonBuild g
            match s.buildRun g c (c.generation + 1) r.cut with
            | .ok (p, s) => (s.modColl g fun c => { c with prepared := some p }).sendPrepare g c r
            | .error e =>
              if e = stAborted then (s.endRun g stAborted).logEvent 0x0405 (toLE 2 g)
              else ((s.modSeqr g fun q => { q with starved := true }).endRun g stQuota).logEvent 0x0406 (toLE 2 g))

/-- What PREPARE finds built, or builds: a load's tables, a run's copy here, or the copy made now. -/
def State.prepareBuild (s : State) (g : Nat) (c : Coll) (generation cut : Nat) : Except Nat State :=
  match c.prepared with
  | some p => if p.generation = generation then .ok s else .error stInvalid
  | none =>
    let built := match c.pull with
      | some p => s.buildRepair g c p generation cut
      | none => s.buildRun g c generation cut
    match built with
    | .ok (p, s) => .ok (s.modColl g fun c => { c with prepared := some p })
    | .error e => .error e

/-- COLL_CTRL PREPARE (R68, R87, R137): the root of generation g + 1 is written and acknowledged. A repair that leaves a
list DAMAGED answers MEDIA_ERROR, its root written all the same. -/
def execCollCtrlPrepare (i : Nat) (s : State) : Host.Outcome State Fault Refusal :=
  .next (match s.takeCtrl i opPrepare with
    | none => s
    | some (m, s') =>
      let g := msgColl m
      let generation := field (msgBody m) 8 8
      let cut := field (msgBody m) 16 6
      match s'.served g with
      | none => s'.ackCtrl m stNoColl 0
      | some c =>
        let stale := (c.prepared.map fun p => p.generation != generation || (p.root.isSome && p.cut != cut)).getD false
        let s1 := if stale then s'.abandonBuild g else s'
        let c := (s1.coll? g).getD c
        let missing := if c.prepared.isSome then [] else s1.runMissing c
        if c.prepared.isNone ∧ (s1.structureLost c.root ∨ c.mediaMutation) then s1.ackCtrl m stMedia 0
        else if missing ≠ [] then missing.foldl (State.want · true ·) s
        else match s1.prepareBuild g c generation cut with
          | .error e => s1.ackCtrl m e 0
          | .ok s =>
            match (s.coll? g).bind (·.prepared) with
            | none => s.ackCtrl m stQuota 0
            | some p =>
              let status := if p.lacking then stMedia else stOk
              if p.root.isSome then s.ackCtrl m status 0
              else match s.writeRoot g with
                | some s => s.ackCtrl m status 0
                | none => (s.abandonBuild g).ackCtrl m stQuota 0)

/-- A CTRL_ACK of PREPARE: when every device has acknowledged, the publish decision is written and FLIP sent; a refusal
ends the run on every device of a load, and here for a compaction. -/
def State.prepareAcked (s : State) (g d status : Nat) : State :=
  match s.coll? g with
  | none => s
  | some c =>
    match c.seqr.bind (·.run) with
    | none => s
    | some r =>
      if r.phase ≠ .prepare ∨ !r.waiting.contains d then s
      else if status = stOk ∨ (r.load ∧ status = stMedia) then
        let r := { r with waiting := r.waiting.erase d, status := if status = stMedia then stMedia else r.status }
        if r.waiting ≠ [] then s.modSeqr g fun q => { q with run := some r }
        else
          let ds := mapDevices c.shards
          let s := s.modSeqr g fun q => { q with decided := q.decided ++ [c.generation + 1], run := some { r with phase := .publish, waiting := ds } }
          s.ctrlAll g ds opFlip 0 s.self (c.generation + 1) 0 0
      else
        let s := if r.load then s.ctrlAll g (mapDevices c.shards) opLoadAbandon r.tag r.loader 0 0 0 else s.abandonBuild g
        let s := if status = stAborted then s.logEvent 0x0405 (toLE 2 g) else if status = stQuota ∧ r.load = false then s.logEvent 0x0406 (toLE 2 g) else s
        s.endRun g status

/-- COLL_CTRL FLIP (R67, R137). -/
def execCollCtrlFlip (i : Nat) (s : State) : Host.Outcome State Fault Refusal :=
  .next (match s.takeCtrl i opFlip with
    | none => s
    | some (m, s) =>
      let g := msgColl m
      let due := (((s.coll? g).bind (·.prepared)).map fun p => p.root.isSome && p.generation == field (msgBody m) 8 8).getD false
      (if due then s.flip g else s).ackCtrl m stOk 0)

/-- A CTRL_ACK of FLIP: with the last one the run is published. -/
def State.flipAcked (s : State) (g d : Nat) : State :=
  match s.coll? g with
  | none => s
  | some c =>
    match c.seqr.bind (·.run) with
    | none => s
    | some r =>
      if r.phase ≠ .publish ∨ !r.waiting.contains d then s
      else
        let rest := r.waiting.erase d
        let s := s.modSeqr g fun q => { q with run := some { r with waiting := rest } }
        if rest ≠ [] then s
        else
          let s := s.modSeqr g fun q => { q with decided := q.decided.filter (· != c.generation) }
          if r.load then s.endRun g r.status
          else (s.endRun g stOk).logEvent 0x0407 (toLE 2 g ++ toLE 8 c.generation)

/-- A load's LOAD_PREPARE has been answered by a device (R88, step 4). -/
def State.loadAcked (s : State) (g d status : Nat) : State :=
  match s.coll? g with
  | none => s
  | some c =>
    match c.seqr.bind (·.run) with
    | none => s
    | some r =>
      if r.load = false ∨ r.phase ≠ .copy ∨ !r.waiting.contains d then s
      else if status = stOk then
        let r := { r with waiting := r.waiting.erase d }
        if r.waiting ≠ [] then s.modSeqr g fun q => { q with run := some r }
        else s.sendPrepare g c { r with cut := ((c.prepared.map (·.cut)).getD (rootCut (s.rootBody c.root))) }
      else (s.ctrlAll g (mapDevices c.shards) opLoadAbandon r.tag r.loader 0 0 0).endRun g status

/-! ## Drop (R183) -/

/-- The value of a ReadGrants object without the bit of a collection. -/
def clearGrant (v : List Byte) (g : Nat) : List Byte :=
  v.set (g / 8) ((v.getD (g / 8) 0) &&& ~~~(BitVec.ofNat 8 (2 ^ (g % 8))))

/-- Every grant bit that names a dropped collection is cleared (R186). -/
def State.clearGrants (s : State) (g : Nat) : State :=
  let base := s.dict.base.map fun (e : Nat × List Byte) =>
    if e.1 % 256 = 8 ∧ (List.range 64).any (fun b => burrowIndex b == e.1 / 256) then (e.1, clearGrant e.2 g) else e
  { s with dict := { s.dict with base := base } }

/-- The drop on this device: a generation whose pointer names no root, every segment RETIRING. -/
def State.dropColl (s : State) (g : Nat) : State :=
  match (s.abandonBuild g).coll? g with
  | none => s
  | some c =>
    if c.dropped then s
    else
      let s := ((s.abandonBuild g).flushStash g).clearGrants g
      let c := (s.coll? g).getD c
      let s := s.setColl g { c with dropped := true, generation := c.generation + 1, root := Config.droppedRoot, old := (c.generation, c.root) :: c.old
                                    stash := [], blocks := [], oldBlocks := c.oldBlocks ++ c.blocks.map fun b => (c.generation, b.1, b.2), pull := none }
      s.retireRest g []

/-- COLL_CTRL DROP (R183). -/
def execCollCtrlDrop (i : Nat) (s : State) : Host.Outcome State Fault Refusal :=
  .next (match s.takeCtrl i opDrop with
    | none => s
    | some (m, s) => (s.dropColl (msgColl m)).ackCtrl m stOk 0)

/-- The drop is published at the sequencer: a running compaction or load is abandoned, what waits completes, and every
device of the map is told. -/
def State.startDrop (s : State) (g : Nat) (c : Coll) (q : Sequencer) (r : MutReq) : State :=
  let ds := mapDevices c.shards
  let s := s.modSeqr g fun q => { q with drop := some (ds, r.device, r.tag), run := none, compactNow := [], compactNext := [], current := none, held := false }
  let s := s.answerAll g stAborted (q.compactNow ++ q.compactNext)
  let s := match q.run with
    | some x => if x.load then s.answerMut g x.device x.tag stAborted 0 else s
    | none => s
  let s := match q.current with
    | some m => if m.answered then s else s.answerMut g m.req.device m.req.tag stShardLost 0
    | none => s
  s.ctrlAll g ds opDrop r.tag r.device 0 0 0

/-- A CTRL_ACK of DROP: with the last one the command completes. -/
def State.dropAcked (s : State) (g d : Nat) : State :=
  match (s.coll? g).bind (·.seqr) with
  | none => s
  | some q =>
    match q.drop with
    | none => s
    | some (ds, device, tag) =>
      let rest := ds.erase d
      if rest ≠ [] then s.modSeqr g fun q => { q with drop := some (rest, device, tag) }
      else (s.modSeqr g fun q => { q with drop := none }).answerMut g device tag stOk 0

/-- A drop of a LOST collection does not need its sequencer (R349): it is carried out here, and the other devices are told. -/
def State.dropLost (s : State) (key g : Nat) (c : Coll) : State :=
  let s := s.ctrlAll g ((mapDevices c.shards).filter (· != s.self)) opDrop (s.cmdTag key) s.self 0 0 0
  (s.dropColl g).failLive key stOk

/-- MUTATION_HANDOFF (R121, R129). -/
def execMutationHandoff (b : Fin 64) (q : Fin 16) (s : State) : Host.Outcome State Fault Refusal :=
  .next (match s.unhanded b q with
    | none => s
    | some (key, l) =>
      match s.served l.coll with
      | some c => if c.lost ∧ l.opcode = 0x51 then s.dropLost key l.coll c else s.handOff key l
      | none => s.handOff key l)

/-! ## The sequencer's queue (R121) -/

/-- COLLECTION_DROP and COMPACT at admission (R183). -/
def State.admitManage (s : State) (op : Nat) : State :=
  match s.begin_ op with
  | none => s
  | some (f, s) =>
    match s.manageCheck f.origin.burrow f.bytes (dropFieldsOk f.bytes) (op == 0x51) with
    | some st => s.refuse f st
    | none => (s.takeIn f).2

/-- COLLECTION_DROP (R183, R349). -/
def execCollectionDrop (s : State) : Host.Outcome State Fault Refusal := .next (s.admitManage 0x51)

/-- COMPACT (R135, R183). -/
def execCompact (s : State) : Host.Outcome State Fault Refusal := .next (s.admitManage 0x52)

/-- A COMPACT that the sequencer takes: it starts a run, or waits for the one after the run in progress (R135). -/
def State.acceptCompact (s : State) (g : Nat) (q : Sequencer) (r : MutReq) : State :=
  if q.run.isSome then s.modSeqr g fun q => { q with compactNext := q.compactNext ++ [(r.device, r.tag)] }
  else s.startRun g [(r.device, r.tag)]

/-- A LOAD_LISTS that the sequencer takes: LOAD_PREPARE goes to every device of the map (R88, step 2). -/
def State.acceptLoad (s : State) (g : Nat) (c : Coll) (r : MutReq) : State :=
  let ds := mapDevices c.shards
  let run : Run := { load := true, waiting := ds, loader := r.device, device := r.device, tag := r.tag }
  (s.modSeqr g fun q => { q with run := some run }).ctrlAll g ds opLoadPrepare r.tag r.device 0 0 r.device

/-- The sequencer can take a command now: none is in flight; a load waits for a run to end. -/
def Sequencer.canAccept (q : Sequencer) (op : Nat) : Bool :=
  if op = 0x51 then q.held || q.current.isNone
  else q.current.isNone && !q.held && (op != 0x53 || q.run.isNone)

/-- Centroid segments that are not on the device, for a command that needs them. -/
def State.centroidsMissing (s : State) (c : Coll) (op : Nat) : List Nat :=
  if (op = 0x10 ∨ op = 0x12) ∧ c.lists ≠ 1 then s.missing (s.chainSegs (s.centSegs c.root)) else []

/-- SEQUENCER_ACCEPT (R121): the collection's sequencer takes the command at the front of its queue. -/
def execSequencerAccept (g : Nat) (s : State) : Host.Outcome State Fault Refusal :=
  .next (match s.coll? g with
    | none => s
    | some c =>
      match c.seqr with
      | none => s
      | some q =>
        match q.queue with
        | [] => s
        | r :: rest =>
          let op := dOpcode r.desc
          let s' := s.modSeqr g fun q => { q with queue := rest }
          if c.dropped ∨ q.drop.isSome then s'.answerMut g r.device r.tag stNoColl 0
          else if q.canAccept op = false then s
          else
            let missing := s.centroidsMissing c op
            if missing ≠ [] then missing.foldl (State.want · true ·) s
            else if op = 0x51 then s'.startDrop g c q r
            else if c.lapsed then s'.answerMut g r.device r.tag stShardLost 0
            else if op = 0x52 then s'.acceptCompact g q r
            else if op = 0x53 then s'.acceptLoad g c r
            else s'.acceptMutation g c q r)

/-! ## CTRL_ACK -/

/-- The request that a CTRL_ACK answers. -/
def State.awaitedCtrl (s : State) (d g op : Nat) : Option Request :=
  s.fab.requests.find? fun r => r.kind == mCollCtrl && r.dest == d && r.coll == g && r.owner == op

/-- COLL_CTRL LOST (R349): the collection is LOST here, until COLLECTION_DROP. -/
def execCollCtrlLost (i : Nat) (s : State) : Host.Outcome State Fault Refusal :=
  .next (match s.takeCtrl i opLost with
    | none => s
    | some (m, s) => (s.modColl (msgColl m) fun c => { c with lost := true }).ackCtrl m stOk 0)

/-! ## Automatic compaction (R135) -/

/-- One of the triggers of Table 5.3 holds. Stash records are counted collection-wide by numbers above the cut, killed
records over the lists of this device. -/
def State.triggered (s : State) (c : Coll) (q : Sequencer) : Bool :=
  let cut := rootCut (s.rootBody c.root)
  let stash := q.committed - cut
  let live := q.idMap.length
  let ks := (c.owned s.self).map fun l => s.killedOf c l q.committed
  let killed := sumNat (ks.map Prod.fst)
  let stored := sumNat (ks.map Prod.snd)
  decide (s.cfg 0x2120 1 * live < 10000 * stash) || decide (s.cfg 0x2120 2 < stash) || decide (s.cfg 0x2120 3 * stored < 10000 * killed)

/-- The sequencer of a collection may start a run by itself: AutoCompact is set, SAFE is not in force, no run is active. -/
def State.mayCompact (s : State) (c : Coll) (q : Sequencer) : Bool :=
  s.isSequencer c && c.created && !c.dropped && !c.lapsed && c.load == .loaded && s.cfg 0x2120 4 == 1 && !s.safeFixed && !s.seg.frozen
    && q.run.isNone && !q.starved && q.drop.isNone

/-- COMPACT_TRIGGER_EVAL (R135, R289): every 1 ms. -/
def execCompactTriggerEval (s : State) : Host.Outcome State Fault Refusal :=
  .next ((Map.keys s.colls).foldl (fun (s : State) g =>
    match s.coll? g with
    | none => s
    | some c =>
      match c.seqr with
      | none => s
      | some q => if s.mayCompact c q && s.triggered c q then s.startRun g [] else s) s)

end Sys2Proof.Machine
end

