-- ==== Sys2Proof/Machine/Scrub.lean ====
section
/-! DEFINITION. The start-up scrub and the roll-back to the recovered sequence, CTRL_ACK, and FENCE (R133, R138, R139). -/

namespace Sys2Proof.Machine

/-! ## Roll-back (R139, step 4) -/

/-- One stash stripe keeps its records at or below `r`: none where it keeps none. -/
def State.cutStripe (s : State) (g : Nat) (c : Coll) (n r next : Nat) : State × Bool :=
  let h := s.header n
  if !headerOk h 2 g then (s.freeSeg n, false)
  else
    let vs := (List.range (hdrV h)).map (hdrVec h)
    let recs := (s.stripeRecords n).takeWhile fun x => decide (recSeq x ≤ r)
    let k := recs.length
    if k = 0 then (vs.foldl State.freeSeg (s.freeSeg n), false)
    else
      let e := geoE c.vecBytes
      let kept := vs.take (ceilDiv k e)
      let h' := mkHeader 2 g next (field h 8 8) 0 (field h 20 4) k e (field h 32 6) (maxSeqOf recs) kept
      (((vs.drop kept.length).foldl State.freeSeg s).segWrite n 0 h', true)

/-- Stash stripes, last first, keep their records at or below `r`; answers the stripes that stay. -/
def State.cutStripes (s : State) (g : Nat) (c : Coll) (r : Nat) : List Nat → State × List Nat
  | [] => (s, [])
  | n :: ns =>
    let (s, rest) := s.cutStripes g c r ns
    match s.cutStripe g c n r (rest.headD Config.noSegment) with
    | (s, true) => (s, n :: rest)
    | (s, false) => (s, rest)

/-- The ID map as it was at a sequence number. -/
def rewind (idMap : Map (Nat × Nat)) (r : Nat) : List (Nat × Nat × Option (Nat × Nat)) → Map (Nat × Nat)
  | [] => idMap
  | u :: us =>
    let later := rewind idMap r us
    if u.1 ≤ r then later
    else match u.2.2 with
      | some e => Map.put later u.2.1 e
      | none => Map.del later u.2.1

/-- The sequencer's part of a roll-back; a hold ends with it (R127). -/
def Sequencer.rollBack (q : Sequencer) (r : Nat) : Sequencer :=
  { q with committed := min q.committed r, accepted := min q.committed r, idMap := rewind q.idMap r q.undo
           undo := q.undo.filter fun u => decide (u.1 ≤ r), current := none, held := false }

/-- A collection rolls back to a recovered sequence on this device (R139). -/
def State.rollBack (s : State) (g r : Nat) : State :=
  match s.coll? g with
  | none => s
  | some c =>
    let s := (c.kills.filter fun k => decide (r < k.1)).foldl (fun (s : State) k =>
      ((Map.get? c.locator k.2).toList ++ c.copiesOf k.2).foldl (fun (s : State) at_ => (s.unkillAt k.1 at_).getD s) s) s
    let (s, stash) := s.cutStripes g c r c.stash
    let s := { s with stash := s.stash.filter fun it => it.coll != g }
    let s := if stash.isEmpty then c.generations.foldl (fun (s : State) gr => if gr.2 = Config.droppedRoot then s else s.segWrite gr.2 272 (toLE 4 Config.noSegment)) s else s
    let s := match c.seqr.bind (·.current) with
      | some m => if m.answered then s else s.answerMut g m.req.device m.req.tag stShardLost 0
      | none => s
    s.modColl g fun c => { c with
      stash := stash, unflushed := none, kills := c.kills.filter fun k => decide (k.1 ≤ r), locator := c.locator.filter fun e => decide (e.1 ≤ r)
      seen := min c.seen r, recovered := some r, seqr := c.seqr.map fun q => q.rollBack r }

/-- Every device of the map has reported: the recovered sequence is the smallest flushed one, and the scrub reports it in a
RECOVERED event. -/
def State.endScrub (s : State) (g : Nat) (c : Coll) : State :=
  let r := (Map.vals c.reported).foldl min c.flushed
  ((s.rollBack g r).modColl g fun c => { c with scrubbing := false, reported := [] }).logEvent 0x0109 (toLE 2 g ++ toLE 6 r)

/-- A device's flushed sequence has come in. -/
def State.scrubReported (s : State) (g d flushed : Nat) : State :=
  match s.coll? g with
  | none => s
  | some c =>
    if c.scrubbing = false then s
    else
      let c := { c with reported := Map.put c.reported d flushed }
      let s := s.setColl g c
      if ((mapDevices c.shards).filter (· != s.self)).all fun d => (Map.get? c.reported d).isSome then s.endScrub g c else s

/-- COLL_CTRL SCRUB_STATE (R139): a device of the map was reset and reports its flushed sequence. This device answers with
its own; a collection not scrubbed here rolls back to the smaller of the two. -/
def execCollCtrlScrubState (i : Nat) (s : State) : Host.Outcome State Fault Refusal :=
  .next (match s.takeCtrl i opScrub with
    | none => s
    | some (m, s) =>
      let g := msgColl m
      let theirs := field (msgBody m) 16 6
      let s := if ((s.coll? g).map (·.scrubbing)).getD true then s else s.flushStash g
      match s.coll? g with
      | none => s.ackCtrl m stNoColl 0
      | some c =>
        let s := s.ackCtrl m stOk c.flushed
        if c.scrubbing then s.scrubReported g (msgSource m) theirs else s.rollBack g (min c.flushed theirs))

/-! ## CTRL_ACK -/

/-- CTRL_ACK (R60, R88, R137, R139, R183, R213). -/
def execCtrlAck (i : Nat) (s : State) : Host.Outcome State Fault Refusal :=
  .next (match s.takeKind i mCollCtrl 1 with
    | none => s
    | some (m, s) =>
      let g := msgColl m
      let d := msgSource m
      let b := msgBody m
      let op := field b 1 1
      let status := field b 2 2
      match s.awaitedCtrl d g op with
      | none => s.lateResponse
      | some r =>
        let s := s.endRequest r
        if op = opCreate then s.createAcked g d status
        else if op = opPrepare then s.prepareAcked g d status
        else if op = opFlip then s.flipAcked g d
        else if op = opDrop then s.dropAcked g d
        else if op = opLoadPrepare then s.loadAcked g d status
        else if op = opScrub then s.scrubReported g d (field b 16 6)
        else s)

/-! ## The start-up scrub (R138, R139, Table 5.6) -/

/-- What a decision in the anchor says of a prepared generation: decided ones flip, others are given up; on a device that
is not the sequencer, a prepared root stays for the sequencer's FLIP. -/
def State.settlePrepared (s : State) (g : Nat) : State :=
  match s.coll? g with
  | none => s
  | some c =>
    match c.prepared, c.seqr with
    | none, _ => s
    | some p, some q => if q.decided.contains p.generation ∧ p.root.isSome then s.flip g else s.abandonBuild g
    | some p, none => if p.root.isSome then s else s.abandonBuild g

/-- Segments that some root, stash, table, or payload store on this device references (R139, steps 1 and 2). -/
def State.referenced (s : State) : List Nat :=
  let colls := s.colls.map fun (e : Nat × Coll) =>
    let c := e.2
    (if c.dropped then [] else s.genSegs e.1 c c.root) ++ (c.prepared.map fun p => p.fresh ++ p.root.toList ++ p.dirs ++ p.cents ++ p.adjs).getD []
      ++ s.chainSegs c.stash ++ c.idSegs ++ c.locSegs
  colls.flatten ++ Map.vals s.pay.pages ++ (Map.keys s.pay.granules)

/-- Free, live and retiring frames are counted anew (R139, step 3). -/
def State.recount (s : State) : State :=
  let holds := fun (st : SegState) => (s.seg.map.filter fun (e : Nat × Seg) => e.2.frame.isSome && e.2.state == st).length
  let live := holds .resident + holds .pagingOut + holds .pagingIn + (s.diag.generators.map fun (e : Nat × Generator) => (e.2.frames.filter (·.2)).length).foldl (· + ·) 0
  let retiring := holds .retiring
  { s with seg := { s.seg with live := live, retiring := retiring, free := s.seg.total - live - retiring } }

/-- The scrub of one collection: its decided generation is in force, and it rolls back once every device has reported. -/
def State.scrubColl (s : State) (g : Nat) : State :=
  let s := s.settlePrepared g
  match s.coll? g with
  | none => s
  | some c =>
    let others := (mapDevices c.shards).filter (· != s.self)
    let resend := match c.seqr.bind (·.run) with
      | some r => if r.phase = .publish then r.waiting.filter (· != s.self) else []
      | none => []
    let s := s.ctrlAll g resend opFlip 0 s.self c.generation 0 0
    if others = [] then s.endScrub g c
    else s.ctrlAll g others opScrub 0 s.self 0 c.flushed 0

/-- STARTUP_SCRUB (R35, R139): after a warm reset with retention, before admission opens. -/
def execStartupScrub (s : State) : Host.Outcome State Fault Refusal :=
  .next (if s.boot.scrubbing = false then s
    else
      let s := (Map.keys s.colls).foldl State.scrubColl s
      let keep := s.referenced
      let s := (s.seg.map.filter fun (e : Nat × Seg) => !keep.contains e.1).foldl (fun (s : State) e => s.freeSeg e.1) s
      let s := s.recount
      { s with boot := { s.boot with scrubbing := false } }.segmentAudit)

/-! ## FENCE (R133) -/

/-- FENCE at admission. -/
def execFence (s : State) : Host.Outcome State Fault Refusal :=
  .next (match s.begin_ 0x40 with
    | none => s
    | some (f, s) =>
      match s.fenceCheck f.origin.burrow f.bytes with
      | some st => s.refuse f st
      | none => (s.takeIn f).2)

/-- What a FENCE waits on has completed: every command before it in its queue and, with BURROW, every command of the
burrow admitted before it. -/
def State.fenceDone (s : State) (key : Nat) (l : Live) : Bool :=
  let burrow := (dFlags l.bytes).testBit 0
  s.host.live.all fun e =>
    e.1 == key || e.2.origin.burrow != l.origin.burrow
      || !((e.2.origin.queue == l.origin.queue && decide (e.2.order < l.order)) || (burrow && decide (e.2.admitted < l.admitted)))

/-- The FENCE of a queue that is live. -/
def State.liveFence (s : State) (b q : Nat) : Option (Nat × Live) :=
  s.host.live.find? fun e => e.2.opcode == 0x40 && e.2.origin.burrow == b && e.2.origin.queue == q

/-- FENCE_COMPLETE (R133, R139): with STAMP, the committed sequence when it completes, asked for where another device is
the sequencer; the first one after a recovery reports the recovered sequence. -/
def execFenceComplete (b : Fin 64) (q : Fin 16) (s : State) : Host.Outcome State Fault Refusal :=
  .next (match s.liveFence b q with
    | none => s
    | some (key, l) =>
      if s.fenceDone key l = false then s
      else if (dFlags l.bytes).testBit 1 = false then s.failLive key stOk
      else
        let g := dColl l.bytes
        match s.served g with
        | none => s.failLive key stNoColl
        | some c =>
          let ends := fun (s : State) stamp => s.finish key { origin := l.origin, status := stOk, stamp := stamp }
          match c.recovered with
          | some r => ends (s.setColl g { c with recovered := none }) r
          | none =>
            if s.isSequencer c then ends s c.committed
            else if l.data ≠ [] then ends s (leNat l.data)
            else if s.fab.requests.any (fun r => r.kind == mStamp && r.owner == 8192 + key) || s.fab.queued.any (fun r => r.2.kind == mStamp && r.2.owner == 8192 + key) then s
            else s.askStamp c g (8192 + key) (s.cmdTag key))

end Sys2Proof.Machine
end

