-- ==== Sys2Proof/Machine/Payload.lean ====
section
/-! DEFINITION. The payload store and its commands (R259 to R268). -/

namespace Sys2Proof.Machine

/-! ## Versions and granules (R260) -/

/-- Bytes of the stored form (Table 10.2). -/
def Handle.stored (h : Handle) : Nat := h.fmt.stored h.n
/-- Granules of a stored size. -/
def granulesFor (size : Nat) : Nat := ceilDiv size 4096

/-- The stored form of a version. -/
def State.payloadBytes (s : State) (h : Handle) : List Byte := s.segRead h.seg (4096 * h.granule) h.s

/-- The first run of `g` free granules of a data page. -/
def freeRun (used : List Nat) (g : Nat) : Option Nat := (List.range (17 - g)).find? fun i => (List.range g).all fun j => !used.contains (i + j)

/-- A data page of the burrow that has room for `g` granules, and the first of them. -/
def State.findRun (s : State) (b g : Nat) : Option (Nat × Nat) :=
  s.pay.granules.findSome? fun (e : Nat × List Nat) =>
    let v := s.seg_ e.1
    if v.state = .resident ∧ v.burrow = b ∧ v.kind = 0x0B then (freeRun e.2 g).map fun i => (e.1, i) else none

/-- The directory page of a handle exists and can hold its entry. -/
def State.hasPage (s : State) (b h : Nat) : Bool :=
  match Map.get? s.pay.pages (b * 4096 + h / 4096) with
  | some n => (s.seg_ n).state != .quarantined
  | none => false

/-- The directory page of a handle is there, allocated when it was missing. -/
def State.needPage (s : State) (b h : Nat) : Option State :=
  if s.hasPage b h then some s
  else (s.alloc b 0x0B 0 Config.noSegment 0).map fun p =>
    { p.2 with pay := { p.2.pay with pages := Map.put p.2.pay.pages (b * 4096 + h / 4096) p.1 } }

/-- Room for `g` granules: in a data page with room, or in a new one. -/
def State.needRun (s : State) (b g : Nat) : Option ((Nat × Nat) × State) :=
  match s.findRun b g with
  | some r => some (r, s)
  | none => (s.alloc b 0x0B 0 Config.noSegment 0).map fun p => ((p.1, 0), p.2)

/-- Granules are marked used. -/
def State.useRun (s : State) (seg first g : Nat) : State :=
  let used := Map.getD s.pay.granules seg []
  { s with pay := { s.pay with granules := Map.put s.pay.granules seg (used ++ (List.range g).map (first + ·)) } }

/-- A version leaves the directory: its granules wait to be freed. -/
def State.unpublish (s : State) (b h : Nat) : State :=
  match s.handle b h with
  | none => s
  | some v => { s with pay := { s.pay with handles := Map.del s.pay.handles (b * 2 ^ 24 + h), old := s.pay.old ++ [(b, v)] } }

/-- The granules of a replaced version are free; a data page with none in use is free too. -/
def State.freeGranules (s : State) (v : Handle) : State :=
  let gone := (List.range (granulesFor v.s)).map (v.granule + ·)
  match Map.get? s.pay.granules v.seg with
  | none => s
  | some used =>
    let left := used.filter fun i => !gone.contains i
    let st := (s.seg_ v.seg).state
    if left = [] ∧ (st = .resident ∨ st = .paged ∨ st = .quarantined) then
      { s with pay := { s.pay with granules := Map.del s.pay.granules v.seg } }.freeSeg v.seg
    else { s with pay := { s.pay with granules := Map.put s.pay.granules v.seg left } }

/-! ## PAYLOAD_WRITE (R262, R264, R265) -/

/-- Step 1: fields and ranges. -/
def payWriteOk (d : List Byte) : Bool :=
  let n := field d 8 4
  decide (dFlags d < 3) && decide (1 ≤ field d 4 4 ∧ field d 4 4 ≤ 0xFFFFFF) && zeroAt d 12 4 && zeroAt d 24 104
    && field d 16 8 % 64 == 0 && (if dFlags d = 0 then decide (n ≤ 65536) else decide (n ≤ 63548))

/-- The format of a PAYLOAD_WRITE. -/
def payFmtOf (d : List Byte) : PayFmt := (PayFmt.ofCode? (dFlags d)).getD .raw

/-- Bytes of the source. -/
def paySource (d : List Byte) : Nat := if dFlags d = 0 then field d 8 4 else 2 * field d 8 4

/-- The source holds a NaN or an infinity where the format narrows (R262). -/
def badSource (d src : List Byte) : Bool := dFlags d != 0 && (halves src).any fun v => v / 128 % 256 == 255

/-- The rest of PAYLOAD_WRITE once the source has been read: granules, bytes, and the new directory entry in one write.
None while the charge has to wait. -/
def State.payPublish (s : State) (b : Nat) (d src : List Byte) : Option (State × Nat × Nat) :=
  let h := field d 4 4
  let fmt := payFmtOf d
  let n := field d 8 4
  if n = 0 then some (s.unpublish b h, stOk, 0)
  else if badSource d src then some (s, stBadVector, 0)
  else
    let body := storedForm fmt n src
    let size := fmt.stored n
    match s.needPage b h with
    | none => some (s, stQuota, 0)
    | some s1 =>
      match s1.needRun b (granulesFor size) with
      | none => some (s, stQuota, 0)
      | some ((seg, first), s2) =>
        (s2.charge b (tokensFor size)).map fun s =>
          let s := ((s.useRun seg first (granulesFor size)).segWrite seg (4096 * first) body).unpublish b h
          let v : Handle := { fmt := fmt, n := n, s := size, seg := seg, granule := first }
          ({ s with pay := { s.pay with handles := Map.put s.pay.handles (b * 2 ^ 24 + h) v } }, stOk, size)

/-- A PAYLOAD_WRITE under way goes on. -/
def State.payWriteGoes (s : State) (key : Nat) : State :=
  match s.live? key with
  | none => s
  | some l =>
    match s.payPublish l.origin.burrow l.bytes l.data with
    | none => s
    | some (s, status, count) => s.finish key { plain l.origin status with count := count }

/-- A live command of an opcode: the oldest one. -/
def State.oldestLive (s : State) (op : Nat) : Option Nat :=
  ((s.host.live.filter fun e => e.2.opcode == op).foldl (fun (best : Option (Nat × Live)) e =>
    match best with
    | none => some e
    | some b => if e.2.admitted < b.2.admitted then some e else some b) none).map Prod.fst

/-- PAYLOAD_WRITE (R265): `data` is the source as the host holds it. -/
def execPayloadWrite (data : List Byte) (s : State) : Host.Outcome State Fault Refusal :=
  .next (match s.begin_ 0x31 with
    | some (f, s') =>
      let b := f.origin.burrow
      if payWriteOk f.bytes then
        let n := paySource f.bytes
        let (key, s') := s'.takeIn f
        let s' := match s'.live? key with
          | some l => s'.setLive key { l with data := padTo n data }
          | none => s'
        let s' := if n = 0 then s' else s'.emit (.hostRead (b + 1) (field f.bytes 16 8) n)
        s'.payWriteGoes key
      else s'.refuse f stInvalid
    | none =>
      match s.oldestLive 0x31 with
      | some key => s.payWriteGoes key
      | none => s)

/-! ## PAYLOAD_READ (R266) -/

/-- A payload header (Table 10.4). -/
def payHeader (handle fmt status form offset n : Nat) : List Byte :=
  toLE 4 handle ++ toLE 1 fmt ++ toLE 1 status ++ toLE 1 form ++ [0] ++ toLE 4 offset ++ toLE 4 n

/-- The fields of PAYLOAD_READ. -/
def payReadOk (d : List Byte) : Bool :=
  decide (dFlags d < 2) && decide (1 ≤ field d 4 4 ∧ field d 4 4 ≤ 0xFFFFFF) && zeroAt d 8 8 && zeroAt d 28 100 && field d 16 8 % 64 == 0

/-- The body of a version in the form asked for, and whether it is the wide one (R263). -/
def payBody (v : Handle) (bytes : List Byte) (wide : Bool) : List Byte × Bool :=
  if wide && v.fmt != .raw then (wideForm v.fmt v.n bytes, true) else (bytes, false)

/-- Bytes of that body. -/
def bodySize (v : Handle) (wide : Bool) : Nat := if wide && v.fmt != .raw then v.fmt.wide v.n else v.s

/-- A version can be read now; a page that is paged out is wanted. -/
def State.payReady (s : State) (v : Handle) : Bool := s.readable v.seg

/-- A PAYLOAD_READ under way goes on. -/
def State.payReadGoes (s : State) (key : Nat) : State :=
  match s.live? key with
  | none => s
  | some l =>
    let d := l.bytes
    let b := l.origin.burrow
    let h := field d 4 4
    let dest := field d 16 8
    let size := field d 24 4
    let write := fun (s : State) (off : Nat) (bs : List Byte) => s.emit (.write (b + 1) (dest + off) bs true)
    match s.handle b h with
    | none =>
      if size < 64 then s.finish key { plain l.origin stInvalid with count := 64 }
      else (write s 0 (payHeader h 0xFF 1 0 0 0)).finish key (plain l.origin stOk)
    | some v =>
      let wide := (dFlags d).testBit 0
      let need := 64 + bodySize v wide
      if v.damaged then
        if size < 64 then s.finish key { plain l.origin stInvalid with count := 64 }
        else (write s 0 (payHeader h v.fmt.code 3 0 0 0)).finish key (plain l.origin stMedia)
      else if size < need then s.finish key { plain l.origin stInvalid with count := need }
      else if !s.payReady v then s.want true v.seg
      else match s.charge b (tokensFor v.s) with
        | none => s
        | some s =>
          let (body, form) := payBody v (s.payloadBytes v) wide
          let s := write (write s 0 (payHeader h v.fmt.code 0 (if form then 1 else 0) 64 v.n)) 64 body
          (s.touch v.seg).finish key { plain l.origin stOk with count := need }

/-- PAYLOAD_READ (R266). -/
def execPayloadRead (s : State) : Host.Outcome State Fault Refusal :=
  .next (match s.begin_ 0x30 with
    | some (f, s') =>
      if payReadOk f.bytes then
        let (key, s') := s'.takeIn f
        s'.payReadGoes key
      else s'.refuse f stInvalid
    | none =>
      match s.oldestLive 0x30 with
      | some key => s.payReadGoes key
      | none => s)

/-- PAYLOAD_GRANULE_FREE (R265): the granules of a replaced version; readers take a version whole in one step. -/
def execPayloadGranuleFree (i : Nat) (s : State) : Host.Outcome State Fault Refusal :=
  .next (match s.pay.old[i]? with
    | none => s
    | some (_, v) => { s with pay := { s.pay with old := s.pay.old.eraseIdx i } }.freeGranules v)

/-! ## Payloads of query results (R268) -/

/-- One result's header and body: the offset its body takes, whether space has run out. -/
structure Delivery where
  offset : Nat
  full : Bool := false

/-- The payload of result `i`. -/
def State.deliverOne (s : State) (q : Ctx) (owner : Nat) (acc : State × Delivery) (ih : Nat × Nat) : State × Delivery :=
  let (t, d) := acc
  let (i, h) := ih
  let write := fun (t : State) (off : Nat) (bs : List Byte) => t.emit (.write (q.burrow + 1) (q.payloadAddr + off) bs true)
  match s.handle owner h with
  | none => (write t (16 * i) (payHeader h 0xFF 1 0 0 0), d)
  | some v =>
    if v.damaged then (write t (16 * i) (payHeader h v.fmt.code 3 0 0 0), d)
    else if d.full || decide (q.payloadSize < d.offset + v.s) then (write t (16 * i) (payHeader h v.fmt.code 2 0 0 0), { d with full := true })
    else
      let t := write (write t (16 * i) (payHeader h v.fmt.code 0 0 d.offset v.n)) d.offset (s.payloadBytes v)
      ((t.chargeUpTo q.burrow (tokensFor v.s)).touch v.seg, { d with offset := 64 * ceilDiv (d.offset + v.s) 64 })

/-- Segments of the results' payloads that are not on the device. -/
def State.payMissing (s : State) (owner : Nat) (hs : List Nat) : List Nat :=
  s.missing ((hs.filterMap (s.handle owner)).filter (fun v => !v.damaged) |>.map (·.seg))

/-- Headers, then bodies, of the results with the handles given, in result order. -/
def State.deliverPayloads (s : State) (q : Ctx) (owner : Nat) (hs : List Nat) : State :=
  ((hs.zipIdx.map fun p => (p.2, p.1)).foldl (s.deliverOne q owner) (s, { offset := 64 * ceilDiv (16 * q.k) 64 })).1

end Sys2Proof.Machine
end

