-- ==== Sys2Proof/Machine/Results.lean ====
section
/-! DEFINITION. The end of waves, the wave messages between devices, and the writing of results
(R102, R103, R110 to R112, R116, R205, R213). -/

namespace Sys2Proof.Machine

/-! ## Records of candidates (R116) -/

/-- The full record of a candidate, if its metadata record can be read now; a remote one was sent with it. -/
def State.resultRecord (s : State) (q : Ctx) (c : Coll) (d : Cand) : Option (List Byte) :=
  if d.remote then Map.get? q.records d.ref
  else (s.candRecord d).map fun r => fullRecord r (scoreOfKey c.metric d.key) (recList r) s.self d.list.isNone

/-- The records of candidates, if all can be read now. -/
def State.resultRecords (s : State) (q : Ctx) (c : Coll) : List Cand → Option (List (List Byte))
  | [] => some []
  | d :: ds =>
    match s.resultRecord q c d, s.resultRecords q c ds with
    | some r, some rs => some (r :: rs)
    | _, _ => none

/-- The segment of a local candidate of a segment. -/
def Cand.segment (d : Cand) : Option Nat := if d.remote || d.ref.testBit 35 then none else some (d.ref % 2 ^ 24)

/-- Segments of candidates that are paged out are wanted in HBM. -/
def State.wantRecords (s : State) (ds : List Cand) : State := (ds.filterMap Cand.segment).foldl (fun (s : State) n => s.want true n) s

/-- A candidate whose record can never be read: its segment has been quarantined since the scan. -/
def State.recordGone (s : State) (d : Cand) : Bool :=
  match d.segment with
  | some n => (s.seg_ n).state == .quarantined || (s.seg_ n).state == .free
  | none => false

/-! ## WAVE_REQ, RELEASE and the remote context's end (R110, R112, R205) -/

/-- The remote context of a query of another device. -/
def State.remoteCtx (s : State) (home tag : Nat) : Option Nat :=
  (s.sched.ctxs.find? fun e => isRemote e.1 && e.2.home == home && e.2.tag == tag).map Prod.fst

/-- τ as a wave request carries it. -/
def wireTau (b : List Byte) : Option (Nat × Nat) := if field b 24 4 = 0xFFFFFFFF then none else some (field b 24 4, field b 28 6)

/-- The list IDs of a wave request. -/
def wireLists (b : List Byte) : List Nat := (List.range (field b 34 2)).map fun i => field b (48 + 4 * i) 4 % 2 ^ 20

/-- The filter program and the vector of a first wave request. -/
def wireQuery (b : List Byte) : List Byte × List Byte :=
  let rest := b.drop (48 + 4 * field b 34 2)
  let terms := field b 23 1
  let n := if terms = 0 then 0 else 8 + 16 * terms
  (rest.take n, rest.drop n)

/-- A remote query starts a wave: its lists and, in wave 1, the stash. -/
def State.remoteWave (s : State) (x : Nat) (q : Ctx) (c : Coll) (lists : List Nat) : State :=
  let found := lists.filter fun l => !s.isDamaged c q.generation q.root l && s.blockBad q.coll c q.generation l
  let s := found.foldl (fun (s : State) l => s.damageBlock q.coll q.generation l) s
  let bad := lists.filter fun l => s.isDamaged c q.generation q.root l || s.blockBad q.coll c q.generation l
  let good := lists.filter fun l => !bad.contains l
  let q := { q with phase := .wave, waveLists := good, waveDamaged := bad, sorter := { k := q.k }, asked := q.waves }
  let s := s.setCtx x q
  let s := good.foldl (fun (s : State) l => s.issueList x q c l) s
  if q.waves = 1 then s.issueStash x q else s

/-- A first request opens a query on this device: context, chunks of one sorter's reserve, tiles; none while any is
missing (R205). -/
def State.openRemote (s : State) (c : Coll) (q : Ctx) : Option (Nat × State) :=
  let n := s.bestSorter 0x0F Config.remoteReserve
  let need := chunksFor q.k
  if Config.remoteReserve < s.used 0x0F n + need then none
  else match s.chooseTiles c q.generation c.kernel c.vecBytes with
    | none => none
    | some ts =>
      match (s.draw.2).newCtx remoteBase Config.remoteContexts { q with chunks := need, sorterNo := n, sorter := { k := q.k } } with
      | none => none
      | some (x, s) =>
        let (tiles, s) := (s.reserve 0x0F n need).takeSlots x c.kernel ts
        some (x, s.modCtx x fun q => { q with tiles := tiles })

/-- A wave request at its device; none while it has to wait in its landing units. -/
def State.waveRequest (s : State) (m : List Byte) : Option State :=
  let b := msgBody m
  let coll := msgColl m
  match s.served coll with
  | none => some s
  | some c =>
    match c.generations.find? fun g => g.1 == field b 8 8 with
    | none => some s
    | some g =>
      let set := fun (q : Ctx) => { q with stamp := field b 0 6, waves := field b 6 2, generation := g.1, root := g.2, day := field b 16 4
                                           k := field b 20 2, tau := wireTau b, deadline := s.clk.now + field b 36 4 }
      match s.remoteCtx (msgSource m) (msgTag m) with
      | some x =>
        match s.ctx? x with
        | some q => some (s.remoteWave x (set q) c (wireLists b))
        | none => some s
      | none =>
        if c.lapsed || c.mediaQuery then some s
        else if field b 22 1 % 2 = 0 then some s
        else
          let fv := wireQuery b
          let q : Ctx := set { home := msgSource m, tag := msgTag m, burrow := c.owner, coll := coll, vec := fv.2, terms := field b 23 1, filter := fv.1, phase := .ranked }
          match s.openRemote c q with
          | none => none
          | some (x, s) =>
            match s.ctx? x with
            | some q => some (s.remoteWave x q c (wireLists b))
            | none => some s

/-- WAVE_REQ (R110): a fenced device takes none (R355). -/
def execWaveReq (i : Nat) (s : State) : Host.Outcome State Fault Refusal :=
  .next (if s.boot.fenced then s
    else match s.take i mWaveReq with
      | none => s
      | some (m, s') => (s'.waveRequest m).getD s)

/-- The state of a remote query ends. -/
def State.endRemote (s : State) (x : Nat) : State := (s.freeQuery x).dropCtx x

/-- RELEASE (R112). -/
def execRelease (i : Nat) (s : State) : Host.Outcome State Fault Refusal :=
  .next (match s.take i mRelease with
    | none => s
    | some (m, s) =>
      match s.remoteCtx (msgSource m) (msgTag m) with
      | some x => s.endRemote x
      | none => s)

/-- REMOTE_STATE_TIMEOUT (R112): the deadline plus the recovery bound has passed. -/
def execRemoteStateTimeout (x : Nat) (s : State) : Host.Outcome State Fault Refusal :=
  .next (match s.ctx? x with
    | some q => if isRemote x ∧ q.deadline + Config.recoveryBoundUs < s.clk.now then s.endRemote x else s
    | none => s)

/-! ## WAVE_RSP (R110, R111) -/

/-- The body of a WAVE_RSP. -/
def waveRspBody (wave scanned : Nat) (damaged : List Nat) (recs : List (List Byte)) : List Byte :=
  toLE 2 wave ++ toLE 2 recs.length ++ toLE 2 damaged.length ++ toLE 2 scanned ++ (damaged.map (toLE 4)).flatten ++ recs.flatten

/-- A partial list leaves in messages of at most 500 records, LAST on the final one. -/
def State.sendPartial (s : State) (q : Ctx) : Nat → List Nat → List (List Byte) → State
  | 0, _, _ => s
  | fuel + 1, damaged, recs =>
    let last := decide (recs.length ≤ 500)
    let scanned := if last then q.waveLists.length else 0
    let s := s.send q.home mWaveRsp (if last then 4 else 0) q.tag q.home q.coll (waveRspBody q.waves scanned damaged (recs.take 500))
    if last then s else s.sendPartial q fuel [] (recs.drop 500)

/-- A wave ends on a remote device: its partial list is sent, once every record can be read. -/
def State.endRemoteWave (s : State) (x : Nat) (q : Ctx) (c : Coll) : State :=
  let q := { q with sorter := q.sorter.endWave }
  match s.resultRecords q c q.sorter.top with
  | none => s.wantRecords q.sorter.top
  | some recs =>
    (s.sendPartial q 10 q.waveDamaged recs).setCtx x { q with phase := .ranked, waveLists := [], waveDamaged := [] }

/-- The lowest number that is no key of the remote record area. -/
def freePlace (m : Map (List Byte)) : Nat := Map.freeKey m 4160 0

/-- A record of a partial list is a post to the query's sorter; the area keeps it while a candidate refers to it. -/
def Ctx.takeRemote (q : Ctx) (c : Coll) (r : List Byte) : Ctx :=
  let i := freePlace q.records
  let d : Cand := { key := rankOrderKey c.metric (fullScore r), seq := fullSeq r, remote := true, ref := i
                    list := if (field r 32 4).testBit 27 then none else some (field r 32 4 % 2 ^ 20), wave := q.waves }
  let sorter := q.sorter.post d
  { q with sorter := sorter, records := (Map.put q.records i r).filter fun e => sorter.refs.contains e.1 }

/-- A partial list arrives at the home device. -/
def State.partialArrives (s : State) (x : Nat) (c : Coll) (m : List Byte) : State :=
  let b := msgBody m
  let nd := field b 4 2
  let damaged := (List.range nd).map fun i => field b (8 + 4 * i) 4 % 2 ^ 20
  let recs := (List.range (field b 2 2)).map fun i => slice b (8 + 4 * nd + 40 * i) 40
  s.modCtx x fun q =>
    let q := recs.foldl (fun (q : Ctx) r => q.takeRemote c r) q
    let q := q.putOut true (q.ranks.filter fun r => damaged.contains r.list)
    { q with scanned := q.scanned + field b 6 2, remotes := if msgLast m then q.remotes.erase (msgSource m) else q.remotes }

/-- The query that a wave request serves, while its tag is current and its wave in progress (R213). -/
def State.waveQuery (s : State) (r : Request) : Option Ctx :=
  match s.ctx? r.owner with
  | some q => if s.tagOf r.owner = r.tag ∧ q.phase = .wave ∧ q.coll = r.coll then some q else none
  | none => none

/-- WAVE_RSP (R111, R213). -/
def execWaveRsp (i : Nat) (s : State) : Host.Outcome State Fault Refusal :=
  .next (match s.take i mWaveRsp with
    | none => s
    | some (m, s) =>
      match s.awaited mWaveReq (msgSource m) (msgTag m) (msgColl m) with
      | none => s.lateResponse
      | some r =>
        let s := if msgLast m then s.endRequest r else s
        match s.waveQuery r, s.coll? (msgColl m) with
        | some _, some c => s.partialArrives r.owner c m
        | _, _ => s.lateResponse)

/-- WAVE_END (R102, R103, R110). -/
def execWaveEnd (x : Nat) (s : State) : Host.Outcome State Fault Refusal :=
  .next (match s.ctx? x with
    | none => s
    | some q =>
      match s.coll? q.coll with
      | none => s
      | some c =>
        if q.phase ≠ .wave ∨ !s.waveDone x q ∨ q.remotes ≠ [] then s
        else if isRemote x then s.endRemoteWave x q c else s.endHomeWave x q c)

/-! ## RESULT_WRITE (R50, R116, R188, R268) -/

/-- A write of a result leaves, or is dropped by its generation tag and counted. -/
def State.resultWrite (s : State) (o : Origin) (addr : Nat) (bs : List Byte) : State :=
  let v := s.burrow o.burrow
  if v.discard ∨ o.gen ≠ v.generation then s.setBurrow o.burrow { v with discarded := (v.discarded + 1) % 2 ^ 32 }
  else s.emit (.write (o.burrow + 1) addr bs true)

/-- A burst of at most 64 records is written with its staging places. -/
def State.writeBurst (s : State) (o : Origin) (q : Ctx) (recs : List (List Byte)) : State :=
  let size := recordSize q.full
  let s := s.reserve 0x0B 0 64
  let s := recs.zipIdx.foldl (fun (s : State) (r : List Byte × Nat) => s.resultWrite o (q.resultAddr + size * (q.written + r.2)) (r.1.take size)) s
  s.giveBack 0x0B 0 64

/-- The payloads, once their pages are on the device, and the end of the query. -/
def State.finishResults (s : State) (x : Nat) (q : Ctx) (owner : Nat) : State :=
  let hs := q.sorter.top.map (s.candHandle q)
  if !q.payload then s.endQuery x
  else if (s.missing (q.sorter.top.filterMap Cand.segment)) ≠ [] then s.wantRecords q.sorter.top
  else if s.payMissing owner hs ≠ [] then (s.payMissing owner hs).foldl (fun (s : State) n => s.want true n) s
  else (s.deliverPayloads q owner hs).endQuery x

/-- The next step of writing a query's results. -/
def State.writeResults (s : State) (x : Nat) (q : Ctx) (c : Coll) (o : Origin) : State :=
  let gone := q.sorter.top.filter s.recordGone
  if gone ≠ [] then
    s.setCtx x { q with status := stMedia, sealed := false, sorter := { q.sorter with top := q.sorter.top.filter fun d => !s.recordGone d }
                        written := q.written - ((q.sorter.top.take q.written).filter s.recordGone).length }
  else
    let burst := (q.sorter.top.drop q.written).take 64
    match s.resultRecords q c burst with
    | none => s.wantRecords burst
    | some recs =>
      let s := if burst = [] then s else s.writeBurst o q recs
      let q := { q with written := q.written + burst.length, phase := .writing }
      let s := s.setCtx x q
      if q.written < q.sorter.top.length then s else s.finishResults x q c.owner

/-- RESULT_WRITE (R116). -/
def execResultWrite (x : Nat) (s : State) : Host.Outcome State Fault Refusal :=
  .next (match s.ctx? x with
    | none => s
    | some q =>
      match q.cmd.bind s.live?, s.coll? q.coll with
      | some l, some c =>
        if (q.phase ≠ .decided ∧ q.phase ≠ .writing) ∨ Config.stagingPlaces < s.used 0x0B 0 + 64 then s
        else s.writeResults x q c l.origin
      | _, _ => s)

end Sys2Proof.Machine
end

