-- ==== Sys2Proof/Machine/Select.lean ====
section
/-! DEFINITION. SELECT (R250 to R258), and QUERY_DISPATCH, which serves queries and selections (R96, R255). -/

namespace Sys2Proof.Machine

/-- The collection number that stands in the context of a SELECT, which has none. -/
def selectColl : Nat := 4096

/-- The context belongs to a SELECT. -/
def Ctx.isSelect (q : Ctx) : Bool := q.coll == selectColl

/-! ## Admission (R251, R252) -/

/-- The descriptor of a SELECT: it stands in the live command. -/
def State.selectDesc (s : State) (q : Ctx) : List Byte := ((q.cmd.bind s.live?).map (·.bytes)).getD []

/-- Rows and row length of a SELECT. -/
def selRows (d : List Byte) : Nat := field d 16 4
def selLength (d : List Byte) : Nat := field d 12 4
/-- Bytes of an element. -/
def selElem (d : List Byte) : Nat := (selectSize (field d 4 1)).getD 4
/-- Bytes of a record. -/
def selRecord (d : List Byte) : Nat := if (dFlags d).testBit 0 then 8 else 4

/-- A SELECT that passes its checks takes its context and chunks; one that reads no row is complete. -/
def State.admitSelect (s : State) (f : Fetched) : State :=
  let k := selectK f.bytes
  let n := s.bestSorter 0x04 Config.localChunks
  let empty := decide (k = 0)
  let (key, s) := s.newLive f.origin 0x20 selectColl f.order f.bytes
  let q : Ctx := { cmd := some key, burrow := f.origin.burrow, coll := selectColl, k := k, chunks := chunksFor k, sorterNo := n
                   deadline := s.clk.now + field f.bytes 20 4, resultAddr := field f.bytes 40 8, phase := .ready, sorter := { k := k } }
  match s.newCtx 0 Config.queryContexts q with
  | none => s.failLive key stAborted
  | some (x, s) =>
    let s := if empty then s else s.reserve 0x04 n (chunksFor k)
    let s := match s.live? key with
      | some l => s.setLive key { l with ctx := some x }
      | none => s
    if empty then (s.setCtx x { q with status := stOk, sealed := true }).endQuery x else s

/-- SELECT (R251, R252). -/
def execSelect (s : State) : Host.Outcome State Fault Refusal :=
  .next (match s.begin_ 0x20 with
    | none => s
    | some (f, s') =>
      match selectCheck f.bytes with
      | some st => s'.refuse f st
      | none => if s.queryCredits (selectK f.bytes) then s'.admitSelect f else s)

/-- A SELECT takes one slot on each tile of a query group, under the kernel of slot 2 (R96, R255). -/
def State.dispatchSelect (s : State) (x : Nat) (q : Ctx) : State :=
  if q.phase ≠ .ready then s
  else
    let width := s.cfg 0x2100 5
    let n := 16 / max width 1
    let pick := s.draw.1 % max n 1
    match (s.groupTiles pick width 2 1).or ((List.range n).findSome? fun g => s.groupTiles g width 2 1) with
    | none => s
    | some ts =>
      let (tiles, s) := (s.draw.2).takeSlots x 2 ts
      s.setCtx x { q with tiles := tiles, phase := .wave }

/-- QUERY_DISPATCH (R96). -/
def execQueryDispatch (x : Nat) (s : State) : Host.Outcome State Fault Refusal :=
  .next (match s.ctx? x with
    | none => s
    | some q => if q.isSelect then s.dispatchSelect x q else s.dispatchQuery x)

/-! ## Values (R253, R254) -/

/-- A row's element as a 32-bit value: widened exactly for the 16-bit types, a NaN bit by bit. -/
def selWide (code v : Nat) : Nat :=
  if code = 1 then v * 2 ^ 16
  else if code = 2 then
    let sign := v / 2 ^ 15 * 2 ^ 31
    let w := v % 2 ^ 15
    if w = 0 then sign
    else if 0x7C00 ≤ w then sign + 0x7F800000 + (w - 0x7C00) * 2 ^ 13
    else sign + (FVal.ofBits .b16 w).toBits .b32 .near
  else v

/-- The order key of an element (R253). -/
def selKey (code wide : Nat) : Nat :=
  if code = 4 then wide ^^^ 0x7FFFFFFF
  else if isNan .b32 wide then 0xFFFFFFFF
  else orderKey (negate32 (posZero wide))

/-- The elements of a round's bytes, from index `i` on: candidates whose reference is the 32-bit value. -/
def selCands (code size : Nat) : Nat → Nat → List Byte → List Cand
  | 0, _, _ => []
  | n + 1, i, bs =>
    let wide := selWide code (leNat (bs.take size))
    { key := selKey code wide, seq := i, ref := wide } :: selCands code size n (i + 1) (bs.drop size)

/-! ## Rounds (R255, R256) -/

/-- Elements of a piece. -/
def pieceElems : Nat := 65536

/-- The first element of a round and how many it has. -/
def selRound (q : Ctx) (length : Nat) : Nat × Nat :=
  let span := max q.tiles.length 1 * pieceElems
  (q.round * span, min span (length - q.round * span))

/-- The host reads of a round: 64 KiB chunks. -/
def State.selReads (s : State) (b addr : Nat) : Nat → Nat → State
  | 0, _ => s
  | fuel + 1, n =>
    if n = 0 then s
    else (s.emit (.hostRead (b + 1) addr (min n 65536))).selReads b (addr + 65536) fuel (n - min n 65536)

/-- A record of a row (R254). -/
def selBytes (values : Bool) (d : Cand) : List Byte := toLE 4 d.seq ++ if values then toLE 4 d.ref else []

/-- A row's records leave in bursts of 64. -/
def State.selWrite (s : State) (o : Origin) (addr size : Nat) (values : Bool) : Nat → Nat → List Cand → State
  | 0, _, _ => s
  | fuel + 1, i, ds =>
    if ds = [] then s
    else
      let s := s.reserve 0x0B 0 64
      let s := ((ds.take 64).zipIdx.foldl (fun (s : State) (d : Cand × Nat) => s.resultWrite o (addr + size * (i + d.2)) (selBytes values d.1)) s).giveBack 0x0B 0 64
      s.selWrite o addr size values fuel (i + 64) (ds.drop 64)

/-- The posts of a round pass the sorter, each with a post credit while it does. -/
def State.selPosts (s : State) (n count : Nat) : State := (s.reserve 0x0A n count).giveBack 0x0A n count

/-- One round of the row in progress (R256). -/
def State.selectRound (s : State) (x : Nat) (q : Ctx) (l : Live) (source : List Byte) : State :=
  let d := l.bytes
  let code := field d 4 1
  let size := selElem d
  let (first, n) := selRound q (selLength d)
  let addr := field d 24 8 + q.row * field d 32 8 + first * size
  let s := s.selReads q.burrow addr 256 (n * size)
  let posts := (selCands code size n first (padTo (n * size) source)).filter fun c => q.beatsTau c.key c.seq
  let sorter := (posts.foldl Sorter.post q.sorter).endWave
  let s := s.selPosts q.sorterNo posts.length
  let q := { q with sorter := sorter, tau := sorter.tau, round := q.round + 1, waves := q.round + 1 }
  if first + n < selLength d then s.setCtx x q
  else
    let s := s.selWrite l.origin (q.resultAddr + q.row * q.k * selRecord d) (selRecord d) ((dFlags d).testBit 0) 65 0 sorter.top
    let q := { q with sorter := { k := q.k }, tau := none, row := q.row + 1, round := 0, scanned := q.scanned + 1, written := q.written + sorter.top.length }
    if q.row < selRows d then s.setCtx x q
    else (s.setCtx x { q with status := stOk, sealed := true }).endQuery x

/-- SELECT_ROUND_END (R256): `source` is the round's part of the row as the host holds it. -/
def execSelectRoundEnd (x : Nat) (source : List Byte) (s : State) : Host.Outcome State Fault Refusal :=
  .next (match s.ctx? x with
    | none => s
    | some q =>
      match q.cmd.bind s.live? with
      | none => s
      | some l => if q.isSelect ∧ q.phase = .wave ∧ s.clk.now ≤ q.deadline then s.selectRound x q l source else s)

/-- SELECT_DEADLINE (R257). -/
def execSelectDeadline (x : Nat) (s : State) : Host.Outcome State Fault Refusal :=
  .next (match s.ctx? x with
    | none => s
    | some q =>
      if q.isSelect ∧ (q.phase = .ready ∨ q.phase = .wave) ∧ q.deadline ≤ s.clk.now then
        (s.setCtx x { q with status := stIncomplete, sealed := false }).endQuery x
      else s)

end Sys2Proof.Machine
end

