-- ==== Sys2Proof/Machine/Lost.lean ====
section
/-! DEFINITION. Requests that fail: REFUSED, the recovery bound, host reads that fail
(R113, R126, R127, R155, R181, R214, R221). -/

namespace Sys2Proof.Machine

/-! ## REFUSED (R221) -/

/-- The request of this device that a REFUSED message concerns. -/
def State.refusedRequest (s : State) (tag coll : Nat) : Option Request :=
  s.fab.requests.find? fun r =>
    r.tag == tag && r.coll == coll && (r.kind == mWaveReq || r.kind == mMutFwd || r.kind == mListPull)

/-- A command whose message a refused stream discarded completes CODEC_TABLE_MISMATCH: a query returns no records. -/
def State.tableRefused (s : State) (tag coll : Nat) : State :=
  match s.refusedRequest tag coll with
  | some r =>
    if r.kind = mWaveReq then
      match s.waveQuery r with
      | some q => ((s.forgetWaves r.owner).setCtx r.owner { q with tableMismatch := true }).conclude r.owner stTable false false
      | none => s.lateResponse
    else if r.kind = mMutFwd then (s.endRequest r).doneMut tag stTable 0
    else
      match s.byTag tag with
      | some key => (s.endRequest r).failLive key stTable
      | none => (s.endRequest r).lateResponse
  | none =>
    match s.byTag tag with
    | some key => if ((s.live? key).map fun l => l.coll == coll && isMutationOp l.opcode).getD false then s.doneMut tag stTable 0 else s.lateResponse
    | none => s.lateResponse

/-- REFUSED (R221). -/
def execRefused (i : Nat) (s : State) : Host.Outcome State Fault Refusal :=
  .next (match s.take i mRefused with
    | none => s
    | some (m, s) => s.tableRefused (msgTag m) (msgColl m))

/-! ## The recovery bound (R214) -/

/-- The device that a remote record in the area came from (Table 4.9). -/
def recordDevice (r : List Byte) : Nat := field r 32 4 / 2 ^ 20 % 128

/-- A remote device is lost for a query: its lists leave this wave, later ones and the table; what came of it in this wave
is withdrawn; a loss in wave 1 needs its stash (R30, R113). -/
def State.loseDevice (s : State) (x : Nat) (q : Ctx) (d : Nat) : State :=
  let gone := (q.ranks ++ q.table).filter fun r => r.owner == d
  let sorter := q.sorter.withdraw fun c => c.remote && c.wave == q.waves && ((Map.get? q.records c.ref).map recordDevice) == some d
  let q := { q with remotes := q.remotes.erase d, lostDevices := q.lostDevices ++ [d], shardNeeded := q.shardNeeded || q.waves == 1
                    sorter := sorter, table := q.table.filter fun r => r.owner != d }
  s.setCtx x (q.putOut false gone)

/-- What the loss of a request does, by its kind. -/
def State.lostEffect (s : State) (r : Request) : State :=
  if r.kind = mWaveReq then
    match s.waveQuery r with
    | some q => s.loseDevice r.owner q r.dest
    | none => s
  else if r.kind = mMutFwd then s.doneMut r.tag stShardLost 0
  else if r.kind = mStamp then
    if 8192 ≤ r.owner then s.failLive (r.owner - 8192) stShardLost
    else (Map.keys s.sched.ctxs).foldl (fun (s : State) x =>
      match s.ctx? x with
      | some q => if q.phase = .stamping ∧ q.tag = r.owner then (q.cmd.map fun key => s.failLive key stShardLost).getD s else s
      | none => s) s
  else if r.kind = mStashWrite then s.writeAnswered r.coll true stShardLost
  else if r.kind = mKillWrite then s.writeAnswered r.coll false stShardLost
  else if r.kind = mRevoke then s.hold r.coll r.dest
  else if r.kind = mListPull then
    match s.byTag r.tag with
    | some key => s.failLive key stShardLost
    | none => s
  else if r.kind = mImagePull then
    match (s.coll? r.coll).bind fun c => c.pull.map fun p => (c, p) with
    | some (c, p) => (s.ackLoad r.coll c p stShardLost).modColl r.coll fun c => { c with pull := none }
    | none => s
  else if r.kind = mCollCtrl then
    if r.owner = opCreate then s.createAcked r.coll r.dest stShardLost
    else if r.owner = opPrepare then s.prepareAcked r.coll r.dest stShardLost
    else s
  else s

/-- The COLL_CTRL operations whose request goes on waiting: no rule says what their loss does (log entry 66). -/
def Request.waitsOn (r : Request) : Bool := r.kind == mCollCtrl && r.owner != opCreate && r.owner != opPrepare

/-- REQUEST_LOST (R214): the full recovery bound has passed without an answer. -/
def execRequestLost (i : Nat) (s : State) : Host.Outcome State Fault Refusal :=
  .next (match s.fab.requests[i]? with
    | none => s
    | some r =>
      if s.clk.now ≤ r.until_ ∨ r.waitsOn then s
      else
        let s := { s with fab := { s.fab with lostRequests := (s.fab.lostRequests + 1) % 2 ^ 32 } }
        (s.endRequest r).lostEffect r)

/-! ## Host reads that fail (R181) -/

/-- The read of a submission entry failed: the slot is HALTED, HOST_DMA_ERROR set, an event logged; the entries of the
failing command have no completion. -/
def State.submissionFails (s : State) (b q : Nat) : State :=
  if s.fetches b q = false ∨ (s.slot b q).waiting = 0 then s
  else ((s.haltSlot b q).flagBurrow b 1).logBurrow b 0x0502 (toLE 1 q)

/-- The read of a command's data failed: it completes ABORTED and changes nothing. -/
def State.dataFails (s : State) (b q id : Nat) : State :=
  let mine := fun (o : Origin) => o.burrow == b && o.queue == q && o.cmdId == id
  match s.host.admitting with
  | some f =>
    let op := dOpcode f.bytes
    if mine f.origin ∧ (op = 0x31 ∨ op = 0x53 ∨ op = 0x60) then
      match s.begin_ op with
      | some (f, s) => s.refuse f stAborted
      | none => s
    else s
  | none =>
    match s.host.live.find? fun (e : Nat × Live) => mine e.2.origin && (e.2.opcode == 0x20 || e.2.opcode == 0x53) with
    | none => s
    | some (key, l) =>
      match l.ctx.bind fun x => (s.ctx? x).map fun q => (x, q) with
      | some (x, q) => (s.setCtx x { q with status := stAborted, sealed := false }).endQuery x
      | none =>
        match s.served l.coll with
        | some c =>
          if s.isSequencer c ∧ (c.pull.map fun p => p.tag == s.cmdTag key && p.loader == s.self).getD false then
            (s.ackLoad l.coll c (c.pull.getD { loader := s.self }) stAborted).modColl l.coll fun c => { c with pull := none }
          else s.failLive key stAborted
        | none => s.failLive key stAborted

/-- HOST_READ_ERROR (R155, R181). -/
def execHostReadError (what : ReadFailure) (s : State) : Host.Outcome State Fault Refusal :=
  .next (match what with
    | .submission b q => s.submissionFails b q
    | .data b q id => s.dataFails b q id
    | .pageIn n => s.pageInFails n)

end Sys2Proof.Machine
end

