-- ==== Sys2Proof/Machine/Memory.lean ====
section
/-! DEFINITION. HBM reads, the patrol scrub, paging, retirement and evacuation: the commands of the memory system
(R143, R144, R148, R153 to R158). -/

namespace Sys2Proof.Machine

/-- Bursts of a frame (R143, R145). -/
def frameBursts : Nat := 2048

/-- System-area frames take waiting replacements, and the segment law is checked (R35, R158). -/
def State.settleFrames (s : State) : State := s.replaceAll.segmentAudit

/-! ## Reads (R143, R144, R157, R158) -/

/-- A frame that no segment holds reads uncorrectable: a pool frame leaves the pool, scratch ends its query. -/
def State.looseFrameBad (s : State) (f : Nat) : State :=
  if s.seg.quarantine.contains f ∨ s.frameTested f then s
  else
    let free := s.frameFree f
    let home := ((s.seg.replaced.find? fun (e : Nat × Nat) => e.2 == f).map Prod.fst).getD f
    let total := s.seg.total
    let s := s.quarantineFrame f
    let s := { s with seg := { s.seg with free := if free then s.seg.free - 1 else s.seg.free, total := if free then total - 1 else total } }
    if 3129344 ≤ home ∧ home < 3141632 then (s.stopQuery ((home - 3129344) / 3) stMedia).replaceScratch ((home - 3129344) / 3) else s

/-- What one burst of a frame is found to be. -/
def State.burstFound (s : State) (f : Nat) (found : BurstRead) : State :=
  match found with
  | .clean => s
  | .corrected => s.countCorrected (frameChannel f)
  | .uncorrectable =>
    match s.seg.map.find? fun (e : Nat × Seg) => e.2.frame == some f with
    | some e => s.quarantine e.1 true
    | none => s.looseFrameBad f

/-- A read sets the reference bit of its segment (R153). -/
def State.touchFrame (s : State) (f : Nat) : State :=
  match s.seg.map.find? fun (e : Nat × Seg) => e.2.frame == some f with
  | some e => s.touch e.1
  | none => s

/-- The frame and the burst exist. -/
def burstExists (f burst : Nat) : Bool := decide (f < Config.frames ∧ burst < frameBursts)

/-- HBM_READ_DONE (R143, R153, R157): what the read of one burst found. -/
def execHbmReadDone (frame burst : Nat) (found : BurstRead) (s : State) : Host.Outcome State Fault Refusal :=
  if burstExists frame burst then .next ((s.touchFrame frame).burstFound frame found).settleFrames
  else .fault (.frameOutsideHbm frame)

/-- PATROL_SCRUB (R143, R144): the same, read by the patrol scrub, which counts what it has read. -/
def execPatrolScrub (frame burst : Nat) (found : BurstRead) (s : State) : Host.Outcome State Fault Refusal :=
  if burstExists frame burst then
    let s := s.burstFound frame found
    .next ({ s with seg := { s.seg with patrolled := s.seg.patrolled + 1 } }).settleFrames
  else .fault (.frameOutsideHbm frame)

/-! ## Paging (R153, R154) -/

/-- PAGE_OUT_START (R153). -/
def execPageOutStart (s : State) : Host.Outcome State Fault Refusal :=
  let runs := s.pageOutRuns
  let s := { s with seg := { s.seg with pagingOut := runs } }
  .next (if runs then
      match s.sweep s.sweepOrder with
      | (some n, s) => s.pageOut n
      | (none, s) => s
    else s)

/-- PAGE_OUT_DONE (R153): the flushing read has completed. -/
def execPageOutDone (seg : Nat) (s : State) : Host.Outcome State Fault Refusal := .next (s.pagedOut seg).settleFrames

/-- PAGE_IN_START (R154). -/
def execPageInStart (seg : Nat) (s : State) : Host.Outcome State Fault Refusal := .next (s.pageIn seg)

/-- PAGE_IN_DONE (R154): `data` is what the host's memory held in the slot. -/
def execPageInDone (seg : Nat) (data : List Byte) (s : State) : Host.Outcome State Fault Refusal :=
  .next (s.pagedIn seg data).settleFrames

/-! ## Retirement and evacuation (R158) -/

/-- PC_RETIRED (R158): a cause of retirement holds. -/
def execPcRetired (pc : Fin 256) (s : State) : Host.Outcome State Fault Refusal :=
  .next (if s.mustRetire pc.val then (s.retirePc pc.val).segmentAudit else s)

/-- Evacuation of one segment: it is copied into a frame elsewhere and remapped, and the kills that waited are written. -/
def State.evacuate (s : State) (n : Nat) (found : BurstRead) : State :=
  let v := s.seg_ n
  match v.copying, v.frame with
  | true, some f =>
    if v.state = .pagingIn then s
    else if found = .uncorrectable then s.quarantine n true
    else match s.pickFrame with
      | none => s
      | some g =>
        let bytes := s.frameBytes f 0 Config.frameBytes
        let s := ((s.draw.2).writeFrame g 0 bytes).setSeg n { v with frame := some g }
        let s := { s with seg := { s.seg with free := s.seg.free - 1 } }.frameBack f
        s.releaseKills n
  | _, _ => s

/-- EVACUATION_COPY_DONE (R158). -/
def execEvacuationCopyDone (seg : Nat) (found : BurstRead) (s : State) : Host.Outcome State Fault Refusal :=
  .next (s.evacuate seg found).settleFrames

end Sys2Proof.Machine
end

