-- ==== Sys2Proof/Machine/Diag.lean ====
section
/-! DEFINITION. The traffic generators and post-package repair (R166 to R168): what a write to their objects does, and
the ends of their runs. A write that is refused answers none. -/

namespace Sys2Proof.Machine

/-- The active mode is DIAG (R166, R167). -/
def State.inDiag (s : State) : Bool := s.dict.mode == 3

def State.generator (s : State) (st : Nat) : Generator := Map.getD s.diag.generators st {}
def State.setGenerator (s : State) (st : Nat) (g : Generator) : State :=
  { s with diag := { s.diag with generators := Map.put s.diag.generators st g } }
/-- A configuration object of a generator (Table 6.8). -/
def State.genCfg (s : State) (st sub : Nat) : Nat := s.cfg (0x8100 + st) sub

/-! ## Patterns (R166) -/

/-- One step of PRBS31, x^31 + x^28 + 1: the new bit and the state with it shifted in. -/
def prbsStep (v : Nat) : Nat × Nat :=
  let b := (v / 2 ^ 30 + v / 2 ^ 27) % 2
  (b, (2 * v + b) % 2 ^ 31)

/-- `n` bits of PRBS31 as a number, the first at bit 0, and the state after them. -/
def prbsBits : Nat → Nat → Nat × Nat
  | 0, v => (0, v)
  | n + 1, v =>
    let (b, v) := prbsStep v
    let (rest, v) := prbsBits n v
    (b + 2 * rest, v)

/-- The bursts of one frame under PRBS31, and the state after them. -/
def prbsFrame : Nat → Nat → List Byte × Nat
  | 0, v => ([], v)
  | n + 1, v =>
    let (bits, v) := prbsBits 256 v
    let (rest, v) := prbsFrame n v
    (toLE 32 bits ++ rest, v)

/-- The bursts of one frame under walking ones. -/
def walkingFrame : List Byte := ((List.range frameBursts).map fun i => toLE 32 (2 ^ (i % 256))).flatten

/-- The bytes of a frame under address-in-data. -/
def addressFrame (f : Nat) : List Byte := ((List.range 8192).map fun i => toLE 8 (f * Config.frameBytes + 8 * i)).flatten

/-- The bytes of a frame under a pattern, and the generator state after them. -/
def patternFrame (pattern f v : Nat) : List Byte × Nat :=
  if pattern = 0 then prbsFrame frameBursts v else (if pattern = 1 then walkingFrame else addressFrame f, v)

/-- A pattern is written into frames, one after the other. -/
def State.writePattern (s : State) (pattern v : Nat) (fs : List Nat) : State :=
  (fs.foldl (fun (a : State × Nat) f => let p := patternFrame pattern f a.2; (a.1.writeFrame f 0 p.1, p.2)) (s, v)).1

/-! ## The generator (R166) -/

/-- The generator may take the frame: free, on the quarantine list, or any unheld pool frame of a retired pseudo-channel. -/
def State.frameUsable (s : State) (f : Nat) : Bool :=
  decide (f < Config.poolFrames) && !s.frameHeld f && !s.frameTested f && !s.frameReplaces f
    && (s.frameFree f || s.seg.quarantine.contains f || s.pcRetired f)

/-- The usable frames of the selected pseudo-channel from StartLocal on. -/
def State.usableFrames (s : State) (st : Nat) : List Nat :=
  let start := s.genCfg st 6
  ((List.range (12220 - start)).map fun i => frameAt (32 * st + s.genCfg st 2) (start + i)).filter s.frameUsable

/-- A generator's frames go back: a free one is free again, a quarantined one stays on the list. -/
def State.returnFrames (s : State) (fs : List (Nat × Bool)) : State :=
  fs.foldl (fun (s : State) (p : Nat × Bool) =>
    if p.2 then { s with seg := { s.seg with live := s.seg.live - 1 } }.frameBack p.1 else s) s

/-- A generator is started, its frames taken and its pattern written; none where the start is refused. -/
def State.startGenerator (s : State) (st : Nat) : Option State :=
  let g := s.generator st
  let back := (s.returnFrames g.frames).setGenerator st { g with frames := [] }
  let usable := back.usableFrames st
  let n := s.genCfg st 5
  if s.inDiag = false ∨ usable.length < n ∨ (s.genCfg st 3 = 0 ∧ s.genCfg st 7 = 0) then none
  else
    let fs := (usable.take n).map fun f => (f, back.frameFree f)
    let k := (fs.filter Prod.snd).length
    let s := back.setGenerator st { status := 1, frames := fs }
    let s := { s with seg := { s.seg with free := s.seg.free - k, live := s.seg.live + k } }
    some (if s.genCfg st 4 = 1 then s else s.writePattern (s.genCfg st 3) (s.genCfg st 7) (fs.map Prod.fst))

/-- A generator that runs is stopped. -/
def State.stopGenerator (s : State) (st : Nat) : State :=
  let g := s.generator st
  if g.status = 1 then (s.returnFrames g.frames).setGenerator st { g with status := 4, frames := [] } else s

/-- GENERATOR_DONE (R166): what the checker found. -/
def execGeneratorDone (st : Fin 8) (found : GeneratorFind) (s : State) : Host.Outcome State Fault Refusal :=
  let g := s.generator st.val
  .next (if g.status ≠ 1 then s
    else ((s.returnFrames g.frames).setGenerator st.val
      { status := if found.errors = 0 then 2 else 3, errors := found.errors % 2 ^ 32, firstError := found.firstError % 2 ^ 64
        corrected := found.corrected % 2 ^ 32, uncorrectable := found.uncorrectable % 2 ^ 32, frames := [] }).settleFrames)

/-! ## Repairs (R167, R168) -/

/-- The frame of a pseudo-channel of a stack and a row. -/
def repairFrame (st pc row : Nat) : Nat := frameAt (32 * st + pc) row

/-- A row may be repaired: DIAG, no segment in its frame, no system-area frame. -/
def State.repairOk (s : State) (st pc row : Nat) : Bool :=
  let f := repairFrame st pc row
  s.inDiag && decide (row < 12220) && !s.frameHeld f && !s.frameReplaces f

/-- Fields of a hard repair slot: row, bank, pseudo-channel. -/
def slotRow (v : Nat) : Nat := bits v 13 0
def slotBank (v : Nat) : Nat := bits v 19 14
def slotPc (v : Nat) : Nat := bits v 24 20

/-- The fused slots of a stack. -/
def State.fusedSlots (s : State) (st : Nat) : List Nat := (s.diag.hard.filter fun (e : Nat × Nat) => e.1 / 32 == st).map Prod.snd

/-- Spare rows left in a bank. -/
def State.sparesLeft (s : State) (st pc bank : Nat) : Nat :=
  Config.spareRows st pc bank - ((s.fusedSlots st).filter fun v => slotPc v == pc && slotBank v == bank).length

def State.repairStatus (s : State) (st code : Nat) : State :=
  { s with diag := { s.diag with repairStatus := Map.put s.diag.repairStatus st code } }

/-- A repair command to a stack: 1 read spare resources, 2 soft repair, 3 clear soft repairs; its Status with it, and whether
it was accepted. -/
def State.repairCommand (s : State) (st cmd : Nat) : Bool × State :=
  let pc := s.cfg (0x8200 + st) 2
  let bank := s.cfg (0x8200 + st) 3
  let row := s.cfg (0x8200 + st) 4
  if s.inDiag = false then (false, s.repairStatus st 2)
  else if cmd = 1 then
    let s := { s with diag := { s.diag with spareRead := Map.put s.diag.spareRead st (s.sparesLeft st pc bank % 256) } }
    (true, s.repairStatus st 0)
  else if cmd = 2 then
    if s.repairOk st pc row then
      let r := (st, pc, bank, row)
      let s := { s with diag := { s.diag with soft := if s.diag.soft.contains r then s.diag.soft else s.diag.soft ++ [r] } }
      (true, s.repairStatus st 0)
    else (false, s.repairStatus st 2)
  else
    let s := { s with diag := { s.diag with soft := s.diag.soft.filter fun r => r.1 != st } }
    (true, s.repairStatus st 0)

/-- A hard repair slot's value. -/
def State.hardSlot (s : State) (st slot : Nat) : Nat := Map.getD s.diag.hard (st * 32 + slot) 0

/-- The value of a hard repair is one R168 accepts: VALID, no reserved bit, a row R167 lets be repaired, a spare left. -/
def State.hardOk (s : State) (st v : Nat) : Bool :=
  v.testBit 31 && bits v 30 25 == 0 && s.repairOk st (slotPc v) (slotRow v) && decide (0 < s.sparesLeft st (slotPc v) (slotBank v))

/-- A repair is fused into the stack, and the PRBS31 pass over its frame is due (R168). -/
def State.fuseRepair (s : State) (st slot v : Nat) : State :=
  { s with diag := { s.diag with hard := Map.put s.diag.hard (st * 32 + slot) v
                                 checking := Map.modify s.diag.checking st [] fun fs => fs ++ [repairFrame st (slotPc v) (slotRow v)] } }

/-- A quarantined frame is good again: it returns to the pool and total rises by one; one that a generator holds counts as
live until the generator stops. -/
def State.releaseFrame (s : State) (f : Nat) : State :=
  if !s.seg.quarantine.contains f then s
  else
    let s := { s with seg := { s.seg with quarantine := s.seg.quarantine.filter (· != f) } }
    if s.pcRetired f then s
    else if s.frameTested f then
      { s with
        seg := { s.seg with total := s.seg.total + 1, live := s.seg.live + 1 }
        diag := { s.diag with generators := s.diag.generators.map fun (g : Nat × Generator) =>
          (g.1, { g.2 with frames := g.2.frames.map fun p => if p.1 = f then (f, true) else p }) } }
    else { s with seg := { s.seg with total := s.seg.total + 1, free := s.seg.free + 1 } }

/-- HARD_REPAIR_CHECK_DONE (R168): the PRBS31 pass over the first due frame has ended. -/
def execHardRepairCheckDone (st : Fin 8) (pass : Bool) (s : State) : Host.Outcome State Fault Refusal :=
  .next (match Map.getD s.diag.checking st.val [] with
    | [] => s
    | f :: fs =>
      let s := { s with diag := { s.diag with checking := if fs = [] then Map.del s.diag.checking st.val else Map.put s.diag.checking st.val fs } }
      (if pass then s.releaseFrame f else s).settleFrames)

end Sys2Proof.Machine
end

