-- ==== Sys2Proof/Machine/Fabric.lean ====
section
/-! DEFINITION. The fabric below the messages: the port map (R193), LINK checks (R194), routing (R195 to R197), flits and
their fields (R198, R199), sending with credits and the codec (R201, R215 to R217, R221), receiving (R207, R211, R212, R223). -/

namespace Sys2Proof.Machine

def State.port (s : State) (p : Nat) : Port := Map.getD s.fab.ports p {}
def State.setPort (s : State) (p : Nat) (v : Port) : State := { s with fab := { s.fab with ports := Map.put s.fab.ports p v } }
def State.modPort (s : State) (p : Nat) (f : Port → Port) : State := s.setPort p (f (s.port p))

/-! ## The port map (R193, Table 8.1) -/

/-- N, the tray count. -/
def State.trays (s : State) : Nat := s.cfg 0x6000 4

/-- The port is used: 7 to 9 only with other trays, 9 only when N is 16. -/
def State.portUsed (s : State) (p : Nat) : Bool := decide (p < 7) || (decide (p < 9) && decide (1 < s.trays)) || (p == 9 && s.trays == 16)

/-- The device a port reaches and that device's port on the same cable, for the device at tray t, position q. -/
def neighbourOf (trays t q p : Nat) : Nat × Nat :=
  if p < 7 then
    let n := if p < q then p else p + 1
    (8 * t + n, if q < n then q else q - 1)
  else if p = 7 then (8 * ((t + 1) % max trays 1) + q, 8)
  else if p = 8 then (8 * ((t + trays - 1) % max trays 1) + q, 7)
  else (8 * ((t + 8) % 16) + q, 9)

/-! ## Routing (R195, R196) -/

/-- The port toward another position of the own tray. -/
def trayPort (own dest : Nat) : Nat := if dest < own then dest else dest - 1

/-- The next port of a message for device `dest` at the device of tray t, position q; none where it is delivered, or has no
route. -/
def nextPort (trays t q dest : Nat) (first ringHop : Bool) : Option Nat :=
  if dest = 8 * t + q then none
  else if first ∧ dest % 8 ≠ q then some (trayPort q (dest % 8))
  else
    let n := max trays 1
    let d := (dest / 8 + n - t % n) % n
    if d = 0 then none
    else if n = 16 ∧ 5 ≤ d ∧ d ≤ 11 ∧ ringHop = false then some 9
    else if d ≤ n / 2 then some 7
    else some 8

/-- The dateline class of a hop (R196): 1 from the hop that crosses between tray N − 1 and tray 0 on. -/
def hopClass (trays t p cls : Nat) : Nat :=
  if p < 7 ∨ p = 9 then 0
  else if cls = 1 ∨ (p = 7 ∧ t + 1 = trays) ∨ (p = 8 ∧ t = 0) then 1
  else 0

/-- The next port of a message at this device. -/
def State.route (s : State) (m : Message) : Option Nat :=
  match s.boot.position with
  | none => none
  | some q => nextPort s.trays s.boot.tray q (msgDest m.bytes) m.port.isNone m.ringHop

/-- The port on the route from this device to another. -/
def State.routeTo (s : State) (d : Nat) : Option Nat :=
  match s.boot.position with
  | none => none
  | some q => nextPort s.trays s.boot.tray q d true false

/-! ## Flits (R198, R199) -/

def flitKind (f : List Byte) : Nat := field f 0 1
/-- Channel and class of a flit as one number: channel + 4 × class. -/
def flitChannel (f : List Byte) : Nat := field f 1 1 % 8
def flitSom (f : List Byte) : Bool := (field f 1 1).testBit 3
def flitEom (f : List Byte) : Bool := (field f 1 1).testBit 4
def flitSeq (f : List Byte) : Nat := field f 2 2 % 4096
def flitAck (f : List Byte) : Nat := field f 4 2 % 4096
def flitNak (f : List Byte) : Bool := (field f 4 2).testBit 14
def flitAckValid (f : List Byte) : Bool := (field f 4 2).testBit 15
/-- Channel + 4 × class of a credit return, and its count. -/
def flitCredit (f : List Byte) : Nat × Nat := (field f 6 1 % 8, field f 7 1)
def flitPayload (f : List Byte) : List Byte := slice f 8 244
def flitCrcOk (f : List Byte) : Bool := f.length == 256 && field f 252 4 == crc32c (f.take 252)

/-- A flit with its CRC. -/
def mkFlit (kind channel seq ack creditChannel credit : Nat) (payload : List Byte) : List Byte :=
  let f := toLE 1 kind ++ toLE 1 channel ++ toLE 2 seq ++ toLE 2 ack ++ toLE 1 creditChannel ++ toLE 1 credit ++ padTo 244 payload
  f ++ toLE 4 (crc32c f)

/-- The acknowledge field a port sends. -/
def Port.ackField (v : Port) (nak : Bool) : Nat :=
  if v.rxAny || nak then (v.rxSeq + 4095) % 4096 + (if nak then 2 ^ 14 else 0) + 2 ^ 15 else 0

/-- The credit a port returns with its next flit: the lowest channel and class that owes units. -/
def Port.creditDue (v : Port) : Nat × Nat × Port :=
  match v.owed.find? fun (e : Nat × Nat) => decide (0 < e.2) with
  | none => (0, 0, v)
  | some (k, n) => (k, min n 255, { v with owed := if n ≤ 255 then Map.del v.owed k else Map.put v.owed k (n - 255) })

/-- A DATA or CTRL flit leaves: it takes a sequence number and stays in the replay buffer (R198, R207). -/
def State.sendSequenced (s : State) (p kind channel : Nat) (payload : List Byte) : State :=
  let (k, n, v) := (s.port p).creditDue
  let f := mkFlit kind channel v.txSeq (v.ackField false) k n payload
  let v := { v with txSeq := (v.txSeq + 1) % 4096, replay := v.replay ++ [{ seq := v.txSeq, bytes := f }]
                    ackTime := if v.replay = [] then s.clk.now else v.ackTime }
  (s.setPort p v).emit (.flit p f)

/-- An IDLE flit leaves with the acknowledgement and a credit return. -/
def State.sendIdle (s : State) (p : Nat) (nak : Bool) : State :=
  let (k, n, v) := (s.port p).creditDue
  (s.setPort p v).emit (.flit p (mkFlit 0 0 0 (v.ackField nak) k n []))

/-- IDLE flits leave until no credit is owed, one of them at least. -/
def State.acknowledge (s : State) (p : Nat) : Nat → State
  | 0 => s
  | n + 1 =>
    let s := s.sendIdle p false
    if (s.port p).owed.all fun (e : Nat × Nat) => e.2 == 0 then s else s.acknowledge p n

/-- The payload of the LINK flit (Table 8.7). -/
def State.linkPayload (s : State) (p : Nat) : List Byte :=
  toLE 1 s.self ++ toLE 1 p ++ [1, 0] ++ toLE 8 s.dieId ++ toLE 2 (s.port p).generation

/-- The LINK flit leaves. -/
def State.sendLink (s : State) (p : Nat) : State := s.emit (.flit p (mkFlit 2 0 0 0 0 0 (s.linkPayload p)))

/-! ## The codec's binding (R220) -/

def Port.slotOf (v : Port) (i : Nat) : CodecSlot := Map.getD v.codec i {}

/-- Element type code of a slot: 0 for an empty one. -/
def tableType : Option CodecTable → Nat
  | none => 0
  | some t => if t.fp16 then 2 else 1

/-- The triple of slot `i` for a table in force. -/
def triple (i : Nat) (t : Option CodecTable) : List Byte := toLE 1 i ++ toLE 1 (tableType t) ++ toLE 4 ((t.map (·.id)).getD 0)

/-- The 16 triples of the transmit slots (0) or the receive slots (16). -/
def Port.triples (v : Port) (base : Nat) : List (List Byte) := (List.range 16).map fun i => triple i (v.slotOf (base + i)).table

/-- A CTRL flit's payload. -/
def ctrlPayload (ty number mask : Nat) (triples : List (List Byte)) : List Byte :=
  toLE 1 ty ++ [0] ++ toLE 2 number ++ toLE 2 mask ++ zeros 2 ++ triples.flatten

/-- The transmitter binds its stream: BIND leaves in sequence, and until the answer blocks travel raw. -/
def State.bindStream (s : State) (p : Nat) : State :=
  let v := s.port p
  let s := s.setPort p { v with bindNo := (v.bindNo + 1) % 65536, txBind := 0 }
  s.sendSequenced p 3 0 (ctrlPayload 1 v.bindNo 0 (v.triples 0))

/-- Tables of a direction in force, by slot. -/
def Port.tables (v : Port) (base : Nat) : List (Nat × CodecTable) :=
  (List.range 16).filterMap fun i => (v.slotOf (base + i)).table.map fun t => (i, t)

/-! ## Port states (R194, R209, R210) -/

/-- Messages received over a port hold none of its units any more. -/
def Message.forget (p : Nat) (m : Message) : Message := if m.port = some p then { m with units := 0 } else m

/-- The link's counters start anew: sequence numbers, replay buffer, credits, partly received messages, the codec's stream. -/
def State.resetLink (s : State) (p : Nat) : State :=
  let s := s.giveBack 0x0D p (s.used 0x0D p)
  let s := s.modPort p fun v => { v with txSeq := 0, rxSeq := 0, nakSent := false, rxAny := false, retrainDue := false, replay := []
                                         units := [], owed := [], partials := [], bindNo := 0, txBind := 0, rxBind := 0 }
  { s with fab := { s.fab with transit := s.fab.transit.map (Message.forget p) } }

/-- The port enters TRAINING under a new link generation. -/
def State.train (s : State) (p : Nat) : State :=
  (s.resetLink p).modPort p fun v => { v with state := .training, generation := (v.generation + 1) % 65536, linkSent := false, since := s.clk.now }

/-- A DISABLED port that is used, with Enable 1 and a device ID, starts link-up, not before stage HOST (R193, R210, R347). -/
def State.startPort (s : State) (p : Nat) : State :=
  if (s.port p).state = .disabled ∧ 6 ≤ s.boot.stage ∧ s.portUsed p ∧ s.boot.position.isSome ∧ s.cfg (0x6010 + p) 1 = 1 then s.train p else s

/-- Every port that may starts link-up. -/
def State.startPorts (s : State) : State := (List.range 10).foldl State.startPort s

/-- The port is UP: the codec bind follows, and unanswered REVOKEs go again over it (R127, R194, R220). -/
def State.portUp (s : State) (p : Nat) : State :=
  let s := (s.modPort p fun v => { v with state := .up, reason := 0, since := s.clk.now }).bindStream p
  s.resendRevokes fun d => s.routeTo d == some p

/-- The first LINK check that fails, as a refuse reason (R194): 1 LOOPBACK, 2 FUSE, 3 MISWIRED, 4 VERSION. -/
def State.linkReason (s : State) (p : Nat) (f : List Byte) : Option Nat :=
  let b := flitPayload f
  let die := field b 4 8
  let want := neighbourOf s.trays s.boot.tray (s.boot.position.getD 0) p
  if die = s.dieId then some 1
  else if die = 0 ∨ s.dieId = 0 then some 2
  else if (field b 0 1, field b 1 1) ≠ want then some 3
  else if field b 2 1 ≠ 1 then some 4
  else none

/-- A LINK flit that can be read: its CRC holds and its kind is LINK. -/
def isLink (f : List Byte) : Bool := flitCrcOk f && flitKind f == 2

/-- The port is REFUSED; the event is logged as it enters that state or its reason changes. -/
def State.refusePort (s : State) (p reason : Nat) : State :=
  let v := s.port p
  let again := v.state = .refused ∧ v.reason = reason
  let s := (s.resetLink p).modPort p fun v => { v with state := .refused, reason := reason, since := s.clk.now }
  if again then s else s.logPort p 0x0600 (toLE 1 reason)

/-- The outcome of the LINK exchange: `keep` where the sequence numbers and the replay buffer go on (R208). -/
def State.linkExchange (s : State) (p : Nat) (f : List Byte) (pass : State → State) : State :=
  let s := s.modPort p fun v => { v with neighbour := field (flitPayload f) 4 8 }
  match s.linkReason p f with
  | some r => s.refusePort p r
  | none => pass s

/-! ## Sending messages (R195 to R197, R200, R201, R215 to R217, R221) -/

/-- The element type that frames a message's vector field: false BF16, true FP16; none for a field carried unframed. -/
def State.framing (s : State) (m : List Byte) : Option Bool :=
  if msgFramed m then some (msgFp16 m)
  else match vecOffset m, s.coll? (msgColl m) with
    | some _, some c => if msgSource m = s.self then (match c.ty with
        | .bf16 => some false
        | .fp16 => some true
        | _ => none) else none
    | _, _ => none

/-- A message as it travels over a port: framed and coded where its element type asks for it. -/
def State.wireForm (s : State) (p : Nat) (m : List Byte) : List Byte :=
  match vecOffset m, s.framing m with
  | some o, some fp16 =>
    let v := s.port p
    let coded := encodeField fp16 (s.cfg (0x6010 + p) 7 == 1 && v.txBind == 1) (v.tables 0) (ceilDiv (m.length - o) 512) (m.drop o)
    let flags := msgFlags m % 8 / 4 * 4 + 1 + (if fp16 then 2 else 0)
    splice (splice (m.take o) 3 (toLE 1 flags)) 6 (toLE 2 (o + coded.length)) ++ coded
  | _, _ => splice m 6 (toLE 2 m.length)

/-- The flits of a message, contiguous on its channel. -/
def State.sendFlits (s : State) (p key : Nat) (first : Bool) : List (List Byte) → State
  | [] => s
  | b :: bs =>
    let channel := key + (if first then 8 else 0) + (if bs.isEmpty then 16 else 0)
    (s.sendSequenced p 1 channel b).sendFlits p key false bs

/-- Receive units a message needs. -/
def unitsFor (m : List Byte) : Nat := ceilDiv m.length 256

/-- The message carries the device's own ID as source, and as requester where it was made before the ID was known. -/
def State.stampSource (s : State) (m : Message) : List Byte :=
  if m.port = none ∧ msgSource m.bytes = 127 ∧ s.self ≠ 127 then
    let b := splice m.bytes 1 (toLE 1 s.self)
    if msgRequester b = 127 then splice b 12 (toLE 1 s.self) else b
  else m.bytes

/-- A message in transit goes over a port, is delivered, or is discarded before a REFUSED stream; otherwise it waits. -/
def State.forward (s : State) (i : Nat) (m : Message) : State :=
  let bytes := s.stampSource m
  let m := { m with bytes := bytes }
  let gone := { s with fab := { s.fab with transit := s.fab.transit.eraseIdx i } }
  if s.deviceId = some (msgDest bytes) then
    let s := gone.unitsBack m
    { s with fab := { s.fab with inbox := s.fab.inbox ++ [{ m with port := none, units := 0 }] } }
  else match s.route m with
    | none => s
    | some p =>
      let v := s.port p
      if v.state ≠ .up then s
      else if (vecOffset bytes).isSome ∧ v.txBind = 2 then
        (gone.unitsBack m).send (msgRequester bytes) mRefused 0 (msgTag bytes) (msgRequester bytes) (msgColl bytes) (toLE 2 stTable ++ zeros 6)
      else
        let cls := hopClass s.trays s.boot.tray p m.cls
        let key := m.channel + 4 * cls
        let wire := s.wireForm p bytes
        let flits := pieces 244 wire.length wire
        let need := unitsFor bytes
        if Config.linkUnits < Map.getD v.units key 0 + need ∨ 512 < v.replay.length + flits.length then s
        else
          let s := (gone.unitsBack m).reserve 0x0D p need
          let s := s.modPort p fun v => { v with units := Map.put v.units key (Map.getD v.units key 0 + need) }
          let s := s.sendFlits p key true flits
          match m.port with
          | some r => if (s.port r).owed.isEmpty then s else s.acknowledge r 9
          | none => s

/-! ## Receiving (R201, R207, R211, R212, R223) -/

/-- A port that receives flits of the layer above the link. -/
def Port.receives (v : Port) : Bool := v.state == .up || v.state == .draining

/-- What came with an accepted flit: the acknowledgement and the returned credits. -/
def State.takeFields (s : State) (p : Nat) (f : List Byte) : State :=
  let (k, n) := flitCredit f
  let s := s.modPort p fun v =>
    let v := if flitAckValid f then
        match v.replay.findIdx? fun x => x.seq == flitAck f with
        | some i => { v with replay := v.replay.drop (i + 1), ackTime := s.clk.now }
        | none => v
      else v
    v
  let back := min n (Map.getD (s.port p).units k 0)
  if back = 0 then s
  else (s.modPort p fun v => { v with units := Map.put v.units k (Map.getD v.units k 0 - back) }).giveBack 0x0D p back

/-- NAK leaves, once per gap. -/
def State.sendNak (s : State) (p : Nat) : State :=
  if (s.port p).nakSent then s
  else (s.modPort p fun v => { v with nakSent := true }).sendIdle p true

/-- How a sequenced flit meets the receiver. -/
inductive Arrival | accepted | duplicate | gap
  deriving DecidableEq, Repr

/-- In sequence, already accepted, or out of sequence. -/
def Port.arrival (v : Port) (f : List Byte) : Arrival :=
  if flitSeq f = v.rxSeq then .accepted
  else if v.rxAny ∧ (v.rxSeq + 4096 - flitSeq f) % 4096 ≤ 2048 then .duplicate
  else .gap

/-- The flit is accepted: the next sequence number is expected, and its fields are taken. -/
def State.acceptFlit (s : State) (p : Nat) (f : List Byte) : State :=
  (s.modPort p fun v => { v with rxSeq := (v.rxSeq + 1) % 4096, nakSent := false, rxAny := true }).takeFields p f

/-- A message is discarded as R211 and R212 give. -/
def State.unknownMessage (s : State) (p ty : Nat) : State := s.logPort p 0x0604 (toLE 1 ty)

/-- A received message in its decoded form: a wrong length or form (none), a decode fault (false), or the message. -/
def Port.decode (v : Port) (w : List Byte) : Except Bool (List Byte) :=
  if w.length < 16 ∨ field w 6 2 ≠ w.length then .error true
  else if msgFramed w then
    match vecOffset w with
    | none => .error true
    | some o =>
      if w.length < o then .error true
      else match decodeField (msgFp16 w) (v.tables 16) (ceilDiv (msgRaw w - o) 512) (msgRaw w - o) (w.drop o) with
        | none => .error false
        | some (bytes, rest) => if rest.isEmpty && msgOk (w.take o ++ bytes) then .ok (w.take o ++ bytes) else .error true
  else if msgOk w then .ok w else .error true

/-- Receive units are returned to the neighbour. -/
def State.oweUnits (s : State) (p key n : Nat) : State := s.modPort p fun v => { v with owed := Map.put v.owed key (Map.getD v.owed key 0 + n) }

/-- A whole message has arrived over a port: consumed here, kept for the next port, or discarded. -/
def State.messageArrives (s : State) (p key : Nat) (w : List Byte) : State :=
  let units := ceilDiv (msgRaw w) 256
  match (s.port p).decode w with
  | .error true => (s.oweUnits p key units).unknownMessage p (msgType w)
  | .error false =>
    let s := (s.oweUnits p key units).logPort p 0x0603
    { s with fab := { s.fab with decodeFaults := (s.fab.decodeFaults + 1) % 2 ^ 32 } }
  | .ok bytes =>
    let m : Message := { bytes := bytes, channel := key % 4, cls := key / 4, ringHop := p == 7 || p == 8, port := some p, units := units }
    if s.deviceId = some (msgDest bytes) then
      let s := s.oweUnits p key units
      { s with fab := { s.fab with inbox := s.fab.inbox ++ [{ m with port := none, units := 0 }] } }
    else { s with fab := { s.fab with transit := s.fab.transit ++ [m] } }

/-- The payload of a DATA flit joins its message; the last flit ends it. -/
def State.dataArrives (s : State) (p : Nat) (f : List Byte) : State :=
  let key := flitChannel f
  let before := if flitSom f then [] else Map.getD (s.port p).partials key []
  let all := before ++ flitPayload f
  if flitEom f then
    let wire := all.take (max (field all 6 2) 16)
    let s := s.modPort p fun v => { v with partials := Map.del v.partials key }
    if all.length < field all 6 2 ∨ field all 6 2 + 244 ≤ all.length then (s.oweUnits p key (ceilDiv (msgRaw all) 256)).unknownMessage p (msgType all)
    else s.messageArrives p key wire
  else s.modPort p fun v => { v with partials := Map.put v.partials key all }

/-- A sequenced flit arrives: damaged and out-of-sequence ones are discarded with a NAK, duplicates silently; what an
accepted one carries is `use`d. -/
def State.sequenced (s : State) (p : Nat) (f : List Byte) (use : State → State) : State :=
  if flitCrcOk f = false then s.sendNak p
  else match (s.port p).arrival f with
    | .duplicate => s
    | .gap => s.sendNak p
    | .accepted => (use (s.acceptFlit p f)).acknowledge p 9

/-! ## Resending (R207, R208) -/

/-- The replay buffer is resent from the first unacknowledged flit; a ninth replay of one flit falls due instead. -/
def State.resend (s : State) (p : Nat) : State :=
  let v := s.port p
  if v.replay = [] then s
  else if v.replay.any fun x => decide (8 ≤ x.resends) then s.setPort p { v with retrainDue := true }
  else
    let s := s.setPort p { v with replay := v.replay.map fun x => { x with resends := x.resends + 1 }, ackTime := s.clk.now
                                  replays := (v.replays + 1) % 2 ^ 32 }
    v.replay.foldl (fun (s : State) x => s.emit (.flit p x.bytes)) s

end Sys2Proof.Machine
end

