-- ==== Sys2Proof/Machine/Links.lean ====
section
/-! DEFINITION. The commands of the fabric's ports and of the codec's binding (R194, R195, R207 to R210, R219, R220). -/

namespace Sys2Proof.Machine

/-! ## Enable (R210) -/

/-- A write to a port's Enable, or a change of its effective value. -/
def State.portEnable (s : State) (p : Nat) (on : Bool) : State :=
  let v := s.port p
  if on then
    match v.state with
    | .disabled => s.startPort p
    | .draining => s.setPort p { v with pendingEnable := true }
    | _ => s
  else
    match v.state with
    | .up => s.setPort p { v with state := .draining, since := s.clk.now }
    | .retraining => s.setPort p { v with state := .draining, since := s.clk.now }
    | .draining => s.setPort p { v with pendingEnable := false }
    | .disabled => s
    | _ => (s.resetLink p).modPort p fun v => { v with state := .disabled }

/-- PORT_DRAIN_END (R210). -/
def execPortDrainEnd (p : Fin 10) (s : State) : Host.Outcome State Fault Refusal :=
  let v := s.port p.val
  .next (if v.state ≠ .draining ∨ (v.replay ≠ [] ∧ s.clk.now < v.since + 400) then s
    else
      let s := (s.resetLink p.val).modPort p.val fun v => { v with state := .disabled, pendingEnable := false }
      if v.pendingEnable then s.train p.val else s)

/-! ## Link-up (R194, R209) -/

/-- PHY_TRAINED (R194): the LINK flit goes to the neighbour. -/
def execPhyTrained (p : Fin 10) (s : State) : Host.Outcome State Fault Refusal :=
  let v := s.port p.val
  .next (if v.state = .training ∧ v.linkSent = false then (s.setPort p.val { v with linkSent := true }).sendLink p.val else s)

/-- LINK_FLIT (R194): the neighbour's LINK flit is checked. -/
def execLinkFlit (p : Fin 10) (flit : List Byte) (s : State) : Host.Outcome State Fault Refusal :=
  let v := s.port p.val
  .next (if v.state = .training ∧ v.linkSent ∧ isLink flit then s.linkExchange p.val flit fun s => s.portUp p.val else s)

/-- LINK_UP_RETRY (R194, R209): every 10 ms; `link` is the neighbour's LINK flit where one came. -/
def execLinkUpRetry (p : Fin 10) (link : Option (List Byte)) (s : State) : Host.Outcome State Fault Refusal :=
  let v := s.port p.val
  .next (if (v.state ≠ .down ∧ v.state ≠ .refused) ∨ s.clk.now < v.since + 10000 then s
    else
      let next := { v with generation := (v.generation + 1) % 65536 }
      match link with
      | none => s.setPort p.val { v with since := s.clk.now }
      | some f =>
        if isLink f = false then s.setPort p.val { v with since := s.clk.now }
        else match s.linkReason p.val f with
          | some _ => (s.sendLink p.val).linkExchange p.val f id
          | none => ((s.setPort p.val next).sendLink p.val).linkExchange p.val f fun s => (s.resetLink p.val).portUp p.val)

/-! ## Received flits (R198, R207) -/

/-- DATA_FLIT (R198, R201, R207): a flit of an unknown kind is discarded as a CRC failure would be. -/
def execDataFlit (p : Fin 10) (flit : List Byte) (s : State) : Host.Outcome State Fault Refusal :=
  .next (if (s.port p.val).receives = false then s
    else if flitCrcOk flit ∧ (flitKind flit = 0 ∨ flitKind flit = 2 ∨ flitKind flit = 3) then s
    else if flitKind flit = 1 then s.sequenced p.val flit fun s => s.dataArrives p.val flit
    else s.sendNak p.val)

/-- IDLE_FLIT (R198, R207): acknowledgement and credit return, no sequence number. -/
def execIdleFlit (p : Fin 10) (flit : List Byte) (s : State) : Host.Outcome State Fault Refusal :=
  .next (if (s.port p.val).receives = false then s
    else if flitCrcOk flit = false then s.sendNak p.val
    else if flitKind flit = 0 ∧ flitNak flit = false then s.takeFields p.val flit else s)

/-- NAK (R207): what it acknowledges leaves the replay buffer, and the rest is resent. -/
def execNak (p : Fin 10) (flit : List Byte) (s : State) : Host.Outcome State Fault Refusal :=
  .next (if (s.port p.val).receives = false then s
    else if flitCrcOk flit = false then s.sendNak p.val
    else if flitKind flit = 0 ∧ flitNak flit then (s.takeFields p.val flit).resend p.val else s)

/-- REPLAY_TIMEOUT (R207): 20 µs without an acknowledgement. -/
def execReplayTimeout (p : Fin 10) (s : State) : Host.Outcome State Fault Refusal :=
  let v := s.port p.val
  .next (if v.receives ∧ v.replay ≠ [] ∧ v.ackTime + 20 ≤ s.clk.now then s.resend p.val else s)

/-! ## Retraining (R208, R209) -/

/-- RETRAINING (R208): a ninth replay of one flit has fallen due. -/
def execRetraining (p : Fin 10) (s : State) : Host.Outcome State Fault Refusal :=
  let v := s.port p.val
  .next (if v.state = .up ∧ v.retrainDue then
      s.setPort p.val { v with state := .retraining, retrainDue := false, since := s.clk.now, retrains := (v.retrains + 1) % 2 ^ 32 }
    else s)

/-- The buffer is resent once after a retraining; the counts of resends start anew (log entry 78). -/
def State.resume (s : State) (p : Nat) : State :=
  let s := s.modPort p fun v => { v with state := .up, replay := v.replay.map fun x => { x with resends := 0 } }
  let old := (s.port p).replay
  let s := old.foldl (fun (s : State) x => s.emit (.flit p x.bytes)) (s.modPort p fun v => { v with ackTime := s.clk.now })
  (s.bindStream p).resendRevokes fun d => s.routeTo d == some p

/-- RETRAIN_DONE (R208): within 200 µs; `flit` is the neighbour's LINK flit. -/
def execRetrainDone (p : Fin 10) (flit : List Byte) (s : State) : Host.Outcome State Fault Refusal :=
  let v := s.port p.val
  .next (if v.state = .retraining ∧ s.clk.now ≤ v.since + 200 ∧ isLink flit then
      (s.sendLink p.val).linkExchange p.val flit fun s => s.resume p.val
    else s)

/-- RETRAIN_TIMEOUT (R208, R209): the port is DOWN. -/
def execRetrainTimeout (p : Fin 10) (s : State) : Host.Outcome State Fault Refusal :=
  let v := s.port p.val
  .next (if v.state = .retraining ∧ v.since + 200 < s.clk.now then
      ((s.resetLink p.val).modPort p.val fun v => { v with state := .down, since := s.clk.now }).logPort p.val 0x0601
    else s)

/-! ## Messages in transit -/

/-- MESSAGE_FORWARD (R195 to R197, R201, R221). -/
def execMessageForward (i : Nat) (s : State) : Host.Outcome State Fault Refusal :=
  .next (match s.fab.transit[i]? with
    | none => s
    | some m => s.forward i m)

/-! ## The codec's stream (R199, R219, R220) -/

/-- The fields of a CTRL flit that are written as zero are zero. -/
def ctrlZero (b : List Byte) : Bool :=
  let ty := field b 0 1
  zeroAt b 1 1 && zeroAt b 6 2 && zeroAt b 104 140 && (ty == 3 || zeroAt b 4 2) && (ty == 1 || zeroAt b 8 96)

/-- Complete blocks of a partly received vector field are decoded with the tables in force, and kept raw. -/
def settleBlocks (fp16 : Bool) (tables : List (Nat × CodecTable)) : Nat → Nat → List Byte → List Byte
  | 0, _, w => w
  | n + 1, raw, w =>
    let h := field w 0 2
    let len := h % 2 ^ 11
    let size := min 512 raw
    if raw = 0 ∨ w.length < 2 + len then w
    else match decodeField fp16 tables 1 size (w.take (2 + len)) with
      | some (bytes, []) => blockHeader false 0 size ++ bytes ++ settleBlocks fp16 tables n (raw - size) (w.drop (2 + len))
      | _ => w.take (2 + len) ++ settleBlocks fp16 tables n (raw - size) (w.drop (2 + len))

/-- A partly received message before its stream's tables change: its wire length follows its blocks. -/
def Port.settlePartial (v : Port) (w : List Byte) : List Byte :=
  match vecOffset w with
  | some o =>
    if msgFramed w ∧ o < w.length then
      let rest := settleBlocks (msgFp16 w) (v.tables 16) 64 (msgRaw w - o) (w.drop o)
      splice (w.take o) 6 (toLE 2 (field w 6 2 + rest.length - (w.length - o))) ++ rest
    else w
  | none => w

/-- The receiver applies its staged tables and compares the 16 triples. -/
def State.applyBind (s : State) (p : Nat) (b : List Byte) : State :=
  let s := s.modPort p fun v =>
    { v with partials := v.partials.map fun (e : Nat × List Byte) => (e.1, v.settlePartial e.2)
             codec := v.codec.map fun (e : Nat × CodecSlot) => (e.1, if 16 ≤ e.1 then { e.2 with table := e.2.staged.getD e.2.table, staged := none } else e.2) }
  let mine := (s.port p).triples 16
  let mask := sumNat ((List.range 16).map fun i => if slice b (8 + 6 * i) 6 == mine.getD i [] then 0 else 2 ^ i)
  let s := s.modPort p fun v => { v with rxBind := if mask = 0 then 1 else 2 }
  s.sendSequenced p 3 0 (ctrlPayload (if mask = 0 then 2 else 3) (field b 2 2) mask [])

/-- BIND (R199, R220); a CTRL flit of an unknown type is accepted in sequence and logged. -/
def execBind (p : Fin 10) (flit : List Byte) (s : State) : Host.Outcome State Fault Refusal :=
  let b := flitPayload flit
  let ty := field b 0 1
  .next (if (s.port p.val).receives = false ∨ flitKind flit ≠ 3 ∨ (flitCrcOk flit ∧ (ty = 2 ∨ ty = 3)) then s
    else s.sequenced p.val flit fun s => if ty = 1 ∧ ctrlZero b then s.applyBind p.val b else s.unknownMessage p.val ty)

/-- The answer is that of the last BIND sent. -/
def Port.answers (v : Port) (b : List Byte) : Bool := (field b 2 2 + 1) % 65536 == v.bindNo

/-- BIND_ACK (R199, R220). -/
def execBindAck (p : Fin 10) (flit : List Byte) (s : State) : Host.Outcome State Fault Refusal :=
  let b := flitPayload flit
  .next (if (s.port p.val).receives = false ∨ flitKind flit ≠ 3 ∨ (flitCrcOk flit ∧ field b 0 1 ≠ 2) then s
    else s.sequenced p.val flit fun s =>
      if ctrlZero b = false then s.unknownMessage p.val (field b 0 1)
      else if (s.port p.val).answers b then s.modPort p.val fun v => { v with txBind := 1 } else s)

/-- BIND_REFUSE (R199, R220). -/
def execBindRefuse (p : Fin 10) (flit : List Byte) (s : State) : Host.Outcome State Fault Refusal :=
  let b := flitPayload flit
  .next (if (s.port p.val).receives = false ∨ flitKind flit ≠ 3 ∨ (flitCrcOk flit ∧ field b 0 1 ≠ 3) then s
    else s.sequenced p.val flit fun s =>
      if ctrlZero b = false then s.unknownMessage p.val (field b 0 1)
      else if (s.port p.val).answers b then (s.modPort p.val fun v => { v with txBind := 2 }).logPort p.val 0x0602 (toLE 2 (field b 4 2)) else s)

/-- A table image that passed its checks goes into its slot: a transmit table is in force at once, a receive table staged,
and an UP port binds its stream again (R219, R220). -/
def State.loadTable (s : State) (p slot : Nat) (image : List Byte) (t : Option CodecTable) : State :=
  let s := s.modPort p fun v =>
    let x := v.slotOf slot
    { v with codec := Map.put v.codec slot (if slot < 16 then { x with image := image, table := t } else { x with image := image, staged := some t }) }
  if (s.port p).state = .up ∧ slot < 16 then s.bindStream p else s

end Sys2Proof.Machine
end

