-- ==== Sys2Proof/Machine/Values.lean ====
section
/-! DEFINITION. What a read of an object returns (R270, R275, R281, R284): the values of the RO objects, the request objects,
the probe, and the effective values. -/

namespace Sys2Proof.Machine

/-! ## Values read from the state -/

/-- The code of a flow channel's state (Table 13.2). -/
def ChannelState.code : ChannelState → Nat
  | .disabled => 0 | .idle => 1 | .busy => 2 | .draining => 3

/-- A truth value as a BOOL. -/
def ofBool (b : Bool) : List Byte := toLE 1 b.toNat

/-- NoFlowTime in ms (R332): it starts at the end of the first boot. -/
def State.noFlowTime (s : State) : Nat :=
  if s.boot.stage = 7 ∨ s.boot.warmBoot.isSome then (s.clk.now - s.ftf.lastValid) / 1000 else 0

/-- Enabled deltas of a mode (Table 11.11). -/
def State.deltaCount (s : State) (m : Nat) : Nat :=
  (s.dict.base.filter (isEnabledDelta m)).length

/-- LogHeader (Table 14.7). -/
def State.logHeader (s : State) : List Byte :=
  toLE 4 Config.productCode ++ toLE 4 s.serial ++ toLE 8 s.dieId ++ toLE 4 s.log.last ++ toLE 4 s.log.overwritten ++ zeros 8

/-- RO objects of 0x1000 to 0x1FFF (Tables 11.12 to 11.14, 12.3, 12.5, 12.11; R57, R58). -/
def State.ro1 (s : State) (ix sub : Nat) : Option (List Byte) :=
  match ix, sub with
  | 0x1012, 0 => some (ofBool s.clk.valid)
  | 0x1018, 4 => some (toLE 4 s.serial)
  | 0x1019, 1 => some (if s.boot.fuseFault then zeros 6 else padTo 6 s.boot.fuse.lot)
  | 0x1019, 2 => some (toLE 1 (if s.boot.fuseFault then 0 else s.boot.fuse.wafer))
  | 0x1019, 3 => some [if s.boot.fuseFault then 0 else s.boot.fuse.dieX]
  | 0x1019, 4 => some [if s.boot.fuseFault then 0 else s.boot.fuse.dieY]
  | 0x1019, 5 => some (toLE 8 s.dieId)
  | 0x1200, 6 => some (toLE 1 (if s.can.enable then s.can.state else 3))
  | 0x1200, 7 => some (toLE 1 s.can.txErrors)
  | 0x1200, 8 => some (toLE 1 s.can.rxErrors)
  | 0x1200, 9 => some (toLE 4 s.can.busOffs)
  | 0x1210, 1 => some (toLE 4 s.ssp.latched)
  | 0x1210, 2 => some (toLE 4 s.ssp.discarded)
  | 0x1210, 3 => some (toLE 4 s.ssp.slotsBusy)
  | 0x1210, 4 => some (toLE 4 s.ssp.badCommands)
  | 0x1220, 10 => some s.ssp.readData
  | 0x1220, 14 => some (toLE 1 s.ssp.status)
  | 0x1F00, 2 => some (ofBool s.dict.locked)
  | _, _ => none

/-- RO objects of 0x2000 to 0x2FFF (Tables 9.9, 10.5, 11.9). -/
def State.ro2 (s : State) (ix sub : Nat) : Option (List Byte) :=
  match ix, sub with
  | 0x2000, 2 => some (toLE 1 s.dict.storeStatus)
  | 0x2000, 3 => some (toLE 4 s.dict.storeGeneration)
  | 0x2001, 2 => some (toLE 1 s.dict.mode)
  | 0x2001, 3 => some (ofBool s.dict.applying)
  | 0x2001, 4 => some (toLE 1 s.dict.safeCause)
  | 0x2001, 6 => some (toLE 4 s.dict.modeChanges)
  | 0x2002, 3 => some (match objAt s.dict.probeIndex s.dict.probeSubindex with
      | some o => if inBase s.dict.probeIndex s.dict.probeSubindex o then s.baseValue s.dict.probeIndex s.dict.probeSubindex else []
      | none => [])
  | 0x2002, 4 => some (ofBool (s.shadowed s.dict.probeIndex s.dict.probeSubindex))
  | 0x2140, 2 => some (toLE 4 s.grid.faults)
  | 0x2150, 2 => some (toLE 4 s.pay.handles.length)
  | _, 0 => none
  | 0x2142, k + 1 => some (toLE 4 (Map.getD s.grid.kernels k {}).kernelId)
  | 0x2143, k + 1 => some (toLE 1 (Map.getD s.grid.kernels k {}).owner)
  | 0x2144, k + 1 => some (toLE 2 (s.grid.tiles.filter fun e => e.2.faulted.contains k).length)
  | _, _ => none

/-- RO objects of the memory system (Table 6.7). -/
def State.ro4 (s : State) (ix sub : Nat) : Option (List Byte) :=
  match ix, sub with
  | 0x4000, 1 => some (toLE 2 s.bw.healthy)
  | 0x4000, 2 => some (toLE 2 s.bw.channelTokens)
  | 0x4000, 3 => some (toLE 4 s.bw.deliverable)
  | 0x4000, 4 => some (toLE 4 s.guaranteeSum)
  | 0x4000, 5 => some (ofBool s.bw.scaled)
  | 0x4000, 6 => some (toLE 4 s.seg.total)
  | 0x4000, 7 => some (toLE 4 s.seg.free)
  | 0x4000, 8 => some (toLE 4 s.seg.retiring)
  | 0x4000, 9 => some (toLE 4 s.seg.quarantined)
  | 0x4000, 10 => some (toLE 32 (sumNat (s.seg.retired.map fun p => 2 ^ p)))
  | _, 0 => none
  | 0x4113, b + 1 => some (toLE 4 (s.effectiveGuarantee b))
  | _, _ => none

/-- RO objects of a burrow (Table 7.9). -/
def State.ro5 (s : State) (ix sub : Nat) : Option (List Byte) :=
  let v := s.burrow ((ix - 0x5000) / 16)
  match sub with
  | 2 => some (toLE 1 v.state.code)
  | 5 => some (toLE 2 v.generation)
  | 6 => some (ofBool v.pendingEnable)
  | 9 => some (toLE 4 v.discarded)
  | 10 => some (toLE 8 v.admitted)
  | _ => none

/-- RO objects of a port (Table 8.8). -/
def Port.ro (v : Port) (sub : Nat) : Option (List Byte) :=
  match sub with
  | 2 => some (toLE 1 v.state.code)
  | 3 => some (toLE 1 v.reason)
  | 4 => some (toLE 8 v.neighbour)
  | 5 => some (toLE 4 v.replays)
  | 6 => some (toLE 4 v.retrains)
  | 8 => some (toLE 1 v.txBind)
  | 9 => some (toLE 1 v.rxBind)
  | 10 => some (ofBool v.pendingEnable)
  | 11 => some (toLE 2 v.generation)
  | _ => none

/-- RO objects of the fabric (Table 8.8). -/
def State.ro6 (s : State) (ix sub : Nat) : Option (List Byte) :=
  if ix = 0x6000 then
    match sub with
    | 1 => some (toLE 1 (s.deviceId.getD 0xFF))
    | 2 => some (toLE 1 s.boot.tray)
    | 3 => some (toLE 1 (s.boot.position.getD 0xFF))
    | _ => none
  else if ix = 0x6020 then
    match sub with
    | 1 => some (toLE 4 s.fab.lateResponses)
    | 2 => some (toLE 4 s.fab.lostRequests)
    | 3 => some (toLE 4 s.fab.decodeFaults)
    | _ => none
  else if ix < 0x6100 then (s.port (ix - 0x6010)).ro sub
  else if sub = 2 then
    some (toLE 4 ((((s.port ((ix - 0x6100) / 32)).slotOf ((ix - 0x6100) % 32)).table.map CodecTable.id).getD 0))
  else none

/-- RO objects of a flow channel (Table 13.2): the configuration's, and the results. -/
def Channel.ro (v : Channel) (results : Bool) (sub : Nat) : Option (List Byte) :=
  match results, sub with
  | false, 2 => some (toLE 1 v.state.code)
  | false, 0x16 => some (ofBool v.pendingEnable)
  | false, 0x17 => some (toLE 2 v.generation)
  | true, 1 => some (toLE 4 v.upTime)
  | true, 2 => some (toLE 4 v.downTime)
  | true, 3 => some (toLE 1 v.upStatus)
  | true, 4 => some (toLE 1 v.downStatus)
  | true, 5 => some (toLE 4 v.ratio)
  | true, 6 => some (toLE 4 v.flow)
  | true, 7 => some (ofBool v.flowValid)
  | true, 8 => some (toLE 1 v.hold)
  | true, 9 => some (toLE 4 v.shots)
  | _, _ => none

/-- RO objects of coolant and power (Tables 13.2 to 13.4). -/
def State.ro7 (s : State) (ix sub : Nat) : Option (List Byte) :=
  if ix = 0x7010 ∨ ix = 0x7011 then (s.channel (ix - 0x7010)).ro false sub
  else if ix = 0x7020 ∨ ix = 0x7021 then (s.channel (ix - 0x7020)).ro true sub
  else if ix = 0x7030 ∨ ix = 0x7031 then
    let v := s.rtdInput (ix - 0x7030)
    match sub with
    | 3 => some (toLE 8 v.resistance)
    | 4 => some (toLE 4 v.temperature)
    | 5 => some (toLE 1 v.status)
    | 6 => some (toLE 4 ((s.clk.now - v.at_) / 1000))
    | _ => none
  else if ix = 0x7040 then
    match sub with
    | 6 => some (toLE 4 (s.coolantFlow.getD 0x7FC00000))
    | 7 => some (toLE 4 s.deltaT)
    | 8 => some (toLE 4 s.heatRemoved)
    | 9 => some (toLE 4 s.noFlowTime)
    | _ => none
  else
    match sub with
    | 2 => some (toLE 1 s.governorState)
    | 3 => some (toLE 1 s.effectiveCap)
    | 4 => some (toLE 4 s.gov.power)
    | 5 => some (toLE 1 s.gov.cclk)
    | 6 => some (toLE 1 s.gov.mclk)
    | 7 => some (toLE 1 s.gov.throttle)
    | 10 => some (toLE 4 s.gov.stepsDown)
    | _ => none

/-- RO objects of a generator (Table 6.8). -/
def Generator.ro (g : Generator) (sub : Nat) : Option (List Byte) :=
  match sub with
  | 8 => some (toLE 1 g.status)
  | 9 => some (toLE 4 g.errors)
  | 10 => some (toLE 8 g.firstError)
  | 11 => some (toLE 4 g.corrected)
  | 12 => some (toLE 4 g.uncorrectable)
  | _ => none

/-- RO objects and fuse values of 0x8000 to 0x9FFF (Tables 6.8, 14.7; R167, R168, R352). -/
def State.ro8 (s : State) (ix sub : Nat) : Option (List Byte) :=
  if ix = 0x8000 then
    match sub with
    | 4 => some (toLE 4 s.cred.auditCount)
    | 5 => some (toLE 2 s.cred.faultPool)
    | 6 => some (toLE 4 s.cred.faultIssued)
    | 7 => some (toLE 4 s.cred.faultReturned)
    | 8 => some (toLE 4 s.cred.faultOutstanding)
    | _ => none
  else if ix < 0x8200 then (s.generator (ix - 0x8100)).ro sub
  else if ix < 0x8280 then
    match sub with
    | 5 => some (toLE 1 (Map.getD s.diag.spareRead (ix - 0x8200) 0))
    | 6 => some (toLE 1 (Map.getD s.diag.repairStatus (ix - 0x8200) 0))
    | _ => none
  else if ix < 0x8288 then
    match sub with
    | 0 => none
    | k + 1 => some (match Map.get? s.diag.hard ((ix - 0x8280) * 32 + k) with
        | some v => toLE 4 v
        | none => [])
  else if ix = 0x9000 then (if sub = 1 then some s.logHeader else none)
  else some (Map.getD s.log.ring (ix - 0x9100) (zeros 32))

/-- A request object (R281). -/
def State.requestValue (s : State) (ix sub : Nat) : List Byte :=
  match ix, sub with
  | 0x1010, _ => toLE 8 s.clk.sec
  | 0x1011, 1 => toLE 2 s.clk.year
  | 0x1011, 2 => toLE 1 s.clk.month
  | 0x1011, 3 => toLE 1 s.clk.day
  | 0x1011, 4 => toLE 1 s.clk.hour
  | 0x1011, 5 => toLE 1 s.clk.minute
  | 0x1011, 6 => toLE 1 s.clk.second
  | 0x2001, _ => toLE 1 s.dict.modeRequest
  | 0x2002, 1 => toLE 2 s.dict.probeIndex
  | 0x2002, _ => toLE 1 s.dict.probeSubindex
  | _, _ => []

/-- The value of an RO object, or of a hard repair slot, that its table does not fix. -/
def State.computed (s : State) (ix sub : Nat) : Option (List Byte) :=
  match ix / 4096 with
  | 1 => s.ro1 ix sub
  | 2 => s.ro2 ix sub
  | 3 => if ix < 0x3005 ∧ sub = 1 then some (toLE 2 (s.deltaCount (ix - 0x3000))) else none
  | 4 => s.ro4 ix sub
  | 5 => s.ro5 ix sub
  | 6 => s.ro6 ix sub
  | 7 => s.ro7 ix sub
  | _ => s.ro8 ix sub

/-- The value of an object that exists. -/
def State.valueOf (s : State) (ix sub : Nat) (o : Obj) : List Byte :=
  if isRequest ix sub then s.requestValue ix sub
  else if inBase ix sub o then s.effective ix sub
  else (s.computed ix sub).getD o.dflt

/-! ## Reads (R275) -/

/-- A code of Table 11.4. -/
def abNoObject : Nat := 0x06010000
def abNoSub : Nat := 0x06010001
def abReadOnly : Nat := 0x06020000
def abWriteOnly : Nat := 0x06020001
def abLocked : Nat := 0x06030000
def abOnce : Nat := 0x06030001
def abRange : Nat := 0x06040000
def abDate : Nat := 0x06040001
def abGuarantee : Nat := 0x06040002
def abApplying : Nat := 0x06050000
def abLength : Nat := 0x06060000

/-- Steps 1 and 2 of Table 11.4. -/
def findObject (ix sub : Nat) : Except Nat Obj :=
  match shapeOf ix with
  | none => .error abNoObject
  | some sh =>
    match sh.at sub with
    | none => .error abNoSub
    | some o => .ok o

/-- A read of an object: its value, or the abort code. -/
def State.readObject (s : State) (ix sub : Nat) : Except Nat (List Byte) :=
  match findObject ix sub with
  | .error c => .error c
  | .ok o =>
    match o.acc with
    | .wo => .error abWriteOnly
    | .cmd => .error abWriteOnly
    | _ => .ok (s.valueOf ix sub o)

end Sys2Proof.Machine
end

