-- ==== Sys2Proof/Machine/Store.lean ====
section
/-! DEFINITION. The configuration store (R282, R283, R311) and the overlay deltas' checks (R285, R290). -/

namespace Sys2Proof.Machine

/-! ## Flash (R309, R311) -/

/-- What unlisted flash bytes read as (log entry 5). -/
def flashBlank : Byte := 0xFF

def State.flashRead (s : State) (a n : Nat) : List Byte := Memory.readN flashBlank s.flash a n
def State.flashWrite (s : State) (a : Nat) (bs : List Byte) : State := { s with flash := Memory.writeN flashBlank s.flash a bs }
def State.flashErase (s : State) (a n : Nat) : State := { s with flash := Memory.clear s.flash a n }

/-- `n` bytes that the spec does not state, by the place that needs them. -/
def State.freeBytes (s : State) (place n : Nat) : List Byte × State :=
  (toLE n (Config.openValue place s.draws), { s with draws := s.draws + 1 })

/-- A flash write that did not verify leaves bytes the spec does not state. -/
def State.flashSpoil (s : State) (a n : Nat) : State :=
  let (bs, s) := s.freeBytes 18 n
  s.flashWrite a bs

/-! ## The copies (Tables 11.8, 12.7) -/

/-- The flash address of copy A (0) or B (1). -/
def copyAddress (c : Nat) : Nat := if c = 0 then 0x440000 else 0x450000

/-- A record: index, subindex, type code, value. -/
abbrev Record := Nat × Nat × Nat × List Byte

/-- A record's bytes. -/
def recordBytes (r : Record) : List Byte :=
  let v := r.2.2.2
  toLE 2 r.1 ++ toLE 1 r.2.1 ++ toLE 1 r.2.2.1 ++ toLE 2 v.length ++ zeros 2 ++ padTo (4 * ceilDiv v.length 4) v

/-- The objects of the base layer that a store writes: those that differ from their default, and set W1 objects. -/
def State.records (s : State) : List Record :=
  s.dict.base.filterMap fun e =>
    match objAt (e.1 / 256) (e.1 % 256) with
    | none => none
    | some o => if o.acc ≠ .w1 ∧ e.2 = o.dflt then none else some (e.1 / 256, e.1 % 256, o.ty.code, e.2)

/-- A copy of the store. -/
def copyBytes (generation : Nat) (rs : List Record) : List Byte :=
  let body := (rs.map recordBytes).flatten
  let head := ascii "RLCF" ++ toLE 2 1 ++ zeros 2 ++ toLE 4 generation ++ toLE 4 rs.length ++ toLE 4 body.length ++ zeros 8
  head ++ toLE 4 (crc32c (head ++ body)) ++ body

/-- `n` records that frame the bytes exactly. -/
def parseRecords : Nat → List Byte → Option (List Record)
  | 0, bs => if bs = [] then some [] else none
  | n + 1, bs =>
    let len := field bs 4 2
    let total := 8 + 4 * ceilDiv len 4
    if bs.length < total then none
    else (parseRecords n (bs.drop total)).map fun rs => (field bs 0 2, field bs 2 1, field bs 3 1, slice bs 8 len) :: rs

/-- A copy as it lies in flash, when it is valid: generation and records (R282). -/
def State.readCopy (s : State) (c : Nat) : Option (Nat × List Record) :=
  let h := s.flashRead (copyAddress c) 32
  let n := field h 16 4
  if slice h 0 4 ≠ ascii "RLCF" ∨ field h 4 2 ≠ 1 ∨ 65504 < n then none
  else
    let body := s.flashRead (copyAddress c + 32) n
    if field h 28 4 ≠ crc32c (h.take 28 ++ body) then none
    else (parseRecords (field h 12 4) body).map fun rs => (field h 8 4, rs)

/-- Generation `a` is newer than `b`: above it by 1 to 2^31 − 1, modulo 2^32. -/
def newerGeneration (a b : Nat) : Bool :=
  let d := (a + 2 ^ 32 - b % 2 ^ 32) % 2 ^ 32
  decide (0 < d ∧ d < 2 ^ 31)

/-- The copy to load: the newer valid one, or the only one. -/
def State.selectCopy (s : State) : Option (Nat × Nat × List Record) :=
  match s.readCopy 0, s.readCopy 1 with
  | none, none => none
  | some (g, rs), none => some (0, g, rs)
  | none, some (g, rs) => some (1, g, rs)
  | some (a, ra), some (b, rb) => if newerGeneration b a then some (1, b, rb) else some (0, a, ra)

/-! ## Overlay deltas (R285, R290) -/

/-- The index of delta `d` of mode `m`. -/
def deltaIndex (m d : Nat) : Nat := 0x3100 + 256 * m + d

/-- The mode whose overlay objects hold the index. -/
def overlayModeOf (ix : Nat) : Option Nat :=
  if 0x3000 ≤ ix ∧ ix < 0x3005 then some (ix - 0x3000)
  else if 0x3100 ≤ ix ∧ ix < 0x3600 then some ((ix - 0x3100) / 256)
  else none

/-- The target of a delta in the base layer. -/
def State.deltaTarget (s : State) (m d : Nat) : Nat × Nat :=
  (leNat (s.baseValue (deltaIndex m d) 1), leNat (s.baseValue (deltaIndex m d) 2))
def State.deltaOn (s : State) (m d : Nat) : Bool := s.baseValue (deltaIndex m d) 4 == [1]

/-- A value an object's own rule accepts (step 8, without cross-object checks). -/
def valueOk (ix : Nat) (o : Obj) (v : List Byte) : Option Nat :=
  if !rangeOk o v then some abRange
  else if 0x6100 ≤ ix ∧ ix < 0x6240 then
    match checkTableImage v with
    | .error c => some c
    | .ok _ => none
  else none

/-- Steps 1 to 5 of R290, in order: the abort code of the first that fails. -/
def State.deltaProblem (s : State) (m d : Nat) : Option Nat :=
  let t := s.deltaTarget m d
  match findObject t.1 t.2 with
  | .error c => some c
  | .ok o =>
    let v := s.baseValue (deltaIndex m d) 3
    if !shadowable t.1 o then some abRange
    else if some v.length ≠ o.ty.size then some abLength
    else if !rangeOk o v then some abRange
    else if (List.range 256).any fun e => e != d && s.deltaOn m e && s.deltaTarget m e == t then some abRange
    else none

/-! ## Loading (R273, R283) -/

/-- A value lands in the base layer. -/
def State.putBase (s : State) (ix sub : Nat) (v : List Byte) : State :=
  { s with dict := { s.dict with base := Map.put s.dict.base (objKey ix sub) v } }

/-- A record is skipped. -/
def State.skipRecord (s : State) (ix sub : Nat) : State := s.logEvent 0x0201 (toLE 2 ix ++ toLE 1 sub)

/-- A record is applied, or skipped. -/
def State.loadRecord (s : State) (r : Record) : State :=
  match objAt r.1 r.2.1 with
  | none => s.skipRecord r.1 r.2.1
  | some o =>
    if !inBase r.1 r.2.1 o || r.2.2.1 != o.ty.code || !lengthOk o r.2.2.2 || (valueOk r.1 o r.2.2.2).isSome then s.skipRecord r.1 r.2.1
    else s.putBase r.1 r.2.1 r.2.2.2

/-- The default deltas of Table 11.10: mode, delta, target, value. -/
def defaultDeltas : List (Nat × Nat × Nat × Nat × List Byte) :=
  [(1, 0, 0x2120, 4, [0]), (2, 0, 0x2120, 1, [1, 0]), (2, 1, 0x2120, 3, [1, 0]), (3, 0, 0x2120, 4, [0]),
   (4, 0, 0x2100, 3, [0]), (4, 1, 0x2150, 1, [0]), (4, 2, 0x2120, 4, [0])]

/-- A default delta goes into the base layer. -/
def State.putDelta (s : State) (x : Nat × Nat × Nat × Nat × List Byte) : State :=
  let ix := deltaIndex x.1 x.2.1
  (((s.putBase ix 1 (toLE 2 x.2.2.1)).putBase ix 2 (toLE 1 x.2.2.2.1)).putBase ix 3 x.2.2.2.2).putBase ix 4 [1]

/-- A loaded delta that fails R290 is disabled. -/
def State.checkDelta (s : State) (m d : Nat) : State :=
  if s.deltaOn m d ∧ (s.deltaProblem m d).isSome then (s.putBase (deltaIndex m d) 4 [0]).skipRecord (deltaIndex m d) 4 else s

/-- Every loaded delta is checked, in ascending mode and delta number. -/
def State.checkDeltas (s : State) : State :=
  (List.range 5).foldl (fun s m => (List.range 256).foldl (fun s d => s.checkDelta m d) s) s

/-- A table image of the base layer goes into its codec slot. -/
def State.loadImage (s : State) (e : Nat × List Byte) : State :=
  let ix := e.1 / 256
  if 0x6100 ≤ ix ∧ ix < 0x6240 ∧ e.1 % 256 = 1 then
    match checkTableImage e.2 with
    | .ok t => s.loadTable ((ix - 0x6100) / 32) ((ix - 0x6100) % 32) e.2 t
    | .error _ => s
  else s

/-- The base layer is loaded from flash (R273, R282, R283; default deltas where the store holds no overlay record). -/
def State.loadConfig (s : State) : State :=
  let s := match s.selectCopy with
    | none => defaultDeltas.foldl State.putDelta (s.logEvent 0x0200)
    | some (c, g, rs) =>
      let s := { s with dict := { s.dict with storeCopy := some c, storeGeneration := g } }
      let s := if rs.any fun r => decide (0x3100 ≤ r.1 ∧ r.1 < 0x3600) then s else defaultDeltas.foldl State.putDelta s
      (rs.foldl State.loadRecord s).checkDeltas
  s.dict.base.foldl State.loadImage s

/-! ## Storing (R282, R311) -/

/-- A store starts: it writes the base layer as it stands, to the copy other than the one loaded or last stored; the copy
is erased first. -/
def State.startStore (s : State) : State :=
  let (c, g) := match s.dict.storeCopy with
    | none => (0, 1)
    | some c => (1 - c, (s.dict.storeGeneration + 1) % 2 ^ 32)
  let s := s.flashErase (copyAddress c) 0x10000
  { s with dict := { s.dict with storing := some (c, g, copyBytes g s.records), storeStatus := 1, storePending := false } }

/-- The running store ends, verified or not; records that exceed 65,504 bytes never verify. -/
def State.endStore (s : State) (ok : Bool) : State :=
  match s.dict.storing with
  | none => s
  | some (c, g, img) =>
    if ok ∧ img.length ≤ 65536 then
      let s := s.flashWrite (copyAddress c) img
      { s with dict := { s.dict with storing := none, storeStatus := 2, storeGeneration := g, storeCopy := some c } }
    else
      let s := s.flashSpoil (copyAddress c) (min img.length 65536)
      { s with dict := { s.dict with storing := none, storeStatus := 3 } }.logEvent 0x0202

/-- A store is asked for: it starts, or is held as the pending one. -/
def State.requestStore (s : State) : State :=
  if s.dict.storing.isSome then { s with dict := { s.dict with storePending := true } } else s.startStore

/-- A warm reset breaks a store off: the copy's header is erased, what its other pages hold is not stated. -/
def State.breakStore (s : State) : State :=
  match s.dict.storing with
  | none => { s with dict := { s.dict with storePending := false } }
  | some (c, _, img) =>
    let s := s.flashSpoil (copyAddress c + 256) (min img.length 65536 - 256)
    { s with dict := { s.dict with storing := none, storeStatus := 3, storePending := false }, boot := { s.boot with storeBroken := true } }

end Sys2Proof.Machine
end

