-- ==== Sys2Proof/Machine/Audit.lean ====
section
/-! DEFINITION. The credit audit (R35, R354, R355) and the trigger of a warm reset (R348). -/

namespace Sys2Proof.Machine

/-- The credit law of one pool (R35). -/
def Pool.lawful (p : Pool) : Bool := p.issued == p.returned + p.outstanding

/-- The first pool that breaks the law: its key of Table 14.8 and its counters. -/
def State.creditMismatch (s : State) : Option (Nat × Pool) := s.cred.pools.find? fun e => !e.2.lawful

/-- CREDIT_FAULT (R35, R355): the pool is latched, the device is fenced, admitted commands complete ABORTED. -/
def State.creditFault (s : State) (key : Nat) (p : Pool) : State :=
  let s := { s with
    cred := { s.cred with faultPool := key / 256 + 256 * (key % 256), faultIssued := p.issued % 2 ^ 32
                          faultReturned := p.returned % 2 ^ 32, faultOutstanding := p.outstanding % 2 ^ 32 }
    boot := { s.boot with creditFault := true, fenced := true, fenceFlag := true } }
  let s := s.logEvent 0x0300 (toLE 1 (key / 256) ++ toLE 1 (key % 256))
  (s.host.live.map Prod.fst).foldl (fun s k => s.failLive k stAborted) s

/-- One credit audit; none runs while the device is fenced. -/
def State.audit (s : State) : State :=
  if s.boot.fenced then s
  else
    let s := { s with cred := { s.cred with auditCount := (s.cred.auditCount + 1) % 2 ^ 32 } }
    match s.creditMismatch with
    | none => s
    | some (k, p) => s.creditFault k p

/-- CREDIT_AUDIT (R354): the audit of every 1 ms. -/
def execCreditAudit (s : State) : Host.Outcome State Fault Refusal := .next s.audit

/-- The ports of the fabric go to DRAINING before a warm reset. -/
def State.drainPort (s : State) (p : Nat) : State :=
  match (s.port p).state with
  | .up => s.modPort p fun v => { v with state := .draining, since := s.clk.now }
  | .retraining => s.modPort p fun v => { v with state := .draining, since := s.clk.now }
  | .draining => s
  | .disabled => s
  | _ => (s.resetLink p).modPort p fun v => { v with state := .draining, since := s.clk.now }

/-- A warm reset is triggered (R348): every ENABLED burrow drains with discard, every port goes to DRAINING; the reset takes
place 2 ms later. While one is on its way a further trigger changes nothing. -/
def State.triggerWarm (s : State) (retain : Bool) : State :=
  if s.boot.warmPending.isSome then s
  else
    let s := { s with boot := { s.boot with warmPending := some (retain, s.clk.now + 2000) } }
    let s := (List.range 64).foldl (fun s b => if (s.burrow b).state = .enabled then s.discardDrain b else s) s
    (List.range 10).foldl State.drainPort s

end Sys2Proof.Machine
end

