-- ==== Sys2Proof/Machine/Dictionary.lean ====
section
/-! DEFINITION. Writes to the dictionary: the checks of Table 11.4, the base layer and its effects, the commands, the calendar,
and the mode transitions (R163, R275, R284 to R295). -/

namespace Sys2Proof.Machine

/-! ## Cross-object checks (step 8; R151, R162, R163, R287) -/

/-- A configuration as the checks see it: the value of an object. -/
abbrev View := Nat → Nat → List Byte

/-- The base layer with a write applied. -/
def State.baseView (s : State) (ix sub : Nat) (v : List Byte) : View :=
  fun i j => if i = ix ∧ j = sub then v else s.baseValue i j

/-- The base layer under an overlay. -/
def State.overlayView (s : State) (o : Map (List Byte)) : View :=
  fun i j => match Map.get? o (objKey i j) with
    | some v => v
    | none => s.baseValue i j

/-- Σ g in a view. -/
def viewSum (v : View) : Nat := sumNat ((List.range 64).map fun b => leNat (v 0x4110 (b + 1)))

/-- An object's cross-object checks: the abort code of the one that fails. `old` is Σ g before. -/
def State.crossCheck (s : State) (v : View) (old ix sub : Nat) : Option Nat :=
  let lt := fun (i j k : Nat) => if leNat (v i j) < leNat (v i k) then none else some abRange
  let ceiling := if leNat (v 0x4111 sub) < leNat (v 0x4110 sub) then some abRange else none
  if ix = 0x4010 ∧ (sub = 1 ∨ sub = 2) then lt ix 1 2
  else if ix = 0x4101 then (if (s.burrow (sub - 1)).state = .disabled then none else some abRange)
  else if ix = 0x4102 then
    (if (s.burrow (sub - 1)).state = .disabled ∧ (s.slotsInUse (sub - 1)).all (fun i => decide (i < leNat (v ix sub))) then none else some abRange)
  else if ix = 0x4110 then
    match ceiling with
    | some c => some c
    | none => if s.bw.deliverable < viewSum v ∧ old < viewSum v then some abGuarantee else none
  else if ix = 0x4111 then ceiling
  else if ix = 0x7010 ∨ ix = 0x7011 then
    if sub = 0x10 ∨ sub = 0x11 then lt ix 0x10 0x11
    else if sub = 0x14 ∨ sub = 0x15 then lt ix 0x14 0x15
    else if sub = 0x0E ∨ sub = 0x0F then (if lt64 (to64 (leNat (v ix 0x0E))) (to64 (leNat (v ix 0x0F))) then none else some abRange)
    else none
  else none

/-- The checks of an overlay object (R290). -/
def State.overlayCheck (s : State) (ix sub : Nat) (v : List Byte) : Option Nat :=
  if ix < 0x3100 ∨ 0x3600 ≤ ix then none
  else
    let m := (ix - 0x3100) / 256
    let d := (ix - 0x3100) % 256
    if sub = 4 then (if v = [1] then s.deltaProblem m d else none)
    else if s.deltaOn m d then some abRange else none

/-- Step 8 of Table 11.4 for an object of the base layer. -/
def State.baseCheck (s : State) (ix sub : Nat) (o : Obj) (v : List Byte) : Option Nat :=
  match valueOk ix o v with
  | some c => some c
  | none =>
    match s.overlayCheck ix sub v with
    | some c => some c
    | none => s.crossCheck (s.baseView ix sub v) (viewSum s.baseValue) ix sub

/-- Step 7 of Table 11.4 (R287, R289). -/
def State.transitionRefuses (s : State) (ix sub : Nat) (v : List Byte) : Bool :=
  if ix = 0x2001 ∧ sub = 1 then s.dict.applying || (s.deviceCause && decide (leNat v ≤ 4) && leNat v != s.dict.mode)
  else s.dict.applying && (overlayModeOf ix == some s.dict.mode || overlayModeOf ix == some s.dict.target)

/-! ## What a change of an effective value does -/

/-- A change of TrayCount: ports that are not used any more stop, others may start (R193). -/
def State.trayCountChanged (s : State) : State :=
  ((List.range 10).foldl (fun s p => if s.portUsed p then s else s.portEnable p false) s).startPorts

/-- The device takes up the value it now acts on. -/
def State.react (s : State) (ix sub : Nat) : State :=
  let v := s.cfg ix sub
  if 0x5000 ≤ ix ∧ ix < 0x5400 then (if sub = 1 then s.burrowEnable ((ix - 0x5000) / 16) (v == 1) else s)
  else if 0x6010 ≤ ix ∧ ix < 0x601A then (if sub = 1 then s.portEnable (ix - 0x6010) (v == 1) else s)
  else if ix = 0x6000 then s.trayCountChanged
  else if 0x6100 ≤ ix ∧ ix < 0x6240 then s.loadImage (objKey ix sub, s.acted ix sub)
  else if ix = 0x7010 ∨ ix = 0x7011 then
    if sub = 1 then s.channelEnable (ix - 0x7010) (v == 1)
    else if sub = 5 ∨ sub = 6 ∨ sub = 9 then s.clearLastGood (ix - 0x7010)
    else s
  else if ix = 0x4110 then s.rescale
  else if ix = 0x4112 then s.shed (sub - 1)
  else if ix = 0x1200 ∧ (sub = 10 ∨ sub = 11) then
    { s with can := { s.can with rejoin := s.can.rejoin || s.can.state == 2 } }
  else s

/-- A write lands in the base layer; the device takes it up at once, or after the transition in progress (R281, R284, R287). -/
def State.baseWrite (s : State) (ix sub : Nat) (v : List Byte) : State :=
  let k := objKey ix sub
  let old := s.acted ix sub
  let shadow := s.shadowed ix sub
  let s := s.putBase ix sub v
  if shadow then s
  else if s.dict.applying ∧ (overlayModeOf ix).isNone then
    { s with dict := { s.dict with heldOld := if (Map.get? s.dict.heldOld k).isSome then s.dict.heldOld else Map.put s.dict.heldOld k old
                                   heldKeys := s.dict.heldKeys ++ [k] } }
  else s.react ix sub

/-! ## Modes (R286 to R289) -/

/-- The overlay of the active mode is about to change: the one in force stays until the quiet point. -/
def State.keepOverlay (s : State) : State := { s with dict := { s.dict with overlayOld := some s.overlay } }

/-- The active overlay is applied again (R288). -/
def State.reapply (s : State) : State :=
  { s with dict := { s.dict with applying := true, target := s.dict.mode, forced := false, hostWas := false } }

/-- A write of ModeRequest that passed its checks (R286, R289). -/
def State.requestMode (s : State) (m : Nat) : State :=
  let d := { s.dict with modeRequest := m, safeCause := if m = 4 then s.dict.safeCause ||| 1 else s.dict.safeCause }
  if m = s.dict.mode then { s with dict := d }
  else { s with dict := { d with applying := true, target := m, forced := false, hostWas := m != 4 && d.safeCause.testBit 0
                                 safeCause := if m ≠ 4 ∧ d.safeCause.testBit 0 then d.safeCause - 1 else d.safeCause } }

/-- The keys of two overlays, ascending. -/
def overlayKeys (a b : Map (List Byte)) : List Nat := Map.keys (b.foldl (fun m e => Map.put m e.1 e.2) a)

/-- The objects whose effective value changes from one overlay to another. -/
def State.changedKeys (s : State) (old new : Map (List Byte)) : List Nat :=
  (overlayKeys old new).filter fun k =>
    let plain := (Map.get? s.dict.heldOld k).getD (s.baseValue (k / 256) (k % 256))
    (Map.get? old k).getD plain != (Map.get? new k).getD plain

/-- After a transition: the writes it held back, then a selection of SAFE that waited (R287, R289). -/
def State.afterTransition (s : State) : State :=
  let keys := s.dict.heldKeys
  let s := { s with dict := { s.dict with applying := false, forced := false, hostWas := false, heldOld := [], heldKeys := [] } }
  let s := keys.foldl (fun s k => s.react (k / 256) (k % 256)) s
  if s.dict.safeWaiting then
    let d := { s.dict with safeWaiting := false }
    { s with dict := if d.mode = 4 then d else { d with applying := true, target := 4, forced := true, modeRequest := 4 } }
  else s

/-- The transition is refused (R287); an edit of the active overlay that came meanwhile is applied next (R288). -/
def State.refuseTransition (s : State) (k : Nat) : State :=
  let s := s.logEvent 0x0204 (toLE 2 (k / 256) ++ toLE 1 (k % 256))
  let other := s.dict.target ≠ s.dict.mode
  let s := { s with dict := { s.dict with modeRequest := s.dict.mode
                                          safeCause := if s.dict.hostWas then s.dict.safeCause ||| 1 else s.dict.safeCause } }.afterTransition
  if other ∧ s.dict.overlayOld.isSome ∧ s.dict.applying = false then s.reapply else s

/-- The transition is applied (R286). -/
def State.applyTransition (s : State) (changed : List Nat) : State :=
  let was := s.dict.mode
  let s := { s with dict := { s.dict with mode := s.dict.target, overlayOld := none
                                          modeChanges := if s.dict.target = was then s.dict.modeChanges else (s.dict.modeChanges + 1) % 2 ^ 32 } }
  let s := changed.foldl (fun s k => s.react (k / 256) (k % 256)) s
  (s.logEvent 0x0203 (toLE 1 was ++ toLE 1 s.dict.mode)).afterTransition

/-- The admission quiet point (R286, R287). -/
def State.quietPoint (s : State) : State :=
  if s.dict.applying = false then s
  else
    let new := s.overlayOf s.dict.target
    let changed := s.changedKeys s.overlay new
    let bad := changed.find? fun k => (s.crossCheck (s.overlayView new) s.guaranteeSum (k / 256) (k % 256)).isSome
    match s.dict.forced, bad with
    | false, some k => s.refuseTransition k
    | _, _ => s.applyTransition changed

/-! ## The calendar (R294, R295) -/

/-- The calendar is set and its second phase restarts. -/
def State.setCalendar (s : State) (sec : Nat) : State :=
  { s with clk := { s.clk with sec := sec, us := 0, valid := true } }.logEvent 0x0207

def leapYear (y : Nat) : Bool := (y % 4 == 0 && y % 100 != 0) || y % 400 == 0

def daysIn (y m : Nat) : Nat :=
  if m = 2 then (if leapYear y then 29 else 28) else if m = 4 ∨ m = 6 ∨ m = 9 ∨ m = 11 then 30 else 31

/-- A staged date is valid. -/
def Clk.dateOk (c : Clk) : Bool :=
  decide (1970 ≤ c.year ∧ c.year ≤ 2199 ∧ 1 ≤ c.month ∧ c.month ≤ 12 ∧ 1 ≤ c.day ∧ c.day ≤ daysIn c.year c.month
    ∧ c.hour ≤ 23 ∧ c.minute ≤ 59 ∧ c.second ≤ 59)

/-- Days from 1970-01-01 to a date. -/
def daysTo (y m d : Nat) : Nat :=
  sumNat ((List.range (y - 1970)).map fun i => if leapYear (1970 + i) then 366 else 365)
    + sumNat ((List.range (m - 1)).map fun i => daysIn y (i + 1)) + (d - 1)

/-- Commit (R295). -/
def State.calendarCommit (s : State) : State × Answer :=
  let c := s.clk
  let s := { s with clk := { c with year := 0, month := 0, day := 0, hour := 0, minute := 0, second := 0 } }
  if c.dateOk then (s.setCalendar (daysTo c.year c.month c.day * 86400 + c.hour * 3600 + c.minute * 60 + c.second), .ok false)
  else (s, .abort abDate)

/-! ## Commands (R272) -/

/-- The base layer returns to its defaults; locked RWL and W1 objects keep their values (Table 11.9). -/
def State.restoreDefaults (s : State) : State :=
  let keys := (s.dict.base.filter fun e =>
    match objAt (e.1 / 256) (e.1 % 256) with
    | none => false
    | some o => o.acc != .w1 && !(s.dict.locked && o.acc == .rwl) && e.2 != o.dflt).map Prod.fst
  let edits := keys.any fun k => overlayModeOf (k / 256) == some s.dict.mode && k % 256 == 4
  let s := if edits then s.keepOverlay else s
  let s := keys.foldl (fun s k => s.baseWrite (k / 256) (k % 256) (((objAt (k / 256) (k % 256)).map Obj.dflt).getD [])) s
  if edits ∧ s.dict.applying = false then s.reapply else s

/-- Every delta of a mode is disabled (R290). -/
def State.clearOverlay (s : State) (m : Nat) : State :=
  let active := m = s.dict.mode
  let s := if active then s.keepOverlay else s
  let s := (List.range 256).foldl (fun s d => if s.deltaOn m d then s.putBase (deltaIndex m d) 4 [0] else s) s
  if active then s.reapply else s

/-- LockAll (R292). -/
def State.lockAll (s : State) : State :=
  if s.dict.locked then s else { s with dict := { s.dict with locked := true } }.logEvent 0x0206

/-- ClearLog (Table 14.7): the ring is empty, entry numbers continue. -/
def State.clearLog (s : State) : State := { s with log := { s.log with ring := [] } }

/-- The framed transfer that the SSP master objects describe (R305, R306). -/
def State.masterFrame (s : State) : MasterFrame :=
  let c := s.cfg 0x1220
  let eight := c 11 == 1
  { select := c 1
    command := if eight ∨ c 2 = 0 then [] else toLE 1 (c 3)
    address := if eight then [] else (toLE (c 4 / 8) (c 5)).reverse
    dummy := if eight then 0 else c 6
    write := c 7 == 1
    eightBit := eight
    data := if eight ∨ c 7 = 1 then s.acted 0x1220 9 else []
    len := c 8 }

/-- Go (R307). -/
def State.sspGo (s : State) : State × Answer :=
  let f := s.masterFrame
  if s.ssp.status = 1 then (s, .abort abRange)
  else if f.select < 2 then (s, .abort abRange)
  else if (f.write ∨ f.eightBit) ∧ f.data.length ≠ f.len then (s, .abort abLength)
  else
    let s := { s with ssp := { s.ssp with status := 1, frame := some f } }
    (s.emit (.sspFrame f.select f.command f.address f.dummy f.write f.data f.len), .ok false)

/-- TileReset (R350): the scheduler stops dispatching to the tile. -/
def State.tileReset (s : State) (t : Nat) : State := s.setTile t { s.tile t with resetPending := true }

/-- The answer of an operation that may be refused. -/
def State.tried (s : State) (r : Except Nat State) : State × Answer :=
  match r with
  | .ok s' => (s', .ok false)
  | .error c => (s, .abort c)

/-- A CMD object is written with a value its table names (R272). -/
def State.runCommand (s : State) (ix sub v : Nat) : State × Answer :=
  if ix = 0x1011 then s.calendarCommit
  else if ix = 0x1220 then s.sspGo
  else if ix = 0x1F00 then (s.lockAll, .ok false)
  else if ix = 0x2000 then (if sub = 1 then s.requestStore else s.restoreDefaults, .ok false)
  else if ix < 0x3005 then (s.clearOverlay (ix - 0x3000), .ok false)
  else if ix = 0x4010 then ((s.retirePc v).segmentAudit, .ok false)
  else if ix < 0x7012 then
    if sub = 3 then s.tried (s.triggerShot (ix - 0x7010) (v == 1)) else s.tried (s.zeroCalibrate (ix - 0x7010) v)
  else if ix < 0x7032 then s.tried (s.trigger (.rtd (ix - 0x7030)))
  else if ix = 0x8000 then
    (if sub = 1 then s.triggerWarm (v == 1) else if sub = 2 then s.tileReset v else s.audit, .ok false)
  else if ix < 0x8200 then
    if v = 1 then
      match s.startGenerator (ix - 0x8100) with
      | some s' => (s'.settleFrames, .ok false)
      | none => (s, .abort abRange)
    else ((s.stopGenerator (ix - 0x8100)).settleFrames, .ok false)
  else if ix < 0x8280 then
    let (done, s) := s.repairCommand (ix - 0x8200) v
    (s, if done then .ok false else .abort abRange)
  else (s.clearLog, .ok false)

/-! ## Writes (R275, Table 11.4) -/

/-- A request object is written (R281). -/
def State.writeRequest (s : State) (ix sub : Nat) (data : List Byte) : State × Answer :=
  let v := leNat data
  match ix, sub with
  | 0x1010, _ => if 7258118399 < v then (s, .abort abDate) else (s.setCalendar v, .ok false)
  | 0x1011, 1 => ({ s with clk := { s.clk with year := v } }, .ok false)
  | 0x1011, 2 => ({ s with clk := { s.clk with month := v } }, .ok false)
  | 0x1011, 3 => ({ s with clk := { s.clk with day := v } }, .ok false)
  | 0x1011, 4 => ({ s with clk := { s.clk with hour := v } }, .ok false)
  | 0x1011, 5 => ({ s with clk := { s.clk with minute := v } }, .ok false)
  | 0x1011, _ => ({ s with clk := { s.clk with second := v } }, .ok false)
  | 0x2001, _ => (s.requestMode v, .ok false)
  | 0x2002, 1 => ({ s with dict := { s.dict with probeIndex := v } }, .ok false)
  | _, _ => ({ s with dict := { s.dict with probeSubindex := v } }, .ok false)

/-- An object of the base layer is written. -/
def State.writeBase (s : State) (ix sub : Nat) (o : Obj) (data : List Byte) : State × Answer :=
  match s.baseCheck ix sub o data with
  | some c => (s, .abort c)
  | none =>
    let shadow := s.shadowed ix sub
    match overlayModeOf ix with
    | none => (s.baseWrite ix sub data, .ok shadow)
    | some m =>
      if m = s.dict.mode ∧ sub = 4 ∧ data ≠ s.baseValue ix sub then ((s.keepOverlay.putBase ix sub data).reapply, .ok false)
      else (s.putBase ix sub data, .ok false)

/-- The write itself, once steps 1 to 7 have passed. -/
def State.writeAccepted (s : State) (ix sub : Nat) (o : Obj) (data : List Byte) : State × Answer :=
  if o.acc = .cmd then (if rangeOk o data then s.runCommand ix sub (leNat data) else (s, .abort abRange))
  else if isRequest ix sub then (if rangeOk o data then s.writeRequest ix sub data else (s, .abort abRange))
  else if inBase ix sub o then s.writeBase ix sub o data
  else if s.hardOk (ix - 0x8280) (leNat data) then (s.fuseRepair (ix - 0x8280) (sub - 1) (leNat data), .ok false)
  else (s, .abort abRange)

/-- Steps 1 to 4 of Table 11.4. -/
def State.precheck (s : State) (ix sub : Nat) : Except Nat Obj :=
  match findObject ix sub with
  | .error c => .error c
  | .ok o =>
    if o.acc = .ro then .error abReadOnly
    else if o.acc = .rwl ∧ s.dict.locked then .error abLocked
    else .ok o

/-- A write of an object, checked in the order of Table 11.4. -/
def State.writeObject (s : State) (via : Transport) (ix sub : Nat) (data : List Byte) : State × Answer :=
  match s.precheck ix sub with
  | .error c => (s, .abort c)
  | .ok o =>
    if lengthOk o data = false then (s, .abort abLength)
    else if o.acc = .w1 ∧ s.valueOf ix sub o ≠ [] then
      if data = s.valueOf ix sub o then (s, .ok false)
      else (s.logEvent 0x0205 (toLE 2 ix ++ toLE 1 sub ++ toLE 1 via.code), .abort abOnce)
    else if s.transitionRefuses ix sub data then (s, .abort abApplying)
    else s.writeAccepted ix sub o data

/-- A dictionary write over a transport, while the dictionary service runs; its answer stays in the state. -/
def State.dictWrite (s : State) (via : Transport) (ix sub : Nat) (data : List Byte) : State :=
  if s.serviceUp = false then s
  else
    let (s, a) := s.writeObject via ix sub data
    { s with dict := { s.dict with answer := a } }

end Sys2Proof.Machine
end

