-- ==== Sys2Proof/Machine/Writes.lean ====
section
/-! DEFINITION. The commands that are a write to an object with a behaviour of its own, over any transport (R272, R275), and the
mode transition, the calendar's second and the tile reset they lead to. -/

namespace Sys2Proof.Machine

/-- DICTIONARY_WRITE (R275). -/
def execDictionaryWrite (via : Transport) (index subindex : Nat) (data : List Byte) (s : State) : Host.Outcome State Fault Refusal :=
  .next (s.dictWrite via index subindex data)

/-- BURROW_ENABLE (R187). -/
def execBurrowEnable (via : Transport) (b : Fin 64) (enable : Bool) (s : State) : Host.Outcome State Fault Refusal :=
  .next (s.dictWrite via (burrowIndex b) 1 (ofBool enable))

/-- RETIRE_PC (R158). -/
def execRetirePc (via : Transport) (pc : Fin 256) (s : State) : Host.Outcome State Fault Refusal :=
  .next (s.dictWrite via 0x4010 5 (toLE 1 pc))

/-- GUARANTEE_WRITE (R163). -/
def execGuaranteeWrite (via : Transport) (b : Fin 64) (value : Nat) (s : State) : Host.Outcome State Fault Refusal :=
  .next (s.dictWrite via 0x4110 (b + 1) (toLE 4 value))

/-- GENERATOR_START (R166). -/
def execGeneratorStart (via : Transport) (st : Fin 8) (s : State) : Host.Outcome State Fault Refusal :=
  .next (s.dictWrite via (0x8100 + st) 1 [1])

/-- GENERATOR_STOP (R166). -/
def execGeneratorStop (via : Transport) (st : Fin 8) (s : State) : Host.Outcome State Fault Refusal :=
  .next (s.dictWrite via (0x8100 + st) 1 [0])

/-- READ_SPARE_RESOURCES (R167). -/
def execReadSpareResources (via : Transport) (st : Fin 8) (s : State) : Host.Outcome State Fault Refusal :=
  .next (s.dictWrite via (0x8200 + st) 1 [1])

/-- SOFT_REPAIR (R167). -/
def execSoftRepair (via : Transport) (st : Fin 8) (s : State) : Host.Outcome State Fault Refusal :=
  .next (s.dictWrite via (0x8200 + st) 1 [2])

/-- CLEAR_SOFT_REPAIRS (R167). -/
def execClearSoftRepairs (via : Transport) (st : Fin 8) (s : State) : Host.Outcome State Fault Refusal :=
  .next (s.dictWrite via (0x8200 + st) 1 [3])

/-- HARD_REPAIR_WRITE (R168, R291). -/
def execHardRepairWrite (via : Transport) (st : Fin 8) (slot : Fin 32) (value : Nat) (s : State) : Host.Outcome State Fault Refusal :=
  .next (s.dictWrite via (0x8280 + st) (slot + 1) (toLE 4 value))

/-- PORT_ENABLE (R210). -/
def execPortEnable (via : Transport) (p : Fin 10) (enable : Bool) (s : State) : Host.Outcome State Fault Refusal :=
  .next (s.dictWrite via (0x6010 + p) 1 (ofBool enable))

/-- TABLE_IMAGE_WRITE (R219). -/
def execTableImageWrite (via : Transport) (p : Fin 10) (slot : Fin 32) (image : List Byte) (s : State) : Host.Outcome State Fault Refusal :=
  .next (s.dictWrite via (0x6100 + 32 * p + slot) 1 image)

/-- TILE_RESET (R350). -/
def execTileReset (via : Transport) (value : Nat) (s : State) : Host.Outcome State Fault Refusal :=
  .next (s.dictWrite via 0x8000 2 (toLE 2 value))

/-- STORE_BASE (R311): `ended` is how the store it starts ends, where it ends before the next command. -/
def execStoreBase (via : Transport) (ended : Option Bool) (s : State) : Host.Outcome State Fault Refusal :=
  let t := s.dictWrite via 0x2000 1 [1]
  .next (match s.dict.storing, ended with
    | none, some ok => t.endStore ok
    | _, _ => t)

/-- PENDING_STORE_START (R283): the running store ends, verified or not, and a pending store starts. -/
def execPendingStoreStart (ended : Option Bool) (s : State) : Host.Outcome State Fault Refusal :=
  .next (match ended with
    | none => s
    | some ok =>
      let t := s.endStore ok
      if s.dict.storing.isSome ∧ s.dict.storePending then t.startStore else t)

/-- RESTORE_DEFAULTS (R283). -/
def execRestoreDefaults (via : Transport) (s : State) : Host.Outcome State Fault Refusal := .next (s.dictWrite via 0x2000 4 [1])

/-- MODE_REQUEST (R286, R289). -/
def execModeRequest (via : Transport) (mode : Nat) (s : State) : Host.Outcome State Fault Refusal :=
  .next (s.dictWrite via 0x2001 1 (toLE 1 mode))

/-- QUIET_POINT (R286 to R288). -/
def execQuietPoint (s : State) : Host.Outcome State Fault Refusal := .next s.quietPoint

/-- LOCK_ALL (R292). -/
def execLockAll (via : Transport) (s : State) : Host.Outcome State Fault Refusal := .next (s.dictWrite via 0x1F00 1 [1])

/-- CLEAR_OVERLAY (R290). -/
def execClearOverlay (via : Transport) (mode : Fin 5) (s : State) : Host.Outcome State Fault Refusal :=
  .next (s.dictWrite via (0x3000 + mode) 2 [1])

/-- DELTA_ENABLE (R290). -/
def execDeltaEnable (via : Transport) (mode : Fin 5) (delta : Fin 256) (enable : Bool) (s : State) : Host.Outcome State Fault Refusal :=
  .next (s.dictWrite via (deltaIndex mode delta) 4 (ofBool enable))

/-- CALENDAR_TIME_WRITE (R294). -/
def execCalendarTimeWrite (via : Transport) (value : Nat) (s : State) : Host.Outcome State Fault Refusal :=
  .next (s.dictWrite via 0x1010 0 (toLE 8 value))

/-- CALENDAR_COMMIT (R295). -/
def execCalendarCommit (via : Transport) (value : Nat) (s : State) : Host.Outcome State Fault Refusal :=
  .next (s.dictWrite via 0x1011 7 (toLE 1 value))

/-- CALENDAR_SECOND (R294): the device is out of cold reset. -/
def execCalendarSecond (s : State) : Host.Outcome State Fault Refusal :=
  .next (if s.boot.coldHeld then s else { s with clk := { s.clk with sec := (s.clk.sec + 1) % 2 ^ 64, us := 0 } })

/-- CLEAR_LOG (R353). -/
def execClearLog (via : Transport) (s : State) : Host.Outcome State Fault Refusal := .next (s.dictWrite via 0x9000 2 [1])

/-- WARM_RESET_RETAIN (R348). -/
def execWarmResetRetain (via : Transport) (s : State) : Host.Outcome State Fault Refusal := .next (s.dictWrite via 0x8000 1 [1])

/-- WARM_RESET_NO_RETAIN (R348). -/
def execWarmResetNoRetain (via : Transport) (s : State) : Host.Outcome State Fault Refusal := .next (s.dictWrite via 0x8000 1 [2])

/-- AUDIT_NOW (R354). -/
def execAuditNow (via : Transport) (s : State) : Host.Outcome State Fault Refusal := .next (s.dictWrite via 0x8000 3 [1])

/-- SSP_GO (R307). -/
def execSspGo (via : Transport) (s : State) : Host.Outcome State Fault Refusal := .next (s.dictWrite via 0x1220 13 [1])

/-- SSP_FRAME_DONE (R305, R306): the frame in progress ends with the bytes it received. -/
def execSspFrameDone (data : List Byte) (s : State) : Host.Outcome State Fault Refusal :=
  .next (match s.ssp.frame with
    | none => s
    | some f =>
      let got := if f.write && !f.eightBit then [] else padTo f.len data
      { s with ssp := { s.ssp with status := 2, frame := none, readData := got } })

/-- SHOT_UP (R324, R325). -/
def execShotUp (via : Transport) (c : Fin 2) (s : State) : Host.Outcome State Fault Refusal := .next (s.dictWrite via (0x7010 + c) 3 [1])

/-- SHOT_DOWN (R324, R325). -/
def execShotDown (via : Transport) (c : Fin 2) (s : State) : Host.Outcome State Fault Refusal := .next (s.dictWrite via (0x7010 + c) 3 [2])

/-- RTD_CONVERT (R330). -/
def execRtdConvert (via : Transport) (r : Fin 2) (s : State) : Host.Outcome State Fault Refusal := .next (s.dictWrite via (0x7030 + r) 1 [1])

/-- FLOW_CHANNEL_ENABLE (R333). -/
def execFlowChannelEnable (via : Transport) (c : Fin 2) (enable : Bool) (s : State) : Host.Outcome State Fault Refusal :=
  .next (s.dictWrite via (0x7010 + c) 1 (ofBool enable))

/-- ZERO_CALIBRATE (R329). -/
def execZeroCalibrate (via : Transport) (c : Fin 2) (n : Nat) (s : State) : Host.Outcome State Fault Refusal :=
  .next (s.dictWrite via (0x7010 + c) 11 (toLE 1 n))

/-- TILE_RESET_EXECUTE (R350): every query that held a slot on the tile has completed or stopped. -/
def execTileResetExecute (t : Fin 256) (s : State) : Host.Outcome State Fault Refusal :=
  let v := s.tile t
  .next (if v.resetPending = false ∨ v.slots ≠ [] then s
    else
      let s := if v.running.isSome then s.endInvocation t else s
      let s := s.setTile t { s.tile t with regs := [], pc := 0, dregs := [], accs := [], operand := none, started := 0, faulted := [], resetPending := false }
      s.logEvent 0x010A (toLE 1 t))

end Sys2Proof.Machine
end

