-- ==== Sys2Proof/Machine/Vdp.lean ====
section
/-! DEFINITION. The Vynyx Dictionary Protocol: messages and transfers (R276 to R279), the mailbox (R280), and CAN FD
(R298 to R302). -/

namespace Sys2Proof.Machine

/-! ## Messages (Table 11.5) -/

def vdpService (m : List Byte) : Nat := field m 0 1 / 64
def vdpCount (m : List Byte) : Nat := field m 0 1 % 64
def vdpIndex (m : List Byte) : Nat := field m 1 2
def vdpSub (m : List Byte) : Nat := field m 3 1
def vdpToggle (m : List Byte) : Nat := field m 1 1 % 2
def vdpLast (m : List Byte) : Bool := (field m 1 1).testBit 1

/-- The data length of a message (R276). -/
def vdpData (m : List Byte) : Nat := if vdpCount m = 63 then 4 else vdpCount m

/-- A header with an index. -/
def vdpHeader (service n ix sub : Nat) : List Byte := toLE 1 (service * 64 + n) ++ toLE 2 ix ++ toLE 1 sub
/-- An ABORT. -/
def vdpAbort (ix sub code : Nat) : List Byte := vdpHeader 3 4 ix sub ++ toLE 4 code
/-- A SEGMENT. -/
def vdpSegment (toggle : Nat) (last : Bool) (data : List Byte) : List Byte :=
  toLE 1 (128 + data.length) ++ toLE 1 (toggle + if last then 2 else 0) ++ zeros 2 ++ data

/-- The request is refused for its form (R276, R277, R279): `len` bytes came. -/
def vdpMalformed (m : List Byte) (len : Nat) : Bool :=
  decide (len < 4 ∨ 64 < len ∨ len < 4 + vdpData m) || vdpCount m == 61 || vdpCount m == 62 || (vdpService m == 0 && vdpCount m != 0)

/-! ## Transfers (R277 to R279) -/

/-- A transfer that has received no SEGMENT for 1 s is abandoned. -/
def State.fresh (s : State) (p : VdpPort) : VdpPort :=
  match p.transfer with
  | some t => if t.since + 1000000 ≤ s.clk.now then { p with transfer := none } else p
  | none => p

/-- The answer of a write. -/
def writeAnswer (ix sub : Nat) : Answer → List Byte
  | .abort c => vdpAbort ix sub c
  | .ok sh => vdpHeader 1 1 ix sub ++ toLE 1 sh.toNat
  | .none => vdpHeader 1 1 ix sub ++ [0]

/-- A READ request. -/
def State.vdpRead (s : State) (m : List Byte) : VdpPort × List Byte :=
  let ix := vdpIndex m
  let sub := vdpSub m
  match s.readObject ix sub with
  | .error c => ({}, vdpAbort ix sub c)
  | .ok v =>
    if v.length ≤ 60 then ({}, vdpHeader 0 v.length ix sub ++ v)
    else ({ transfer := some { write := false, index := ix, subindex := sub, total := v.length, data := v, since := s.clk.now } },
          vdpHeader 0 63 ix sub ++ toLE 4 v.length)

/-- A WRITE request: an expedited write, or the initiation of a segmented one. -/
def State.vdpWrite (s : State) (via : Transport) (m : List Byte) : State × VdpPort × List Byte :=
  let ix := vdpIndex m
  let sub := vdpSub m
  if vdpCount m = 63 then
    match s.precheck ix sub with
    | .error c => (s, {}, vdpAbort ix sub c)
    | .ok _ =>
      (s, { transfer := some { write := true, index := ix, subindex := sub, total := field m 4 4, since := s.clk.now } }, vdpHeader 1 0 ix sub)
  else
    let (s, a) := s.writeObject via ix sub (slice m 4 (vdpCount m))
    ({ s with dict := { s.dict with answer := a } }, {}, writeAnswer ix sub a)

/-- A SEGMENT of an open segmented read. -/
def Transfer.readNext (t : Transfer) (toggle now : Nat) : VdpPort × List Byte :=
  let chunk := slice t.data t.sent 60
  let done := decide (t.total ≤ t.sent + chunk.length)
  let r := vdpSegment toggle done chunk
  if done then ({ kept := some (toggle, true, r) }, r)
  else ({ transfer := some { t with sent := t.sent + chunk.length, toggle := toggle, started := true, last := r, since := now } }, r)

/-- A SEGMENT of an open segmented write. -/
def State.writeNext (s : State) (via : Transport) (t : Transfer) (m : List Byte) : State × VdpPort × List Byte :=
  let data := t.data ++ slice m 4 (vdpData m)
  if t.total < data.length ∨ (vdpLast m ∧ data.length < t.total) then (s, {}, vdpAbort t.index t.subindex abLength)
  else if vdpLast m then
    let (s, a) := s.writeObject via t.index t.subindex data
    let r := writeAnswer t.index t.subindex a
    ({ s with dict := { s.dict with answer := a } }, { kept := some (vdpToggle m, false, r) }, r)
  else
    let r := vdpSegment (vdpToggle m) false []
    (s, { transfer := some { t with data := data, toggle := vdpToggle m, started := true, last := r, since := s.clk.now } }, r)

/-- A SEGMENT (R278). -/
def State.vdpSegmentIn (s : State) (via : Transport) (p : VdpPort) (m : List Byte) : State × VdpPort × List Byte :=
  match p.transfer, p.kept with
  | some t, _ =>
    if t.started ∧ vdpToggle m = t.toggle then (s, { p with transfer := some { t with since := s.clk.now } }, t.last)
    else if t.started = false ∧ vdpToggle m = 1 then (s, {}, vdpAbort t.index t.subindex abRange)
    else if t.write then s.writeNext via t m
    else (s, t.readNext (vdpToggle m) s.clk.now)
  | none, some (toggle, isRead, r) =>
    if vdpToggle m = toggle ∧ (isRead ∨ vdpLast m) then (s, p, r) else (s, {}, vdpAbort 0 0 abRange)
  | none, none => (s, {}, vdpAbort 0 0 abRange)

/-- A message is served: the transport's transfer after it, and the answer, none for a client ABORT. -/
def State.vdpServe (s : State) (via : Transport) (p : VdpPort) (m : List Byte) (len : Nat) : State × VdpPort × Option (List Byte) :=
  let p := s.fresh p
  if vdpMalformed m len then
    if vdpService m = 2 then
      match p.transfer with
      | some t => (s, {}, some (vdpAbort t.index t.subindex abLength))
      | none => (s, {}, some (vdpAbort 0 0 abLength))
    else (s, { p with kept := none }, some (vdpAbort (vdpIndex m) (vdpSub m) abLength))
  else if vdpService m = 0 then
    let (p, r) := s.vdpRead m
    (s, p, some r)
  else if vdpService m = 1 then
    let (s, p, r) := s.vdpWrite via m
    (s, p, some r)
  else if vdpService m = 2 then
    let (s, p, r) := s.vdpSegmentIn via p m
    (s, p, some r)
  else (s, {}, none)

/-! ## The mailbox (R280) -/

/-- The mailbox registers are reached: from stage HOST on, and in RECOVERY (R342, R346). -/
def State.mailboxOpen (s : State) : Bool := s.boot.hostUp && (decide (6 ≤ s.boot.stage) || s.boot.stage == 3)

/-- The request in the mailbox is served. -/
def State.serveMailbox (s : State) : State :=
  if s.vdp.busy = false ∨ s.serviceUp = false then s
  else
    let (s, p, r) := s.vdpServe .mailbox s.vdp.mailbox s.vdp.request s.vdp.reqLen
    let v := { s.vdp with mailbox := p, busy := false }
    match r with
    | none => { s with vdp := v }
    | some r => { s with vdp := { v with done := true, respLen := r.length, response := padTo 64 r } }.raise 0 0

/-- The host writes a request, its length, and 1 to Go. -/
def State.submitMailbox (s : State) (len : Nat) (request : List Byte) : State :=
  if s.mailboxOpen = false then s
  else if s.vdp.busy then { s with vdp := { s.vdp with overrun := true } }
  else { s with vdp := { s.vdp with busy := true, reqLen := len, request := padTo 64 request } }.serveMailbox

/-! ## CAN FD (R298 to R300) -/

/-- A VDP_REQUEST frame for this device. -/
def State.canAddressed (s : State) (identifier : Nat) : Bool :=
  s.canOn && s.serviceUp && identifier / 2 ^ 20 % 64 == 1 && some (identifier / 2 ^ 13 % 128) == s.canNode

/-- A frame with a VDP message is served; one identical to the last READ or WRITE within 1 s gets the stored response. -/
def State.serveCan (s : State) (identifier : Nat) (data : List Byte) : State :=
  if s.canAddressed identifier = false then s
  else
    let sequence := identifier % 8192
    let fresh := match s.vdp.canLast with
      | some (i, d, r, at_) => if i = identifier ∧ d = data ∧ s.clk.now ≤ at_ + 1000000 then some r else none
      | none => none
    match fresh with
    | some r => s.canSend 2 sequence r
    | none =>
      let (s, p, r) := s.vdpServe .can s.vdp.can data data.length
      let s := { s with vdp := { s.vdp with can := p } }
      match r with
      | none => s
      | some r =>
        let s := if vdpService data < 2 then { s with vdp := { s.vdp with canLast := some (identifier, data, r, s.clk.now) } } else s
        s.canSend 2 sequence r

/-- A message arrives that carries the service of the command. -/
def State.vdpArrive (s : State) (service : Nat) (m : VdpIn) : State :=
  match m with
  | .mailbox len request => if vdpService request = service then s.submitMailbox len request else s
  | .can identifier data => if vdpService data = service then s.serveCan identifier data else s

/-- VDP_READ (R277). -/
def execVdpRead (m : VdpIn) (s : State) : Host.Outcome State Fault Refusal := .next (s.vdpArrive 0 m)

/-- VDP_WRITE (R277). -/
def execVdpWrite (m : VdpIn) (s : State) : Host.Outcome State Fault Refusal := .next (s.vdpArrive 1 m)

/-- VDP_SEGMENT (R278). -/
def execVdpSegment (m : VdpIn) (s : State) : Host.Outcome State Fault Refusal := .next (s.vdpArrive 2 m)

/-- VDP_ABORT (R279). -/
def execVdpAbort (m : VdpIn) (s : State) : Host.Outcome State Fault Refusal := .next (s.vdpArrive 3 m)

/-- VDP_TRANSFER_TIMEOUT (R279). -/
def execVdpTransferTimeout (via : Transport) (s : State) : Host.Outcome State Fault Refusal :=
  .next (match via with
    | .mailbox => { s with vdp := { s.vdp with mailbox := s.fresh s.vdp.mailbox } }
    | .can => { s with vdp := { s.vdp with can := s.fresh s.vdp.can } }
    | .ssp => s)

/-- MAILBOX_CLEAR (R280). -/
def execMailboxClear (value : Nat) (s : State) : Host.Outcome State Fault Refusal :=
  .next (if s.mailboxOpen ∧ value = 1 then { s with vdp := { s.vdp with done := false, overrun := false } } else s)

/-- GO_WHILE_BUSY (R280). -/
def execGoWhileBusy (s : State) : Host.Outcome State Fault Refusal :=
  .next (if s.mailboxOpen ∧ s.vdp.busy then { s with vdp := { s.vdp with overrun := true } } else s)

/-! ## The bus (R299, R302) -/

/-- CAN_BUS_OFF (R302): the port enters bus-off; an open segmented transfer is abandoned. -/
def execCanBusOff (s : State) : Host.Outcome State Fault Refusal :=
  .next (if s.can.enable = false ∨ s.can.state = 2 then s
    else { s with
      can := { s.can with state := 2, busOffs := (s.can.busOffs + 1) % 2 ^ 32, txErrors := 255, rejoin := false }
      vdp := { s.vdp with can := { s.vdp.can with transfer := none } } }.logEvent 0x0800)

/-- CAN_BUS_RECOVER (R302): 128 occurrences of 11 recessive bits, with AutoRecover at 1 or after AutoRecover or Enable was
written. -/
def execCanBusRecover (s : State) : Host.Outcome State Fault Refusal :=
  .next (if s.can.state = 2 ∧ (s.cfg 0x1200 10 = 1 ∨ s.can.rejoin = true) then
      { s with can := { s.can with state := 0, txErrors := 0, rxErrors := 0, rejoin := false } }
    else s)

/-- CAN_BUS_ERROR (R302): the standard's counters after the error, and error active or passive with them. -/
def execCanBusError (txErrors rxErrors : Nat) (s : State) : Host.Outcome State Fault Refusal :=
  .next (if s.can.enable = false ∨ s.can.state = 2 then s
    else { s with can := { s.can with txErrors := min txErrors 255, rxErrors := min rxErrors 255
                                      state := if 127 < txErrors ∨ 127 < rxErrors then 1 else 0 } })

/-- CAN_HEARTBEAT (R299): HeartbeatPeriod has passed. -/
def execCanHeartbeat (s : State) : Host.Outcome State Fault Refusal :=
  .next (if s.cfg 0x1200 4 = 0 ∨ s.canOn = false ∨ s.serviceUp = false then s
    else
      let t := s.canSend 4 s.can.heartbeatSeq (toLE 1 s.dict.mode ++ toLE 1 s.dict.safeCause ++ toLE 1 s.can.state ++ [0] ++ toLE 4 s.clk.sec)
      { t with can := { t.can with heartbeatSeq := (t.can.heartbeatSeq + 1) % 8192 } })

/-- CAN_SETTINGS_APPLY (R302): bus idle, after the response of the write. -/
def execCanSettingsApply (s : State) : Host.Outcome State Fault Refusal :=
  .next { s with can := { s.can with node := s.cfg 0x1200 1, rate := s.cfg 0x1200 2, enable := s.cfg 0x1200 11 == 1 } }

end Sys2Proof.Machine
end

