-- ==== Sys2Proof/Machine/Kernels.lean ====
section
/-! DEFINITION. Kernel images and PROGRAM_LOAD (R243 to R246), and the kernel bundle (R344). The layout of an ELF32 file and of
its program headers is the ELF standard's (log entry 17). -/

namespace Sys2Proof.Machine

/-! ## ELF files (R245) -/

/-- Addresses of a slot's text and data windows (Table 9.2). -/
def textBase (slot : Nat) : Nat := slot * 0x2000
def dataBase (slot : Nat) : Nat := 0x10080000 + slot * 0x1000

/-- An address in a slot's text window. -/
def inText (slot a : Nat) : Bool := decide (textBase slot ≤ a ∧ a < textBase slot + 0x2000)

/-- `n` bytes from `a` on lie inside a window. -/
def insideWindow (base size a n : Nat) : Bool := decide (base ≤ a ∧ a + n ≤ base + size)

/-- The text and data windows a file fills. -/
structure Windows where
  text : List Byte
  data : List Byte
  deriving DecidableEq, Repr

/-- A program header: it is ignored, fills a window, or refuses the file. -/
def loadSegment (elf : List Byte) (slot : Nat) (w : Windows) (h : List Byte) : Option Windows :=
  let ty := field h 0 4
  let off := field h 4 4
  let at_ := field h 8 4
  let filesz := field h 16 4
  let memsz := field h 20 4
  let flags := field h 24 4
  if ty = 0 ∨ ty = 4 then some w
  else if ty ≠ 1 ∨ memsz < filesz ∨ elf.length < off + filesz then none
  else
    let bytes := padTo memsz (slice elf off filesz)
    if insideWindow (textBase slot) 0x2000 at_ memsz && flags.testBit 0 && !flags.testBit 1 then
      some { w with text := splice w.text (at_ - textBase slot) bytes }
    else if insideWindow (dataBase slot) 0x1000 at_ memsz && flags.testBit 1 && !flags.testBit 0 then
      some { w with data := splice w.data (at_ - dataBase slot) bytes }
    else none

/-- The program headers in order. -/
def loadSegments (elf : List Byte) (slot phoff : Nat) : Nat → Nat → Windows → Option Windows
  | 0, _, w => some w
  | n + 1, i, w => (loadSegment elf slot w (slice elf (phoff + 32 * i) 32)).bind fun w => loadSegments elf slot phoff n (i + 1) w

/-- An ELF file that R245 accepts: the windows it fills, and its entry. -/
def parseElf (elf : List Byte) (slot : Nat) : Option (Windows × Nat) :=
  let phoff := field elf 28 4
  let phnum := field elf 44 2
  if elf.length < 52 ∨ slice elf 0 4 ≠ [0x7F, 0x45, 0x4C, 0x46] ∨ field elf 4 1 ≠ 1 ∨ field elf 5 1 ≠ 1 ∨ field elf 16 2 ≠ 2
      ∨ field elf 18 2 ≠ 243 ∨ field elf 36 4 ≠ 1 ∨ inText slot (field elf 24 4) = false
      ∨ (0 < phnum ∧ field elf 42 2 ≠ 32) ∨ elf.length < phoff + 32 * phnum then none
  else (loadSegments elf slot phoff phnum 0 { text := zeros 0x2000, data := zeros 0x1000 }).map fun w => (w, field elf 24 4)

/-! ## Images (R244, R246) -/

/-- R244: the header of an image of `n` bytes is in order, but for its key. -/
def imageHeaderOk (img : List Byte) (slot : Nat) : Bool :=
  let flags := field img 6 1
  let entry := fun a => if flags.testBit 0 then inText slot a else a == 0
  decide (160 ≤ img.length) && slice img 0 4 == ascii "RLKI" && field img 4 2 == 1 && decide (flags < 2) && field img 8 4 != 0
    && field img 16 4 == img.length - 160 && entry (field img 20 4) && entry (field img 24 4) && slice img 28 36 == zeros 36

/-- The kernel an image loads into a slot; none where R244 or R245 refuses it. -/
def kernelOf (img : List Byte) (slot owner : Nat) : Option Kernel :=
  if imageHeaderOk img slot then
    (parseElf (slice img 64 (img.length - 160)) slot).map fun r =>
      { owner := owner, kernelId := field img 8 4, version := field img 12 4, entry := r.2, hasBound := (field img 6 1).testBit 0
        bound := field img 20 4, cover := field img 24 4, text := r.1.text, data := r.1.data }
  else none

/-- The signature of an image holds under a key (R246). -/
def signatureOk (key img : List Byte) : Bool := ecdsaVerify key (img.take (img.length - 96)) (img.drop (img.length - 96))

/-- The program key of an index, without its leading byte; none while it is unset or no uncompressed key. -/
def State.programKey (s : State) (i : Nat) : Option (List Byte) :=
  match s.effective 0x2141 i with
  | b :: rest => if b = 4 then some rest else none
  | [] => none

/-- A kernel goes into a slot on all 256 tiles: its data into the slot's window, and its FAULTED marks are cleared. -/
def State.loadKernel (s : State) (slot : Nat) (k : Kernel) : State :=
  (List.range 256).foldl (fun s t =>
    let v := s.tile t
    s.setTile t { v with mem := if k.owner = 0xFF then v.mem else Memory.writeN 0 v.mem (dataBase slot) k.data
                         faulted := v.faulted.filter (· != slot) }) (s.setKernel slot k)

/-! ## PROGRAM_LOAD (R243) -/

/-- Step 1: reserved fields, alignment, slot, length. -/
def programFieldsOk (d : List Byte) : Bool :=
  let n := field d 16 4
  field d 1 1 == 0 && slice d 5 3 == zeros 3 && slice d 20 44 == zeros 44 && field d 8 8 % 64 == 0
    && decide (4 ≤ field d 4 1 ∧ field d 4 1 ≤ 7) && (n == 0 || decide (256 ≤ n ∧ n ≤ 1048576))

/-- Steps 1 to 4: the command may load its slot. -/
def State.programAllowed (s : State) (b : Nat) (d : List Byte) : Bool :=
  let slot := field d 4 1
  let owner := (s.kernel slot).owner
  programFieldsOk d && (s.cfg (burrowIndex b) 7).testBit 1 && (owner == 0xFF || owner == b)
    && s.colls.all fun e => e.2.dropped || e.2.kernel != slot

/-- PROGRAM_LOAD (R243 to R246): `data` is the image as the host's memory holds it. -/
def execProgramLoad (data : List Byte) (s : State) : Host.Outcome State Fault Refusal :=
  .next (match s.begin_ 0x60 with
    | none => s
    | some (f, s') =>
      let d := f.bytes
      let b := f.origin.burrow
      let slot := field d 4 1
      if s'.programAllowed b d = false then s'.refuse f stInvalid
      else if field d 16 4 = 0 then (s'.loadKernel slot {}).complete (plain f.origin stOk)
      else if data.length ≠ field d 16 4 then s
      else
        let s' := s'.emit (.hostRead (b + 1) (field d 8 8) data.length)
        match kernelOf data slot b with
        | none => s'.refuse f stInvalid
        | some k =>
          let key := field data 7 1
          if key = 0 ∨ 4 < key then s'.refuse f stInvalid
          else match s'.programKey key with
            | none => (s'.logEvent 0x0701 (toLE 1 slot)).refuse f stInvalid
            | some pk =>
              if signatureOk pk data then (s'.loadKernel slot k).complete (plain f.origin stOk)
              else (s'.logEvent 0x0701 (toLE 1 slot)).refuse f stInvalid)

/-! ## The bundle (R344) -/

/-- The image of a slot in a bundle, when it passes its checks under the boot key. -/
def bundleKernel (bundle : List Byte) (slot : Nat) : Option Kernel :=
  let off := field bundle (8 + 8 * slot) 4
  let n := field bundle (12 + 8 * slot) 4
  let img := slice bundle off n
  if bundle.length < off + n ∨ field img 7 1 ≠ 0 ∨ signatureOk Config.bootKey img = false then none else kernelOf img slot 0xFE

/-- The four kernels of a bundle, when all of it passes. -/
def parseBundle (bundle : List Byte) : Option (List Kernel) :=
  if slice bundle 0 4 ≠ ascii "RLKB" ∨ field bundle 4 2 ≠ 1 ∨ field bundle 6 2 ≠ 4 ∨ slice bundle 40 24 ≠ zeros 24 then none
  else (List.range 4).mapM (bundleKernel bundle)

/-- The bundle's kernels go into slots 0 to 3. -/
def State.loadBundle (s : State) (ks : List Kernel) : State :=
  (ks.zipIdx).foldl (fun (s : State) (e : Kernel × Nat) => s.loadKernel e.2 e.1) s

end Sys2Proof.Machine
end

