-- ==== Sys2Proof/Machine/Ssp.lean ====
section
/-! DEFINITION. The serial sideband's slave port (R313 to R321). -/

namespace Sys2Proof.Machine

/-! ## Slots (Tables 12.8 to 12.10) -/

/-- The busy pattern. -/
def sspBusy : List Byte := [0xB5, 0, 0, 0, 0, 0, 0, 0]
/-- The IDLE response. -/
def sspIdle : List Byte := [6, 0, 0, 0, 0, 0, 0, 0]

def slotOp (r : List Byte) : Nat := field r 0 1 % 16
/-- The command byte names an operation: its upper half is the complement of the lower. -/
def slotValid (r : List Byte) : Bool := field r 0 1 / 16 == 15 - slotOp r && decide (slotOp r ≤ 7)
def slotIndex (r : List Byte) : Nat := field r 1 2
def slotSub (r : List Byte) : Nat := field r 3 1
def slotData (r : List Byte) : Nat := field r 4 4

/-- A response that echoes its request's index and subindex. -/
def slotAnswer (r : List Byte) (status data : Nat) : List Byte := toLE 1 status ++ slice r 1 3 ++ toLE 4 data
/-- The response of an abort code. -/
def slotAbort (r : List Byte) (code : Nat) : List Byte := slotAnswer r 2 code
/-- The response of a write. -/
def slotWritten (r : List Byte) : Answer → List Byte
  | .ok sh => slotAnswer r sh.toNat 0
  | .abort c => slotAbort r c
  | .none => slotAnswer r 0 0

/-! ## Frames (R313, R314, R318, R319) -/

/-- IDENT is answered by logic. -/
def State.answerIdent (s : State) : State :=
  match s.ssp.request with
  | some r => if slotOp r = 6 then { s with ssp := { s.ssp with request := none, response := slotAnswer r 0 Config.productCode } } else s
  | none => s

/-- SSP_SELECT_FALL (R313): the response register goes into the slot register; an IDENT has been answered by then. -/
def execSspSelectFall (s : State) : Host.Outcome State Fault Refusal :=
  let t := s.answerIdent
  .next (if s.boot.coldHeld then s else { t with ssp := { t.ssp with shifted := t.ssp.response, selected := true, stalled := false } })

/-- A latched slot: discarded while the busy pattern went out, else a request, a NOP, or BAD_COMMAND (R316, R318). -/
def State.latchSlot (s : State) (r : List Byte) : State :=
  if s.ssp.shifted = sspBusy then { s with ssp := { s.ssp with slotsBusy := (s.ssp.slotsBusy + 1) % 2 ^ 32 } }
  else if slotValid r = false then
    { s with ssp := { s.ssp with badCommands := (s.ssp.badCommands + 1) % 2 ^ 32, response := slotAnswer r 3 0 } }
  else if slotOp r = 0 then s
  else if slotOp r = 6 then { s with ssp := { s.ssp with request := some r } }
  else { s with ssp := { s.ssp with request := some r, response := sspBusy } }

/-- SSP_SELECT_RISE (R314): `edges` clock edges were counted, and `slot` stands in the slot register. -/
def execSspSelectRise (edges : Nat) (slot : List Byte) (s : State) : Host.Outcome State Fault Refusal :=
  let p := s.ssp
  let t := { s with ssp := { p with selected := false } }
  .next (if p.selected = false then s
    else if edges ≠ 512 ∨ p.stalled = true then { t with ssp := { t.ssp with discarded := (p.discarded + 1) % 2 ^ 32 } }
    else ({ t with ssp := { t.ssp with latched := (p.latched + 1) % 2 ^ 32 } }.emit (.sspOut p.shifted)).latchSlot (padTo 8 slot))

/-- SSP_STALL (R321): once per low period; the frame latches nothing. -/
def execSspStall (s : State) : Host.Outcome State Fault Refusal :=
  .next (if s.ssp.selected ∧ s.ssp.stalled = false then { s with ssp := { s.ssp with stalled := true } }.logEvent 0x0801 else s)

/-! ## Requests (R316, R317, R320) -/

/-- A request is answered. -/
def State.sspDone (s : State) (answer : List Byte) : State := { s with ssp := { s.ssp with request := none, response := answer } }

/-- The request that waits is of the operation, and the service core runs: it is carried out; before ENUM, only ENUM is. -/
def State.serveSlot (s : State) (op : Nat) (f : List Byte → State × List Byte) : State :=
  match s.ssp.request with
  | none => s
  | some r =>
    if slotOp r ≠ op ∨ s.serviceUp = false then s
    else if op ≠ 7 ∧ s.boot.position = none then s.sspDone (slotAnswer r 4 0)
    else
      let (s, a) := f r
      s.sspDone a

/-- READ: 4 value bytes from an offset. -/
def State.slotRead (s : State) (r : List Byte) : List Byte :=
  match s.readObject (slotIndex r) (slotSub r) with
  | .error c => slotAbort r c
  | .ok v =>
    let off := slotData r
    if off % 4 ≠ 0 ∨ 65532 < off then slotAbort r abRange
    else if v ≠ [] ∧ v.length ≤ off then slotAbort r abLength
    else slotAnswer r 0 (field v off 4)

/-- LENGTH: the value's length. -/
def State.slotLength (s : State) (r : List Byte) : List Byte :=
  match s.readObject (slotIndex r) (slotSub r) with
  | .error c => slotAbort r c
  | .ok v => slotAnswer r 0 v.length

/-- The write of a request, with its answer. -/
def State.slotPut (s : State) (r data : List Byte) : State × List Byte :=
  let (s, a) := s.writeObject .ssp (slotIndex r) (slotSub r) data
  ({ s with dict := { s.dict with answer := a } }, slotWritten r a)

/-- WRITE: an object of 1 to 4 bytes. -/
def State.slotWrite (s : State) (r : List Byte) : State × List Byte :=
  match s.precheck (slotIndex r) (slotSub r) with
  | .error c => (s, slotAbort r c)
  | .ok o =>
    match o.ty.size with
    | none => (s, slotAbort r abLength)
    | some n => if 4 < n ∨ 2 ^ (8 * n) ≤ slotData r then (s, slotAbort r abLength) else s.slotPut r (toLE n (slotData r))

/-- STAGE: 4 bytes join the staging buffer of the request's target. -/
def State.slotStage (s : State) (r : List Byte) : State × List Byte :=
  let target := (slotIndex r, slotSub r)
  let kept := if s.ssp.target = some target then s.ssp.staging else []
  if 256 < kept.length + 4 then ({ s with ssp := { s.ssp with staging := [], target := none } }, slotAbort r abLength)
  else ({ s with ssp := { s.ssp with staging := kept ++ slice r 4 4, target := some target } }, slotAnswer r 0 0)

/-- WRITE_STAGED: the staging checks, then the write; the buffer is empty afterwards. -/
def State.slotWriteStaged (s : State) (r : List Byte) : State × List Byte :=
  let p := s.ssp
  let s := { s with ssp := { p with staging := [], target := none } }
  if (p.target ≠ none ∧ p.target ≠ some (slotIndex r, slotSub r)) ∨ p.staging.length < slotData r then (s, slotAbort r abRange)
  else s.slotPut r (p.staging.take (slotData r))

/-- ENUM (R320): the position is set once; fabric ports may start. -/
def State.enumerate (s : State) (r : List Byte) : State × List Byte :=
  let p := slotData r
  if 7 < p then (s, slotAbort r abRange)
  else match s.boot.position with
    | none => ({ s with boot := { s.boot with position := some p } }.startPorts, slotAnswer r 0 0)
    | some q =>
      if q = p then (s, slotAnswer r 0 0)
      else (s.logEvent 0x0205 (toLE 2 0x6000 ++ toLE 1 3 ++ toLE 1 Transport.ssp.code), slotAbort r abOnce)

/-- NOP (R316): the response register keeps its content. -/
def execNop (s : State) : Host.Outcome State Fault Refusal := .next s

/-- READ (R316). -/
def execRead (s : State) : Host.Outcome State Fault Refusal := .next (s.serveSlot 1 fun r => (s, s.slotRead r))

/-- WRITE (R316). -/
def execWrite (s : State) : Host.Outcome State Fault Refusal := .next (s.serveSlot 2 s.slotWrite)

/-- STAGE (R317). -/
def execStage (s : State) : Host.Outcome State Fault Refusal := .next (s.serveSlot 3 s.slotStage)

/-- WRITE_STAGED (R317). -/
def execWriteStaged (s : State) : Host.Outcome State Fault Refusal := .next (s.serveSlot 4 s.slotWriteStaged)

/-- LENGTH (R316). -/
def execLength (s : State) : Host.Outcome State Fault Refusal := .next (s.serveSlot 5 fun r => (s, s.slotLength r))

/-- IDENT (R319): answered in every state after cold reset. -/
def execIdent (s : State) : Host.Outcome State Fault Refusal := .next s.answerIdent

/-- ENUM (R320). -/
def execEnum (s : State) : Host.Outcome State Fault Refusal := .next (s.serveSlot 7 s.enumerate)

end Sys2Proof.Machine
end

