-- ==== Sys2Proof/Machine/Boot.lean ====
section
/-! DEFINITION. Bring-up: clocks, firmware, configuration, kernels, HBM, host and recovery (R310, R341 to R347). -/

namespace Sys2Proof.Machine

/-! ## Stages (Table 14.1) -/

def stClocks : Nat := 1
def stFirmware : Nat := 2
def stRecovery : Nat := 3
def stConfig : Nat := 4
def stKernels : Nat := 5
def stHost : Nat := 6
def stReady : Nat := 7

def State.setStage (s : State) (n : Nat) : State := { s with boot := { s.boot with stage := n } }

/-- A bit of BootFlags is set. -/
def State.bootFlag (s : State) (bit : Nat) : State := { s with boot := { s.boot with flags := s.boot.flags ||| 2 ^ bit } }

/-- Stage HOST: burrows follow their Enable objects, and fabric ports may start (R347). -/
def State.enterHost (s : State) : State :=
  ((List.range 64).foldl (fun (s : State) b => if s.burrowWanted b ∧ (s.burrow b).state = .disabled then s.burrowEnable b true else s)
    (s.setStage stHost)).startPorts

/-- KERNELS ends once the bundle is in and HBM training has ended (R345). -/
def State.advance (s : State) : State :=
  if s.boot.stage = stKernels ∧ s.boot.bundleDone ∧ s.boot.hbmDone then s.enterHost else s

/-- Recovery is entered (R346). -/
def State.enterRecovery (s : State) (r : RecoveryFor) : State :=
  { s with boot := { s.boot with stage := stRecovery, recovery := some r, recoveryStatus := 0 } }.logEvent 0x0103

/-- The dictionary service runs again: a request that the mailbox holds is served. -/
def State.bootOn (s : State) (stage : Nat) : State :=
  ({ s with boot := { s.boot with stage := stage, recovery := none } }.serveMailbox).advance

/-! ## Clocks and fuses (R57, R58, R341) -/

/-- The PLL has locked: the fuses are read and the firmware stage begins. -/
def State.readFuses (s : State) (fuse : FuseRead) : State :=
  let s := { s with boot := { s.boot with fuse := fuse, fuseFault := fuse.doubleError, stage := stFirmware } }
  let s := if fuse.corrected then s.logEvent 0x0107 else s
  if fuse.doubleError then
    ({ s with dict := { s.dict with safeCause := s.dict.safeCause ||| 2 ^ causeFuse } }.bootFlag 2).logEvent 0x0108
  else s

/-- COLD_RESET_RELEASE (R341): `locked` says whether the CCLK PLL locks; the straps are read. -/
def execColdResetRelease (locked : Bool) (fuse : FuseRead) (tray : Fin 16) (s : State) : Host.Outcome State Fault Refusal :=
  .next (if s.boot.coldHeld = false then s
    else
      let s := { s with boot := { s.boot with coldHeld := false, tray := tray.val, stage := stClocks } }.logEvent 0x0100
      if locked then s.readFuses fuse else s)

/-- PLL_LOCK_RETRY (R341). -/
def execPllLockRetry (locked : Bool) (fuse : FuseRead) (s : State) : Host.Outcome State Fault Refusal :=
  .next (if s.boot.stage = stClocks ∧ locked = true then s.readFuses fuse else s)

/-- PERST_DEASSERT (R342): after COLD_RST_N has been released, the host interface trains. -/
def execPerstDeassert (s : State) : Host.Outcome State Fault Refusal :=
  .next { s with boot := { s.boot with perstHeld := false, hostUp := s.boot.hostUp || !s.boot.coldHeld } }

/-! ## Firmware (R310, R343) -/

/-- A firmware header that passes R310 and R343. -/
def firmwareHeaderOk (h : List Byte) : Bool :=
  slice h 0 4 == ascii "RLBT" && field h 8 4 == crc32c (h.take 8) && decide (0 < field h 4 4 ∧ field h 4 4 ≤ 1572864)
    && slice h 20 44 == zeros 44

/-- The firmware runs from service core SRAM, and boot goes on at CONFIG. -/
def State.startFirmware (s : State) (h image : List Byte) (secondary : Bool) : State :=
  { s with boot := { s.boot with fwVersion := field h 12 4, fwEntry := field h 16 4, fwImage := image, secondary := secondary
                                 firmwareOk := true, stage := stConfig } }

/-- The firmware at a flash address, when it passes its checks: header and image. -/
def State.flashFirmware (s : State) (a : Nat) : Option (List Byte × List Byte) :=
  let h := s.flashRead a 64
  if firmwareHeaderOk h = false then none
  else
    let image := s.flashRead (a + 0x1000) (field h 4 4)
    if ecdsaVerify Config.bootKey (h ++ image) (s.flashRead (a + 0x1000 + field h 4 4) 96) then some (h, image) else none

/-- A cold boot's firmware: primary, secondary, or recovery (R310). -/
def State.coldFirmware (s : State) : State :=
  match s.flashFirmware 0, s.flashFirmware 0x200000 with
  | some (h, image), _ => (s.startFirmware h image false).serveMailbox
  | none, some (h, image) => (((s.startFirmware h image true).bootFlag 0).logEvent 0x0102).serveMailbox
  | none, none => s.enterRecovery .firmware

/-- A warm reset's firmware re-check (Table 14.3): no flash read; what the reset left to log is logged as boot resumes. -/
def State.warmFirmware (s : State) : State :=
  let s := s.logEvent 0x0101
  let s := if s.boot.watchdogLog then s.logEvent 0x0106 else s
  let s := if s.boot.storeBroken then s.logEvent 0x0202 else s
  let s := { s with boot := { s.boot with watchdogLog := false, storeBroken := false } }
  s.bootOn (if s.boot.configDone then stKernels else stConfig)

/-- FIRMWARE_READ_DONE (R310, R343). -/
def execFirmwareReadDone (s : State) : Host.Outcome State Fault Refusal :=
  .next (if s.boot.stage ≠ stFirmware then s
    else match s.boot.warmBoot with
      | some _ => s.warmFirmware
      | none => s.coldFirmware)

/-! ## Configuration, kernels and HBM (R283, R344, R347) -/

/-- The blocks take up the loaded base layer: CAN FD settings and flow channels. -/
def State.takeConfig (s : State) : State :=
  let s := { s with can := { s.can with node := s.cfg 0x1200 1, rate := s.cfg 0x1200 2, enable := s.cfg 0x1200 11 == 1 } }
  (s.channelEnable 0 (s.cfg 0x7010 1 == 1)).channelEnable 1 (s.cfg 0x7011 1 == 1)

/-- CONFIG_LOAD (R282, R283). -/
def execConfigLoad (s : State) : Host.Outcome State Fault Refusal :=
  .next (if s.boot.stage ≠ stConfig ∨ s.boot.configDone = true then s
    else
      let s := s.loadConfig.takeConfig
      { s with boot := { s.boot with configDone := true, stage := stKernels } }.advance)

/-- The bundle is in. -/
def State.takeBundle (s : State) (ks : List Kernel) : State :=
  let s := s.loadBundle ks
  { s with boot := { s.boot with bundleDone := true } }

/-- BUNDLE_LOAD (R344). -/
def execBundleLoad (s : State) : Host.Outcome State Fault Refusal :=
  .next (if s.boot.stage ≠ stKernels ∨ s.boot.bundleDone = true then s
    else match parseBundle (s.flashRead 0x400000 0x40000) with
      | some ks => (s.takeBundle ks).advance
      | none => ((s.bootFlag 3).logEvent 0x0105).enterRecovery .bundle)

/-- HBM_TRAINING_DONE (R347): pseudo-channels that failed are not healthy, every frame holds zeros, and D is set. -/
def execHbmTrainingDone (failed : List (Fin 256)) (s : State) : Host.Outcome State Fault Refusal :=
  .next (if s.boot.firmwareOk = false ∨ s.boot.hbmDone = true ∨ s.boot.stage < stRecovery then s
    else
      let s := failed.foldl (fun (s : State) p => s.retirePc p.val) { s with mem := [], boot := { s.boot with hbmDone := true } }
      let s := { s with bw := { s.bw with deliverable := deliverableOf s.bw.healthy s.bw.channelTokens } }
      (s.rescale.segmentAudit).advance)

/-- BOOT_COMPLETE (R289, R292, R345): the mode, the lock, READY. -/
def execBootComplete (s : State) : Host.Outcome State Fault Refusal :=
  .next (if s.boot.stage ≠ stHost ∨ s.boot.scrubbing = true then s
    else
      let mode := if s.deviceCause then 4 else s.cfg 0x2001 5
      let changed : List Nat := s.changedKeys s.overlay (s.overlayOf mode)
      let keys := s.dict.heldKeys
      let s := { s with dict := { s.dict with mode := mode, modeRequest := mode, applying := false, target := mode, forced := false, hostWas := false
                                              safeWaiting := false, overlayOld := none, heldOld := [], heldKeys := [] } }
      let s := (changed ++ keys).foldl (fun (s : State) k => s.react (k / 256) (k % 256)) s
      let s := if s.cfg 0x1F00 3 = 1 then s.lockAll else s
      let s := if s.boot.warmBoot.isNone then { s with ftf := { s.ftf with lastValid := s.clk.now } } else s
      { s with boot := { s.boot with stage := stReady, warmBoot := none } })

/-! ## Recovery (R346) -/

/-- The firmware in the recovery window, when it passes its checks. -/
def windowFirmware (w : List Byte) : Option (List Byte × List Byte) :=
  let h := slice w 0 64
  let n := field h 4 4
  if firmwareHeaderOk h = false ∨ w.length < 0x1000 + n + 96 then none
  else if ecdsaVerify Config.bootKey (h ++ slice w 0x1000 n) (slice w (0x1000 + n) 96) then some (h, slice w 0x1000 n) else none

/-- RecoveryStatus. -/
def State.recoveryStatus (s : State) (n : Nat) : State := { s with boot := { s.boot with recoveryStatus := n } }

/-- RecoveryControl is written: the device is in recovery for that kind of image. -/
def State.inRecovery (s : State) (window : List Byte) (r : RecoveryFor) (pass : State → State) : State :=
  if s.boot.stage ≠ stRecovery ∨ s.boot.hostUp = false then s
  else
    let s := { s with boot := { s.boot with recoveryLength := window.length } }
    if s.boot.recovery = some r then pass s else s.recoveryStatus 2

/-- Recovered firmware boots. -/
def State.bootRecovered (s : State) (h image : List Byte) : State :=
  (((((s.recoveryStatus 4).startFirmware h image false).bootFlag 1).logEvent 0x0104)).bootOn stConfig

/-- Bytes are written to a flash area, header last; one that fails leaves bytes the spec does not state. -/
def State.writeArea (s : State) (a size : Nat) (bs : List Byte) (ok : Bool) : State :=
  let s := s.flashErase a size
  if ok then s.flashWrite a bs else s.flashSpoil a bs.length

/-- RECOVERY_BOOT_FIRMWARE (R346). -/
def execRecoveryBootFirmware (window : List Byte) (s : State) : Host.Outcome State Fault Refusal :=
  .next (s.inRecovery window .firmware fun s =>
    match windowFirmware window with
    | none => s.recoveryStatus 2
    | some (h, image) => s.bootRecovered h image)

/-- RECOVERY_WRITE_FIRMWARE (R346). -/
def execRecoveryWriteFirmware (window : List Byte) (written : Bool) (s : State) : Host.Outcome State Fault Refusal :=
  .next (s.inRecovery window .firmware fun s =>
    match windowFirmware window with
    | none => s.recoveryStatus 2
    | some (h, image) =>
      let s := s.writeArea 0 0x200000 (window.take (0x1000 + image.length + 96)) written
      if written then s.bootRecovered h image else s.recoveryStatus 3)

/-- RECOVERY_TAKE_BUNDLE (R346). -/
def execRecoveryTakeBundle (window : List Byte) (s : State) : Host.Outcome State Fault Refusal :=
  .next (s.inRecovery window .bundle fun s =>
    match parseBundle (window.take 0x40000) with
    | none => s.recoveryStatus 2
    | some ks => ((s.recoveryStatus 4).takeBundle ks).bootOn stKernels)

/-- RECOVERY_WRITE_BUNDLE (R346). -/
def execRecoveryWriteBundle (window : List Byte) (written : Bool) (s : State) : Host.Outcome State Fault Refusal :=
  .next (s.inRecovery window .bundle fun s =>
    match parseBundle (window.take 0x40000) with
    | none => s.recoveryStatus 2
    | some ks =>
      let s := s.writeArea 0x400000 0x40000 (window.take 0x40000) written
      if written then ((s.recoveryStatus 4).takeBundle ks).bootOn stKernels else s.recoveryStatus 3)

end Sys2Proof.Machine
end

