-- ==== Sys2Proof/Machine/Coolant.lean ====
section
/-! DEFINITION. The commands of the front end whose cause is time or a measurement (R325 to R332). -/

namespace Sys2Proof.Machine

/-- SHOT_START (R324). -/
def execShotStart (s : State) : Host.Outcome State Fault Refusal := .next s.startNext

/-- SHOT_RESULT (R326 to R328). -/
def execShotResult (c : Fin 2) (measured : Option ShotMeasure) (s : State) : Host.Outcome State Fault Refusal :=
  .next (s.shotEnds c.val measured)

/-- FLOW_STALE (R328). -/
def execFlowStale (c : Fin 2) (s : State) : Host.Outcome State Fault Refusal := .next (s.flowStale c.val)

/-- RING_DOWN_END (R325, R333). -/
def execRingDownEnd (c : Fin 2) (s : State) : Host.Outcome State Fault Refusal := .next (s.ringDownEnds c.val)

/-- RTD_RESULT (R330). -/
def execRtdResult (r : Fin 2) (ref1 rtd ref2 : Option Nat) (s : State) : Host.Outcome State Fault Refusal :=
  .next (s.rtdEnds r.val ref1 rtd ref2)

/-- NO_FLOW_TIMEOUT (R332): 5 s after the last valid reading, counted from the end of boot. -/
def execNoFlowTimeout (s : State) : Host.Outcome State Fault Refusal :=
  .next (if s.boot.stage = 7 ∧ 5000000 ≤ s.clk.now - s.ftf.lastValid then s.forceSafe causeCoolant else s)

end Sys2Proof.Machine
end

