-- ==== Sys2Proof/Machine/Host.lean ====
section
/-! DEFINITION. The commands of the host interface: doorbells, queues, fetch, admission, completions, virtual functions
(R173 to R181, R187 to R191). -/

namespace Sys2Proof.Machine

/-- The host reaches a virtual function's registers: the function is present and memory space is active (R342). -/
def State.vfReachable (s : State) (b : Nat) : Bool := s.vfPresent b && decide (6 ≤ s.boot.stage)

/-- A doorbell write reaches its queue: through the virtual function, or through the alias while it is active (R173). -/
def State.doorbellReaches (s : State) (byAlias : Bool) (b : Nat) : Bool :=
  decide (6 ≤ s.boot.stage) && (if byAlias then s.cfg 0x2130 1 == 1 else s.vfPresent b)

/-- A doorbell write is ignored: DOORBELL_INVALID is set and an event logged (R176). -/
def State.doorbellInvalid (s : State) (b q : Nat) : State := (s.flagBurrow b 0).logBurrow b 0x0501 (toLE 1 q)

/-- SQ_TAIL_DOORBELL (R176). -/
def execSqTailDoorbell (byAlias : Bool) (b : Fin 64) (q : Fin 16) (value : Nat) (s : State) : Host.Outcome State Fault Refusal :=
  let sl := s.slot b q
  let tail := value % 65536
  let moved : QSlot := { sl with tail := tail }
  .next (if s.doorbellReaches byAlias b = false then s
    else if sl.status ≠ .live ∨ sl.regs.sqEntries ≤ tail ∨ moved.waiting < sl.waiting then s.doorbellInvalid b q
    else s.setSlot b q moved)

/-- Entries posted and not yet returned (R178). -/
def QSlot.unconsumed (sl : QSlot) : Nat := (sl.cqTail + sl.regs.cqEntries - sl.cqHead) % max sl.regs.cqEntries 1

/-- CQ_HEAD_DOORBELL (R178): also while the slot drains or is HALTED, since its completions still wait (R175, R189). -/
def execCqHeadDoorbell (byAlias : Bool) (b : Fin 64) (q : Fin 16) (value : Nat) (s : State) : Host.Outcome State Fault Refusal :=
  let sl := s.slot b q
  let head := value % 65536
  let moved : QSlot := { sl with cqHead := head }
  .next (if s.doorbellReaches byAlias b = false then s
    else if sl.status = .absent ∨ sl.status = .refused then s.doorbellInvalid b q
    else if sl.regs.cqEntries ≤ head ∨ sl.unconsumed < (head + sl.regs.cqEntries - sl.cqHead) % max sl.regs.cqEntries 1 then s.doorbellInvalid b q
    else s.setSlot b q moved)

/-- QUEUE_CREATE (R174, R175, R177). -/
def execQueueCreate (b : Fin 64) (q : Fin 16) (regs : SlotRegs) (s : State) : Host.Outcome State Fault Refusal :=
  let sl := s.slot b q
  .next (if s.vfReachable b = false then s
    else match sl.status with
      | .live => s
      | .deleting => s.setSlot b q { sl with pendingCreate := true }
      | .halted => s.setSlot b q { sl with regs := regs }
      | _ => (s.setSlot b q { sl with regs := regs }).createQueue b q)

/-- QUEUE_DELETE (R175). -/
def execQueueDelete (b : Fin 64) (q : Fin 16) (s : State) : Host.Outcome State Fault Refusal :=
  let sl := s.slot b q
  .next (if s.vfReachable b = false then s
    else match sl.status with
      | .live => s.deleteSlot b q
      | .halted => s.deleteSlot b q
      | .deleting => s.setSlot b q { sl with pendingCreate := false }
      | _ => s)

/-- HOST_FETCH (R90, R177). -/
def execHostFetch (b : Fin 64) (q : Fin 16) (data : List Byte) (s : State) : Host.Outcome State Fault Refusal :=
  .next (s.hostFetch b q data)

/-- ADMISSION (R134). -/
def execAdmission (s : State) : Host.Outcome State Fault Refusal := .next s.admissionStep

/-- A completion entry (Table 4.10). -/
def completionEntry (c : Completion) (phase : Bool) : List Byte :=
  toLE 2 c.origin.cmdId ++ toLE 2 c.origin.queue ++ toLE 2 c.status ++ toLE 1 ((if phase then 1 else 0) + (if c.sealed then 2 else 0)) ++ [0]
    ++ toLE 4 c.count ++ toLE 4 c.lists ++ toLE 6 c.stamp ++ toLE 2 c.waves ++ zeros 8

/-- What a completion held returns: its completion slot, and a query's context (R50). -/
def State.releaseCompletion (s : State) (c : Completion) : State :=
  let s := s.giveBack 0x02 0 1
  match c.ctx with
  | some x => s.dropCtx x
  | none => s

/-- Interrupts of a posted entry (R180). -/
def State.countEntry (s : State) (b q : Nat) : State :=
  let sl := s.slot b q
  let first := if sl.unsignalled = 0 then s.clk.now else sl.firstUnsignalled
  let s := s.setSlot b q { sl with unsignalled := sl.unsignalled + 1, firstUnsignalled := first }
  if sl.status ≠ .live ∨ max sl.regs.coalesceCount 1 ≤ sl.unsignalled + 1 then s.signal b q else s

/-- The oldest completion of a queue is posted, or dropped by its generation tag (R178, R188). -/
def State.postCompletion (s : State) (b q : Nat) : State :=
  match takeFirst (fun c => c.origin.burrow == b && c.origin.queue == q) s.host.waiting with
  | none => s
  | some (c, rest) =>
    let v := s.burrow b
    let sl := s.slot b q
    let out := { s with host := { s.host with waiting := rest } }
    if v.discard ∨ c.origin.gen ≠ v.generation then
      (out.setBurrow b { v with discarded := (v.discarded + 1) % 2 ^ 32 }).releaseCompletion c |>.settleSlot b q
    else if sl.regs.cqEntries - 1 ≤ sl.unconsumed then s
    else
      let s := out.emit (.write (b + 1) (sl.regs.cqBase + 32 * sl.cqTail) (completionEntry c sl.phase) false)
      let tail := (sl.cqTail + 1) % max sl.regs.cqEntries 1
      let s := s.setSlot b q { sl with cqTail := tail, phase := if tail = 0 then !sl.phase else sl.phase }
      ((s.releaseCompletion c).countEntry b q).settleSlot b q

/-- COMPLETION_WRITE (R179). -/
def execCompletionWrite (b : Fin 64) (q : Fin 16) (s : State) : Host.Outcome State Fault Refusal := .next (s.postCompletion b q)

/-- COALESCE_TIMER (R180): CoalesceTime after the first entry not yet signalled. -/
def execCoalesceTimer (b : Fin 64) (q : Fin 16) (s : State) : Host.Outcome State Fault Refusal :=
  let sl := s.slot b q
  .next (if sl.status = .live ∧ sl.regs.coalesceTime ≠ 0 ∧ 0 < sl.unsignalled ∧ sl.firstUnsignalled + sl.regs.coalesceTime ≤ s.clk.now
    then s.signal b q else s)

/-- MSIX_VECTOR_UNMASK (R180): a held message is sent. -/
def execMsixVectorUnmask (fn : Fin 65) (vec : Fin 32) (addr data : Nat) (s : State) : Host.Outcome State Fault Refusal :=
  let old := Map.getD s.host.vectors (32 * fn + vec) {}
  let v : Vector := { addr := addr, data := data, masked := false, pending := false }
  .next (if fn.val = 0 ∧ 16 ≤ vec.val then s
    else
      let s := { s with host := { s.host with vectors := Map.put s.host.vectors (32 * fn + vec) v } }
      if old.pending then s.emit (.msix fn vec addr data) else s)

/-- VF_FLR (R190). -/
def execVfFlr (b : Fin 64) (s : State) : Host.Outcome State Fault Refusal := .next (s.vfFlr b)

/-- PF_FLR (R191). -/
def execPfFlr (s : State) : Host.Outcome State Fault Refusal := .next s.pfFlr

/-- VF_ENABLE_CHANGE (R187, R191). -/
def execVfEnableChange (enable : Bool) (numVfs : Nat) (s : State) : Host.Outcome State Fault Refusal := .next (s.vfChange enable numVfs)

/-- BURROW_DRAIN_END (R189, R190). -/
def execBurrowDrainEnd (b : Fin 64) (s : State) : Host.Outcome State Fault Refusal := .next (s.drainEnd b)

end Sys2Proof.Machine
end

