-- ==== Sys2Proof/Machine/Reset.lean ====
section
/-! DEFINITION. The resets of Table 14.3: warm reset with and without retention (R348, R349, R357), cold reset and the PCIe
reset. -/

namespace Sys2Proof.Machine

/-! ## What each part of the device becomes (Tables 14.3 and 14.11) -/

/-- Boot starts again at FIRMWARE; RETAINED (bit 4 of BootFlags) says whether HBM was kept, and the fence is gone (R355). -/
def Boot.warm (b : Boot) (retain : Bool) : Boot :=
  { b with stage := 2, warmBoot := some retain, warmPending := none, recovery := none, recoveryStatus := 0
           flags := (if b.flags.testBit 4 then b.flags - 16 else b.flags) + (if retain then 16 else 0)
           creditFault := false, fenced := false, fenceFlag := false, scrubbing := retain
           bundleDone := b.bundleDone && retain, hbmDone := b.hbmDone && retain }

/-- Transfers are abandoned; the registers stay. -/
def Vdp.warm (v : Vdp) : Vdp := { v with busy := false, mailbox := {}, can := {} }

/-- The slave port's request and staging are lost, its response is IDLE; a frame of the master port is lost. -/
def Ssp.warm (p : Ssp) : Ssp :=
  { p with status := if p.frame.isSome then 0 else p.status, frame := none
           response := sspIdle, request := none, staging := [], target := none }

/-- No transition is in progress; the writes one held back, and an edited overlay, are in force. -/
def Dict.warm (d : Dict) : Dict :=
  { d with answer := .none, applying := false, target := d.mode, forced := false, hostWas := false, safeWaiting := false
           safeCause := if d.safeCause.testBit 0 then d.safeCause - 1 else d.safeCause, heldOld := [], heldKeys := [], overlayOld := none }

/-- A burrow is DISABLED with its generation increased by 1; its Enable object says whether it comes back. -/
def Burrow.warm (v : Burrow) (wanted : Bool) : Burrow :=
  { generation := (v.generation + 1) % 2 ^ 16, pendingEnable := wanted, errorFlags := v.errorFlags, discarded := v.discarded, admitted := v.admitted }

/-- Every burrow is DISABLED, which is a change of State (R187) for one that was not, and every queue slot ABSENT; no
command is left. Configuration space and vectors are kept. -/
def State.warmHost (s : State) : State :=
  let s := (List.range 64).foldl (fun (s : State) b => if (s.burrow b).resetting then s.resetVf b else s) s
  let h := s.host
  let moved := (List.range 64).filter fun b => (s.burrow b).state ≠ .disabled
  let note := fun (s' : State) b =>
    (s'.raise 0 3).logBurrow b 0x0500 (toLE 1 (s.burrow b).state.code ++ toLE 1 0 ++ toLE 2 ((s.burrow b).generation + 1))
  let host : HostIf :=
    { vfEnable := h.vfEnable, numVfs := h.numVfs, vectors := h.vectors
      burrows := (List.range 64).map fun b => (b, (s.burrow b).warm (s.burrowWanted b))
      slots := h.slots.map fun (e : Nat × QSlot) => (e.1, { regs := e.2.regs }) }
  moved.foldl note { s with host := host }

/-- A port is DISABLED; its statistics and codec tables stay. -/
def Port.warm (v : Port) : Port :=
  { neighbour := v.neighbour, replays := v.replays, retrains := v.retrains, generation := v.generation, codec := v.codec }

/-- No message, request or link state is left. -/
def Fabric.warm (f : Fabric) : Fabric :=
  { f with ports := f.ports.map fun (e : Nat × Port) => (e.1, e.2.warm), transit := [], inbox := [], requests := [], queued := [] }

/-- A flow channel returns to IDLE, or to DISABLED when its Enable is 0. -/
def Channel.warm (c : Channel) (on : Bool) : Channel := { c with state := if on then .idle else .disabled, ringing := false, pendingEnable := false }

/-- Measurements in flight and queued are lost. -/
def State.warmFtf (s : State) : State :=
  let f := s.ftf
  { s with ftf := { f with running := none, waiting := []
                           channelA := f.channelA.warm (s.cfg 0x7010 1 == 1), channelB := f.channelB.warm (s.cfg 0x7011 1 == 1)
                           rtd0 := { f.rtd0 with busy := false }, rtd1 := { f.rtd1 with busy := false } } }

/-- A segment whose page movement was under way is where it was before; held kill writes and fetch tags are gone. -/
def Seg.warm (v : Seg) : Seg :=
  let v := { v with tags := 0, kills := [], retried := false, copying := false }
  match v.state with
  | .pagingOut => { v with state := .resident, slot := none }
  | .pagingIn => { v with state := .paged, frame := none }
  | _ => v

/-- A tile keeps its SRAM, pinned block and FAULTED marks (and a TileReset still due), and nothing in progress. -/
def Tile.warm (t : Tile) : Tile :=
  { mem := t.mem, block := t.block, faulted := t.faulted, resetPending := t.resetPending, invocations := t.invocations }

/-- A sequencer keeps what is in HBM: the ID map, the anchor's decisions, a run that has been decided. -/
def Sequencer.warm (q : Sequencer) : Sequencer :=
  { q with queue := [], current := none, held := false, compactNow := [], compactNext := [], creation := none, drop := none
           run := q.run.bind fun r => if r.phase = .publish then some r else none }

/-- A prepared generation that may still come into force: its root is written, and its sequencer is elsewhere or decided it. -/
def Coll.pendingRoot (c : Coll) : Bool :=
  match c.prepared with
  | none => false
  | some p => p.root.isSome && (c.seqr.map fun q => q.decided.contains p.generation).getD true

/-- A collection across a warm reset with retention: it waits for the scrub; no reader of an older generation is left. -/
def Coll.warm (c : Coll) : Coll :=
  { c with scrubbing := true, readOnly := false, old := [], oldLocator := [], oldBlocks := [], pieces := [], pull := none, unflushed := none
           reported := [], load := if c.load = .running ∧ c.pendingRoot = false then .notLoaded else c.load, seqr := c.seqr.map Sequencer.warm }

/-! ## Warm reset (R348, R349) -/

/-- What both kinds of warm reset end. -/
def State.warmCommon (s : State) (retain : Bool) : State :=
  let s := (List.range 8).foldl State.stopGenerator s.breakStore
  let keys := s.dict.heldKeys ++ s.changedKeys s.overlay (s.overlayOf s.dict.mode)
  let s := { s with dict := s.dict.warm }
  let s := { s.warmFtf.warmHost with
    boot := s.boot.warm retain, vdp := s.vdp.warm, ssp := s.ssp.warm, fab := s.fab.warm, sched := { tags := s.sched.tags }, stash := []
    cred := { s.cred with pools := [] }, bw := { s.bw with pool := 0, bucket := [], spent := [] }
    seg := { s.seg with pagingOut := false, frozen := false, wanted := [] } }
  keys.foldl (fun (s : State) k => s.react (k / 256) (k % 256)) s

/-- HBM and tile SRAM are kept; the scrub follows in boot (R138, R139). Creations in progress are gone, blocks that no
generation in force uses leave their tiles, and replaced payload versions have no reader left. -/
def State.warmRetained (s : State) : State :=
  let colls := (s.colls.filter fun (e : Nat × Coll) => e.2.created).map fun (e : Nat × Coll) => (e.1, e.2.warm)
  let s := { s with colls := colls, seg := { s.seg with map := s.seg.map.map fun (e : Nat × Seg) => (e.1, e.2.warm) }
                    grid := { s.grid with tiles := s.grid.tiles.map fun (e : Nat × Tile) => (e.1, e.2.warm) } }
  let s := s.pay.old.foldl (fun (s : State) v => s.freeGranules v.2) { s with pay := { s.pay with old := [] } }
  let kept := (colls.map fun (e : Nat × Coll) => (e.2.blocks ++ (e.2.prepared.map (·.blocks)).getD []).map Prod.snd).flatten
  let s := s.clearBlocks ((List.range 256).filter fun t => (s.tile t).block.isSome && !kept.contains t)
  s.recount

/-- HBM, tile SRAM, kernels and every collection are gone; the other devices of each shard map are told (R349). -/
def State.warmEmptied (s : State) : State :=
  let told := s.colls.filter fun (e : Nat × Coll) => e.2.dropped == false
  let s := { s with mem := [], colls := [], pay := {}, grid := { faults := s.grid.faults }
                    seg := { s.seg with map := [], live := 0, retiring := 0, free := s.seg.total } }
  told.foldl (fun (s : State) (e : Nat × Coll) =>
    s.ctrlAll e.1 ((mapDevices e.2.shards).filter (· != s.self)) opLost 0 s.self 0 0 0) s

/-- The warm reset takes place. -/
def State.warmReset (s : State) (retain : Bool) : State :=
  let s := s.warmCommon retain
  if retain then s.warmRetained else s.warmEmptied

/-- WARM_RESET_EXECUTE (R348): 2 ms after the trigger. -/
def execWarmResetExecute (s : State) : Host.Outcome State Fault Refusal :=
  .next (match s.boot.warmPending with
    | none => s
    | some (retain, at_) => if at_ ≤ s.clk.now then s.warmReset retain else s)

/-- WARM_RST_N (R348): held low for 1 µs or more, with retention. -/
def execWarmRstN (s : State) : Host.Outcome State Fault Refusal :=
  .next (if s.boot.coldHeld ∨ s.boot.firmwareOk = false then s else s.triggerWarm true)

/-- WATCHDOG (R348): the dictionary service missed its heartbeat; a reset with retention, logged after it. -/
def execWatchdog (s : State) : Host.Outcome State Fault Refusal :=
  .next (if s.serviceUp = false then s
    else
      let t := s.triggerWarm true
      { t with boot := { t.boot with watchdogLog := true } })

/-! ## The other resets -/

/-- PCIE_HOT_RESET (Table 14.3): the virtual functions are gone, and the physical function resets (R191). -/
def execPcieHotReset (s : State) : Host.Outcome State Fault Refusal := .next (s.vfChange false 0).pfFlr

/-- COLD_RST_N_ASSERTED (Table 14.3): everything but flash and hard repairs is as power-up leaves it. -/
def execColdRstNAsserted (s : State) : Host.Outcome State Fault Refusal :=
  .next { State.reset with flash := s.flash, diag := { hard := s.diag.hard }, pending := s.pending, draws := s.draws, out := s.out
                           boot := { perstHeld := s.boot.perstHeld } }

end Sys2Proof.Machine
end

