-- ==== Sys2Proof/Machine/Dispatch.lean ====
section
/-! DEFINITION. One arm per command: one direct call of its meaning. -/

namespace Sys2Proof.Machine

/-- The meaning of a command. -/
def exec (i : Instr) (s : State) : Host.Outcome State Fault Refusal :=
  match i with
  | .sqTailDoorbell byAlias b q value => Sys2Proof.Machine.execSqTailDoorbell byAlias b q value s
  | .cqHeadDoorbell byAlias b q value => Sys2Proof.Machine.execCqHeadDoorbell byAlias b q value s
  | .queueCreate b q regs => Sys2Proof.Machine.execQueueCreate b q regs s
  | .queueDelete b q => Sys2Proof.Machine.execQueueDelete b q s
  | .hostFetch b q data => Sys2Proof.Machine.execHostFetch b q data s
  | .hostReadError what => Sys2Proof.Machine.execHostReadError what s
  | .admission => Sys2Proof.Machine.execAdmission s
  | .query => Sys2Proof.Machine.execQuery s
  | .insert => Sys2Proof.Machine.execInsert s
  | .delete => Sys2Proof.Machine.execDelete s
  | .upsert => Sys2Proof.Machine.execUpsert s
  | .select => Sys2Proof.Machine.execSelect s
  | .payloadRead => Sys2Proof.Machine.execPayloadRead s
  | .payloadWrite data => Sys2Proof.Machine.execPayloadWrite data s
  | .fence => Sys2Proof.Machine.execFence s
  | .fenceComplete b q => Sys2Proof.Machine.execFenceComplete b q s
  | .collectionCreate => Sys2Proof.Machine.execCollectionCreate s
  | .collectionDrop => Sys2Proof.Machine.execCollectionDrop s
  | .compact => Sys2Proof.Machine.execCompact s
  | .loadLists data => Sys2Proof.Machine.execLoadLists data s
  | .snapshotExport => Sys2Proof.Machine.execSnapshotExport s
  | .programLoad data => Sys2Proof.Machine.execProgramLoad data s
  | .completionWrite b q => Sys2Proof.Machine.execCompletionWrite b q s
  | .coalesceTimer b q => Sys2Proof.Machine.execCoalesceTimer b q s
  | .msixVectorUnmask fn vec addr data => Sys2Proof.Machine.execMsixVectorUnmask fn vec addr data s
  | .burrowEnable via b enable => Sys2Proof.Machine.execBurrowEnable via b enable s
  | .vfFlr b => Sys2Proof.Machine.execVfFlr b s
  | .pfFlr => Sys2Proof.Machine.execPfFlr s
  | .vfEnableChange enable numVfs => Sys2Proof.Machine.execVfEnableChange enable numVfs s
  | .burrowDrainEnd b => Sys2Proof.Machine.execBurrowDrainEnd b s
  | .stampReq idx => Sys2Proof.Machine.execStampReq idx s
  | .stampRsp idx => Sys2Proof.Machine.execStampRsp idx s
  | .queryDispatch x => Sys2Proof.Machine.execQueryDispatch x s
  | .rankingMerge x => Sys2Proof.Machine.execRankingMerge x s
  | .listIssue idx => Sys2Proof.Machine.execListIssue idx s
  | .segmentDelivery idx found fromSlot => Sys2Proof.Machine.execSegmentDelivery idx found fromSlot s
  | .needMask t => Sys2Proof.Machine.execNeedMask t s
  | .sorterPost sorter => Sys2Proof.Machine.execSorterPost sorter s
  | .waveEnd x => Sys2Proof.Machine.execWaveEnd x s
  | .queryDeadline x => Sys2Proof.Machine.execQueryDeadline x s
  | .resultWrite x => Sys2Proof.Machine.execResultWrite x s
  | .waveReq idx => Sys2Proof.Machine.execWaveReq idx s
  | .waveRsp idx => Sys2Proof.Machine.execWaveRsp idx s
  | .release idx => Sys2Proof.Machine.execRelease idx s
  | .remoteStateTimeout x => Sys2Proof.Machine.execRemoteStateTimeout x s
  | .requestLost idx => Sys2Proof.Machine.execRequestLost idx s
  | .mutationHandoff b q => Sys2Proof.Machine.execMutationHandoff b q s
  | .mutFwd idx => Sys2Proof.Machine.execMutFwd idx s
  | .mutRsp idx => Sys2Proof.Machine.execMutRsp idx s
  | .sequencerAccept g => Sys2Proof.Machine.execSequencerAccept g s
  | .stashWrite idx => Sys2Proof.Machine.execStashWrite idx s
  | .killWrite idx => Sys2Proof.Machine.execKillWrite idx s
  | .stashAck idx => Sys2Proof.Machine.execStashAck idx s
  | .killAck idx => Sys2Proof.Machine.execKillAck idx s
  | .revoke idx => Sys2Proof.Machine.execRevoke idx s
  | .revokeAck idx => Sys2Proof.Machine.execRevokeAck idx s
  | .stashFlush g => Sys2Proof.Machine.execStashFlush g s
  | .compactTriggerEval => Sys2Proof.Machine.execCompactTriggerEval s
  | .compactCopyDone g => Sys2Proof.Machine.execCompactCopyDone g s
  | .collCtrlPrepare idx => Sys2Proof.Machine.execCollCtrlPrepare idx s
  | .collCtrlFlip idx => Sys2Proof.Machine.execCollCtrlFlip idx s
  | .ctrlAck idx => Sys2Proof.Machine.execCtrlAck idx s
  | .collCtrlCreate idx => Sys2Proof.Machine.execCollCtrlCreate idx s
  | .collCtrlDrop idx => Sys2Proof.Machine.execCollCtrlDrop idx s
  | .collCtrlScrubState idx => Sys2Proof.Machine.execCollCtrlScrubState idx s
  | .collCtrlLoadPrepare idx => Sys2Proof.Machine.execCollCtrlLoadPrepare idx s
  | .collCtrlLoadAbandon idx => Sys2Proof.Machine.execCollCtrlLoadAbandon idx s
  | .collCtrlLost idx => Sys2Proof.Machine.execCollCtrlLost idx s
  | .segmentFree g => Sys2Proof.Machine.execSegmentFree g s
  | .startupScrub => Sys2Proof.Machine.execStartupScrub s
  | .listPull idx => Sys2Proof.Machine.execListPull idx s
  | .listData idx => Sys2Proof.Machine.execListData idx s
  | .imagePull idx data => Sys2Proof.Machine.execImagePull idx data s
  | .imageData idx => Sys2Proof.Machine.execImageData idx s
  | .refused idx => Sys2Proof.Machine.execRefused idx s
  | .hbmReadDone frame burst found => Sys2Proof.Machine.execHbmReadDone frame burst found s
  | .patrolScrub frame burst found => Sys2Proof.Machine.execPatrolScrub frame burst found s
  | .pageOutStart => Sys2Proof.Machine.execPageOutStart s
  | .pageOutDone seg => Sys2Proof.Machine.execPageOutDone seg s
  | .pageInStart seg => Sys2Proof.Machine.execPageInStart seg s
  | .pageInDone seg data => Sys2Proof.Machine.execPageInDone seg data s
  | .pcRetired pc => Sys2Proof.Machine.execPcRetired pc s
  | .retirePc via pc => Sys2Proof.Machine.execRetirePc via pc s
  | .evacuationCopyDone seg found => Sys2Proof.Machine.execEvacuationCopyDone seg found s
  | .tokenRefill => Sys2Proof.Machine.execTokenRefill s
  | .tokenCharge b n => Sys2Proof.Machine.execTokenCharge b n s
  | .guaranteeWrite via b value => Sys2Proof.Machine.execGuaranteeWrite via b value s
  | .generatorStart via st => Sys2Proof.Machine.execGeneratorStart via st s
  | .generatorStop via st => Sys2Proof.Machine.execGeneratorStop via st s
  | .generatorDone st found => Sys2Proof.Machine.execGeneratorDone st found s
  | .readSpareResources via st => Sys2Proof.Machine.execReadSpareResources via st s
  | .softRepair via st => Sys2Proof.Machine.execSoftRepair via st s
  | .clearSoftRepairs via st => Sys2Proof.Machine.execClearSoftRepairs via st s
  | .hardRepairWrite via st slot value => Sys2Proof.Machine.execHardRepairWrite via st slot value s
  | .portEnable via p enable => Sys2Proof.Machine.execPortEnable via p enable s
  | .linkFlit p flit => Sys2Proof.Machine.execLinkFlit p flit s
  | .dataFlit p flit => Sys2Proof.Machine.execDataFlit p flit s
  | .nak p flit => Sys2Proof.Machine.execNak p flit s
  | .replayTimeout p => Sys2Proof.Machine.execReplayTimeout p s
  | .retraining p => Sys2Proof.Machine.execRetraining p s
  | .retrainDone p flit => Sys2Proof.Machine.execRetrainDone p flit s
  | .retrainTimeout p => Sys2Proof.Machine.execRetrainTimeout p s
  | .linkUpRetry p link => Sys2Proof.Machine.execLinkUpRetry p link s
  | .portDrainEnd p => Sys2Proof.Machine.execPortDrainEnd p s
  | .messageForward idx => Sys2Proof.Machine.execMessageForward idx s
  | .bind p flit => Sys2Proof.Machine.execBind p flit s
  | .bindAck p flit => Sys2Proof.Machine.execBindAck p flit s
  | .bindRefuse p flit => Sys2Proof.Machine.execBindRefuse p flit s
  | .tableImageWrite via p slot image => Sys2Proof.Machine.execTableImageWrite via p slot image s
  | .queryIn t => Sys2Proof.Machine.execQueryIn t s
  | .metaEvent t => Sys2Proof.Machine.execMetaEvent t s
  | .vec t => Sys2Proof.Machine.execVec t s
  | .pblock t => Sys2Proof.Machine.execPblock t s
  | .retire t => Sys2Proof.Machine.execRetire t s
  | .msgEvent t => Sys2Proof.Machine.execMsgEvent t s
  | .qsel t => Sys2Proof.Machine.execQsel t s
  | .xdot t => Sys2Proof.Machine.execXdot t s
  | .xdsq t => Sys2Proof.Machine.execXdsq t s
  | .xrd32 t => Sys2Proof.Machine.execXrd32 t s
  | .xrd64 t => Sys2Proof.Machine.execXrd64 t s
  | .xastat t => Sys2Proof.Machine.execXastat t s
  | .xfop t => Sys2Proof.Machine.execXfop t s
  | .xf32 t => Sys2Proof.Machine.execXf32 t s
  | .xfmvDx t => Sys2Proof.Machine.execXfmvDx t s
  | .xfmvXd t => Sys2Proof.Machine.execXfmvXd t s
  | .xfcmp t => Sys2Proof.Machine.execXfcmp t s
  | .xkey t => Sys2Proof.Machine.execXkey t s
  | .xfcv t => Sys2Proof.Machine.execXfcv t s
  | .xpass t => Sys2Proof.Machine.execXpass t s
  | .xpclr t => Sys2Proof.Machine.execXpclr t s
  | .xpost t => Sys2Proof.Machine.execXpost t s
  | .xmsend t => Sys2Proof.Machine.execXmsend t s
  | .xmrecv t => Sys2Proof.Machine.execXmrecv t s
  | .kernelTimeLimit t => Sys2Proof.Machine.execKernelTimeLimit t s
  | .tileReset via value => Sys2Proof.Machine.execTileReset via value s
  | .tileResetExecute t => Sys2Proof.Machine.execTileResetExecute t s
  | .selectRoundEnd x source => Sys2Proof.Machine.execSelectRoundEnd x source s
  | .selectDeadline x => Sys2Proof.Machine.execSelectDeadline x s
  | .payloadGranuleFree idx => Sys2Proof.Machine.execPayloadGranuleFree idx s
  | .vdpRead m => Sys2Proof.Machine.execVdpRead m s
  | .vdpWrite m => Sys2Proof.Machine.execVdpWrite m s
  | .vdpSegment m => Sys2Proof.Machine.execVdpSegment m s
  | .vdpAbort m => Sys2Proof.Machine.execVdpAbort m s
  | .vdpTransferTimeout via => Sys2Proof.Machine.execVdpTransferTimeout via s
  | .mailboxClear value => Sys2Proof.Machine.execMailboxClear value s
  | .dictionaryWrite via index subindex data => Sys2Proof.Machine.execDictionaryWrite via index subindex data s
  | .storeBase via ended => Sys2Proof.Machine.execStoreBase via ended s
  | .pendingStoreStart ended => Sys2Proof.Machine.execPendingStoreStart ended s
  | .restoreDefaults via => Sys2Proof.Machine.execRestoreDefaults via s
  | .modeRequest via mode => Sys2Proof.Machine.execModeRequest via mode s
  | .quietPoint => Sys2Proof.Machine.execQuietPoint s
  | .lockAll via => Sys2Proof.Machine.execLockAll via s
  | .clearOverlay via mode => Sys2Proof.Machine.execClearOverlay via mode s
  | .deltaEnable via mode delta enable => Sys2Proof.Machine.execDeltaEnable via mode delta enable s
  | .calendarTimeWrite via value => Sys2Proof.Machine.execCalendarTimeWrite via value s
  | .calendarCommit via value => Sys2Proof.Machine.execCalendarCommit via value s
  | .calendarSecond => Sys2Proof.Machine.execCalendarSecond s
  | .clearLog via => Sys2Proof.Machine.execClearLog via s
  | .warmResetRetain via => Sys2Proof.Machine.execWarmResetRetain via s
  | .warmResetNoRetain via => Sys2Proof.Machine.execWarmResetNoRetain via s
  | .auditNow via => Sys2Proof.Machine.execAuditNow via s
  | .creditAudit => Sys2Proof.Machine.execCreditAudit s
  | .canBusOff => Sys2Proof.Machine.execCanBusOff s
  | .canBusRecover => Sys2Proof.Machine.execCanBusRecover s
  | .canHeartbeat => Sys2Proof.Machine.execCanHeartbeat s
  | .canSettingsApply => Sys2Proof.Machine.execCanSettingsApply s
  | .sspGo via => Sys2Proof.Machine.execSspGo via s
  | .sspFrameDone data => Sys2Proof.Machine.execSspFrameDone data s
  | .sspSelectFall => Sys2Proof.Machine.execSspSelectFall s
  | .sspSelectRise edges slot => Sys2Proof.Machine.execSspSelectRise edges slot s
  | .nop => Sys2Proof.Machine.execNop s
  | .read => Sys2Proof.Machine.execRead s
  | .write => Sys2Proof.Machine.execWrite s
  | .stage => Sys2Proof.Machine.execStage s
  | .writeStaged => Sys2Proof.Machine.execWriteStaged s
  | .length => Sys2Proof.Machine.execLength s
  | .ident => Sys2Proof.Machine.execIdent s
  | .enum => Sys2Proof.Machine.execEnum s
  | .sspStall => Sys2Proof.Machine.execSspStall s
  | .coldResetRelease locked fuse tray => Sys2Proof.Machine.execColdResetRelease locked fuse tray s
  | .pllLockRetry locked fuse => Sys2Proof.Machine.execPllLockRetry locked fuse s
  | .perstDeassert => Sys2Proof.Machine.execPerstDeassert s
  | .firmwareReadDone => Sys2Proof.Machine.execFirmwareReadDone s
  | .configLoad => Sys2Proof.Machine.execConfigLoad s
  | .bundleLoad => Sys2Proof.Machine.execBundleLoad s
  | .hbmTrainingDone failed => Sys2Proof.Machine.execHbmTrainingDone failed s
  | .bootComplete => Sys2Proof.Machine.execBootComplete s
  | .recoveryBootFirmware window => Sys2Proof.Machine.execRecoveryBootFirmware window s
  | .recoveryWriteFirmware window written => Sys2Proof.Machine.execRecoveryWriteFirmware window written s
  | .recoveryTakeBundle window => Sys2Proof.Machine.execRecoveryTakeBundle window s
  | .recoveryWriteBundle window written => Sys2Proof.Machine.execRecoveryWriteBundle window written s
  | .warmRstN => Sys2Proof.Machine.execWarmRstN s
  | .watchdog => Sys2Proof.Machine.execWatchdog s
  | .warmResetExecute => Sys2Proof.Machine.execWarmResetExecute s
  | .pcieHotReset => Sys2Proof.Machine.execPcieHotReset s
  | .shotUp via c => Sys2Proof.Machine.execShotUp via c s
  | .shotDown via c => Sys2Proof.Machine.execShotDown via c s
  | .shotStart => Sys2Proof.Machine.execShotStart s
  | .shotResult c measured => Sys2Proof.Machine.execShotResult c measured s
  | .flowStale c => Sys2Proof.Machine.execFlowStale c s
  | .ringDownEnd c => Sys2Proof.Machine.execRingDownEnd c s
  | .rtdConvert via r => Sys2Proof.Machine.execRtdConvert via r s
  | .rtdResult r ref1 rtd ref2 => Sys2Proof.Machine.execRtdResult r ref1 rtd ref2 s
  | .flowChannelEnable via c enable => Sys2Proof.Machine.execFlowChannelEnable via c enable s
  | .zeroCalibrate via c n => Sys2Proof.Machine.execZeroCalibrate via c n s
  | .noFlowTimeout => Sys2Proof.Machine.execNoFlowTimeout s
  | .governorSample power => Sys2Proof.Machine.execGovernorSample power s
  | .mclkStepDone => Sys2Proof.Machine.execMclkStepDone s
  | .vrCorrection reading => Sys2Proof.Machine.execVrCorrection reading s
  | .governorSafe => Sys2Proof.Machine.execGovernorSafe s
  | .governorCauseClear => Sys2Proof.Machine.execGovernorCauseClear s
  | .coldRstNAsserted => Sys2Proof.Machine.execColdRstNAsserted s
  | .idleFlit p flit => Sys2Proof.Machine.execIdleFlit p flit s
  | .phyTrained p => Sys2Proof.Machine.execPhyTrained p s
  | .goWhileBusy => Sys2Proof.Machine.execGoWhileBusy s
  | .canBusError txErrors rxErrors => Sys2Proof.Machine.execCanBusError txErrors rxErrors s
  | .hardRepairCheckDone st pass => Sys2Proof.Machine.execHardRepairCheckDone st pass s
  | .rv32imcInstruction t => Sys2Proof.Machine.execRv32imcInstruction t s

end Sys2Proof.Machine
end

