-- ==== Sys2Proof/Safety.lean ====
section
/-! DEFINITION. The words that claims about the device use: the parts of its state, what leaves every other part
unchanged, and the invariant of every step. -/

namespace Sys2Proof.Machine

/-- The parts of the state, the queue of commands apart. -/
inductive Part
  | draws | clk | boot | log | out | dict | flash | vdp | can | ssp | host | cred | mem | seg | bw | diag | colls
  | stash | sched | grid | fab | pay | ftf | gov
  deriving DecidableEq, Repr

/-- A part of two states is the same. -/
def Part.same (s t : State) : Part → Prop
  | .draws => t.draws = s.draws
  | .clk => t.clk = s.clk
  | .boot => t.boot = s.boot
  | .log => t.log = s.log
  | .out => t.out = s.out
  | .dict => t.dict = s.dict
  | .flash => t.flash = s.flash
  | .vdp => t.vdp = s.vdp
  | .can => t.can = s.can
  | .ssp => t.ssp = s.ssp
  | .host => t.host = s.host
  | .cred => t.cred = s.cred
  | .mem => t.mem = s.mem
  | .seg => t.seg = s.seg
  | .bw => t.bw = s.bw
  | .diag => t.diag = s.diag
  | .colls => t.colls = s.colls
  | .stash => t.stash = s.stash
  | .sched => t.sched = s.sched
  | .grid => t.grid = s.grid
  | .fab => t.fab = s.fab
  | .pay => t.pay = s.pay
  | .ftf => t.ftf = s.ftf
  | .gov => t.gov = s.gov

/-- From `s` to `t` nothing changes but the parts listed: the frame of a command. The queue does not change. -/
def Frame (ps : List Part) (s t : State) : Prop :=
  t.pending = s.pending ∧ ∀ p : Part, ps.contains p = false → p.same s t

/-! ## The frame of every command -/

/-- The parts a command may change: nothing else of the state changes, whatever the command's operands. -/
def footprint : Instr → List Part
  | .sqTailDoorbell _ _ _ _ => [.log, .out, .can, .host]
  | .cqHeadDoorbell _ _ _ _ => [.log, .out, .can, .host]
  | .queueCreate _ _ _ => [.host]
  | .queueDelete _ _ => [.out, .host, .cred]
  | .hostFetch _ _ _ => [.out, .host, .cred]
  | .hostReadError _ => [.log, .out, .can, .host, .cred, .seg, .colls, .sched, .grid, .fab, .pay]
  | .admission => [.host, .cred]
  | .query => [.draws, .host, .cred, .sched, .grid, .fab]
  | .insert => [.host, .cred, .sched]
  | .delete => [.host, .cred, .sched]
  | .upsert => [.host, .cred, .sched]
  | .select => [.draws, .host, .cred, .sched, .grid, .fab]
  | .payloadRead => [.out, .host, .cred, .seg, .bw, .sched]
  | .payloadWrite _ => [.draws, .out, .host, .cred, .mem, .seg, .bw, .sched, .pay]
  | .fence => [.host, .cred, .sched]
  | .fenceComplete _ _ => [.host, .cred, .colls, .sched, .grid, .fab]
  | .collectionCreate => [.draws, .host, .cred, .mem, .seg, .colls, .sched, .grid, .fab]
  | .collectionDrop => [.host, .cred, .sched]
  | .compact => [.host, .cred, .sched]
  | .loadLists _ => [.out, .host, .cred, .sched]
  | .snapshotExport => [.out, .host, .cred, .seg, .sched, .grid, .fab]
  | .programLoad _ => [.log, .out, .can, .host, .cred, .grid]
  | .completionWrite _ _ => [.out, .host, .cred, .sched]
  | .coalesceTimer _ _ => [.out, .host]
  | .msixVectorUnmask _ _ _ _ => [.out, .host]
  | .burrowEnable _ _ _ => [.draws, .clk, .boot, .log, .out, .dict, .flash, .can, .ssp, .host, .cred, .mem, .seg, .bw, .diag, .sched, .grid, .fab, .ftf]
  | .vfFlr _ => [.log, .out, .can, .host, .cred, .sched, .grid, .fab]
  | .pfFlr => [.boot, .vdp, .host]
  | .vfEnableChange _ _ => [.log, .out, .can, .host, .cred, .sched, .grid, .fab]
  | .burrowDrainEnd _ => [.log, .out, .can, .host]
  | .stampReq _ => [.fab]
  | .stampRsp _ => [.host, .cred, .sched, .grid, .fab]
  | .queryDispatch _ => [.draws, .log, .out, .can, .host, .cred, .seg, .colls, .sched, .grid, .fab]
  | .rankingMerge _ => [.log, .out, .can, .host, .cred, .seg, .colls, .sched, .grid, .fab]
  | .listIssue _ => [.cred, .seg, .sched]
  | .segmentDelivery _ _ _ => [.log, .out, .can, .host, .cred, .seg, .bw, .colls, .sched, .grid, .pay]
  | .needMask _ => [.cred, .sched, .grid]
  | .sorterPost _ => [.cred, .sched]
  | .waveEnd _ => [.log, .out, .can, .host, .cred, .seg, .colls, .sched, .grid, .fab]
  | .queryDeadline _ => [.log, .out, .can, .host, .cred, .seg, .colls, .sched, .grid, .fab]
  | .resultWrite _ => [.out, .host, .cred, .seg, .bw, .sched, .grid, .fab]
  | .waveReq _ => [.draws, .log, .out, .can, .host, .cred, .colls, .sched, .grid, .fab]
  | .waveRsp _ => [.cred, .sched, .fab]
  | .release _ => [.cred, .sched, .grid, .fab]
  | .remoteStateTimeout _ => [.cred, .sched, .grid, .fab]
  | .requestLost _ => [.draws, .boot, .log, .out, .can, .host, .cred, .seg, .colls, .sched, .grid, .fab]
  | .mutationHandoff _ _ => [.out, .dict, .host, .cred, .mem, .seg, .bw, .colls, .stash, .sched, .grid, .fab]
  | .mutFwd _ => [.host, .cred, .colls, .fab]
  | .mutRsp _ => [.host, .cred, .fab]
  | .sequencerAccept _ => [.draws, .log, .out, .can, .host, .cred, .seg, .colls, .sched, .grid, .fab]
  | .stashWrite _ => [.draws, .out, .mem, .seg, .bw, .colls, .stash, .fab]
  | .killWrite _ => [.out, .mem, .seg, .colls, .stash, .grid, .fab]
  | .stashAck _ => [.boot, .log, .out, .can, .host, .cred, .colls, .fab]
  | .killAck _ => [.boot, .log, .out, .can, .host, .cred, .colls, .fab]
  | .revoke _ => [.out, .mem, .seg, .colls, .stash, .grid, .fab]
  | .revokeAck _ => [.host, .cred, .colls, .fab]
  | .stashFlush _ => [.out, .mem, .bw, .colls, .stash]
  | .compactTriggerEval => [.draws, .log, .out, .can, .host, .cred, .colls, .sched, .grid, .fab]
  | .compactCopyDone _ => [.draws, .log, .out, .can, .host, .cred, .mem, .seg, .colls, .sched, .grid, .fab]
  | .collCtrlPrepare _ => [.draws, .mem, .seg, .colls, .grid, .fab]
  | .collCtrlFlip _ => [.seg, .colls, .fab]
  | .ctrlAck _ => [.draws, .log, .out, .can, .host, .cred, .mem, .seg, .colls, .stash, .sched, .grid, .fab]
  | .collCtrlCreate _ => [.draws, .mem, .seg, .colls, .fab]
  | .collCtrlDrop _ => [.out, .dict, .mem, .seg, .bw, .colls, .stash, .grid, .fab]
  | .collCtrlScrubState _ => [.log, .out, .can, .host, .cred, .mem, .seg, .bw, .colls, .stash, .grid, .fab]
  | .collCtrlLoadPrepare _ => [.draws, .log, .out, .can, .host, .cred, .mem, .seg, .colls, .sched, .grid, .fab]
  | .collCtrlLoadAbandon _ => [.seg, .colls, .grid, .fab]
  | .collCtrlLost _ => [.colls, .fab]
  | .segmentFree _ => [.boot, .log, .out, .can, .host, .seg, .colls, .grid]
  | .startupScrub => [.boot, .log, .out, .can, .host, .cred, .mem, .seg, .colls, .stash, .grid, .fab]
  | .listPull _ => [.seg, .fab]
  | .listData _ => [.host, .cred, .fab]
  | .imagePull _ _ => [.out, .fab]
  | .imageData _ => [.draws, .log, .out, .can, .host, .cred, .mem, .seg, .colls, .sched, .grid, .fab]
  | .refused _ => [.host, .cred, .sched, .grid, .fab]
  | .hbmReadDone _ _ _ => [.draws, .boot, .log, .out, .can, .host, .cred, .mem, .seg, .colls, .sched, .pay]
  | .patrolScrub _ _ _ => [.draws, .boot, .log, .out, .can, .host, .cred, .mem, .seg, .colls, .sched, .pay]
  | .pageOutStart => [.draws, .out, .seg, .bw]
  | .pageOutDone _ => [.draws, .boot, .log, .out, .can, .host, .mem, .seg, .stash, .fab]
  | .pageInStart _ => [.draws, .out, .cred, .seg, .bw]
  | .pageInDone _ _ => [.draws, .boot, .log, .out, .can, .host, .cred, .mem, .seg, .stash, .fab]
  | .pcRetired _ => [.draws, .boot, .log, .out, .can, .host, .mem, .seg, .bw]
  | .retirePc _ _ => [.draws, .clk, .boot, .log, .out, .dict, .flash, .can, .ssp, .host, .cred, .mem, .seg, .bw, .diag, .sched, .grid, .fab, .ftf]
  | .evacuationCopyDone _ _ => [.draws, .boot, .log, .out, .can, .host, .cred, .mem, .seg, .colls, .stash, .sched, .fab, .pay]
  | .tokenRefill => [.log, .out, .can, .host, .bw]
  | .tokenCharge _ _ => [.bw]
  | .guaranteeWrite _ _ _ => [.draws, .clk, .boot, .log, .out, .dict, .flash, .can, .ssp, .host, .cred, .mem, .seg, .bw, .diag, .sched, .grid, .fab, .ftf]
  | .generatorStart _ _ => [.draws, .clk, .boot, .log, .out, .dict, .flash, .can, .ssp, .host, .cred, .mem, .seg, .bw, .diag, .sched, .grid, .fab, .ftf]
  | .generatorStop _ _ => [.draws, .clk, .boot, .log, .out, .dict, .flash, .can, .ssp, .host, .cred, .mem, .seg, .bw, .diag, .sched, .grid, .fab, .ftf]
  | .generatorDone _ _ => [.draws, .boot, .log, .out, .can, .host, .mem, .seg, .diag]
  | .readSpareResources _ _ => [.draws, .clk, .boot, .log, .out, .dict, .flash, .can, .ssp, .host, .cred, .mem, .seg, .bw, .diag, .sched, .grid, .fab, .ftf]
  | .softRepair _ _ => [.draws, .clk, .boot, .log, .out, .dict, .flash, .can, .ssp, .host, .cred, .mem, .seg, .bw, .diag, .sched, .grid, .fab, .ftf]
  | .clearSoftRepairs _ _ => [.draws, .clk, .boot, .log, .out, .dict, .flash, .can, .ssp, .host, .cred, .mem, .seg, .bw, .diag, .sched, .grid, .fab, .ftf]
  | .hardRepairWrite _ _ _ _ => [.draws, .clk, .boot, .log, .out, .dict, .flash, .can, .ssp, .host, .cred, .mem, .seg, .bw, .diag, .sched, .grid, .fab, .ftf]
  | .portEnable _ _ _ => [.draws, .clk, .boot, .log, .out, .dict, .flash, .can, .ssp, .host, .cred, .mem, .seg, .bw, .diag, .sched, .grid, .fab, .ftf]
  | .linkFlit _ _ => [.log, .out, .can, .host, .cred, .colls, .fab]
  | .dataFlit _ _ => [.log, .out, .can, .host, .cred, .fab]
  | .nak _ _ => [.out, .cred, .fab]
  | .replayTimeout _ => [.out, .fab]
  | .retraining _ => [.fab]
  | .retrainDone _ _ => [.log, .out, .can, .host, .cred, .colls, .fab]
  | .retrainTimeout _ => [.log, .out, .can, .host, .cred, .fab]
  | .linkUpRetry _ _ => [.log, .out, .can, .host, .cred, .colls, .fab]
  | .portDrainEnd _ => [.cred, .fab]
  | .messageForward _ => [.out, .cred, .fab]
  | .bind _ _ => [.log, .out, .can, .host, .cred, .fab]
  | .bindAck _ _ => [.log, .out, .can, .host, .cred, .fab]
  | .bindRefuse _ _ => [.log, .out, .can, .host, .cred, .fab]
  | .tableImageWrite _ _ _ _ => [.draws, .clk, .boot, .log, .out, .dict, .flash, .can, .ssp, .host, .cred, .mem, .seg, .bw, .diag, .sched, .grid, .fab, .ftf]
  | .queryIn _ => [.draws, .cred, .grid]
  | .metaEvent _ => [.draws, .cred, .grid]
  | .vec _ => [.draws, .log, .out, .can, .host, .cred, .sched, .grid]
  | .pblock _ => [.draws, .log, .out, .can, .host, .cred, .sched, .grid]
  | .retire _ => [.draws, .cred, .grid]
  | .msgEvent _ => [.draws, .cred, .grid]
  | .qsel _ => [.draws, .log, .out, .can, .host, .cred, .sched, .grid]
  | .xdot _ => [.draws, .log, .out, .can, .host, .cred, .sched, .grid]
  | .xdsq _ => [.draws, .log, .out, .can, .host, .cred, .sched, .grid]
  | .xrd32 _ => [.draws, .log, .out, .can, .host, .cred, .sched, .grid]
  | .xrd64 _ => [.draws, .log, .out, .can, .host, .cred, .sched, .grid]
  | .xastat _ => [.draws, .log, .out, .can, .host, .cred, .sched, .grid]
  | .xfop _ => [.draws, .log, .out, .can, .host, .cred, .sched, .grid]
  | .xf32 _ => [.draws, .log, .out, .can, .host, .cred, .sched, .grid]
  | .xfmvDx _ => [.draws, .log, .out, .can, .host, .cred, .sched, .grid]
  | .xfmvXd _ => [.draws, .log, .out, .can, .host, .cred, .sched, .grid]
  | .xfcmp _ => [.draws, .log, .out, .can, .host, .cred, .sched, .grid]
  | .xkey _ => [.draws, .log, .out, .can, .host, .cred, .sched, .grid]
  | .xfcv _ => [.draws, .log, .out, .can, .host, .cred, .sched, .grid]
  | .xpass _ => [.draws, .log, .out, .can, .host, .cred, .sched, .grid]
  | .xpclr _ => [.draws, .log, .out, .can, .host, .cred, .sched, .grid]
  | .xpost _ => [.draws, .log, .out, .can, .host, .cred, .sched, .grid]
  | .xmsend _ => [.draws, .log, .out, .can, .host, .cred, .sched, .grid]
  | .xmrecv _ => [.draws, .log, .out, .can, .host, .cred, .sched, .grid]
  | .kernelTimeLimit _ => [.log, .out, .can, .host, .cred, .sched, .grid]
  | .tileReset _ _ => [.draws, .clk, .boot, .log, .out, .dict, .flash, .can, .ssp, .host, .cred, .mem, .seg, .bw, .diag, .sched, .grid, .fab, .ftf]
  | .tileResetExecute _ => [.log, .out, .can, .host, .cred, .grid]
  | .selectRoundEnd _ _ => [.out, .host, .cred, .sched, .grid, .fab]
  | .selectDeadline _ => [.host, .cred, .sched, .grid, .fab]
  | .payloadGranuleFree _ => [.seg, .pay]
  | .vdpRead _ => [.draws, .clk, .boot, .log, .out, .dict, .flash, .vdp, .can, .ssp, .host, .cred, .mem, .seg, .bw, .diag, .sched, .grid, .fab, .ftf]
  | .vdpWrite _ => [.draws, .clk, .boot, .log, .out, .dict, .flash, .vdp, .can, .ssp, .host, .cred, .mem, .seg, .bw, .diag, .sched, .grid, .fab, .ftf]
  | .vdpSegment _ => [.draws, .clk, .boot, .log, .out, .dict, .flash, .vdp, .can, .ssp, .host, .cred, .mem, .seg, .bw, .diag, .sched, .grid, .fab, .ftf]
  | .vdpAbort _ => [.draws, .clk, .boot, .log, .out, .dict, .flash, .vdp, .can, .ssp, .host, .cred, .mem, .seg, .bw, .diag, .sched, .grid, .fab, .ftf]
  | .vdpTransferTimeout _ => [.vdp]
  | .mailboxClear _ => [.vdp]
  | .dictionaryWrite _ _ _ _ => [.draws, .clk, .boot, .log, .out, .dict, .flash, .can, .ssp, .host, .cred, .mem, .seg, .bw, .diag, .sched, .grid, .fab, .ftf]
  | .storeBase _ _ => [.draws, .clk, .boot, .log, .out, .dict, .flash, .can, .ssp, .host, .cred, .mem, .seg, .bw, .diag, .sched, .grid, .fab, .ftf]
  | .pendingStoreStart _ => [.draws, .log, .out, .dict, .flash, .can, .host]
  | .restoreDefaults _ => [.draws, .clk, .boot, .log, .out, .dict, .flash, .can, .ssp, .host, .cred, .mem, .seg, .bw, .diag, .sched, .grid, .fab, .ftf]
  | .modeRequest _ _ => [.draws, .clk, .boot, .log, .out, .dict, .flash, .can, .ssp, .host, .cred, .mem, .seg, .bw, .diag, .sched, .grid, .fab, .ftf]
  | .quietPoint => [.log, .out, .dict, .can, .host, .cred, .bw, .fab, .ftf]
  | .lockAll _ => [.draws, .clk, .boot, .log, .out, .dict, .flash, .can, .ssp, .host, .cred, .mem, .seg, .bw, .diag, .sched, .grid, .fab, .ftf]
  | .clearOverlay _ _ => [.draws, .clk, .boot, .log, .out, .dict, .flash, .can, .ssp, .host, .cred, .mem, .seg, .bw, .diag, .sched, .grid, .fab, .ftf]
  | .deltaEnable _ _ _ _ => [.draws, .clk, .boot, .log, .out, .dict, .flash, .can, .ssp, .host, .cred, .mem, .seg, .bw, .diag, .sched, .grid, .fab, .ftf]
  | .calendarTimeWrite _ _ => [.draws, .clk, .boot, .log, .out, .dict, .flash, .can, .ssp, .host, .cred, .mem, .seg, .bw, .diag, .sched, .grid, .fab, .ftf]
  | .calendarCommit _ _ => [.draws, .clk, .boot, .log, .out, .dict, .flash, .can, .ssp, .host, .cred, .mem, .seg, .bw, .diag, .sched, .grid, .fab, .ftf]
  | .calendarSecond => [.clk]
  | .clearLog _ => [.draws, .clk, .boot, .log, .out, .dict, .flash, .can, .ssp, .host, .cred, .mem, .seg, .bw, .diag, .sched, .grid, .fab, .ftf]
  | .warmResetRetain _ => [.draws, .clk, .boot, .log, .out, .dict, .flash, .can, .ssp, .host, .cred, .mem, .seg, .bw, .diag, .sched, .grid, .fab, .ftf]
  | .warmResetNoRetain _ => [.draws, .clk, .boot, .log, .out, .dict, .flash, .can, .ssp, .host, .cred, .mem, .seg, .bw, .diag, .sched, .grid, .fab, .ftf]
  | .auditNow _ => [.draws, .clk, .boot, .log, .out, .dict, .flash, .can, .ssp, .host, .cred, .mem, .seg, .bw, .diag, .sched, .grid, .fab, .ftf]
  | .creditAudit => [.boot, .log, .out, .can, .host, .cred, .sched, .grid, .fab]
  | .canBusOff => [.log, .out, .vdp, .can, .host]
  | .canBusRecover => [.can]
  | .canHeartbeat => [.out, .can]
  | .canSettingsApply => [.can]
  | .sspGo _ => [.draws, .clk, .boot, .log, .out, .dict, .flash, .can, .ssp, .host, .cred, .mem, .seg, .bw, .diag, .sched, .grid, .fab, .ftf]
  | .sspFrameDone _ => [.ssp]
  | .sspSelectFall => [.ssp]
  | .sspSelectRise _ _ => [.out, .ssp]
  | .nop => []
  | .read => [.ssp]
  | .write => [.draws, .clk, .boot, .log, .out, .dict, .flash, .can, .ssp, .host, .cred, .mem, .seg, .bw, .diag, .sched, .grid, .fab, .ftf]
  | .stage => [.ssp]
  | .writeStaged => [.draws, .clk, .boot, .log, .out, .dict, .flash, .can, .ssp, .host, .cred, .mem, .seg, .bw, .diag, .sched, .grid, .fab, .ftf]
  | .length => [.ssp]
  | .ident => [.ssp]
  | .enum => [.boot, .log, .out, .can, .ssp, .host, .cred, .fab]
  | .sspStall => [.log, .out, .can, .ssp, .host]
  | .coldResetRelease _ _ _ => [.boot, .log, .out, .dict, .can, .host]
  | .pllLockRetry _ _ => [.boot, .log, .out, .dict, .can, .host]
  | .perstDeassert => [.boot]
  | .firmwareReadDone => [.draws, .clk, .boot, .log, .out, .dict, .flash, .vdp, .can, .ssp, .host, .cred, .mem, .seg, .bw, .diag, .sched, .grid, .fab, .ftf]
  | .configLoad => [.boot, .log, .out, .dict, .can, .host, .cred, .fab, .ftf]
  | .bundleLoad => [.boot, .log, .out, .can, .host, .cred, .grid, .fab]
  | .hbmTrainingDone _ => [.draws, .boot, .log, .out, .can, .host, .cred, .mem, .seg, .bw, .fab]
  | .bootComplete => [.boot, .log, .out, .dict, .can, .host, .cred, .bw, .fab, .ftf]
  | .recoveryBootFirmware _ => [.draws, .clk, .boot, .log, .out, .dict, .flash, .vdp, .can, .ssp, .host, .cred, .mem, .seg, .bw, .diag, .sched, .grid, .fab, .ftf]
  | .recoveryWriteFirmware _ _ => [.draws, .clk, .boot, .log, .out, .dict, .flash, .vdp, .can, .ssp, .host, .cred, .mem, .seg, .bw, .diag, .sched, .grid, .fab, .ftf]
  | .recoveryTakeBundle _ => [.draws, .clk, .boot, .log, .out, .dict, .flash, .vdp, .can, .ssp, .host, .cred, .mem, .seg, .bw, .diag, .sched, .grid, .fab, .ftf]
  | .recoveryWriteBundle _ _ => [.draws, .clk, .boot, .log, .out, .dict, .flash, .vdp, .can, .ssp, .host, .cred, .mem, .seg, .bw, .diag, .sched, .grid, .fab, .ftf]
  | .warmRstN => [.boot, .log, .out, .can, .host, .cred, .sched, .grid, .fab]
  | .watchdog => [.boot, .log, .out, .can, .host, .cred, .sched, .grid, .fab]
  | .warmResetExecute => [.draws, .boot, .log, .out, .dict, .flash, .vdp, .can, .ssp, .host, .cred, .mem, .seg, .bw, .diag, .colls, .stash, .sched, .grid, .fab, .pay, .ftf]
  | .pcieHotReset => [.boot, .log, .out, .vdp, .can, .host, .cred, .sched, .grid, .fab]
  | .shotUp _ _ => [.draws, .clk, .boot, .log, .out, .dict, .flash, .can, .ssp, .host, .cred, .mem, .seg, .bw, .diag, .sched, .grid, .fab, .ftf]
  | .shotDown _ _ => [.draws, .clk, .boot, .log, .out, .dict, .flash, .can, .ssp, .host, .cred, .mem, .seg, .bw, .diag, .sched, .grid, .fab, .ftf]
  | .shotStart => [.ftf]
  | .shotResult _ _ => [.log, .out, .dict, .can, .host, .ftf]
  | .flowStale _ => [.log, .out, .can, .host, .ftf]
  | .ringDownEnd _ => [.ftf]
  | .rtdConvert _ _ => [.draws, .clk, .boot, .log, .out, .dict, .flash, .can, .ssp, .host, .cred, .mem, .seg, .bw, .diag, .sched, .grid, .fab, .ftf]
  | .rtdResult _ _ _ _ => [.ftf]
  | .flowChannelEnable _ _ _ => [.draws, .clk, .boot, .log, .out, .dict, .flash, .can, .ssp, .host, .cred, .mem, .seg, .bw, .diag, .sched, .grid, .fab, .ftf]
  | .zeroCalibrate _ _ _ => [.draws, .clk, .boot, .log, .out, .dict, .flash, .can, .ssp, .host, .cred, .mem, .seg, .bw, .diag, .sched, .grid, .fab, .ftf]
  | .noFlowTimeout => [.dict]
  | .governorSample _ => [.log, .out, .can, .host, .gov]
  | .mclkStepDone => [.gov]
  | .vrCorrection _ => [.log, .out, .can, .host, .gov]
  | .governorSafe => [.log, .out, .dict, .can, .host]
  | .governorCauseClear => [.dict]
  | .coldRstNAsserted => [.clk, .boot, .log, .dict, .vdp, .can, .ssp, .host, .cred, .mem, .seg, .bw, .diag, .colls, .stash, .sched, .grid, .fab, .pay, .ftf, .gov]
  | .idleFlit _ _ => [.out, .cred, .fab]
  | .phyTrained _ => [.out, .fab]
  | .goWhileBusy => [.vdp]
  | .canBusError _ _ => [.can]
  | .hardRepairCheckDone _ _ => [.draws, .boot, .log, .out, .can, .host, .mem, .seg, .diag]
  | .rv32imcInstruction _ => [.draws, .log, .out, .can, .host, .cred, .sched, .grid]

/-- The command answers a next state that has `p`, and nothing outside its footprint has changed. -/
def Runs (c : Instr) (s : State) (p : State → Prop) : Prop := ∃ t, exec c s = .next t ∧ p t ∧ Frame (footprint c) s t

/-! ## The invariant of every step -/

/-- HBM, flash and the data SRAM of every tile are held in the canonical form: addresses strictly rising, no cell
equal to what an unlisted address reads as. -/
def State.memoryCanonical (s : State) : Prop :=
  Memory.wf 0 s.mem = true ∧ Memory.wf 0xFF s.flash = true ∧ ∀ e ∈ s.grid.tiles, Memory.wf 0 e.2.mem = true

/-- The log holds at most 1,024 entries, each at one of 1,024 places (R352). -/
def State.logBounded (s : State) : Prop := ∀ e ∈ s.log.ring, e.1 < 1024

/-- The governor's levels are those R336 gives: throttle 0 to 7, CCLK step 0 to 4, MCLK step 0 to 2, the one it moves to
included. -/
def State.governorLegal (s : State) : Prop :=
  s.gov.throttle ≤ 7 ∧ s.gov.cclk ≤ 4 ∧ s.gov.mclk ≤ 2 ∧ s.gov.mclkTo.all (· ≤ 2) = true

end Sys2Proof.Machine
end

