-- ==== Sys2Proof/Certificates/Slice0/Obligations.lean ====
section
/-! DEFINITION. The statements about the device, for the provers: what each command does where it takes effect, what
every command leaves alone, and what every step keeps. -/

open Sys2Proof Sys2Proof.Machine

/-! ## The machine as a whole -/

/-- A step takes the command at the front of the queue and runs it on the state with the queue's rest: first in, first
out (the row's cut). -/
def Obligations.StepRunsTheFrontCommand : Prop :=
  ∀ (c : Instr) (rest : List Instr) (s : State), s.pending = c :: rest → step s = exec c { s with pending := rest }

/-- On an empty queue a step is one idle microsecond: the microsecond count since cold reset goes on, and so does the
microsecond within the calendar's second, up to its last. The model's choice (log entry 1). -/
def Obligations.IdleStepCountsAMicrosecond : Prop :=
  ∀ s : State, s.pending = [] →
    step s = .next { s with clk := { s.clk with now := s.clk.now + 1, us := min 999999 (s.clk.us + 1) } }

/-- Every command but a read or scrub of an HBM burst answers a next state, whatever its operands and the state. -/
def Obligations.EveryCommandCompletes : Prop :=
  ∀ (c : Instr) (s : State), (∀ f b r, c ≠ .hbmReadDone f b r) → (∀ f b r, c ≠ .patrolScrub f b r) → ∃ t, exec c s = .next t

/-- The only stop: a read or scrub of a burst that the device does not have. HBM has 3,145,728 frames of 2,048 bursts. -/
def Obligations.ReadsOutsideHbmFault : Prop :=
  ∀ (f b : Nat) (r : BurstRead) (s : State), (Config.frames ≤ f ∨ 2048 ≤ b) →
    exec (.hbmReadDone f b r) s = .fault (.frameOutsideHbm f) ∧ exec (.patrolScrub f b r) s = .fault (.frameOutsideHbm f)

/-- Whatever a command does, it changes nothing outside its footprint, and never the queue of waiting commands. -/
def Obligations.CommandsKeepTheirFrame : Prop :=
  ∀ (c : Instr) (s t : State), exec c s = .next t → Frame (footprint c) s t

/-- Every step keeps HBM, flash and the tiles' data SRAM in the canonical form, from every state that has it. -/
def Obligations.StepKeepsMemoryCanonical : Prop :=
  ∀ s t : State, s.memoryCanonical → step s = .next t → t.memoryCanonical

/-- Every step keeps the governor's throttle, CCLK and MCLK levels among those R336 gives, from every such state. -/
def Obligations.StepKeepsGovernorLevels : Prop :=
  ∀ s t : State, s.governorLegal → step s = .next t → t.governorLegal

/-- Every step keeps every entry of the log at one of the log's 1,024 places. -/
def Obligations.StepKeepsLogBounded : Prop :=
  ∀ s t : State, s.logBounded → step s = .next t → t.logBounded

/-- The state after reset meets the three invariants. -/
def Obligations.ResetMeetsTheInvariants : Prop :=
  State.reset.memoryCanonical ∧ State.reset.governorLegal ∧ State.reset.logBounded

/-! ## Host interface -/

/-- SQ_TAIL_DOORBELL and CQ_HEAD_DOORBELL: a value that does not move back sets the tail of a LIVE queue, a value within
the unconsumed entries the completion head; nothing else changes. -/
def Obligations.DoorbellsMoveTheirQueue : Prop :=
  (∀ (al : Bool) (b : Fin 64) (q : Fin 16) (v : Nat) (s : State) (sl : QSlot), s.slot b q = sl →
    s.doorbellReaches al b = true → sl.status = .live → v % 65536 < sl.regs.sqEntries →
    (sl.tail + sl.regs.sqEntries - sl.sqHead) % sl.regs.sqEntries ≤ (v % 65536 + sl.regs.sqEntries - sl.sqHead) % sl.regs.sqEntries →
    exec (.sqTailDoorbell al b q v) s = .next (s.setSlot b q { sl with tail := v % 65536 }))
  ∧ (∀ (al : Bool) (b : Fin 64) (q : Fin 16) (v : Nat) (s : State) (sl : QSlot), s.slot b q = sl →
    s.doorbellReaches al b = true → sl.status ≠ .absent → sl.status ≠ .refused → v % 65536 < sl.regs.cqEntries →
    (v % 65536 + sl.regs.cqEntries - sl.cqHead) % sl.regs.cqEntries ≤ (sl.cqTail + sl.regs.cqEntries - sl.cqHead) % sl.regs.cqEntries →
    exec (.cqHeadDoorbell al b q v) s = .next (s.setSlot b q { sl with cqHead := v % 65536 }))

/-- A doorbell value that R176 or R178 ignores leaves every queue slot alone, sets DOORBELL_INVALID of the burrow and
logs one event. -/
def Obligations.InvalidDoorbellsAreFlagged : Prop :=
  (∀ (al : Bool) (b : Fin 64) (q : Fin 16) (v : Nat) (s : State) (sl : QSlot), s.slot b q = sl →
    s.doorbellReaches al b = true →
    (sl.status ≠ .live ∨ sl.regs.sqEntries ≤ v % 65536 ∨
      (v % 65536 + sl.regs.sqEntries - sl.sqHead) % sl.regs.sqEntries < (sl.tail + sl.regs.sqEntries - sl.sqHead) % sl.regs.sqEntries) →
    Runs (.sqTailDoorbell al b q v) s fun t => t.host.slots = s.host.slots ∧ (t.burrow b).errorFlags.testBit 0 = true
      ∧ t.log.last = nextEntry s.log.last)
  ∧ (∀ (al : Bool) (b : Fin 64) (q : Fin 16) (v : Nat) (s : State) (sl : QSlot), s.slot b q = sl →
    s.doorbellReaches al b = true →
    (sl.status = .absent ∨ sl.status = .refused ∨ sl.regs.cqEntries ≤ v % 65536 ∨
      (sl.cqTail + sl.regs.cqEntries - sl.cqHead) % sl.regs.cqEntries < (v % 65536 + sl.regs.cqEntries - sl.cqHead) % sl.regs.cqEntries) →
    Runs (.cqHeadDoorbell al b q v) s fun t => t.host.slots = s.host.slots ∧ (t.burrow b).errorFlags.testBit 0 = true
      ∧ t.log.last = nextEntry s.log.last)

/-- QUEUE_CREATE makes an ABSENT or REFUSED slot LIVE where R174's checks pass, in their order (Table 7.5): the burrow is
ENABLED, bases and depths are legal, fewer than MaxQueues other slots are LIVE, the class and the interrupt fields are
allowed. The slot starts with head and tails at zero and phase 1; every other slot stays. -/
def Obligations.QueueCreateMakesALiveSlot : Prop :=
  ∀ (b : Fin 64) (q : Fin 16) (r : SlotRegs) (s : State),
    s.vfReachable b = true → ((s.slot b q).status = .absent ∨ (s.slot b q).status = .refused) →
    (s.burrow b).state = .enabled →
    r.sqBase % 4096 = 0 → r.cqBase % 4096 = 0 → 2 ≤ r.sqEntries → r.sqEntries ≤ 4096 → 2 ≤ r.cqEntries → r.cqEntries ≤ 4096 →
    ((List.range 16).filter fun p => p != q.val && (s.slot b p).status == .live).length < s.cfg (burrowIndex b) 3 →
    r.cls ≤ 3 → (r.cls = 0 → (s.cfg (burrowIndex b) 7).testBit 2 = true) → r.vector ≤ 31 → r.coalesceTime ≤ 10000 →
    Runs (.queueCreate b q r) s fun t => t.slot b q = { regs := r, status := .live }
      ∧ (∀ k, k ≠ slotKey b q → Map.get? t.host.slots k = Map.get? s.host.slots k)

/-- QUEUE_DELETE of a LIVE slot that holds no command makes it ABSENT: an interrupt its entries still owed is raised, and
the host-written registers stay. -/
def Obligations.QueueDeleteEmptiesAnIdleSlot : Prop :=
  ∀ (b : Fin 64) (q : Fin 16) (s : State),
    s.vfReachable b = true → (s.slot b q).status = .live → (s.slot b q).pendingCreate = false → s.queueIdle b q = true →
    Runs (.queueDelete b q) s fun t => t.slot b q = { regs := (s.slot b q).regs, status := .absent }

/-- HOST_FETCH reads one whole command of a LIVE queue of an ENABLED burrow: it enters the fetch queue last, SqHead goes
on by its entries modulo SqEntries, and it holds a fetch slot for each entry. -/
def Obligations.HostFetchTakesOneCommand : Prop :=
  ∀ (b : Fin 64) (q : Fin 16) (data : List Byte) (s : State) (sl : QSlot) (n : Nat), s.slot b q = sl → entriesOf data = n →
    s.vfPresent b = true → (s.burrow b).state = .enabled → sl.status = .live →
    1 ≤ n → data.length = 128 * n → n ≤ sl.regs.sqEntries - 1 →
    n ≤ (sl.tail + sl.regs.sqEntries - sl.sqHead) % sl.regs.sqEntries → s.used 0x01 0 + n ≤ Config.fetchSlots →
    Runs (.hostFetch b q data) s fun t =>
      t.host.fetched = s.host.fetched ++ [{ origin := { burrow := b, queue := q, gen := (s.burrow b).generation, cmdId := dCmdId data },
                                            bytes := data, entries := n, order := s.host.fetchOrder }]
      ∧ t.slot b q = { sl with sqHead := (sl.sqHead + n) % sl.regs.sqEntries }
      ∧ t.used 0x01 0 = s.used 0x01 0 + n

/-- Admission. With a token in the urgent bucket a decision takes the command of the URGENT queue of the burrow whose turn it is; the
burrow served goes to the end of the turn, and the command leaves the fetch queue. With the urgent bucket empty it goes on with the
burrow whose round is in progress, while its deficit covers the command that weighted round robin picks there; the deficit
falls by the command's entries. A decision that the throttle level passes over takes none. -/
def Obligations.AdmissionServesInTurn : Prop :=
  (∀ (s : State) (q : Nat) (f : Fetched),
    s.admissionOpen = true → s.host.admitting = none → s.host.decisions % 2 ^ s.gov.throttle = 0 →
    (∀ g ∈ s.host.fetched, (s.slot g.origin.burrow g.origin.queue).status ≠ .deleting) →
    0 < s.host.urgentTokens → s.pickClass ((s.host.urgentTurn + 1) % 64) (· == 0) = some (q, f) → knownOpcode (dOpcode f.bytes) = true →
    Runs .admission s fun t => t.host.admitting = some f ∧ t.host.fetched = s.host.fetched.filter (fun g => g.order != f.order)
      ∧ t.host.urgentTurn = (s.host.urgentTurn + 1) % 64 ∧ t.host.decisions = s.host.decisions + 1)
  ∧ (∀ (s : State) (b q c left : Nat) (f : Fetched),
    s.admissionOpen = true → s.host.admitting = none → s.host.decisions % 2 ^ s.gov.throttle = 0 →
    (∀ g ∈ s.host.fetched, (s.slot g.origin.burrow g.origin.queue).status ≠ .deleting) →
    s.host.urgentTokens = 0 → s.host.inService = some b → s.eligible b = true → s.pickLevel3 b = some (q, f, c, left) →
    f.entries ≤ (s.burrow b).deficit → knownOpcode (dOpcode f.bytes) = true →
    Runs .admission s fun t => t.host.admitting = some f ∧ t.host.fetched = s.host.fetched.filter (fun g => g.order != f.order)
      ∧ (t.burrow b).deficit = (s.burrow b).deficit - f.entries ∧ (t.burrow b).cls = c ∧ (t.burrow b).clsLeft = left)
  ∧ (∀ s : State, s.admissionOpen = true → s.host.admitting = none → s.host.decisions % 2 ^ s.gov.throttle ≠ 0 →
    (∀ g ∈ s.host.fetched, (s.slot g.origin.burrow g.origin.queue).status ≠ .deleting) →
    exec .admission s = .next { s with host := { s.host with decisions := s.host.decisions + 1 } })

/-- COMPLETION_WRITE posts the oldest completion of a queue whose entry the host can hold: the entry of Table 4.10 goes to
CqTail first of all that leaves, CqTail goes on by one, and the phase turns where it wraps. -/
def Obligations.CompletionWritePostsTheEntry : Prop :=
  ∀ (b : Fin 64) (q : Fin 16) (s : State) (c : Completion) (rest : List Completion) (sl : QSlot), s.slot b q = sl →
    takeFirst (fun c => c.origin.burrow == b.val && c.origin.queue == q.val) s.host.waiting = some (c, rest) →
    (s.burrow b).discard = false → c.origin.gen = (s.burrow b).generation → sl.status = .live →
    (sl.cqTail + sl.regs.cqEntries - sl.cqHead) % sl.regs.cqEntries < sl.regs.cqEntries - 1 →
    Runs (.completionWrite b q) s fun t => t.host.waiting = rest
      ∧ (∃ more, t.out = s.out ++ [.write (b + 1) (sl.regs.cqBase + 32 * sl.cqTail) (completionEntry c sl.phase) false] ++ more)
      ∧ (t.slot b q).cqTail = (sl.cqTail + 1) % sl.regs.cqEntries
      ∧ (t.slot b q).phase = (if (sl.cqTail + 1) % sl.regs.cqEntries = 0 then !sl.phase else sl.phase)

/-- The interrupts: COALESCE_TIMER signals what a LIVE queue still owes once CoalesceTime has passed; unmasking a vector
sends the message it held, with the vector's new address and data; a submission entry that could not be read halts the slot. -/
def Obligations.InterruptsAreSentAndHeld : Prop :=
  (∀ (b : Fin 64) (q : Fin 16) (s : State) (sl : QSlot), s.slot b q = sl →
    sl.status = .live → sl.regs.coalesceTime ≠ 0 → 0 < sl.unsignalled → sl.firstUnsignalled + sl.regs.coalesceTime ≤ s.clk.now →
    sl.regs.irqFlags % 2 = 1 → (Map.getD s.host.vectors (32 * (b + 1) + sl.regs.vector) {}).masked = false →
    Runs (.coalesceTimer b q) s fun t => (t.slot b q).unsignalled = 0
      ∧ t.out = s.out ++ [.msix (b + 1) sl.regs.vector (Map.getD s.host.vectors (32 * (b + 1) + sl.regs.vector) {}).addr
                                (Map.getD s.host.vectors (32 * (b + 1) + sl.regs.vector) {}).data])
  ∧ (∀ (fn : Fin 65) (vec : Fin 32) (addr data : Nat) (s : State), (fn.val ≠ 0 ∨ vec.val < 16) →
    Runs (.msixVectorUnmask fn vec addr data) s fun t =>
      Map.get? t.host.vectors (32 * fn + vec) = some { addr := addr, data := data, masked := false, pending := false }
      ∧ t.out = s.out ++ (if (Map.getD s.host.vectors (32 * fn + vec) {}).pending then [.msix fn vec addr data] else []))
  ∧ (∀ (b q : Nat) (s : State), s.fetches b q = true → (s.slot b q).waiting ≠ 0 →
    Runs (.hostReadError (.submission b q)) s fun t => (t.slot b q).status = .halted ∧ (t.burrow b).errorFlags.testBit 1 = true
      ∧ t.log.last = nextEntry s.log.last)

/-- BURROW_ENABLE over any transport, with 1: a DISABLED burrow whose virtual function is present becomes ENABLED in a new
generation; with 0 it is no longer to be enabled. -/
def Obligations.BurrowEnableActs : Prop :=
  (∀ (via : Transport) (b : Fin 64) (s : State), s.dict.applying = false → s.dict.heldOld = [] → s.shadowed (burrowIndex b) 1 = false →
    6 ≤ s.boot.stage → s.vfPresent b = true → (s.burrow b).state = .disabled →
    Runs (.burrowEnable via b true) s fun t => (t.burrow b).state = .enabled
      ∧ (t.burrow b).generation = ((s.burrow b).generation + 1) % 65536 ∧ t.baseValue (burrowIndex b) 1 = [1] ∧ t.dict.answer = .ok false)
  ∧ (∀ (via : Transport) (b : Fin 64) (s : State), s.dict.applying = false → s.dict.heldOld = [] → s.shadowed (burrowIndex b) 1 = false →
    4 ≤ s.boot.stage → (s.burrow b).state = .disabled →
    Runs (.burrowEnable via b false) s fun t => t.burrow b = { s.burrow b with pendingEnable := false }
      ∧ t.baseValue (burrowIndex b) 1 = [0] ∧ t.dict.answer = .ok false)

/-- Function resets and drains. VF_FLR of a DISABLED burrow's function puts every queue slot of it at its reset values;
PF_FLR ends the mailbox's transfer and the physical function's vectors, and no burrow changes; a drain that holds no
command any more ends in DISABLED. -/
def Obligations.FunctionResetsAndDrains : Prop :=
  (∀ (b : Fin 64) (s : State), s.vfPresent b = true → (s.burrow b).state = .disabled →
    Runs (.vfFlr b) s fun t => (∀ q : Fin 16, t.slot b q = {}) ∧ (t.burrow b).errorFlags = 0
      ∧ t.host.vectors = s.host.vectors.filter (fun e => e.1 / 32 != b.val + 1))
  ∧ (∀ s : State, Runs .pfFlr s fun t => t.vdp.mailbox = {} ∧ t.vdp.busy = false ∧ t.vdp.done = false ∧ t.vdp.can = s.vdp.can
      ∧ t.boot.recoveryLength = 0 ∧ t.host.vectors = s.host.vectors.filter (fun e => 32 ≤ e.1) ∧ t.host.burrows = s.host.burrows)
  ∧ (∀ (b : Fin 64) (s : State), (s.burrow b).state = .draining → s.burrowIdle b = true → (s.burrow b).resetting = false →
    (s.burrow b).pendingEnable = false →
    Runs (.burrowDrainEnd b) s fun t => (t.burrow b).state = .disabled ∧ (t.burrow b).discard = false
      ∧ ∀ q : Fin 16, t.slot b q = { regs := (s.slot b q).regs })
  ∧ (∀ (enable : Bool) (n : Nat) (s : State), (∀ b < 64, (s.burrow b).state = .disabled ∧ (s.burrow b).pendingEnable = false) →
    Runs (.vfEnableChange enable n) s fun t => t.host = { s.host with vfEnable := enable, numVfs := n })

/-! ## Boot and reset -/

/-- Cold reset and its release. COLD_RST_N asserted leaves flash and the hard repairs and nothing else of the device but
its host-side reset pin; its release reads the straps and, once CCLK's PLL locks (at the release or at a retry), the fuses:
a double error there is a cause of SAFE. PERST# released after it, the host interface answers; a PCIe reset with every
burrow DISABLED ends the mailbox's transfer and the virtual functions. -/
def Obligations.ColdResetStartsTheDevice : Prop :=
  (∀ s : State, exec .coldRstNAsserted s = .next { State.reset with
      flash := s.flash, diag := { hard := s.diag.hard }, pending := s.pending, draws := s.draws, out := s.out
      boot := { perstHeld := s.boot.perstHeld } })
  ∧ (∀ (locked : Bool) (fuse : FuseRead) (tray : Fin 16) (s : State), s.boot.coldHeld = true →
    Runs (.coldResetRelease locked fuse tray) s fun t => t.boot.coldHeld = false ∧ t.boot.tray = tray
      ∧ t.boot.stage = (if locked then 2 else 1) ∧ t.boot.fuse = (if locked then fuse else s.boot.fuse)
      ∧ t.dict.safeCause = (if locked ∧ fuse.doubleError then s.dict.safeCause ||| 4 else s.dict.safeCause))
  ∧ (∀ (fuse : FuseRead) (s : State), s.boot.stage = 1 →
    Runs (.pllLockRetry true fuse) s fun t => t.boot.stage = 2 ∧ t.boot.fuse = fuse ∧ t.boot.fuseFault = fuse.doubleError)
  ∧ (∀ s : State, exec .perstDeassert s
      = .next { s with boot := { s.boot with perstHeld := false, hostUp := s.boot.hostUp || !s.boot.coldHeld } })
  ∧ (∀ s : State, (∀ b < 64, (s.burrow b).state = .disabled) →
    Runs .pcieHotReset s fun t => t.host.vfEnable = false ∧ t.host.numVfs = 0 ∧ t.vdp.mailbox = {} ∧ t.vdp.busy = false
      ∧ t.vdp.done = false ∧ t.vdp.overrun = false)

/-- Bring-up stage by stage, with no request waiting in the mailbox: firmware from the primary copy, else the secondary,
else recovery; the base layer, then the bundle or recovery; HBM full of zeros; and READY in the boot mode, or SAFE while a
device cause holds. -/
def Obligations.BootGoesStageByStage : Prop :=
  (∀ s : State, s.boot.stage = 2 → s.boot.warmBoot = none → s.vdp.busy = false →
    Runs .firmwareReadDone s fun t => match s.flashFirmware 0, s.flashFirmware 0x200000 with
      | some (h, image), _ => t.boot.stage = 4 ∧ t.boot.firmwareOk = true ∧ t.boot.secondary = false ∧ t.boot.fwVersion = field h 12 4
          ∧ t.boot.fwImage = image
      | none, some (h, image) => t.boot.stage = 4 ∧ t.boot.firmwareOk = true ∧ t.boot.secondary = true ∧ t.boot.flags.testBit 0 = true
          ∧ t.boot.fwVersion = field h 12 4 ∧ t.boot.fwImage = image
      | none, none => t.boot.stage = 3 ∧ t.boot.recovery = some .firmware)
  ∧ (∀ s : State, s.boot.stage = 4 → s.boot.configDone = false → s.boot.bundleDone = false →
    Runs .configLoad s fun t => t.boot.stage = 5 ∧ t.boot.configDone = true ∧ t.dict.base = s.loadConfig.dict.base)
  ∧ (∀ s : State, s.boot.stage = 5 → s.boot.bundleDone = false → s.boot.hbmDone = false →
    Runs .bundleLoad s fun t => match parseBundle (s.flashRead 0x400000 0x40000) with
      | some ks => t.boot.bundleDone = true ∧ t.boot.stage = 5 ∧ t.grid = (s.loadBundle ks).grid
      | none => t.boot.bundleDone = false ∧ t.boot.stage = 3 ∧ t.boot.recovery = some .bundle ∧ t.boot.flags.testBit 3 = true)
  ∧ (∀ s : State, s.boot.firmwareOk = true → s.boot.hbmDone = false → 3 ≤ s.boot.stage → s.boot.bundleDone = false →
    Runs (.hbmTrainingDone []) s fun t => t.mem = [] ∧ t.boot.hbmDone = true ∧ t.boot.stage = s.boot.stage
      ∧ t.bw.deliverable = deliverableOf s.bw.healthy s.bw.channelTokens)
  ∧ (∀ (s : State) (m : Nat), s.boot.stage = 6 → s.boot.scrubbing = false → (if s.deviceCause then 4 else s.cfg 0x2001 5) = m →
    s.dict.heldKeys = [] → s.changedKeys s.overlay (s.overlayOf m) = [] →
    Runs .bootComplete s fun t => t.boot.stage = 7 ∧ t.boot.warmBoot = none ∧ t.dict.mode = m ∧ t.dict.applying = false
      ∧ t.ftf.lastValid = (if s.boot.warmBoot.isNone then s.clk.now else s.ftf.lastValid))

/-- Recovery takes an image from the mailbox's window only for what it is in recovery for: a window without the image asked for
answers status 2, a flash area that did not verify answers 3, and a good image answers 4 and boots. -/
def Obligations.RecoveryTakesAnImage : Prop :=
  (∀ (w : List Byte) (s : State), s.boot.stage = 3 → s.boot.hostUp = true → s.boot.recovery = some .firmware → s.vdp.busy = false →
    Runs (.recoveryBootFirmware w) s fun t => t.boot.recoveryLength = w.length ∧ match windowFirmware w with
      | none => t.boot.recoveryStatus = 2 ∧ t.boot.stage = 3
      | some (h, image) => t.boot.recoveryStatus = 4 ∧ t.boot.stage = 4 ∧ t.boot.firmwareOk = true ∧ t.boot.fwVersion = field h 12 4 ∧ t.boot.fwImage = image
          ∧ t.boot.flags.testBit 1 = true)
  ∧ (∀ (w : List Byte) (ok : Bool) (s : State), s.boot.stage = 3 → s.boot.hostUp = true → s.boot.recovery = some .firmware → s.vdp.busy = false →
    Runs (.recoveryWriteFirmware w ok) s fun t => match windowFirmware w, ok with
      | none, _ => t.boot.recoveryStatus = 2 ∧ t.boot.stage = 3 ∧ t.flash = s.flash
      | some _, false => t.boot.recoveryStatus = 3 ∧ t.boot.stage = 3
      | some (_, image), true => t.boot.recoveryStatus = 4 ∧ t.boot.stage = 4
          ∧ t.flash = ((s.flashErase 0 0x200000).flashWrite 0 (w.take (0x1000 + image.length + 96))).flash)
  ∧ (∀ (w : List Byte) (s : State), s.boot.stage = 3 → s.boot.hostUp = true → s.boot.recovery = some .bundle → s.vdp.busy = false → s.boot.hbmDone = false →
    Runs (.recoveryTakeBundle w) s fun t => match parseBundle (w.take 0x40000) with
      | none => t.boot.recoveryStatus = 2 ∧ t.boot.stage = 3
      | some ks => t.boot.recoveryStatus = 4 ∧ t.boot.stage = 5 ∧ t.boot.bundleDone = true ∧ t.grid = (s.loadBundle ks).grid)
  ∧ (∀ (w : List Byte) (ok : Bool) (s : State), s.boot.stage = 3 → s.boot.hostUp = true → s.boot.recovery = some .bundle → s.vdp.busy = false → s.boot.hbmDone = false →
    Runs (.recoveryWriteBundle w ok) s fun t => match parseBundle (w.take 0x40000), ok with
      | none, _ => t.boot.recoveryStatus = 2 ∧ t.boot.stage = 3 ∧ t.flash = s.flash
      | some _, false => t.boot.recoveryStatus = 3 ∧ t.boot.stage = 3
      | some ks, true => t.boot.recoveryStatus = 4 ∧ t.boot.stage = 5 ∧ t.grid = (s.loadBundle ks).grid
          ∧ t.flash = ((s.flashErase 0x400000 0x40000).flashWrite 0x400000 (w.take 0x40000)).flash)

/-- Warm resets. WARM_RST_N low on a device whose firmware runs, a watchdog of the dictionary service, and the WarmReset object
arm a reset 2 ms on, with retention but for the object's value 2; when its time has come WARM_RESET_EXECUTE restarts boot at FIRMWARE, the fence gone, every burrow DISABLED
and no command left; HBM is empty after a reset without retention. -/
def Obligations.WarmResetsRestartTheDevice : Prop :=
  (∀ s : State, s.boot.coldHeld = false → s.boot.firmwareOk = true → s.boot.warmPending = none →
    (∀ b < 64, (s.burrow b).state ≠ .enabled) → (∀ p < 10, (s.port p).state = .disabled) →
    exec .warmRstN s = .next { s with boot := { s.boot with warmPending := some (true, s.clk.now + 2000) } })
  ∧ (∀ s : State, 4 ≤ s.boot.stage → s.boot.warmPending = none →
    (∀ b < 64, (s.burrow b).state ≠ .enabled) → (∀ p < 10, (s.port p).state = .disabled) →
    exec .watchdog s = .next { s with boot := { s.boot with warmPending := some (true, s.clk.now + 2000), watchdogLog := true } })
  ∧ (∀ (via : Transport) (s : State), 4 ≤ s.boot.stage → s.dict.applying = false → s.boot.warmPending = none →
    (∀ b < 64, (s.burrow b).state ≠ .enabled) → (∀ p < 10, (s.port p).state = .disabled) →
    exec (.warmResetRetain via) s
        = .next { s with boot := { s.boot with warmPending := some (true, s.clk.now + 2000) }, dict := { s.dict with answer := .ok false } }
      ∧ exec (.warmResetNoRetain via) s
        = .next { s with boot := { s.boot with warmPending := some (false, s.clk.now + 2000) }, dict := { s.dict with answer := .ok false } })
  ∧ (∀ (retain : Bool) (at_ : Nat) (s : State), s.boot.warmPending = some (retain, at_) → at_ ≤ s.clk.now →
    s.dict.heldKeys = [] → s.changedKeys s.overlay (s.overlayOf s.dict.mode) = [] →
    Runs .warmResetExecute s fun t => t.boot.stage = 2 ∧ t.boot.warmBoot = some retain ∧ t.boot.fenced = false ∧ t.boot.creditFault = false
      ∧ t.boot.flags.testBit 4 = retain ∧ t.host.fetched = [] ∧ t.host.live = [] ∧ t.host.waiting = [] ∧ t.sched.ctxs = []
      ∧ (retain = true → t.fab.transit = []) ∧ (∀ b : Fin 64, (t.burrow b).state = .disabled
      ∧ (t.burrow b).generation = ((s.burrow b).generation + 1) % 65536) ∧ (retain = false → t.mem = [] ∧ t.colls = []))

/-! ## Dictionary, configuration store and modes -/

/-- Dictionary writes are checked in order. An object that is absent is answered with its abort code and changes nothing; a
read-only one with read-only; a wrong length with the length code; a base object's value that passes every check is in the
base layer afterwards, and the answer says whether the active overlay shadows it. -/
def Obligations.DictionaryWritesAreChecked : Prop :=
  (∀ (via : Transport) (ix sub code : Nat) (data : List Byte) (s : State), 4 ≤ s.boot.stage → findObject ix sub = .error code →
    exec (.dictionaryWrite via ix sub data) s = .next { s with dict := { s.dict with answer := .abort code } })
  ∧ (∀ (via : Transport) (ix sub : Nat) (data : List Byte) (s : State) (o : Obj), 4 ≤ s.boot.stage → (findObject ix sub).toOption = some o →
    o.acc = .ro → exec (.dictionaryWrite via ix sub data) s = .next { s with dict := { s.dict with answer := .abort 0x06020000 } })
  ∧ (∀ (via : Transport) (ix sub : Nat) (data : List Byte) (s : State) (o : Obj), 4 ≤ s.boot.stage → (findObject ix sub).toOption = some o →
    o.acc = .rwl → s.dict.locked = true → exec (.dictionaryWrite via ix sub data) s = .next { s with dict := { s.dict with answer := .abort 0x06030000 } })
  ∧ (∀ (via : Transport) (ix sub : Nat) (data : List Byte) (s : State) (o : Obj), 4 ≤ s.boot.stage → (findObject ix sub).toOption = some o →
    o.acc ≠ .ro → ¬(o.acc = .rwl ∧ s.dict.locked = true) → lengthOk o data = false →
    exec (.dictionaryWrite via ix sub data) s = .next { s with dict := { s.dict with answer := .abort 0x06060000 } })
  ∧ (∀ (via : Transport) (ix sub : Nat) (data : List Byte) (s : State) (o : Obj), 4 ≤ s.boot.stage → (findObject ix sub).toOption = some o →
    (o.acc = .rw ∨ o.acc = .rwl ∧ s.dict.locked = false) → isRequest ix sub = false → ¬(0x8280 ≤ ix ∧ ix < 0x8288) → lengthOk o data = true →
    s.baseCheck ix sub o data = none → overlayModeOf ix = none → s.transitionRefuses ix sub data = false →
    Runs (.dictionaryWrite via ix sub data) s fun t => t.baseValue ix sub = data ∧ t.dict.answer = .ok (s.shadowed ix sub))

/-- The configuration store. STORE_BASE erases the copy other than the one in use and writes the base layer there with the next
generation; a store that is asked for meanwhile waits, and starts when the one that runs has ended. -/
def Obligations.StoreWritesTheOtherCopy : Prop :=
  (∀ (via : Transport) (s : State) (c g : Nat), 4 ≤ s.boot.stage → s.dict.applying = false → s.dict.storing = none →
    (match s.dict.storeCopy with | none => (0, 1) | some k => (1 - k, (s.dict.storeGeneration + 1) % 2 ^ 32)) = (c, g) →
    (copyBytes g s.records).length ≤ 65536 →
    (Runs (.storeBase via none) s fun t => t.dict.storeStatus = 1 ∧ t.dict.storing = some (c, g, copyBytes g s.records)
      ∧ t.flash = (s.flashErase (copyAddress c) 0x10000).flash)
    ∧ (Runs (.storeBase via (some true)) s fun t => t.dict.storeStatus = 2 ∧ t.dict.storing = none ∧ t.dict.storeGeneration = g ∧ t.dict.storeCopy = some c
      ∧ t.flash = ((s.flashErase (copyAddress c) 0x10000).flashWrite (copyAddress c) (copyBytes g s.records)).flash))
  ∧ (∀ (via : Transport) (ended : Option Bool) (s : State) (r : Nat × Nat × List Byte), 4 ≤ s.boot.stage → s.dict.applying = false → s.dict.storing = some r →
    exec (.storeBase via ended) s = .next { s with dict := { s.dict with storePending := true, answer := .ok false } })
  ∧ (∀ (s : State) (c g : Nat) (img : List Byte), s.dict.storing = some (c, g, img) → img.length ≤ 65536 → s.dict.storePending = false →
    exec (.pendingStoreStart (some true)) s = .next { s.flashWrite (copyAddress c) img with
      dict := { s.dict with storing := none, storeStatus := 2, storeGeneration := g, storeCopy := some c } })
  ∧ (∀ (s : State) (c g : Nat) (img : List Byte), s.dict.storing = some (c, g, img) → img.length ≤ 65536 → s.dict.storePending = true →
    Runs (.pendingStoreStart (some true)) s fun t => t.dict.storeStatus = 1 ∧ t.dict.storePending = false
      ∧ t.dict.storing = some (1 - c, (g + 1) % 2 ^ 32, copyBytes ((g + 1) % 2 ^ 32) s.records))
  ∧ (∀ (s : State) (r : Nat × Nat × List Byte), s.dict.storing = some r → s.dict.storePending = false →
    Runs (.pendingStoreStart (some false)) s fun t => t.dict.storeStatus = 3 ∧ t.dict.storing = none ∧ t.log.last = nextEntry s.log.last)

/-- RESTORE_DEFAULTS returns every object of the base layer to its default, but W1 objects and, once locked, the lockable ones;
LOCK_ALL locks and CLEAR_LOG empties the ring while entry numbers go on. -/
def Obligations.DefaultsAndLocks : Prop :=
  (∀ (via : Transport) (s : State), 4 ≤ s.boot.stage → s.dict.applying = false →
    Runs (.restoreDefaults via) s fun t => t.dict.answer = .ok false ∧ ∀ (ix sub : Nat) (o : Obj), sub < 256 → objAt ix sub = some o → o.acc ≠ .w1 →
      (o.acc = .rwl → s.dict.locked = false) → t.baseValue ix sub = o.dflt)
  ∧ (∀ (via : Transport) (s : State), 4 ≤ s.boot.stage → s.dict.applying = false →
    Runs (.lockAll via) s fun t => t.dict = { s.dict with locked := true, answer := .ok false })
  ∧ (∀ (via : Transport) (s : State), 4 ≤ s.boot.stage → s.dict.applying = false →
    exec (.clearLog via) s = .next { s with log := { s.log with ring := [] }, dict := { s.dict with answer := .ok false } })

/-- Modes and overlays. A MODE_REQUEST for another mode, with no device cause of SAFE, starts a transition; QUIET_POINT ends a
transition that no value of the new overlay contradicts; disabling every delta of a mode, or changing one, applies the
active mode's overlay again and is otherwise only written. -/
def Obligations.ModesChangeAtQuietPoints : Prop :=
  (∀ (via : Transport) (m : Nat) (s : State), 4 ≤ s.boot.stage → s.dict.applying = false → s.deviceCause = false → m ≤ 4 → m ≠ s.dict.mode →
    Runs (.modeRequest via m) s fun t => t.dict.applying = true ∧ t.dict.target = m ∧ t.dict.modeRequest = m ∧ t.dict.mode = s.dict.mode
      ∧ t.dict.answer = .ok false ∧ t.dict.safeCause.testBit 0 = (m == 4))
  ∧ (∀ s : State, s.dict.applying = true → s.dict.safeWaiting = false → s.dict.heldKeys = [] → s.changedKeys s.overlay (s.overlayOf s.dict.target) = [] →
    Runs .quietPoint s fun t => t.dict.applying = false ∧ t.dict.mode = s.dict.target ∧ t.dict.overlayOld = none
      ∧ t.dict.modeChanges = (if s.dict.target = s.dict.mode then s.dict.modeChanges else (s.dict.modeChanges + 1) % 2 ^ 32)
      ∧ t.log.last = nextEntry s.log.last)
  ∧ (∀ (via : Transport) (m : Fin 5) (s : State), 4 ≤ s.boot.stage → s.dict.applying = false →
    Runs (.clearOverlay via m) s fun t => (∀ d : Fin 256, t.deltaOn m d = false) ∧ t.dict.answer = .ok false
      ∧ t.dict.applying = (s.dict.mode == m.val) ∧ t.overlay = s.overlay)
  ∧ (∀ (via : Transport) (m : Fin 5) (d : Fin 256) (on : Bool) (s : State), 4 ≤ s.boot.stage → s.dict.applying = false → s.dict.locked = false →
    (on = true → s.deltaProblem m d = none) → s.deltaOn m d ≠ on →
    Runs (.deltaEnable via m d on) s fun t => t.deltaOn m d = on ∧ t.dict.applying = (s.dict.mode == m.val) ∧ t.dict.answer = .ok false)

/-- The calendar. Seconds up to the end of 2199 are taken, and the staged date is set on a commit where it is a date; a later
value and a date that does not exist are refused. A second is counted out of cold reset. -/
def Obligations.CalendarIsSet : Prop :=
  (∀ (via : Transport) (v : Nat) (s : State), 4 ≤ s.boot.stage → s.dict.applying = false → v ≤ 7258118399 →
    Runs (.calendarTimeWrite via v) s fun t => t.clk = { s.clk with sec := v, us := 0, valid := true } ∧ t.dict.answer = .ok false)
  ∧ (∀ (via : Transport) (s : State), 4 ≤ s.boot.stage → s.dict.applying = false → s.clk.dateOk = true →
    Runs (.calendarCommit via 1) s fun t => t.dict.answer = .ok false
      ∧ t.clk = { now := s.clk.now, us := 0, valid := true
                  sec := daysTo s.clk.year s.clk.month s.clk.day * 86400 + s.clk.hour * 3600 + s.clk.minute * 60 + s.clk.second })
  ∧ (∀ (via : Transport) (s : State), 4 ≤ s.boot.stage → s.dict.applying = false → s.clk.dateOk = false →
    exec (.calendarCommit via 1) s = .next { s with
      clk := { now := s.clk.now, us := s.clk.us, valid := s.clk.valid, sec := s.clk.sec }, dict := { s.dict with answer := .abort abDate } })
  ∧ (∀ s : State, s.boot.coldHeld = false →
    exec .calendarSecond s = .next { s with clk := { s.clk with sec := (s.clk.sec + 1) % 2 ^ 64, us := 0 } })

/-- Credit audits. While every pool has issued what has come back and what is outstanding, an audit of the unfenced device only
counts; the first pool that breaks the law is latched, and the device, here one with no command live, is fenced with an event. -/
def Obligations.CreditAuditsFenceTheDevice : Prop :=
  (∀ s : State, s.boot.fenced = false → (∀ e ∈ s.cred.pools, e.2.issued = e.2.returned + e.2.outstanding) →
    exec .creditAudit s = .next { s with cred := { s.cred with auditCount := (s.cred.auditCount + 1) % 2 ^ 32 } })
  ∧ (∀ (via : Transport) (s : State), 4 ≤ s.boot.stage → s.dict.applying = false → s.boot.fenced = false →
    (∀ e ∈ s.cred.pools, e.2.issued = e.2.returned + e.2.outstanding) →
    exec (.auditNow via) s = .next { s with cred := { s.cred with auditCount := (s.cred.auditCount + 1) % 2 ^ 32 }, dict := { s.dict with answer := .ok false } })
  ∧ (∀ (s : State) (k : Nat) (p : Pool) (before after : Map Pool), s.boot.fenced = false → s.cred.pools = before ++ (k, p) :: after →
    (∀ e ∈ before, e.2.issued = e.2.returned + e.2.outstanding) → p.issued ≠ p.returned + p.outstanding →
    s.host.live = [] →
    Runs .creditAudit s fun t => t.boot = { s.boot with creditFault := true, fenced := true, fenceFlag := true } ∧ t.log.last = nextEntry s.log.last
      ∧ t.cred = { s.cred with auditCount := (s.cred.auditCount + 1) % 2 ^ 32, faultPool := k / 256 + 256 * (k % 256)
                               faultIssued := p.issued % 2 ^ 32, faultReturned := p.returned % 2 ^ 32, faultOutstanding := p.outstanding % 2 ^ 32 })

/-! ## Transports: the mailbox, CAN FD and the serial sideband -/

/-- The mailbox serves a well-formed request of a running dictionary service: a READ is answered with the value, or opens a
segmented transfer where it is longer than 60 bytes; a WRITE with what its write answered; a SEGMENT with the next
bytes of the open read; an ABORT ends the transfer without an answer. -/
def Obligations.MailboxServesTheProtocol : Prop :=
  (∀ (len : Nat) (request m v : List Byte) (s : State), padTo 64 request = m → vdpService request = 0 → vdpService m = 0 → vdpMalformed m len = false →
    s.mailboxOpen = true → 4 ≤ s.boot.stage → s.vdp.busy = false → s.readObject (vdpIndex m) (vdpSub m) = .ok v →
    Runs (.vdpRead (.mailbox len request)) s fun t => t.vdp.busy = false ∧ t.vdp.done = true
      ∧ (v.length ≤ 60 → t.vdp.response = padTo 64 (vdpHeader 0 v.length (vdpIndex m) (vdpSub m) ++ v) ∧ t.vdp.mailbox.transfer = none)
      ∧ (60 < v.length → t.vdp.response = padTo 64 (vdpHeader 0 63 (vdpIndex m) (vdpSub m) ++ toLE 4 v.length)
        ∧ t.vdp.mailbox.transfer = some { write := false, index := vdpIndex m, subindex := vdpSub m, total := v.length, data := v, since := s.clk.now }))
  ∧ (∀ (len : Nat) (request m : List Byte) (s : State), padTo 64 request = m → vdpService request = 1 → vdpService m = 1 → vdpMalformed m len = false →
    s.mailboxOpen = true → 4 ≤ s.boot.stage → s.vdp.busy = false → vdpCount m ≠ 63 →
    Runs (.vdpWrite (.mailbox len request)) s fun t => t.vdp.busy = false ∧ t.vdp.done = true ∧ t.vdp.mailbox = {}
      ∧ t.vdp.response = padTo 64 (writeAnswer (vdpIndex m) (vdpSub m) t.dict.answer))
  ∧ (∀ (len : Nat) (request m : List Byte) (s : State) (tr : Transfer), padTo 64 request = m → vdpService request = 2 → vdpService m = 2 →
    vdpMalformed m len = false → s.mailboxOpen = true → 4 ≤ s.boot.stage → s.vdp.busy = false → s.vdp.mailbox.transfer = some tr →
    s.clk.now < tr.since + 1000000 → tr.write = false → (if tr.started then 1 - tr.toggle else 0) = vdpToggle m → tr.toggle ≤ 1 →
    Runs (.vdpSegment (.mailbox len request)) s fun t => t.vdp.busy = false ∧ t.vdp.done = true
      ∧ t.vdp.response = padTo 64 (vdpSegment (vdpToggle m) (decide (tr.total ≤ tr.sent + (slice tr.data tr.sent 60).length)) (slice tr.data tr.sent 60))
      ∧ (tr.sent + (slice tr.data tr.sent 60).length < tr.total →
          t.vdp.mailbox.transfer.map Transfer.sent = some (tr.sent + (slice tr.data tr.sent 60).length)))
  ∧ (∀ (len : Nat) (request m : List Byte) (s : State), padTo 64 request = m → vdpService request = 3 → vdpService m = 3 → vdpMalformed m len = false →
    s.mailboxOpen = true → 4 ≤ s.boot.stage → s.vdp.busy = false →
    Runs (.vdpAbort (.mailbox len request)) s fun t => t.vdp.mailbox = {} ∧ t.vdp.busy = false ∧ t.vdp.done = s.vdp.done ∧ t.out = s.out)

/-- What else moves the mailbox: a transfer without a SEGMENT for 1 s is abandoned; writing 1 to clear takes DONE and OVERRUN away;
a Go or a request while the last one is served sets OVERRUN. -/
def Obligations.MailboxFlagsAndTimeouts : Prop :=
  (∀ (s : State) (tr : Transfer), s.vdp.mailbox.transfer = some tr → tr.since + 1000000 ≤ s.clk.now →
    exec (.vdpTransferTimeout .mailbox) s = .next { s with vdp := { s.vdp with mailbox := { s.vdp.mailbox with transfer := none } } })
  ∧ (∀ (s : State) (tr : Transfer), s.vdp.can.transfer = some tr → tr.since + 1000000 ≤ s.clk.now →
    exec (.vdpTransferTimeout .can) s = .next { s with vdp := { s.vdp with can := { s.vdp.can with transfer := none } } })
  ∧ (∀ s : State, s.mailboxOpen = true →
    exec (.mailboxClear 1) s = .next { s with vdp := { s.vdp with done := false, overrun := false } })
  ∧ (∀ s : State, s.mailboxOpen = true → s.vdp.busy = true →
    exec .goWhileBusy s = .next { s with vdp := { s.vdp with overrun := true } })
  ∧ (∀ (len : Nat) (request : List Byte) (s : State), vdpService request = 0 → s.mailboxOpen = true → s.vdp.busy = true →
    exec (.vdpRead (.mailbox len request)) s = .next { s with vdp := { s.vdp with overrun := true } })

/-- CAN FD. A bus-off of an enabled port counts, is logged and ends its transfer; it recovers where AutoRecover or a write asks for
it; the error counters decide between active and passive; a heartbeat carries mode, causes, bus state and time; settings
are taken up. -/
def Obligations.CanFollowsTheBus : Prop :=
  (∀ s : State, s.can.enable = true → s.can.state ≠ 2 →
    Runs .canBusOff s fun t => t.can.state = 2 ∧ t.can.txErrors = 255 ∧ t.can.busOffs = (s.can.busOffs + 1) % 2 ^ 32
      ∧ t.vdp.can.transfer = none ∧ t.log.last = nextEntry s.log.last)
  ∧ (∀ s : State, s.can.state = 2 → (s.cfg 0x1200 10 = 1 ∨ s.can.rejoin = true) →
    exec .canBusRecover s = .next { s with can := { s.can with state := 0, txErrors := 0, rxErrors := 0, rejoin := false } })
  ∧ (∀ (tx rx : Nat) (s : State), s.can.enable = true → s.can.state ≠ 2 →
    exec (.canBusError tx rx) s = .next { s with can := { s.can with
      txErrors := min tx 255, rxErrors := min rx 255, state := if 127 < tx ∨ 127 < rx then 1 else 0 } })
  ∧ (∀ (s : State) (node : Nat), 4 ≤ s.boot.stage → s.cfg 0x1200 4 ≠ 0 → s.canOn = true → s.canNode = some node →
    exec .canHeartbeat s = .next { s with
      out := s.out ++ [.can (canId (s.cfg 0x1200 3) 4 node s.can.heartbeatSeq)
        (toLE 1 s.dict.mode ++ toLE 1 s.dict.safeCause ++ toLE 1 s.can.state ++ [0] ++ toLE 4 s.clk.sec)]
      can := { s.can with heartbeatSeq := (s.can.heartbeatSeq + 1) % 8192 } })
  ∧ (∀ s : State, exec .canSettingsApply s
      = .next { s with can := { s.can with node := s.cfg 0x1200 1, rate := s.cfg 0x1200 2, enable := s.cfg 0x1200 11 == 1 } })

/-- The sideband's frames. Go sends the frame that the master objects describe, and its end stores what came back; a fall of the slave
select shifts the response out, a rise after 512 clock edges latches a request and answers BUSY until it is served, any
other count is discarded; NOP changes nothing, and IDENT is answered with the product code. -/
def Obligations.SidebandFramesAreLatched : Prop :=
  (∀ (via : Transport) (s : State) (f : MasterFrame), 4 ≤ s.boot.stage → s.dict.applying = false → s.masterFrame = f → s.ssp.status ≠ 1 → 2 ≤ f.select →
    (f.write = true ∨ f.eightBit = true → f.data.length = f.len) →
    exec (.sspGo via) s = .next { s with ssp := { s.ssp with status := 1, frame := some f }, dict := { s.dict with answer := .ok false }
                                         out := s.out ++ [.sspFrame f.select f.command f.address f.dummy f.write f.data f.len] })
  ∧ (∀ (data : List Byte) (s : State) (f : MasterFrame), s.ssp.frame = some f →
    exec (.sspFrameDone data) s = .next { s with ssp := { s.ssp with
      status := 2, frame := none, readData := if f.write = true ∧ f.eightBit = false then [] else padTo f.len data } })
  ∧ (∀ s : State, s.boot.coldHeld = false → s.ssp.request = none →
    exec .sspSelectFall s = .next { s with ssp := { s.ssp with shifted := s.ssp.response, selected := true, stalled := false } })
  ∧ (∀ (slot : List Byte) (s : State), s.ssp.selected = true → s.ssp.stalled = false → s.ssp.shifted ≠ sspBusy →
    slotValid (padTo 8 slot) = true → slotOp (padTo 8 slot) ≠ 0 → slotOp (padTo 8 slot) ≠ 6 →
    exec (.sspSelectRise 512 slot) s = .next { s with
      out := s.out ++ [.sspOut s.ssp.shifted]
      ssp := { s.ssp with selected := false, latched := (s.ssp.latched + 1) % 2 ^ 32, request := some (padTo 8 slot), response := sspBusy } })
  ∧ (∀ (edges : Nat) (slot : List Byte) (s : State), s.ssp.selected = true → edges ≠ 512 →
    exec (.sspSelectRise edges slot) s = .next { s with ssp := { s.ssp with selected := false, discarded := (s.ssp.discarded + 1) % 2 ^ 32 } })
  ∧ (∀ s : State, exec .nop s = .next s)
  ∧ (∀ (s : State) (r : List Byte), s.ssp.request = some r → slotOp r = 6 →
    exec .ident s = .next { s with ssp := { s.ssp with request := none, response := slotAnswer r 0 Config.productCode } })

/-- The sideband's requests, served by the running dictionary service once the position is set: READ and LENGTH answer from the value,
WRITE and WRITE_STAGED with what their write answered, STAGE collects 4 bytes for a target; ENUM sets the position once. -/
def Obligations.SidebandServesItsSlots : Prop :=
  (∀ (s : State) (r : List Byte), s.ssp.request = some r → slotOp r = 1 → 4 ≤ s.boot.stage → s.boot.position ≠ none →
    exec .read s = .next { s with ssp := { s.ssp with request := none, response := s.slotRead r } })
  ∧ (∀ (s : State) (r v : List Byte), s.readObject (slotIndex r) (slotSub r) = .ok v → slotData r % 4 = 0 → slotData r ≤ 65532 →
    (v = [] ∨ slotData r < v.length) → s.slotRead r = slotAnswer r 0 (field v (slotData r) 4))
  ∧ (∀ (s : State) (r v : List Byte), s.ssp.request = some r → slotOp r = 5 → 4 ≤ s.boot.stage → s.boot.position ≠ none →
    s.readObject (slotIndex r) (slotSub r) = .ok v →
    exec .length s = .next { s with ssp := { s.ssp with request := none, response := slotAnswer r 0 v.length } })
  ∧ (∀ (s : State) (r : List Byte) (o : Obj) (n : Nat), s.ssp.request = some r → slotOp r = 2 → 4 ≤ s.boot.stage → s.boot.position ≠ none →
    s.precheck (slotIndex r) (slotSub r) = .ok o → o.ty.size = some n → n ≤ 4 → slotData r < 2 ^ (8 * n) →
    Runs .write s fun t => t.ssp.request = none ∧ t.ssp.response = slotWritten r t.dict.answer
      ∧ t.dict.answer = (s.writeObject .ssp (slotIndex r) (slotSub r) (toLE n (slotData r))).2)
  ∧ (∀ (s : State) (r : List Byte), s.ssp.request = some r → slotOp r = 3 → 4 ≤ s.boot.stage → s.boot.position ≠ none →
    s.ssp.target = some (slotIndex r, slotSub r) → s.ssp.staging.length + 4 ≤ 256 →
    exec .stage s = .next { s with ssp := { s.ssp with request := none, response := slotAnswer r 0 0, staging := s.ssp.staging ++ slice r 4 4 } })
  ∧ (∀ (s : State) (r : List Byte), s.ssp.request = some r → slotOp r = 4 → 4 ≤ s.boot.stage → s.boot.position ≠ none →
    s.ssp.target = some (slotIndex r, slotSub r) → slotData r ≤ s.ssp.staging.length →
    Runs .writeStaged s fun t => t.ssp.request = none ∧ t.ssp.response = slotWritten r t.dict.answer)
  ∧ (∀ (s : State) (r : List Byte), s.ssp.request = some r → slotOp r = 7 → 4 ≤ s.boot.stage → s.boot.position = none → slotData r ≤ 7 →
    Runs .enum s fun t => t.boot.position = some (slotData r) ∧ t.ssp.request = none ∧ t.ssp.response = slotAnswer r 0 0)
  ∧ (∀ (s : State) (r : List Byte) (p : Nat), s.ssp.request = some r → slotOp r = 7 → 4 ≤ s.boot.stage → s.boot.position = some p → slotData r ≤ 7 →
    slotData r ≠ p → Runs .enum s fun t => t.boot.position = some p ∧ t.ssp.response = slotAbort r abOnce)

/-- R321. A stall in a low period of S_SSN is logged with the event SSP_STALL, and nothing but the mark of the low period, the log and what an
event sends changes; another stall in the same low period changes nothing at all; and the rise that ends the frame latches nothing,
whatever the clock edges and the slot. -/
def Obligations.StallsAreLoggedOncePerLowPeriod : Prop :=
  (∀ s : State, s.ssp.selected = true → s.ssp.stalled = false →
    Runs .sspStall s fun t => t.log = s.log.append (eventEntry (nextEntry s.log.last) 0x0801 0 s.clk.sec s.clk.us []) ∧ t.ssp = { s.ssp with stalled := true }
      ∧ t.dict = s.dict ∧ t.boot = s.boot ∧ t.host.slots = s.host.slots ∧ t.host.waiting = s.host.waiting ∧ t.mem = s.mem)
  ∧ (∀ s : State, s.ssp.stalled = true → exec .sspStall s = .next s)
  ∧ (∀ (edges : Nat) (slot : List Byte) (s : State), s.ssp.selected = true → s.ssp.stalled = true →
    exec (.sspSelectRise edges slot) s = .next { s with ssp := { s.ssp with selected := false, discarded := (s.ssp.discarded + 1) % 2 ^ 32 } })

/-! ## Bandwidth, diagnostics, coolant and power -/

/-- The bandwidth regulators. A refill that changes no deliverable rate fills the bucket of every ENABLED burrow by its guarantee up to its
depth and starts a new microsecond's spending; a charge that can be paid comes from the bucket first and the pool after it, and
one that cannot waits; a guarantee that passes its checks is in the base layer, one beyond what can be delivered is refused. -/
def Obligations.BandwidthIsRegulated : Prop :=
  (∀ s : State, s.bw.pool + sumNat ((List.range 64).map s.bucket) ≤ s.bw.deliverable + sumNat ((List.range 64).map s.depth) →
    deliverableOf s.bw.healthy s.refillTokens = s.bw.deliverable →
    Runs .tokenRefill s fun t => t.bw.spent = [] ∧ t.bw.pool ≤ s.bw.deliverable ∧ t.bw.deliverable = s.bw.deliverable
      ∧ ∀ b : Fin 64, t.bucket b = (if (s.burrow b).state = .enabled then min (s.depth b) (s.bucket b + s.effectiveGuarantee b) else s.bucket b))
  ∧ (∀ (b : Fin 64) (n : Nat) (s : State), s.spent b + n ≤ min (s.ceiling b) s.bw.deliverable → n ≤ s.bucket b + s.bw.pool →
    Runs (.tokenCharge b n) s fun t => t.bucket b = s.bucket b - n ∧ t.bw.pool = s.bw.pool - (n - s.bucket b) ∧ t.spent b = s.spent b + n)
  ∧ (∀ (b : Fin 64) (n : Nat) (s : State), (min (s.ceiling b) s.bw.deliverable < s.spent b + n ∨ s.bucket b + s.bw.pool < n) →
    exec (.tokenCharge b n) s = .next s)
  ∧ (∀ (via : Transport) (b : Fin 64) (v : Nat) (s : State), 4 ≤ s.boot.stage → s.dict.applying = false → s.dict.locked = false → v ≤ 102400 →
    v ≤ leNat (s.baseValue 0x4111 (b + 1)) →
    (viewSum (s.baseView 0x4110 (b + 1) (toLE 4 v)) ≤ s.bw.deliverable ∨ viewSum (s.baseView 0x4110 (b + 1) (toLE 4 v)) ≤ viewSum s.baseValue) →
    Runs (.guaranteeWrite via b v) s fun t => t.baseValue 0x4110 (b + 1) = toLE 4 v ∧ t.dict.answer = .ok (s.shadowed 0x4110 (b + 1)))
  ∧ (∀ (via : Transport) (b : Fin 64) (v : Nat) (s : State), 4 ≤ s.boot.stage → s.dict.applying = false → s.dict.locked = false → v ≤ 102400 →
    v ≤ leNat (s.baseValue 0x4111 (b + 1)) → s.bw.deliverable < viewSum (s.baseView 0x4110 (b + 1) (toLE 4 v)) →
    viewSum s.baseValue < viewSum (s.baseView 0x4110 (b + 1) (toLE 4 v)) →
    exec (.guaranteeWrite via b v) s = .next { s with dict := { s.dict with answer := .abort 0x06040002 } })

/-- Traffic generators and repairs, in the mode DIAG. A start with enough usable frames runs, a stop and an end give the frames back with
the status of what was found; spare rows are read from the fuses, soft repairs are set and cleared for a stack, a hard repair
is fused once and its frame checked, and a frame that passes leaves the quarantine. -/
def Obligations.DiagnosticsRepairFrames : Prop :=
  (∀ (via : Transport) (st : Fin 8) (s : State), 4 ≤ s.boot.stage → s.dict.applying = false → s.dict.mode = 3 → (s.generator st).frames = [] →
    s.genCfg st 5 ≤ ((s.setGenerator st { s.generator st with frames := [] }).usableFrames st).length → s.genCfg st 7 ≠ 0 →
    Runs (.generatorStart via st) s fun t => t.dict.answer = .ok false ∧ (t.generator st).status = 1
      ∧ (t.generator st).frames.map Prod.fst = ((s.setGenerator st { s.generator st with frames := [] }).usableFrames st).take (s.genCfg st 5))
  ∧ (∀ (via : Transport) (st : Fin 8) (s : State), 4 ≤ s.boot.stage → s.dict.applying = false → (s.generator st).status = 1 →
    Runs (.generatorStop via st) s fun t => t.dict.answer = .ok false ∧ t.generator st = { s.generator st with status := 4, frames := [] })
  ∧ (∀ (st : Fin 8) (found : GeneratorFind) (s : State), (s.generator st).status = 1 →
    Runs (.generatorDone st found) s fun t => (t.generator st).status = (if found.errors = 0 then 2 else 3) ∧ (t.generator st).frames = []
      ∧ (t.generator st).errors = found.errors % 2 ^ 32 ∧ (t.generator st).firstError = found.firstError % 2 ^ 64)
  ∧ (∀ (via : Transport) (st : Fin 8) (s : State), 4 ≤ s.boot.stage → s.dict.applying = false → s.dict.mode = 3 →
    exec (.readSpareResources via st) s = .next { s with
      diag := { s.diag with spareRead := Map.put s.diag.spareRead st (s.sparesLeft st (s.cfg (0x8200 + st) 2) (s.cfg (0x8200 + st) 3) % 256)
                            repairStatus := Map.put s.diag.repairStatus st 0 }
      dict := { s.dict with answer := .ok false } })
  ∧ (∀ (via : Transport) (st : Fin 8) (s : State), 4 ≤ s.boot.stage → s.dict.applying = false →
    s.repairOk st (s.cfg (0x8200 + st) 2) (s.cfg (0x8200 + st) 4) = true →
    Runs (.softRepair via st) s fun t => t.dict.answer = .ok false
      ∧ (st.val, s.cfg (0x8200 + st) 2, s.cfg (0x8200 + st) 3, s.cfg (0x8200 + st) 4) ∈ t.diag.soft ∧ ∀ r ∈ s.diag.soft, r ∈ t.diag.soft)
  ∧ (∀ (via : Transport) (st : Fin 8) (s : State), 4 ≤ s.boot.stage → s.dict.applying = false → s.dict.mode = 3 →
    Runs (.clearSoftRepairs via st) s fun t => t.dict.answer = .ok false ∧ t.diag.soft = s.diag.soft.filter fun r => r.1 != st.val)
  ∧ (∀ (via : Transport) (st : Fin 8) (slot : Fin 32) (v : Nat) (s : State), 4 ≤ s.boot.stage → s.dict.applying = false → v < 2 ^ 32 →
    Map.get? s.diag.hard (st * 32 + slot) = none →
    Runs (.hardRepairWrite via st slot v) s fun t => if s.hardOk st v then t.dict.answer = .ok false ∧ t.hardSlot st slot = v
      ∧ Map.getD t.diag.checking st [] = Map.getD s.diag.checking st [] ++ [repairFrame st (slotPc v) (slotRow v)]
      else t.dict.answer = .abort 0x06040000 ∧ t.hardSlot st slot = 0 ∧ t.diag.checking = s.diag.checking)
  ∧ (∀ (st : Fin 8) (pass : Bool) (f : Nat) (fs : List Nat) (s : State), Map.getD s.diag.checking st [] = f :: fs →
    Runs (.hardRepairCheckDone st pass) s fun t => Map.getD t.diag.checking st [] = fs ∧ t.diag.hard = s.diag.hard)

/-- The time-to-digital converter is one at a time: a shot or a conversion starts on a free converter, or waits in arrival order, and
is refused while its source is busy. A shot that ends keeps its result and frees the converter; its channel rings down and
is IDLE again. A disabled channel comes back in a new generation. -/
def Obligations.FlowMeasuresInTurn : Prop :=
  (∀ (via : Transport) (c : Fin 2) (s : State), 4 ≤ s.boot.stage → s.dict.applying = false → (s.channel c).state = .idle → s.ftf.running = none → s.ftf.waiting = [] →
    (Runs (.shotUp via c) s fun t => t.ftf.running = some (.shot c true (s.channel c).generation) ∧ (t.channel c).state = .busy ∧ t.dict.answer = .ok false)
    ∧ (Runs (.shotDown via c) s fun t => t.ftf.running = some (.shot c false (s.channel c).generation) ∧ (t.channel c).state = .busy ∧ t.dict.answer = .ok false))
  ∧ (∀ (via : Transport) (c : Fin 2) (s : State), 4 ≤ s.boot.stage → s.dict.applying = false → (s.channel c).state ≠ .idle →
    exec (.shotUp via c) s = .next { s with dict := { s.dict with answer := .abort 0x06040000 } })
  ∧ (∀ (via : Transport) (r : Fin 2) (s : State), 4 ≤ s.boot.stage → s.dict.applying = false → (s.rtdInput r).busy = false → s.ftf.running = none → s.ftf.waiting = [] →
    Runs (.rtdConvert via r) s fun t => t.ftf.running = some (.rtd r) ∧ (t.rtdInput r).busy = true ∧ t.dict.answer = .ok false)
  ∧ (∀ (m : Measurement) (rest : List Measurement) (s : State), s.ftf.running = none → s.ftf.waiting = m :: rest →
    Runs .shotStart s fun t => t.ftf.running = some m ∧ t.ftf.waiting = rest)
  ∧ (∀ (c : Fin 2) (up : Bool) (m : Option ShotMeasure) (s : State), s.ftf.running = some (.shot c up (s.channel c).generation) → (s.channel c).state = .busy →
    s.shotStatus c up m ≠ 0 →
    Runs (.shotResult c m) s fun t => t.ftf.running = none ∧ (t.channel c).ringing = true ∧ (t.channel c).shots = ((s.channel c).shots + 1) % 2 ^ 32
      ∧ (if up then (t.channel c).upStatus else (t.channel c).downStatus) = s.shotStatus c up m ∧ (t.channel c).hold = min 255 ((s.channel c).hold + 1))
  ∧ (∀ (c : Fin 2) (s : State), 9 ≤ (s.channel c).hold → (s.channel c).stale = false →
    Runs (.flowStale c) s fun t => (t.channel c).flowValid = false ∧ (t.channel c).stale = true ∧ (t.channel c).lastUp = none
      ∧ (t.channel c).lastDown = none ∧ t.log.last = nextEntry s.log.last)
  ∧ (∀ (c : Fin 2) (s : State), s.ftf.running = none → (s.channel c).state = .busy → (s.channel c).ringing = true →
    Runs (.ringDownEnd c) s fun t => t.channel c = { s.channel c with state := .idle, ringing := false })

/-- The rest of the front end. An RTD conversion ends with its resistance and temperature, or with status 1 where a discharge did not
end; a channel is enabled and disabled; a zero calibration asks for its readings; 5 s without a valid reading after boot
select SAFE. -/
def Obligations.TemperatureAndCoolant : Prop :=
  (∀ (r : Fin 2) (a b d : Nat) (s : State), s.ftf.running = some (.rtd r) → a ≤ 6400000 → b ≤ 6400000 → d ≤ 6400000 →
    (le64 0x408F400000000000 (rtdResistance (s.cfg (0x7030 + r) 2) a b d) && le64 (rtdResistance (s.cfg (0x7030 + r) 2) a b d) 0x4098950000000000) = true →
    Runs (.rtdResult r (some a) (some b) (some d)) s fun t => t.ftf.running = none ∧ (t.rtdInput r).status = 0 ∧ (t.rtdInput r).busy = false
      ∧ (t.rtdInput r).at_ = s.clk.now ∧ (t.rtdInput r).resistance = rtdResistance (s.cfg (0x7030 + r) 2) a b d
      ∧ (t.rtdInput r).temperature = to32 .near (rtdTemperature (rtdResistance (s.cfg (0x7030 + r) 2) a b d)))
  ∧ (∀ (r : Fin 2) (b d : Option Nat) (s : State), s.ftf.running = some (.rtd r) →
    Runs (.rtdResult r none b d) s fun t => t.ftf.running = none ∧ (t.rtdInput r).status = 1 ∧ (t.rtdInput r).at_ = s.clk.now)
  ∧ (∀ (via : Transport) (c : Fin 2) (s : State), 4 ≤ s.boot.stage → s.dict.applying = false → s.dict.heldOld = [] → s.shadowed (0x7010 + c) 1 = false →
    (s.channel c).state = .disabled →
    Runs (.flowChannelEnable via c true) s fun t => (t.channel c).state = .idle ∧ (t.channel c).generation = ((s.channel c).generation + 1) % 2 ^ 16
      ∧ t.dict.answer = .ok false)
  ∧ (∀ (via : Transport) (c : Fin 2) (s : State), 4 ≤ s.boot.stage → s.dict.applying = false → s.dict.heldOld = [] → s.shadowed (0x7010 + c) 1 = false →
    (s.channel c).state = .idle →
    Runs (.flowChannelEnable via c false) s fun t => (t.channel c).state = .disabled ∧ t.ftf.waiting = s.ftf.waiting.filter fun w => w.source != c.val)
  ∧ (∀ (via : Transport) (c : Fin 2) (n : Nat) (s : State), 4 ≤ s.boot.stage → s.dict.applying = false → s.chanCfg c 5 ≠ 2 → 1 ≤ n → n ≤ 255 →
    Runs (.zeroCalibrate via c n) s fun t => t.channel c = { s.channel c with calLeft := n, calAsked := n, calSum := 0 } ∧ t.dict.answer = .ok false)
  ∧ (∀ s : State, s.boot.stage = 7 → s.ftf.lastValid + 5000000 ≤ s.clk.now → s.dict.applying = false → s.dict.mode ≠ 4 →
    exec .noFlowTimeout s = .next { s with dict := { s.dict with
      safeCause := s.dict.safeCause ||| 2, applying := true, target := 4, forced := true, modeRequest := 4 } })

/-- The power governor. A sample stores its power and cap and moves the throttle up by one above the cap; a MCLK step ends, a step down
once the regulators count with it; the regulator's reading corrects the model's factor, and is logged at its first failure;
100 samples above the cap at full limiting select SAFE and 100,000 well below it end that cause. -/
def Obligations.GovernorLimitsPower : Prop :=
  (∀ (p : Nat) (s : State), lt64 (int64 s.effectiveCap) (mul64 .near p s.gov.f) = true →
    Runs (.governorSample p) s fun t => t.gov.throttle = min 7 (s.gov.throttle + 1) ∧ t.gov.calm = 0 ∧ t.gov.cap = s.effectiveCap
      ∧ t.gov.power = to32 .near (mul64 .near p s.gov.f) ∧ t.gov.eCount = s.gov.eCount + 1 ∧ t.gov.over_ = s.gov.over_ + 1)
  ∧ (∀ (p : Nat) (s : State), lt64 (int64 s.effectiveCap) (mul64 .near p s.gov.f) = false →
    Runs (.governorSample p) s fun t => t.gov.over_ = 0 ∧ t.gov.calm = s.gov.calm + 1 ∧ t.gov.cap = s.effectiveCap
      ∧ t.gov.throttle = (if (s.gov.calm + 1) % 10 = 0 then s.gov.throttle - 1 else s.gov.throttle))
  ∧ (∀ (m : Nat) (s : State), s.gov.mclkTo = some m → (m ≤ s.gov.mclk ∨ s.bw.channelTokens = stepTokens m) →
    exec .mclkStepDone s = .next { s with gov := { s.gov with mclk := m, mclkTo := none } })
  ∧ (∀ (mw : Nat) (s : State), s.cfg 0x7100 8 ≠ 0 → s.gov.eCount ≠ 0 →
    Runs (.vrCorrection (some mw)) s fun t => t.gov = { s.gov with eSum := 0, eCount := 0, f := correction mw s.gov.eSum s.gov.eCount, vrFailed := false })
  ∧ (∀ (s : State), s.cfg 0x7100 8 ≠ 0 → s.gov.vrFailed = false →
    Runs (.vrCorrection none) s fun t => t.gov = { s.gov with eSum := 0, eCount := 0, vrFailed := true } ∧ t.log.last = nextEntry s.log.last)
  ∧ (∀ s : State, 100 ≤ s.gov.limitRun → s.dict.safeCause.testBit 3 = false → s.dict.applying = false → s.dict.mode ≠ 4 →
    Runs .governorSafe s fun t => t.dict = { s.dict with safeCause := s.dict.safeCause ||| 8, applying := true, target := 4, forced := true, modeRequest := 4 }
      ∧ t.log.last = nextEntry s.log.last)
  ∧ (∀ s : State, 100000 ≤ s.gov.safeRun → s.dict.safeCause.testBit 3 = true →
    exec .governorCauseClear s = .next { s with dict := { s.dict with safeCause := s.dict.safeCause - 8 } })

/-! ## Memory -/

/-- HBM reads. A clean read of a burst marks its segment as referenced; a corrected error is counted on its pseudo-channel; an
uncorrectable one in a frame of no segment puts the frame on the quarantine list with an event, in a segment it quarantines
the segment; the patrol scrub counts its bursts. -/
def Obligations.ReadsFindErrors : Prop :=
  (∀ (f b n : Nat) (v : Seg) (s : State), f < Config.frames → b < 2048 →
    s.seg.map.find? (fun (e : Nat × Seg) => e.2.frame == some f) = some (n, v) →
    Runs (.hbmReadDone f b .clean) s fun t => t.seg_ n = { s.seg_ n with referenced := true } ∧ t.seg.quarantine = s.seg.quarantine)
  ∧ (∀ (f b : Nat) (s : State), f < Config.frames → b < 2048 →
    Runs (.hbmReadDone f b .corrected) s fun t => Map.getD t.seg.corrected (frameChannel f) []
      = ((Map.getD s.seg.corrected (frameChannel f) []).filter fun t => s.clk.now < t + 3600000000) ++ [s.clk.now])
  ∧ (∀ (f b : Nat) (s : State), f < 3129344 → b < 2048 → s.seg.map.find? (fun (e : Nat × Seg) => e.2.frame == some f) = none →
    s.seg.replaced = [] → f ∉ s.seg.quarantine → s.frameTested f = false →
    Runs (.hbmReadDone f b .uncorrectable) s fun t => t.seg.quarantine = s.seg.quarantine ++ [f] ∧ t.seg.quarantined = s.seg.quarantined + 1
      ∧ Map.getD t.seg.failures (frameChannel f) 0 = Map.getD s.seg.failures (frameChannel f) 0 + 1)
  ∧ (∀ (f b n : Nat) (v : Seg) (s : State), f < Config.frames → b < 2048 →
    s.seg.map.find? (fun (e : Nat × Seg) => e.2.frame == some f) = some (n, v) → (s.seg_ n).state = .resident →
    Runs (.patrolScrub f b .uncorrectable) s fun t => (t.seg_ n).state = .quarantined ∧ (t.seg_ n).frame = none)
  ∧ (∀ (f b : Nat) (s : State), f < Config.frames → b < 2048 →
    Runs (.patrolScrub f b .clean) s fun t => t.seg.patrolled = s.seg.patrolled + 1 ∧ t.seg.map = s.seg.map)

/-- Paging. With free frames at the low-water mark or above and no page-out running none starts; else the victim of the clock sweep is
written to a free slot of its burrow and flushed with a read. The end of a page-out leaves it PAGED without a frame; a page-in
that was asked for takes a frame and a host page tag, and its end makes the segment RESIDENT with the host's bytes. -/
def Obligations.SegmentsArePaged : Prop :=
  (∀ s : State, s.cfg 0x4010 1 ≤ s.seg.free → s.seg.pagingOut = false → exec .pageOutStart s = .next s)
  ∧ (∀ (s u w : State) (n slot : Nat), s.pageOutRuns = true → { s with seg := { s.seg with pagingOut := true } }.sweep ({ s with seg := { s.seg with pagingOut := true } }).sweepOrder = (some n, u) →
    u.freeSlot (u.seg_ n).burrow = some slot → u.charge (u.seg_ n).burrow 1024 = some w →
    Runs .pageOutStart s fun t => t.seg_ n = { u.seg_ n with state := .pagingOut, slot := some slot }
      ∧ t.out = s.out ++ [.write ((u.seg_ n).burrow + 1) (s.pageAddr (u.seg_ n).burrow slot) (u.segRead n 0 65536) false,
                          .hostRead ((u.seg_ n).burrow + 1) (s.pageAddr (u.seg_ n).burrow slot) 0])
  ∧ (∀ (n f : Nat) (s : State), (s.seg_ n).state = .pagingOut → (s.seg_ n).frame = some f → (s.seg_ n).kills = [] → s.coll? (s.seg_ n).coll = none →
    Runs (.pageOutDone n) s fun t => t.seg_ n = { s.seg_ n with state := .paged, frame := none, copying := false })
  ∧ (∀ (n f slot : Nat) (s w : State), s.seg.wanted.find? (fun w => w.1 == n) = some (n, true) → (s.seg_ n).slot = some slot → s.pickFrame = some f →
    (s.seg_ n).state = .paged → s.used 7 hostTagPool < Config.hostPageTags → s.vfPresent (s.seg_ n).burrow = true → s.charge (s.seg_ n).burrow 1024 = some w →
    Runs (.pageInStart n) s fun t => t.seg_ n = { s.seg_ n with state := .pagingIn, frame := some f, retried := false }
      ∧ t.used 7 hostTagPool = s.used 7 hostTagPool + 1
      ∧ t.out = s.out ++ [.hostRead ((s.seg_ n).burrow + 1) (s.pageAddr (s.seg_ n).burrow slot) 65536])
  ∧ (∀ (n f : Nat) (data : List Byte) (s : State), (s.seg_ n).state = .pagingIn → (s.seg_ n).frame = some f → (s.seg_ n).kills = [] → s.coll? (s.seg_ n).coll = none →
    Runs (.pageInDone n data) s fun t => (t.seg_ n).state = .resident ∧ (t.seg_ n).slot = none ∧ (t.seg_ n).frame = some f
      ∧ (s.seg.retired = [] → s.seg.quarantine = [] → t.mem = (s.writeFrame f 0 (padTo 65536 data)).mem))

/-- Pseudo-channels are retired, for a cause or on the object's command: the channel joins the retired ones, one healthy channel
less counts, and the segments on it are copied away one by one, each keeping its content. -/
def Obligations.ChannelsAreRetired : Prop :=
  (∀ (pc : Fin 256) (s : State), s.mustRetire pc = true → pc.val ∉ s.seg.retired →
    Runs (.pcRetired pc) s fun t => t.seg.retired = s.seg.retired ++ [pc.val] ∧ t.bw.healthy = s.bw.healthy - 1)
  ∧ (∀ (pc : Fin 256) (s : State), s.mustRetire pc = false → exec (.pcRetired pc) s = .next s)
  ∧ (∀ (via : Transport) (pc : Fin 256) (s : State), 4 ≤ s.boot.stage → s.dict.applying = false → pc.val ∉ s.seg.retired →
    Runs (.retirePc via pc) s fun t => t.seg.retired = s.seg.retired ++ [pc.val] ∧ t.bw.healthy = s.bw.healthy - 1 ∧ t.dict.answer = .ok false)
  ∧ (∀ (n f g : Nat) (s : State), (s.seg_ n).copying = true → (s.seg_ n).frame = some f → (s.seg_ n).state = .resident → (s.seg_ n).kills = [] →
    s.pickFrame = some g →
    Runs (.evacuationCopyDone n .clean) s fun t => t.seg_ n = { s.seg_ n with frame := some g, copying := false })

/-! ## The fabric -/

/-- Link-up and link-down. Enable 1 on a used port of a device with an ID starts training under a new link generation, and Enable 0 of an UP
port drains it; the LINK flit goes out once the PHY has trained, and the neighbour's brings the port UP or, where a check
fails, to REFUSED with its reason; a ninth replay retrains, which ends UP with the replay buffer resent, or DOWN; a drained port is
DISABLED. -/
def Obligations.PortsComeUpAndGoDown : Prop :=
  (∀ (via : Transport) (p : Fin 10) (s : State), s.dict.applying = false → s.dict.heldOld = [] → s.shadowed (0x6010 + p) 1 = false →
    6 ≤ s.boot.stage → s.boot.position.isSome = true → s.portUsed p = true → (s.port p).state = .disabled →
    Runs (.portEnable via p true) s fun t => (t.port p).state = .training ∧ (t.port p).generation = ((s.port p).generation + 1) % 65536
      ∧ (t.port p).linkSent = false ∧ (t.port p).replay = [] ∧ t.dict.answer = .ok false)
  ∧ (∀ (via : Transport) (p : Fin 10) (s : State), s.dict.applying = false → s.dict.heldOld = [] → s.shadowed (0x6010 + p) 1 = false →
    4 ≤ s.boot.stage → (s.port p).state = .up →
    Runs (.portEnable via p false) s fun t => t.port p = { s.port p with state := .draining, since := s.clk.now } ∧ t.dict.answer = .ok false)
  ∧ (∀ (p : Fin 10) (s : State), (s.port p).state = .training → (s.port p).linkSent = false →
    Runs (.phyTrained p) s fun t => t.port p = { s.port p with linkSent := true }
      ∧ t.out = s.out ++ [.flit p (mkFlit 2 0 0 0 0 0 (toLE 1 s.self ++ toLE 1 p ++ [1, 0] ++ toLE 8 s.dieId ++ toLE 2 (s.port p).generation))])
  ∧ (∀ (p : Fin 10) (f : List Byte) (s : State), (s.port p).state = .training → (s.port p).linkSent = true → isLink f = true → s.linkReason p f = none →
    Runs (.linkFlit p f) s fun t => (t.port p).state = .up ∧ (t.port p).neighbour = field (flitPayload f) 4 8 ∧ (t.port p).txBind = 0)
  ∧ (∀ (p : Fin 10) (f : List Byte) (r : Nat) (s : State), (s.port p).state = .training → (s.port p).linkSent = true → isLink f = true → s.linkReason p f = some r →
    Runs (.linkFlit p f) s fun t => (t.port p).state = .refused ∧ (t.port p).reason = r)
  ∧ (∀ (p : Fin 10) (f : List Byte) (s : State), (s.port p).state = .down ∨ (s.port p).state = .refused → (s.port p).since + 10000 ≤ s.clk.now →
    isLink f = true → s.linkReason p f = none →
    Runs (.linkUpRetry p (some f)) s fun t => (t.port p).state = .up ∧ (t.port p).generation = ((s.port p).generation + 1) % 65536)
  ∧ (∀ (p : Fin 10) (s : State), (s.port p).state = .down ∨ (s.port p).state = .refused → (s.port p).since + 10000 ≤ s.clk.now →
    exec (.linkUpRetry p none) s = .next (s.setPort p { s.port p with since := s.clk.now }))
  ∧ (∀ (p : Fin 10) (s : State), (s.port p).state = .draining → (s.port p).replay = [] ∨ (s.port p).since + 400 ≤ s.clk.now →
    Runs (.portDrainEnd p) s fun t => (t.port p).state = (if (s.port p).pendingEnable then .training else .disabled) ∧ (t.port p).replay = [])
  ∧ (∀ (p : Fin 10) (s : State), (s.port p).state = .up → (s.port p).retrainDue = true →
    exec (.retraining p) s = .next (s.setPort p { s.port p with
      state := .retraining, retrainDue := false, since := s.clk.now, retrains := ((s.port p).retrains + 1) % 2 ^ 32 }))
  ∧ (∀ (p : Fin 10) (f : List Byte) (s : State), (s.port p).state = .retraining → s.clk.now ≤ (s.port p).since + 200 → isLink f = true → s.linkReason p f = none →
    Runs (.retrainDone p f) s fun t => (t.port p).state = .up ∧ ∃ rest, t.out = s.out ++ .flit p (mkFlit 2 0 0 0 0 0 (s.linkPayload p))
      :: (s.port p).replay.map (fun x => .flit p x.bytes) ++ rest)
  ∧ (∀ (p : Fin 10) (s : State), (s.port p).state = .retraining → (s.port p).since + 200 < s.clk.now →
    Runs (.retrainTimeout p) s fun t => (t.port p).state = .down ∧ (t.port p).since = s.clk.now ∧ t.log.last = nextEntry s.log.last)

/-- Flits and messages. An accepted DATA flit moves the expected sequence number and its payload joins its message, the last one delivers it; a duplicate
changes nothing; a damaged flit and one out of sequence are answered with one NAK for the gap. An acknowledgement frees the replay
buffer up to its flit, a NAK and 20 µs without acknowledgement resend the rest. A message in transit for this device
is delivered. -/
def Obligations.FlitsArriveInSequence : Prop :=
  (∀ (p : Fin 10) (f : List Byte) (s : State), (s.port p).receives = true → flitCrcOk f = true → flitKind f = 1 → (s.port p).arrival f = .accepted →
    flitSom f = true → flitEom f = false →
    Runs (.dataFlit p f) s fun t => (t.port p).rxSeq = ((s.port p).rxSeq + 1) % 4096 ∧ (t.port p).rxAny = true
      ∧ (t.port p).partials = Map.put (s.port p).partials (flitChannel f) (flitPayload f) ∧ ∃ g rest, t.out = s.out ++ .flit p g :: rest)
  ∧ (∀ (p : Fin 10) (f bytes : List Byte) (s : State), (s.port p).receives = true → flitCrcOk f = true → flitKind f = 1 → (s.port p).arrival f = .accepted →
    flitSom f = true → flitEom f = true → 16 ≤ field (flitPayload f) 6 2 → field (flitPayload f) 6 2 ≤ (flitPayload f).length →
    (flitPayload f).length < field (flitPayload f) 6 2 + 244 →
    (s.port p).decode ((flitPayload f).take (field (flitPayload f) 6 2)) = .ok bytes → s.deviceId = some (msgDest bytes) →
    Runs (.dataFlit p f) s fun t => t.fab.inbox = s.fab.inbox ++ [{ bytes := bytes, channel := flitChannel f % 4, cls := flitChannel f / 4,
                                                                    ringHop := p.val == 7 || p.val == 8 }]
      ∧ (t.port p).rxSeq = ((s.port p).rxSeq + 1) % 4096)
  ∧ (∀ (p : Fin 10) (f : List Byte) (s : State), (s.port p).receives = true → flitCrcOk f = true → flitKind f = 1 → (s.port p).arrival f = .duplicate →
    exec (.dataFlit p f) s = .next s)
  ∧ (∀ (p : Fin 10) (f : List Byte) (s : State), (s.port p).receives = true → flitCrcOk f = false →
    Runs (.dataFlit p f) s fun t => (t.port p).nakSent = true ∧ (t.port p).rxSeq = (s.port p).rxSeq
      ∧ ((s.port p).nakSent = true → t.out = s.out) ∧ ((s.port p).nakSent = false → ∃ g, t.out = s.out ++ [.flit p g]))
  ∧ (∀ (p : Fin 10) (f : List Byte) (i : Nat) (s : State), (s.port p).receives = true → flitCrcOk f = true → flitKind f = 0 → flitNak f = false →
    flitAckValid f = true → (s.port p).replay.findIdx? (fun x => x.seq == flitAck f) = some i →
    Runs (.idleFlit p f) s fun t => (t.port p).replay = (s.port p).replay.drop (i + 1) ∧ (t.port p).ackTime = s.clk.now ∧ t.out = s.out)
  ∧ (∀ (p : Fin 10) (f : List Byte) (i : Nat) (s : State), (s.port p).receives = true → flitCrcOk f = true → flitKind f = 0 → flitNak f = true →
    flitAckValid f = true → (s.port p).replay.findIdx? (fun x => x.seq == flitAck f) = some i →
    (∀ x ∈ (s.port p).replay.drop (i + 1), x.resends < 8) →
    Runs (.nak p f) s fun t => t.out = s.out ++ ((s.port p).replay.drop (i + 1)).map (fun x => .flit p x.bytes)
      ∧ (t.port p).replay = ((s.port p).replay.drop (i + 1)).map fun x => { x with resends := x.resends + 1 })
  ∧ (∀ (p : Fin 10) (s : State), (s.port p).receives = true → (s.port p).ackTime + 20 ≤ s.clk.now → (s.port p).replay ≠ [] →
    (∀ x ∈ (s.port p).replay, x.resends < 8) →
    Runs (.replayTimeout p) s fun t => t.out = s.out ++ (s.port p).replay.map (fun x => .flit p x.bytes)
      ∧ (t.port p).replay = (s.port p).replay.map (fun x => { x with resends := x.resends + 1 })
      ∧ (t.port p).replays = ((s.port p).replays + 1) % 2 ^ 32)
  ∧ (∀ (i : Nat) (m : Message) (s : State), s.fab.transit[i]? = some m → msgSource m.bytes ≠ 127 → s.deviceId = some (msgDest m.bytes) →
    Runs (.messageForward i) s fun t => t.fab.transit = s.fab.transit.eraseIdx i ∧ t.fab.inbox = s.fab.inbox ++ [{ m with port := none, units := 0 }])

/-- Codec tables. A table image for a transmit slot of a port that is not UP is in force at once, for a receive slot it is staged; a
BIND puts the staged tables into force, compares the 16 triples and is answered with BIND_ACK or BIND_REFUSE in sequence; the
answer to the last BIND sent decides whether the transmitter may code. -/
def Obligations.CodecStreamsAreBound : Prop :=
  (∀ (via : Transport) (p : Fin 10) (slot : Fin 32) (image : List Byte) (table : Option CodecTable) (s : State), s.dict.applying = false → s.dict.heldOld = [] →
    s.shadowed (0x6100 + 32 * p + slot) 1 = false → 4 ≤ s.boot.stage → checkTableImage image = .ok table → (s.port p).state ≠ .up →
    Runs (.tableImageWrite via p slot image) s fun t => (t.port p).slotOf slot
        = (if slot.val < 16 then { (s.port p).slotOf slot with image := image, table := table }
           else { (s.port p).slotOf slot with image := image, staged := some table })
      ∧ t.dict.answer = .ok false)
  ∧ (∀ (p : Fin 10) (f : List Byte) (s : State), (s.port p).receives = true → flitCrcOk f = true → flitKind f = 3 → (s.port p).arrival f = .accepted →
    field (flitPayload f) 0 1 = 1 → ctrlZero (flitPayload f) = true →
    Runs (.bind p f) s fun t => (t.port p).rxSeq = ((s.port p).rxSeq + 1) % 4096
      ∧ (∀ i : Fin 16, (t.port p).slotOf (16 + i) = { (s.port p).slotOf (16 + i) with
          table := ((s.port p).slotOf (16 + i)).staged.getD ((s.port p).slotOf (16 + i)).table, staged := none })
      ∧ (t.port p).rxBind = (if (List.range 16).all (fun i => slice (flitPayload f) (8 + 6 * i) 6
          == triple i (((s.port p).slotOf (16 + i)).staged.getD ((s.port p).slotOf (16 + i)).table)) then 1 else 2))
  ∧ (∀ (p : Fin 10) (f : List Byte) (s : State), (s.port p).receives = true → flitCrcOk f = true → flitKind f = 3 → (s.port p).arrival f = .accepted →
    field (flitPayload f) 0 1 = 2 → ctrlZero (flitPayload f) = true → (s.port p).answers (flitPayload f) = true →
    Runs (.bindAck p f) s fun t => (t.port p).txBind = 1 ∧ (t.port p).rxSeq = ((s.port p).rxSeq + 1) % 4096 ∧ t.log = s.log)
  ∧ (∀ (p : Fin 10) (f : List Byte) (s : State), (s.port p).receives = true → flitCrcOk f = true → flitKind f = 3 → (s.port p).arrival f = .accepted →
    field (flitPayload f) 0 1 = 3 → ctrlZero (flitPayload f) = true → (s.port p).answers (flitPayload f) = true →
    Runs (.bindRefuse p f) s fun t => (t.port p).txBind = 2 ∧ (t.port p).rxSeq = ((s.port p).rxSeq + 1) % 4096 ∧ t.log.last = nextEntry s.log.last)

/-! ## The tiles -/

/-- The Exact Dot Array. QSEL names the query operand; XDOT and XDSQ add, or with CLR store, the exact weighted sum of each of n consecutive
vectors in the accumulators from a on, and no other accumulator changes; XRD32 and XRD64 round an accumulator's exact content once,
XASTAT tells its zero and sign (the format's code is open). -/
def Obligations.ArraySumsAreExact : Prop :=
  (∀ (t : Fin 256) (e : TileEvent) (w : Nat) (s : State), s.extAt t = some (e, .qsel, w) → (s.tile t).pc + 4 ≠ returnAddress →
    exec (.qsel t) s = .next (s.setTile t { s.tile t with
      operand := some (fF7 w % 2 == 1, ((s.tile t).x (fR1 w)).toNat), pc := (s.tile t).pc + 4 }))
  ∧ (∀ (t : Fin 256) (e : TileEvent) (w : Nat) (c : Coll) (f : AccFormat) (q : List Byte) (ws : List Nat) (xs : List (List Byte)) (square : Bool) (s : State),
    s.extAt t = some (e, if square then .xdsq else .xdot, w) → (s.tile t).pc + 4 ≠ returnAddress → s.invColl e = some c →
    f = (if fR2 w = 0 then plainFormat c.ty else weightedFormat c.ty) → fRd w + (fF7 w % 32 + 1) ≤ 32 →
    (fF7 w).testBit 6 = true ∨ (∀ j < fF7 w % 32 + 1, ((s.tile t).acc (fRd w + j)).format = f) →
    s.operandBytes t e c.vecBytes = some q → s.weights t e (fR2 w) c.dim = some ws →
    s.readVectors t e c.vecBytes (fF7 w % 32 + 1) ((s.tile t).x (fR1 w)).toNat = some xs →
    Runs (if square then .xdsq t else .xdot t) s fun u => (u.tile t).pc = (s.tile t).pc + 4 ∧ (u.tile t).regs = (s.tile t).regs
      ∧ (∀ j x, xs[j]? = some x → (elements c.ty c.dim q).any c.ty.bad = false → (elements c.ty c.dim x).any c.ty.bad = false →
          (u.tile t).acc (fRd w + j) = {
            value := (if (fF7 w).testBit 6 then 0 else ((s.tile t).acc (fRd w + j)).value)
              + exactSum c.ty square ws (elements c.ty c.dim q) (elements c.ty c.dim x) * 2 ^ (f.frac - c.ty.esrFrac)
            format := f })
      ∧ (∀ k, k < fRd w ∨ fRd w + (fF7 w % 32 + 1) ≤ k → (u.tile t).acc k = (s.tile t).acc k))
  ∧ (∀ (t : Fin 256) (e : TileEvent) (w : Nat) (s : State), s.extAt t = some (e, .xrd32, w) → (s.tile t).pc + 4 ≠ returnAddress →
    exec (.xrd32 t) s = .next (s.setTile t { (s.tile t).setX (fRd w) (BitVec.ofNat 32 (roundDyadic .b32 (modeOf w) ((s.tile t).acc (fR1 w)).value
      (-(((s.tile t).acc (fR1 w)).format.frac : Int)))) with pc := (s.tile t).pc + 4 }))
  ∧ (∀ (t : Fin 256) (e : TileEvent) (w : Nat) (s : State), s.extAt t = some (e, .xrd64, w) → (s.tile t).pc + 4 ≠ returnAddress →
    exec (.xrd64 t) s = .next (s.setTile t { (s.tile t).setD (fRd w) (BitVec.ofNat 64 (roundDyadic .b64 (modeOf w) ((s.tile t).acc (fR1 w)).value
      (-(((s.tile t).acc (fR1 w)).format.frac : Int)))) with pc := (s.tile t).pc + 4 }))
  ∧ (∀ (t : Fin 256) (e : TileEvent) (w : Nat) (s : State), s.extAt t = some (e, .xastat, w) → (s.tile t).pc + 4 ≠ returnAddress → fRd w ≠ 0 →
    Runs (.xastat t) s fun u => ((u.tile t).x (fRd w)).getLsbD 0 = decide (((s.tile t).acc (fR1 w)).value = 0)
      ∧ ((u.tile t).x (fRd w)).getLsbD 1 = decide (((s.tile t).acc (fR1 w)).value < 0)
      ∧ (u.tile t).accs = (s.tile t).accs ∧ (u.tile t).pc = (s.tile t).pc + 4)

/-- The binary64 unit and order keys. XFOP gives IEEE 754's result in its mode, a NaN as a quiet NaN whose sign and payload are open; XF32 rounds, the
moves and XFCV carry bits and integers, XFCMP compares, and XKEY gives the order key of a number and faults on a NaN. -/
def Obligations.FloatInstructionsFollowIeee : Prop :=
  (∀ (t : Fin 256) (e : TileEvent) (w r : Nat) (s : State), s.extAt t = some (e, .xfop, w) → (s.tile t).pc + 4 ≠ returnAddress →
    fOp (fopOf w) (modeOf w) ((s.tile t).d (fR1 w)).toNat ((s.tile t).d (fR2 w)).toNat = some r →
    exec (.xfop t) s = .next (s.setTile t { (s.tile t).setD (fRd w) (BitVec.ofNat 64 r) with pc := (s.tile t).pc + 4 }))
  ∧ (∀ (t : Fin 256) (e : TileEvent) (w : Nat) (s : State), s.extAt t = some (e, .xfop, w) → (s.tile t).pc + 4 ≠ returnAddress →
    fOp (fopOf w) (modeOf w) ((s.tile t).d (fR1 w)).toNat ((s.tile t).d (fR2 w)).toNat = none →
    Runs (.xfop t) s fun u => ((u.tile t).d (fRd w)).extractLsb' 51 12 = 0xFFF ∧ (u.tile t).pc = (s.tile t).pc + 4)
  ∧ (∀ (t : Fin 256) (e : TileEvent) (w : Nat) (s : State), s.extAt t = some (e, .xf32, w) → (s.tile t).pc + 4 ≠ returnAddress →
    isNan .b64 ((s.tile t).d (fR1 w)).toNat = false →
    exec (.xf32 t) s = .next (s.setTile t { (s.tile t).setX (fRd w) (BitVec.ofNat 32 (to32 (modeOf w) ((s.tile t).d (fR1 w)).toNat)) with
      pc := (s.tile t).pc + 4 }))
  ∧ (∀ (t : Fin 256) (e : TileEvent) (w : Nat) (s : State), s.extAt t = some (e, .xfmvDx, w) → (s.tile t).pc + 4 ≠ returnAddress →
    exec (.xfmvDx t) s = .next (s.setTile t { (s.tile t).setD (fRd w) ((s.tile t).x (fR2 w) ++ (s.tile t).x (fR1 w)) with pc := (s.tile t).pc + 4 }))
  ∧ (∀ (t : Fin 256) (e : TileEvent) (w : Nat) (s : State), s.extAt t = some (e, .xfmvXd, w) → (s.tile t).pc + 4 ≠ returnAddress →
    exec (.xfmvXd t) s = .next (s.setTile t { (s.tile t).setX (fRd w)
      (((s.tile t).d (fR1 w)).extractLsb' (if fF7 w % 2 = 1 then 32 else 0) 32) with pc := (s.tile t).pc + 4 }))
  ∧ (∀ (t : Fin 256) (e : TileEvent) (w : Nat) (s : State), s.extAt t = some (e, .xfcmp, w) → (s.tile t).pc + 4 ≠ returnAddress →
    exec (.xfcmp t) s = .next (s.setTile t { (s.tile t).setX (fRd w)
      (match fCmp (.ofBits .b64 ((s.tile t).d (fR1 w)).toNat) (.ofBits .b64 ((s.tile t).d (fR2 w)).toNat) with
        | some .lt => 0 | some .eq => 1 | some .gt => 2 | none => 3) with pc := (s.tile t).pc + 4 }))
  ∧ (∀ (t : Fin 256) (e : TileEvent) (w : Nat) (s : State), s.extAt t = some (e, .xkey, w) → (s.tile t).pc + 4 ≠ returnAddress →
    isNan .b32 ((s.tile t).x (fR1 w)).toNat = false →
    exec (.xkey t) s = .next (s.setTile t { (s.tile t).setX (fRd w) (BitVec.ofNat 32 (orderKey
      (if fF7 w % 2 = 1 then negate32 ((s.tile t).x (fR1 w)).toNat else posZero ((s.tile t).x (fR1 w)).toNat))) with pc := (s.tile t).pc + 4 }))
  ∧ (∀ (t : Fin 256) (e : TileEvent) (w : Nat) (s : State), s.extAt t = some (e, .xkey, w) → isNan .b32 ((s.tile t).x (fR1 w)).toNat = true →
    (s.tile t).running = some e → e.kind = .queryIn →
    Runs (.xkey t) s fun u => e.kernel ∈ (u.tile t).faulted ∧ (u.tile t).running = none ∧ u.grid.faults = (s.grid.faults + 1) % 2 ^ 32)
  ∧ (∀ (t : Fin 256) (e : TileEvent) (w : Nat) (s : State), s.extAt t = some (e, .xfcv, w) → (s.tile t).pc + 4 ≠ returnAddress →
    exec (.xfcv t) s = .next (s.setTile t { (s.tile t).setD (fRd w) (BitVec.ofNat 64 (int64 ((s.tile t).x (fR1 w)).toInt)) with pc := (s.tile t).pc + 4 }))

/-- Pass bits, posts and messages of a kernel, and its base instructions. XPASS reads no slot but the invocation's; XPCLR only clears; XPOST posts
nothing for a record without its pass bit or not better than τ, and else queues its candidate with a post credit; XMSEND
queues a message, or tells that the queue is full, XMRECV takes the oldest message for its slot; a base instruction steps the core, and
returning to the dispatcher ends the invocation. -/
def Obligations.KernelsPassPostAndSend : Prop :=
  (∀ (t : Fin 256) (e : TileEvent) (w : Nat) (s : State), s.extAt t = some (e, .xpass, w) → (s.tile t).pc + 4 ≠ returnAddress →
    (∀ p ∈ s.invQueries t e, (s.tile t).passBit e.metaBuf ((s.tile t).x (fR1 w)).toNat p.2 = false) →
    exec (.xpass t) s = .next (s.setTile t { (s.tile t).setX (fRd w) 0 with pc := (s.tile t).pc + 4 }))
  ∧ (∀ (t : Fin 256) (e : TileEvent) (w x slot : Nat) (s : State), s.extAt t = some (e, .xpass, w) → (s.tile t).pc + 4 ≠ returnAddress →
    e.ofStripe = true → s.invQueries t e = [(x, slot)] → ((s.tile t).x (fR1 w)).toNat < 2048 → fF7 w % 2 = slot / 32 →
    (s.tile t).passBit e.metaBuf ((s.tile t).x (fR1 w)).toNat slot = true →
    exec (.xpass t) s = .next (s.setTile t { (s.tile t).setX (fRd w) (BitVec.ofNat 32 (2 ^ (slot % 32))) with pc := (s.tile t).pc + 4 }))
  ∧ (∀ (t : Fin 256) (e : TileEvent) (w : Nat) (s : State), s.extAt t = some (e, .xpclr, w) → (s.tile t).pc + 4 ≠ returnAddress →
    e.kind = .metaSeg ∨ e.kind = .pblock →
    Runs (.xpclr t) s fun u => (∀ b i slot, (u.tile t).passBit b i slot = true → (s.tile t).passBit b i slot = true)
      ∧ (∀ slot, ((s.tile t).x (fR1 w)).toNat < 2048 → slot < 64 → (if fF7 w % 2 = 1 then 32 else 0) ≤ slot →
          ((s.tile t).x (fR2 w)).toNat.testBit (slot - (if fF7 w % 2 = 1 then 32 else 0)) = true →
          (u.tile t).passBit e.metaBuf ((s.tile t).x (fR1 w)).toNat slot = false)
      ∧ (u.tile t).pc = (s.tile t).pc + 4)
  ∧ (∀ (t : Fin 256) (e : TileEvent) (w a x : Nat) (q : Ctx) (s : State), s.extAt t = some (e, .xpost, w) → (s.tile t).pc + 4 ≠ returnAddress →
    e.kind = .vec ∨ e.kind = .pblock → e.what ≠ .centroids → ((s.tile t).x (fR2 w)).toNat = a → a < 2 ^ 17 → a / 64 < s.recordLimit e →
    (s.invQueries t e).find? (fun p => p.2 == a % 64) = some (x, a % 64) → s.slotQuery t x (a % 64) = some q →
    ((s.tile t).passBit e.metaBuf (a / 64) (a % 64) = false ∨ q.beatsTau ((s.tile t).x (fR1 w)).toNat (recSeq (e.record (a / 64))) = false) →
    exec (.xpost t) s = .next (s.setTile t { (s.tile t).setX (fRd w) 0 with pc := (s.tile t).pc + 4 }))
  ∧ (∀ (t : Fin 256) (e : TileEvent) (w a x : Nat) (q : Ctx) (s : State), s.extAt t = some (e, .xpost, w) → (s.tile t).pc + 4 ≠ returnAddress →
    e.kind = .vec ∨ e.kind = .pblock → e.what ≠ .centroids → ((s.tile t).x (fR2 w)).toNat = a → a < 2 ^ 17 → a / 64 < s.recordLimit e →
    (s.invQueries t e).find? (fun p => p.2 == a % 64) = some (x, a % 64) → s.slotQuery t x (a % 64) = some q →
    (s.tile t).passBit e.metaBuf (a / 64) (a % 64) = true → q.beatsTau ((s.tile t).x (fR1 w)).toNat (recSeq (e.record (a / 64))) = true →
    s.postFree t q.sorterNo = true →
    Runs (.xpost t) s fun u => u.sched.posts = s.sched.posts ++ [(q.sorterNo, x, s.candOf t e q (a / 64) ((s.tile t).x (fR1 w)).toNat)]
      ∧ u.used 0x0A q.sorterNo = s.used 0x0A q.sorterNo + 1 ∧ u.tile t = { (s.tile t).setX (fRd w) 1 with pc := (s.tile t).pc + 4 })
  ∧ (∀ (t : Fin 256) (e : TileEvent) (w : Nat) (h m : List Byte) (s : State), s.extAt t = some (e, .xmsend, w) → (s.tile t).pc + 4 ≠ returnAddress →
    s.tileRead t e ((s.tile t).x (fR2 w)).toNat 16 = some h → sendable t h = true →
    s.tileRead t e ((s.tile t).x (fR2 w)).toNat (64 + 64 * field h 6 2) = some m →
    exec (.xmsend t) s = .next (s.setTile t (if 32 ≤ (s.tile t).sendQueue.length then { (s.tile t).setX (fRd w) 1 with pc := (s.tile t).pc + 4 }
      else { (s.tile t).setX (fRd w) 0 with
        sendQueue := (s.tile t).sendQueue ++ [{ source := t, dest := field h 0 2, kernel := e.kernel, tag := field h 8 4, payload := m.drop 16 }]
        pc := (s.tile t).pc + 4 })))
  ∧ (∀ (t : Fin 256) (e : TileEvent) (w : Nat) (m : UserMsg) (rest : List UserMsg) (v : Tile) (s : State), s.extAt t = some (e, .xmrecv, w) →
    (s.tile t).pc + 4 ≠ returnAddress → takeFirst (fun m => m.kernel == e.kernel) (s.tile t).recvQueue = some (m, rest) →
    (s.tile t).storeAt e.kernel ((s.tile t).x (fR1 w)).toNat m.bytes = some v →
    exec (.xmrecv t) s = .next (s.setTile t { ({ v with recvQueue := rest } : Tile).setX (fRd w) (BitVec.ofNat 32 m.tag) with
      pc := (s.tile t).pc + 4 }))
  ∧ (∀ (t : Fin 256) (e : TileEvent) (len : Nat) (i : Rv) (v : Tile) (s : State), (s.tile t).running = some e → s.rvFetch t e = some (len, i) → (∀ w, i ≠ .ext w) →
    s.rvExec t e len i = .ok v → v.pc ≠ returnAddress → exec (.rv32imcInstruction t) s = .next (s.setTile t v))
  ∧ (∀ (t : Fin 256) (e : TileEvent) (len : Nat) (i : Rv) (v : Tile) (s : State), (s.tile t).running = some e → e.kind = .queryIn → s.rvFetch t e = some (len, i) →
    (∀ w, i ≠ .ext w) → s.rvExec t e len i = .ok v → v.pc = returnAddress →
    exec (.rv32imcInstruction t) s = .next ((s.setTile t v).setTile t { v with running := none }))

/-- Events of a tile. On a tile where nothing runs, the event at the head is served: a standard kernel in slot 0 to 3 returns at once from
QUERY_IN, META and RETIRE; a custom kernel's entry is called with the arguments of Table 9.5; SCAN posts the candidate of a record that passes, and
RANK ranks the lists. A USER message arrives with its event; an invocation over the time limit faults; TileReset marks the tile,
and once no query holds a slot there it resets the tile. -/
def Obligations.TilesServeTheirEvents : Prop :=
  (∀ (t : Fin 256) (e : TileEvent) (rest : List TileEvent) (s : State), (s.tile t).running = none → (s.tile t).events = e :: rest → e.kernel < 4 →
    (e.kind = .queryIn → exec (.queryIn t) s = .next (s.setTile t { s.tile t with events := rest }))
    ∧ (e.kind = .metaSeg → Runs (.metaEvent t) s fun u => (u.tile t).events = rest ∧ (u.tile t).running = none)
    ∧ (e.kind = .retire → Map.get? (s.tile t).slots e.first ≠ none →
        Runs (.retire t) s fun u => u.tile t = { s.tile t with events := rest, slots := Map.del (s.tile t).slots e.first }
          ∧ u.used 0x09 t = s.used 0x09 t - 1))
  ∧ (∀ (t : Fin 256) (e : TileEvent) (rest : List TileEvent) (s : State), (s.tile t).running = none → (s.tile t).events = e :: rest → 4 ≤ e.kernel → e.ctxs ≠ [] →
    ∀ p ∈ [(Instr.queryIn t, TileEventKind.queryIn), (.metaEvent t, .metaSeg), (.vec t, .vec), (.pblock t, .pblock), (.retire t, .retire)], e.kind = p.2 →
    Runs p.1 s fun u => (u.tile t).running = some e ∧ (u.tile t).started = s.clk.now ∧ (u.tile t).events = rest
      ∧ (u.tile t).pc = BitVec.ofNat 32 (s.kernel e.kernel).entry ∧ (u.tile t).x 1 = returnAddress ∧ (u.tile t).x 2 = 0x1008C000
      ∧ (e.kind = .vec → (u.tile t).x 10 = BitVec.ofNat 32 (3 + 16 * (e.vecBuf - 1) + 64 * e.metaBuf + 256 * e.vecIndex)
          ∧ (u.tile t).x 11 = BitVec.ofNat 32 (bufferBase e.metaBuf) ∧ (u.tile t).x 12 = BitVec.ofNat 32 (bufferBase (e.vecBuf - 1))
          ∧ (u.tile t).x 13 = BitVec.ofNat 32 e.first ∧ (u.tile t).x 14 = BitVec.ofNat 32 e.count))
  ∧ (∀ (t : Fin 256) (e : TileEvent) (rest : List TileEvent) (c : Coll) (q : Ctx) (x slot : Nat) (s : State), (s.tile t).running = none →
    (s.tile t).events = e :: rest → e.kernel = 0 → e.count = 1 → e.done = 0 → e.ctxs ≠ [] → s.invColl e = some c → s.invQueries t e = [(x, slot)] → s.ctx? x = some q →
    (s.tile t).passBit e.metaBuf e.first slot = true → s.postFree t q.sorterNo = true →
    q.beatsTau (rankOrderKey c.metric (score c.metric c.ty (elements c.ty c.dim q.vec) (elements c.ty c.dim (e.vector c.vecBytes e.first)) (recNorm (e.record e.first))))
      (recSeq (e.record e.first)) = true →
    ∀ p ∈ [(Instr.vec t, TileEventKind.vec), (.pblock t, .pblock)], e.kind = p.2 →
    Runs p.1 s fun u => u.sched.posts = s.sched.posts ++ [(q.sorterNo, x, s.candOf t e q e.first
        (rankOrderKey c.metric (score c.metric c.ty (elements c.ty c.dim q.vec) (elements c.ty c.dim (e.vector c.vecBytes e.first)) (recNorm (e.record e.first)))))]
      ∧ (u.tile t).events = rest)
  ∧ (∀ (t : Fin 256) (e : TileEvent) (rest : List TileEvent) (c : Coll) (q : Ctx) (x slot : Nat) (s : State), (s.tile t).running = none →
    (s.tile t).events = e :: rest → e.kind = .vec → e.kernel = 1 → e.ctxs ≠ [] → s.coll? e.coll = some c → c.metric ≠ .custom →
    s.invQueries t e = [(x, slot)] → s.ctx? x = some q →
    Runs (.vec t) s fun u => u.ctx? x = some { q with ranks := q.ranks ++ (List.range e.count).filterMap fun i => rankOne c e q (e.first + i) })
  ∧ (∀ (t f : Fin 256) (e : TileEvent) (m : UserMsg) (rest : List UserMsg) (s : State), (s.tile t).running = some e → f ≠ t → (s.tile t).recvQueue.length < 32 →
    s.mail f t = some (m, rest) → (∀ g < 256, g ≠ f.val → s.mail g t = none) →
    Runs (.msgEvent t) s fun u => (u.tile t).recvQueue = (s.tile t).recvQueue ++ [m]
      ∧ (u.tile t).events = (s.tile t).events ++ [{ kind := .msg, kernel := m.kernel }] ∧ (u.tile f).sendQueue = rest)
  ∧ (∀ (t : Fin 256) (e : TileEvent) (s : State), (s.tile t).running = some e → e.kind = .queryIn → s.kernelLimit < s.clk.now - (s.tile t).started →
    Runs (.kernelTimeLimit t) s fun u => e.kernel ∈ (u.tile t).faulted ∧ (u.tile t).running = none ∧ u.grid.faults = (s.grid.faults + 1) % 2 ^ 32
      ∧ u.log.last = nextEntry s.log.last)
  ∧ (∀ (via : Transport) (t : Fin 256) (s : State), 4 ≤ s.boot.stage → s.dict.applying = false →
    exec (.tileReset via t) s = .next { s.setTile t { s.tile t with resetPending := true } with dict := { s.dict with answer := .ok false } })
  ∧ (∀ (t : Fin 256) (s : State), (s.tile t).resetPending = true → (s.tile t).slots = [] → (s.tile t).running = none →
    Runs (.tileResetExecute t) s fun u => (u.tile t).faulted = [] ∧ (u.tile t).resetPending = false ∧ (∀ r, (u.tile t).x r = 0) ∧ (u.tile t).accs = []
      ∧ (u.tile t).mem = (s.tile t).mem ∧ u.log.last = nextEntry s.log.last)

/-! ## Commands of the host -/

/-- What a host command that passes its checks does at its admission: a QUERY takes one of the free contexts with its chunks and, on the sequencer
device, its stamp, day, generation and deadline in one step; a SELECT takes a context; a mutation takes a mutation slot and waits for
its hand-off, a FENCE, a drop, a compaction and a load wait as live commands with their number in the queue, and an export on
the sequencer device has its stamp and generation; a FENCE ends when all before it has, with STAMP telling the committed sequence. -/
def Obligations.HostCommandsAreAdmitted : Prop :=
  (∀ (f : Fetched) (c : Coll) (s u : State), s.begin_ 0x01 = some (f, u) → s.queryCheck f.origin.burrow f.bytes = none → s.served (dColl f.bytes) = some c →
    s.queryCredits (qK f.bytes) = true → s.isSequencer c = true → c.mediaQuery = false → qK f.bytes ≠ 0 →
    Runs .query s fun t => ∃ x < 4096, s.ctx? x = none ∧ t.ctx? x = some { queryCtx c f.bytes (Map.freeKey s.host.live 4096 0) f.origin.burrow (s.cfg 0x2100 2) with
        sorterNo := s.bestSorter 0x04 Config.localChunks, stamp := c.committed, day := s.today, generation := c.generation, root := c.root
        deadline := s.clk.now + field f.bytes 20 4, phase := .ready }
      ∧ t.used 0x03 0 = s.used 0x03 0 + 1
      ∧ t.used 0x04 (s.bestSorter 0x04 Config.localChunks) = s.used 0x04 (s.bestSorter 0x04 Config.localChunks) + chunksFor (qK f.bytes))
  ∧ (∀ (f : Fetched) (s u : State), s.begin_ 0x20 = some (f, u) → selectCheck f.bytes = none → s.queryCredits (selectK f.bytes) = true → selectK f.bytes ≠ 0 →
    Runs .select s fun t => ∃ x < 4096, s.ctx? x = none ∧ ∃ q, t.ctx? x = some q ∧ q.phase = .ready ∧ q.k = selectK f.bytes
        ∧ q.deadline = s.clk.now + field f.bytes 20 4 ∧ q.resultAddr = field f.bytes 40 8
      ∧ t.used 0x03 0 = s.used 0x03 0 + 1)
  ∧ (∀ p ∈ [(Instr.insert, 0x10), (.delete, 0x11), (.upsert, 0x12)], ∀ (f : Fetched) (s u : State), s.begin_ p.2 = some (f, u) →
    s.mutationCheck f.origin.burrow f.bytes = none → s.used 0x05 0 < Config.mutationSlots →
    Runs p.1 s fun t => ∃ l, t.live? (Map.freeKey s.host.live 4096 0) = some l ∧ l.bytes = f.bytes ∧ l.origin = f.origin ∧ l.order = f.order
      ∧ l.mutationSlot = true ∧ l.passed = false ∧ t.used 0x05 0 = s.used 0x05 0 + 1 ∧ t.used 0x02 0 = s.used 0x02 0 + 1 ∧ t.host.admitting = none)
  ∧ (∀ (f : Fetched) (s u : State), s.begin_ 0x40 = some (f, u) → u.fenceCheck f.origin.burrow f.bytes = none →
    Runs .fence s fun t => ∃ l, t.live? (Map.freeKey s.host.live 4096 0) = some l ∧ l.bytes = f.bytes ∧ l.origin = f.origin ∧ l.order = f.order
      ∧ l.admitted = s.host.admitOrder ∧ t.host.waiting = s.host.waiting)
  ∧ (∀ (b : Fin 64) (q : Fin 16) (key : Nat) (l : Live) (s : State), s.liveFence b q = some (key, l) → s.live? key = some l → s.fenceDone key l = true →
    l.ctx = none → l.mutationSlot = false → (dFlags l.bytes).testBit 1 = false →
    Runs (.fenceComplete b q) s fun t => t.live? key = none ∧ t.host.waiting = s.host.waiting ++ [plain l.origin stOk])
  ∧ (∀ (b : Fin 64) (q : Fin 16) (key : Nat) (l : Live) (c : Coll) (s : State), s.liveFence b q = some (key, l) → s.fenceDone key l = true →
    (dFlags l.bytes).testBit 1 = true → s.served (dColl l.bytes) = some c → c.recovered = none → s.isSequencer c = true →
    Runs (.fenceComplete b q) s fun t => t.live? key = none ∧ t.host.waiting = s.host.waiting ++ [{ origin := l.origin, status := stOk, stamp := c.committed }])
  ∧ (∀ p ∈ [(Instr.collectionDrop, 0x51), (.compact, 0x52)], ∀ (f : Fetched) (s u : State), s.begin_ p.2 = some (f, u) →
    u.manageCheck f.origin.burrow f.bytes (dropFieldsOk f.bytes) (p.2 == 0x51) = none →
    Runs p.1 s fun t => ∃ l, t.live? (Map.freeKey s.host.live 4096 0) = some l ∧ l.bytes = f.bytes ∧ l.origin = f.origin ∧ l.coll = dColl f.bytes ∧ l.passed = false)
  ∧ (∀ (f : Fetched) (c : Coll) (data : List Byte) (s u : State), s.begin_ 0x53 = some (f, u) → s.manageCheck f.origin.burrow f.bytes (loadFieldsOk f.bytes) false = none →
    u.served (dColl f.bytes) = some c → data.length = field f.bytes 24 8 → imageCheck c.target data = none →
    Runs (.loadLists data) s fun t => ∃ l, t.live? (Map.freeKey s.host.live 4096 0) = some l ∧ l.bytes = f.bytes ∧ l.origin = f.origin ∧ l.passed = false
      ∧ t.out = s.out ++ [.hostRead (f.origin.burrow + 1) (field f.bytes 16 8) data.length])
  ∧ (∀ (f : Fetched) (c : Coll) (s u : State), s.begin_ 0x54 = some (f, u) → u.exportCheck f.origin.burrow f.bytes = none → u.served (dColl f.bytes) = some c →
    u.isSequencer c = true →
    Runs .snapshotExport s fun t => ∃ l, t.live? (Map.freeKey s.host.live 4096 0) = some l ∧ l.bytes = f.bytes ∧ l.passed = true
      ∧ l.exporting = some { stamp := c.committed, generation := c.generation, root := c.root })

/-- Programs, collections and payloads. A PROGRAM_LOAD of length 0 empties its slot, one whose image passes its checks loads its kernel if the
signature holds and else leaves the slot and logs it; a collection on this device alone is created with generation 0 and completes; a payload write of
0 elements removes the handle's version, one of more writes the stored form in free granules and then the directory entry; a read writes header
and body; a handle without a version is told in the header; the granules of a replaced version are freed. -/
def Obligations.ProgramsCollectionsAndPayloads : Prop :=
  (∀ (f : Fetched) (data : List Byte) (s u : State), s.begin_ 0x60 = some (f, u) → u.programAllowed f.origin.burrow f.bytes = true → field f.bytes 16 4 = 0 →
    Runs (.programLoad data) s fun t => t.kernel (field f.bytes 4 1) = {} ∧ t.host.waiting = s.host.waiting ++ [plain f.origin stOk]
      ∧ ∀ i : Fin 256, field f.bytes 4 1 ∉ (t.tile i).faulted)
  ∧ (∀ (f : Fetched) (data pk : List Byte) (k : Kernel) (s u : State), s.begin_ 0x60 = some (f, u) → u.programAllowed f.origin.burrow f.bytes = true →
    field f.bytes 16 4 ≠ 0 → data.length = field f.bytes 16 4 → kernelOf data (field f.bytes 4 1) f.origin.burrow = some k →
    1 ≤ field data 7 1 ∧ field data 7 1 ≤ 4 → s.programKey (field data 7 1) = some pk →
    Runs (.programLoad data) s fun t => match signatureOk pk data with
      | true => t.kernel (field f.bytes 4 1) = k ∧ t.host.waiting = s.host.waiting ++ [plain f.origin stOk]
      | false => t.grid = s.grid ∧ t.host.waiting = s.host.waiting ++ [plain f.origin stInvalid] ∧ t.log.last = nextEntry s.log.last)
  ∧ (∀ (f : Fetched) (r : Nat) (c : Coll) (s u v w : State), s.begin_ 0x50 = some (f, u) → u.createCheck f.origin.burrow f.bytes = none →
    (mapDevices (parseRanges (f.bytes.drop 128) (createRanges f.bytes))).filter (· != u.self) = [] → u.takeIn f = (Map.freeKey s.host.live 4096 0, v) →
    v.alloc f.origin.burrow 6 (dColl f.bytes) Config.noSegment 0 = some (r, w) →
    c = newColl (slice f.bytes 4 16) (dFlags f.bytes) f.origin.burrow (parseRanges (f.bytes.drop 128) (createRanges f.bytes)) →
    Runs .collectionCreate s fun t => t.coll? (dColl f.bytes) = some { c with created := true, generation := 0, root := r, seqr := some {} }
      ∧ t.host.waiting = s.host.waiting ++ [plain f.origin stOk])
  ∧ (∀ (key : Nat) (l : Live) (data : List Byte) (s : State), s.begin_ 0x31 = none → s.oldestLive 0x31 = some key → s.live? key = some l →
    field l.bytes 8 4 = 0 →
    Runs (.payloadWrite data) s fun t => t.handle l.origin.burrow (field l.bytes 4 4) = none ∧ t.live? key = none ∧ t.host.waiting = s.host.waiting ++ [plain l.origin stOk])
  ∧ (∀ (key seg first : Nat) (l : Live) (data : List Byte) (s w : State), s.begin_ 0x31 = none → s.oldestLive 0x31 = some key → s.live? key = some l →
    field l.bytes 4 4 ≠ 0 → field l.bytes 8 4 ≠ 0 → badSource l.bytes l.data = false → s.hasPage l.origin.burrow (field l.bytes 4 4) = true →
    s.findRun l.origin.burrow (granulesFor ((payFmtOf l.bytes).stored (field l.bytes 8 4))) = some (seg, first) →
    s.charge l.origin.burrow (tokensFor ((payFmtOf l.bytes).stored (field l.bytes 8 4))) = some w →
    Runs (.payloadWrite data) s fun t => t.handle l.origin.burrow (field l.bytes 4 4) = some {
          fmt := payFmtOf l.bytes, n := field l.bytes 8 4
          s := (payFmtOf l.bytes).stored (field l.bytes 8 4), seg := seg, granule := first }
      ∧ t.mem = (s.segWrite seg (4096 * first) (storedForm (payFmtOf l.bytes) (field l.bytes 8 4) l.data)).mem
      ∧ t.host.waiting = s.host.waiting ++ [{ plain l.origin stOk with count := (payFmtOf l.bytes).stored (field l.bytes 8 4) }])
  ∧ (∀ (key : Nat) (l : Live) (s : State), s.begin_ 0x30 = none → s.oldestLive 0x30 = some key → s.live? key = some l →
    s.handle l.origin.burrow (field l.bytes 4 4) = none → 64 ≤ field l.bytes 24 4 →
    Runs .payloadRead s fun t => t.out = s.out ++ [.write (l.origin.burrow + 1) (field l.bytes 16 8) (payHeader (field l.bytes 4 4) 0xFF 1 0 0 0) true]
      ∧ t.host.waiting = s.host.waiting ++ [plain l.origin stOk])
  ∧ (∀ (key : Nat) (l : Live) (v : Handle) (s w : State), s.begin_ 0x30 = none → s.oldestLive 0x30 = some key → s.live? key = some l →
    s.handle l.origin.burrow (field l.bytes 4 4) = some v → v.damaged = false → (dFlags l.bytes).testBit 0 = false → 64 + v.s ≤ field l.bytes 24 4 →
    s.readable v.seg = true → s.charge l.origin.burrow (tokensFor v.s) = some w →
    Runs .payloadRead s fun t => t.out = s.out ++ [.write (l.origin.burrow + 1) (field l.bytes 16 8) (payHeader (field l.bytes 4 4) v.fmt.code 0 0 64 v.n) true,
                                                   .write (l.origin.burrow + 1) (field l.bytes 16 8 + 64) (s.payloadBytes v) true]
      ∧ t.host.waiting = s.host.waiting ++ [{ plain l.origin stOk with count := 64 + v.s }])
  ∧ (∀ (i b : Nat) (v : Handle) (us : List Nat) (s : State), s.pay.old[i]? = some (b, v) → Map.get? s.pay.granules v.seg = some us →
    (∃ j ∈ us, j < v.granule ∨ v.granule + granulesFor v.s ≤ j) →
    Runs (.payloadGranuleFree i) s fun t => t.pay = { s.pay with
      old := s.pay.old.eraseIdx i
      granules := Map.put s.pay.granules v.seg (us.filter fun j => !((List.range (granulesFor v.s)).map (v.granule + ·)).contains j) })

/-! ## The life of a query -/

/-- Stamps, dispatch and ranking. The sequencer device answers STAMP_REQ with the committed sequence; STAMP_RSP gives the query that waits for
it stamp, day, generation and deadline in one step, and a live FENCE its stamp; QUERY_DISPATCH gives a ready query slots on the tiles
chosen and starts its ranking, and a ready SELECT slots in its group; RANKING_MERGE issues the next wave from the ranked lists; the deadline
of a query that is in no wave ends it INCOMPLETE or with what lapsed. -/
def Obligations.QueriesAreStampedAndRanked : Prop :=
  (∀ (i : Nat) (m : List Byte) (c : Coll) (s u : State), s.takeKind i mStamp 0 = some (m, u) → s.served (msgColl m) = some c → s.isSequencer c = true →
    s.deviceId ≠ some (msgDest (s.mkMsg (msgSource m) mStamp 0 (msgTag m) (msgRequester m) (msgColl m) ([1, 0] ++ toLE 6 c.committed)).bytes) →
    Runs (.stampReq i) s fun t => t.fab.inbox = s.fab.inbox.eraseIdx i
      ∧ t.fab.transit = s.fab.transit ++ [s.mkMsg (msgSource m) mStamp 0 (msgTag m) (msgRequester m) (msgColl m) ([1, 0] ++ toLE 6 c.committed)])
  ∧ (∀ (i x key : Nat) (m : List Byte) (r : Request) (q : Ctx) (c : Coll) (s u : State), s.takeKind i mStamp 1 = some (m, u) →
    u.awaited mStamp (msgSource m) (msgTag m) (msgColl m) = some r → r.owner < 8192 → s.ctx? x = some q → q.phase = .stamping → q.tag = r.owner →
    q.cmd = some key → s.served q.coll = some c → q.k ≠ 0 → c.mediaQuery = false → (∀ y q', y ≠ x → s.ctx? y = some q' → q'.phase ≠ .stamping) →
    Runs (.stampRsp i) s fun t => t.ctx? x = some { q with
        stamp := field (msgBody m) 2 6, day := s.today, generation := c.generation, root := c.root, deadline := s.clk.now + q.deadline, phase := .ready })
  ∧ (∀ (i : Nat) (m : List Byte) (r : Request) (l : Live) (s u : State), s.takeKind i mStamp 1 = some (m, u) →
    u.awaited mStamp (msgSource m) (msgTag m) (msgColl m) = some r → 8192 ≤ r.owner → s.live? (r.owner - 8192) = some l → l.opcode ≠ 0x54 →
    Runs (.stampRsp i) s fun t => t.live? (r.owner - 8192) = some { l with data := toLE 6 (field (msgBody m) 2 6), passed := true })
  ∧ (∀ (x : Nat) (q : Ctx) (c : Coll) (ts : List Nat) (s : State), x < 4096 → s.ctx? x = some q → q.isSelect = false → s.coll? q.coll = some c →
    q.phase = .ready → q.generation ≠ 0 → c.lists ≠ 1 → s.hasBound c = true → s.chooseTiles c q.generation c.kernel c.vecBytes = some ts →
    Runs (.queryDispatch x) s fun t => ∃ tiles, tiles.map Prod.fst = ts ∧ t.ctx? x = some { q with tiles := tiles, phase := .ranking, ranks := [] })
  ∧ (∀ (x : Nat) (q : Ctx) (ts : List Nat) (s : State), s.ctx? x = some q → q.isSelect = true → q.phase = .ready →
    s.groupTiles (s.draw.1 % max (16 / max (s.cfg 0x2100 5) 1) 1) (s.cfg 0x2100 5) 2 1 = some ts →
    Runs (.queryDispatch x) s fun t => ∃ tiles, tiles.map Prod.fst = ts ∧ t.ctx? x = some { q with tiles := tiles, phase := .wave })
  ∧ (∀ (x : Nat) (q : Ctx) (c : Coll) (s : State), s.ctx? x = some q → s.coll? q.coll = some c → q.phase = .ranking → s.busyWith x .centroids = false →
    q.isBlocked none = false → s.tooLate q = false →
    Runs (.rankingMerge x) s fun t => ∃ q', t.ctx? x = some q' ∧ q'.phase = .wave ∧ q'.waves = q.waves + 1
      ∧ q'.table = (q.fillTable (sortRanked q.ranks)).table.drop ((q.fillTable (sortRanked q.ranks)).waveLists' q.width).length)
  ∧ (∀ (x : Nat) (q : Ctx) (c : Coll) (s : State), x < 4096 → s.ctx? x = some q → s.coll? q.coll = some c → q.deadline ≤ s.clk.now →
    (q.phase = .ready ∨ q.phase = .ranked ∨ q.phase = .ranking) →
    Runs (.queryDeadline x) s fun t => ∃ q', t.ctx? x = some q' ∧ q'.phase = .decided ∧ q'.status = (s.judge q c).finalStatus stIncomplete ∧ q'.sealed = false)

/-- Streams of stripes and the sorter. LIST_ISSUE takes a fetch tag for the stripe that is due next; a metadata segment and a vector segment that are
read well reach each of the tiles that take them as an event with a buffer, and a segment that is paged out is asked for; NEED_MASK joins a
tile's mask; SORTER_POST posts the sorter's oldest candidate to its query; at the end of a last wave nothing blocks the seal and
the query is decided, and a remote wave is answered with its records. -/
def Obligations.StripesReachTheirTiles : Prop :=
  (∀ (i j n : Nat) (st : Stream) (c : Coll) (w : Waiter) (ws : List Waiter) (s : State), s.sched.streams[i]? = some st → s.coll? st.coll = some c →
    st.waiters = w :: ws → st.issued = false → st.nextStripe = some j → s.stripeSeg c { st with stripe := j, metaBytes := [] } = some n →
    s.used 0x07 (s.stackOf n) < Config.stackTags → s.cfg 0x2100 1 ≤ (s.clk.now - w.since) * 1000 →
    Runs (.listIssue i) s fun t => t.sched.streams[i]? = some { st with issued := true, stripe := j, phase := .metaDue, tag := some (s.stackOf n), metaBytes := [] }
      ∧ t.used 0x07 (s.stackOf n) = s.used 0x07 (s.stackOf n) + 1 ∧ (t.seg_ n).tags = (s.seg_ n).tags + 1)
  ∧ (∀ (i n : Nat) (found : BurstRead) (slot bs : List Byte) (st : Stream) (c : Coll) (s u : State) (able part : List Nat), s.sched.streams[i]? = some st →
    s.coll? st.coll = some c → st.issued = true → st.phase = .metaDue → s.stripeSeg c st = some n → s.readSegment n found slot = .bytes bs u →
    headerOk (bs.take 256) st.what.headerType st.coll = true →
    u.payers 1024 64 (once (((st.waiters.filter fun w => w.stripes.contains st.stripe).map (·.ctx)).map (u.payer c))) = able →
    (((st.waiters.filter fun w => w.stripes.contains st.stripe).map (·.ctx)).filter fun x => able.contains (u.payer c x)) = part → part ≠ [] →
    (∀ tl ∈ u.stripeTiles st part, (u.tile tl).freeBuffer.isSome) →
    Runs (.segmentDelivery i found slot) s fun t => ∀ tl ∈ u.stripeTiles st part,
      ∃ e ∈ (t.tile tl).events, e.kind = .metaSeg ∧ e.coll = st.coll ∧ e.what = st.what ∧ e.stripe = st.stripe ∧ e.metaBytes = bs ∧ e.count = hdrCount bs)
  ∧ (∀ (i v : Nat) (found : BurstRead) (slot bs : List Byte) (st : Stream) (c : Coll) (s u : State), s.sched.streams[i]? = some st → s.coll? st.coll = some c →
    st.issued = true → st.phase = .vectorsDue → lowestBit st.need = some v → s.readSegment (hdrVec st.metaBytes v) found slot = .bytes bs u →
    (∀ p ∈ shares 1024 (once (st.part.map (u.payer c))), u.canPay p.1 p.2 = true) →
    (∀ tb ∈ st.tiles, (st.what = .centroids ∨ ((u.tile tb.1).needs tb.2 (geoE c.vecBytes)).testBit v = true) → (u.tile tb.1).freeBuffer.isSome) →
    Runs (.segmentDelivery i found slot) s fun t =>
      (∀ tb ∈ st.tiles, (st.what = .centroids ∨ ((u.tile tb.1).needs tb.2 (geoE c.vecBytes)).testBit v = true) →
        ∃ e ∈ (t.tile tb.1).events, e.kind = .vec ∧ e.vecBytes = bs ∧ e.vecIndex = v ∧ e.stripe = st.stripe ∧ e.metaBuf = tb.2)
      ∧ (st.need ≠ 2 ^ v → t.sched.streams[i]? = some { st with need := st.need - 2 ^ v }))
  ∧ (∀ (i n : Nat) (found : BurstRead) (slot : List Byte) (st : Stream) (c : Coll) (s : State), s.sched.streams[i]? = some st → s.coll? st.coll = some c →
    st.issued = true → st.phase = .metaDue → s.stripeSeg c st = some n → (s.seg_ n).state = .paged → (∀ w ∈ s.seg.wanted, w.1 ≠ n) →
    exec (.segmentDelivery i found slot) s = .next { s with seg := { s.seg with wanted := s.seg.wanted ++ [(n, true)] } })
  ∧ (∀ (t : Fin 256) (i : Nat) (st : Stream) (c : Coll) (need : Nat) (s : State), s.sched.streams.findIdx? (s.maskReady t.val) = some i → s.sched.streams[i]? = some st →
    s.coll? st.coll = some c → (st.need ||| s.needOf (geoE c.vecBytes) (st.tiles.filter fun tb => tb.1 == t.val)) = need →
    Runs (.needMask t) s fun u => (st.tilesDue.erase t.val ≠ [] → u.sched.streams[i]? = some { st with tilesDue := st.tilesDue.erase t.val, need := need })
      ∧ (st.tilesDue.erase t.val = [] → need ≠ 0 → u.sched.streams[i]? = some { st with tilesDue := [], need := need, phase := .vectorsDue }))
  ∧ (∀ (n : Fin 16) (k x : Nat) (d : Cand) (rest : List (Nat × Nat × Cand)) (q : Ctx) (s : State),
    takeFirst (fun p => p.1 == n.val) s.sched.posts = some ((k, x, d), rest) → s.ctx? x = some q → q.phase = .wave →
    Runs (.sorterPost n) s fun t => t.sched.posts = rest ∧ t.ctx? x = some { q with sorter := q.sorter.post d })
  ∧ (∀ (x : Nat) (q : Ctx) (c : Coll) (s : State), x < 4096 → s.ctx? x = some q → s.coll? q.coll = some c → q.phase = .wave → s.waveDone x q = true →
    q.remotes = [] → s.tooLate q = false → q.table = [] → q.far = [] → q.beyond = none → q.outLists = [] →
    Runs (.waveEnd x) s fun t => ∃ q', t.ctx? x = some q' ∧ q'.phase = .decided ∧ q'.status = q.finalStatus stOk ∧ q'.sealed = (q.finalStatus stOk == stOk)
      ∧ q'.scanned = q.scanned + q.waveLists.length)
  ∧ (∀ (x : Nat) (q : Ctx) (c : Coll) (recs : List (List Byte)) (s : State), 4096 ≤ x → s.ctx? x = some q → s.coll? q.coll = some c → q.phase = .wave →
    s.waveDone x q = true → q.remotes = [] → s.resultRecords { q with sorter := q.sorter.endWave } c q.sorter.endWave.top = some recs → recs.length ≤ 500 →
    s.deviceId ≠ some (msgDest (s.mkMsg q.home mWaveRsp 4 q.tag q.home q.coll (waveRspBody q.waves q.waveLists.length q.waveDamaged recs)).bytes) →
    Runs (.waveEnd x) s fun t => t.ctx? x = some { q with sorter := q.sorter.endWave, phase := .ranked, waveLists := [], waveDamaged := [] }
      ∧ t.fab.transit = s.fab.transit ++ [s.mkMsg q.home mWaveRsp 4 q.tag q.home q.coll (waveRspBody q.waves q.waveLists.length q.waveDamaged recs)])

/-- Results, and queries across devices. RESULT_WRITE writes the next burst of result records at the result address, and the last one without payloads
ends the query with its completion; WAVE_REQ starts a wave of a query that the device already holds; WAVE_RSP counts what the other device
scanned; RELEASE and the timeout free the remote state; a wave request that is lost takes its device out of the query; REFUSED ends the query with
CODEC_TABLE_MISMATCH; a SELECT round takes the round's elements and goes on. -/
def Obligations.ResultsAreWrittenAndWavesAnswered : Prop :=
  (∀ (x key : Nat) (q : Ctx) (c : Coll) (l : Live) (recs : List (List Byte)) (s : State), s.ctx? x = some q → q.cmd = some key → s.live? key = some l →
    s.coll? q.coll = some c → (q.phase = .decided ∨ q.phase = .writing) → s.used 0x0B 0 + 64 ≤ Config.stagingPlaces →
    (∀ d ∈ q.sorter.top, s.recordGone d = false) → s.resultRecords q c ((q.sorter.top.drop q.written).take 64) = some recs →
    (s.burrow l.origin.burrow).discard = false → l.origin.gen = (s.burrow l.origin.burrow).generation → q.payload = false →
    Runs (.resultWrite x) s fun t =>
      t.out = s.out ++ recs.zipIdx.map (fun r => .write (l.origin.burrow + 1) (q.resultAddr + recordSize q.full * (q.written + r.2)) (r.1.take (recordSize q.full)) true)
      ∧ (q.written + 64 < q.sorter.top.length → t.ctx? x = some { q with written := q.written + 64, phase := .writing })
      ∧ (q.written ≤ q.sorter.top.length → q.sorter.top.length ≤ q.written + 64 → t.live? key = none ∧ t.host.waiting = s.host.waiting ++ [{
            origin := l.origin, status := q.status, sealed := q.sealed, count := q.sorter.top.length, lists := q.scanned
            stamp := q.stamp, waves := q.waves % 65536, ctx := some x }]))
  ∧ (∀ (i x : Nat) (m : List Byte) (c : Coll) (g : Nat × Nat) (q : Ctx) (s u : State), s.boot.fenced = false → s.take i mWaveReq = some (m, u) →
    s.served (msgColl m) = some c → c.generations.find? (fun g => g.1 == field (msgBody m) 8 8) = some g → s.remoteCtx (msgSource m) (msgTag m) = some x →
    s.ctx? x = some q →
    Runs (.waveReq i) s fun t => ∃ q', t.ctx? x = some q' ∧ q'.phase = .wave ∧ q'.stamp = field (msgBody m) 0 6 ∧ q'.waves = field (msgBody m) 6 2
      ∧ q'.generation = g.1 ∧ q'.root = g.2 ∧ q'.day = field (msgBody m) 16 4 ∧ q'.k = field (msgBody m) 20 2 ∧ q'.tau = wireTau (msgBody m)
      ∧ q'.deadline = s.clk.now + field (msgBody m) 36 4 ∧ (q'.waveLists ++ q'.waveDamaged).Perm (wireLists (msgBody m)))
  ∧ (∀ (i : Nat) (m : List Byte) (r : Request) (c : Coll) (q : Ctx) (s u : State), s.take i mWaveRsp = some (m, u) →
    u.awaited mWaveReq (msgSource m) (msgTag m) (msgColl m) = some r → s.waveQuery r = some q → s.coll? (msgColl m) = some c →
    Runs (.waveRsp i) s fun t => ∃ q', t.ctx? r.owner = some q' ∧ q'.scanned = q.scanned + field (msgBody m) 6 2
      ∧ q'.remotes = (if msgLast m then q.remotes.erase (msgSource m) else q.remotes) ∧ t.fab.lateResponses = s.fab.lateResponses)
  ∧ (∀ (i x : Nat) (m : List Byte) (s u : State), s.take i mRelease = some (m, u) → s.remoteCtx (msgSource m) (msgTag m) = some x →
    Runs (.release i) s fun t => t.ctx? x = none)
  ∧ (∀ (x : Nat) (q : Ctx) (s : State), 4096 ≤ x → s.ctx? x = some q → q.deadline + Config.recoveryBoundUs < s.clk.now →
    Runs (.remoteStateTimeout x) s fun t => t.ctx? x = none)
  ∧ (∀ (i : Nat) (r : Request) (q : Ctx) (s : State), s.fab.requests[i]? = some r → r.until_ < s.clk.now → r.kind = mWaveReq → s.waveQuery r = some q →
    Runs (.requestLost i) s fun t => t.fab.lostRequests = (s.fab.lostRequests + 1) % 2 ^ 32
      ∧ ∃ q', t.ctx? r.owner = some q' ∧ q'.remotes = q.remotes.erase r.dest ∧ q'.lostDevices = q.lostDevices ++ [r.dest]
        ∧ q'.table = q.table.filter (fun e => e.owner != r.dest))
  ∧ (∀ (i : Nat) (m : List Byte) (r : Request) (q : Ctx) (s u : State), s.take i mRefused = some (m, u) → u.refusedRequest (msgTag m) (msgColl m) = some r →
    r.kind = mWaveReq → s.waveQuery r = some q →
    Runs (.refused i) s fun t => ∃ q', t.ctx? r.owner = some q' ∧ q'.phase = .decided ∧ q'.status = stTable ∧ q'.sealed = false ∧ q'.sorter.top = [])
  ∧ (∀ (x key first n : Nat) (q : Ctx) (l : Live) (source : List Byte) (posts : List Cand) (s : State), s.ctx? x = some q → q.cmd = some key → s.live? key = some l →
    q.isSelect = true → q.phase = .wave → s.clk.now ≤ q.deadline → selRound q (selLength l.bytes) = (first, n) → first + n < selLength l.bytes →
    ((selCands (field l.bytes 4 1) (selElem l.bytes) n first (padTo (n * selElem l.bytes) source)).filter fun d => q.beatsTau d.key d.seq) = posts →
    Runs (.selectRoundEnd x source) s fun t => t.ctx? x = some { q with
        sorter := (posts.foldl Sorter.post q.sorter).endWave, tau := (posts.foldl Sorter.post q.sorter).endWave.tau, round := q.round + 1, waves := q.round + 1 })

/-- R257. The deadline of a SELECT: it completes INCOMPLETE with the rows written so far and writes nothing more, its live command is gone, and no round of it is
issued afterwards; nor is one after the deadline has passed, before the command has ended. -/
def Obligations.SelectDeadlineEndsTheCommand : Prop :=
  (∀ (x key : Nat) (q : Ctx) (l : Live) (s : State), s.ctx? x = some q → q.isSelect = true → (q.phase = .ready ∨ q.phase = .wave) → q.deadline ≤ s.clk.now →
    q.cmd = some key → s.live? key = some l →
    Runs (.selectDeadline x) s fun t => t.out = s.out ∧ t.live? key = none
      ∧ t.host.waiting = s.host.waiting ++ [{ origin := l.origin, status := 0x0002, sealed := false, count := q.written, lists := q.scanned
                                              stamp := q.stamp, waves := q.waves % 65536, ctx := some x }]
      ∧ ∀ source, exec (.selectRoundEnd x source) t = .next t)
  ∧ (∀ (x : Nat) (q : Ctx) (source : List Byte) (s : State), s.ctx? x = some q → q.isSelect = true → q.deadline < s.clk.now →
    exec (.selectRoundEnd x source) s = .next s)

/-! ## Mutations across devices -/

/-- Mutations reach their sequencer and are accepted in turn. MUTATION_HANDOFF puts the oldest command of a queue that may go into the
sequencer's queue, or sends MUT_FWD to the sequencer device; MUT_FWD puts a forwarded command into the queue; MUT_RSP ends the live
command with its status, result count 1 when it was accepted, and its number as the stamp; SEQUENCER_ACCEPT answers a DELETE without a
target OK, refuses an INSERT of a live ID, gives a DELETE or an INSERT the number after the committed one with its writes
outstanding, and starts a load. -/
def Obligations.MutationsAreForwardedAndAccepted : Prop :=
  (∀ (b : Fin 64) (p : Fin 16) (key : Nat) (l : Live) (c : Coll) (q : Sequencer) (s : State), s.unhanded b.val p.val = some (key, l) → s.served l.coll = some c →
    (c.lost = false ∨ l.opcode ≠ 0x51) → s.isSequencer c = true → c.seqr = some q → q.held = false →
    Runs (.mutationHandoff b p) s fun t => t.live? key = some { l with passed := true }
      ∧ t.coll? l.coll = some { c with seqr := some { q with queue := q.queue ++ [{
          device := s.self, tag := s.cmdTag key, burrow := l.origin.burrow, desc := padTo 128 l.bytes
          vec := if l.opcode = 0x10 ∨ l.opcode = 0x12 then cmdVector c l.bytes else [] }] } })
  ∧ (∀ (b : Fin 64) (p : Fin 16) (key : Nat) (l : Live) (c : Coll) (m : Message) (s : State), s.unhanded b.val p.val = some (key, l) → s.served l.coll = some c →
    (c.lost = false ∨ l.opcode ≠ 0x51) → sequencerOf c.shards ≠ s.self → sequencerOf c.shards < 128 →
    s.mkMsg (sequencerOf c.shards) mMutFwd 0 (s.cmdTag key) s.self l.coll (mutFwdBody l.origin.burrow (padTo 128 l.bytes)
      (if l.opcode = 0x10 ∨ l.opcode = 0x12 then cmdVector c l.bytes else [])) = m →
    s.used 0x0E (sequencerOf c.shards) + landingNeed m ≤ Config.landingUnits →
    Runs (.mutationHandoff b p) s fun t => t.live? key = some { l with passed := true } ∧ t.fab.transit = s.fab.transit ++ [m])
  ∧ (∀ (i : Nat) (m : List Byte) (c : Coll) (q : Sequencer) (s u : State), s.boot.fenced = false → s.take i mMutFwd = some (m, u) → s.served (msgColl m) = some c →
    c.seqr = some q → q.held = false →
    Runs (.mutFwd i) s fun t => t.fab.inbox = s.fab.inbox.eraseIdx i ∧ t.coll? (msgColl m) = some { c with seqr := some { q with queue := q.queue ++ [{
        device := msgSource m, tag := msgTag m, burrow := field (msgBody m) 128 1 % 64, desc := (msgBody m).take 128, vec := (msgBody m).drop 136 }] } })
  ∧ (∀ (i : Nat) (m : List Byte) (s u : State), s.boot.fenced = false → s.take i mMutFwd = some (m, u) → s.served (msgColl m) = none → msgSource m ≠ s.self →
    Runs (.mutFwd i) s fun t => t.fab.transit = s.fab.transit
      ++ [s.mkMsg (msgSource m) mMutRsp 0 (msgTag m) (msgSource m) (msgColl m) (toLE 2 stNoColl ++ toLE 6 0 ++ zeros 8)])
  ∧ (∀ (i key : Nat) (m : List Byte) (r : Request) (l : Live) (s u : State), s.take i mMutRsp = some (m, u) →
    u.awaited mMutFwd (msgSource m) (msgTag m) (msgColl m) = some r → s.byTag (msgTag m) = some key → s.live? key = some l →
    Runs (.mutRsp i) s fun t => t.live? key = none ∧ t.host.waiting = s.host.waiting ++ [{
        origin := l.origin, status := field (msgBody m) 0 2, sealed := false, lists := 0, waves := 0, stamp := field (msgBody m) 2 6
        count := if (l.opcode = 0x10 ∨ l.opcode = 0x11 ∨ l.opcode = 0x12) ∧ field (msgBody m) 2 6 ≠ 0 then 1 else 0 }])
  ∧ (∀ (g : Nat) (c : Coll) (q : Sequencer) (r : MutReq) (rest : List MutReq) (s : State), s.coll? g = some c → c.seqr = some q → q.queue = r :: rest →
    c.dropped = false → q.drop = none → c.lapsed = false → q.canAccept (dOpcode r.desc) = true → s.centroidsMissing c (dOpcode r.desc) = [] →
    c.mediaMutation = false → c.readOnly = false → s.seg.frozen = false → c.load = .loaded →
    (dOpcode r.desc = 0x11 → Map.get? q.idMap (field r.desc 16 8) = none → r.device ≠ s.self → r.device < 128 →
      Runs (.sequencerAccept g) s fun t => t.coll? g = some { c with seqr := some { q with queue := rest } }
        ∧ t.fab.transit = s.fab.transit ++ [s.mkMsg r.device mMutRsp 0 r.tag r.device g (toLE 2 stOk ++ toLE 6 0 ++ zeros 8)])
    ∧ (∀ e, dOpcode r.desc = 0x10 → Map.get? q.idMap (field r.desc 16 8) = some e → r.device ≠ s.self → r.device < 128 →
      Runs (.sequencerAccept g) s fun t => t.coll? g = some { c with seqr := some { q with queue := rest } }
        ∧ t.fab.transit = s.fab.transit ++ [s.mkMsg r.device mMutRsp 0 r.tag r.device g (toLE 2 stInvalid ++ toLE 6 0 ++ zeros 8)])
    ∧ (∀ target d, dOpcode r.desc = 0x11 → Map.get? q.idMap (field r.desc 16 8) = some (target, d) → q.committed + 1 ≤ Config.lastSequence →
      Runs (.sequencerAccept g) s fun t => t.coll? g = some { c with seqr := some { q with queue := rest, current := some {
          req := r, n := q.committed + 1, stashAt := some d, killAt := some d, ext := field r.desc 16 8, owner := d, sent := [d] } } })
    ∧ (∀ w, dOpcode r.desc = 0x10 → Map.get? q.idMap (field r.desc 16 8) = none → q.committed + 1 ≤ Config.lastSequence → c.lists = 1 →
      (s.modSeqr g fun q => { q with queue := rest }).idSpace g c q true = some w →
      Runs (.sequencerAccept g) s fun t => (t.coll? g).bind (·.seqr) = some { q with queue := rest, current := some {
          req := r, n := q.committed + 1, stashAt := some (ownerOf c.shards 0), killAt := none, ext := field r.desc 16 8
          owner := ownerOf c.shards 0, sent := [ownerOf c.shards 0] } })
    ∧ (dOpcode r.desc = 0x53 →
      Runs (.sequencerAccept g) s fun t => t.coll? g = some { c with seqr := some { q with queue := rest, run := some {
          load := true, waiting := mapDevices c.shards, loader := r.device, device := r.device, tag := r.tag } } }))

/-- The writes of a mutation. STASH_WRITE appends the record and its vector to the stash and acknowledges it, waits while the stash buffer is
full, and answers QUOTA without a segment; KILL_WRITE writes the number into the record it names, or is held while the segment is copied;
STASH_ACK and KILL_ACK commit with the last answer, or send REVOKE after a failure; REVOKE takes the number back; REVOKE_ACK
ends the mutation; STASH_FLUSH empties the buffer of a collection and moves its flushed sequence up. -/
def Obligations.WritesLandCommitOrAreRevoked : Prop :=
  (∀ (i : Nat) (m : List Byte) (c : Coll) (s u w : State), s.take i mStashWrite = some (m, u) → s.served (msgColl m) = some c → s.boot.fenced = false →
    s.stashUsed + 576 + c.vecBytes ≤ Config.stashBufferBytes → c.mediaMutation = false → recTomb ((msgBody m).take 64) = false →
    u.appendStash (msgColl m) c ((msgBody m).take 64) ((msgBody m).drop 64) = some w → c.flushed < recSeq ((msgBody m).take 64) → msgSource m ≠ s.self →
    Runs (.stashWrite i) s fun t =>
      (∃ c' n j, t.coll? (msgColl m) = some c' ∧ Map.get? c'.locator (recSeq ((msgBody m).take 64)) = some (false, n, j)
        ∧ c'.seen = max c.seen (recSeq ((msgBody m).take 64)) ∧ c'.unflushed.isSome = true)
      ∧ (∃ n j, { coll := msgColl m, seg := n, offset := j, bytes := padTo c.vecBytes ((msgBody m).drop 64) } ∈ t.stash)
      ∧ t.fab.transit = s.fab.transit ++ [s.mkMsg (msgSource m) mStashAck 0 (msgTag m) (msgRequester m) (msgColl m) (toLE 2 stOk ++ toLE 6 (recSeq ((msgBody m).take 64)))])
  ∧ (∀ (i : Nat) (m : List Byte) (c : Coll) (s u : State), s.take i mStashWrite = some (m, u) → s.served (msgColl m) = some c → s.boot.fenced = false →
    s.stashUsed + 576 + c.vecBytes ≤ Config.stashBufferBytes → c.mediaMutation = false → recTomb ((msgBody m).take 64) = false →
    u.appendStash (msgColl m) c ((msgBody m).take 64) ((msgBody m).drop 64) = none → msgSource m ≠ s.self →
    Runs (.stashWrite i) s fun t => t.colls = s.colls ∧ t.stash = s.stash ∧ t.fab.transit = s.fab.transit
      ++ [s.mkMsg (msgSource m) mStashAck 0 (msgTag m) (msgRequester m) (msgColl m) (toLE 2 stQuota ++ toLE 6 (recSeq ((msgBody m).take 64)))])
  ∧ (∀ (i : Nat) (m : List Byte) (c : Coll) (s u : State), s.take i mStashWrite = some (m, u) → s.served (msgColl m) = some c →
    Config.stashBufferBytes < s.stashUsed + 576 + c.vecBytes → exec (.stashWrite i) s = .next s)
  ∧ (∀ (i n j f : Nat) (m : List Byte) (c : Coll) (s u : State), s.take i mKillWrite = some (m, u) → s.coll? (msgColl m) = some c →
    c.copiesOf (field (msgBody m) 0 6) = [] → Map.get? c.locator (field (msgBody m) 0 6) = some (false, n, j) → (s.seg_ n).copying = false →
    (s.seg_ n).state = .resident → (s.seg_ n).frame = some f → (∀ it ∈ s.stash, it.seg ≠ n) → (s.seg_ n).coll = msgColl m → msgSource m ≠ s.self →
    Runs (.killWrite i) s fun t => t.mem = (s.writeFrame f (256 + 64 * j + 8) (toLE 6 (field (msgBody m) 6 6))).mem
      ∧ t.fab.transit = s.fab.transit ++ [s.mkMsg (msgSource m) mKillAck 0 (msgTag m) (msgSource m) (msgColl m) (toLE 2 stOk ++ toLE 6 (field (msgBody m) 6 6))]
      ∧ ∃ c', t.coll? (msgColl m) = some c' ∧ c'.kills = c.kills ++ [(field (msgBody m) 6 6, field (msgBody m) 0 6)])
  ∧ (∀ (i n j : Nat) (m : List Byte) (c : Coll) (s u : State), s.take i mKillWrite = some (m, u) → s.coll? (msgColl m) = some c →
    c.copiesOf (field (msgBody m) 0 6) = [] → Map.get? c.locator (field (msgBody m) 0 6) = some (false, n, j) →
    ((s.seg_ n).copying = true ∨ (s.seg_ n).state = .pagingIn) →
    Runs (.killWrite i) s fun t => t.mem = s.mem ∧ t.fab.transit = s.fab.transit
      ∧ t.seg_ n = { s.seg_ n with kills := (s.seg_ n).kills ++ [(256 + 64 * j, field (msgBody m) 6 6, msgSource m, msgTag m)] })
  ∧ (∀ (i : Nat) (m : List Byte) (r : Request) (c : Coll) (q : Sequencer) (x : InFlight) (s u : State), s.take i mStashAck = some (m, u) →
    u.awaited mStashWrite (msgSource m) (msgTag m) (msgColl m) = some r → s.coll? (msgColl m) = some c → c.seqr = some q → q.current = some x →
    (x.killAt.isSome = true → field (msgBody m) 0 2 = stOk →
      Runs (.stashAck i) s fun t => t.coll? (msgColl m) = some { c with seqr := some { q with current := some { x with stashAt := none } } })
    ∧ (x.killAt = none → x.revoking = [] → x.failed = false → field (msgBody m) 0 2 = stOk → dOpcode x.req.desc ≠ 0x11 → x.n = q.accepted + 1 →
      Runs (.stashAck i) s fun t => t.coll? (msgColl m) = some { c with seqr := some { q with
          committed := x.n, accepted := q.accepted + 1, idMap := Map.put q.idMap x.ext (x.n, x.owner), current := none
          undo := q.undo ++ [(x.n, x.ext, Map.get? q.idMap x.ext)] } })
    ∧ (x.killAt = none → x.revoking = [] → x.failed = false → field (msgBody m) 0 2 ≠ stOk → x.sent ≠ [] →
      Runs (.stashAck i) s fun t => t.coll? (msgColl m) = some { c with seqr := some { q with current := some { x with
          stashAt := none, failed := true, status := field (msgBody m) 0 2, revoking := x.sent } } }))
  ∧ (∀ (i : Nat) (m : List Byte) (r : Request) (c : Coll) (q : Sequencer) (x : InFlight) (s u : State), s.take i mKillAck = some (m, u) →
    u.awaited mKillWrite (msgSource m) (msgTag m) (msgColl m) = some r → s.coll? (msgColl m) = some c → c.seqr = some q → q.current = some x →
    x.stashAt = none → x.revoking = [] → x.failed = false → field (msgBody m) 0 2 = stOk → dOpcode x.req.desc = 0x11 → x.n = q.accepted + 1 →
    Runs (.killAck i) s fun t => t.coll? (msgColl m) = some { c with seqr := some { q with
        committed := x.n, accepted := q.accepted + 1, idMap := Map.del q.idMap x.ext, current := none
        undo := q.undo ++ [(x.n, x.ext, Map.get? q.idMap x.ext)] } })
  ∧ (∀ (i : Nat) (m : List Byte) (c : Coll) (s u w : State), s.take i mRevoke = some (m, u) → s.coll? (msgColl m) = some c →
    u.unkill c (field (msgBody m) 0 6) = some w → msgSource m ≠ s.self →
    Runs (.revoke i) s fun t => t.coll? (msgColl m) = some { c with
        locator := Map.del c.locator (field (msgBody m) 0 6), kills := c.kills.filter fun k => k.1 != field (msgBody m) 0 6 }
      ∧ t.fab.transit = s.fab.transit ++ [s.mkMsg (msgSource m) mRevokeAck 0 (msgTag m) (msgRequester m) (msgColl m) (toLE 6 (field (msgBody m) 0 6) ++ zeros 2)])
  ∧ (∀ (i : Nat) (m : List Byte) (r : Request) (c : Coll) (q : Sequencer) (x : InFlight) (s u : State), s.take i mRevokeAck = some (m, u) →
    u.awaited mRevoke (msgSource m) (msgTag m) (msgColl m) = some r → s.coll? (msgColl m) = some c → c.seqr = some q → q.current = some x →
    (x.revoking.erase (msgSource m) ≠ [] →
      Runs (.revokeAck i) s fun t => t.coll? (msgColl m) = some { c with seqr := some { q with current := some { x with
          revoking := x.revoking.erase (msgSource m), unanswered := x.unanswered.erase (msgSource m) } } })
    ∧ (x.revoking.erase (msgSource m) = [] →
      Runs (.revokeAck i) s fun t => t.coll? (msgColl m) = some { c with seqr := some { q with current := none, held := false } }))
  ∧ (∀ (g : Nat) (c : Coll) (s : State), s.coll? g = some c → c.unflushed.isSome = true → s.waitingKills g = [] →
    Runs (.stashFlush g) s fun t => t.stash = s.stash.filter (fun it => it.coll != g)
      ∧ t.coll? g = some { c with unflushed := none, flushed := max c.flushed (max c.seen c.committed) })

/-! ## Collections as a whole -/

/-- Control messages between the devices of a shard map. A CREATE piece is kept until the last one makes the collection with an
empty generation 0; PREPARE of a generation built here is acknowledged, its root written; FLIP puts the prepared generation in force;
DROP and LOST end the collection; LOAD_PREPARE starts to pull the image at its header; LOAD_ABANDON gives the load up;
SCRUB_STATE is answered with the own flushed sequence and rolls back; the last CTRL_ACK of a DROP answers the command. -/
def Obligations.ControlMessagesChangeCollections : Prop :=
  (∀ (i : Nat) (m : List Byte) (s u : State), s.takeCtrl i opCreate = some (m, u) → s.coll? (msgColl m) = none → field (msgBody m) 41 1 = 0 →
    field (msgBody m) 42 1 < field (slice (msgBody m) 24 16) 10 2 → msgSource m ≠ s.self →
    Runs (.collCtrlCreate i) s fun t => t.coll? (msgColl m) = some { newColl (slice (msgBody m) 24 16) (field (msgBody m) 40 1) 0 [] with
        created := false, shards := parseRanges ((msgBody m).drop 48) (field (msgBody m) 42 1), pieces := [0] }
      ∧ t.fab.transit = s.fab.transit ++ [s.mkMsg (msgSource m) mCollCtrl 0 (msgTag m) (msgRequester m) (msgColl m) (ctrlBody 1 (field (msgBody m) 1 1) stOk 0 0 0)])
  ∧ (∀ (i : Nat) (m : List Byte) (c : Coll) (s u w : State), s.takeCtrl i opCreate = some (m, u) → s.coll? (msgColl m) = some c → c.created = false →
    field (slice (msgBody m) 24 16) 10 2 ≤ field (msgBody m) 41 1 + field (msgBody m) 42 1 → msgSource m ≠ s.self →
    (u.draw.2).makeColl (msgColl m) { c with shards := c.shards ++ parseRanges ((msgBody m).drop 48) (field (msgBody m) 42 1)
                                             pieces := c.pieces ++ [field (msgBody m) 41 1], created := true, owner := Config.openValue 17 s.draws % 64 } = some w →
    Runs (.collCtrlCreate i) s fun t => (∃ root, t.coll? (msgColl m) = some { c with
        shards := c.shards ++ parseRanges ((msgBody m).drop 48) (field (msgBody m) 42 1), pieces := c.pieces ++ [field (msgBody m) 41 1]
        created := true, owner := Config.openValue 17 s.draws % 64, generation := 0, root := root })
      ∧ t.fab.transit = s.fab.transit ++ [s.mkMsg (msgSource m) mCollCtrl 0 (msgTag m) (msgRequester m) (msgColl m) (ctrlBody 1 (field (msgBody m) 1 1) stOk 0 0 0)])
  ∧ (∀ (i : Nat) (m : List Byte) (c : Coll) (p : Prepared) (s u : State), s.takeCtrl i opPrepare = some (m, u) → s.served (msgColl m) = some c →
    c.prepared = some p → p.generation = field (msgBody m) 8 8 → msgSource m ≠ s.self →
    (∀ r, p.root = some r → p.cut = field (msgBody m) 16 6 →
      Runs (.collCtrlPrepare i) s fun t => t.colls = s.colls ∧ t.fab.transit = s.fab.transit
        ++ [s.mkMsg (msgSource m) mCollCtrl 0 (msgTag m) (msgRequester m) (msgColl m) (ctrlBody 1 (field (msgBody m) 1 1) (if p.lacking then stMedia else stOk) 0 0 0)])
    ∧ (∀ w, p.root = none → u.writeRoot (msgColl m) = some w →
      Runs (.collCtrlPrepare i) s fun t => (∃ root, t.coll? (msgColl m) = some { c with prepared := some { p with root := some root } })
        ∧ t.fab.transit = s.fab.transit ++ [s.mkMsg (msgSource m) mCollCtrl 0 (msgTag m) (msgRequester m) (msgColl m)
          (ctrlBody 1 (field (msgBody m) 1 1) (if p.lacking then stMedia else stOk) 0 0 0)]))
  ∧ (∀ (i r : Nat) (m : List Byte) (c : Coll) (p : Prepared) (s u : State), s.takeCtrl i opFlip = some (m, u) → s.coll? (msgColl m) = some c →
    c.prepared = some p → p.root = some r → p.generation = field (msgBody m) 8 8 → msgSource m ≠ s.self →
    Runs (.collCtrlFlip i) s fun t => (∃ c', t.coll? (msgColl m) = some c' ∧ c'.generation = p.generation ∧ c'.root = r ∧ c'.prepared = none
        ∧ c'.old = (c.generation, c.root) :: c.old ∧ c'.blocks = p.blocks)
      ∧ t.fab.transit = s.fab.transit ++ [s.mkMsg (msgSource m) mCollCtrl 0 (msgTag m) (msgRequester m) (msgColl m) (ctrlBody 1 (field (msgBody m) 1 1) stOk 0 0 0)])
  ∧ (∀ (i : Nat) (m : List Byte) (c : Coll) (s u : State), s.takeCtrl i opDrop = some (m, u) → s.coll? (msgColl m) = some c → c.dropped = false →
    c.prepared = none → msgSource m ≠ s.self →
    Runs (.collCtrlDrop i) s fun t => (∃ c', t.coll? (msgColl m) = some c' ∧ c'.dropped = true ∧ c'.generation = c.generation + 1 ∧ c'.root = Config.droppedRoot
        ∧ c'.stash = [] ∧ c'.old = (c.generation, c.root) :: c.old) ∧ (∀ it ∈ t.stash, it.coll ≠ msgColl m)
      ∧ t.fab.transit = s.fab.transit ++ [s.mkMsg (msgSource m) mCollCtrl 0 (msgTag m) (msgRequester m) (msgColl m) (ctrlBody 1 (field (msgBody m) 1 1) stOk 0 0 0)])
  ∧ (∀ (i : Nat) (m : List Byte) (c : Coll) (s u : State), s.takeCtrl i opLost = some (m, u) → s.coll? (msgColl m) = some c → msgSource m ≠ s.self →
    Runs (.collCtrlLost i) s fun t => t.coll? (msgColl m) = some { c with lost := true }
      ∧ t.fab.transit = s.fab.transit ++ [s.mkMsg (msgSource m) mCollCtrl 0 (msgTag m) (msgRequester m) (msgColl m) (ctrlBody 1 (field (msgBody m) 1 1) stOk 0 0 0)])
  ∧ (∀ (i : Nat) (m : List Byte) (c : Coll) (s u : State), s.takeCtrl i opLoadPrepare = some (m, u) → s.served (msgColl m) = some c → c.prepared = none →
    field (msgBody m) 22 1 % 128 ≠ s.self → s.used 0x0E (field (msgBody m) 22 1 % 128) + 1 ≤ Config.landingUnits →
    Runs (.collCtrlLoadPrepare i) s fun t => t.coll? (msgColl m) = some { c with
        pull := some { loader := field (msgBody m) 22 1 % 128, tag := msgTag m }, load := if c.load = .notLoaded then .running else c.load }
      ∧ t.fab.transit = s.fab.transit ++ [s.mkMsg (field (msgBody m) 22 1 % 128) mImagePull 0 (msgTag m) (field (msgBody m) 22 1 % 128) (msgColl m)
        (toLE 8 0 ++ toLE 4 128 ++ zeros 4)])
  ∧ (∀ (i : Nat) (m : List Byte) (c : Coll) (s u : State), s.takeCtrl i opLoadAbandon = some (m, u) → s.coll? (msgColl m) = some c → c.prepared = none →
    msgSource m ≠ s.self →
    Runs (.collCtrlLoadAbandon i) s fun t => t.coll? (msgColl m) = some { c with pull := none, load := if c.load = .running then .notLoaded else c.load }
      ∧ t.fab.transit = s.fab.transit ++ [s.mkMsg (msgSource m) mCollCtrl 0 (msgTag m) (msgRequester m) (msgColl m) (ctrlBody 1 (field (msgBody m) 1 1) stOk 0 0 0)])
  ∧ (∀ (i : Nat) (m : List Byte) (c c' : Coll) (s u : State), s.takeCtrl i opScrub = some (m, u) → s.coll? (msgColl m) = some c → c.scrubbing = false →
    c.seqr = none → (u.flushStash (msgColl m)).coll? (msgColl m) = some c' → msgSource m ≠ s.self →
    Runs (.collCtrlScrubState i) s fun t => (∃ d, t.coll? (msgColl m) = some d ∧ d.recovered = some (min c'.flushed (field (msgBody m) 16 6))
        ∧ d.seen = min c'.seen (min c'.flushed (field (msgBody m) 16 6)) ∧ ∀ k ∈ d.kills, k.1 ≤ min c'.flushed (field (msgBody m) 16 6))
      ∧ t.fab.transit = s.fab.transit ++ [s.mkMsg (msgSource m) mCollCtrl 0 (msgTag m) (msgRequester m) (msgColl m)
        (ctrlBody 1 (field (msgBody m) 1 1) stOk 0 c'.flushed 0)])
  ∧ (∀ (i device tag : Nat) (ds : List Nat) (m : List Byte) (r : Request) (c : Coll) (q : Sequencer) (s u : State), s.takeKind i mCollCtrl 1 = some (m, u) →
    field (msgBody m) 1 1 = opDrop → u.awaitedCtrl (msgSource m) (msgColl m) opDrop = some r → s.coll? (msgColl m) = some c → c.seqr = some q →
    q.drop = some (ds, device, tag) →
    (ds.erase (msgSource m) ≠ [] → Runs (.ctrlAck i) s fun t =>
      t.coll? (msgColl m) = some { c with seqr := some { q with drop := some (ds.erase (msgSource m), device, tag) } })
    ∧ (∀ key l, ds.erase (msgSource m) = [] → device = s.self → s.byTag tag = some key → s.live? key = some l → Runs (.ctrlAck i) s fun t =>
      t.coll? (msgColl m) = some { c with seqr := some { q with drop := none } } ∧ t.live? key = none
      ∧ t.host.waiting = s.host.waiting ++ [mutCompletion l.opcode stOk 0 l.origin]))

/-- Runs and transfers. The trigger of an automatic run sets its cut; the end of the Copy phase waits for pages, or sends PREPARE for what was
built; SEGMENT_FREE frees what no remaining generation references; the start-up scrub counts the frames anew and ends; LIST_PULL and
IMAGE_PULL are answered with what was asked for, the latter read from the host; LIST_DATA and IMAGE_DATA add to what has been pulled. -/
def Obligations.RunsScrubsAndTransfersProceed : Prop :=
  (∀ (g own rest : Nat) (c : Coll) (q : Sequencer) (s w v : State), Map.keys s.colls = [g] → s.coll? g = some c → c.seqr = some q → s.mayCompact c q = true →
    s.triggered c q = true → s.proposal g c q.committed = (w, own) → w.otherProposals c q.committed = (v, rest) → rootCut (s.rootBody c.root) < min own rest →
    Runs .compactTriggerEval s fun t => t.coll? g = some { c with seqr := some { q with run := some { cut := min own rest }, compactNow := [] } })
  ∧ (∀ (s : State), (∀ g c q, s.coll? g = some c → c.seqr = some q → (s.mayCompact c q && s.triggered c q) = false) → exec .compactTriggerEval s = .next s)
  ∧ (∀ (g : Nat) (c : Coll) (q : Sequencer) (r : Run) (s : State), s.coll? g = some c → c.seqr = some q → q.run = some r → r.load = false → r.phase = .copy →
    s.structureLost c.root = false → c.mediaMutation = false →
    (s.runMissing c ≠ [] → exec (.compactCopyDone g) s = .next ((s.runMissing c).foldl (fun s n => s.want true n) s))
    ∧ (∀ p w, s.runMissing c = [] → c.prepared = none → s.buildRun g c (c.generation + 1) r.cut = .ok (p, w) →
      Runs (.compactCopyDone g) s fun t => t.coll? g = some { c with prepared := some p, seqr := some { q with run := some { r with
        phase := .prepare, waiting := mapDevices c.shards } } }))
  ∧ (∀ (g : Nat) (c : Coll) (s : State), s.coll? g = some c → c.dropped = false →
    Runs (.segmentFree g) s fun t => (∃ c', t.coll? g = some c' ∧ c'.old = c.old.filter (fun gr => s.hasReader g gr.1))
      ∧ ∀ n, (s.seg_ n).coll = g → (s.seg_ n).kind ≠ 0x0B → (s.seg_ n).state = .retiring → n ∉ s.refs g c c.root →
        (∀ gr ∈ c.old, s.hasReader g gr.1 = true → n ∉ s.refs g c gr.2) → (t.seg_ n).state = .free)
  ∧ (∀ (s : State), s.boot.scrubbing = false → exec .startupScrub s = .next s)
  ∧ (∀ (s : State), s.boot.scrubbing = true → Runs .startupScrub s fun t => t.boot.scrubbing = false ∧ t.seg.free = t.seg.total - t.seg.live - t.seg.retiring)
  ∧ (∀ (g : Nat) (c : Coll) (s : State), s.boot.scrubbing = true → s.colls = [(g, c)] → c.prepared = none → c.seqr = none → (mapDevices c.shards).filter (· != s.self) = [] →
    c.reported = [] → Runs .startupScrub s fun t => ∃ c', t.coll? g = some c' ∧ c'.recovered = some c.flushed ∧ c'.scrubbing = false)
  ∧ (∀ (i : Nat) (m : List Byte) (c : Coll) (gr : Nat × Nat) (ls : List Nat) (part : List Entry) (s u : State), s.boot.fenced = false → s.take i mListPull = some (m, u) →
    s.served (msgColl m) = some c → c.generations.find? (fun gr => gr.1 == field (msgBody m) 8 8) = some gr →
    (c.owned s.self).filter (fun l => decide (field (msgBody m) 16 4 ≤ l ∧ l ≤ field (msgBody m) 20 4)) = ls → u.exportDamaged (msgColl m) c gr.1 gr.2 ls = false →
    u.exportMissing c gr.2 ls = [] →
    ((u.exportRange c gr.1 gr.2 (field (msgBody m) 0 6) (field (msgBody m) 32 1 == 1) ls).drop (field (msgBody m) 24 8 / c.pullUnit)).take c.perPull = part →
    part.length ≤ c.perData → msgSource m ≠ s.self →
    Runs (.listPull i) s fun t => t.fab.transit = s.fab.transit ++ [s.mkMsg (msgSource m) mListData 4 (msgTag m) (msgRequester m) (msgColl m)
      (listDataBody (field (msgBody m) 24 8) part)])
  ∧ (∀ (i key : Nat) (m : List Byte) (r : Request) (l : Live) (c : Coll) (x : Exporting) (s u : State), s.take i mListData = some (m, u) →
    u.awaited mListPull (msgSource m) (msgTag m) (msgColl m) = some r → s.byTag (msgTag m) = some key → s.live? key = some l → l.exporting = some x →
    s.coll? (msgColl m) = some c →
    Runs (.listData i) s fun t => ∃ x', t.live? key = some { l with exporting := some x' }
      ∧ Map.get? x'.got r.owner = some (Map.getD x.got r.owner [] ++ (List.range (field (msgBody m) 8 4)).map fun j =>
          (slice (msgBody m) (16 + 64 * j) 64, slice (msgBody m) (16 + 64 * field (msgBody m) 8 4 + c.vecBytes * j) c.vecBytes))
      ∧ (msgLast m = false → x'.complete = x.complete))
  ∧ (∀ (i key : Nat) (data m : List Byte) (l : Live) (s u : State), s.take i mImagePull = some (m, u) → s.byTag (msgTag m) = some key → s.live? key = some l →
    l.opcode = 0x53 → data.length = field (msgBody m) 8 4 → 0 < data.length → data.length ≤ 20448 → msgSource m ≠ s.self →
    Runs (.imagePull i data) s fun t => t.out = s.out ++ [.hostRead (l.origin.burrow + 1) (field l.bytes 16 8 + field (msgBody m) 0 8) data.length]
      ∧ t.fab.transit = s.fab.transit ++ [s.mkMsg (msgSource m) mImageData 4 (msgTag m) (msgRequester m) (msgColl m)
        (toLE 8 (field (msgBody m) 0 8) ++ toLE 4 data.length ++ zeros 4 ++ data)])
  ∧ (∀ (i : Nat) (m : List Byte) (r : Request) (c : Coll) (p : Pull) (s u : State), s.take i mImageData = some (m, u) →
    u.awaited mImagePull (msgSource m) (msgTag m) (msgColl m) = some r → s.coll? (msgColl m) = some c → c.pull = some p →
    field (msgBody m) 0 8 = r.owner + (Map.getD p.got r.owner []).length → msgLast m = false →
    Runs (.imageData i) s fun t => t.coll? (msgColl m) = some { c with pull := some { p with
      got := Map.put p.got r.owner (Map.getD p.got r.owner [] ++ (msgBody m).drop 16) } })
end

