-- ==== Sys2Proof/Laws/Bytes.lean ====
section
/-! SUPPORT. Numbers as byte strings: their length, and that they read back. -/

namespace Sys2Proof.Machine

@[simp] theorem toLE_length {n v : Nat} : (toLE n v).length = n := by
  induction n generalizing v with
  | zero => rfl
  | succ n ih => unfold toLE; rw [List.length_cons, ih]

theorem leNat_toLE {n v : Nat} : leNat (toLE n v) = v % 256 ^ n := by
  induction n generalizing v with
  | zero => unfold toLE leNat; rw [Nat.pow_zero, Nat.mod_one]
  | succ n ih =>
    unfold toLE leNat
    rw [ih, BitVec.toNat_ofNat, Nat.pow_add_one 256 n, Nat.mul_comm (256 ^ n) 256, Nat.mod_mul]

theorem leNat_toLE_of_lt {n v : Nat} (h : v < 256 ^ n) : leNat (toLE n v) = v := by
  rw [leNat_toLE, Nat.mod_eq_of_lt h]

end Sys2Proof.Machine
end

