-- ==== Sys2Proof/Laws/Memory.lean ====
section
/-! SUPPORT. Byte memories: every operation keeps the canonical form, and what a byte reads as after each. -/

namespace Sys2Proof.Machine

/-- The canonical form as a statement about cells: addresses strictly rising, no cell holding the unlisted byte. -/
theorem Memory.wf_iff {d : Byte} {m : Memory} :
    Memory.wf d m = true ↔ m.Pairwise (fun a b => a.1 < b.1) ∧ ∀ c ∈ m, c.2 ≠ d := by
  induction m with
  | nil => simp [Memory.wf]
  | cons c m ih =>
    obtain ⟨k, v⟩ := c
    cases m with
    | nil => simp [Memory.wf]
    | cons c' m =>
      obtain ⟨k', v'⟩ := c'
      simp only [Memory.wf, Bool.and_eq_true, ih, List.pairwise_cons, decide_eq_true_eq, bne_iff_ne, ne_eq, List.mem_cons,
        forall_eq_or_imp]
      constructor
      · rintro ⟨⟨hv, hk⟩, ⟨hm, hp⟩, hn⟩
        exact ⟨⟨⟨hk, fun a ha => Nat.lt_trans hk (hm a ha)⟩, hm, hp⟩, hv, hn⟩
      · rintro ⟨⟨⟨hk, -⟩, hm, hp⟩, hv, hn⟩
        exact ⟨⟨hv, hk⟩, ⟨hm, hp⟩, hn⟩

theorem Memory.wf_filter {d : Byte} {m : Memory} (p : Host.Cell → Bool) (h : Memory.wf d m = true) : Memory.wf d (m.filter p) = true := by
  rw [Memory.wf_iff] at *
  exact ⟨h.1.filter p, fun c hc => h.2 c (List.mem_filter.mp hc).1⟩

theorem Memory.wf_clear {d : Byte} {m : Memory} {a n : Nat} (h : Memory.wf d m = true) : Memory.wf d (Memory.clear m a n) = true :=
  Memory.wf_filter _ h

theorem Memory.cellsOf_ge {d : Byte} {bs : List Byte} {a : Nat} {c : Host.Cell} (h : c ∈ Memory.cellsOf d a bs) :
    a ≤ c.1 ∧ c.1 < a + bs.length ∧ c.2 ≠ d := by
  induction bs generalizing a with
  | nil => simp [Memory.cellsOf] at h
  | cons b bs ih =>
    unfold Memory.cellsOf at h
    split at h
    · have := ih h
      simp only [List.length_cons]
      exact ⟨by omega, by omega, this.2.2⟩
    · rcases List.mem_cons.mp h with rfl | h
      · simp_all
      · have := ih h
        simp only [List.length_cons]
        exact ⟨by omega, by omega, this.2.2⟩

theorem Memory.cellsOf_rising {d : Byte} (bs : List Byte) (a : Nat) : (Memory.cellsOf d a bs).Pairwise (fun a b => a.1 < b.1) := by
  induction bs generalizing a with
  | nil => simp [Memory.cellsOf]
  | cons b bs ih =>
    unfold Memory.cellsOf
    split
    · exact ih _
    · exact List.pairwise_cons.mpr ⟨fun c hc => Nat.lt_of_lt_of_le (Nat.lt_succ_self a) (Memory.cellsOf_ge hc).1, ih _⟩

/-- Writing a run of bytes keeps the canonical form. -/
theorem Memory.wf_writeN {d : Byte} {m : Memory} {a : Nat} {bs : List Byte} (h : Memory.wf d m = true) :
    Memory.wf d (Memory.writeN d m a bs) = true := by
  rw [Memory.wf_iff] at *
  unfold Memory.writeN
  constructor
  · rw [List.pairwise_append, List.pairwise_append]
    refine ⟨⟨h.1.filter _, Memory.cellsOf_rising bs a, fun x hx y hy => ?_⟩, h.1.filter _, fun x hx y hy => ?_⟩
    · have := (Memory.cellsOf_ge hy).1
      have := (List.mem_filter.mp hx).2
      simp at this
      omega
    · have hy := (List.mem_filter.mp hy).2
      simp at hy
      rcases List.mem_append.mp hx with hx | hx
      · have := (List.mem_filter.mp hx).2
        simp at this
        omega
      · have := (Memory.cellsOf_ge hx).2.1
        omega
  · intro c hc
    rcases List.mem_append.mp hc with hc | hc
    · rcases List.mem_append.mp hc with hc | hc
      · exact h.2 c (List.mem_filter.mp hc).1
      · exact (Memory.cellsOf_ge hc).2.2
    · exact h.2 c (List.mem_filter.mp hc).1

/-- Writing one byte keeps the canonical form. -/
theorem Memory.wf_write {d : Byte} {m : Memory} {a : Nat} {v : Byte} (h : Memory.wf d m = true) :
    Memory.wf d (Memory.write d m a v) = true := by
  rw [Memory.wf_iff] at *
  have key : (Memory.write d m a v).Pairwise (fun a b => a.1 < b.1) ∧
      ∀ c ∈ Memory.write d m a v, c.2 ≠ d ∧ (c.1 = a ∨ c ∈ m) := by
    induction m with
    | nil =>
      unfold Memory.write
      split <;> simp_all
    | cons c m ih =>
      obtain ⟨k, w⟩ := c
      have hp := List.pairwise_cons.mp h.1
      have hi := ih ⟨hp.2, fun c hc => h.2 c (List.mem_cons_of_mem _ hc)⟩
      unfold Memory.write
      split
      · split
        · exact ⟨h.1, fun c hc => ⟨h.2 c hc, Or.inr hc⟩⟩
        · rename_i hk hv
          refine ⟨List.pairwise_cons.mpr ⟨fun c hc => ?_, h.1⟩, fun c hc => ?_⟩
          · rcases List.mem_cons.mp hc with rfl | hc
            · exact hk
            · exact Nat.lt_trans hk (hp.1 c hc)
          · rcases List.mem_cons.mp hc with rfl | hc
            · exact ⟨hv, Or.inl rfl⟩
            · exact ⟨h.2 c hc, Or.inr hc⟩
      · split
        · rename_i hk
          subst hk
          split
          · exact ⟨hp.2, fun c hc => ⟨h.2 c (List.mem_cons_of_mem _ hc), Or.inr (List.mem_cons_of_mem _ hc)⟩⟩
          · rename_i hv
            refine ⟨List.pairwise_cons.mpr ⟨hp.1, hp.2⟩, fun c hc => ?_⟩
            rcases List.mem_cons.mp hc with rfl | hc
            · exact ⟨hv, Or.inl rfl⟩
            · exact ⟨h.2 c (List.mem_cons_of_mem _ hc), Or.inr (List.mem_cons_of_mem _ hc)⟩
        · rename_i hk hne
          refine ⟨List.pairwise_cons.mpr ⟨fun c hc => ?_, hi.1⟩, fun c hc => ?_⟩
          · rcases (hi.2 c hc).2 with h1 | h1
            · have : k < c.1 := by omega
              exact this
            · exact hp.1 c h1
          · rcases List.mem_cons.mp hc with rfl | hc
            · exact ⟨h.2 _ List.mem_cons_self, Or.inr List.mem_cons_self⟩
            · exact ⟨(hi.2 c hc).1, (hi.2 c hc).2.imp id (List.mem_cons_of_mem _)⟩
  exact ⟨key.1, fun c hc => (key.2 c hc).1⟩

/-! ## What a byte reads as -/

theorem Memory.read_append {d : Byte} {m n : Memory} {a : Nat} (h : ∀ c ∈ m, c.1 ≠ a) : Memory.read d (m ++ n) a = Memory.read d n a := by
  induction m with
  | nil => rfl
  | cons c m ih =>
    obtain ⟨k, v⟩ := c
    have hk : k ≠ a := h (k, v) List.mem_cons_self
    rw [List.cons_append, Memory.read, if_neg hk, ih fun c hc => h c (List.mem_cons_of_mem _ hc)]

theorem Memory.read_none {d : Byte} {m : Memory} {a : Nat} (h : ∀ c ∈ m, c.1 ≠ a) : Memory.read d m a = d := by
  have := Memory.read_append (d := d) (n := []) h
  rwa [List.append_nil] at this

theorem Memory.read_append_left {d : Byte} {m n : Memory} {a : Nat} (h : ∀ c ∈ n, c.1 ≠ a) :
    Memory.read d (m ++ n) a = Memory.read d m a := by
  induction m with
  | nil => exact Memory.read_none h
  | cons c m ih =>
    obtain ⟨k, v⟩ := c
    simp only [List.cons_append, Memory.read, ih]

theorem Memory.read_filter {d : Byte} {m : Memory} {a : Nat} {p : Nat → Bool} (h : p a = true) :
    Memory.read d (m.filter fun c => p c.1) a = Memory.read d m a := by
  induction m with
  | nil => rfl
  | cons c m ih =>
    obtain ⟨k, v⟩ := c
    by_cases hk : k = a
    · subst hk
      simp [Memory.read, h]
    · rw [Memory.read, if_neg hk, ← ih]
      cases hp : p k with
      | false => simp [hp]
      | true => simp [hp, Memory.read, hk]

theorem Memory.read_cellsOf {d : Byte} (bs : List Byte) (a i : Nat) : Memory.read d (Memory.cellsOf d a bs) (a + i) = bs.getD i d := by
  induction bs generalizing a i with
  | nil => simp [Memory.cellsOf, Memory.read]
  | cons b bs ih =>
    unfold Memory.cellsOf
    cases i with
    | zero =>
      split
      · rename_i hb
        rw [Memory.read_none fun c hc => by have := (Memory.cellsOf_ge hc).1; omega]
        simp [hb]
      · simp [Memory.read]
    | succ i =>
      have e : a + (i + 1) = a + 1 + i := by omega
      split
      · rw [e, ih]
        simp
      · rw [Memory.read, if_neg (by omega), e, ih]
        simp

/-- After a run of bytes is written, each address in it reads as its byte. -/
theorem Memory.read_writeN_in {d : Byte} {m : Memory} {a : Nat} {bs : List Byte} {i : Nat} (h : i < bs.length) :
    Memory.read d (Memory.writeN d m a bs) (a + i) = bs.getD i d := by
  unfold Memory.writeN
  rw [Memory.read_append_left, Memory.read_append, Memory.read_cellsOf]
  · intro c hc
    have := (List.mem_filter.mp hc).2
    simp at this
    omega
  · intro c hc
    have := (List.mem_filter.mp hc).2
    simp at this
    omega

/-- Every other address reads as before. -/
theorem Memory.read_writeN_out {d : Byte} {m : Memory} {a : Nat} {bs : List Byte} {i : Nat} (h : i < a ∨ a + bs.length ≤ i) :
    Memory.read d (Memory.writeN d m a bs) i = Memory.read d m i := by
  have hc : ∀ c ∈ Memory.cellsOf d a bs, c.1 ≠ i := by
    intro c hc
    have := Memory.cellsOf_ge hc
    omega
  unfold Memory.writeN
  rcases h with h | h
  · rw [Memory.read_append_left, Memory.read_append_left hc]
    · exact Memory.read_filter (p := fun k => decide (k < a)) (by simpa using h)
    · intro c hm
      have := (List.mem_filter.mp hm).2
      simp at this
      omega
  · rw [Memory.read_append]
    · exact Memory.read_filter (p := fun k => decide (a + bs.length ≤ k)) (by simpa using h)
    · intro c hm
      rcases List.mem_append.mp hm with hm | hm
      · have := (List.mem_filter.mp hm).2
        simp at this
        omega
      · exact hc c hm

/-- A run of bytes written reads back. -/
theorem Memory.readN_writeN {d : Byte} {m : Memory} {a : Nat} {bs : List Byte} :
    Memory.readN d (Memory.writeN d m a bs) a bs.length = bs := by
  have key : ∀ n i : Nat, i + n = bs.length → Memory.readN d (Memory.writeN d m a bs) (a + i) n = bs.drop i := by
    intro n
    induction n with
    | zero =>
      intro i hi
      rw [List.drop_of_length_le (Nat.le_of_eq (by omega))]
      rfl
    | succ n ih =>
      intro i hi
      have hlt : i < bs.length := by omega
      rw [Memory.readN, Memory.read_writeN_in hlt, show a + i + 1 = a + (i + 1) from rfl, ih (i + 1) (by omega),
        List.drop_eq_getElem_cons hlt]
      simp [List.getD_eq_getElem?_getD, List.getElem?_eq_getElem hlt]
  exact key bs.length 0 (by omega)

end Sys2Proof.Machine
end

