-- ==== Sys2Proof/Laws/Parts.lean ====
section
/-! SUPPORT. Tiles and the governor: what their own operations leave as it is or keep legal. -/

namespace Sys2Proof.Machine

/-! ## A tile's registers lie outside its data SRAM -/

@[simp] theorem Tile.setX_mem (v : Tile) (r : Nat) (w : BitVec 32) : (v.setX r w).mem = v.mem := by
  unfold Tile.setX
  split <;> rfl

@[simp] theorem Tile.setD_mem (v : Tile) (r : Nat) (w : BitVec 64) : (v.setD r w).mem = v.mem := rfl

@[simp] theorem Tile.setAcc_mem (v : Tile) (r : Nat) (a : Acc) : (v.setAcc r a).mem = v.mem := rfl

@[simp] theorem Tile.dropCtx_mem (v : Tile) (x : Nat) : (v.dropCtx x).mem = v.mem := rfl

theorem Tile.foldl_mem {α : Type} {f : Tile → α → Tile} (h : ∀ v a, (f v a).mem = v.mem) (l : List α) (v : Tile) :
    (l.foldl f v).mem = v.mem := by
  induction l generalizing v with
  | nil => rfl
  | cons a l ih => exact (ih _).trans (h v a)

@[simp] theorem Tile.call_mem (v : Tile) (draw entry : Nat) (args : List (Nat × BitVec 32)) : (v.call draw entry args).mem = v.mem := by
  unfold Tile.call
  simp only [Tile.setX_mem]
  rw [Tile.foldl_mem fun v a => Tile.setX_mem _ _ _, Tile.foldl_mem fun v a => Tile.setX_mem _ _ _]

theorem Tile.call_wf {v : Tile} {draw entry : Nat} {args : List (Nat × BitVec 32)} (h : Memory.wf 0 v.mem = true) :
    Memory.wf 0 (v.call draw entry args).mem = true := by
  rw [Tile.call_mem]
  exact h

/-- A store keeps the data SRAM canonical. -/
theorem Tile.storeAt_wf {v v' : Tile} {k a : Nat} {bs : List Byte} (h : Memory.wf 0 v.mem = true) (e : v.storeAt k a bs = some v') :
    Memory.wf 0 v'.mem = true := by
  unfold Tile.storeAt at e
  simp only at e
  split at e
  · cases e
    exact Memory.wf_writeN h
  · cases e

/-- One base instruction keeps the data SRAM canonical. -/
theorem State.rvExec_wf {s : State} {t : Nat} {e : TileEvent} {len : Nat} {i : Rv} {v : Tile} (h : Memory.wf 0 (s.tile t).mem = true)
    (k : s.rvExec t e len i = .ok v) : Memory.wf 0 v.mem = true := by
  unfold State.rvExec at k
  cases i with
  | load f3 rd r1 off =>
    simp only at k
    split at k
    · cases k
    · split at k
      · cases k
        simpa using h
      · cases k
  | store f3 r1 r2 off =>
    simp only at k
    split at k
    · cases k
    · split at k
      · rename_i w hw
        cases k
        exact (Tile.storeAt_wf h hw : Memory.wf 0 w.mem = true)
      · cases k
  | ext w => cases k
  | illegal => cases k
  | _ =>
    cases k
    simpa using h

/-! ## The governor's levels stay legal (R336) -/

/-- The levels of a governor are legal. -/
def Gov.legal (g : Gov) : Prop := g.throttle ≤ 7 ∧ g.cclk ≤ 4 ∧ g.mclk ≤ 2 ∧ g.mclkTo.all (· ≤ 2) = true

theorem Gov.cclkDown_legal {g : Gov} (h : g.legal) (k : g.cclk < 4) : g.cclkDown.legal := ⟨h.1, k, h.2.2⟩

theorem Gov.mclkDown_legal {g : Gov} (h : g.legal) (k : g.mclk < 2) : g.mclkDown.legal := by
  unfold Gov.mclkDown
  split
  · exact h
  · exact ⟨h.1, h.2.1, h.2.2.1, by simp; omega⟩

theorem Gov.mclkUp_legal {g : Gov} (h : g.legal) : g.mclkUp.legal := by
  unfold Gov.mclkUp
  split
  · exact h
  · have := h.2.2.1
    exact ⟨h.1, h.2.1, h.2.2.1, by simp; omega⟩

theorem Gov.above_legal {g : Gov} (h : g.legal) : g.above.legal := ⟨Nat.min_le_left _ _, h.2⟩

theorem Gov.below_legal {g : Gov} (h : g.legal) (b : Bool) : (g.below b).legal := by
  refine ⟨?_, h.2⟩
  have := h.1
  show (if (g.calm + 1) % 10 = 0 ∧ 0 < g.throttle then g.throttle - 1 else g.throttle) ≤ 7
  split <;> omega

theorem Gov.stepsAbove_legal {g : Gov} (h : g.legal) : g.stepsAbove.legal := by
  unfold Gov.stepsAbove
  split
  · exact Gov.cclkDown_legal h (by omega)
  · split
    · exact Gov.mclkDown_legal h (by omega)
    · exact h

theorem Gov.stepsBelow_legal {g : Gov} (h : g.legal) : g.stepsBelow.legal := by
  unfold Gov.stepsBelow
  split
  · split
    · exact Gov.mclkUp_legal h
    · split
      · have := h.2.1
        exact ⟨h.1, by show g.cclk - 1 ≤ 4; omega, h.2.2⟩
      · exact h
  · exact h

theorem Gov.stepsSafe_legal {g : Gov} (h : g.legal) : g.stepsSafe.legal := by
  unfold Gov.stepsSafe
  split
  · exact Gov.cclkDown_legal h (by omega)
  · split
    · exact Gov.mclkDown_legal h (by omega)
    · exact h

/-- A sample keeps the levels legal. -/
theorem Gov.sample_legal {g : Gov} (h : g.legal) (p c : Nat) (safe : Bool) : (g.sample p c safe).legal := by
  unfold Gov.sample
  extract_lets capBits above farBelow strictly atLimit g1 g2
  have h1 : g1.legal := h
  have h2 : g2.legal := by
    unfold g2
    split
    · exact Gov.above_legal h1
    · exact Gov.below_legal h1 _
  split
  · exact Gov.stepsSafe_legal h2
  · split
    · exact Gov.stepsAbove_legal h2
    · exact Gov.stepsBelow_legal h2

end Sys2Proof.Machine
end

