-- ==== Sys2Proof/Laws/State.lean ====
section
/-! SUPPORT. Updates of one part of the state under a name, what each field reads as after each update, and the record
updates written by those names. -/

namespace Sys2Proof.Machine

/-- The state with another `draws`. -/
def State.withDraws (s : State) (v : Nat) : State := { s with draws := v }

/-- The state with another `clk`. -/
def State.withClk (s : State) (v : Clk) : State := { s with clk := v }

/-- The state with another `boot`. -/
def State.withBoot (s : State) (v : Boot) : State := { s with boot := v }

/-- The state with another `log`. -/
def State.withLog (s : State) (v : EventLog) : State := { s with log := v }

/-- The state with another `out`. -/
def State.withOut (s : State) (v : List Out) : State := { s with out := v }

/-- The state with another `dict`. -/
def State.withDict (s : State) (v : Dict) : State := { s with dict := v }

/-- The state with another `flash`. -/
def State.withFlash (s : State) (v : Memory) : State := { s with flash := v }

/-- The state with another `vdp`. -/
def State.withVdp (s : State) (v : Vdp) : State := { s with vdp := v }

/-- The state with another `can`. -/
def State.withCan (s : State) (v : Can) : State := { s with can := v }

/-- The state with another `ssp`. -/
def State.withSsp (s : State) (v : Ssp) : State := { s with ssp := v }

/-- The state with another `host`. -/
def State.withHost (s : State) (v : HostIf) : State := { s with host := v }

/-- The state with another `cred`. -/
def State.withCred (s : State) (v : Credits) : State := { s with cred := v }

/-- The state with another `mem`. -/
def State.withMem (s : State) (v : Memory) : State := { s with mem := v }

/-- The state with another `seg`. -/
def State.withSeg (s : State) (v : SegMan) : State := { s with seg := v }

/-- The state with another `bw`. -/
def State.withBw (s : State) (v : Regulator) : State := { s with bw := v }

/-- The state with another `diag`. -/
def State.withDiag (s : State) (v : Diag) : State := { s with diag := v }

/-- The state with another `colls`. -/
def State.withColls (s : State) (v : Map Coll) : State := { s with colls := v }

/-- The state with another `stash`. -/
def State.withStash (s : State) (v : List Buffered) : State := { s with stash := v }

/-- The state with another `sched`. -/
def State.withSched (s : State) (v : Sched) : State := { s with sched := v }

/-- The state with another `grid`. -/
def State.withGrid (s : State) (v : Grid) : State := { s with grid := v }

/-- The state with another `fab`. -/
def State.withFab (s : State) (v : Fabric) : State := { s with fab := v }

/-- The state with another `pay`. -/
def State.withPay (s : State) (v : PayStore) : State := { s with pay := v }

/-- The state with another `ftf`. -/
def State.withFtf (s : State) (v : Ftf) : State := { s with ftf := v }

/-- The state with another `gov`. -/
def State.withGov (s : State) (v : Gov) : State := { s with gov := v }

@[simp] theorem State.withDraws_pending (s : State) (v : Nat) : (s.withDraws v).pending = s.pending := rfl
@[simp] theorem State.withDraws_draws (s : State) (v : Nat) : (s.withDraws v).draws = v := rfl
@[simp] theorem State.withDraws_clk (s : State) (v : Nat) : (s.withDraws v).clk = s.clk := rfl
@[simp] theorem State.withDraws_boot (s : State) (v : Nat) : (s.withDraws v).boot = s.boot := rfl
@[simp] theorem State.withDraws_log (s : State) (v : Nat) : (s.withDraws v).log = s.log := rfl
@[simp] theorem State.withDraws_out (s : State) (v : Nat) : (s.withDraws v).out = s.out := rfl
@[simp] theorem State.withDraws_dict (s : State) (v : Nat) : (s.withDraws v).dict = s.dict := rfl
@[simp] theorem State.withDraws_flash (s : State) (v : Nat) : (s.withDraws v).flash = s.flash := rfl
@[simp] theorem State.withDraws_vdp (s : State) (v : Nat) : (s.withDraws v).vdp = s.vdp := rfl
@[simp] theorem State.withDraws_can (s : State) (v : Nat) : (s.withDraws v).can = s.can := rfl
@[simp] theorem State.withDraws_ssp (s : State) (v : Nat) : (s.withDraws v).ssp = s.ssp := rfl
@[simp] theorem State.withDraws_host (s : State) (v : Nat) : (s.withDraws v).host = s.host := rfl
@[simp] theorem State.withDraws_cred (s : State) (v : Nat) : (s.withDraws v).cred = s.cred := rfl
@[simp] theorem State.withDraws_mem (s : State) (v : Nat) : (s.withDraws v).mem = s.mem := rfl
@[simp] theorem State.withDraws_seg (s : State) (v : Nat) : (s.withDraws v).seg = s.seg := rfl
@[simp] theorem State.withDraws_bw (s : State) (v : Nat) : (s.withDraws v).bw = s.bw := rfl
@[simp] theorem State.withDraws_diag (s : State) (v : Nat) : (s.withDraws v).diag = s.diag := rfl
@[simp] theorem State.withDraws_colls (s : State) (v : Nat) : (s.withDraws v).colls = s.colls := rfl
@[simp] theorem State.withDraws_stash (s : State) (v : Nat) : (s.withDraws v).stash = s.stash := rfl
@[simp] theorem State.withDraws_sched (s : State) (v : Nat) : (s.withDraws v).sched = s.sched := rfl
@[simp] theorem State.withDraws_grid (s : State) (v : Nat) : (s.withDraws v).grid = s.grid := rfl
@[simp] theorem State.withDraws_fab (s : State) (v : Nat) : (s.withDraws v).fab = s.fab := rfl
@[simp] theorem State.withDraws_pay (s : State) (v : Nat) : (s.withDraws v).pay = s.pay := rfl
@[simp] theorem State.withDraws_ftf (s : State) (v : Nat) : (s.withDraws v).ftf = s.ftf := rfl
@[simp] theorem State.withDraws_gov (s : State) (v : Nat) : (s.withDraws v).gov = s.gov := rfl

@[simp] theorem State.withClk_pending (s : State) (v : Clk) : (s.withClk v).pending = s.pending := rfl
@[simp] theorem State.withClk_draws (s : State) (v : Clk) : (s.withClk v).draws = s.draws := rfl
@[simp] theorem State.withClk_clk (s : State) (v : Clk) : (s.withClk v).clk = v := rfl
@[simp] theorem State.withClk_boot (s : State) (v : Clk) : (s.withClk v).boot = s.boot := rfl
@[simp] theorem State.withClk_log (s : State) (v : Clk) : (s.withClk v).log = s.log := rfl
@[simp] theorem State.withClk_out (s : State) (v : Clk) : (s.withClk v).out = s.out := rfl
@[simp] theorem State.withClk_dict (s : State) (v : Clk) : (s.withClk v).dict = s.dict := rfl
@[simp] theorem State.withClk_flash (s : State) (v : Clk) : (s.withClk v).flash = s.flash := rfl
@[simp] theorem State.withClk_vdp (s : State) (v : Clk) : (s.withClk v).vdp = s.vdp := rfl
@[simp] theorem State.withClk_can (s : State) (v : Clk) : (s.withClk v).can = s.can := rfl
@[simp] theorem State.withClk_ssp (s : State) (v : Clk) : (s.withClk v).ssp = s.ssp := rfl
@[simp] theorem State.withClk_host (s : State) (v : Clk) : (s.withClk v).host = s.host := rfl
@[simp] theorem State.withClk_cred (s : State) (v : Clk) : (s.withClk v).cred = s.cred := rfl
@[simp] theorem State.withClk_mem (s : State) (v : Clk) : (s.withClk v).mem = s.mem := rfl
@[simp] theorem State.withClk_seg (s : State) (v : Clk) : (s.withClk v).seg = s.seg := rfl
@[simp] theorem State.withClk_bw (s : State) (v : Clk) : (s.withClk v).bw = s.bw := rfl
@[simp] theorem State.withClk_diag (s : State) (v : Clk) : (s.withClk v).diag = s.diag := rfl
@[simp] theorem State.withClk_colls (s : State) (v : Clk) : (s.withClk v).colls = s.colls := rfl
@[simp] theorem State.withClk_stash (s : State) (v : Clk) : (s.withClk v).stash = s.stash := rfl
@[simp] theorem State.withClk_sched (s : State) (v : Clk) : (s.withClk v).sched = s.sched := rfl
@[simp] theorem State.withClk_grid (s : State) (v : Clk) : (s.withClk v).grid = s.grid := rfl
@[simp] theorem State.withClk_fab (s : State) (v : Clk) : (s.withClk v).fab = s.fab := rfl
@[simp] theorem State.withClk_pay (s : State) (v : Clk) : (s.withClk v).pay = s.pay := rfl
@[simp] theorem State.withClk_ftf (s : State) (v : Clk) : (s.withClk v).ftf = s.ftf := rfl
@[simp] theorem State.withClk_gov (s : State) (v : Clk) : (s.withClk v).gov = s.gov := rfl

@[simp] theorem State.withBoot_pending (s : State) (v : Boot) : (s.withBoot v).pending = s.pending := rfl
@[simp] theorem State.withBoot_draws (s : State) (v : Boot) : (s.withBoot v).draws = s.draws := rfl
@[simp] theorem State.withBoot_clk (s : State) (v : Boot) : (s.withBoot v).clk = s.clk := rfl
@[simp] theorem State.withBoot_boot (s : State) (v : Boot) : (s.withBoot v).boot = v := rfl
@[simp] theorem State.withBoot_log (s : State) (v : Boot) : (s.withBoot v).log = s.log := rfl
@[simp] theorem State.withBoot_out (s : State) (v : Boot) : (s.withBoot v).out = s.out := rfl
@[simp] theorem State.withBoot_dict (s : State) (v : Boot) : (s.withBoot v).dict = s.dict := rfl
@[simp] theorem State.withBoot_flash (s : State) (v : Boot) : (s.withBoot v).flash = s.flash := rfl
@[simp] theorem State.withBoot_vdp (s : State) (v : Boot) : (s.withBoot v).vdp = s.vdp := rfl
@[simp] theorem State.withBoot_can (s : State) (v : Boot) : (s.withBoot v).can = s.can := rfl
@[simp] theorem State.withBoot_ssp (s : State) (v : Boot) : (s.withBoot v).ssp = s.ssp := rfl
@[simp] theorem State.withBoot_host (s : State) (v : Boot) : (s.withBoot v).host = s.host := rfl
@[simp] theorem State.withBoot_cred (s : State) (v : Boot) : (s.withBoot v).cred = s.cred := rfl
@[simp] theorem State.withBoot_mem (s : State) (v : Boot) : (s.withBoot v).mem = s.mem := rfl
@[simp] theorem State.withBoot_seg (s : State) (v : Boot) : (s.withBoot v).seg = s.seg := rfl
@[simp] theorem State.withBoot_bw (s : State) (v : Boot) : (s.withBoot v).bw = s.bw := rfl
@[simp] theorem State.withBoot_diag (s : State) (v : Boot) : (s.withBoot v).diag = s.diag := rfl
@[simp] theorem State.withBoot_colls (s : State) (v : Boot) : (s.withBoot v).colls = s.colls := rfl
@[simp] theorem State.withBoot_stash (s : State) (v : Boot) : (s.withBoot v).stash = s.stash := rfl
@[simp] theorem State.withBoot_sched (s : State) (v : Boot) : (s.withBoot v).sched = s.sched := rfl
@[simp] theorem State.withBoot_grid (s : State) (v : Boot) : (s.withBoot v).grid = s.grid := rfl
@[simp] theorem State.withBoot_fab (s : State) (v : Boot) : (s.withBoot v).fab = s.fab := rfl
@[simp] theorem State.withBoot_pay (s : State) (v : Boot) : (s.withBoot v).pay = s.pay := rfl
@[simp] theorem State.withBoot_ftf (s : State) (v : Boot) : (s.withBoot v).ftf = s.ftf := rfl
@[simp] theorem State.withBoot_gov (s : State) (v : Boot) : (s.withBoot v).gov = s.gov := rfl

@[simp] theorem State.withLog_pending (s : State) (v : EventLog) : (s.withLog v).pending = s.pending := rfl
@[simp] theorem State.withLog_draws (s : State) (v : EventLog) : (s.withLog v).draws = s.draws := rfl
@[simp] theorem State.withLog_clk (s : State) (v : EventLog) : (s.withLog v).clk = s.clk := rfl
@[simp] theorem State.withLog_boot (s : State) (v : EventLog) : (s.withLog v).boot = s.boot := rfl
@[simp] theorem State.withLog_log (s : State) (v : EventLog) : (s.withLog v).log = v := rfl
@[simp] theorem State.withLog_out (s : State) (v : EventLog) : (s.withLog v).out = s.out := rfl
@[simp] theorem State.withLog_dict (s : State) (v : EventLog) : (s.withLog v).dict = s.dict := rfl
@[simp] theorem State.withLog_flash (s : State) (v : EventLog) : (s.withLog v).flash = s.flash := rfl
@[simp] theorem State.withLog_vdp (s : State) (v : EventLog) : (s.withLog v).vdp = s.vdp := rfl
@[simp] theorem State.withLog_can (s : State) (v : EventLog) : (s.withLog v).can = s.can := rfl
@[simp] theorem State.withLog_ssp (s : State) (v : EventLog) : (s.withLog v).ssp = s.ssp := rfl
@[simp] theorem State.withLog_host (s : State) (v : EventLog) : (s.withLog v).host = s.host := rfl
@[simp] theorem State.withLog_cred (s : State) (v : EventLog) : (s.withLog v).cred = s.cred := rfl
@[simp] theorem State.withLog_mem (s : State) (v : EventLog) : (s.withLog v).mem = s.mem := rfl
@[simp] theorem State.withLog_seg (s : State) (v : EventLog) : (s.withLog v).seg = s.seg := rfl
@[simp] theorem State.withLog_bw (s : State) (v : EventLog) : (s.withLog v).bw = s.bw := rfl
@[simp] theorem State.withLog_diag (s : State) (v : EventLog) : (s.withLog v).diag = s.diag := rfl
@[simp] theorem State.withLog_colls (s : State) (v : EventLog) : (s.withLog v).colls = s.colls := rfl
@[simp] theorem State.withLog_stash (s : State) (v : EventLog) : (s.withLog v).stash = s.stash := rfl
@[simp] theorem State.withLog_sched (s : State) (v : EventLog) : (s.withLog v).sched = s.sched := rfl
@[simp] theorem State.withLog_grid (s : State) (v : EventLog) : (s.withLog v).grid = s.grid := rfl
@[simp] theorem State.withLog_fab (s : State) (v : EventLog) : (s.withLog v).fab = s.fab := rfl
@[simp] theorem State.withLog_pay (s : State) (v : EventLog) : (s.withLog v).pay = s.pay := rfl
@[simp] theorem State.withLog_ftf (s : State) (v : EventLog) : (s.withLog v).ftf = s.ftf := rfl
@[simp] theorem State.withLog_gov (s : State) (v : EventLog) : (s.withLog v).gov = s.gov := rfl

@[simp] theorem State.withOut_pending (s : State) (v : List Out) : (s.withOut v).pending = s.pending := rfl
@[simp] theorem State.withOut_draws (s : State) (v : List Out) : (s.withOut v).draws = s.draws := rfl
@[simp] theorem State.withOut_clk (s : State) (v : List Out) : (s.withOut v).clk = s.clk := rfl
@[simp] theorem State.withOut_boot (s : State) (v : List Out) : (s.withOut v).boot = s.boot := rfl
@[simp] theorem State.withOut_log (s : State) (v : List Out) : (s.withOut v).log = s.log := rfl
@[simp] theorem State.withOut_out (s : State) (v : List Out) : (s.withOut v).out = v := rfl
@[simp] theorem State.withOut_dict (s : State) (v : List Out) : (s.withOut v).dict = s.dict := rfl
@[simp] theorem State.withOut_flash (s : State) (v : List Out) : (s.withOut v).flash = s.flash := rfl
@[simp] theorem State.withOut_vdp (s : State) (v : List Out) : (s.withOut v).vdp = s.vdp := rfl
@[simp] theorem State.withOut_can (s : State) (v : List Out) : (s.withOut v).can = s.can := rfl
@[simp] theorem State.withOut_ssp (s : State) (v : List Out) : (s.withOut v).ssp = s.ssp := rfl
@[simp] theorem State.withOut_host (s : State) (v : List Out) : (s.withOut v).host = s.host := rfl
@[simp] theorem State.withOut_cred (s : State) (v : List Out) : (s.withOut v).cred = s.cred := rfl
@[simp] theorem State.withOut_mem (s : State) (v : List Out) : (s.withOut v).mem = s.mem := rfl
@[simp] theorem State.withOut_seg (s : State) (v : List Out) : (s.withOut v).seg = s.seg := rfl
@[simp] theorem State.withOut_bw (s : State) (v : List Out) : (s.withOut v).bw = s.bw := rfl
@[simp] theorem State.withOut_diag (s : State) (v : List Out) : (s.withOut v).diag = s.diag := rfl
@[simp] theorem State.withOut_colls (s : State) (v : List Out) : (s.withOut v).colls = s.colls := rfl
@[simp] theorem State.withOut_stash (s : State) (v : List Out) : (s.withOut v).stash = s.stash := rfl
@[simp] theorem State.withOut_sched (s : State) (v : List Out) : (s.withOut v).sched = s.sched := rfl
@[simp] theorem State.withOut_grid (s : State) (v : List Out) : (s.withOut v).grid = s.grid := rfl
@[simp] theorem State.withOut_fab (s : State) (v : List Out) : (s.withOut v).fab = s.fab := rfl
@[simp] theorem State.withOut_pay (s : State) (v : List Out) : (s.withOut v).pay = s.pay := rfl
@[simp] theorem State.withOut_ftf (s : State) (v : List Out) : (s.withOut v).ftf = s.ftf := rfl
@[simp] theorem State.withOut_gov (s : State) (v : List Out) : (s.withOut v).gov = s.gov := rfl

@[simp] theorem State.withDict_pending (s : State) (v : Dict) : (s.withDict v).pending = s.pending := rfl
@[simp] theorem State.withDict_draws (s : State) (v : Dict) : (s.withDict v).draws = s.draws := rfl
@[simp] theorem State.withDict_clk (s : State) (v : Dict) : (s.withDict v).clk = s.clk := rfl
@[simp] theorem State.withDict_boot (s : State) (v : Dict) : (s.withDict v).boot = s.boot := rfl
@[simp] theorem State.withDict_log (s : State) (v : Dict) : (s.withDict v).log = s.log := rfl
@[simp] theorem State.withDict_out (s : State) (v : Dict) : (s.withDict v).out = s.out := rfl
@[simp] theorem State.withDict_dict (s : State) (v : Dict) : (s.withDict v).dict = v := rfl
@[simp] theorem State.withDict_flash (s : State) (v : Dict) : (s.withDict v).flash = s.flash := rfl
@[simp] theorem State.withDict_vdp (s : State) (v : Dict) : (s.withDict v).vdp = s.vdp := rfl
@[simp] theorem State.withDict_can (s : State) (v : Dict) : (s.withDict v).can = s.can := rfl
@[simp] theorem State.withDict_ssp (s : State) (v : Dict) : (s.withDict v).ssp = s.ssp := rfl
@[simp] theorem State.withDict_host (s : State) (v : Dict) : (s.withDict v).host = s.host := rfl
@[simp] theorem State.withDict_cred (s : State) (v : Dict) : (s.withDict v).cred = s.cred := rfl
@[simp] theorem State.withDict_mem (s : State) (v : Dict) : (s.withDict v).mem = s.mem := rfl
@[simp] theorem State.withDict_seg (s : State) (v : Dict) : (s.withDict v).seg = s.seg := rfl
@[simp] theorem State.withDict_bw (s : State) (v : Dict) : (s.withDict v).bw = s.bw := rfl
@[simp] theorem State.withDict_diag (s : State) (v : Dict) : (s.withDict v).diag = s.diag := rfl
@[simp] theorem State.withDict_colls (s : State) (v : Dict) : (s.withDict v).colls = s.colls := rfl
@[simp] theorem State.withDict_stash (s : State) (v : Dict) : (s.withDict v).stash = s.stash := rfl
@[simp] theorem State.withDict_sched (s : State) (v : Dict) : (s.withDict v).sched = s.sched := rfl
@[simp] theorem State.withDict_grid (s : State) (v : Dict) : (s.withDict v).grid = s.grid := rfl
@[simp] theorem State.withDict_fab (s : State) (v : Dict) : (s.withDict v).fab = s.fab := rfl
@[simp] theorem State.withDict_pay (s : State) (v : Dict) : (s.withDict v).pay = s.pay := rfl
@[simp] theorem State.withDict_ftf (s : State) (v : Dict) : (s.withDict v).ftf = s.ftf := rfl
@[simp] theorem State.withDict_gov (s : State) (v : Dict) : (s.withDict v).gov = s.gov := rfl

@[simp] theorem State.withFlash_pending (s : State) (v : Memory) : (s.withFlash v).pending = s.pending := rfl
@[simp] theorem State.withFlash_draws (s : State) (v : Memory) : (s.withFlash v).draws = s.draws := rfl
@[simp] theorem State.withFlash_clk (s : State) (v : Memory) : (s.withFlash v).clk = s.clk := rfl
@[simp] theorem State.withFlash_boot (s : State) (v : Memory) : (s.withFlash v).boot = s.boot := rfl
@[simp] theorem State.withFlash_log (s : State) (v : Memory) : (s.withFlash v).log = s.log := rfl
@[simp] theorem State.withFlash_out (s : State) (v : Memory) : (s.withFlash v).out = s.out := rfl
@[simp] theorem State.withFlash_dict (s : State) (v : Memory) : (s.withFlash v).dict = s.dict := rfl
@[simp] theorem State.withFlash_flash (s : State) (v : Memory) : (s.withFlash v).flash = v := rfl
@[simp] theorem State.withFlash_vdp (s : State) (v : Memory) : (s.withFlash v).vdp = s.vdp := rfl
@[simp] theorem State.withFlash_can (s : State) (v : Memory) : (s.withFlash v).can = s.can := rfl
@[simp] theorem State.withFlash_ssp (s : State) (v : Memory) : (s.withFlash v).ssp = s.ssp := rfl
@[simp] theorem State.withFlash_host (s : State) (v : Memory) : (s.withFlash v).host = s.host := rfl
@[simp] theorem State.withFlash_cred (s : State) (v : Memory) : (s.withFlash v).cred = s.cred := rfl
@[simp] theorem State.withFlash_mem (s : State) (v : Memory) : (s.withFlash v).mem = s.mem := rfl
@[simp] theorem State.withFlash_seg (s : State) (v : Memory) : (s.withFlash v).seg = s.seg := rfl
@[simp] theorem State.withFlash_bw (s : State) (v : Memory) : (s.withFlash v).bw = s.bw := rfl
@[simp] theorem State.withFlash_diag (s : State) (v : Memory) : (s.withFlash v).diag = s.diag := rfl
@[simp] theorem State.withFlash_colls (s : State) (v : Memory) : (s.withFlash v).colls = s.colls := rfl
@[simp] theorem State.withFlash_stash (s : State) (v : Memory) : (s.withFlash v).stash = s.stash := rfl
@[simp] theorem State.withFlash_sched (s : State) (v : Memory) : (s.withFlash v).sched = s.sched := rfl
@[simp] theorem State.withFlash_grid (s : State) (v : Memory) : (s.withFlash v).grid = s.grid := rfl
@[simp] theorem State.withFlash_fab (s : State) (v : Memory) : (s.withFlash v).fab = s.fab := rfl
@[simp] theorem State.withFlash_pay (s : State) (v : Memory) : (s.withFlash v).pay = s.pay := rfl
@[simp] theorem State.withFlash_ftf (s : State) (v : Memory) : (s.withFlash v).ftf = s.ftf := rfl
@[simp] theorem State.withFlash_gov (s : State) (v : Memory) : (s.withFlash v).gov = s.gov := rfl

@[simp] theorem State.withVdp_pending (s : State) (v : Vdp) : (s.withVdp v).pending = s.pending := rfl
@[simp] theorem State.withVdp_draws (s : State) (v : Vdp) : (s.withVdp v).draws = s.draws := rfl
@[simp] theorem State.withVdp_clk (s : State) (v : Vdp) : (s.withVdp v).clk = s.clk := rfl
@[simp] theorem State.withVdp_boot (s : State) (v : Vdp) : (s.withVdp v).boot = s.boot := rfl
@[simp] theorem State.withVdp_log (s : State) (v : Vdp) : (s.withVdp v).log = s.log := rfl
@[simp] theorem State.withVdp_out (s : State) (v : Vdp) : (s.withVdp v).out = s.out := rfl
@[simp] theorem State.withVdp_dict (s : State) (v : Vdp) : (s.withVdp v).dict = s.dict := rfl
@[simp] theorem State.withVdp_flash (s : State) (v : Vdp) : (s.withVdp v).flash = s.flash := rfl
@[simp] theorem State.withVdp_vdp (s : State) (v : Vdp) : (s.withVdp v).vdp = v := rfl
@[simp] theorem State.withVdp_can (s : State) (v : Vdp) : (s.withVdp v).can = s.can := rfl
@[simp] theorem State.withVdp_ssp (s : State) (v : Vdp) : (s.withVdp v).ssp = s.ssp := rfl
@[simp] theorem State.withVdp_host (s : State) (v : Vdp) : (s.withVdp v).host = s.host := rfl
@[simp] theorem State.withVdp_cred (s : State) (v : Vdp) : (s.withVdp v).cred = s.cred := rfl
@[simp] theorem State.withVdp_mem (s : State) (v : Vdp) : (s.withVdp v).mem = s.mem := rfl
@[simp] theorem State.withVdp_seg (s : State) (v : Vdp) : (s.withVdp v).seg = s.seg := rfl
@[simp] theorem State.withVdp_bw (s : State) (v : Vdp) : (s.withVdp v).bw = s.bw := rfl
@[simp] theorem State.withVdp_diag (s : State) (v : Vdp) : (s.withVdp v).diag = s.diag := rfl
@[simp] theorem State.withVdp_colls (s : State) (v : Vdp) : (s.withVdp v).colls = s.colls := rfl
@[simp] theorem State.withVdp_stash (s : State) (v : Vdp) : (s.withVdp v).stash = s.stash := rfl
@[simp] theorem State.withVdp_sched (s : State) (v : Vdp) : (s.withVdp v).sched = s.sched := rfl
@[simp] theorem State.withVdp_grid (s : State) (v : Vdp) : (s.withVdp v).grid = s.grid := rfl
@[simp] theorem State.withVdp_fab (s : State) (v : Vdp) : (s.withVdp v).fab = s.fab := rfl
@[simp] theorem State.withVdp_pay (s : State) (v : Vdp) : (s.withVdp v).pay = s.pay := rfl
@[simp] theorem State.withVdp_ftf (s : State) (v : Vdp) : (s.withVdp v).ftf = s.ftf := rfl
@[simp] theorem State.withVdp_gov (s : State) (v : Vdp) : (s.withVdp v).gov = s.gov := rfl

@[simp] theorem State.withCan_pending (s : State) (v : Can) : (s.withCan v).pending = s.pending := rfl
@[simp] theorem State.withCan_draws (s : State) (v : Can) : (s.withCan v).draws = s.draws := rfl
@[simp] theorem State.withCan_clk (s : State) (v : Can) : (s.withCan v).clk = s.clk := rfl
@[simp] theorem State.withCan_boot (s : State) (v : Can) : (s.withCan v).boot = s.boot := rfl
@[simp] theorem State.withCan_log (s : State) (v : Can) : (s.withCan v).log = s.log := rfl
@[simp] theorem State.withCan_out (s : State) (v : Can) : (s.withCan v).out = s.out := rfl
@[simp] theorem State.withCan_dict (s : State) (v : Can) : (s.withCan v).dict = s.dict := rfl
@[simp] theorem State.withCan_flash (s : State) (v : Can) : (s.withCan v).flash = s.flash := rfl
@[simp] theorem State.withCan_vdp (s : State) (v : Can) : (s.withCan v).vdp = s.vdp := rfl
@[simp] theorem State.withCan_can (s : State) (v : Can) : (s.withCan v).can = v := rfl
@[simp] theorem State.withCan_ssp (s : State) (v : Can) : (s.withCan v).ssp = s.ssp := rfl
@[simp] theorem State.withCan_host (s : State) (v : Can) : (s.withCan v).host = s.host := rfl
@[simp] theorem State.withCan_cred (s : State) (v : Can) : (s.withCan v).cred = s.cred := rfl
@[simp] theorem State.withCan_mem (s : State) (v : Can) : (s.withCan v).mem = s.mem := rfl
@[simp] theorem State.withCan_seg (s : State) (v : Can) : (s.withCan v).seg = s.seg := rfl
@[simp] theorem State.withCan_bw (s : State) (v : Can) : (s.withCan v).bw = s.bw := rfl
@[simp] theorem State.withCan_diag (s : State) (v : Can) : (s.withCan v).diag = s.diag := rfl
@[simp] theorem State.withCan_colls (s : State) (v : Can) : (s.withCan v).colls = s.colls := rfl
@[simp] theorem State.withCan_stash (s : State) (v : Can) : (s.withCan v).stash = s.stash := rfl
@[simp] theorem State.withCan_sched (s : State) (v : Can) : (s.withCan v).sched = s.sched := rfl
@[simp] theorem State.withCan_grid (s : State) (v : Can) : (s.withCan v).grid = s.grid := rfl
@[simp] theorem State.withCan_fab (s : State) (v : Can) : (s.withCan v).fab = s.fab := rfl
@[simp] theorem State.withCan_pay (s : State) (v : Can) : (s.withCan v).pay = s.pay := rfl
@[simp] theorem State.withCan_ftf (s : State) (v : Can) : (s.withCan v).ftf = s.ftf := rfl
@[simp] theorem State.withCan_gov (s : State) (v : Can) : (s.withCan v).gov = s.gov := rfl

@[simp] theorem State.withSsp_pending (s : State) (v : Ssp) : (s.withSsp v).pending = s.pending := rfl
@[simp] theorem State.withSsp_draws (s : State) (v : Ssp) : (s.withSsp v).draws = s.draws := rfl
@[simp] theorem State.withSsp_clk (s : State) (v : Ssp) : (s.withSsp v).clk = s.clk := rfl
@[simp] theorem State.withSsp_boot (s : State) (v : Ssp) : (s.withSsp v).boot = s.boot := rfl
@[simp] theorem State.withSsp_log (s : State) (v : Ssp) : (s.withSsp v).log = s.log := rfl
@[simp] theorem State.withSsp_out (s : State) (v : Ssp) : (s.withSsp v).out = s.out := rfl
@[simp] theorem State.withSsp_dict (s : State) (v : Ssp) : (s.withSsp v).dict = s.dict := rfl
@[simp] theorem State.withSsp_flash (s : State) (v : Ssp) : (s.withSsp v).flash = s.flash := rfl
@[simp] theorem State.withSsp_vdp (s : State) (v : Ssp) : (s.withSsp v).vdp = s.vdp := rfl
@[simp] theorem State.withSsp_can (s : State) (v : Ssp) : (s.withSsp v).can = s.can := rfl
@[simp] theorem State.withSsp_ssp (s : State) (v : Ssp) : (s.withSsp v).ssp = v := rfl
@[simp] theorem State.withSsp_host (s : State) (v : Ssp) : (s.withSsp v).host = s.host := rfl
@[simp] theorem State.withSsp_cred (s : State) (v : Ssp) : (s.withSsp v).cred = s.cred := rfl
@[simp] theorem State.withSsp_mem (s : State) (v : Ssp) : (s.withSsp v).mem = s.mem := rfl
@[simp] theorem State.withSsp_seg (s : State) (v : Ssp) : (s.withSsp v).seg = s.seg := rfl
@[simp] theorem State.withSsp_bw (s : State) (v : Ssp) : (s.withSsp v).bw = s.bw := rfl
@[simp] theorem State.withSsp_diag (s : State) (v : Ssp) : (s.withSsp v).diag = s.diag := rfl
@[simp] theorem State.withSsp_colls (s : State) (v : Ssp) : (s.withSsp v).colls = s.colls := rfl
@[simp] theorem State.withSsp_stash (s : State) (v : Ssp) : (s.withSsp v).stash = s.stash := rfl
@[simp] theorem State.withSsp_sched (s : State) (v : Ssp) : (s.withSsp v).sched = s.sched := rfl
@[simp] theorem State.withSsp_grid (s : State) (v : Ssp) : (s.withSsp v).grid = s.grid := rfl
@[simp] theorem State.withSsp_fab (s : State) (v : Ssp) : (s.withSsp v).fab = s.fab := rfl
@[simp] theorem State.withSsp_pay (s : State) (v : Ssp) : (s.withSsp v).pay = s.pay := rfl
@[simp] theorem State.withSsp_ftf (s : State) (v : Ssp) : (s.withSsp v).ftf = s.ftf := rfl
@[simp] theorem State.withSsp_gov (s : State) (v : Ssp) : (s.withSsp v).gov = s.gov := rfl

@[simp] theorem State.withHost_pending (s : State) (v : HostIf) : (s.withHost v).pending = s.pending := rfl
@[simp] theorem State.withHost_draws (s : State) (v : HostIf) : (s.withHost v).draws = s.draws := rfl
@[simp] theorem State.withHost_clk (s : State) (v : HostIf) : (s.withHost v).clk = s.clk := rfl
@[simp] theorem State.withHost_boot (s : State) (v : HostIf) : (s.withHost v).boot = s.boot := rfl
@[simp] theorem State.withHost_log (s : State) (v : HostIf) : (s.withHost v).log = s.log := rfl
@[simp] theorem State.withHost_out (s : State) (v : HostIf) : (s.withHost v).out = s.out := rfl
@[simp] theorem State.withHost_dict (s : State) (v : HostIf) : (s.withHost v).dict = s.dict := rfl
@[simp] theorem State.withHost_flash (s : State) (v : HostIf) : (s.withHost v).flash = s.flash := rfl
@[simp] theorem State.withHost_vdp (s : State) (v : HostIf) : (s.withHost v).vdp = s.vdp := rfl
@[simp] theorem State.withHost_can (s : State) (v : HostIf) : (s.withHost v).can = s.can := rfl
@[simp] theorem State.withHost_ssp (s : State) (v : HostIf) : (s.withHost v).ssp = s.ssp := rfl
@[simp] theorem State.withHost_host (s : State) (v : HostIf) : (s.withHost v).host = v := rfl
@[simp] theorem State.withHost_cred (s : State) (v : HostIf) : (s.withHost v).cred = s.cred := rfl
@[simp] theorem State.withHost_mem (s : State) (v : HostIf) : (s.withHost v).mem = s.mem := rfl
@[simp] theorem State.withHost_seg (s : State) (v : HostIf) : (s.withHost v).seg = s.seg := rfl
@[simp] theorem State.withHost_bw (s : State) (v : HostIf) : (s.withHost v).bw = s.bw := rfl
@[simp] theorem State.withHost_diag (s : State) (v : HostIf) : (s.withHost v).diag = s.diag := rfl
@[simp] theorem State.withHost_colls (s : State) (v : HostIf) : (s.withHost v).colls = s.colls := rfl
@[simp] theorem State.withHost_stash (s : State) (v : HostIf) : (s.withHost v).stash = s.stash := rfl
@[simp] theorem State.withHost_sched (s : State) (v : HostIf) : (s.withHost v).sched = s.sched := rfl
@[simp] theorem State.withHost_grid (s : State) (v : HostIf) : (s.withHost v).grid = s.grid := rfl
@[simp] theorem State.withHost_fab (s : State) (v : HostIf) : (s.withHost v).fab = s.fab := rfl
@[simp] theorem State.withHost_pay (s : State) (v : HostIf) : (s.withHost v).pay = s.pay := rfl
@[simp] theorem State.withHost_ftf (s : State) (v : HostIf) : (s.withHost v).ftf = s.ftf := rfl
@[simp] theorem State.withHost_gov (s : State) (v : HostIf) : (s.withHost v).gov = s.gov := rfl

@[simp] theorem State.withCred_pending (s : State) (v : Credits) : (s.withCred v).pending = s.pending := rfl
@[simp] theorem State.withCred_draws (s : State) (v : Credits) : (s.withCred v).draws = s.draws := rfl
@[simp] theorem State.withCred_clk (s : State) (v : Credits) : (s.withCred v).clk = s.clk := rfl
@[simp] theorem State.withCred_boot (s : State) (v : Credits) : (s.withCred v).boot = s.boot := rfl
@[simp] theorem State.withCred_log (s : State) (v : Credits) : (s.withCred v).log = s.log := rfl
@[simp] theorem State.withCred_out (s : State) (v : Credits) : (s.withCred v).out = s.out := rfl
@[simp] theorem State.withCred_dict (s : State) (v : Credits) : (s.withCred v).dict = s.dict := rfl
@[simp] theorem State.withCred_flash (s : State) (v : Credits) : (s.withCred v).flash = s.flash := rfl
@[simp] theorem State.withCred_vdp (s : State) (v : Credits) : (s.withCred v).vdp = s.vdp := rfl
@[simp] theorem State.withCred_can (s : State) (v : Credits) : (s.withCred v).can = s.can := rfl
@[simp] theorem State.withCred_ssp (s : State) (v : Credits) : (s.withCred v).ssp = s.ssp := rfl
@[simp] theorem State.withCred_host (s : State) (v : Credits) : (s.withCred v).host = s.host := rfl
@[simp] theorem State.withCred_cred (s : State) (v : Credits) : (s.withCred v).cred = v := rfl
@[simp] theorem State.withCred_mem (s : State) (v : Credits) : (s.withCred v).mem = s.mem := rfl
@[simp] theorem State.withCred_seg (s : State) (v : Credits) : (s.withCred v).seg = s.seg := rfl
@[simp] theorem State.withCred_bw (s : State) (v : Credits) : (s.withCred v).bw = s.bw := rfl
@[simp] theorem State.withCred_diag (s : State) (v : Credits) : (s.withCred v).diag = s.diag := rfl
@[simp] theorem State.withCred_colls (s : State) (v : Credits) : (s.withCred v).colls = s.colls := rfl
@[simp] theorem State.withCred_stash (s : State) (v : Credits) : (s.withCred v).stash = s.stash := rfl
@[simp] theorem State.withCred_sched (s : State) (v : Credits) : (s.withCred v).sched = s.sched := rfl
@[simp] theorem State.withCred_grid (s : State) (v : Credits) : (s.withCred v).grid = s.grid := rfl
@[simp] theorem State.withCred_fab (s : State) (v : Credits) : (s.withCred v).fab = s.fab := rfl
@[simp] theorem State.withCred_pay (s : State) (v : Credits) : (s.withCred v).pay = s.pay := rfl
@[simp] theorem State.withCred_ftf (s : State) (v : Credits) : (s.withCred v).ftf = s.ftf := rfl
@[simp] theorem State.withCred_gov (s : State) (v : Credits) : (s.withCred v).gov = s.gov := rfl

@[simp] theorem State.withMem_pending (s : State) (v : Memory) : (s.withMem v).pending = s.pending := rfl
@[simp] theorem State.withMem_draws (s : State) (v : Memory) : (s.withMem v).draws = s.draws := rfl
@[simp] theorem State.withMem_clk (s : State) (v : Memory) : (s.withMem v).clk = s.clk := rfl
@[simp] theorem State.withMem_boot (s : State) (v : Memory) : (s.withMem v).boot = s.boot := rfl
@[simp] theorem State.withMem_log (s : State) (v : Memory) : (s.withMem v).log = s.log := rfl
@[simp] theorem State.withMem_out (s : State) (v : Memory) : (s.withMem v).out = s.out := rfl
@[simp] theorem State.withMem_dict (s : State) (v : Memory) : (s.withMem v).dict = s.dict := rfl
@[simp] theorem State.withMem_flash (s : State) (v : Memory) : (s.withMem v).flash = s.flash := rfl
@[simp] theorem State.withMem_vdp (s : State) (v : Memory) : (s.withMem v).vdp = s.vdp := rfl
@[simp] theorem State.withMem_can (s : State) (v : Memory) : (s.withMem v).can = s.can := rfl
@[simp] theorem State.withMem_ssp (s : State) (v : Memory) : (s.withMem v).ssp = s.ssp := rfl
@[simp] theorem State.withMem_host (s : State) (v : Memory) : (s.withMem v).host = s.host := rfl
@[simp] theorem State.withMem_cred (s : State) (v : Memory) : (s.withMem v).cred = s.cred := rfl
@[simp] theorem State.withMem_mem (s : State) (v : Memory) : (s.withMem v).mem = v := rfl
@[simp] theorem State.withMem_seg (s : State) (v : Memory) : (s.withMem v).seg = s.seg := rfl
@[simp] theorem State.withMem_bw (s : State) (v : Memory) : (s.withMem v).bw = s.bw := rfl
@[simp] theorem State.withMem_diag (s : State) (v : Memory) : (s.withMem v).diag = s.diag := rfl
@[simp] theorem State.withMem_colls (s : State) (v : Memory) : (s.withMem v).colls = s.colls := rfl
@[simp] theorem State.withMem_stash (s : State) (v : Memory) : (s.withMem v).stash = s.stash := rfl
@[simp] theorem State.withMem_sched (s : State) (v : Memory) : (s.withMem v).sched = s.sched := rfl
@[simp] theorem State.withMem_grid (s : State) (v : Memory) : (s.withMem v).grid = s.grid := rfl
@[simp] theorem State.withMem_fab (s : State) (v : Memory) : (s.withMem v).fab = s.fab := rfl
@[simp] theorem State.withMem_pay (s : State) (v : Memory) : (s.withMem v).pay = s.pay := rfl
@[simp] theorem State.withMem_ftf (s : State) (v : Memory) : (s.withMem v).ftf = s.ftf := rfl
@[simp] theorem State.withMem_gov (s : State) (v : Memory) : (s.withMem v).gov = s.gov := rfl

@[simp] theorem State.withSeg_pending (s : State) (v : SegMan) : (s.withSeg v).pending = s.pending := rfl
@[simp] theorem State.withSeg_draws (s : State) (v : SegMan) : (s.withSeg v).draws = s.draws := rfl
@[simp] theorem State.withSeg_clk (s : State) (v : SegMan) : (s.withSeg v).clk = s.clk := rfl
@[simp] theorem State.withSeg_boot (s : State) (v : SegMan) : (s.withSeg v).boot = s.boot := rfl
@[simp] theorem State.withSeg_log (s : State) (v : SegMan) : (s.withSeg v).log = s.log := rfl
@[simp] theorem State.withSeg_out (s : State) (v : SegMan) : (s.withSeg v).out = s.out := rfl
@[simp] theorem State.withSeg_dict (s : State) (v : SegMan) : (s.withSeg v).dict = s.dict := rfl
@[simp] theorem State.withSeg_flash (s : State) (v : SegMan) : (s.withSeg v).flash = s.flash := rfl
@[simp] theorem State.withSeg_vdp (s : State) (v : SegMan) : (s.withSeg v).vdp = s.vdp := rfl
@[simp] theorem State.withSeg_can (s : State) (v : SegMan) : (s.withSeg v).can = s.can := rfl
@[simp] theorem State.withSeg_ssp (s : State) (v : SegMan) : (s.withSeg v).ssp = s.ssp := rfl
@[simp] theorem State.withSeg_host (s : State) (v : SegMan) : (s.withSeg v).host = s.host := rfl
@[simp] theorem State.withSeg_cred (s : State) (v : SegMan) : (s.withSeg v).cred = s.cred := rfl
@[simp] theorem State.withSeg_mem (s : State) (v : SegMan) : (s.withSeg v).mem = s.mem := rfl
@[simp] theorem State.withSeg_seg (s : State) (v : SegMan) : (s.withSeg v).seg = v := rfl
@[simp] theorem State.withSeg_bw (s : State) (v : SegMan) : (s.withSeg v).bw = s.bw := rfl
@[simp] theorem State.withSeg_diag (s : State) (v : SegMan) : (s.withSeg v).diag = s.diag := rfl
@[simp] theorem State.withSeg_colls (s : State) (v : SegMan) : (s.withSeg v).colls = s.colls := rfl
@[simp] theorem State.withSeg_stash (s : State) (v : SegMan) : (s.withSeg v).stash = s.stash := rfl
@[simp] theorem State.withSeg_sched (s : State) (v : SegMan) : (s.withSeg v).sched = s.sched := rfl
@[simp] theorem State.withSeg_grid (s : State) (v : SegMan) : (s.withSeg v).grid = s.grid := rfl
@[simp] theorem State.withSeg_fab (s : State) (v : SegMan) : (s.withSeg v).fab = s.fab := rfl
@[simp] theorem State.withSeg_pay (s : State) (v : SegMan) : (s.withSeg v).pay = s.pay := rfl
@[simp] theorem State.withSeg_ftf (s : State) (v : SegMan) : (s.withSeg v).ftf = s.ftf := rfl
@[simp] theorem State.withSeg_gov (s : State) (v : SegMan) : (s.withSeg v).gov = s.gov := rfl

@[simp] theorem State.withBw_pending (s : State) (v : Regulator) : (s.withBw v).pending = s.pending := rfl
@[simp] theorem State.withBw_draws (s : State) (v : Regulator) : (s.withBw v).draws = s.draws := rfl
@[simp] theorem State.withBw_clk (s : State) (v : Regulator) : (s.withBw v).clk = s.clk := rfl
@[simp] theorem State.withBw_boot (s : State) (v : Regulator) : (s.withBw v).boot = s.boot := rfl
@[simp] theorem State.withBw_log (s : State) (v : Regulator) : (s.withBw v).log = s.log := rfl
@[simp] theorem State.withBw_out (s : State) (v : Regulator) : (s.withBw v).out = s.out := rfl
@[simp] theorem State.withBw_dict (s : State) (v : Regulator) : (s.withBw v).dict = s.dict := rfl
@[simp] theorem State.withBw_flash (s : State) (v : Regulator) : (s.withBw v).flash = s.flash := rfl
@[simp] theorem State.withBw_vdp (s : State) (v : Regulator) : (s.withBw v).vdp = s.vdp := rfl
@[simp] theorem State.withBw_can (s : State) (v : Regulator) : (s.withBw v).can = s.can := rfl
@[simp] theorem State.withBw_ssp (s : State) (v : Regulator) : (s.withBw v).ssp = s.ssp := rfl
@[simp] theorem State.withBw_host (s : State) (v : Regulator) : (s.withBw v).host = s.host := rfl
@[simp] theorem State.withBw_cred (s : State) (v : Regulator) : (s.withBw v).cred = s.cred := rfl
@[simp] theorem State.withBw_mem (s : State) (v : Regulator) : (s.withBw v).mem = s.mem := rfl
@[simp] theorem State.withBw_seg (s : State) (v : Regulator) : (s.withBw v).seg = s.seg := rfl
@[simp] theorem State.withBw_bw (s : State) (v : Regulator) : (s.withBw v).bw = v := rfl
@[simp] theorem State.withBw_diag (s : State) (v : Regulator) : (s.withBw v).diag = s.diag := rfl
@[simp] theorem State.withBw_colls (s : State) (v : Regulator) : (s.withBw v).colls = s.colls := rfl
@[simp] theorem State.withBw_stash (s : State) (v : Regulator) : (s.withBw v).stash = s.stash := rfl
@[simp] theorem State.withBw_sched (s : State) (v : Regulator) : (s.withBw v).sched = s.sched := rfl
@[simp] theorem State.withBw_grid (s : State) (v : Regulator) : (s.withBw v).grid = s.grid := rfl
@[simp] theorem State.withBw_fab (s : State) (v : Regulator) : (s.withBw v).fab = s.fab := rfl
@[simp] theorem State.withBw_pay (s : State) (v : Regulator) : (s.withBw v).pay = s.pay := rfl
@[simp] theorem State.withBw_ftf (s : State) (v : Regulator) : (s.withBw v).ftf = s.ftf := rfl
@[simp] theorem State.withBw_gov (s : State) (v : Regulator) : (s.withBw v).gov = s.gov := rfl

@[simp] theorem State.withDiag_pending (s : State) (v : Diag) : (s.withDiag v).pending = s.pending := rfl
@[simp] theorem State.withDiag_draws (s : State) (v : Diag) : (s.withDiag v).draws = s.draws := rfl
@[simp] theorem State.withDiag_clk (s : State) (v : Diag) : (s.withDiag v).clk = s.clk := rfl
@[simp] theorem State.withDiag_boot (s : State) (v : Diag) : (s.withDiag v).boot = s.boot := rfl
@[simp] theorem State.withDiag_log (s : State) (v : Diag) : (s.withDiag v).log = s.log := rfl
@[simp] theorem State.withDiag_out (s : State) (v : Diag) : (s.withDiag v).out = s.out := rfl
@[simp] theorem State.withDiag_dict (s : State) (v : Diag) : (s.withDiag v).dict = s.dict := rfl
@[simp] theorem State.withDiag_flash (s : State) (v : Diag) : (s.withDiag v).flash = s.flash := rfl
@[simp] theorem State.withDiag_vdp (s : State) (v : Diag) : (s.withDiag v).vdp = s.vdp := rfl
@[simp] theorem State.withDiag_can (s : State) (v : Diag) : (s.withDiag v).can = s.can := rfl
@[simp] theorem State.withDiag_ssp (s : State) (v : Diag) : (s.withDiag v).ssp = s.ssp := rfl
@[simp] theorem State.withDiag_host (s : State) (v : Diag) : (s.withDiag v).host = s.host := rfl
@[simp] theorem State.withDiag_cred (s : State) (v : Diag) : (s.withDiag v).cred = s.cred := rfl
@[simp] theorem State.withDiag_mem (s : State) (v : Diag) : (s.withDiag v).mem = s.mem := rfl
@[simp] theorem State.withDiag_seg (s : State) (v : Diag) : (s.withDiag v).seg = s.seg := rfl
@[simp] theorem State.withDiag_bw (s : State) (v : Diag) : (s.withDiag v).bw = s.bw := rfl
@[simp] theorem State.withDiag_diag (s : State) (v : Diag) : (s.withDiag v).diag = v := rfl
@[simp] theorem State.withDiag_colls (s : State) (v : Diag) : (s.withDiag v).colls = s.colls := rfl
@[simp] theorem State.withDiag_stash (s : State) (v : Diag) : (s.withDiag v).stash = s.stash := rfl
@[simp] theorem State.withDiag_sched (s : State) (v : Diag) : (s.withDiag v).sched = s.sched := rfl
@[simp] theorem State.withDiag_grid (s : State) (v : Diag) : (s.withDiag v).grid = s.grid := rfl
@[simp] theorem State.withDiag_fab (s : State) (v : Diag) : (s.withDiag v).fab = s.fab := rfl
@[simp] theorem State.withDiag_pay (s : State) (v : Diag) : (s.withDiag v).pay = s.pay := rfl
@[simp] theorem State.withDiag_ftf (s : State) (v : Diag) : (s.withDiag v).ftf = s.ftf := rfl
@[simp] theorem State.withDiag_gov (s : State) (v : Diag) : (s.withDiag v).gov = s.gov := rfl

@[simp] theorem State.withColls_pending (s : State) (v : Map Coll) : (s.withColls v).pending = s.pending := rfl
@[simp] theorem State.withColls_draws (s : State) (v : Map Coll) : (s.withColls v).draws = s.draws := rfl
@[simp] theorem State.withColls_clk (s : State) (v : Map Coll) : (s.withColls v).clk = s.clk := rfl
@[simp] theorem State.withColls_boot (s : State) (v : Map Coll) : (s.withColls v).boot = s.boot := rfl
@[simp] theorem State.withColls_log (s : State) (v : Map Coll) : (s.withColls v).log = s.log := rfl
@[simp] theorem State.withColls_out (s : State) (v : Map Coll) : (s.withColls v).out = s.out := rfl
@[simp] theorem State.withColls_dict (s : State) (v : Map Coll) : (s.withColls v).dict = s.dict := rfl
@[simp] theorem State.withColls_flash (s : State) (v : Map Coll) : (s.withColls v).flash = s.flash := rfl
@[simp] theorem State.withColls_vdp (s : State) (v : Map Coll) : (s.withColls v).vdp = s.vdp := rfl
@[simp] theorem State.withColls_can (s : State) (v : Map Coll) : (s.withColls v).can = s.can := rfl
@[simp] theorem State.withColls_ssp (s : State) (v : Map Coll) : (s.withColls v).ssp = s.ssp := rfl
@[simp] theorem State.withColls_host (s : State) (v : Map Coll) : (s.withColls v).host = s.host := rfl
@[simp] theorem State.withColls_cred (s : State) (v : Map Coll) : (s.withColls v).cred = s.cred := rfl
@[simp] theorem State.withColls_mem (s : State) (v : Map Coll) : (s.withColls v).mem = s.mem := rfl
@[simp] theorem State.withColls_seg (s : State) (v : Map Coll) : (s.withColls v).seg = s.seg := rfl
@[simp] theorem State.withColls_bw (s : State) (v : Map Coll) : (s.withColls v).bw = s.bw := rfl
@[simp] theorem State.withColls_diag (s : State) (v : Map Coll) : (s.withColls v).diag = s.diag := rfl
@[simp] theorem State.withColls_colls (s : State) (v : Map Coll) : (s.withColls v).colls = v := rfl
@[simp] theorem State.withColls_stash (s : State) (v : Map Coll) : (s.withColls v).stash = s.stash := rfl
@[simp] theorem State.withColls_sched (s : State) (v : Map Coll) : (s.withColls v).sched = s.sched := rfl
@[simp] theorem State.withColls_grid (s : State) (v : Map Coll) : (s.withColls v).grid = s.grid := rfl
@[simp] theorem State.withColls_fab (s : State) (v : Map Coll) : (s.withColls v).fab = s.fab := rfl
@[simp] theorem State.withColls_pay (s : State) (v : Map Coll) : (s.withColls v).pay = s.pay := rfl
@[simp] theorem State.withColls_ftf (s : State) (v : Map Coll) : (s.withColls v).ftf = s.ftf := rfl
@[simp] theorem State.withColls_gov (s : State) (v : Map Coll) : (s.withColls v).gov = s.gov := rfl

@[simp] theorem State.withStash_pending (s : State) (v : List Buffered) : (s.withStash v).pending = s.pending := rfl
@[simp] theorem State.withStash_draws (s : State) (v : List Buffered) : (s.withStash v).draws = s.draws := rfl
@[simp] theorem State.withStash_clk (s : State) (v : List Buffered) : (s.withStash v).clk = s.clk := rfl
@[simp] theorem State.withStash_boot (s : State) (v : List Buffered) : (s.withStash v).boot = s.boot := rfl
@[simp] theorem State.withStash_log (s : State) (v : List Buffered) : (s.withStash v).log = s.log := rfl
@[simp] theorem State.withStash_out (s : State) (v : List Buffered) : (s.withStash v).out = s.out := rfl
@[simp] theorem State.withStash_dict (s : State) (v : List Buffered) : (s.withStash v).dict = s.dict := rfl
@[simp] theorem State.withStash_flash (s : State) (v : List Buffered) : (s.withStash v).flash = s.flash := rfl
@[simp] theorem State.withStash_vdp (s : State) (v : List Buffered) : (s.withStash v).vdp = s.vdp := rfl
@[simp] theorem State.withStash_can (s : State) (v : List Buffered) : (s.withStash v).can = s.can := rfl
@[simp] theorem State.withStash_ssp (s : State) (v : List Buffered) : (s.withStash v).ssp = s.ssp := rfl
@[simp] theorem State.withStash_host (s : State) (v : List Buffered) : (s.withStash v).host = s.host := rfl
@[simp] theorem State.withStash_cred (s : State) (v : List Buffered) : (s.withStash v).cred = s.cred := rfl
@[simp] theorem State.withStash_mem (s : State) (v : List Buffered) : (s.withStash v).mem = s.mem := rfl
@[simp] theorem State.withStash_seg (s : State) (v : List Buffered) : (s.withStash v).seg = s.seg := rfl
@[simp] theorem State.withStash_bw (s : State) (v : List Buffered) : (s.withStash v).bw = s.bw := rfl
@[simp] theorem State.withStash_diag (s : State) (v : List Buffered) : (s.withStash v).diag = s.diag := rfl
@[simp] theorem State.withStash_colls (s : State) (v : List Buffered) : (s.withStash v).colls = s.colls := rfl
@[simp] theorem State.withStash_stash (s : State) (v : List Buffered) : (s.withStash v).stash = v := rfl
@[simp] theorem State.withStash_sched (s : State) (v : List Buffered) : (s.withStash v).sched = s.sched := rfl
@[simp] theorem State.withStash_grid (s : State) (v : List Buffered) : (s.withStash v).grid = s.grid := rfl
@[simp] theorem State.withStash_fab (s : State) (v : List Buffered) : (s.withStash v).fab = s.fab := rfl
@[simp] theorem State.withStash_pay (s : State) (v : List Buffered) : (s.withStash v).pay = s.pay := rfl
@[simp] theorem State.withStash_ftf (s : State) (v : List Buffered) : (s.withStash v).ftf = s.ftf := rfl
@[simp] theorem State.withStash_gov (s : State) (v : List Buffered) : (s.withStash v).gov = s.gov := rfl

@[simp] theorem State.withSched_pending (s : State) (v : Sched) : (s.withSched v).pending = s.pending := rfl
@[simp] theorem State.withSched_draws (s : State) (v : Sched) : (s.withSched v).draws = s.draws := rfl
@[simp] theorem State.withSched_clk (s : State) (v : Sched) : (s.withSched v).clk = s.clk := rfl
@[simp] theorem State.withSched_boot (s : State) (v : Sched) : (s.withSched v).boot = s.boot := rfl
@[simp] theorem State.withSched_log (s : State) (v : Sched) : (s.withSched v).log = s.log := rfl
@[simp] theorem State.withSched_out (s : State) (v : Sched) : (s.withSched v).out = s.out := rfl
@[simp] theorem State.withSched_dict (s : State) (v : Sched) : (s.withSched v).dict = s.dict := rfl
@[simp] theorem State.withSched_flash (s : State) (v : Sched) : (s.withSched v).flash = s.flash := rfl
@[simp] theorem State.withSched_vdp (s : State) (v : Sched) : (s.withSched v).vdp = s.vdp := rfl
@[simp] theorem State.withSched_can (s : State) (v : Sched) : (s.withSched v).can = s.can := rfl
@[simp] theorem State.withSched_ssp (s : State) (v : Sched) : (s.withSched v).ssp = s.ssp := rfl
@[simp] theorem State.withSched_host (s : State) (v : Sched) : (s.withSched v).host = s.host := rfl
@[simp] theorem State.withSched_cred (s : State) (v : Sched) : (s.withSched v).cred = s.cred := rfl
@[simp] theorem State.withSched_mem (s : State) (v : Sched) : (s.withSched v).mem = s.mem := rfl
@[simp] theorem State.withSched_seg (s : State) (v : Sched) : (s.withSched v).seg = s.seg := rfl
@[simp] theorem State.withSched_bw (s : State) (v : Sched) : (s.withSched v).bw = s.bw := rfl
@[simp] theorem State.withSched_diag (s : State) (v : Sched) : (s.withSched v).diag = s.diag := rfl
@[simp] theorem State.withSched_colls (s : State) (v : Sched) : (s.withSched v).colls = s.colls := rfl
@[simp] theorem State.withSched_stash (s : State) (v : Sched) : (s.withSched v).stash = s.stash := rfl
@[simp] theorem State.withSched_sched (s : State) (v : Sched) : (s.withSched v).sched = v := rfl
@[simp] theorem State.withSched_grid (s : State) (v : Sched) : (s.withSched v).grid = s.grid := rfl
@[simp] theorem State.withSched_fab (s : State) (v : Sched) : (s.withSched v).fab = s.fab := rfl
@[simp] theorem State.withSched_pay (s : State) (v : Sched) : (s.withSched v).pay = s.pay := rfl
@[simp] theorem State.withSched_ftf (s : State) (v : Sched) : (s.withSched v).ftf = s.ftf := rfl
@[simp] theorem State.withSched_gov (s : State) (v : Sched) : (s.withSched v).gov = s.gov := rfl

@[simp] theorem State.withGrid_pending (s : State) (v : Grid) : (s.withGrid v).pending = s.pending := rfl
@[simp] theorem State.withGrid_draws (s : State) (v : Grid) : (s.withGrid v).draws = s.draws := rfl
@[simp] theorem State.withGrid_clk (s : State) (v : Grid) : (s.withGrid v).clk = s.clk := rfl
@[simp] theorem State.withGrid_boot (s : State) (v : Grid) : (s.withGrid v).boot = s.boot := rfl
@[simp] theorem State.withGrid_log (s : State) (v : Grid) : (s.withGrid v).log = s.log := rfl
@[simp] theorem State.withGrid_out (s : State) (v : Grid) : (s.withGrid v).out = s.out := rfl
@[simp] theorem State.withGrid_dict (s : State) (v : Grid) : (s.withGrid v).dict = s.dict := rfl
@[simp] theorem State.withGrid_flash (s : State) (v : Grid) : (s.withGrid v).flash = s.flash := rfl
@[simp] theorem State.withGrid_vdp (s : State) (v : Grid) : (s.withGrid v).vdp = s.vdp := rfl
@[simp] theorem State.withGrid_can (s : State) (v : Grid) : (s.withGrid v).can = s.can := rfl
@[simp] theorem State.withGrid_ssp (s : State) (v : Grid) : (s.withGrid v).ssp = s.ssp := rfl
@[simp] theorem State.withGrid_host (s : State) (v : Grid) : (s.withGrid v).host = s.host := rfl
@[simp] theorem State.withGrid_cred (s : State) (v : Grid) : (s.withGrid v).cred = s.cred := rfl
@[simp] theorem State.withGrid_mem (s : State) (v : Grid) : (s.withGrid v).mem = s.mem := rfl
@[simp] theorem State.withGrid_seg (s : State) (v : Grid) : (s.withGrid v).seg = s.seg := rfl
@[simp] theorem State.withGrid_bw (s : State) (v : Grid) : (s.withGrid v).bw = s.bw := rfl
@[simp] theorem State.withGrid_diag (s : State) (v : Grid) : (s.withGrid v).diag = s.diag := rfl
@[simp] theorem State.withGrid_colls (s : State) (v : Grid) : (s.withGrid v).colls = s.colls := rfl
@[simp] theorem State.withGrid_stash (s : State) (v : Grid) : (s.withGrid v).stash = s.stash := rfl
@[simp] theorem State.withGrid_sched (s : State) (v : Grid) : (s.withGrid v).sched = s.sched := rfl
@[simp] theorem State.withGrid_grid (s : State) (v : Grid) : (s.withGrid v).grid = v := rfl
@[simp] theorem State.withGrid_fab (s : State) (v : Grid) : (s.withGrid v).fab = s.fab := rfl
@[simp] theorem State.withGrid_pay (s : State) (v : Grid) : (s.withGrid v).pay = s.pay := rfl
@[simp] theorem State.withGrid_ftf (s : State) (v : Grid) : (s.withGrid v).ftf = s.ftf := rfl
@[simp] theorem State.withGrid_gov (s : State) (v : Grid) : (s.withGrid v).gov = s.gov := rfl

@[simp] theorem State.withFab_pending (s : State) (v : Fabric) : (s.withFab v).pending = s.pending := rfl
@[simp] theorem State.withFab_draws (s : State) (v : Fabric) : (s.withFab v).draws = s.draws := rfl
@[simp] theorem State.withFab_clk (s : State) (v : Fabric) : (s.withFab v).clk = s.clk := rfl
@[simp] theorem State.withFab_boot (s : State) (v : Fabric) : (s.withFab v).boot = s.boot := rfl
@[simp] theorem State.withFab_log (s : State) (v : Fabric) : (s.withFab v).log = s.log := rfl
@[simp] theorem State.withFab_out (s : State) (v : Fabric) : (s.withFab v).out = s.out := rfl
@[simp] theorem State.withFab_dict (s : State) (v : Fabric) : (s.withFab v).dict = s.dict := rfl
@[simp] theorem State.withFab_flash (s : State) (v : Fabric) : (s.withFab v).flash = s.flash := rfl
@[simp] theorem State.withFab_vdp (s : State) (v : Fabric) : (s.withFab v).vdp = s.vdp := rfl
@[simp] theorem State.withFab_can (s : State) (v : Fabric) : (s.withFab v).can = s.can := rfl
@[simp] theorem State.withFab_ssp (s : State) (v : Fabric) : (s.withFab v).ssp = s.ssp := rfl
@[simp] theorem State.withFab_host (s : State) (v : Fabric) : (s.withFab v).host = s.host := rfl
@[simp] theorem State.withFab_cred (s : State) (v : Fabric) : (s.withFab v).cred = s.cred := rfl
@[simp] theorem State.withFab_mem (s : State) (v : Fabric) : (s.withFab v).mem = s.mem := rfl
@[simp] theorem State.withFab_seg (s : State) (v : Fabric) : (s.withFab v).seg = s.seg := rfl
@[simp] theorem State.withFab_bw (s : State) (v : Fabric) : (s.withFab v).bw = s.bw := rfl
@[simp] theorem State.withFab_diag (s : State) (v : Fabric) : (s.withFab v).diag = s.diag := rfl
@[simp] theorem State.withFab_colls (s : State) (v : Fabric) : (s.withFab v).colls = s.colls := rfl
@[simp] theorem State.withFab_stash (s : State) (v : Fabric) : (s.withFab v).stash = s.stash := rfl
@[simp] theorem State.withFab_sched (s : State) (v : Fabric) : (s.withFab v).sched = s.sched := rfl
@[simp] theorem State.withFab_grid (s : State) (v : Fabric) : (s.withFab v).grid = s.grid := rfl
@[simp] theorem State.withFab_fab (s : State) (v : Fabric) : (s.withFab v).fab = v := rfl
@[simp] theorem State.withFab_pay (s : State) (v : Fabric) : (s.withFab v).pay = s.pay := rfl
@[simp] theorem State.withFab_ftf (s : State) (v : Fabric) : (s.withFab v).ftf = s.ftf := rfl
@[simp] theorem State.withFab_gov (s : State) (v : Fabric) : (s.withFab v).gov = s.gov := rfl

@[simp] theorem State.withPay_pending (s : State) (v : PayStore) : (s.withPay v).pending = s.pending := rfl
@[simp] theorem State.withPay_draws (s : State) (v : PayStore) : (s.withPay v).draws = s.draws := rfl
@[simp] theorem State.withPay_clk (s : State) (v : PayStore) : (s.withPay v).clk = s.clk := rfl
@[simp] theorem State.withPay_boot (s : State) (v : PayStore) : (s.withPay v).boot = s.boot := rfl
@[simp] theorem State.withPay_log (s : State) (v : PayStore) : (s.withPay v).log = s.log := rfl
@[simp] theorem State.withPay_out (s : State) (v : PayStore) : (s.withPay v).out = s.out := rfl
@[simp] theorem State.withPay_dict (s : State) (v : PayStore) : (s.withPay v).dict = s.dict := rfl
@[simp] theorem State.withPay_flash (s : State) (v : PayStore) : (s.withPay v).flash = s.flash := rfl
@[simp] theorem State.withPay_vdp (s : State) (v : PayStore) : (s.withPay v).vdp = s.vdp := rfl
@[simp] theorem State.withPay_can (s : State) (v : PayStore) : (s.withPay v).can = s.can := rfl
@[simp] theorem State.withPay_ssp (s : State) (v : PayStore) : (s.withPay v).ssp = s.ssp := rfl
@[simp] theorem State.withPay_host (s : State) (v : PayStore) : (s.withPay v).host = s.host := rfl
@[simp] theorem State.withPay_cred (s : State) (v : PayStore) : (s.withPay v).cred = s.cred := rfl
@[simp] theorem State.withPay_mem (s : State) (v : PayStore) : (s.withPay v).mem = s.mem := rfl
@[simp] theorem State.withPay_seg (s : State) (v : PayStore) : (s.withPay v).seg = s.seg := rfl
@[simp] theorem State.withPay_bw (s : State) (v : PayStore) : (s.withPay v).bw = s.bw := rfl
@[simp] theorem State.withPay_diag (s : State) (v : PayStore) : (s.withPay v).diag = s.diag := rfl
@[simp] theorem State.withPay_colls (s : State) (v : PayStore) : (s.withPay v).colls = s.colls := rfl
@[simp] theorem State.withPay_stash (s : State) (v : PayStore) : (s.withPay v).stash = s.stash := rfl
@[simp] theorem State.withPay_sched (s : State) (v : PayStore) : (s.withPay v).sched = s.sched := rfl
@[simp] theorem State.withPay_grid (s : State) (v : PayStore) : (s.withPay v).grid = s.grid := rfl
@[simp] theorem State.withPay_fab (s : State) (v : PayStore) : (s.withPay v).fab = s.fab := rfl
@[simp] theorem State.withPay_pay (s : State) (v : PayStore) : (s.withPay v).pay = v := rfl
@[simp] theorem State.withPay_ftf (s : State) (v : PayStore) : (s.withPay v).ftf = s.ftf := rfl
@[simp] theorem State.withPay_gov (s : State) (v : PayStore) : (s.withPay v).gov = s.gov := rfl

@[simp] theorem State.withFtf_pending (s : State) (v : Ftf) : (s.withFtf v).pending = s.pending := rfl
@[simp] theorem State.withFtf_draws (s : State) (v : Ftf) : (s.withFtf v).draws = s.draws := rfl
@[simp] theorem State.withFtf_clk (s : State) (v : Ftf) : (s.withFtf v).clk = s.clk := rfl
@[simp] theorem State.withFtf_boot (s : State) (v : Ftf) : (s.withFtf v).boot = s.boot := rfl
@[simp] theorem State.withFtf_log (s : State) (v : Ftf) : (s.withFtf v).log = s.log := rfl
@[simp] theorem State.withFtf_out (s : State) (v : Ftf) : (s.withFtf v).out = s.out := rfl
@[simp] theorem State.withFtf_dict (s : State) (v : Ftf) : (s.withFtf v).dict = s.dict := rfl
@[simp] theorem State.withFtf_flash (s : State) (v : Ftf) : (s.withFtf v).flash = s.flash := rfl
@[simp] theorem State.withFtf_vdp (s : State) (v : Ftf) : (s.withFtf v).vdp = s.vdp := rfl
@[simp] theorem State.withFtf_can (s : State) (v : Ftf) : (s.withFtf v).can = s.can := rfl
@[simp] theorem State.withFtf_ssp (s : State) (v : Ftf) : (s.withFtf v).ssp = s.ssp := rfl
@[simp] theorem State.withFtf_host (s : State) (v : Ftf) : (s.withFtf v).host = s.host := rfl
@[simp] theorem State.withFtf_cred (s : State) (v : Ftf) : (s.withFtf v).cred = s.cred := rfl
@[simp] theorem State.withFtf_mem (s : State) (v : Ftf) : (s.withFtf v).mem = s.mem := rfl
@[simp] theorem State.withFtf_seg (s : State) (v : Ftf) : (s.withFtf v).seg = s.seg := rfl
@[simp] theorem State.withFtf_bw (s : State) (v : Ftf) : (s.withFtf v).bw = s.bw := rfl
@[simp] theorem State.withFtf_diag (s : State) (v : Ftf) : (s.withFtf v).diag = s.diag := rfl
@[simp] theorem State.withFtf_colls (s : State) (v : Ftf) : (s.withFtf v).colls = s.colls := rfl
@[simp] theorem State.withFtf_stash (s : State) (v : Ftf) : (s.withFtf v).stash = s.stash := rfl
@[simp] theorem State.withFtf_sched (s : State) (v : Ftf) : (s.withFtf v).sched = s.sched := rfl
@[simp] theorem State.withFtf_grid (s : State) (v : Ftf) : (s.withFtf v).grid = s.grid := rfl
@[simp] theorem State.withFtf_fab (s : State) (v : Ftf) : (s.withFtf v).fab = s.fab := rfl
@[simp] theorem State.withFtf_pay (s : State) (v : Ftf) : (s.withFtf v).pay = s.pay := rfl
@[simp] theorem State.withFtf_ftf (s : State) (v : Ftf) : (s.withFtf v).ftf = v := rfl
@[simp] theorem State.withFtf_gov (s : State) (v : Ftf) : (s.withFtf v).gov = s.gov := rfl

@[simp] theorem State.withGov_pending (s : State) (v : Gov) : (s.withGov v).pending = s.pending := rfl
@[simp] theorem State.withGov_draws (s : State) (v : Gov) : (s.withGov v).draws = s.draws := rfl
@[simp] theorem State.withGov_clk (s : State) (v : Gov) : (s.withGov v).clk = s.clk := rfl
@[simp] theorem State.withGov_boot (s : State) (v : Gov) : (s.withGov v).boot = s.boot := rfl
@[simp] theorem State.withGov_log (s : State) (v : Gov) : (s.withGov v).log = s.log := rfl
@[simp] theorem State.withGov_out (s : State) (v : Gov) : (s.withGov v).out = s.out := rfl
@[simp] theorem State.withGov_dict (s : State) (v : Gov) : (s.withGov v).dict = s.dict := rfl
@[simp] theorem State.withGov_flash (s : State) (v : Gov) : (s.withGov v).flash = s.flash := rfl
@[simp] theorem State.withGov_vdp (s : State) (v : Gov) : (s.withGov v).vdp = s.vdp := rfl
@[simp] theorem State.withGov_can (s : State) (v : Gov) : (s.withGov v).can = s.can := rfl
@[simp] theorem State.withGov_ssp (s : State) (v : Gov) : (s.withGov v).ssp = s.ssp := rfl
@[simp] theorem State.withGov_host (s : State) (v : Gov) : (s.withGov v).host = s.host := rfl
@[simp] theorem State.withGov_cred (s : State) (v : Gov) : (s.withGov v).cred = s.cred := rfl
@[simp] theorem State.withGov_mem (s : State) (v : Gov) : (s.withGov v).mem = s.mem := rfl
@[simp] theorem State.withGov_seg (s : State) (v : Gov) : (s.withGov v).seg = s.seg := rfl
@[simp] theorem State.withGov_bw (s : State) (v : Gov) : (s.withGov v).bw = s.bw := rfl
@[simp] theorem State.withGov_diag (s : State) (v : Gov) : (s.withGov v).diag = s.diag := rfl
@[simp] theorem State.withGov_colls (s : State) (v : Gov) : (s.withGov v).colls = s.colls := rfl
@[simp] theorem State.withGov_stash (s : State) (v : Gov) : (s.withGov v).stash = s.stash := rfl
@[simp] theorem State.withGov_sched (s : State) (v : Gov) : (s.withGov v).sched = s.sched := rfl
@[simp] theorem State.withGov_grid (s : State) (v : Gov) : (s.withGov v).grid = s.grid := rfl
@[simp] theorem State.withGov_fab (s : State) (v : Gov) : (s.withGov v).fab = s.fab := rfl
@[simp] theorem State.withGov_pay (s : State) (v : Gov) : (s.withGov v).pay = s.pay := rfl
@[simp] theorem State.withGov_ftf (s : State) (v : Gov) : (s.withGov v).ftf = s.ftf := rfl
@[simp] theorem State.withGov_gov (s : State) (v : Gov) : (s.withGov v).gov = v := rfl

theorem State.set_draws (s : State) (v : Nat) : { s with draws := v } = s.withDraws v := rfl
theorem State.set_clk (s : State) (v : Clk) : { s with clk := v } = s.withClk v := rfl
theorem State.set_boot (s : State) (v : Boot) : { s with boot := v } = s.withBoot v := rfl
theorem State.set_log (s : State) (v : EventLog) : { s with log := v } = s.withLog v := rfl
theorem State.set_out (s : State) (v : List Out) : { s with out := v } = s.withOut v := rfl
theorem State.set_dict (s : State) (v : Dict) : { s with dict := v } = s.withDict v := rfl
theorem State.set_flash (s : State) (v : Memory) : { s with flash := v } = s.withFlash v := rfl
theorem State.set_vdp (s : State) (v : Vdp) : { s with vdp := v } = s.withVdp v := rfl
theorem State.set_can (s : State) (v : Can) : { s with can := v } = s.withCan v := rfl
theorem State.set_ssp (s : State) (v : Ssp) : { s with ssp := v } = s.withSsp v := rfl
theorem State.set_host (s : State) (v : HostIf) : { s with host := v } = s.withHost v := rfl
theorem State.set_cred (s : State) (v : Credits) : { s with cred := v } = s.withCred v := rfl
theorem State.set_mem (s : State) (v : Memory) : { s with mem := v } = s.withMem v := rfl
theorem State.set_seg (s : State) (v : SegMan) : { s with seg := v } = s.withSeg v := rfl
theorem State.set_bw (s : State) (v : Regulator) : { s with bw := v } = s.withBw v := rfl
theorem State.set_diag (s : State) (v : Diag) : { s with diag := v } = s.withDiag v := rfl
theorem State.set_colls (s : State) (v : Map Coll) : { s with colls := v } = s.withColls v := rfl
theorem State.set_stash (s : State) (v : List Buffered) : { s with stash := v } = s.withStash v := rfl
theorem State.set_sched (s : State) (v : Sched) : { s with sched := v } = s.withSched v := rfl
theorem State.set_grid (s : State) (v : Grid) : { s with grid := v } = s.withGrid v := rfl
theorem State.set_fab (s : State) (v : Fabric) : { s with fab := v } = s.withFab v := rfl
theorem State.set_pay (s : State) (v : PayStore) : { s with pay := v } = s.withPay v := rfl
theorem State.set_ftf (s : State) (v : Ftf) : { s with ftf := v } = s.withFtf v := rfl
theorem State.set_gov (s : State) (v : Gov) : { s with gov := v } = s.withGov v := rfl
theorem State.set_vdp_can (s : State) (v0 : Vdp) (v1 : Can) :
    { s with vdp := v0, can := v1 } = (s.withVdp v0).withCan v1 := rfl
theorem State.set_boot_vdp_ssp_cred_seg_bw_stash_sched_fab (s : State) (v0 : Boot) (v1 : Vdp) (v2 : Ssp) (v3 : Credits) (v4 : SegMan) (v5 : Regulator) (v6 : List Buffered) (v7 : Sched) (v8 : Fabric) :
    { s with boot := v0, vdp := v1, ssp := v2, cred := v3, seg := v4, bw := v5, stash := v6, sched := v7, fab := v8 } = ((((((((s.withBoot v0).withVdp v1).withSsp v2).withCred v3).withSeg v4).withBw v5).withStash v6).withSched v7).withFab v8 := rfl
theorem State.set_boot_cred (s : State) (v0 : Boot) (v1 : Credits) :
    { s with boot := v0, cred := v1 } = (s.withBoot v0).withCred v1 := rfl
theorem State.set_seg_bw (s : State) (v0 : SegMan) (v1 : Regulator) :
    { s with seg := v0, bw := v1 } = (s.withSeg v0).withBw v1 := rfl
theorem State.set_seg_diag (s : State) (v0 : SegMan) (v1 : Diag) :
    { s with seg := v0, diag := v1 } = (s.withSeg v0).withDiag v1 := rfl
theorem State.set_mem_seg_colls_grid_pay (s : State) (v0 : Memory) (v1 : SegMan) (v2 : Map Coll) (v3 : Grid) (v4 : PayStore) :
    { s with mem := v0, seg := v1, colls := v2, grid := v3, pay := v4 } = ((((s.withMem v0).withSeg v1).withColls v2).withGrid v3).withPay v4 := rfl
theorem State.set_boot_mem (s : State) (v0 : Boot) (v1 : Memory) :
    { s with boot := v0, mem := v1 } = (s.withBoot v0).withMem v1 := rfl
theorem State.set_boot_dict (s : State) (v0 : Boot) (v1 : Dict) :
    { s with boot := v0, dict := v1 } = (s.withBoot v0).withDict v1 := rfl
theorem State.set_seg_colls_grid (s : State) (v0 : SegMan) (v1 : Map Coll) (v2 : Grid) :
    { s with seg := v0, colls := v1, grid := v2 } = ((s.withSeg v0).withColls v1).withGrid v2 := rfl
theorem State.set_boot_vdp_host (s : State) (v0 : Boot) (v1 : Vdp) (v2 : HostIf) :
    { s with boot := v0, vdp := v1, host := v2 } = ((s.withBoot v0).withVdp v1).withHost v2 := rfl
theorem State.set_boot_seg (s : State) (v0 : Boot) (v1 : SegMan) :
    { s with boot := v0, seg := v1 } = (s.withBoot v0).withSeg v1 := rfl
theorem State.set_boot_diag (s : State) (v0 : Boot) (v1 : Diag) :
    { s with boot := v0, diag := v1 } = (s.withBoot v0).withDiag v1 := rfl

end Sys2Proof.Machine
end

