-- ==== Sys2Proof/Laws/Only.lean ====
section
/-! SUPPORT. What an operation may change: `Only ps s t` says that from `s` to `t` only the parts `ps` change and that
every part's own invariant is kept. Each operation has one lemma of this form; a command's is composed of them. -/

namespace Sys2Proof.Machine

/-- The invariant of one part. -/
def Part.inv (s : State) : Part → Prop
  | .mem => Memory.wf 0 s.mem = true
  | .flash => Memory.wf 0xFF s.flash = true
  | .grid => ∀ e ∈ s.grid.tiles, Memory.wf 0 e.2.mem = true
  | .log => ∀ e ∈ s.log.ring, e.1 < 1024
  | .gov => s.governorLegal
  | _ => True

/-- Only the parts listed change, and every part keeps its invariant. -/
structure Only (ps : List Part) (s t : State) : Prop where
  frame : Frame ps s t
  inv : ∀ p : Part, p.inv s → p.inv t

theorem Part.same.refl (s : State) (p : Part) : p.same s s := by cases p <;> rfl

theorem Part.same.trans {s t u : State} {p : Part} (h : p.same s t) (k : p.same t u) : p.same s u := by
  cases p <;> exact Eq.trans k h

theorem Only.refl (ps : List Part) (s : State) : Only ps s s :=
  ⟨⟨rfl, fun p _ => Part.same.refl s p⟩, fun _ h => h⟩

/-- One more operation, which changes only parts `qs` among `ps`. -/
theorem Only.step {ps qs : List Part} {s t u : State} (k : Only qs t u) (hq : qs.all ps.contains = true) (h : Only ps s t) :
    Only ps s u := by
  refine ⟨⟨k.frame.1.trans h.frame.1, fun p hp => (h.frame.2 p hp).trans (k.frame.2 p ?_)⟩, fun p hp => k.inv p (h.inv p hp)⟩
  cases hc : qs.contains p with
  | false => rfl
  | true => exact absurd ((List.all_eq_true.mp hq p (List.contains_iff_mem.mp hc)).symm.trans hp) (by decide)

/-- An update of `draws`. -/
theorem Only.with_draws {ps : List Part} {s t : State} {v : Nat} (h : Only ps s t) (hm : ps.contains .draws = true) :
    Only ps s (t.withDraws v) := by
  refine ⟨⟨h.frame.1, fun p hp => ?_⟩, fun p hp => ?_⟩
  · cases p <;> first | exact h.frame.2 _ hp | exact absurd (hm.symm.trans hp) (by decide)
  · cases p <;> exact h.inv _ hp

/-- An update of `clk`. -/
theorem Only.with_clk {ps : List Part} {s t : State} {v : Clk} (h : Only ps s t) (hm : ps.contains .clk = true) :
    Only ps s (t.withClk v) := by
  refine ⟨⟨h.frame.1, fun p hp => ?_⟩, fun p hp => ?_⟩
  · cases p <;> first | exact h.frame.2 _ hp | exact absurd (hm.symm.trans hp) (by decide)
  · cases p <;> exact h.inv _ hp

/-- An update of `boot`. -/
theorem Only.with_boot {ps : List Part} {s t : State} {v : Boot} (h : Only ps s t) (hm : ps.contains .boot = true) :
    Only ps s (t.withBoot v) := by
  refine ⟨⟨h.frame.1, fun p hp => ?_⟩, fun p hp => ?_⟩
  · cases p <;> first | exact h.frame.2 _ hp | exact absurd (hm.symm.trans hp) (by decide)
  · cases p <;> exact h.inv _ hp

/-- An update of `log`. -/
theorem Only.with_log {ps : List Part} {s t : State} {v : EventLog} (h : Only ps s t) (hm : ps.contains .log = true)
    (hi : (∀ e ∈ s.log.ring, e.1 < 1024) → ((∀ e ∈ t.log.ring, e.1 < 1024) → ∀ e ∈ v.ring, e.1 < 1024)) :
    Only ps s (t.withLog v) := by
  refine ⟨⟨h.frame.1, fun p hp => ?_⟩, fun p hp => ?_⟩
  · cases p <;> first | exact h.frame.2 _ hp | exact absurd (hm.symm.trans hp) (by decide)
  · cases p <;> first | exact hi hp (h.inv _ hp) | exact h.inv _ hp

/-- An update of `out`. -/
theorem Only.with_out {ps : List Part} {s t : State} {v : List Out} (h : Only ps s t) (hm : ps.contains .out = true) :
    Only ps s (t.withOut v) := by
  refine ⟨⟨h.frame.1, fun p hp => ?_⟩, fun p hp => ?_⟩
  · cases p <;> first | exact h.frame.2 _ hp | exact absurd (hm.symm.trans hp) (by decide)
  · cases p <;> exact h.inv _ hp

/-- An update of `dict`. -/
theorem Only.with_dict {ps : List Part} {s t : State} {v : Dict} (h : Only ps s t) (hm : ps.contains .dict = true) :
    Only ps s (t.withDict v) := by
  refine ⟨⟨h.frame.1, fun p hp => ?_⟩, fun p hp => ?_⟩
  · cases p <;> first | exact h.frame.2 _ hp | exact absurd (hm.symm.trans hp) (by decide)
  · cases p <;> exact h.inv _ hp

/-- An update of `flash`. -/
theorem Only.with_flash {ps : List Part} {s t : State} {v : Memory} (h : Only ps s t) (hm : ps.contains .flash = true)
    (hi : Memory.wf 0xFF s.flash = true → (Memory.wf 0xFF t.flash = true → Memory.wf 0xFF v = true)) :
    Only ps s (t.withFlash v) := by
  refine ⟨⟨h.frame.1, fun p hp => ?_⟩, fun p hp => ?_⟩
  · cases p <;> first | exact h.frame.2 _ hp | exact absurd (hm.symm.trans hp) (by decide)
  · cases p <;> first | exact hi hp (h.inv _ hp) | exact h.inv _ hp

/-- An update of `vdp`. -/
theorem Only.with_vdp {ps : List Part} {s t : State} {v : Vdp} (h : Only ps s t) (hm : ps.contains .vdp = true) :
    Only ps s (t.withVdp v) := by
  refine ⟨⟨h.frame.1, fun p hp => ?_⟩, fun p hp => ?_⟩
  · cases p <;> first | exact h.frame.2 _ hp | exact absurd (hm.symm.trans hp) (by decide)
  · cases p <;> exact h.inv _ hp

/-- An update of `can`. -/
theorem Only.with_can {ps : List Part} {s t : State} {v : Can} (h : Only ps s t) (hm : ps.contains .can = true) :
    Only ps s (t.withCan v) := by
  refine ⟨⟨h.frame.1, fun p hp => ?_⟩, fun p hp => ?_⟩
  · cases p <;> first | exact h.frame.2 _ hp | exact absurd (hm.symm.trans hp) (by decide)
  · cases p <;> exact h.inv _ hp

/-- An update of `ssp`. -/
theorem Only.with_ssp {ps : List Part} {s t : State} {v : Ssp} (h : Only ps s t) (hm : ps.contains .ssp = true) :
    Only ps s (t.withSsp v) := by
  refine ⟨⟨h.frame.1, fun p hp => ?_⟩, fun p hp => ?_⟩
  · cases p <;> first | exact h.frame.2 _ hp | exact absurd (hm.symm.trans hp) (by decide)
  · cases p <;> exact h.inv _ hp

/-- An update of `host`. -/
theorem Only.with_host {ps : List Part} {s t : State} {v : HostIf} (h : Only ps s t) (hm : ps.contains .host = true) :
    Only ps s (t.withHost v) := by
  refine ⟨⟨h.frame.1, fun p hp => ?_⟩, fun p hp => ?_⟩
  · cases p <;> first | exact h.frame.2 _ hp | exact absurd (hm.symm.trans hp) (by decide)
  · cases p <;> exact h.inv _ hp

/-- An update of `cred`. -/
theorem Only.with_cred {ps : List Part} {s t : State} {v : Credits} (h : Only ps s t) (hm : ps.contains .cred = true) :
    Only ps s (t.withCred v) := by
  refine ⟨⟨h.frame.1, fun p hp => ?_⟩, fun p hp => ?_⟩
  · cases p <;> first | exact h.frame.2 _ hp | exact absurd (hm.symm.trans hp) (by decide)
  · cases p <;> exact h.inv _ hp

/-- An update of `mem`. -/
theorem Only.with_mem {ps : List Part} {s t : State} {v : Memory} (h : Only ps s t) (hm : ps.contains .mem = true)
    (hi : Memory.wf 0 s.mem = true → (Memory.wf 0 t.mem = true → Memory.wf 0 v = true)) :
    Only ps s (t.withMem v) := by
  refine ⟨⟨h.frame.1, fun p hp => ?_⟩, fun p hp => ?_⟩
  · cases p <;> first | exact h.frame.2 _ hp | exact absurd (hm.symm.trans hp) (by decide)
  · cases p <;> first | exact hi hp (h.inv _ hp) | exact h.inv _ hp

/-- An update of `seg`. -/
theorem Only.with_seg {ps : List Part} {s t : State} {v : SegMan} (h : Only ps s t) (hm : ps.contains .seg = true) :
    Only ps s (t.withSeg v) := by
  refine ⟨⟨h.frame.1, fun p hp => ?_⟩, fun p hp => ?_⟩
  · cases p <;> first | exact h.frame.2 _ hp | exact absurd (hm.symm.trans hp) (by decide)
  · cases p <;> exact h.inv _ hp

/-- An update of `bw`. -/
theorem Only.with_bw {ps : List Part} {s t : State} {v : Regulator} (h : Only ps s t) (hm : ps.contains .bw = true) :
    Only ps s (t.withBw v) := by
  refine ⟨⟨h.frame.1, fun p hp => ?_⟩, fun p hp => ?_⟩
  · cases p <;> first | exact h.frame.2 _ hp | exact absurd (hm.symm.trans hp) (by decide)
  · cases p <;> exact h.inv _ hp

/-- An update of `diag`. -/
theorem Only.with_diag {ps : List Part} {s t : State} {v : Diag} (h : Only ps s t) (hm : ps.contains .diag = true) :
    Only ps s (t.withDiag v) := by
  refine ⟨⟨h.frame.1, fun p hp => ?_⟩, fun p hp => ?_⟩
  · cases p <;> first | exact h.frame.2 _ hp | exact absurd (hm.symm.trans hp) (by decide)
  · cases p <;> exact h.inv _ hp

/-- An update of `colls`. -/
theorem Only.with_colls {ps : List Part} {s t : State} {v : Map Coll} (h : Only ps s t) (hm : ps.contains .colls = true) :
    Only ps s (t.withColls v) := by
  refine ⟨⟨h.frame.1, fun p hp => ?_⟩, fun p hp => ?_⟩
  · cases p <;> first | exact h.frame.2 _ hp | exact absurd (hm.symm.trans hp) (by decide)
  · cases p <;> exact h.inv _ hp

/-- An update of `stash`. -/
theorem Only.with_stash {ps : List Part} {s t : State} {v : List Buffered} (h : Only ps s t) (hm : ps.contains .stash = true) :
    Only ps s (t.withStash v) := by
  refine ⟨⟨h.frame.1, fun p hp => ?_⟩, fun p hp => ?_⟩
  · cases p <;> first | exact h.frame.2 _ hp | exact absurd (hm.symm.trans hp) (by decide)
  · cases p <;> exact h.inv _ hp

/-- An update of `sched`. -/
theorem Only.with_sched {ps : List Part} {s t : State} {v : Sched} (h : Only ps s t) (hm : ps.contains .sched = true) :
    Only ps s (t.withSched v) := by
  refine ⟨⟨h.frame.1, fun p hp => ?_⟩, fun p hp => ?_⟩
  · cases p <;> first | exact h.frame.2 _ hp | exact absurd (hm.symm.trans hp) (by decide)
  · cases p <;> exact h.inv _ hp

/-- An update of `grid`. -/
theorem Only.with_grid {ps : List Part} {s t : State} {v : Grid} (h : Only ps s t) (hm : ps.contains .grid = true)
    (hi : (∀ e ∈ s.grid.tiles, Memory.wf 0 e.2.mem = true) → ((∀ e ∈ t.grid.tiles, Memory.wf 0 e.2.mem = true) → ∀ e ∈ v.tiles, Memory.wf 0 e.2.mem = true)) :
    Only ps s (t.withGrid v) := by
  refine ⟨⟨h.frame.1, fun p hp => ?_⟩, fun p hp => ?_⟩
  · cases p <;> first | exact h.frame.2 _ hp | exact absurd (hm.symm.trans hp) (by decide)
  · cases p <;> first | exact hi hp (h.inv _ hp) | exact h.inv _ hp

/-- An update of `fab`. -/
theorem Only.with_fab {ps : List Part} {s t : State} {v : Fabric} (h : Only ps s t) (hm : ps.contains .fab = true) :
    Only ps s (t.withFab v) := by
  refine ⟨⟨h.frame.1, fun p hp => ?_⟩, fun p hp => ?_⟩
  · cases p <;> first | exact h.frame.2 _ hp | exact absurd (hm.symm.trans hp) (by decide)
  · cases p <;> exact h.inv _ hp

/-- An update of `pay`. -/
theorem Only.with_pay {ps : List Part} {s t : State} {v : PayStore} (h : Only ps s t) (hm : ps.contains .pay = true) :
    Only ps s (t.withPay v) := by
  refine ⟨⟨h.frame.1, fun p hp => ?_⟩, fun p hp => ?_⟩
  · cases p <;> first | exact h.frame.2 _ hp | exact absurd (hm.symm.trans hp) (by decide)
  · cases p <;> exact h.inv _ hp

/-- An update of `ftf`. -/
theorem Only.with_ftf {ps : List Part} {s t : State} {v : Ftf} (h : Only ps s t) (hm : ps.contains .ftf = true) :
    Only ps s (t.withFtf v) := by
  refine ⟨⟨h.frame.1, fun p hp => ?_⟩, fun p hp => ?_⟩
  · cases p <;> first | exact h.frame.2 _ hp | exact absurd (hm.symm.trans hp) (by decide)
  · cases p <;> exact h.inv _ hp

/-- An update of `gov`. -/
theorem Only.with_gov {ps : List Part} {s t : State} {v : Gov} (h : Only ps s t) (hm : ps.contains .gov = true)
    (hi : s.governorLegal → (t.governorLegal → v.throttle ≤ 7 ∧ v.cclk ≤ 4 ∧ v.mclk ≤ 2 ∧ v.mclkTo.all (· ≤ 2) = true)) :
    Only ps s (t.withGov v) := by
  refine ⟨⟨h.frame.1, fun p hp => ?_⟩, fun p hp => ?_⟩
  · cases p <;> first | exact h.frame.2 _ hp | exact absurd (hm.symm.trans hp) (by decide)
  · cases p <;> first | exact hi hp (h.inv _ hp) | exact h.inv _ hp

/-- An intermediate state may be replaced by a name that is known to be reached. -/
theorem Only.gen {ps : List Part} {s x : State} {q : Prop} (h : Only ps s x) (k : Only ps s x → q) : q := k h

/-- A fold of such operations is one. -/
theorem Only.foldl {α : Type} {ps : List Part} {s t : State} {f : State → α → State} {l : List α}
    (k : ∀ u x, Only ps s u → Only ps s (f u x)) (h : Only ps s t) : Only ps s (l.foldl f t) := by
  induction l generalizing t with
  | nil => exact h
  | cons a l ih => exact ih (k t a h)

/-- A fold of such operations beside other data is one. -/
theorem Only.foldlFst {α β : Type} {ps : List Part} {s : State} {p : State × β} {f : State × β → α → State × β} {l : List α}
    (k : ∀ u x, Only ps s u.1 → Only ps s (f u x).1) (h : Only ps s p.1) : Only ps s (l.foldl f p).1 := by
  induction l generalizing p with
  | nil => exact h
  | cons a l ih => exact ih (k p a h)

/-- A fold of a build's operations is one. -/
theorem Only.foldlBld {α : Type} {ps : List Part} {s : State} {b : Build} {f : Build → α → Build} {l : List α}
    (k : ∀ u x, Only ps s u.st → Only ps s (f u x).st) (h : Only ps s b.st) : Only ps s (l.foldl f b).st := by
  induction l generalizing b with
  | nil => exact h
  | cons a l ih => exact ih (k b a h)

/-- Either of two such operations is one. -/
theorem Only.ite {ps : List Part} {s t u : State} {c : Prop} {dec : Decidable c} (h : c → Only ps s t) (k : ¬c → Only ps s u) :
    Only ps s (@ite State c dec t u) := by
  split
  · exact h ‹_›
  · exact k ‹_›

/-! ## Operations that answer more than a state -/

/-- Every state that an answer holds, read by `g`, is reached by changing only the parts listed. -/
structure Via {ρ : Type} (g : ρ → Option State) (ps : List Part) (s : State) (r : ρ) : Prop where
  only : ∀ t, g r = some t → Only ps s t

theorem Via.of {ρ : Type} {g : ρ → Option State} {ps : List Part} {s t : State} {r : ρ} (k : g r = some t) (h : Only ps s t) :
    Via g ps s r := ⟨fun u hu => by
  cases hu.symm.trans k
  exact h⟩

theorem Via.nil {ρ : Type} {g : ρ → Option State} {ps : List Part} {s : State} {r : ρ} (k : g r = none) : Via g ps s r :=
  ⟨fun u hu => by cases hu.symm.trans k⟩

theorem Via.step {ρ : Type} {g : ρ → Option State} {ps qs : List Part} {s t : State} {r : ρ} (k : Via g qs t r)
    (hq : qs.all ps.contains = true) (h : Only ps s t) : Via g ps s r := ⟨fun u hu => (k.only u hu).step hq h⟩

theorem Via.get {ρ : Type} {g : ρ → Option State} {ps : List Part} {s t : State} {r : ρ} (k : Via g ps s r) (e : g r = some t) :
    Only ps s t := k.only t e

theorem Via.elim {ρ : Type} {g : ρ → Option State} {ps : List Part} {s t : State} {r r' : ρ} (k : Via g ps s r) (e : r = r')
    (w : g r' = some t) : Only ps s t := k.only t (e ▸ w)

theorem Via.ite {ρ : Type} {g : ρ → Option State} {ps : List Part} {s : State} {r r' : ρ} {c : Prop} {dec : Decidable c}
    (h : c → Via g ps s r) (k : ¬c → Via g ps s r') : Via g ps s (@ite ρ c dec r r') := by
  split
  · exact h ‹_›
  · exact k ‹_›

theorem Via.map {β ρ : Type} {g : Option ρ → Option State} {ps : List Part} {s : State} {o : Option β} {f : β → ρ} (e : g Option.none = Option.none)
    (k : ∀ b, o = Option.some b → Via g ps s (Option.some (f b))) : Via g ps s (o.map f) := by
  cases o with
  | none => exact Via.nil e
  | some b => exact k b rfl

/-- The state of a pair's first place. -/
@[reducible] def inFst {α : Type} (r : State × α) : Option State := some r.1
/-- The state of a pair's second place. -/
@[reducible] def inSnd {α : Type} (r : α × State) : Option State := some r.2
/-- The state, if there is one. -/
@[reducible] def inOpt (r : Option State) : Option State := r
theorem Only.getD {ps : List Part} {s t : State} {o : Option State} (k : Via inOpt ps s o) (h : Only ps s t) : Only ps s (o.getD t) := by
  cases o with
  | none => exact h
  | some u => exact k.only u rfl

theorem Via.bind {ρ : Type} {g : Option ρ → Option State} {ps : List Part} {s : State} {o : Option State} {f : State → Option ρ}
    (e : g none = none) (h : Via inOpt ps s o) (k : ∀ t, Only ps s t → Via g ps s (f t)) : Via g ps s (o.bind f) := by
  cases o with
  | none => exact Via.nil e
  | some t => exact k t (h.only t rfl)

theorem Via.foldl {α : Type} {ps : List Part} {s : State} {o : Option State} {f : Option State → α → Option State} {l : List α}
    (k : ∀ u x, Via inOpt ps s u → Via inOpt ps s (f u x)) (h : Via inOpt ps s o) : Via inOpt ps s (l.foldl f o) := by
  induction l generalizing o with
  | nil => exact h
  | cons a l ih => exact ih (k o a h)

@[reducible] def inOptFst {α : Type} (r : Option (State × α)) : Option State :=
  match r with
  | some p => some p.1
  | none => none
@[reducible] def inOptSnd {α : Type} (r : Option (α × State)) : Option State :=
  match r with
  | some p => some p.2
  | none => none
@[reducible] def inOptLast {α β γ : Type} (r : Option (α × β × γ × State)) : Option State :=
  match r with
  | some p => some p.2.2.2
  | none => none
@[reducible] def inExc (r : Except Nat State) : Option State :=
  match r with
  | .ok t => some t
  | .error _ => none
@[reducible] def inExcSnd {α : Type} (r : Except Nat (α × State)) : Option State :=
  match r with
  | .ok p => some p.2
  | .error _ => none
/-- The next state of an outcome. -/
@[reducible] def inOut (r : Host.Outcome State Fault Refusal) : Option State :=
  match r with
  | .next t => some t
  | _ => none
@[reducible] def inRead (r : ReadOutcome) : Option State :=
  match r with
  | .bytes _ t => some t
  | .damaged t => some t
  | .wait t => some t
@[reducible] def inExt (r : ExtOut) : Option State :=
  match r with
  | .ok t => some t
  | _ => none
@[reducible] def inBld (r : Build) : Option State := some r.st
@[reducible] def inOptBld (r : Option Build) : Option State :=
  match r with
  | some b => some b.st
  | none => none
@[reducible] def inOptSndBld {α : Type} (r : Option (α × Build)) : Option State :=
  match r with
  | some p => some p.2.st
  | none => none
@[reducible] def inExcSndBld {α : Type} (r : Except Nat (α × Build)) : Option State :=
  match r with
  | .ok p => some p.2.st
  | .error _ => none

/-! What a match on an answer gives. -/

theorem Via.caseFst {α : Type} {ps : List Part} {s t : State} {a : α} {r : State × α} (k : Via inFst ps s r) (e : r = (t, a)) : Only ps s t :=
  k.elim e rfl
theorem Via.caseSnd {α : Type} {ps : List Part} {s t : State} {a : α} {r : α × State} (k : Via inSnd ps s r) (e : r = (a, t)) : Only ps s t :=
  k.elim e rfl
theorem Via.caseOpt {ps : List Part} {s t : State} {r : Option State} (k : Via inOpt ps s r) (e : r = some t) : Only ps s t :=
  k.elim e rfl
theorem Via.caseOptFst {α : Type} {ps : List Part} {s t : State} {a : α} {r : Option (State × α)} (k : Via inOptFst ps s r) (e : r = some (t, a)) : Only ps s t :=
  k.elim e rfl
theorem Via.caseOptSnd {α : Type} {ps : List Part} {s t : State} {a : α} {r : Option (α × State)} (k : Via inOptSnd ps s r) (e : r = some (a, t)) : Only ps s t :=
  k.elim e rfl
theorem Via.caseExc {ps : List Part} {s t : State} {r : Except Nat State} (k : Via inExc ps s r) (e : r = .ok t) : Only ps s t :=
  k.elim e rfl
theorem Via.caseExcSnd {α : Type} {ps : List Part} {s t : State} {a : α} {r : Except Nat (α × State)} (k : Via inExcSnd ps s r) (e : r = .ok (a, t)) : Only ps s t :=
  k.elim e rfl
theorem Via.caseExt {ps : List Part} {s t : State} {r : ExtOut} (k : Via inExt ps s r) (e : r = .ok t) : Only ps s t :=
  k.elim e rfl
theorem Via.caseOptBld {ps : List Part} {s : State} {b : Build} {r : Option Build} (k : Via inOptBld ps s r) (e : r = some b) : Only ps s b.st :=
  k.elim e rfl
theorem Via.caseOptSndBld {α : Type} {ps : List Part} {s : State} {b : Build} {a : α} {r : Option (α × Build)} (k : Via inOptSndBld ps s r) (e : r = some (a, b)) : Only ps s b.st :=
  k.elim e rfl
theorem Via.caseExcSndBld {α : Type} {ps : List Part} {s : State} {b : Build} {a : α} {r : Except Nat (α × Build)} (k : Via inExcSndBld ps s r) (e : r = .ok (a, b)) : Only ps s b.st :=
  k.elim e rfl
theorem Via.caseOptLast {α β γ : Type} {ps : List Part} {s t : State} {a : α} {b : β} {c : γ} {r : Option (α × β × γ × State)}
    (k : Via inOptLast ps s r) (e : r = some (a, b, c, t)) : Only ps s t := k.elim e rfl
theorem Via.caseBytes {ps : List Part} {s t : State} {bs : List Byte} {r : ReadOutcome} (k : Via inRead ps s r) (e : r = .bytes bs t) :
    Only ps s t := k.elim e rfl
theorem Via.caseDamaged {ps : List Part} {s t : State} {r : ReadOutcome} (k : Via inRead ps s r) (e : r = .damaged t) : Only ps s t :=
  k.elim e rfl
theorem Via.caseWait {ps : List Part} {s t : State} {r : ReadOutcome} (k : Via inRead ps s r) (e : r = .wait t) : Only ps s t :=
  k.elim e rfl

/-! ## Tiles: an update of one tile keeps every data SRAM in the canonical form -/

theorem Map.get?_mem {α : Type} {m : Map α} {i : Nat} {v : α} (h : Map.get? m i = some v) : (i, v) ∈ m := by
  induction m with
  | nil => simp [Map.get?] at h
  | cons e m ih =>
    obtain ⟨k, w⟩ := e
    unfold Map.get? at h
    split at h
    · rename_i hk
      cases h
      subst hk
      exact List.mem_cons_self
    · exact List.mem_cons_of_mem _ (ih h)

theorem Map.mem_put {α : Type} {m : Map α} {i : Nat} {v : α} {e : Nat × α} (h : e ∈ Map.put m i v) : e = (i, v) ∨ e ∈ m := by
  induction m with
  | nil => exact Or.inl (by simpa [Map.put] using h)
  | cons c m ih =>
    obtain ⟨k, w⟩ := c
    unfold Map.put at h
    split at h
    · exact (List.mem_cons.mp h).imp id id
    · split at h
      · exact (List.mem_cons.mp h).imp id fun h => List.mem_cons_of_mem _ h
      · rcases List.mem_cons.mp h with rfl | h
        · exact Or.inr List.mem_cons_self
        · exact (ih h).imp id fun h => List.mem_cons_of_mem _ h

/-- An entry appended to the log takes one of its 1,024 places. -/
theorem EventLog.append_bound {l : EventLog} {b : List Byte} (h : ∀ e ∈ l.ring, e.1 < 1024) : ∀ e ∈ (l.append b).ring, e.1 < 1024 := by
  intro e he
  rcases Map.mem_put he with rfl | he
  · exact Nat.mod_lt _ (by decide)
  · exact h e he

/-- A tile's data SRAM is canonical where every listed tile's is. -/
theorem tile_wf {s : State} (h : ∀ e ∈ s.grid.tiles, Memory.wf 0 e.2.mem = true) (t : Nat) : Memory.wf 0 (s.tile t).mem = true := by
  unfold State.tile Map.getD
  cases hg : Map.get? s.grid.tiles t with
  | none => rfl
  | some v => exact h (t, v) (Map.get?_mem hg)

/-- An update of one tile. -/
theorem Only.setTile {ps : List Part} {s t : State} {n : Nat} {v : Tile} (h : Only ps s t) (hm : ps.contains .grid = true)
    (hv : (∀ e ∈ s.grid.tiles, Memory.wf 0 e.2.mem = true) → (∀ e ∈ t.grid.tiles, Memory.wf 0 e.2.mem = true) → Memory.wf 0 v.mem = true) :
    Only ps s (t.setTile n v) :=
  Only.with_grid h hm fun hs ht e he => by
    rcases Map.mem_put he with rfl | he
    · exact hv hs ht
    · exact ht e he

end Sys2Proof.Machine
end

