-- ==== Sys2Proof/Laws/Kept.lean ====
section
/-! SUPPORT. What an operation leaves alone, part by part: a part outside its list is the same. -/

namespace Sys2Proof.Machine

theorem Only.draws {ps : List Part} {s t : State} (h : Only ps s t) (hp : ps.contains .draws = false := by rfl) : t.draws = s.draws := h.frame.2 .draws hp
theorem Only.clk {ps : List Part} {s t : State} (h : Only ps s t) (hp : ps.contains .clk = false := by rfl) : t.clk = s.clk := h.frame.2 .clk hp
theorem Only.boot {ps : List Part} {s t : State} (h : Only ps s t) (hp : ps.contains .boot = false := by rfl) : t.boot = s.boot := h.frame.2 .boot hp
theorem Only.log {ps : List Part} {s t : State} (h : Only ps s t) (hp : ps.contains .log = false := by rfl) : t.log = s.log := h.frame.2 .log hp
theorem Only.out {ps : List Part} {s t : State} (h : Only ps s t) (hp : ps.contains .out = false := by rfl) : t.out = s.out := h.frame.2 .out hp
theorem Only.dict {ps : List Part} {s t : State} (h : Only ps s t) (hp : ps.contains .dict = false := by rfl) : t.dict = s.dict := h.frame.2 .dict hp
theorem Only.flash {ps : List Part} {s t : State} (h : Only ps s t) (hp : ps.contains .flash = false := by rfl) : t.flash = s.flash := h.frame.2 .flash hp
theorem Only.vdp {ps : List Part} {s t : State} (h : Only ps s t) (hp : ps.contains .vdp = false := by rfl) : t.vdp = s.vdp := h.frame.2 .vdp hp
theorem Only.can {ps : List Part} {s t : State} (h : Only ps s t) (hp : ps.contains .can = false := by rfl) : t.can = s.can := h.frame.2 .can hp
theorem Only.ssp {ps : List Part} {s t : State} (h : Only ps s t) (hp : ps.contains .ssp = false := by rfl) : t.ssp = s.ssp := h.frame.2 .ssp hp
theorem Only.host {ps : List Part} {s t : State} (h : Only ps s t) (hp : ps.contains .host = false := by rfl) : t.host = s.host := h.frame.2 .host hp
theorem Only.cred {ps : List Part} {s t : State} (h : Only ps s t) (hp : ps.contains .cred = false := by rfl) : t.cred = s.cred := h.frame.2 .cred hp
theorem Only.mem {ps : List Part} {s t : State} (h : Only ps s t) (hp : ps.contains .mem = false := by rfl) : t.mem = s.mem := h.frame.2 .mem hp
theorem Only.seg {ps : List Part} {s t : State} (h : Only ps s t) (hp : ps.contains .seg = false := by rfl) : t.seg = s.seg := h.frame.2 .seg hp
theorem Only.bw {ps : List Part} {s t : State} (h : Only ps s t) (hp : ps.contains .bw = false := by rfl) : t.bw = s.bw := h.frame.2 .bw hp
theorem Only.diag {ps : List Part} {s t : State} (h : Only ps s t) (hp : ps.contains .diag = false := by rfl) : t.diag = s.diag := h.frame.2 .diag hp
theorem Only.colls {ps : List Part} {s t : State} (h : Only ps s t) (hp : ps.contains .colls = false := by rfl) : t.colls = s.colls := h.frame.2 .colls hp
theorem Only.stash {ps : List Part} {s t : State} (h : Only ps s t) (hp : ps.contains .stash = false := by rfl) : t.stash = s.stash := h.frame.2 .stash hp
theorem Only.sched {ps : List Part} {s t : State} (h : Only ps s t) (hp : ps.contains .sched = false := by rfl) : t.sched = s.sched := h.frame.2 .sched hp
theorem Only.grid {ps : List Part} {s t : State} (h : Only ps s t) (hp : ps.contains .grid = false := by rfl) : t.grid = s.grid := h.frame.2 .grid hp
theorem Only.fab {ps : List Part} {s t : State} (h : Only ps s t) (hp : ps.contains .fab = false := by rfl) : t.fab = s.fab := h.frame.2 .fab hp
theorem Only.pay {ps : List Part} {s t : State} (h : Only ps s t) (hp : ps.contains .pay = false := by rfl) : t.pay = s.pay := h.frame.2 .pay hp
theorem Only.ftf {ps : List Part} {s t : State} (h : Only ps s t) (hp : ps.contains .ftf = false := by rfl) : t.ftf = s.ftf := h.frame.2 .ftf hp
theorem Only.gov {ps : List Part} {s t : State} (h : Only ps s t) (hp : ps.contains .gov = false := by rfl) : t.gov = s.gov := h.frame.2 .gov hp

/-- What an operation leaves alone of the state, a fold of it leaves alone too. -/
theorem foldl_kept {α β γ : Type} {f : β → α → β} {g : β → γ} (h : ∀ u a, g (f u a) = g u) : ∀ (l : List α) (u : β), g (l.foldl f u) = g u
  | [], _ => rfl
  | a :: l, u => (foldl_kept h l (f u a)).trans (h u a)

/-- A fold of an operation that changes nothing changes nothing. -/
theorem foldl_same {α β : Type} {f : β → α → β} {u : β} : ∀ {l : List α}, (∀ a ∈ l, f u a = u) → l.foldl f u = u
  | [], _ => rfl
  | a :: l, h => by
    rw [List.foldl_cons, h a List.mem_cons_self]
    exact foldl_same fun b hb => h b (List.mem_cons_of_mem _ hb)

end Sys2Proof.Machine
end

