-- ==== Sys2Proof/Laws/Maps.lean ====
section
/-! SUPPORT. Reading a finite map, and every part of the state that is one, after an entry has been written. -/

namespace Sys2Proof.Machine

/-- The entry written reads as written, every other one as before. -/
theorem Map.get?_put {α : Type} {m : Map α} {i j : Nat} {v : α} :
    Map.get? (Map.put m i v) j = if i = j then some v else Map.get? m j := by
  induction m with
  | nil => simp only [Map.put, Map.get?]
  | cons e m ih =>
    obtain ⟨k, w⟩ := e
    unfold Map.put
    split
    · simp only [Map.get?]
    · split
      · rename_i h
        subst h
        simp only [Map.get?]
        split <;> rfl
      · rename_i h
        simp only [Map.get?, ih]
        split
        · rename_i hk
          subst hk
          rw [if_neg (Ne.symm h)]
        · rfl

@[simp] theorem Map.get?_put_same {α : Type} {m : Map α} {i : Nat} {v : α} : Map.get? (Map.put m i v) i = some v := by
  rw [Map.get?_put, if_pos rfl]

theorem Map.get?_put_other {α : Type} {m : Map α} {i j : Nat} {v : α} (h : i ≠ j) : Map.get? (Map.put m i v) j = Map.get? m j := by
  rw [Map.get?_put, if_neg h]

@[simp] theorem Map.getD_put_same {α : Type} {m : Map α} {i : Nat} {v d : α} : Map.getD (Map.put m i v) i d = v := by
  simp only [Map.getD, Map.get?_put_same, Option.getD_some]

theorem Map.getD_put_other {α : Type} {m : Map α} {i j : Nat} {v d : α} (h : i ≠ j) : Map.getD (Map.put m i v) j d = Map.getD m j d := by
  simp only [Map.getD, Map.get?_put_other h]

/-- A removed key holds nothing, every other key what it held. -/
theorem Map.get?_del {α : Type} {m : Map α} {i j : Nat} : Map.get? (Map.del m i) j = if i = j then none else Map.get? m j := by
  induction m with
  | nil => simp only [Map.del, List.filter_nil, Map.get?, ite_self]
  | cons e m ih =>
    obtain ⟨k, w⟩ := e
    unfold Map.del at ih ⊢
    by_cases h : k = i
    · subst h
      simp only [List.filter_cons, bne_self_eq_false, Bool.false_eq_true, if_false, ih, Map.get?]
      split <;> rfl
    · have hb : (k != i) = true := bne_iff_ne.mpr h
      simp only [List.filter_cons, hb, if_true, Map.get?, ih]
      split
      · rename_i hk
        subst hk
        rw [if_neg (Ne.symm h)]
      · rfl

@[simp] theorem Map.get?_del_same {α : Type} {m : Map α} {i : Nat} : Map.get? (Map.del m i) i = none := by
  rw [Map.get?_del, if_pos rfl]

/-! ## Each map of the state -/

@[simp] theorem State.slot_setSlot {s : State} {b q : Nat} {v : QSlot} : (s.setSlot b q v).slot b q = v := Map.getD_put_same
@[simp] theorem State.burrow_setBurrow {s : State} {b : Nat} {v : Burrow} : (s.setBurrow b v).burrow b = v := Map.getD_put_same
@[simp] theorem State.slot_setBurrow {s : State} {b b' q : Nat} {v : Burrow} : (s.setBurrow b v).slot b' q = s.slot b' q := rfl
@[simp] theorem State.burrow_setSlot {s : State} {b b' q : Nat} {v : QSlot} : (s.setSlot b q v).burrow b' = s.burrow b' := rfl
@[simp] theorem State.ctx_setCtx {s : State} {x : Nat} {c : Ctx} : (s.setCtx x c).ctx? x = some c := Map.get?_put_same
@[simp] theorem State.coll_setColl {s : State} {g : Nat} {c : Coll} : (s.setColl g c).coll? g = some c := Map.get?_put_same
@[simp] theorem State.live_setLive {s : State} {k : Nat} {v : Live} : (s.setLive k v).live? k = some v := Map.get?_put_same
@[simp] theorem State.tile_setTile {s : State} {t : Nat} {v : Tile} : (s.setTile t v).tile t = v := Map.getD_put_same
@[simp] theorem State.kernel_setKernel {s : State} {k : Nat} {v : Kernel} : (s.setKernel k v).kernel k = v := Map.getD_put_same
@[simp] theorem State.seg_setSeg {s : State} {n : Nat} {v : Seg} : (s.setSeg n v).seg_ n = v := Map.getD_put_same
@[simp] theorem State.port_setPort {s : State} {p : Nat} {v : Port} : (s.setPort p v).port p = v := Map.getD_put_same
@[simp] theorem State.generator_setGenerator {s : State} {n : Nat} {v : Generator} : (s.setGenerator n v).generator n = v := Map.getD_put_same

@[simp] theorem State.channel_setChannel {s : State} {c : Nat} {v : Channel} : (s.setChannel c v).channel c = v := by
  unfold State.setChannel State.channel
  split <;> rfl

@[simp] theorem State.rtdInput_setRtd {s : State} {r : Nat} {v : Rtd} : (s.setRtd r v).rtdInput r = v := by
  unfold State.setRtd State.rtdInput
  split <;> rfl

/-! ## Credits: what a reservation and a return do to their pool, and to no other -/

/-- A reservation adds to issued and outstanding of its pool. -/
theorem State.pool_reserve {s : State} {code number n : Nat} :
    (s.reserve code number n).pool code number
      = { s.pool code number with issued := (s.pool code number).issued + n, outstanding := (s.pool code number).outstanding + n } :=
  Map.getD_put_same

/-- A return adds to returned and takes from outstanding. -/
theorem State.pool_giveBack {s : State} {code number n : Nat} :
    (s.giveBack code number n).pool code number
      = { s.pool code number with returned := (s.pool code number).returned + n, outstanding := (s.pool code number).outstanding - n } :=
  Map.getD_put_same

end Sys2Proof.Machine
end

