-- ==== Sys2Proof/Laws/Only/Ops.lean ====
section
/-! SUPPORT. What each operation of Machine/Ops.lean may change. -/

namespace Sys2Proof.Machine

theorem State.setBurrow_only {s : State} {b : Nat} {v : Burrow} :
    Only [.host] s (State.setBurrow s b v) := by
  unfold State.setBurrow
  try dsimp -zeta -proj only [State.set_host]
  repeat' first
    | with_reducible exact Only.refl _ _
    | (lift_lets -underBinder; intro x)
    | with_reducible refine Only.with_host ?_ rfl

theorem State.emit_only {s : State} {o : Out} :
    Only [.out] s (State.emit s o) := by
  unfold State.emit
  try dsimp -zeta -proj only [State.set_out]
  repeat' first
    | with_reducible exact Only.refl _ _
    | with_reducible refine Only.with_out ?_ rfl

theorem State.raise_only {s : State} {fn vec : Nat} :
    Only [.out, .host] s (State.raise s fn vec) := by
  unfold State.raise
  try dsimp -zeta -proj only [State.set_host]
  repeat' first
    | with_reducible exact Only.refl _ _
    | (lift_lets -underBinder; intro x)
    | (intro x)
    | with_reducible refine Only.ite (fun _ => ?_) (fun _ => ?_)
    | ((with_reducible apply Only.step State.emit_only); rfl)
    | with_reducible refine Only.with_host ?_ rfl

theorem State.canSend_only {s : State} {function sequence : Nat} {data : List Sys2Proof.Byte} :
    Only [.out] s (State.canSend s function sequence data) := by
  unfold State.canSend
  repeat' first
    | with_reducible exact Only.refl _ _
    | ((with_reducible apply Only.step State.emit_only); rfl)
    | split

theorem State.logFrom_only {s : State} {source code : Nat} {params : List Sys2Proof.Byte} :
    Only [.log, .out, .can, .host] s (State.logFrom s source code params) := by
  unfold State.logFrom
  try dsimp -zeta -proj only [State.set_log , State.set_can]
  repeat' first
    | exact fun _ h => EventLog.append_bound h
    | with_reducible assumption
    | with_reducible exact Only.refl _ _
    | (lift_lets -underBinder; intro x; refine Only.gen (ps := [.log, .out, .can, .host]) (s := s) (x := x) ?_ (fun hx => ?_); unfold x; rotate_left; clear_value x)
    | (lift_lets -underBinder; intro x; refine Only.gen (ps := [.log, .out, .can, .host]) (s := s) (x := x) ?_ (fun hx => ?_); unfold x; rotate_left)
    | (lift_lets -underBinder; intro x)
    | (intro x; refine Only.gen (ps := [.log, .out, .can, .host]) (s := s) (x := x) ?_ (fun hx => ?_); unfold x; rotate_left)
    | (intro x)
    | with_reducible refine Only.ite (fun _ => ?_) (fun _ => ?_)
    | ((with_reducible apply Only.step State.raise_only); rfl)
    | ((with_reducible apply Only.step State.canSend_only); rfl)
    | with_reducible refine Only.with_log ?_ rfl ?_
    | with_reducible refine Only.with_can ?_ rfl
    | refine Only.ite (fun _ => ?_) (fun _ => ?_)

theorem State.logEvent_only {s : State} {code : Nat} {params : optParam (List Sys2Proof.Byte) []} :
    Only [.log, .out, .can, .host] s (State.logEvent s code params) := by
  unfold State.logEvent
  repeat' first
    | with_reducible exact Only.refl _ _
    | ((with_reducible apply Only.step State.logFrom_only); rfl)

theorem State.giveBack_only {s : State} {code number n : Nat} :
    Only [.cred] s (State.giveBack s code number n) := by
  unfold State.giveBack
  try dsimp -zeta -proj only [State.set_cred]
  repeat' first
    | with_reducible exact Only.refl _ _
    | (lift_lets -underBinder; intro x)
    | (intro x)
    | with_reducible refine Only.with_cred ?_ rfl

theorem State.draw_only {s : State} :
    Via inSnd [.draws] s (State.draw s) := by
  unfold State.draw
  try dsimp -zeta -proj only [State.set_draws]
  repeat' first
    | with_reducible exact Only.refl _ _
    | with_reducible refine Only.with_draws ?_ rfl
    | with_reducible refine Via.of rfl ?_

theorem State.reserve_only {s : State} {code number n : Nat} :
    Only [.cred] s (State.reserve s code number n) := by
  unfold State.reserve
  try dsimp -zeta -proj only [State.set_cred]
  repeat' first
    | with_reducible exact Only.refl _ _
    | (lift_lets -underBinder; intro x)
    | (intro x)
    | with_reducible refine Only.with_cred ?_ rfl

theorem State.logPort_only {s : State} {p code : Nat} {params : optParam (List Sys2Proof.Byte) []} :
    Only [.log, .out, .can, .host] s (State.logPort s p code params) := by
  unfold State.logPort
  repeat' first
    | with_reducible exact Only.refl _ _
    | ((with_reducible apply Only.step State.logFrom_only); rfl)

theorem State.writeFrame_only {s : State} {f off : Nat} {bs : List Sys2Proof.Byte} :
    Only [.mem] s (State.writeFrame s f off bs) := by
  unfold State.writeFrame
  try dsimp -zeta -proj only [State.set_mem]
  repeat' first
    | exact fun _ h => Memory.wf_writeN h
    | with_reducible exact Only.refl _ _
    | with_reducible refine Only.with_mem ?_ rfl ?_

theorem State.logBurrow_only {s : State} {b code : Nat} {params : optParam (List Sys2Proof.Byte) []} :
    Only [.log, .out, .can, .host] s (State.logBurrow s b code params) := by
  unfold State.logBurrow
  repeat' first
    | with_reducible exact Only.refl _ _
    | ((with_reducible apply Only.step State.logFrom_only); rfl)

theorem State.setSlot_only {s : State} {b q : Nat} {v : QSlot} :
    Only [.host] s (State.setSlot s b q v) := by
  unfold State.setSlot
  try dsimp -zeta -proj only [State.set_host]
  repeat' first
    | with_reducible exact Only.refl _ _
    | (lift_lets -underBinder; intro x)
    | with_reducible refine Only.with_host ?_ rfl

theorem State.signal_only {s : State} {b q : Nat} :
    Only [.out, .host] s (State.signal s b q) := by
  unfold State.signal
  repeat' first
    | with_reducible exact Only.refl _ _
    | (lift_lets -underBinder; intro x)
    | with_reducible refine Only.ite (fun _ => ?_) (fun _ => ?_)
    | ((with_reducible apply Only.step State.setSlot_only); rfl)
    | ((with_reducible apply Only.step State.raise_only); rfl)

theorem State.complete_only {s : State} {c : Completion} :
    Only [.host] s (State.complete s c) := by
  unfold State.complete
  try dsimp -zeta -proj only [State.set_host]
  repeat' first
    | with_reducible exact Only.refl _ _
    | (lift_lets -underBinder; intro x)
    | with_reducible refine Only.with_host ?_ rfl

theorem State.flagBurrow_only {s : State} {b bit : Nat} :
    Only [.host] s (State.flagBurrow s b bit) := by
  unfold State.flagBurrow
  repeat' first
    | with_reducible exact Only.refl _ _
    | (lift_lets -underBinder; intro x)
    | ((with_reducible apply Only.step State.setBurrow_only); rfl)

theorem State.logStack_only {s : State} {st code : Nat} {params : optParam (List Sys2Proof.Byte) []} :
    Only [.log, .out, .can, .host] s (State.logStack s st code params) := by
  unfold State.logStack
  repeat' first
    | with_reducible exact Only.refl _ _
    | ((with_reducible apply Only.step State.logFrom_only); rfl)

theorem State.finish_only {s : State} {key : Nat} {c : Completion} :
    Only [.host] s (State.finish s key c) := by
  unfold State.finish
  try dsimp -zeta -proj only [State.set_host]
  repeat' first
    | with_reducible assumption
    | with_reducible exact Only.refl _ _
    | (lift_lets -underBinder; intro x)
    | (intro x; refine Only.gen (ps := [.host]) (s := s) (x := x) ?_ (fun hx => ?_); unfold x; rotate_left; clear_value x)
    | ((with_reducible apply Only.step State.complete_only); rfl)
    | with_reducible refine Only.with_host ?_ rfl

theorem idle_only {s : State} :
    Only [.clk] s (idle s) := by
  unfold idle
  try dsimp -zeta -proj only [State.set_clk]
  repeat' first
    | with_reducible exact Only.refl _ _
    | (lift_lets -underBinder; intro x)
    | with_reducible refine Only.with_clk ?_ rfl

end Sys2Proof.Machine
end

