-- ==== Sys2Proof/Laws/Only/Modes.lean ====
section
/-! SUPPORT. What each operation of Machine/Modes.lean may change. -/

namespace Sys2Proof.Machine

theorem State.clearCause_only {s : State} {cause : Nat} :
    Only [.dict] s (State.clearCause s cause) := by
  unfold State.clearCause
  try dsimp -zeta -proj only [State.set_dict]
  repeat' first
    | with_reducible exact Only.refl _ _
    | (lift_lets -underBinder; intro x)
    | with_reducible refine Only.ite (fun _ => ?_) (fun _ => ?_)
    | with_reducible refine Only.with_dict ?_ rfl

theorem State.forceSafe_only {s : State} {cause : Nat} :
    Only [.dict] s (State.forceSafe s cause) := by
  unfold State.forceSafe
  try dsimp -zeta -proj only [State.set_dict]
  repeat' first
    | with_reducible exact Only.refl _ _
    | (lift_lets -underBinder; intro x)
    | (intro x)
    | with_reducible refine Only.with_dict ?_ rfl

end Sys2Proof.Machine
end

