-- ==== Sys2Proof/Laws/Only/FrontEnd.lean ====
section
/-! SUPPORT. What each operation of Machine/FrontEnd.lean may change. -/

namespace Sys2Proof.Machine

theorem State.setChannel_only {s : State} {c : Nat} {v : Channel} :
    Only [.ftf] s (State.setChannel s c v) := by
  unfold State.setChannel
  try dsimp -zeta -proj only [State.set_ftf]
  repeat' first
    | with_reducible exact Only.refl _ _
    | (lift_lets -underBinder; intro x)
    | with_reducible refine Only.ite (fun _ => ?_) (fun _ => ?_)
    | with_reducible refine Only.with_ftf ?_ rfl

theorem State.channelEnable_only {s : State} {c : Nat} {on : Bool} :
    Only [.ftf] s (State.channelEnable s c on) := by
  unfold State.channelEnable
  try dsimp -zeta -proj only [State.set_ftf]
  repeat' first
    | with_reducible assumption
    | with_reducible exact Only.refl _ _
    | (lift_lets -underBinder; intro x)
    | (intro x; refine Only.gen (ps := [.ftf]) (s := s) (x := x) ?_ (fun hx => ?_); unfold x; rotate_left; clear_value x)
    | (intro x)
    | ((with_reducible apply Only.step State.setChannel_only); rfl)
    | with_reducible refine Only.with_ftf ?_ rfl
    | split

theorem State.clearLastGood_only {s : State} {c : Nat} :
    Only [.ftf] s (State.clearLastGood s c) := by
  unfold State.clearLastGood
  repeat' first
    | with_reducible exact Only.refl _ _
    | (lift_lets -underBinder; intro x)
    | ((with_reducible apply Only.step State.setChannel_only); rfl)

theorem State.setRtd_only {s : State} {r : Nat} {v : Rtd} :
    Only [.ftf] s (State.setRtd s r v) := by
  unfold State.setRtd
  try dsimp -zeta -proj only [State.set_ftf]
  repeat' first
    | with_reducible exact Only.refl _ _
    | (lift_lets -underBinder; intro x)
    | with_reducible refine Only.ite (fun _ => ?_) (fun _ => ?_)
    | with_reducible refine Only.with_ftf ?_ rfl

theorem State.startMeasurement_only {s : State} {m : Measurement} :
    Only [.ftf] s (State.startMeasurement s m) := by
  unfold State.startMeasurement
  try dsimp -zeta -proj only [State.set_ftf]
  repeat' first
    | with_reducible assumption
    | with_reducible exact Only.refl _ _
    | (lift_lets -underBinder; intro x)
    | (intro x; refine Only.gen (ps := [.ftf]) (s := s) (x := x) ?_ (fun hx => ?_); unfold x; rotate_left; clear_value x)
    | ((with_reducible apply Only.step State.setChannel_only); rfl)
    | ((with_reducible apply Only.step State.setRtd_only); rfl)
    | with_reducible refine Only.with_ftf ?_ rfl
    | split

theorem State.trigger_only {s : State} {m : Measurement} :
    Via inExc [.ftf] s (State.trigger s m) := by
  unfold State.trigger
  try dsimp -zeta -proj only [State.set_ftf]
  repeat' first
    | with_reducible exact Only.refl _ _
    | (lift_lets -underBinder; intro x)
    | (intro x)
    | with_reducible refine Via.ite (fun _ => ?_) (fun _ => ?_)
    | ((with_reducible apply Only.step State.startMeasurement_only); rfl)
    | with_reducible refine Only.with_ftf ?_ rfl
    | with_reducible refine Via.of rfl ?_
    | with_reducible exact Via.nil rfl

theorem State.triggerShot_only {s : State} {c : Nat} {up : Bool} :
    Via inExc [.ftf] s (State.triggerShot s c up) := by
  unfold State.triggerShot
  repeat' first
    | with_reducible exact Only.refl _ _
    | ((with_reducible apply Via.step State.trigger_only); rfl)

theorem State.zeroCalibrate_only {s : State} {c n : Nat} :
    Via inExc [.ftf] s (State.zeroCalibrate s c n) := by
  unfold State.zeroCalibrate
  repeat' first
    | with_reducible exact Only.refl _ _
    | (lift_lets -underBinder; intro x)
    | with_reducible refine Via.ite (fun _ => ?_) (fun _ => ?_)
    | ((with_reducible apply Only.step State.setChannel_only); rfl)
    | with_reducible refine Via.of rfl ?_
    | with_reducible exact Via.nil rfl

theorem State.calibrate_only {s : State} {c tUp tDown : Nat} :
    Only [.log, .out, .dict, .can, .host, .ftf] s (State.calibrate s c tUp tDown) := by
  unfold State.calibrate
  try dsimp -zeta -proj only [State.set_dict]
  repeat' first
    | with_reducible assumption
    | with_reducible exact Only.refl _ _
    | (lift_lets -underBinder; intro x)
    | (intro x; refine Only.gen (ps := [.log, .out, .dict, .can, .host, .ftf]) (s := s) (x := x) ?_ (fun hx => ?_); unfold x; rotate_left; clear_value x)
    | (intro x)
    | with_reducible refine Only.ite (fun _ => ?_) (fun _ => ?_)
    | ((with_reducible apply Only.step State.setChannel_only); rfl)
    | ((with_reducible apply Only.step State.logEvent_only); rfl)
    | with_reducible refine Only.with_dict ?_ rfl

theorem State.validReading_only {s : State} {c tUp tDown : Nat} :
    Only [.log, .out, .dict, .can, .host, .ftf] s (State.validReading s c tUp tDown) := by
  unfold State.validReading
  try dsimp -zeta -proj only [State.set_ftf]
  repeat' first
    | with_reducible assumption
    | with_reducible exact Only.refl _ _
    | (lift_lets -underBinder; intro x)
    | (intro x; refine Only.gen (ps := [.log, .out, .dict, .can, .host, .ftf]) (s := s) (x := x) ?_ (fun hx => ?_); unfold x; rotate_left; clear_value x)
    | (intro x)
    | with_reducible refine Only.ite (fun _ => ?_) (fun _ => ?_)
    | ((with_reducible apply Only.step State.calibrate_only); rfl)
    | ((with_reducible apply Only.step State.setChannel_only); rfl)
    | ((with_reducible apply Only.step State.clearCause_only); rfl)
    | ((with_reducible apply Only.step State.logEvent_only); rfl)
    | with_reducible refine Only.with_ftf ?_ rfl

theorem State.startNext_only {s : State} :
    Only [.ftf] s (State.startNext s) := by
  unfold State.startNext
  try dsimp -zeta -proj only [State.set_ftf]
  repeat' first
    | with_reducible exact Only.refl _ _
    | (lift_lets -underBinder; intro x)
    | ((with_reducible apply Only.step State.startMeasurement_only); rfl)
    | with_reducible refine Only.with_ftf ?_ rfl
    | split

theorem State.flowStale_only {s : State} {c : Nat} :
    Only [.log, .out, .can, .host, .ftf] s (State.flowStale s c) := by
  unfold State.flowStale
  repeat' first
    | with_reducible exact Only.refl _ _
    | (lift_lets -underBinder; intro x)
    | with_reducible refine Only.ite (fun _ => ?_) (fun _ => ?_)
    | ((with_reducible apply Only.step State.logEvent_only); rfl)
    | ((with_reducible apply Only.step State.setChannel_only); rfl)

theorem State.pairShot_only {s : State} {c : Nat} {up : Bool} {t : Nat} :
    Only [.log, .out, .dict, .can, .host, .ftf] s (State.pairShot s c up t) := by
  unfold State.pairShot
  repeat' first
    | with_reducible assumption
    | with_reducible exact Only.refl _ _
    | (lift_lets -underBinder; intro x; refine Only.gen (ps := [.log, .out, .dict, .can, .host, .ftf]) (s := s) (x := x) ?_ (fun hx => ?_); unfold x; rotate_left; clear_value x)
    | (lift_lets -underBinder; intro x)
    | (intro x)
    | with_reducible refine Only.ite (fun _ => ?_) (fun _ => ?_)
    | ((with_reducible apply Only.step State.setChannel_only); rfl)
    | ((with_reducible apply Only.step State.validReading_only); rfl)
    | (clear_value *; split)

theorem State.shotEnds_only {s : State} {c : Nat} {m : Option Sys2Proof.ShotMeasure} :
    Only [.log, .out, .dict, .can, .host, .ftf] s (State.shotEnds s c m) := by
  unfold State.shotEnds
  try dsimp -zeta -proj only [State.set_ftf]
  repeat' first
    | with_reducible assumption
    | with_reducible exact Only.refl _ _
    | (lift_lets -underBinder; intro x)
    | (intro x; refine Only.gen (ps := [.log, .out, .dict, .can, .host, .ftf]) (s := s) (x := x) ?_ (fun hx => ?_); unfold x; rotate_left; clear_value x)
    | (intro x)
    | with_reducible refine Only.ite (fun _ => ?_) (fun _ => ?_)
    | ((with_reducible apply Only.step State.setChannel_only); rfl)
    | ((with_reducible apply Only.step State.pairShot_only); rfl)
    | with_reducible refine Only.with_ftf ?_ rfl
    | split
    | (clear_value *; split)

theorem State.ringDownEnds_only {s : State} {c : Nat} :
    Only [.ftf] s (State.ringDownEnds s c) := by
  unfold State.ringDownEnds
  repeat' first
    | with_reducible exact Only.refl _ _
    | (lift_lets -underBinder; intro x)
    | (intro x)
    | with_reducible refine Only.ite (fun _ => ?_) (fun _ => ?_)
    | ((with_reducible apply Only.step State.setChannel_only); rfl)
    | split

theorem State.rtdEnds_only {s : State} {r : Nat} {t1 t t2 : Option Nat} :
    Only [.ftf] s (State.rtdEnds s r t1 t t2) := by
  unfold State.rtdEnds
  try dsimp -zeta -proj only [State.set_ftf]
  repeat' first
    | with_reducible assumption
    | with_reducible exact Only.refl _ _
    | (lift_lets -underBinder; intro x)
    | (intro x; refine Only.gen (ps := [.ftf]) (s := s) (x := x) ?_ (fun hx => ?_); unfold x; rotate_left; clear_value x)
    | (intro x)
    | with_reducible refine Only.ite (fun _ => ?_) (fun _ => ?_)
    | ((with_reducible apply Only.step State.setRtd_only); rfl)
    | with_reducible refine Only.with_ftf ?_ rfl
    | split

end Sys2Proof.Machine
end

