-- ==== Sys2Proof/Laws/Only/Governor.lean ====
section
/-! SUPPORT. What each operation of Machine/Governor.lean may change. -/

namespace Sys2Proof.Machine

theorem execVrCorrection_only {reading : Option Nat} {s : State} :
    Via inOut [.log, .out, .can, .host, .gov] s (execVrCorrection reading s) := by
  unfold execVrCorrection
  try dsimp -zeta -proj only [State.set_gov]
  repeat' first
    | exact fun _ h => h
    | exact fun h _ => h
    | with_reducible assumption
    | with_reducible exact Only.refl _ _
    | (lift_lets -underBinder; intro x)
    | (intro x; refine Only.gen (ps := [.log, .out, .can, .host, .gov]) (s := s) (x := x) ?_ (fun hx => ?_); unfold x; rotate_left; clear_value x)
    | (intro x)
    | ((with_reducible apply Only.step State.emit_only); rfl)
    | ((with_reducible apply Only.step State.logEvent_only); rfl)
    | with_reducible refine Only.with_gov ?_ rfl ?_
    | split
    | with_reducible refine Via.of rfl ?_

theorem execMclkStepDone_only {s : State} :
    Via inOut [.gov] s (execMclkStepDone s) := by
  unfold execMclkStepDone
  try dsimp -zeta -proj only [State.set_gov]
  repeat' first
    | exact fun _ h => ⟨h.1, h.2.1, by simpa [‹_ = some _›] using h.2.2.2, rfl⟩
    | with_reducible exact Only.refl _ _
    | (lift_lets -underBinder; intro x)
    | with_reducible refine Only.with_gov ?_ rfl ?_
    | split
    | with_reducible refine Via.of rfl ?_

theorem execGovernorSafe_only {s : State} :
    Via inOut [.log, .out, .dict, .can, .host] s (execGovernorSafe s) := by
  unfold execGovernorSafe
  repeat' first
    | with_reducible exact Only.refl _ _
    | ((with_reducible apply Only.step State.logEvent_only); rfl)
    | ((with_reducible apply Only.step State.forceSafe_only); rfl)
    | split
    | with_reducible refine Via.of rfl ?_

theorem execGovernorCauseClear_only {s : State} :
    Via inOut [.dict] s (execGovernorCauseClear s) := by
  unfold execGovernorCauseClear
  repeat' first
    | with_reducible exact Only.refl _ _
    | ((with_reducible apply Only.step State.clearCause_only); rfl)
    | split
    | with_reducible refine Via.of rfl ?_

theorem execGovernorSample_only {power : Nat} {s : State} :
    Via inOut [.log, .out, .can, .host, .gov] s (execGovernorSample power s) := by
  unfold execGovernorSample
  try dsimp -zeta -proj only [State.set_gov]
  repeat' first
    | exact fun _ h => Gov.sample_legal h _ _ _
    | with_reducible assumption
    | with_reducible exact Only.refl _ _
    | (lift_lets -underBinder; intro x)
    | (intro x; refine Only.gen (ps := [.log, .out, .can, .host, .gov]) (s := s) (x := x) ?_ (fun hx => ?_); unfold x; rotate_left; clear_value x)
    | (intro x)
    | ((with_reducible apply Only.step State.logEvent_only); rfl)
    | with_reducible refine Only.with_gov ?_ rfl ?_
    | split
    | with_reducible refine Via.of rfl ?_

end Sys2Proof.Machine
end

