-- ==== Sys2Proof/Laws/Only/Regulator.lean ====
section
/-! SUPPORT. What each operation of Machine/Regulator.lean may change. -/

namespace Sys2Proof.Machine

theorem State.rescale_only {s : State} :
    Only [.log, .out, .can, .host, .bw] s (State.rescale s) := by
  unfold State.rescale
  try dsimp -zeta -proj only [State.set_bw]
  repeat' first
    | with_reducible assumption
    | with_reducible exact Only.refl _ _
    | (lift_lets -underBinder; intro x)
    | (intro x; refine Only.gen (ps := [.log, .out, .can, .host, .bw]) (s := s) (x := x) ?_ (fun hx => ?_); unfold x; rotate_left; clear_value x)
    | (intro x)
    | with_reducible refine Only.foldl (fun _ _ _ => ?_) ?_
    | with_reducible refine Only.ite (fun _ => ?_) (fun _ => ?_)
    | ((with_reducible apply Only.step State.logEvent_only); rfl)
    | ((with_reducible apply Only.step State.flagBurrow_only); rfl)
    | with_reducible refine Only.with_bw ?_ rfl

theorem State.shed_only {s : State} {b : Nat} :
    Only [.bw] s (State.shed s b) := by
  unfold State.shed
  try dsimp -zeta -proj only [State.set_bw]
  repeat' first
    | with_reducible exact Only.refl _ _
    | (lift_lets -underBinder; intro x)
    | (intro x)
    | with_reducible refine Only.ite (fun _ => ?_) (fun _ => ?_)
    | with_reducible refine Only.with_bw ?_ rfl

theorem State.charge_only {s : State} {b n : Nat} :
    Via inOpt [.bw] s (State.charge s b n) := by
  unfold State.charge
  try dsimp -zeta -proj only [State.set_bw]
  repeat' first
    | with_reducible exact Only.refl _ _
    | (lift_lets -underBinder; intro x)
    | (intro x)
    | with_reducible refine Via.ite (fun _ => ?_) (fun _ => ?_)
    | with_reducible refine Only.with_bw ?_ rfl
    | with_reducible refine Via.of rfl ?_
    | with_reducible exact Via.nil rfl

theorem State.chargeUpTo_only {s : State} {b n : Nat} :
    Only [.bw] s (State.chargeUpTo s b n) := by
  unfold State.chargeUpTo
  repeat' first
    | with_reducible exact Only.refl _ _
    | (lift_lets -underBinder; intro x)
    | (intro x)
    | with_reducible refine Only.getD ?_ ?_
    | ((with_reducible apply Via.step State.charge_only); rfl)

theorem State.tokenAudit_only {s : State} :
    Only [.log, .out, .can, .host, .bw] s (State.tokenAudit s) := by
  unfold State.tokenAudit
  try dsimp -zeta -proj only [State.set_bw]
  repeat' first
    | with_reducible exact Only.refl _ _
    | (lift_lets -underBinder; intro x)
    | (intro x)
    | with_reducible refine Only.ite (fun _ => ?_) (fun _ => ?_)
    | ((with_reducible apply Only.step State.logEvent_only); rfl)
    | with_reducible refine Only.with_bw ?_ rfl

theorem State.refillOne_only {s : State} {b : Nat} :
    Only [.bw] s (State.refillOne s b) := by
  unfold State.refillOne
  try dsimp -zeta -proj only [State.set_bw]
  repeat' first
    | with_reducible exact Only.refl _ _
    | (lift_lets -underBinder; intro x)
    | (intro x)
    | with_reducible refine Only.with_bw ?_ rfl

theorem State.refill_only {s : State} :
    Only [.log, .out, .can, .host, .bw] s (State.refill s) := by
  unfold State.refill
  try dsimp -zeta -proj only [State.set_bw]
  repeat' first
    | with_reducible assumption
    | with_reducible exact Only.refl _ _
    | (lift_lets -underBinder; intro x; refine Only.gen (ps := [.log, .out, .can, .host, .bw]) (s := s) (x := x) ?_ (fun hx => ?_); unfold x; rotate_left; clear_value x)
    | (intro x; refine Only.gen (ps := [.log, .out, .can, .host, .bw]) (s := s) (x := x) ?_ (fun hx => ?_); unfold x; rotate_left; clear_value x)
    | (intro x)
    | with_reducible refine Only.foldl (fun _ _ _ => ?_) ?_
    | with_reducible refine Only.ite (fun _ => ?_) (fun _ => ?_)
    | ((with_reducible apply Only.step State.tokenAudit_only); rfl)
    | ((with_reducible apply Only.step State.rescale_only); rfl)
    | ((with_reducible apply Only.step State.refillOne_only); rfl)
    | with_reducible refine Only.with_bw ?_ rfl

theorem execTokenRefill_only {s : State} :
    Via inOut [.log, .out, .can, .host, .bw] s (execTokenRefill s) := by
  unfold execTokenRefill
  repeat' first
    | with_reducible exact Only.refl _ _
    | ((with_reducible apply Only.step State.refill_only); rfl)
    | with_reducible refine Via.of rfl ?_

theorem execTokenCharge_only {b : Fin 64} {n : Nat} {s : State} :
    Via inOut [.bw] s (execTokenCharge b n s) := by
  unfold execTokenCharge
  repeat' first
    | with_reducible exact Only.refl _ _
    | with_reducible refine Only.getD ?_ ?_
    | ((with_reducible apply Via.step State.charge_only); rfl)
    | with_reducible refine Via.of rfl ?_

end Sys2Proof.Machine
end

