-- ==== Sys2Proof/Laws/Only/Messages.lean ====
section
/-! SUPPORT. What each operation of Machine/Messages.lean may change. -/

namespace Sys2Proof.Machine

theorem State.post_only {s : State} {m : Message} :
    Only [.fab] s (State.post s m) := by
  unfold State.post
  try dsimp -zeta -proj only [State.set_fab]
  repeat' first
    | with_reducible exact Only.refl _ _
    | (lift_lets -underBinder; intro x)
    | with_reducible refine Only.ite (fun _ => ?_) (fun _ => ?_)
    | with_reducible refine Only.with_fab ?_ rfl

theorem State.startRequest_only {s : State} {m : Message} {r : Request} :
    Via inOpt [.cred, .fab] s (State.startRequest s m r) := by
  unfold State.startRequest
  try dsimp -zeta -proj only [State.set_fab]
  repeat' first
    | with_reducible assumption
    | with_reducible exact Only.refl _ _
    | (lift_lets -underBinder; intro x)
    | (intro x; refine Only.gen (ps := [.cred, .fab]) (s := s) (x := x) ?_ (fun hx => ?_); unfold x; rotate_left; clear_value x)
    | (intro x)
    | with_reducible refine Via.ite (fun _ => ?_) (fun _ => ?_)
    | ((with_reducible apply Only.step State.post_only); rfl)
    | ((with_reducible apply Only.step State.reserve_only); rfl)
    | with_reducible refine Only.with_fab ?_ rfl
    | with_reducible refine Via.of rfl ?_
    | with_reducible exact Via.nil rfl

theorem State.requestFor_only {s : State} {dest ty flags tag requester coll owner : Nat} {body : List Sys2Proof.Byte} :
    Only [.cred, .fab] s (State.requestFor s dest ty flags tag requester coll owner body) := by
  unfold State.requestFor
  try dsimp -zeta -proj only [State.set_fab]
  repeat' first
    | with_reducible exact Only.refl _ _
    | (lift_lets -underBinder; intro x)
    | (intro x)
    | with_reducible refine Only.step (Via.caseOpt State.startRequest_only (by assumption)) rfl ?_
    | with_reducible refine Only.with_fab ?_ rfl
    | split

theorem State.send_only {s : State} {dest ty flags tag requester coll : Nat} {body : List Sys2Proof.Byte} :
    Only [.fab] s (State.send s dest ty flags tag requester coll body) := by
  unfold State.send
  repeat' first
    | with_reducible exact Only.refl _ _
    | ((with_reducible apply Only.step State.post_only); rfl)

theorem State.unitsBack_only {s : State} {m : Message} :
    Only [.fab] s (State.unitsBack s m) := by
  unfold State.unitsBack
  try dsimp -zeta -proj only [State.set_fab]
  repeat' first
    | with_reducible exact Only.refl _ _
    | (lift_lets -underBinder; intro x)
    | (intro x)
    | with_reducible refine Only.with_fab ?_ rfl
    | split

theorem State.take_only {s : State} {i ty : Nat} :
    Via inOptSnd [.fab] s (State.take s i ty) := by
  unfold State.take
  try dsimp -zeta -proj only [State.set_fab]
  repeat' first
    | with_reducible exact Only.refl _ _
    | (lift_lets -underBinder; intro x)
    | with_reducible refine Via.ite (fun _ => ?_) (fun _ => ?_)
    | ((with_reducible apply Only.step State.unitsBack_only); rfl)
    | with_reducible refine Only.with_fab ?_ rfl
    | split
    | with_reducible refine Via.of rfl ?_
    | with_reducible exact Via.nil rfl

theorem State.lateResponse_only {s : State} :
    Only [.fab] s (State.lateResponse s) := by
  unfold State.lateResponse
  try dsimp -zeta -proj only [State.set_fab]
  repeat' first
    | with_reducible exact Only.refl _ _
    | (lift_lets -underBinder; intro x)
    | with_reducible refine Only.with_fab ?_ rfl

theorem State.startQueued_only {s : State} {a0 : List (Message × Request)} :
    Only [.cred, .fab] s (State.startQueued s a0) := by
  induction a0 generalizing s with
  | nil =>
    unfold State.startQueued
    try dsimp -zeta -proj only [State.set_fab]
    repeat' with_reducible exact Only.refl _ _
  | cons _ _ ih =>
    unfold State.startQueued
    try dsimp -zeta -proj only [State.set_fab]
    repeat' first
      | with_reducible assumption
      | with_reducible exact Only.refl _ _
      | ((with_reducible apply Only.step ih); rfl)
      | (lift_lets -underBinder; intro x; refine Only.gen (ps := [.cred, .fab]) (s := s) (x := x) ?_ (fun hx => ?_); unfold x; rotate_left; clear_value x)
      | (intro x)
      | with_reducible refine Only.step (Via.caseOpt State.startRequest_only (by assumption)) rfl ?_
      | with_reducible refine Only.with_fab ?_ rfl
      | split

theorem State.endRequest_only {s : State} {r : Request} :
    Only [.cred, .fab] s (State.endRequest s r) := by
  unfold State.endRequest
  try dsimp -zeta -proj only [State.set_fab]
  repeat' first
    | with_reducible assumption
    | with_reducible exact Only.refl _ _
    | (lift_lets -underBinder; intro x)
    | (intro x; refine Only.gen (ps := [.cred, .fab]) (s := s) (x := x) ?_ (fun hx => ?_); unfold x; rotate_left; clear_value x)
    | (intro x)
    | with_reducible refine Only.ite (fun _ => ?_) (fun _ => ?_)
    | ((with_reducible apply Only.step State.giveBack_only); rfl)
    | ((with_reducible apply Only.step State.startQueued_only); rfl)
    | with_reducible refine Only.with_fab ?_ rfl

theorem State.request_only {s : State} {dest ty flags tag coll owner : Nat} {body : List Sys2Proof.Byte} :
    Only [.cred, .fab] s (State.request s dest ty flags tag coll owner body) := by
  unfold State.request
  repeat' first
    | with_reducible exact Only.refl _ _
    | ((with_reducible apply Only.step State.requestFor_only); rfl)

theorem State.newTag_only {s : State} {slot : Nat} :
    Only [.sched] s (State.newTag s slot) := by
  unfold State.newTag
  try dsimp -zeta -proj only [State.set_sched]
  repeat' first
    | with_reducible exact Only.refl _ _
    | (lift_lets -underBinder; intro x)
    | with_reducible refine Only.with_sched ?_ rfl

end Sys2Proof.Machine
end

