-- ==== Sys2Proof/Laws/Only/Sched.lean ====
section
/-! SUPPORT. What each operation of Machine/Sched.lean may change. -/

namespace Sys2Proof.Machine

theorem State.setCtx_only {s : State} {a0 : Nat} {c : Ctx} :
    Only [.sched] s (State.setCtx s a0 c) := by
  unfold State.setCtx
  try dsimp -zeta -proj only [State.set_sched]
  repeat' first
    | with_reducible exact Only.refl _ _
    | (lift_lets -underBinder; intro x)
    | with_reducible refine Only.with_sched ?_ rfl

theorem State.modCtx_only {s : State} {a0 : Nat} {f : Ctx → Ctx} :
    Only [.sched] s (State.modCtx s a0 f) := by
  unfold State.modCtx
  repeat' first
    | with_reducible exact Only.refl _ _
    | ((with_reducible apply Only.step State.setCtx_only); rfl)
    | split

theorem State.setColl_only {s : State} {g : Nat} {c : Coll} :
    Only [.colls] s (State.setColl s g c) := by
  unfold State.setColl
  try dsimp -zeta -proj only [State.set_colls]
  repeat' first
    | with_reducible exact Only.refl _ _
    | with_reducible refine Only.with_colls ?_ rfl

theorem State.modColl_only {s : State} {g : Nat} {f : Coll → Coll} :
    Only [.colls] s (State.modColl s g f) := by
  unfold State.modColl
  repeat' first
    | with_reducible exact Only.refl _ _
    | ((with_reducible apply Only.step State.setColl_only); rfl)
    | split

theorem State.dropPosts_only {s : State} {a0 : Nat} :
    Only [.cred, .sched] s (State.dropPosts s a0) := by
  unfold State.dropPosts
  try dsimp -zeta -proj only [State.set_sched]
  repeat' first
    | with_reducible assumption
    | with_reducible exact Only.refl _ _
    | (lift_lets -underBinder; intro x)
    | (intro x; refine Only.gen (ps := [.cred, .sched]) (s := s) (x := x) ?_ (fun hx => ?_); unfold x; rotate_left; clear_value x)
    | (intro x)
    | with_reducible refine Only.foldl (fun _ _ _ => ?_) ?_
    | ((with_reducible apply Only.step State.giveBack_only); rfl)
    | with_reducible refine Only.with_sched ?_ rfl

theorem State.leaveStreams_only {s : State} {a0 : Nat} {p : Stream → Bool} :
    Only [.cred, .sched] s (State.leaveStreams s a0 p) := by
  unfold State.leaveStreams
  try dsimp -zeta -proj only [State.set_sched]
  repeat' first
    | with_reducible exact Only.refl _ _
    | (lift_lets -underBinder; intro x)
    | (intro x)
    | ((with_reducible apply Only.step State.giveBack_only); rfl)
    | with_reducible refine Only.with_sched ?_ rfl

theorem State.conclude_only {s : State} {a0 status : Nat} {sealed keep : Bool} :
    Only [.cred, .sched] s (State.conclude s a0 status sealed keep) := by
  unfold State.conclude
  repeat' first
    | with_reducible assumption
    | with_reducible exact Only.refl _ _
    | (lift_lets -underBinder; intro x; refine Only.gen (ps := [.cred, .sched]) (s := s) (x := x) ?_ (fun hx => ?_); unfold x; rotate_left; clear_value x)
    | ((with_reducible apply Only.step State.dropPosts_only); rfl)
    | ((with_reducible apply Only.step State.leaveStreams_only); rfl)
    | ((with_reducible apply Only.step State.modCtx_only); rfl)

theorem State.stopQuery_only {s : State} {a0 status : Nat} :
    Only [.cred, .sched] s (State.stopQuery s a0 status) := by
  unfold State.stopQuery
  repeat' first
    | with_reducible exact Only.refl _ _
    | with_reducible refine Only.ite (fun _ => ?_) (fun _ => ?_)
    | ((with_reducible apply Only.step State.conclude_only); rfl)
    | split

theorem State.dropCtx_only {s : State} {a0 : Nat} :
    Only [.cred, .sched] s (State.dropCtx s a0) := by
  unfold State.dropCtx
  try dsimp -zeta -proj only [State.set_sched]
  repeat' first
    | with_reducible exact Only.refl _ _
    | (lift_lets -underBinder; intro x)
    | ((with_reducible apply Only.step State.giveBack_only); rfl)
    | with_reducible refine Only.with_sched ?_ rfl

theorem State.retireTiles_only {s : State} {a0 kernel : Nat} {tiles : List (Nat × Nat)} :
    Only [.grid] s (State.retireTiles s a0 kernel tiles) := by
  unfold State.retireTiles
  repeat' first
    | exact fun _ h => tile_wf h _
    | with_reducible assumption
    | with_reducible exact Only.refl _ _
    | (lift_lets -underBinder; intro x)
    | with_reducible refine Only.foldl (fun _ _ _ => ?_) ?_
    | with_reducible refine Only.setTile ?_ rfl ?_

theorem State.freeQuery_only {s : State} {a0 : Nat} :
    Only [.cred, .sched, .grid, .fab] s (State.freeQuery s a0) := by
  unfold State.freeQuery
  repeat' first
    | with_reducible assumption
    | with_reducible exact Only.refl _ _
    | (lift_lets -underBinder; intro x)
    | (intro x; refine Only.gen (ps := [.cred, .sched, .grid, .fab]) (s := s) (x := x) ?_ (fun hx => ?_); unfold x; rotate_left; clear_value x)
    | with_reducible refine Only.foldl (fun _ _ _ => ?_) ?_
    | with_reducible refine Only.ite (fun _ => ?_) (fun _ => ?_)
    | ((with_reducible apply Only.step State.dropPosts_only); rfl)
    | ((with_reducible apply Only.step State.leaveStreams_only); rfl)
    | ((with_reducible apply Only.step State.retireTiles_only); rfl)
    | ((with_reducible apply Only.step State.giveBack_only); rfl)
    | ((with_reducible apply Only.step State.send_only); rfl)
    | ((with_reducible apply Only.step State.setCtx_only); rfl)
    | split

theorem State.dropLive_only {s : State} {key : Nat} :
    Only [.host, .cred, .sched, .grid, .fab] s (State.dropLive s key) := by
  unfold State.dropLive
  try dsimp -zeta -proj only [State.set_host]
  repeat' first
    | with_reducible assumption
    | with_reducible exact Only.refl _ _
    | (lift_lets -underBinder; intro x; refine Only.gen (ps := [.host, .cred, .sched, .grid, .fab]) (s := s) (x := x) ?_ (fun hx => ?_); unfold x; rotate_left; clear_value x)
    | (intro x; refine Only.gen (ps := [.host, .cred, .sched, .grid, .fab]) (s := s) (x := x) ?_ (fun hx => ?_); unfold x; rotate_left; clear_value x)
    | (intro x)
    | with_reducible refine Only.ite (fun _ => ?_) (fun _ => ?_)
    | ((with_reducible apply Only.step State.dropCtx_only); rfl)
    | ((with_reducible apply Only.step State.freeQuery_only); rfl)
    | ((with_reducible apply Only.step State.giveBack_only); rfl)
    | with_reducible refine Only.with_host ?_ rfl
    | split

theorem State.failLive_only {s : State} {key status : Nat} :
    Only [.host, .cred, .sched, .grid, .fab] s (State.failLive s key status) := by
  unfold State.failLive
  repeat' first
    | with_reducible assumption
    | with_reducible exact Only.refl _ _
    | (lift_lets -underBinder; intro x; refine Only.gen (ps := [.host, .cred, .sched, .grid, .fab]) (s := s) (x := x) ?_ (fun hx => ?_); unfold x; rotate_left; clear_value x)
    | (intro x)
    | with_reducible refine Only.ite (fun _ => ?_) (fun _ => ?_)
    | ((with_reducible apply Only.step State.freeQuery_only); rfl)
    | ((with_reducible apply Only.step State.finish_only); rfl)
    | ((with_reducible apply Only.step State.giveBack_only); rfl)
    | split

theorem State.done_only {s : State} {key : Nat} {c : Origin → Completion} :
    Only [.host, .cred] s (State.done s key c) := by
  unfold State.done
  repeat' first
    | with_reducible assumption
    | with_reducible exact Only.refl _ _
    | (lift_lets -underBinder; intro x; refine Only.gen (ps := [.host, .cred]) (s := s) (x := x) ?_ (fun hx => ?_); unfold x; rotate_left; clear_value x)
    | with_reducible refine Only.ite (fun _ => ?_) (fun _ => ?_)
    | ((with_reducible apply Only.step State.giveBack_only); rfl)
    | ((with_reducible apply Only.step State.finish_only); rfl)
    | split

theorem State.newCtx_only {s : State} {base size : Nat} {c : Ctx} :
    Via inOptSnd [.draws, .cred, .sched] s (State.newCtx s base size c) := by
  unfold State.newCtx
  repeat' first
    | with_reducible assumption
    | with_reducible exact Only.refl _ _
    | (lift_lets -underBinder; intro x)
    | (intro x; refine Only.gen (ps := [.draws, .cred, .sched]) (s := s) (x := x) ?_ (fun hx => ?_); unfold x; rotate_left; clear_value x)
    | (intro x)
    | with_reducible refine Via.map rfl (fun _ _ => ?_)
    | ((with_reducible apply Only.step (Via.get State.draw_only rfl)); rfl)
    | ((with_reducible apply Only.step State.reserve_only); rfl)
    | ((with_reducible apply Only.step State.setCtx_only); rfl)
    | ((with_reducible apply Only.step State.newTag_only); rfl)
    | split
    | with_reducible refine Via.of rfl ?_

theorem State.stopQueries_only {s : State} {coll status : Nat} :
    Only [.cred, .sched] s (State.stopQueries s coll status) := by
  unfold State.stopQueries
  repeat' first
    | with_reducible assumption
    | with_reducible exact Only.refl _ _
    | with_reducible refine Only.foldl (fun _ _ _ => ?_) ?_
    | with_reducible refine Only.ite (fun _ => ?_) (fun _ => ?_)
    | ((with_reducible apply Only.step State.stopQuery_only); rfl)
    | split

theorem State.enterStream_only {s : State} {a0 coll root : Nat} {what : StreamOf} {stripes : List Nat} :
    Only [.cred, .sched] s (State.enterStream s a0 coll root what stripes) := by
  unfold State.enterStream
  try dsimp -zeta -proj only [State.set_sched]
  repeat' first
    | with_reducible exact Only.refl _ _
    | (lift_lets -underBinder; intro x)
    | (intro x)
    | ((with_reducible apply Only.step State.reserve_only); rfl)
    | with_reducible refine Only.with_sched ?_ rfl

theorem State.setKernel_only {s : State} {k : Nat} {v : Kernel} :
    Only [.grid] s (State.setKernel s k v) := by
  unfold State.setKernel
  try dsimp -zeta -proj only [State.set_grid]
  repeat' first
    | with_reducible assumption
    | with_reducible exact Only.refl _ _
    | (lift_lets -underBinder; intro x)
    | (intro x)
    | with_reducible refine Only.with_grid ?_ rfl ?_

theorem State.endQuery_only {s : State} {a0 : Nat} :
    Only [.host, .cred, .sched, .grid, .fab] s (State.endQuery s a0) := by
  unfold State.endQuery
  repeat' first
    | with_reducible assumption
    | with_reducible exact Only.refl _ _
    | (lift_lets -underBinder; intro x; refine Only.gen (ps := [.host, .cred, .sched, .grid, .fab]) (s := s) (x := x) ?_ (fun hx => ?_); unfold x; rotate_left; clear_value x)
    | ((with_reducible apply Only.step State.freeQuery_only); rfl)
    | ((with_reducible apply Only.step State.dropCtx_only); rfl)
    | ((with_reducible apply Only.step State.finish_only); rfl)
    | split

theorem State.setLive_only {s : State} {key : Nat} {v : Live} :
    Only [.host] s (State.setLive s key v) := by
  unfold State.setLive
  try dsimp -zeta -proj only [State.set_host]
  repeat' first
    | with_reducible exact Only.refl _ _
    | (lift_lets -underBinder; intro x)
    | with_reducible refine Only.with_host ?_ rfl

theorem State.newLive_only {s : State} {o : Origin} {opcode coll order : Nat} {bytes : List Sys2Proof.Byte} :
    Via inSnd [.host, .sched] s (State.newLive s o opcode coll order bytes) := by
  unfold State.newLive
  try dsimp -zeta -proj only [State.set_host]
  repeat' first
    | with_reducible assumption
    | with_reducible exact Only.refl _ _
    | (lift_lets -underBinder; intro x)
    | (intro x; refine Only.gen (ps := [.host, .sched]) (s := s) (x := x) ?_ (fun hx => ?_); unfold x; rotate_left; clear_value x)
    | (intro x)
    | ((with_reducible apply Only.step State.newTag_only); rfl)
    | ((with_reducible apply Only.step State.setBurrow_only); rfl)
    | ((with_reducible apply Only.step State.setLive_only); rfl)
    | with_reducible refine Only.with_host ?_ rfl
    | with_reducible refine Via.of rfl ?_

end Sys2Proof.Machine
end

