-- ==== Sys2Proof/Laws/Only/Segments.lean ====
section
/-! SUPPORT. What each operation of Machine/Segments.lean may change. -/

namespace Sys2Proof.Machine

theorem State.frameBack_only {s : State} {f : Nat} :
    Only [.seg] s (State.frameBack s f) := by
  unfold State.frameBack
  try dsimp -zeta -proj only [State.set_seg]
  repeat' first
    | with_reducible exact Only.refl _ _
    | (lift_lets -underBinder; intro x)
    | with_reducible refine Only.ite (fun _ => ?_) (fun _ => ?_)
    | with_reducible refine Only.with_seg ?_ rfl

theorem State.countOut_only {s : State} {st : SegState} :
    Only [.seg] s (State.countOut s st) := by
  unfold State.countOut
  try dsimp -zeta -proj only [State.set_seg]
  repeat' first
    | with_reducible exact Only.refl _ _
    | (lift_lets -underBinder; intro x)
    | with_reducible refine Only.with_seg ?_ rfl
    | split

theorem State.freeSeg_only {s : State} {n : Nat} :
    Only [.seg] s (State.freeSeg s n) := by
  unfold State.freeSeg
  try dsimp -zeta -proj only [State.set_seg]
  repeat' first
    | with_reducible assumption
    | with_reducible exact Only.refl _ _
    | (lift_lets -underBinder; intro x)
    | (intro x; refine Only.gen (ps := [.seg]) (s := s) (x := x) ?_ (fun hx => ?_); unfold x; rotate_left; clear_value x)
    | (intro x)
    | with_reducible refine Only.ite (fun _ => ?_) (fun _ => ?_)
    | ((with_reducible apply Only.step State.frameBack_only); rfl)
    | ((with_reducible apply Only.step State.countOut_only); rfl)
    | with_reducible refine Only.with_seg ?_ rfl
    | split

theorem State.replaceFrame_only {s : State} {f : Nat} :
    Only [.draws, .mem, .seg] s (State.replaceFrame s f) := by
  unfold State.replaceFrame
  try dsimp -zeta -proj only [State.set_seg]
  repeat' first
    | with_reducible assumption
    | with_reducible exact Only.refl _ _
    | (lift_lets -underBinder; intro x)
    | (intro x; refine Only.gen (ps := [.draws, .mem, .seg]) (s := s) (x := x) ?_ (fun hx => ?_); unfold x; rotate_left; clear_value x)
    | (intro x)
    | ((with_reducible apply Only.step State.writeFrame_only); rfl)
    | ((with_reducible apply Only.step (Via.get State.draw_only rfl)); rfl)
    | with_reducible refine Only.with_seg ?_ rfl
    | split

theorem State.segmentAudit_only {s : State} :
    Only [.boot, .log, .out, .can, .host, .seg] s (State.segmentAudit s) := by
  unfold State.segmentAudit
  try dsimp -zeta -proj only [State.set_boot_seg , State.set_boot , State.set_seg]
  repeat' first
    | with_reducible exact Only.refl _ _
    | (lift_lets -underBinder; intro x)
    | (intro x)
    | with_reducible refine Only.ite (fun _ => ?_) (fun _ => ?_)
    | ((with_reducible apply Only.step State.logEvent_only); rfl)
    | with_reducible refine Only.with_boot ?_ rfl
    | with_reducible refine Only.with_seg ?_ rfl

theorem State.replaceScratch_only {s : State} {a0 : Nat} :
    Only [.draws, .mem, .seg] s (State.replaceScratch s a0) := by
  unfold State.replaceScratch
  repeat' first
    | with_reducible assumption
    | with_reducible exact Only.refl _ _
    | with_reducible refine Only.foldl (fun _ _ _ => ?_) ?_
    | with_reducible refine Only.ite (fun _ => ?_) (fun _ => ?_)
    | ((with_reducible apply Only.step State.replaceFrame_only); rfl)

theorem State.replaceAll_only {s : State} :
    Only [.draws, .mem, .seg] s (State.replaceAll s) := by
  unfold State.replaceAll
  repeat' first
    | with_reducible assumption
    | with_reducible exact Only.refl _ _
    | with_reducible refine Only.foldl (fun _ _ _ => ?_) ?_
    | ((with_reducible apply Only.step State.replaceScratch_only); rfl)
    | ((with_reducible apply Only.step State.replaceFrame_only); rfl)

theorem State.retirePc_only {s : State} {pc : Nat} :
    Only [.draws, .log, .out, .can, .host, .mem, .seg, .bw] s (State.retirePc s pc) := by
  unfold State.retirePc
  try dsimp -zeta -proj only [State.set_seg_bw , State.set_seg , State.set_bw]
  repeat' first
    | with_reducible assumption
    | with_reducible exact Only.refl _ _
    | (lift_lets -underBinder; intro x)
    | (intro x; refine Only.gen (ps := [.draws, .log, .out, .can, .host, .mem, .seg, .bw]) (s := s) (x := x) ?_ (fun hx => ?_); unfold x; rotate_left; clear_value x)
    | (intro x)
    | with_reducible refine Only.ite (fun _ => ?_) (fun _ => ?_)
    | ((with_reducible apply Only.step State.replaceAll_only); rfl)
    | ((with_reducible apply Only.step State.logStack_only); rfl)
    | with_reducible refine Only.with_seg ?_ rfl
    | with_reducible refine Only.with_bw ?_ rfl

theorem State.setSeg_only {s : State} {n : Nat} {v : Seg} :
    Only [.seg] s (State.setSeg s n v) := by
  unfold State.setSeg
  try dsimp -zeta -proj only [State.set_seg]
  repeat' first
    | with_reducible exact Only.refl _ _
    | (lift_lets -underBinder; intro x)
    | with_reducible refine Only.with_seg ?_ rfl

theorem State.alloc_only {s : State} {b kind coll list written : Nat} :
    Via inOptSnd [.draws, .seg] s (State.alloc s b kind coll list written) := by
  unfold State.alloc
  try dsimp -zeta -proj only [State.set_seg]
  repeat' first
    | with_reducible assumption
    | with_reducible exact Only.refl _ _
    | (lift_lets -underBinder; intro x; refine Only.gen (ps := [.draws, .seg]) (s := s) (x := x) ?_ (fun hx => ?_); unfold x; rotate_left; clear_value x)
    | (lift_lets -underBinder; intro x)
    | (intro x; refine Only.gen (ps := [.draws, .seg]) (s := s) (x := x) ?_ (fun hx => ?_); unfold x; rotate_left; clear_value x)
    | (intro x)
    | with_reducible refine Via.ite (fun _ => ?_) (fun _ => ?_)
    | ((with_reducible apply Only.step (Via.get State.draw_only rfl)); rfl)
    | ((with_reducible apply Only.step State.setSeg_only); rfl)
    | with_reducible refine Only.with_seg ?_ rfl
    | split
    | with_reducible refine Via.of rfl ?_
    | with_reducible exact Via.nil rfl

theorem State.allocMany_only {s : State} {b kind coll list written a0 : Nat} :
    Via inOptSnd [.draws, .seg] s (State.allocMany s b kind coll list written a0) := by
  induction a0 generalizing s b kind coll list written with
  | zero =>
    unfold State.allocMany
    repeat' first
      | with_reducible exact Only.refl _ _
      | with_reducible refine Via.of rfl ?_
  | succ _ ih =>
    unfold State.allocMany
    repeat' first
      | with_reducible exact Only.refl _ _
      | with_reducible refine Only.step (Via.caseOptSnd ih (by assumption)) rfl ?_
      | with_reducible refine Only.step (Via.caseOptSnd State.alloc_only (by assumption)) rfl ?_
      | split
      | with_reducible refine Via.of rfl ?_
      | with_reducible exact Via.nil rfl

theorem State.segWrite_only {s : State} {n off : Nat} {bs : List Sys2Proof.Byte} :
    Only [.mem] s (State.segWrite s n off bs) := by
  unfold State.segWrite
  repeat' first
    | with_reducible exact Only.refl _ _
    | ((with_reducible apply Only.step State.writeFrame_only); rfl)
    | split

theorem State.retireSeg_only {s : State} {n : Nat} :
    Only [.seg] s (State.retireSeg s n) := by
  unfold State.retireSeg
  try dsimp -zeta -proj only [State.set_seg]
  repeat' first
    | with_reducible assumption
    | with_reducible exact Only.refl _ _
    | (lift_lets -underBinder; intro x; refine Only.gen (ps := [.seg]) (s := s) (x := x) ?_ (fun hx => ?_); unfold x; rotate_left; clear_value x)
    | (lift_lets -underBinder; intro x)
    | (intro x)
    | ((with_reducible apply Only.step State.setSeg_only); rfl)
    | with_reducible refine Only.with_seg ?_ rfl
    | split

theorem State.settle_only {s : State} {n : Nat} :
    Only [.seg] s (State.settle s n) := by
  unfold State.settle
  repeat' first
    | with_reducible exact Only.refl _ _
    | (lift_lets -underBinder; intro x)
    | with_reducible refine Only.ite (fun _ => ?_) (fun _ => ?_)
    | ((with_reducible apply Only.step State.retireSeg_only); rfl)
    | split

theorem State.killAck_only {s : State} {dest tag coll n : Nat} :
    Only [.fab] s (State.killAck s dest tag coll n) := by
  unfold State.killAck
  repeat' first
    | with_reducible exact Only.refl _ _
    | ((with_reducible apply Only.step State.send_only); rfl)

theorem State.poke_only {s : State} {n off : Nat} {bs : List Sys2Proof.Byte} :
    Only [.out, .mem, .stash] s (State.poke s n off bs) := by
  unfold State.poke
  try dsimp -zeta -proj only [State.set_stash]
  repeat' first
    | with_reducible exact Only.refl _ _
    | (lift_lets -underBinder; intro x)
    | with_reducible refine Only.ite (fun _ => ?_) (fun _ => ?_)
    | ((with_reducible apply Only.step State.writeFrame_only); rfl)
    | ((with_reducible apply Only.step State.emit_only); rfl)
    | with_reducible refine Only.with_stash ?_ rfl
    | split

theorem State.killAt_only {s : State} {n off seq dest tag : Nat} :
    Only [.out, .mem, .seg, .stash, .fab] s (State.killAt s n off seq dest tag) := by
  unfold State.killAt
  repeat' first
    | with_reducible assumption
    | with_reducible exact Only.refl _ _
    | (lift_lets -underBinder; intro x)
    | (intro x; refine Only.gen (ps := [.out, .mem, .seg, .stash, .fab]) (s := s) (x := x) ?_ (fun hx => ?_); unfold x; rotate_left; clear_value x)
    | with_reducible refine Only.ite (fun _ => ?_) (fun _ => ?_)
    | ((with_reducible apply Only.step State.setSeg_only); rfl)
    | ((with_reducible apply Only.step State.killAck_only); rfl)
    | ((with_reducible apply Only.step State.poke_only); rfl)

theorem State.releaseKills_only {s : State} {n : Nat} :
    Only [.out, .mem, .seg, .stash, .fab] s (State.releaseKills s n) := by
  unfold State.releaseKills
  repeat' first
    | with_reducible assumption
    | with_reducible exact Only.refl _ _
    | (lift_lets -underBinder; intro x)
    | (intro x; refine Only.gen (ps := [.out, .mem, .seg, .stash, .fab]) (s := s) (x := x) ?_ (fun hx => ?_); unfold x; rotate_left; clear_value x)
    | with_reducible refine Only.foldl (fun _ _ _ => ?_) ?_
    | ((with_reducible apply Only.step State.setSeg_only); rfl)
    | ((with_reducible apply Only.step State.killAt_only); rfl)

theorem State.pagedIn_only {s : State} {n : Nat} {data : List Sys2Proof.Byte} :
    Only [.out, .cred, .mem, .seg, .stash, .fab] s (State.pagedIn s n data) := by
  unfold State.pagedIn
  repeat' first
    | with_reducible assumption
    | with_reducible exact Only.refl _ _
    | (lift_lets -underBinder; intro x; refine Only.gen (ps := [.out, .cred, .mem, .seg, .stash, .fab]) (s := s) (x := x) ?_ (fun hx => ?_); unfold x; rotate_left; clear_value x)
    | (lift_lets -underBinder; intro x)
    | (intro x; refine Only.gen (ps := [.out, .cred, .mem, .seg, .stash, .fab]) (s := s) (x := x) ?_ (fun hx => ?_); unfold x; rotate_left; clear_value x)
    | with_reducible refine Only.ite (fun _ => ?_) (fun _ => ?_)
    | ((with_reducible apply Only.step State.giveBack_only); rfl)
    | ((with_reducible apply Only.step State.writeFrame_only); rfl)
    | ((with_reducible apply Only.step State.setSeg_only); rfl)
    | ((with_reducible apply Only.step State.settle_only); rfl)
    | ((with_reducible apply Only.step State.releaseKills_only); rfl)
    | split

theorem State.want_only {s : State} {demand : Bool} {n : Nat} :
    Only [.seg] s (State.want s demand n) := by
  unfold State.want
  try dsimp -zeta -proj only [State.set_seg]
  repeat' first
    | with_reducible exact Only.refl _ _
    | (lift_lets -underBinder; intro x)
    | with_reducible refine Only.ite (fun _ => ?_) (fun _ => ?_)
    | with_reducible refine Only.with_seg ?_ rfl

theorem State.quarantineFrame_only {s : State} {f : Nat} :
    Only [.log, .out, .can, .host, .seg] s (State.quarantineFrame s f) := by
  unfold State.quarantineFrame
  try dsimp -zeta -proj only [State.set_seg]
  repeat' first
    | with_reducible assumption
    | with_reducible exact Only.refl _ _
    | (lift_lets -underBinder; intro x)
    | (intro x; refine Only.gen (ps := [.log, .out, .can, .host, .seg]) (s := s) (x := x) ?_ (fun hx => ?_); unfold x; rotate_left; clear_value x)
    | (intro x)
    | ((with_reducible apply Only.step State.logStack_only); rfl)
    | with_reducible refine Only.with_seg ?_ rfl

theorem State.damageList_only {s : State} {g l written : Nat} :
    Only [.colls] s (State.damageList s g l written) := by
  unfold State.damageList
  repeat' first
    | with_reducible exact Only.refl _ _
    | (lift_lets -underBinder; intro x)
    | ((with_reducible apply Only.step State.setColl_only); rfl)
    | split

theorem State.damagePayloads_only {s : State} {n : Nat} :
    Only [.pay] s (State.damagePayloads s n) := by
  unfold State.damagePayloads
  try dsimp -zeta -proj only [State.set_pay]
  repeat' first
    | with_reducible exact Only.refl _ _
    | (lift_lets -underBinder; intro x)
    | (intro x)
    | with_reducible refine Only.with_pay ?_ rfl

theorem State.quarantineEffect_only {s : State} {n : Nat} {v : Seg} :
    Only [.cred, .colls, .sched, .pay] s (State.quarantineEffect s n v) := by
  unfold State.quarantineEffect
  repeat' first
    | with_reducible exact Only.refl _ _
    | (lift_lets -underBinder; intro x)
    | (intro x)
    | with_reducible refine Only.ite (fun _ => ?_) (fun _ => ?_)
    | ((with_reducible apply Only.step State.stopQueries_only); rfl)
    | ((with_reducible apply Only.step State.modColl_only); rfl)
    | ((with_reducible apply Only.step State.damageList_only); rfl)
    | ((with_reducible apply Only.step State.damagePayloads_only); rfl)

theorem State.quarantine_only {s : State} {n : Nat} {bad : Bool} :
    Only [.log, .out, .can, .host, .cred, .seg, .colls, .sched, .pay] s (State.quarantine s n bad) := by
  unfold State.quarantine
  repeat' first
    | with_reducible assumption
    | with_reducible exact Only.refl _ _
    | (lift_lets -underBinder; intro x)
    | (intro x; refine Only.gen (ps := [.log, .out, .can, .host, .cred, .seg, .colls, .sched, .pay]) (s := s) (x := x) ?_ (fun hx => ?_); unfold x; rotate_left; clear_value x)
    | with_reducible refine Only.ite (fun _ => ?_) (fun _ => ?_)
    | ((with_reducible apply Only.step State.quarantineFrame_only); rfl)
    | ((with_reducible apply Only.step State.countOut_only); rfl)
    | ((with_reducible apply Only.step State.frameBack_only); rfl)
    | ((with_reducible apply Only.step State.quarantineEffect_only); rfl)
    | ((with_reducible apply Only.step State.setSeg_only); rfl)
    | split

theorem State.modSeg_only {s : State} {n : Nat} {f : Seg → Seg} :
    Only [.seg] s (State.modSeg s n f) := by
  unfold State.modSeg
  repeat' first
    | with_reducible exact Only.refl _ _
    | ((with_reducible apply Only.step State.setSeg_only); rfl)

theorem State.touch_only {s : State} {n : Nat} :
    Only [.seg] s (State.touch s n) := by
  unfold State.touch
  repeat' first
    | with_reducible exact Only.refl _ _
    | ((with_reducible apply Only.step State.modSeg_only); rfl)

theorem State.countCorrected_only {s : State} {pc : Nat} :
    Only [.seg] s (State.countCorrected s pc) := by
  unfold State.countCorrected
  try dsimp -zeta -proj only [State.set_seg]
  repeat' first
    | with_reducible exact Only.refl _ _
    | (lift_lets -underBinder; intro x)
    | (intro x)
    | with_reducible refine Only.with_seg ?_ rfl

theorem State.pageInFails_only {s : State} {n : Nat} :
    Only [.log, .out, .can, .host, .cred, .seg, .colls, .sched, .pay] s (State.pageInFails s n) := by
  unfold State.pageInFails
  repeat' first
    | with_reducible assumption
    | with_reducible exact Only.refl _ _
    | (lift_lets -underBinder; intro x)
    | (intro x; refine Only.gen (ps := [.log, .out, .can, .host, .cred, .seg, .colls, .sched, .pay]) (s := s) (x := x) ?_ (fun hx => ?_); unfold x; rotate_left; clear_value x)
    | with_reducible refine Only.ite (fun _ => ?_) (fun _ => ?_)
    | ((with_reducible apply Only.step State.logEvent_only); rfl)
    | ((with_reducible apply Only.step State.giveBack_only); rfl)
    | ((with_reducible apply Only.step State.quarantine_only); rfl)
    | ((with_reducible apply Only.step State.setSeg_only); rfl)
    | ((with_reducible apply Only.step State.emit_only); rfl)
    | split

theorem State.pagedOut_only {s : State} {n : Nat} :
    Only [.draws, .out, .mem, .seg, .stash, .fab] s (State.pagedOut s n) := by
  unfold State.pagedOut
  repeat' first
    | with_reducible assumption
    | with_reducible exact Only.refl _ _
    | (lift_lets -underBinder; intro x; refine Only.gen (ps := [.draws, .out, .mem, .seg, .stash, .fab]) (s := s) (x := x) ?_ (fun hx => ?_); unfold x; rotate_left; clear_value x)
    | (lift_lets -underBinder; intro x)
    | with_reducible refine Only.ite (fun _ => ?_) (fun _ => ?_)
    | ((with_reducible apply Only.step State.frameBack_only); rfl)
    | ((with_reducible apply Only.step State.countOut_only); rfl)
    | ((with_reducible apply Only.step State.setSeg_only); rfl)
    | ((with_reducible apply Only.step State.replaceAll_only); rfl)
    | ((with_reducible apply Only.step State.settle_only); rfl)
    | ((with_reducible apply Only.step State.releaseKills_only); rfl)
    | split

theorem State.pageIn_only {s : State} {n : Nat} :
    Only [.draws, .out, .cred, .seg, .bw] s (State.pageIn s n) := by
  unfold State.pageIn
  try dsimp -zeta -proj only [State.set_seg]
  repeat' first
    | with_reducible assumption
    | with_reducible exact Only.refl _ _
    | (lift_lets -underBinder; intro x; refine Only.gen (ps := [.draws, .out, .cred, .seg, .bw]) (s := s) (x := x) ?_ (fun hx => ?_); unfold x; rotate_left; clear_value x)
    | (lift_lets -underBinder; intro x)
    | (intro x; refine Only.gen (ps := [.draws, .out, .cred, .seg, .bw]) (s := s) (x := x) ?_ (fun hx => ?_); unfold x; rotate_left; clear_value x)
    | (intro x)
    | with_reducible refine Only.ite (fun _ => ?_) (fun _ => ?_)
    | with_reducible refine Only.step (Via.caseOpt State.charge_only (by assumption)) rfl ?_
    | ((with_reducible apply Only.step State.setSeg_only); rfl)
    | ((with_reducible apply Only.step (Via.get State.draw_only rfl)); rfl)
    | ((with_reducible apply Only.step State.emit_only); rfl)
    | ((with_reducible apply Only.step State.reserve_only); rfl)
    | with_reducible refine Only.with_seg ?_ rfl
    | split

theorem State.sweep_only {s : State} {a0 : List Nat} :
    Via inSnd [.seg] s (State.sweep s a0) := by
  induction a0 generalizing s with
  | nil =>
    unfold State.sweep
    try dsimp -zeta -proj only [State.set_seg]
    repeat' first
      | with_reducible exact Only.refl _ _
      | with_reducible refine Via.of rfl ?_
  | cons _ _ ih =>
    unfold State.sweep
    try dsimp -zeta -proj only [State.set_seg]
    repeat' first
      | with_reducible exact Only.refl _ _
      | ((with_reducible apply Via.step ih); rfl)
      | (lift_lets -underBinder; intro x)
      | (intro x)
      | with_reducible refine Via.ite (fun _ => ?_) (fun _ => ?_)
      | ((with_reducible apply Only.step State.setSeg_only); rfl)
      | with_reducible refine Only.with_seg ?_ rfl
      | with_reducible refine Via.of rfl ?_

theorem State.pageOut_only {s : State} {n : Nat} :
    Only [.draws, .out, .seg, .bw] s (State.pageOut s n) := by
  unfold State.pageOut
  repeat' first
    | with_reducible assumption
    | with_reducible exact Only.refl _ _
    | (lift_lets -underBinder; intro x; refine Only.gen (ps := [.draws, .out, .seg, .bw]) (s := s) (x := x) ?_ (fun hx => ?_); unfold x; rotate_left; clear_value x)
    | (lift_lets -underBinder; intro x)
    | (intro x; refine Only.gen (ps := [.draws, .out, .seg, .bw]) (s := s) (x := x) ?_ (fun hx => ?_); unfold x; rotate_left; clear_value x)
    | (intro x)
    | with_reducible refine Only.step (Via.caseOpt State.charge_only (by assumption)) rfl ?_
    | ((with_reducible apply Only.step (Via.get State.draw_only rfl)); rfl)
    | ((with_reducible apply Only.step State.setSeg_only); rfl)
    | ((with_reducible apply Only.step State.emit_only); rfl)
    | split

end Sys2Proof.Machine
end

