-- ==== Sys2Proof/Laws/Only/Burrows.lean ====
section
/-! SUPPORT. What each operation of Machine/Burrows.lean may change. -/

namespace Sys2Proof.Machine

theorem State.moveBurrow_only {s : State} {b : Nat} {nxt : BurrowState} :
    Only [.log, .out, .can, .host] s (State.moveBurrow s b nxt) := by
  unfold State.moveBurrow
  repeat' first
    | with_reducible assumption
    | with_reducible exact Only.refl _ _
    | (lift_lets -underBinder; intro x)
    | (intro x; refine Only.gen (ps := [.log, .out, .can, .host]) (s := s) (x := x) ?_ (fun hx => ?_); unfold x; rotate_left; clear_value x)
    | (intro x)
    | ((with_reducible apply Only.step State.setBurrow_only); rfl)
    | ((with_reducible apply Only.step State.logBurrow_only); rfl)
    | ((with_reducible apply Only.step State.raise_only); rfl)

theorem State.enableBurrow_only {s : State} {b : Nat} :
    Only [.log, .out, .can, .host] s (State.enableBurrow s b) := by
  unfold State.enableBurrow
  repeat' first
    | with_reducible assumption
    | with_reducible exact Only.refl _ _
    | (lift_lets -underBinder; intro x)
    | (intro x; refine Only.gen (ps := [.log, .out, .can, .host]) (s := s) (x := x) ?_ (fun hx => ?_); unfold x; rotate_left; clear_value x)
    | ((with_reducible apply Only.step State.setBurrow_only); rfl)
    | ((with_reducible apply Only.step State.moveBurrow_only); rfl)

theorem State.createQueue_only {s : State} {b q : Nat} :
    Only [.host] s (State.createQueue s b q) := by
  unfold State.createQueue
  repeat' first
    | with_reducible exact Only.refl _ _
    | (lift_lets -underBinder; intro x)
    | (intro x)
    | with_reducible refine Only.ite (fun _ => ?_) (fun _ => ?_)
    | ((with_reducible apply Only.step State.setSlot_only); rfl)

theorem State.settleSlot_only {s : State} {b q : Nat} :
    Only [.host] s (State.settleSlot s b q) := by
  unfold State.settleSlot
  repeat' first
    | with_reducible assumption
    | with_reducible exact Only.refl _ _
    | (lift_lets -underBinder; intro x)
    | (intro x; refine Only.gen (ps := [.host]) (s := s) (x := x) ?_ (fun hx => ?_); unfold x; rotate_left; clear_value x)
    | with_reducible refine Only.ite (fun _ => ?_) (fun _ => ?_)
    | ((with_reducible apply Only.step State.setSlot_only); rfl)
    | ((with_reducible apply Only.step State.createQueue_only); rfl)

theorem State.refuseFetched_only {s : State} {f : Fetched} {status : Nat} :
    Only [.host, .cred] s (State.refuseFetched s f status) := by
  unfold State.refuseFetched
  repeat' first
    | with_reducible exact Only.refl _ _
    | ((with_reducible apply Only.step State.complete_only); rfl)
    | ((with_reducible apply Only.step State.reserve_only); rfl)
    | ((with_reducible apply Only.step State.giveBack_only); rfl)

theorem State.abortFetched_only {s : State} {p : Fetched → Bool} {a0 : List Fetched} :
    Only [.host, .cred] s (State.abortFetched s p a0) := by
  induction a0 generalizing s p with
  | nil =>
    unfold State.abortFetched
    try dsimp -zeta -proj only [State.set_host]
    repeat' with_reducible exact Only.refl _ _
  | cons _ _ ih =>
    unfold State.abortFetched
    try dsimp -zeta -proj only [State.set_host]
    repeat' first
      | with_reducible exact Only.refl _ _
      | ((with_reducible apply Only.step ih); rfl)
      | (lift_lets -underBinder; intro x)
      | with_reducible refine Only.ite (fun _ => ?_) (fun _ => ?_)
      | ((with_reducible apply Only.step State.refuseFetched_only); rfl)
      | with_reducible refine Only.with_host ?_ rfl

theorem State.deleteSlot_only {s : State} {b q : Nat} :
    Only [.out, .host, .cred] s (State.deleteSlot s b q) := by
  unfold State.deleteSlot
  repeat' first
    | with_reducible assumption
    | with_reducible exact Only.refl _ _
    | (lift_lets -underBinder; intro x; refine Only.gen (ps := [.out, .host, .cred]) (s := s) (x := x) ?_ (fun hx => ?_); unfold x; rotate_left; clear_value x)
    | (intro x; refine Only.gen (ps := [.out, .host, .cred]) (s := s) (x := x) ?_ (fun hx => ?_); unfold x; rotate_left; clear_value x)
    | (intro x)
    | ((with_reducible apply Only.step State.signal_only); rfl)
    | ((with_reducible apply Only.step State.setSlot_only); rfl)
    | ((with_reducible apply Only.step State.settleSlot_only); rfl)
    | ((with_reducible apply Only.step State.abortFetched_only); rfl)

theorem State.normalDrain_only {s : State} {b : Nat} :
    Only [.log, .out, .can, .host, .cred] s (State.normalDrain s b) := by
  unfold State.normalDrain
  repeat' first
    | with_reducible assumption
    | with_reducible exact Only.refl _ _
    | (lift_lets -underBinder; intro x; refine Only.gen (ps := [.log, .out, .can, .host, .cred]) (s := s) (x := x) ?_ (fun hx => ?_); unfold x; rotate_left; clear_value x)
    | with_reducible refine Only.foldl (fun _ _ _ => ?_) ?_
    | with_reducible refine Only.ite (fun _ => ?_) (fun _ => ?_)
    | ((with_reducible apply Only.step State.moveBurrow_only); rfl)
    | ((with_reducible apply Only.step State.deleteSlot_only); rfl)

theorem State.burrowEnable_only {s : State} {b : Nat} {on : Bool} :
    Only [.log, .out, .can, .host, .cred] s (State.burrowEnable s b on) := by
  unfold State.burrowEnable
  repeat' first
    | with_reducible exact Only.refl _ _
    | (lift_lets -underBinder; intro x)
    | with_reducible refine Only.ite (fun _ => ?_) (fun _ => ?_)
    | ((with_reducible apply Only.step State.enableBurrow_only); rfl)
    | ((with_reducible apply Only.step State.setBurrow_only); rfl)
    | ((with_reducible apply Only.step State.normalDrain_only); rfl)
    | split

theorem State.discardWork_only {s : State} {b : Nat} :
    Only [.host, .cred, .sched, .grid, .fab] s (State.discardWork s b) := by
  unfold State.discardWork
  try dsimp -zeta -proj only [State.set_host]
  repeat' first
    | with_reducible assumption
    | with_reducible exact Only.refl _ _
    | (lift_lets -underBinder; intro x)
    | (intro x; refine Only.gen (ps := [.host, .cred, .sched, .grid, .fab]) (s := s) (x := x) ?_ (fun hx => ?_); unfold x; rotate_left; clear_value x)
    | (intro x)
    | with_reducible refine Only.foldl (fun _ _ _ => ?_) ?_
    | with_reducible refine Only.ite (fun _ => ?_) (fun _ => ?_)
    | ((with_reducible apply Only.step State.giveBack_only); rfl)
    | ((with_reducible apply Only.step State.dropLive_only); rfl)
    | ((with_reducible apply Only.step State.setSlot_only); rfl)
    | with_reducible refine Only.with_host ?_ rfl
    | split

theorem State.discardDrain_only {s : State} {b : Nat} :
    Only [.log, .out, .can, .host, .cred, .sched, .grid, .fab] s (State.discardDrain s b) := by
  unfold State.discardDrain
  repeat' first
    | with_reducible assumption
    | with_reducible exact Only.refl _ _
    | (lift_lets -underBinder; intro x; refine Only.gen (ps := [.log, .out, .can, .host, .cred, .sched, .grid, .fab]) (s := s) (x := x) ?_ (fun hx => ?_); unfold x; rotate_left; clear_value x)
    | (intro x; refine Only.gen (ps := [.log, .out, .can, .host, .cred, .sched, .grid, .fab]) (s := s) (x := x) ?_ (fun hx => ?_); unfold x; rotate_left; clear_value x)
    | (intro x)
    | with_reducible refine Only.ite (fun _ => ?_) (fun _ => ?_)
    | ((with_reducible apply Only.step State.moveBurrow_only); rfl)
    | ((with_reducible apply Only.step State.setBurrow_only); rfl)
    | ((with_reducible apply Only.step State.discardWork_only); rfl)

theorem State.resetVf_only {s : State} {b : Nat} :
    Only [.host] s (State.resetVf s b) := by
  unfold State.resetVf
  try dsimp -zeta -proj only [State.set_host]
  repeat' first
    | with_reducible assumption
    | with_reducible exact Only.refl _ _
    | (lift_lets -underBinder; intro x; refine Only.gen (ps := [.host]) (s := s) (x := x) ?_ (fun hx => ?_); unfold x; rotate_left; clear_value x)
    | (intro x; refine Only.gen (ps := [.host]) (s := s) (x := x) ?_ (fun hx => ?_); unfold x; rotate_left; clear_value x)
    | (intro x)
    | with_reducible refine Only.foldl (fun _ _ _ => ?_) ?_
    | ((with_reducible apply Only.step State.setSlot_only); rfl)
    | ((with_reducible apply Only.step State.setBurrow_only); rfl)
    | with_reducible refine Only.with_host ?_ rfl

theorem State.drainEnd_only {s : State} {b : Nat} :
    Only [.log, .out, .can, .host] s (State.drainEnd s b) := by
  unfold State.drainEnd
  repeat' first
    | with_reducible assumption
    | with_reducible exact Only.refl _ _
    | (lift_lets -underBinder; intro x)
    | (intro x; refine Only.gen (ps := [.log, .out, .can, .host]) (s := s) (x := x) ?_ (fun hx => ?_); unfold x; rotate_left; clear_value x)
    | with_reducible refine Only.foldl (fun _ _ _ => ?_) ?_
    | with_reducible refine Only.ite (fun _ => ?_) (fun _ => ?_)
    | ((with_reducible apply Only.step State.resetVf_only); rfl)
    | ((with_reducible apply Only.step State.setSlot_only); rfl)
    | ((with_reducible apply Only.step State.enableBurrow_only); rfl)
    | ((with_reducible apply Only.step State.moveBurrow_only); rfl)

theorem State.vfLoss_only {s : State} {b : Nat} :
    Only [.log, .out, .can, .host, .cred, .sched, .grid, .fab] s (State.vfLoss s b) := by
  unfold State.vfLoss
  repeat' first
    | with_reducible exact Only.refl _ _
    | (lift_lets -underBinder; intro x)
    | ((with_reducible apply Only.step State.discardDrain_only); rfl)
    | ((with_reducible apply Only.step State.setBurrow_only); rfl)
    | split

theorem State.vfArrives_only {s : State} {b : Nat} :
    Only [.log, .out, .can, .host] s (State.vfArrives s b) := by
  unfold State.vfArrives
  repeat' first
    | with_reducible exact Only.refl _ _
    | (lift_lets -underBinder; intro x)
    | with_reducible refine Only.ite (fun _ => ?_) (fun _ => ?_)
    | ((with_reducible apply Only.step State.enableBurrow_only); rfl)

theorem State.vfChange_only {s : State} {enable : Bool} {numVfs : Nat} :
    Only [.log, .out, .can, .host, .cred, .sched, .grid, .fab] s (State.vfChange s enable numVfs) := by
  unfold State.vfChange
  try dsimp -zeta -proj only [State.set_host]
  repeat' first
    | with_reducible assumption
    | with_reducible exact Only.refl _ _
    | (lift_lets -underBinder; intro x)
    | (intro x; refine Only.gen (ps := [.log, .out, .can, .host, .cred, .sched, .grid, .fab]) (s := s) (x := x) ?_ (fun hx => ?_); unfold x; rotate_left; clear_value x)
    | (intro x)
    | with_reducible refine Only.foldl (fun _ _ _ => ?_) ?_
    | with_reducible refine Only.ite (fun _ => ?_) (fun _ => ?_)
    | ((with_reducible apply Only.step State.vfLoss_only); rfl)
    | ((with_reducible apply Only.step State.vfArrives_only); rfl)
    | with_reducible refine Only.with_host ?_ rfl

theorem State.vfFlr_only {s : State} {b : Nat} :
    Only [.log, .out, .can, .host, .cred, .sched, .grid, .fab] s (State.vfFlr s b) := by
  unfold State.vfFlr
  repeat' first
    | with_reducible exact Only.refl _ _
    | (lift_lets -underBinder; intro x)
    | with_reducible refine Only.ite (fun _ => ?_) (fun _ => ?_)
    | ((with_reducible apply Only.step State.resetVf_only); rfl)
    | ((with_reducible apply Only.step State.discardDrain_only); rfl)
    | ((with_reducible apply Only.step State.setBurrow_only); rfl)
    | split

theorem State.pfFlr_only {s : State} :
    Only [.boot, .vdp, .host] s (State.pfFlr s) := by
  unfold State.pfFlr
  try dsimp -zeta -proj only [State.set_boot_vdp_host , State.set_boot , State.set_vdp , State.set_host]
  repeat' first
    | with_reducible exact Only.refl _ _
    | (lift_lets -underBinder; intro x)
    | (intro x)
    | with_reducible refine Only.with_boot ?_ rfl
    | with_reducible refine Only.with_vdp ?_ rfl
    | with_reducible refine Only.with_host ?_ rfl

theorem State.haltSlot_only {s : State} {b q : Nat} :
    Only [.out, .host] s (State.haltSlot s b q) := by
  unfold State.haltSlot
  repeat' first
    | with_reducible assumption
    | with_reducible exact Only.refl _ _
    | (lift_lets -underBinder; intro x; refine Only.gen (ps := [.out, .host]) (s := s) (x := x) ?_ (fun hx => ?_); unfold x; rotate_left; clear_value x)
    | (intro x)
    | ((with_reducible apply Only.step State.signal_only); rfl)
    | ((with_reducible apply Only.step State.setSlot_only); rfl)

end Sys2Proof.Machine
end

