-- ==== Sys2Proof/Laws/Only/Admission.lean ====
section
/-! SUPPORT. What each operation of Machine/Admission.lean may change. -/

namespace Sys2Proof.Machine

theorem State.choose_only {s : State} {b q : Nat} {f : Fetched} :
    Only [.host] s (State.choose s b q f) := by
  unfold State.choose
  try dsimp -zeta -proj only [State.set_host]
  repeat' first
    | with_reducible assumption
    | with_reducible exact Only.refl _ _
    | (lift_lets -underBinder; intro x)
    | (intro x; refine Only.gen (ps := [.host]) (s := s) (x := x) ?_ (fun hx => ?_); unfold x; rotate_left; clear_value x)
    | (intro x)
    | ((with_reducible apply Only.step State.setBurrow_only); rfl)
    | with_reducible refine Only.with_host ?_ rfl

theorem State.serveBurrow_only {s : State} {b : Nat} :
    Via inOpt [.host] s (State.serveBurrow s b) := by
  unfold State.serveBurrow
  try dsimp -zeta -proj only [State.set_host]
  repeat' first
    | with_reducible assumption
    | with_reducible exact Only.refl _ _
    | (lift_lets -underBinder; intro x)
    | (intro x; refine Only.gen (ps := [.host]) (s := s) (x := x) ?_ (fun hx => ?_); unfold x; rotate_left; clear_value x)
    | (intro x)
    | with_reducible refine Via.ite (fun _ => ?_) (fun _ => ?_)
    | ((with_reducible apply Only.step State.setBurrow_only); rfl)
    | ((with_reducible apply Only.step State.choose_only); rfl)
    | with_reducible refine Only.with_host ?_ rfl
    | split
    | with_reducible refine Via.of rfl ?_
    | with_reducible exact Via.nil rfl

theorem State.endTurn_only {s : State} {b : Nat} :
    Only [.host] s (State.endTurn s b) := by
  unfold State.endTurn
  try dsimp -zeta -proj only [State.set_host]
  repeat' first
    | with_reducible assumption
    | with_reducible exact Only.refl _ _
    | (lift_lets -underBinder; intro x)
    | (intro x; refine Only.gen (ps := [.host]) (s := s) (x := x) ?_ (fun hx => ?_); unfold x; rotate_left; clear_value x)
    | (intro x)
    | with_reducible refine Only.ite (fun _ => ?_) (fun _ => ?_)
    | ((with_reducible apply Only.step State.setBurrow_only); rfl)
    | with_reducible refine Only.with_host ?_ rfl

theorem State.rounds_only {s : State} {a0 : Nat} :
    Only [.host] s (State.rounds s a0) := by
  induction a0 generalizing s with
  | zero =>
    unfold State.rounds
    repeat' with_reducible exact Only.refl _ _
  | succ _ ih =>
    unfold State.rounds
    repeat' first
      | with_reducible assumption
      | with_reducible exact Only.refl _ _
      | ((with_reducible apply Only.step ih); rfl)
      | (lift_lets -underBinder; intro x)
      | (intro x; refine Only.gen (ps := [.host]) (s := s) (x := x) ?_ (fun hx => ?_); unfold x; rotate_left; clear_value x)
      | (intro x)
      | with_reducible refine Only.ite (fun _ => ?_) (fun _ => ?_)
      | ((with_reducible apply Only.step State.setBurrow_only); rfl)
      | with_reducible refine Only.step (Via.caseOpt State.serveBurrow_only (by assumption)) rfl ?_
      | ((with_reducible apply Only.step State.endTurn_only); rfl)
      | split

theorem State.level2_only {s : State} :
    Only [.host] s (State.level2 s) := by
  unfold State.level2
  repeat' first
    | with_reducible assumption
    | with_reducible exact Only.refl _ _
    | (lift_lets -underBinder; intro x; refine Only.gen (ps := [.host]) (s := s) (x := x) ?_ (fun hx => ?_); unfold x; rotate_left; clear_value x)
    | with_reducible refine Only.ite (fun _ => ?_) (fun _ => ?_)
    | with_reducible refine Only.step (Via.caseOpt State.serveBurrow_only (by assumption)) rfl ?_
    | ((with_reducible apply Only.step State.endTurn_only); rfl)
    | ((with_reducible apply Only.step State.rounds_only); rfl)
    | split

theorem State.beginWork_only {s : State} {op : Nat} :
    Via inOptSnd [.host, .cred] s (State.begin_ s op) := by
  unfold State.begin_
  try dsimp -zeta -proj only [State.set_host]
  repeat' first
    | with_reducible exact Only.refl _ _
    | (lift_lets -underBinder; intro x)
    | with_reducible refine Via.ite (fun _ => ?_) (fun _ => ?_)
    | ((with_reducible apply Only.step State.reserve_only); rfl)
    | ((with_reducible apply Only.step State.giveBack_only); rfl)
    | with_reducible refine Only.with_host ?_ rfl
    | split
    | with_reducible refine Via.of rfl ?_
    | with_reducible exact Via.nil rfl

theorem State.refuse_only {s : State} {f : Fetched} {status : Nat} :
    Only [.host] s (State.refuse s f status) := by
  unfold State.refuse
  repeat' first
    | with_reducible exact Only.refl _ _
    | ((with_reducible apply Only.step State.complete_only); rfl)

theorem State.takeIn_only {s : State} {f : Fetched} :
    Via inSnd [.host, .sched] s (State.takeIn s f) := by
  unfold State.takeIn
  repeat' first
    | with_reducible exact Only.refl _ _
    | ((with_reducible apply Via.step State.newLive_only); rfl)

theorem State.refuseUnknown_only {s : State} :
    Only [.host, .cred] s (State.refuseUnknown s) := by
  unfold State.refuseUnknown
  try dsimp -zeta -proj only [State.set_host]
  repeat' first
    | with_reducible exact Only.refl _ _
    | (lift_lets -underBinder; intro x)
    | with_reducible refine Only.ite (fun _ => ?_) (fun _ => ?_)
    | ((with_reducible apply Only.step State.refuseFetched_only); rfl)
    | with_reducible refine Only.with_host ?_ rfl
    | split

theorem State.countDecision_only {s : State} :
    Only [.host] s (State.countDecision s) := by
  unfold State.countDecision
  try dsimp -zeta -proj only [State.set_host]
  repeat' first
    | with_reducible exact Only.refl _ _
    | (lift_lets -underBinder; intro x)
    | with_reducible refine Only.with_host ?_ rfl

theorem State.fetchReads_only {s : State} {b head n : Nat} {r : Sys2Proof.SlotRegs} :
    Only [.out] s (State.fetchReads s b head n r) := by
  unfold State.fetchReads
  repeat' first
    | with_reducible assumption
    | with_reducible exact Only.refl _ _
    | (lift_lets -underBinder; intro x)
    | (intro x; refine Only.gen (ps := [.out]) (s := s) (x := x) ?_ (fun hx => ?_); unfold x; rotate_left; clear_value x)
    | with_reducible refine Only.ite (fun _ => ?_) (fun _ => ?_)
    | ((with_reducible apply Only.step State.emit_only); rfl)

theorem State.abortDeleted_only {s : State} :
    Only [.host, .cred] s (State.abortDeleted s) := by
  unfold State.abortDeleted
  repeat' first
    | with_reducible exact Only.refl _ _
    | ((with_reducible apply Only.step State.abortFetched_only); rfl)

theorem State.level1_only {s : State} :
    Via inOpt [.host] s (State.level1 s) := by
  unfold State.level1
  try dsimp -zeta -proj only [State.set_host]
  repeat' first
    | with_reducible assumption
    | with_reducible exact Only.refl _ _
    | (lift_lets -underBinder; intro x)
    | (intro x; refine Only.gen (ps := [.host]) (s := s) (x := x) ?_ (fun hx => ?_); unfold x; rotate_left; clear_value x)
    | with_reducible refine Via.map rfl (fun _ _ => ?_)
    | with_reducible refine Via.ite (fun _ => ?_) (fun _ => ?_)
    | ((with_reducible apply Only.step State.choose_only); rfl)
    | with_reducible refine Only.with_host ?_ rfl
    | with_reducible refine Via.of rfl ?_
    | with_reducible exact Via.nil rfl

theorem State.gainUrgent_only {s : State} :
    Only [.host] s (State.gainUrgent s) := by
  unfold State.gainUrgent
  try dsimp -zeta -proj only [State.set_host]
  repeat' first
    | with_reducible exact Only.refl _ _
    | (lift_lets -underBinder; intro x)
    | (intro x)
    | with_reducible refine Only.with_host ?_ rfl

theorem State.admissionStep_only {s : State} :
    Only [.host, .cred] s (State.admissionStep s) := by
  unfold State.admissionStep
  repeat' first
    | with_reducible assumption
    | with_reducible exact Only.refl _ _
    | (lift_lets -underBinder; intro x; refine Only.gen (ps := [.host, .cred]) (s := s) (x := x) ?_ (fun hx => ?_); unfold x; rotate_left; clear_value x)
    | (intro x; refine Only.gen (ps := [.host, .cred]) (s := s) (x := x) ?_ (fun hx => ?_); unfold x; rotate_left; clear_value x)
    | with_reducible refine Only.ite (fun _ => ?_) (fun _ => ?_)
    | with_reducible refine Only.getD ?_ ?_
    | ((with_reducible apply Only.step State.abortDeleted_only); rfl)
    | ((with_reducible apply Only.step State.countDecision_only); rfl)
    | ((with_reducible apply Via.step State.level1_only); rfl)
    | ((with_reducible apply Only.step State.level2_only); rfl)
    | ((with_reducible apply Only.step State.refuseUnknown_only); rfl)
    | ((with_reducible apply Only.step State.gainUrgent_only); rfl)

theorem State.hostFetch_only {s : State} {b q : Nat} {data : List Sys2Proof.Byte} :
    Only [.out, .host, .cred] s (State.hostFetch s b q data) := by
  unfold State.hostFetch
  try dsimp -zeta -proj only [State.set_host]
  repeat' first
    | with_reducible assumption
    | with_reducible exact Only.refl _ _
    | (lift_lets -underBinder; intro x)
    | (intro x; refine Only.gen (ps := [.out, .host, .cred]) (s := s) (x := x) ?_ (fun hx => ?_); unfold x; rotate_left; clear_value x)
    | (intro x)
    | with_reducible refine Only.ite (fun _ => ?_) (fun _ => ?_)
    | ((with_reducible apply Only.step State.haltSlot_only); rfl)
    | ((with_reducible apply Only.step State.setSlot_only); rfl)
    | ((with_reducible apply Only.step State.complete_only); rfl)
    | ((with_reducible apply Only.step State.reserve_only); rfl)
    | ((with_reducible apply Only.step State.fetchReads_only); rfl)
    | with_reducible refine Only.with_host ?_ rfl

end Sys2Proof.Machine
end

