-- ==== Sys2Proof/Laws/Only/Waves.lean ====
section
/-! SUPPORT. What each operation of Machine/Waves.lean may change. -/

namespace Sys2Proof.Machine

theorem State.takeSlot_only {s : State} {a0 t kernel : Nat} :
    Via inSnd [.cred, .grid] s (State.takeSlot s a0 t kernel) := by
  unfold State.takeSlot
  repeat' first
    | exact fun _ h => tile_wf h _
    | with_reducible exact Only.refl _ _
    | (lift_lets -underBinder; intro x)
    | (intro x)
    | with_reducible refine Only.setTile ?_ rfl ?_
    | ((with_reducible apply Only.step State.reserve_only); rfl)
    | with_reducible refine Via.of rfl ?_

theorem State.takeSlots_only {s : State} {a0 kernel : Nat} {a1 : List Nat} :
    Via inSnd [.cred, .grid] s (State.takeSlots s a0 kernel a1) := by
  induction a1 generalizing s a0 kernel with
  | nil =>
    unfold State.takeSlots
    repeat' first
      | with_reducible exact Only.refl _ _
      | with_reducible refine Via.of rfl ?_
  | cons _ _ ih =>
    unfold State.takeSlots
    repeat' first
      | with_reducible exact Only.refl _ _
      | with_reducible refine Only.step (Via.caseSnd ih (by assumption)) rfl ?_
      | with_reducible refine Only.step (Via.caseSnd State.takeSlot_only (by assumption)) rfl ?_
      | split
      | with_reducible refine Via.of rfl ?_

theorem State.payloadPrefetch_only {s : State} {q : Ctx} {c : Coll} :
    Only [.seg] s (State.payloadPrefetch s q c) := by
  unfold State.payloadPrefetch
  repeat' first
    | with_reducible assumption
    | with_reducible exact Only.refl _ _
    | with_reducible refine Only.foldl (fun _ _ _ => ?_) ?_
    | with_reducible refine Only.ite (fun _ => ?_) (fun _ => ?_)
    | ((with_reducible apply Only.step State.want_only); rfl)

theorem State.prefetchLists_only {s : State} {q : Ctx} {c : Coll} {ls : List Nat} :
    Only [.seg] s (State.prefetchLists s q c ls) := by
  unfold State.prefetchLists
  repeat' first
    | with_reducible assumption
    | with_reducible exact Only.refl _ _
    | (lift_lets -underBinder; intro x)
    | with_reducible refine Only.foldl (fun _ _ _ => ?_) ?_
    | with_reducible refine Only.ite (fun _ => ?_) (fun _ => ?_)
    | ((with_reducible apply Only.step State.want_only); rfl)

theorem State.neighbourPrefetch_only {s : State} {q : Ctx} {c : Coll} :
    Only [.seg] s (State.neighbourPrefetch s q c) := by
  unfold State.neighbourPrefetch
  repeat' first
    | with_reducible exact Only.refl _ _
    | (lift_lets -underBinder; intro x)
    | (intro x)
    | ((with_reducible apply Only.step State.prefetchLists_only); rfl)

theorem State.endIncomplete_only {s : State} {a0 : Nat} {q : Ctx} {c : Coll} :
    Only [.cred, .sched] s (State.endIncomplete s a0 q c) := by
  unfold State.endIncomplete
  repeat' first
    | with_reducible assumption
    | with_reducible exact Only.refl _ _
    | (lift_lets -underBinder; intro x)
    | (intro x; refine Only.gen (ps := [.cred, .sched]) (s := s) (x := x) ?_ (fun hx => ?_); unfold x; rotate_left; clear_value x)
    | (intro x)
    | ((with_reducible apply Only.step State.setCtx_only); rfl)
    | ((with_reducible apply Only.step State.conclude_only); rfl)

theorem State.startRanking_only {s : State} {a0 : Nat} {q : Ctx} {c : Coll} :
    Only [.cred, .sched] s (State.startRanking s a0 q c) := by
  unfold State.startRanking
  repeat' first
    | with_reducible assumption
    | with_reducible exact Only.refl _ _
    | (lift_lets -underBinder; intro x; refine Only.gen (ps := [.cred, .sched]) (s := s) (x := x) ?_ (fun hx => ?_); unfold x; rotate_left; clear_value x)
    | with_reducible refine Only.ite (fun _ => ?_) (fun _ => ?_)
    | ((with_reducible apply Only.step State.setCtx_only); rfl)
    | ((with_reducible apply Only.step State.enterStream_only); rfl)

theorem State.damageBlock_only {s : State} {g generation l : Nat} :
    Only [.log, .out, .can, .host, .colls] s (State.damageBlock s g generation l) := by
  unfold State.damageBlock
  repeat' first
    | with_reducible assumption
    | with_reducible exact Only.refl _ _
    | (lift_lets -underBinder; intro x)
    | (intro x; refine Only.gen (ps := [.log, .out, .can, .host, .colls]) (s := s) (x := x) ?_ (fun hx => ?_); unfold x; rotate_left; clear_value x)
    | (intro x)
    | with_reducible refine Only.foldl (fun _ _ _ => ?_) ?_
    | ((with_reducible apply Only.step State.setColl_only); rfl)
    | ((with_reducible apply Only.step State.logEvent_only); rfl)
    | split

theorem State.issueBlock_only {s : State} {a0 : Nat} {c : Coll} {l t : Nat} :
    Only [.grid] s (State.issueBlock s a0 c l t) := by
  unfold State.issueBlock
  repeat' first
    | exact fun _ h => tile_wf h _
    | with_reducible exact Only.refl _ _
    | (lift_lets -underBinder; intro x)
    | (intro x)
    | with_reducible refine Only.setTile ?_ rfl ?_

theorem State.issueList_only {s : State} {a0 : Nat} {q : Ctx} {c : Coll} {l : Nat} :
    Only [.cred, .sched, .grid] s (State.issueList s a0 q c l) := by
  unfold State.issueList
  repeat' first
    | with_reducible assumption
    | with_reducible exact Only.refl _ _
    | with_reducible refine Only.foldl (fun _ _ _ => ?_) ?_
    | with_reducible refine Only.ite (fun _ => ?_) (fun _ => ?_)
    | ((with_reducible apply Only.step State.issueBlock_only); rfl)
    | ((with_reducible apply Only.step State.enterStream_only); rfl)

theorem State.issueStash_only {s : State} {a0 : Nat} {q : Ctx} :
    Only [.cred, .sched] s (State.issueStash s a0 q) := by
  unfold State.issueStash
  repeat' first
    | with_reducible exact Only.refl _ _
    | (lift_lets -underBinder; intro x)
    | with_reducible refine Only.ite (fun _ => ?_) (fun _ => ?_)
    | ((with_reducible apply Only.step State.enterStream_only); rfl)

theorem State.sendWave_only {s : State} {a0 d : Nat} {lists : List Nat} :
    Only [.cred, .sched, .fab] s (State.sendWave s a0 d lists) := by
  unfold State.sendWave
  repeat' first
    | with_reducible assumption
    | with_reducible exact Only.refl _ _
    | (lift_lets -underBinder; intro x)
    | (intro x; refine Only.gen (ps := [.cred, .sched, .fab]) (s := s) (x := x) ?_ (fun hx => ?_); unfold x; rotate_left; clear_value x)
    | ((with_reducible apply Only.step State.setCtx_only); rfl)
    | ((with_reducible apply Only.step State.request_only); rfl)
    | split

theorem State.issueWave_only {s : State} {a0 : Nat} {q : Ctx} {c : Coll} :
    Only [.log, .out, .can, .host, .cred, .seg, .colls, .sched, .grid, .fab] s (State.issueWave s a0 q c) := by
  unfold State.issueWave
  repeat' first
    | with_reducible assumption
    | with_reducible exact Only.refl _ _
    | (lift_lets -underBinder; intro x)
    | (intro x; refine Only.gen (ps := [.log, .out, .can, .host, .cred, .seg, .colls, .sched, .grid, .fab]) (s := s) (x := x) ?_ (fun hx => ?_); unfold x; rotate_left; clear_value x)
    | (intro x)
    | with_reducible refine Only.foldl (fun _ _ _ => ?_) ?_
    | with_reducible refine Only.ite (fun _ => ?_) (fun _ => ?_)
    | ((with_reducible apply Only.step State.damageBlock_only); rfl)
    | ((with_reducible apply Only.step State.setCtx_only); rfl)
    | ((with_reducible apply Only.step State.issueList_only); rfl)
    | ((with_reducible apply Only.step State.issueStash_only); rfl)
    | ((with_reducible apply Only.step State.prefetchLists_only); rfl)
    | ((with_reducible apply Only.step State.sendWave_only); rfl)

theorem State.nextWave_only {s : State} {a0 : Nat} {q : Ctx} {c : Coll} :
    Only [.log, .out, .can, .host, .cred, .seg, .colls, .sched, .grid, .fab] s (State.nextWave s a0 q c) := by
  unfold State.nextWave
  repeat' first
    | with_reducible exact Only.refl _ _
    | with_reducible refine Only.ite (fun _ => ?_) (fun _ => ?_)
    | ((with_reducible apply Only.step State.startRanking_only); rfl)
    | ((with_reducible apply Only.step State.issueWave_only); rfl)

theorem State.afterWave_only {s : State} {a0 : Nat} {q : Ctx} {c : Coll} :
    Only [.log, .out, .can, .host, .cred, .seg, .colls, .sched, .grid, .fab] s (State.afterWave s a0 q c) := by
  unfold State.afterWave
  repeat' first
    | with_reducible assumption
    | with_reducible exact Only.refl _ _
    | (lift_lets -underBinder; intro x)
    | (intro x; refine Only.gen (ps := [.log, .out, .can, .host, .cred, .seg, .colls, .sched, .grid, .fab]) (s := s) (x := x) ?_ (fun hx => ?_); unfold x; rotate_left; clear_value x)
    | (intro x)
    | with_reducible refine Only.ite (fun _ => ?_) (fun _ => ?_)
    | ((with_reducible apply Only.step State.setCtx_only); rfl)
    | ((with_reducible apply Only.step State.conclude_only); rfl)
    | ((with_reducible apply Only.step State.nextWave_only); rfl)

theorem State.endHomeWave_only {s : State} {a0 : Nat} {q : Ctx} {c : Coll} :
    Only [.log, .out, .can, .host, .cred, .seg, .colls, .sched, .grid, .fab] s (State.endHomeWave s a0 q c) := by
  unfold State.endHomeWave
  repeat' first
    | with_reducible assumption
    | with_reducible exact Only.refl _ _
    | (lift_lets -underBinder; intro x)
    | (intro x; refine Only.gen (ps := [.log, .out, .can, .host, .cred, .seg, .colls, .sched, .grid, .fab]) (s := s) (x := x) ?_ (fun hx => ?_); unfold x; rotate_left; clear_value x)
    | (intro x)
    | with_reducible refine Only.ite (fun _ => ?_) (fun _ => ?_)
    | ((with_reducible apply Only.step State.payloadPrefetch_only); rfl)
    | ((with_reducible apply Only.step State.neighbourPrefetch_only); rfl)
    | ((with_reducible apply Only.step State.setCtx_only); rfl)
    | ((with_reducible apply Only.step State.endIncomplete_only); rfl)
    | ((with_reducible apply Only.step State.afterWave_only); rfl)

end Sys2Proof.Machine
end

