-- ==== Sys2Proof/Laws/Only/Query.lean ====
section
/-! SUPPORT. What each operation of Machine/Query.lean may change. -/

namespace Sys2Proof.Machine

theorem State.forgetWaves_only {s : State} {a0 : Nat} :
    Only [.cred, .fab] s (State.forgetWaves s a0) := by
  unfold State.forgetWaves
  try dsimp -zeta -proj only [State.set_fab]
  repeat' first
    | with_reducible assumption
    | with_reducible exact Only.refl _ _
    | (lift_lets -underBinder; intro x)
    | (intro x; refine Only.gen (ps := [.cred, .fab]) (s := s) (x := x) ?_ (fun hx => ?_); unfold x; rotate_left; clear_value x)
    | (intro x)
    | with_reducible refine Only.foldl (fun _ _ _ => ?_) ?_
    | ((with_reducible apply Only.step State.endRequest_only); rfl)
    | with_reducible refine Only.with_fab ?_ rfl

theorem State.cutWave_only {s : State} {a0 : Nat} {q : Ctx} {c : Coll} :
    Only [.log, .out, .can, .host, .cred, .seg, .colls, .sched, .grid, .fab] s (State.cutWave s a0 q c) := by
  unfold State.cutWave
  repeat' first
    | with_reducible assumption
    | with_reducible exact Only.refl _ _
    | (lift_lets -underBinder; intro x)
    | (intro x; refine Only.gen (ps := [.log, .out, .can, .host, .cred, .seg, .colls, .sched, .grid, .fab]) (s := s) (x := x) ?_ (fun hx => ?_); unfold x; rotate_left; clear_value x)
    | (intro x)
    | with_reducible refine Only.ite (fun _ => ?_) (fun _ => ?_)
    | ((with_reducible apply Only.step State.leaveStreams_only); rfl)
    | ((with_reducible apply Only.step State.forgetWaves_only); rfl)
    | ((with_reducible apply Only.step State.setCtx_only); rfl)
    | ((with_reducible apply Only.step State.endHomeWave_only); rfl)

theorem State.takeKind_only {s : State} {i ty kind : Nat} :
    Via inOptSnd [.fab] s (State.takeKind s i ty kind) := by
  unfold State.takeKind
  repeat' first
    | with_reducible exact Only.refl _ _
    | with_reducible refine Via.ite (fun _ => ?_) (fun _ => ?_)
    | with_reducible refine Only.step (Via.caseOptSnd State.take_only (by assumption)) rfl ?_
    | split
    | with_reducible refine Via.of rfl ?_
    | with_reducible exact Via.nil rfl

theorem execStampReq_only {i : Nat} {s : State} :
    Via inOut [.fab] s (execStampReq i s) := by
  unfold execStampReq
  repeat' first
    | with_reducible exact Only.refl _ _
    | with_reducible refine Only.step (Via.caseOptSnd State.takeKind_only (by assumption)) rfl ?_
    | ((with_reducible apply Only.step State.send_only); rfl)
    | split
    | with_reducible refine Via.of rfl ?_

theorem State.askStamp_only {s : State} {c : Coll} {g owner tag : Nat} :
    Only [.cred, .fab] s (State.askStamp s c g owner tag) := by
  unfold State.askStamp
  repeat' first
    | with_reducible exact Only.refl _ _
    | ((with_reducible apply Only.step State.request_only); rfl)

theorem State.stampLive_only {s : State} {key stamp : Nat} :
    Only [.host] s (State.stampLive s key stamp) := by
  unfold State.stampLive
  repeat' first
    | with_reducible exact Only.refl _ _
    | (lift_lets -underBinder; intro x)
    | ((with_reducible apply Only.step State.setLive_only); rfl)
    | split

theorem execRankingMerge_only {a0 : Nat} {s : State} :
    Via inOut [.log, .out, .can, .host, .cred, .seg, .colls, .sched, .grid, .fab] s (execRankingMerge a0 s) := by
  unfold execRankingMerge
  repeat' first
    | with_reducible exact Only.refl _ _
    | ((with_reducible apply Only.step State.endIncomplete_only); rfl)
    | ((with_reducible apply Only.step State.issueWave_only); rfl)
    | split
    | with_reducible refine Via.of rfl ?_

theorem State.stampQuery_only {s : State} {a0 stamp : Nat} :
    Only [.host, .cred, .sched, .grid, .fab] s (State.stampQuery s a0 stamp) := by
  unfold State.stampQuery
  repeat' first
    | with_reducible assumption
    | with_reducible exact Only.refl _ _
    | (lift_lets -underBinder; intro x; refine Only.gen (ps := [.host, .cred, .sched, .grid, .fab]) (s := s) (x := x) ?_ (fun hx => ?_); unfold x; rotate_left; clear_value x)
    | (intro x)
    | with_reducible refine Only.ite (fun _ => ?_) (fun _ => ?_)
    | ((with_reducible apply Only.step State.setLive_only); rfl)
    | ((with_reducible apply Only.step State.endQuery_only); rfl)
    | ((with_reducible apply Only.step State.setCtx_only); rfl)
    | ((with_reducible apply Only.step State.stopQuery_only); rfl)
    | ((with_reducible apply Only.step State.failLive_only); rfl)
    | split

theorem State.admitQuery_only {s : State} {f : Fetched} {c : Coll} :
    Only [.draws, .host, .cred, .sched, .grid, .fab] s (State.admitQuery s f c) := by
  unfold State.admitQuery
  repeat' first
    | with_reducible assumption
    | with_reducible exact Only.refl _ _
    | (lift_lets -underBinder; intro x; refine Only.gen (ps := [.draws, .host, .cred, .sched, .grid, .fab]) (s := s) (x := x) ?_ (fun hx => ?_); unfold x; rotate_left; clear_value x)
    | (lift_lets -underBinder; intro x)
    | (intro x; refine Only.gen (ps := [.draws, .host, .cred, .sched, .grid, .fab]) (s := s) (x := x) ?_ (fun hx => ?_); unfold x; rotate_left; clear_value x)
    | (intro x)
    | with_reducible refine Only.ite (fun _ => ?_) (fun _ => ?_)
    | with_reducible refine Only.step (Via.caseSnd State.takeIn_only (by assumption)) rfl ?_
    | with_reducible refine Only.step (Via.caseOptSnd State.newCtx_only (by assumption)) rfl ?_
    | ((with_reducible apply Only.step State.failLive_only); rfl)
    | ((with_reducible apply Only.step State.reserve_only); rfl)
    | ((with_reducible apply Only.step State.setLive_only); rfl)
    | ((with_reducible apply Only.step State.stampQuery_only); rfl)
    | ((with_reducible apply Only.step State.setCtx_only); rfl)
    | ((with_reducible apply Only.step State.askStamp_only); rfl)
    | split

theorem State.dispatchQuery_only {s : State} {a0 : Nat} :
    Only [.draws, .log, .out, .can, .host, .cred, .seg, .colls, .sched, .grid, .fab] s (State.dispatchQuery s a0) := by
  unfold State.dispatchQuery
  repeat' first
    | with_reducible assumption
    | with_reducible exact Only.refl _ _
    | (lift_lets -underBinder; intro x)
    | (intro x; refine Only.gen (ps := [.draws, .log, .out, .can, .host, .cred, .seg, .colls, .sched, .grid, .fab]) (s := s) (x := x) ?_ (fun hx => ?_); unfold x; rotate_left; clear_value x)
    | with_reducible refine Only.ite (fun _ => ?_) (fun _ => ?_)
    | with_reducible refine Only.step (Via.caseSnd State.takeSlots_only (by assumption)) rfl ?_
    | ((with_reducible apply Only.step (Via.get State.draw_only rfl)); rfl)
    | ((with_reducible apply Only.step State.startRanking_only); rfl)
    | ((with_reducible apply Only.step State.issueWave_only); rfl)
    | split

theorem execQueryDeadline_only {a0 : Nat} {s : State} :
    Via inOut [.log, .out, .can, .host, .cred, .seg, .colls, .sched, .grid, .fab] s (execQueryDeadline a0 s) := by
  unfold execQueryDeadline
  repeat' first
    | with_reducible exact Only.refl _ _
    | ((with_reducible apply Only.step State.endIncomplete_only); rfl)
    | ((with_reducible apply Only.step State.cutWave_only); rfl)
    | split
    | with_reducible refine Via.of rfl ?_

theorem State.stampShared_only {s : State} {owner stamp : Nat} :
    Only [.host, .cred, .sched, .grid, .fab] s (State.stampShared s owner stamp) := by
  unfold State.stampShared
  repeat' first
    | with_reducible assumption
    | with_reducible exact Only.refl _ _
    | with_reducible refine Only.foldl (fun _ _ _ => ?_) ?_
    | with_reducible refine Only.ite (fun _ => ?_) (fun _ => ?_)
    | ((with_reducible apply Only.step State.stampQuery_only); rfl)
    | split

theorem execQuery_only {s : State} :
    Via inOut [.draws, .host, .cred, .sched, .grid, .fab] s (execQuery s) := by
  unfold execQuery
  repeat' first
    | with_reducible exact Only.refl _ _
    | with_reducible refine Only.step (Via.caseOptSnd State.beginWork_only (by assumption)) rfl ?_
    | ((with_reducible apply Only.step State.refuse_only); rfl)
    | ((with_reducible apply Only.step State.admitQuery_only); rfl)
    | split
    | with_reducible refine Via.of rfl ?_

theorem execStampRsp_only {i : Nat} {s : State} :
    Via inOut [.host, .cred, .sched, .grid, .fab] s (execStampRsp i s) := by
  unfold execStampRsp
  repeat' first
    | with_reducible assumption
    | with_reducible exact Only.refl _ _
    | (lift_lets -underBinder; intro x; refine Only.gen (ps := [.host, .cred, .sched, .grid, .fab]) (s := s) (x := x) ?_ (fun hx => ?_); unfold x; rotate_left; clear_value x)
    | (intro x)
    | with_reducible refine Only.step (Via.caseOptSnd State.takeKind_only (by assumption)) rfl ?_
    | ((with_reducible apply Only.step State.lateResponse_only); rfl)
    | ((with_reducible apply Only.step State.endRequest_only); rfl)
    | ((with_reducible apply Only.step State.stampLive_only); rfl)
    | ((with_reducible apply Only.step State.stampShared_only); rfl)
    | split
    | with_reducible refine Via.of rfl ?_

end Sys2Proof.Machine
end

