-- ==== Sys2Proof/Laws/Only/Streams.lean ====
section
/-! SUPPORT. What each operation of Machine/Streams.lean may change. -/

namespace Sys2Proof.Machine

theorem State.freeBuffer_only {s : State} {t b : Nat} :
    Only [.cred, .grid] s (State.freeBuffer s t b) := by
  unfold State.freeBuffer
  repeat' first
    | exact fun _ h => tile_wf h _
    | with_reducible exact Only.refl _ _
    | (lift_lets -underBinder; intro x)
    | with_reducible refine Only.ite (fun _ => ?_) (fun _ => ?_)
    | with_reducible refine Only.setTile ?_ rfl ?_
    | ((with_reducible apply Only.step State.giveBack_only); rfl)

theorem State.releaseMeta_only {s : State} {t metaBuf : Nat} :
    Only [.cred, .grid] s (State.releaseMeta s t metaBuf) := by
  unfold State.releaseMeta
  repeat' first
    | with_reducible exact Only.refl _ _
    | with_reducible refine Only.ite (fun _ => ?_) (fun _ => ?_)
    | ((with_reducible apply Only.step State.freeBuffer_only); rfl)

theorem State.readSegment_only {s : State} {n : Nat} {found : Sys2Proof.BurstRead} {fromSlot : List Sys2Proof.Byte} :
    Via inRead [.log, .out, .can, .host, .cred, .seg, .colls, .sched, .pay] s (State.readSegment s n found fromSlot) := by
  unfold State.readSegment
  repeat' first
    | with_reducible exact Only.refl _ _
    | (lift_lets -underBinder; intro x)
    | with_reducible refine Via.ite (fun _ => ?_) (fun _ => ?_)
    | ((with_reducible apply Only.step State.want_only); rfl)
    | ((with_reducible apply Only.step State.emit_only); rfl)
    | ((with_reducible apply Only.step State.quarantine_only); rfl)
    | ((with_reducible apply Only.step State.touch_only); rfl)
    | ((with_reducible apply Only.step State.countCorrected_only); rfl)
    | split
    | with_reducible refine Via.of rfl ?_

theorem State.setStream_only {s : State} {i : Nat} {st : Option Stream} :
    Only [.sched] s (State.setStream s i st) := by
  unfold State.setStream
  try dsimp -zeta -proj only [State.set_sched]
  repeat' first
    | with_reducible exact Only.refl _ _
    | (lift_lets -underBinder; intro x)
    | with_reducible refine Only.with_sched ?_ rfl
    | split

theorem State.listIssue_only {s : State} {i : Nat} :
    Only [.cred, .seg, .sched] s (State.listIssue s i) := by
  unfold State.listIssue
  repeat' first
    | with_reducible assumption
    | with_reducible exact Only.refl _ _
    | (lift_lets -underBinder; intro x)
    | (intro x; refine Only.gen (ps := [.cred, .seg, .sched]) (s := s) (x := x) ?_ (fun hx => ?_); unfold x; rotate_left; clear_value x)
    | with_reducible refine Only.ite (fun _ => ?_) (fun _ => ?_)
    | ((with_reducible apply Only.step State.modSeg_only); rfl)
    | ((with_reducible apply Only.step State.reserve_only); rfl)
    | ((with_reducible apply Only.step State.setStream_only); rfl)
    | split

theorem State.returnTag_only {s : State} {st : Stream} :
    Only [.cred] s (State.returnTag s st) := by
  unfold State.returnTag
  repeat' first
    | with_reducible exact Only.refl _ _
    | ((with_reducible apply Only.step State.giveBack_only); rfl)
    | split

theorem State.payAll_only {s : State} {total : Nat} {bs : List Nat} :
    Only [.bw] s (State.payAll s total bs) := by
  unfold State.payAll
  repeat' first
    | with_reducible assumption
    | with_reducible exact Only.refl _ _
    | with_reducible refine Only.foldl (fun _ _ _ => ?_) ?_
    | with_reducible refine Only.getD ?_ ?_
    | ((with_reducible apply Via.step State.charge_only); rfl)

theorem State.deliverMeta_only {s : State} {c : Coll} {st : Stream} {n : Nat} {bytes : List Sys2Proof.Byte} {t : Nat} :
    Via inFst [.cred, .grid] s (State.deliverMeta s c st n bytes t) := by
  unfold State.deliverMeta
  repeat' first
    | exact fun _ h => tile_wf h _
    | with_reducible exact Only.refl _ _
    | (lift_lets -underBinder; intro x)
    | (intro x)
    | with_reducible refine Only.setTile ?_ rfl ?_
    | ((with_reducible apply Only.step State.reserve_only); rfl)
    | with_reducible refine Via.of rfl ?_

theorem State.deliverMetas_only {s : State} {c : Coll} {st : Stream} {n : Nat} {bytes : List Sys2Proof.Byte} {a0 : List Nat} :
    Via inFst [.cred, .grid] s (State.deliverMetas s c st n bytes a0) := by
  induction a0 generalizing s c st n bytes with
  | nil =>
    unfold State.deliverMetas
    repeat' first
      | with_reducible exact Only.refl _ _
      | with_reducible refine Via.of rfl ?_
  | cons _ _ ih =>
    unfold State.deliverMetas
    repeat' first
      | with_reducible exact Only.refl _ _
      | with_reducible refine Only.step (Via.caseFst ih (by assumption)) rfl ?_
      | with_reducible refine Only.step (Via.caseFst State.deliverMeta_only (by assumption)) rfl ?_
      | split
      | with_reducible refine Via.of rfl ?_

theorem State.finishStripe_only {s : State} {i : Nat} {st : Stream} :
    Only [.cred, .sched, .grid] s (State.finishStripe s i st) := by
  unfold State.finishStripe
  repeat' first
    | with_reducible assumption
    | with_reducible exact Only.refl _ _
    | (lift_lets -underBinder; intro x)
    | (intro x; refine Only.gen (ps := [.cred, .sched, .grid]) (s := s) (x := x) ?_ (fun hx => ?_); unfold x; rotate_left; clear_value x)
    | (intro x)
    | with_reducible refine Only.foldl (fun _ _ _ => ?_) ?_
    | ((with_reducible apply Only.step State.giveBack_only); rfl)
    | ((with_reducible apply Only.step State.setStream_only); rfl)
    | ((with_reducible apply Only.step State.returnTag_only); rfl)
    | ((with_reducible apply Only.step State.releaseMeta_only); rfl)
    | split

theorem State.metaArrives_only {s : State} {i : Nat} {st : Stream} {c : Coll} {n : Nat} {bytes : List Sys2Proof.Byte} :
    Only [.cred, .seg, .bw, .sched, .grid] s (State.metaArrives s i st c n bytes) := by
  unfold State.metaArrives
  repeat' first
    | with_reducible assumption
    | with_reducible exact Only.refl _ _
    | (lift_lets -underBinder; intro x)
    | (intro x; refine Only.gen (ps := [.cred, .seg, .bw, .sched, .grid]) (s := s) (x := x) ?_ (fun hx => ?_); unfold x; rotate_left; clear_value x)
    | (intro x)
    | with_reducible refine Only.ite (fun _ => ?_) (fun _ => ?_)
    | ((with_reducible apply Only.step State.returnTag_only); rfl)
    | ((with_reducible apply Only.step State.payAll_only); rfl)
    | ((with_reducible apply Only.step State.modSeg_only); rfl)
    | ((with_reducible apply Only.step (Via.get State.deliverMetas_only rfl)); rfl)
    | ((with_reducible apply Only.step State.setStream_only); rfl)
    | ((with_reducible apply Only.step State.finishStripe_only); rfl)

theorem State.deliverVec_only {s : State} {c : Coll} {st : Stream} {v : Nat} {bytes : List Sys2Proof.Byte} {tb : Nat × Nat} :
    Only [.cred, .grid] s (State.deliverVec s c st v bytes tb) := by
  unfold State.deliverVec
  repeat' first
    | exact fun _ h => tile_wf h _
    | with_reducible exact Only.refl _ _
    | (lift_lets -underBinder; intro x)
    | (intro x)
    | with_reducible refine Only.setTile ?_ rfl ?_
    | ((with_reducible apply Only.step State.reserve_only); rfl)

theorem State.loseList_only {s : State} {a0 l : Nat} :
    Only [.cred, .sched, .grid] s (State.loseList s a0 l) := by
  unfold State.loseList
  try dsimp -zeta -proj only [State.set_grid , State.set_sched]
  repeat' first
    | exact fun _ h e he => by obtain ⟨e', h1, rfl⟩ := List.mem_map.mp he; exact h e' h1
    | with_reducible assumption
    | with_reducible exact Only.refl _ _
    | (lift_lets -underBinder; intro x; refine Only.gen (ps := [.cred, .sched, .grid]) (s := s) (x := x) ?_ (fun hx => ?_); unfold x; rotate_left; clear_value x)
    | (lift_lets -underBinder; intro x)
    | (intro x; refine Only.gen (ps := [.cred, .sched, .grid]) (s := s) (x := x) ?_ (fun hx => ?_); unfold x; rotate_left; clear_value x)
    | (intro x)
    | with_reducible refine Only.foldl (fun _ _ _ => ?_) ?_
    | with_reducible refine Only.ite (fun _ => ?_) (fun _ => ?_)
    | ((with_reducible apply Only.step State.leaveStreams_only); rfl)
    | ((with_reducible apply Only.step State.giveBack_only); rfl)
    | ((with_reducible apply Only.step State.setCtx_only); rfl)
    | with_reducible refine Only.with_grid ?_ rfl ?_
    | with_reducible refine Only.with_sched ?_ rfl
    | split

theorem State.endStream_only {s : State} {i : Nat} {st : Stream} :
    Only [.cred, .sched, .grid] s (State.endStream s i st) := by
  unfold State.endStream
  repeat' first
    | with_reducible assumption
    | with_reducible exact Only.refl _ _
    | (lift_lets -underBinder; intro x; refine Only.gen (ps := [.cred, .sched, .grid]) (s := s) (x := x) ?_ (fun hx => ?_); unfold x; rotate_left; clear_value x)
    | with_reducible refine Only.foldl (fun _ _ _ => ?_) ?_
    | ((with_reducible apply Only.step State.setStream_only); rfl)
    | ((with_reducible apply Only.step State.returnTag_only); rfl)
    | ((with_reducible apply Only.step State.releaseMeta_only); rfl)

theorem State.streamDamaged_only {s : State} {st : Stream} :
    Only [.cred, .sched, .grid] s (State.streamDamaged s st) := by
  unfold State.streamDamaged
  repeat' first
    | with_reducible assumption
    | with_reducible exact Only.refl _ _
    | (lift_lets -underBinder; intro x)
    | (intro x; refine Only.gen (ps := [.cred, .sched, .grid]) (s := s) (x := x) ?_ (fun hx => ?_); unfold x; rotate_left; clear_value x)
    | with_reducible refine Only.foldl (fun _ _ _ => ?_) ?_
    | ((with_reducible apply Only.step State.loseList_only); rfl)
    | ((with_reducible apply Only.step State.modCtx_only); rfl)
    | ((with_reducible apply Only.step State.leaveStreams_only); rfl)
    | ((with_reducible apply Only.step State.endStream_only); rfl)
    | ((with_reducible apply Only.step State.releaseMeta_only); rfl)
    | ((with_reducible apply Only.step State.returnTag_only); rfl)
    | split

theorem State.vecArrives_only {s : State} {i : Nat} {st : Stream} {c : Coll} {v : Nat} {bytes : List Sys2Proof.Byte} :
    Only [.cred, .bw, .sched, .grid] s (State.vecArrives s i st c v bytes) := by
  unfold State.vecArrives
  repeat' first
    | with_reducible assumption
    | with_reducible exact Only.refl _ _
    | (lift_lets -underBinder; intro x)
    | (intro x; refine Only.gen (ps := [.cred, .bw, .sched, .grid]) (s := s) (x := x) ?_ (fun hx => ?_); unfold x; rotate_left; clear_value x)
    | (intro x)
    | with_reducible refine Only.foldl (fun _ _ _ => ?_) ?_
    | with_reducible refine Only.ite (fun _ => ?_) (fun _ => ?_)
    | ((with_reducible apply Only.step State.payAll_only); rfl)
    | ((with_reducible apply Only.step State.deliverVec_only); rfl)
    | ((with_reducible apply Only.step State.setStream_only); rfl)
    | ((with_reducible apply Only.step State.finishStripe_only); rfl)

theorem State.deliver_only {s : State} {i : Nat} {found : Sys2Proof.BurstRead} {fromSlot : List Sys2Proof.Byte} :
    Only [.log, .out, .can, .host, .cred, .seg, .bw, .colls, .sched, .grid, .pay] s (State.deliver s i found fromSlot) := by
  unfold State.deliver
  repeat' first
    | with_reducible exact Only.refl _ _
    | with_reducible refine Only.ite (fun _ => ?_) (fun _ => ?_)
    | ((with_reducible apply Only.step State.finishStripe_only); rfl)
    | with_reducible refine Only.step (Via.caseBytes State.readSegment_only (by assumption)) rfl ?_
    | with_reducible refine Only.step (Via.caseDamaged State.readSegment_only (by assumption)) rfl ?_
    | with_reducible refine Only.step (Via.caseWait State.readSegment_only (by assumption)) rfl ?_
    | ((with_reducible apply Only.step State.streamDamaged_only); rfl)
    | ((with_reducible apply Only.step State.metaArrives_only); rfl)
    | ((with_reducible apply Only.step State.quarantine_only); rfl)
    | ((with_reducible apply Only.step State.vecArrives_only); rfl)
    | split

theorem execNeedMask_only {t : Fin 256} {s : State} :
    Via inOut [.cred, .sched, .grid] s (execNeedMask t s) := by
  unfold execNeedMask
  repeat' first
    | with_reducible assumption
    | with_reducible exact Only.refl _ _
    | (lift_lets -underBinder; intro x)
    | (intro x; refine Only.gen (ps := [.cred, .sched, .grid]) (s := s) (x := x) ?_ (fun hx => ?_); unfold x; rotate_left; clear_value x)
    | (intro x)
    | ((with_reducible apply Only.step State.setStream_only); rfl)
    | ((with_reducible apply Only.step State.finishStripe_only); rfl)
    | split
    | with_reducible refine Via.of rfl ?_

theorem execListIssue_only {i : Nat} {s : State} :
    Via inOut [.cred, .seg, .sched] s (execListIssue i s) := by
  unfold execListIssue
  repeat' first
    | with_reducible exact Only.refl _ _
    | ((with_reducible apply Only.step State.listIssue_only); rfl)
    | with_reducible refine Via.of rfl ?_

theorem execSegmentDelivery_only {i : Nat} {found : Sys2Proof.BurstRead} {fromSlot : List Sys2Proof.Byte} {s : State} :
    Via inOut [.log, .out, .can, .host, .cred, .seg, .bw, .colls, .sched, .grid, .pay] s (execSegmentDelivery i found fromSlot s) := by
  unfold execSegmentDelivery
  repeat' first
    | with_reducible exact Only.refl _ _
    | ((with_reducible apply Only.step State.deliver_only); rfl)
    | with_reducible refine Via.of rfl ?_

end Sys2Proof.Machine
end

