-- ==== Sys2Proof/Laws/Only/Forager.lean ====
section
/-! SUPPORT. What each operation of Machine/Forager.lean may change. -/

namespace Sys2Proof.Machine

theorem State.markFault_only {s : State} {t kernel cause pc : Nat} :
    Only [.log, .out, .can, .host, .grid] s (State.markFault s t kernel cause pc) := by
  unfold State.markFault
  try dsimp -zeta -proj only [State.set_grid]
  repeat' first
    | exact fun _ h => tile_wf h _
    | with_reducible assumption
    | with_reducible exact Only.refl _ _
    | (lift_lets -underBinder; intro x)
    | (intro x; refine Only.gen (ps := [.log, .out, .can, .host, .grid]) (s := s) (x := x) ?_ (fun hx => ?_); unfold x; rotate_left; clear_value x)
    | (intro x)
    | with_reducible refine Only.setTile ?_ rfl ?_
    | ((with_reducible apply Only.step State.logEvent_only); rfl)
    | with_reducible refine Only.with_grid ?_ rfl ?_

theorem State.eventDone_only {s : State} {t : Nat} {e : TileEvent} :
    Only [.cred, .grid] s (State.eventDone s t e) := by
  unfold State.eventDone
  repeat' first
    | exact fun _ h => tile_wf h _
    | with_reducible exact Only.refl _ _
    | (lift_lets -underBinder; intro x)
    | (intro x)
    | with_reducible refine Only.ite (fun _ => ?_) (fun _ => ?_)
    | with_reducible refine Only.setTile ?_ rfl ?_
    | ((with_reducible apply Only.step State.releaseMeta_only); rfl)
    | ((with_reducible apply Only.step State.freeBuffer_only); rfl)
    | ((with_reducible apply Only.step State.giveBack_only); rfl)
    | split

theorem State.endInvocation_only {s : State} {t : Nat} :
    Only [.cred, .grid] s (State.endInvocation s t) := by
  unfold State.endInvocation
  repeat' first
    | exact fun _ h => tile_wf h _
    | with_reducible exact Only.refl _ _
    | (lift_lets -underBinder; intro x)
    | with_reducible refine Only.setTile ?_ rfl ?_
    | ((with_reducible apply Only.step State.eventDone_only); rfl)
    | split

theorem State.faultQuery_only {s : State} {t inv : Nat} {what : StreamOf} {a0 : Nat} :
    Only [.cred, .sched] s (State.faultQuery s t inv what a0) := by
  unfold State.faultQuery
  try dsimp -zeta -proj only [State.set_sched]
  repeat' first
    | with_reducible assumption
    | with_reducible exact Only.refl _ _
    | (lift_lets -underBinder; intro x)
    | (intro x; refine Only.gen (ps := [.cred, .sched]) (s := s) (x := x) ?_ (fun hx => ?_); unfold x; rotate_left; clear_value x)
    | (intro x)
    | with_reducible refine Only.foldl (fun _ _ _ => ?_) ?_
    | ((with_reducible apply Only.step State.giveBack_only); rfl)
    | ((with_reducible apply Only.step State.modCtx_only); rfl)
    | with_reducible refine Only.with_sched ?_ rfl

theorem State.kernelFault_only {s : State} {t cause : Nat} :
    Only [.log, .out, .can, .host, .cred, .sched, .grid] s (State.kernelFault s t cause) := by
  unfold State.kernelFault
  repeat' first
    | with_reducible assumption
    | with_reducible exact Only.refl _ _
    | (lift_lets -underBinder; intro x; refine Only.gen (ps := [.log, .out, .can, .host, .cred, .sched, .grid]) (s := s) (x := x) ?_ (fun hx => ?_); unfold x; rotate_left; clear_value x)
    | (lift_lets -underBinder; intro x)
    | (intro x)
    | with_reducible refine Only.foldl (fun _ _ _ => ?_) ?_
    | ((with_reducible apply Only.step State.markFault_only); rfl)
    | ((with_reducible apply Only.step State.endInvocation_only); rfl)
    | ((with_reducible apply Only.step State.faultQuery_only); rfl)
    | split

theorem State.postCand_only {s : State} {a0 : Nat} {q : Ctx} {c : Cand} :
    Only [.cred, .sched] s (State.postCand s a0 q c) := by
  unfold State.postCand
  try dsimp -zeta -proj only [State.set_sched]
  repeat' first
    | with_reducible exact Only.refl _ _
    | (lift_lets -underBinder; intro x)
    | ((with_reducible apply Only.step State.reserve_only); rfl)
    | with_reducible refine Only.with_sched ?_ rfl

theorem State.nextEvent_only {s : State} {t : Nat} {kind : TileEventKind} :
    Via inOptSnd [.grid] s (State.nextEvent s t kind) := by
  unfold State.nextEvent
  repeat' first
    | exact fun _ h => tile_wf h _
    | with_reducible exact Only.refl _ _
    | (lift_lets -underBinder; intro x)
    | with_reducible refine Via.ite (fun _ => ?_) (fun _ => ?_)
    | with_reducible refine Only.setTile ?_ rfl ?_
    | split
    | with_reducible refine Via.of rfl ?_
    | with_reducible exact Via.nil rfl

theorem State.call_only {s : State} {t : Nat} {e : TileEvent} {entry : Nat} {args : List (Nat × BitVec 32)} :
    Only [.draws, .grid] s (State.call s t e entry args) := by
  unfold State.call
  repeat' first
    | exact fun h _ => (Tile.call_wf (v := s.tile t) (draw := s.draws) (entry := entry) (args := args) (tile_wf h _))
    | with_reducible exact Only.refl _ _
    | (lift_lets -underBinder; intro x)
    | with_reducible refine Only.setTile ?_ rfl ?_
    | ((with_reducible apply Only.step (Via.get State.draw_only rfl)); rfl)

theorem State.simpleEvent_only {s : State} {t : Nat} {kind : TileEventKind} :
    Only [.draws, .cred, .grid] s (State.simpleEvent s t kind) := by
  unfold State.simpleEvent
  repeat' first
    | with_reducible exact Only.refl _ _
    | with_reducible refine Only.ite (fun _ => ?_) (fun _ => ?_)
    | with_reducible refine Only.step (Via.caseOptSnd State.nextEvent_only (by assumption)) rfl ?_
    | ((with_reducible apply Only.step State.eventDone_only); rfl)
    | ((with_reducible apply Only.step State.call_only); rfl)
    | split

theorem State.deliverMail_only {s : State} {t : Nat} :
    Only [.draws, .grid] s (State.deliverMail s t) := by
  unfold State.deliverMail
  repeat' first
    | exact fun _ h => tile_wf h _
    | with_reducible assumption
    | with_reducible exact Only.refl _ _
    | (lift_lets -underBinder; intro x)
    | (intro x; refine Only.gen (ps := [.draws, .grid]) (s := s) (x := x) ?_ (fun hx => ?_); unfold x; rotate_left; clear_value x)
    | (intro x)
    | with_reducible refine Only.ite (fun _ => ?_) (fun _ => ?_)
    | with_reducible refine Only.setTile ?_ rfl ?_
    | ((with_reducible apply Only.step (Via.get State.draw_only rfl)); rfl)
    | split

theorem execMsgEvent_only {t : Fin 256} {s : State} :
    Via inOut [.draws, .cred, .grid] s (execMsgEvent t s) := by
  unfold execMsgEvent
  repeat' first
    | with_reducible exact Only.refl _ _
    | ((with_reducible apply Only.step State.simpleEvent_only); rfl)
    | ((with_reducible apply Only.step State.deliverMail_only); rfl)
    | with_reducible refine Via.of rfl ?_

theorem execKernelTimeLimit_only {t : Fin 256} {s : State} :
    Via inOut [.log, .out, .can, .host, .cred, .sched, .grid] s (execKernelTimeLimit t s) := by
  unfold execKernelTimeLimit
  repeat' first
    | with_reducible exact Only.refl _ _
    | ((with_reducible apply Only.step State.kernelFault_only); rfl)
    | split
    | with_reducible refine Via.of rfl ?_

theorem State.consumePost_only {s : State} {n : Nat} :
    Only [.cred, .sched] s (State.consumePost s n) := by
  unfold State.consumePost
  try dsimp -zeta -proj only [State.set_sched]
  repeat' first
    | with_reducible assumption
    | with_reducible exact Only.refl _ _
    | (lift_lets -underBinder; intro x)
    | (intro x; refine Only.gen (ps := [.cred, .sched]) (s := s) (x := x) ?_ (fun hx => ?_); unfold x; rotate_left; clear_value x)
    | ((with_reducible apply Only.step State.giveBack_only); rfl)
    | ((with_reducible apply Only.step State.modCtx_only); rfl)
    | with_reducible refine Only.with_sched ?_ rfl
    | split

theorem execSorterPost_only {sorter : Fin 16} {s : State} :
    Via inOut [.cred, .sched] s (execSorterPost sorter s) := by
  unfold execSorterPost
  repeat' first
    | with_reducible exact Only.refl _ _
    | ((with_reducible apply Only.step State.consumePost_only); rfl)
    | with_reducible refine Via.of rfl ?_

theorem State.scanOne_only {s : State} {t : Nat} {e : TileEvent} {c : Coll} {i a0 slot : Nat} :
    Via inOpt [.cred, .sched] s (State.scanOne s t e c i a0 slot) := by
  unfold State.scanOne
  repeat' first
    | with_reducible exact Only.refl _ _
    | (lift_lets -underBinder; intro x)
    | (intro x)
    | with_reducible refine Via.ite (fun _ => ?_) (fun _ => ?_)
    | ((with_reducible apply Only.step State.postCand_only); rfl)
    | split
    | with_reducible refine Via.of rfl ?_
    | with_reducible exact Via.nil rfl

theorem State.scanAll_only {s : State} {t : Nat} {e : TileEvent} {c : Coll} {a0 : List (Nat × Nat × Nat)} {a1 : Nat} :
    Via inFst [.cred, .sched] s (State.scanAll s t e c a0 a1) := by
  induction a0 generalizing s t e c a1 with
  | nil =>
    unfold State.scanAll
    repeat' first
      | with_reducible exact Only.refl _ _
      | with_reducible refine Via.of rfl ?_
  | cons _ _ ih =>
    unfold State.scanAll
    repeat' first
      | with_reducible exact Only.refl _ _
      | ((with_reducible apply Via.step ih); rfl)
      | with_reducible refine Only.step (Via.caseOpt State.scanOne_only (by assumption)) rfl ?_
      | split
      | with_reducible refine Via.of rfl ?_

theorem State.scanEvent_only {s : State} {t : Nat} {e : TileEvent} {popped : State} (h : Only [.cred, .sched, .grid] s popped) :
    Only [.cred, .sched, .grid] s (State.scanEvent s t e popped) := by
  unfold State.scanEvent
  repeat' first
    | exact fun _ h => tile_wf h _
    | with_reducible assumption
    | with_reducible exact Only.refl _ _
    | with_reducible refine Only.ite (fun _ => ?_) (fun _ => ?_)
    | with_reducible refine Only.setTile ?_ rfl ?_
    | ((with_reducible apply Only.step State.eventDone_only); rfl)
    | ((with_reducible apply Only.step (Via.get State.scanAll_only rfl)); rfl)
    | split

theorem State.rankStandard_only {s : State} {t : Nat} {e : TileEvent} {c : Coll} :
    Only [.sched] s (State.rankStandard s t e c) := by
  unfold State.rankStandard
  repeat' first
    | with_reducible assumption
    | with_reducible exact Only.refl _ _
    | with_reducible refine Only.foldl (fun _ _ _ => ?_) ?_
    | ((with_reducible apply Only.step State.modCtx_only); rfl)

theorem execMetaEvent_only {t : Fin 256} {s : State} :
    Via inOut [.draws, .cred, .grid] s (execMetaEvent t s) := by
  unfold execMetaEvent
  repeat' first
    | with_reducible exact Only.refl _ _
    | ((with_reducible apply Only.step State.simpleEvent_only); rfl)
    | with_reducible refine Via.of rfl ?_

theorem execQueryIn_only {t : Fin 256} {s : State} :
    Via inOut [.draws, .cred, .grid] s (execQueryIn t s) := by
  unfold execQueryIn
  repeat' first
    | with_reducible exact Only.refl _ _
    | ((with_reducible apply Only.step State.simpleEvent_only); rfl)
    | with_reducible refine Via.of rfl ?_

theorem execRetire_only {t : Fin 256} {s : State} :
    Via inOut [.draws, .cred, .grid] s (execRetire t s) := by
  unfold execRetire
  repeat' first
    | with_reducible exact Only.refl _ _
    | ((with_reducible apply Only.step State.simpleEvent_only); rfl)
    | with_reducible refine Via.of rfl ?_

end Sys2Proof.Machine
end

