-- ==== Sys2Proof/Laws/Only/Ext.lean ====
section
/-! SUPPORT. What each operation of Machine/Ext.lean may change. -/

namespace Sys2Proof.Machine

theorem State.afterInstr_only {s : State} {t : Nat} {o : ExtOut} (h : Via inExt [.draws, .log, .out, .can, .host, .cred, .sched, .grid] s o) :
    Only [.draws, .log, .out, .can, .host, .cred, .sched, .grid] s (State.afterInstr s t o) := by
  unfold State.afterInstr
  repeat' first
    | exact h.only _ rfl
    | with_reducible exact Only.refl _ _
    | with_reducible refine Only.ite (fun _ => ?_) (fun _ => ?_)
    | ((with_reducible apply Only.step State.kernelFault_only); rfl)
    | ((with_reducible apply Only.step State.endInvocation_only); rfl)
    | split

theorem State.stepped_only {s : State} {t : Nat} {v : Tile} (h : (∀ e ∈ s.grid.tiles, Memory.wf 0 e.2.mem = true) → Memory.wf 0 v.mem = true) :
    Via inExt [.grid] s (State.stepped s t v) := by
  unfold State.stepped
  repeat' first
    | exact fun _ k => h k
    | with_reducible exact Only.refl _ _
    | with_reducible refine Only.setTile ?_ rfl ?_
    | with_reducible refine Via.of rfl ?_

theorem State.qsel_only {s : State} {t w : Nat} :
    Via inExt [.grid] s (State.qsel s t w) := by
  unfold State.qsel
  repeat' first
    | with_reducible refine Via.step (State.stepped_only ?_) rfl ?_
    | exact fun k => tile_wf k _
    | with_reducible exact Only.refl _ _

theorem State.arraySum_only {s : State} {t : Nat} {e : TileEvent} {w : Nat} {square : Bool} :
    Via inExt [.draws, .grid] s (State.arraySum s t e w square) := by
  unfold State.arraySum
  try dsimp -zeta -proj only [State.set_draws]
  repeat' first
    | with_reducible refine Via.step (State.stepped_only ?_) rfl ?_
    | (intro k; rw [Tile.foldl_mem fun v a => Tile.setAcc_mem _ _ _]; exact tile_wf k _)
    | with_reducible exact Only.refl _ _
    | (lift_lets -underBinder; intro x)
    | (intro x)
    | with_reducible refine Via.ite (fun _ => ?_) (fun _ => ?_)
    | with_reducible refine Only.with_draws ?_ rfl
    | split
    | with_reducible exact Via.nil rfl

theorem State.xdot_only {s : State} {t : Nat} {e : TileEvent} {w : Nat} :
    Via inExt [.draws, .grid] s (State.xdot s t e w) := by
  unfold State.xdot
  repeat' first
    | with_reducible exact Only.refl _ _
    | ((with_reducible apply Via.step State.arraySum_only); rfl)

theorem State.xdsq_only {s : State} {t : Nat} {e : TileEvent} {w : Nat} :
    Via inExt [.draws, .grid] s (State.xdsq s t e w) := by
  unfold State.xdsq
  repeat' first
    | with_reducible exact Only.refl _ _
    | ((with_reducible apply Via.step State.arraySum_only); rfl)

theorem State.xrd32_only {s : State} {t w : Nat} :
    Via inExt [.grid] s (State.xrd32 s t w) := by
  unfold State.xrd32
  repeat' first
    | with_reducible refine Via.step (State.stepped_only ?_) rfl ?_
    | (intro k; rw [Tile.setX_mem]; exact tile_wf k _)
    | with_reducible exact Only.refl _ _

theorem State.xrd64_only {s : State} {t w : Nat} :
    Via inExt [.grid] s (State.xrd64 s t w) := by
  unfold State.xrd64
  repeat' first
    | with_reducible refine Via.step (State.stepped_only ?_) rfl ?_
    | exact fun k => tile_wf k _
    | with_reducible exact Only.refl _ _

theorem State.xastat_only {s : State} {t w : Nat} :
    Via inExt [.grid] s (State.xastat s t w) := by
  unfold State.xastat
  repeat' first
    | with_reducible refine Via.step (State.stepped_only ?_) rfl ?_
    | (intro k; rw [Tile.setX_mem]; exact tile_wf k _)
    | with_reducible exact Only.refl _ _

theorem State.xfop_only {s : State} {t w : Nat} :
    Via inExt [.draws, .grid] s (State.xfop s t w) := by
  unfold State.xfop
  repeat' first
    | with_reducible refine Via.step (State.stepped_only ?_) rfl ?_
    | exact fun k => tile_wf k _
    | with_reducible exact Only.refl _ _
    | (lift_lets -underBinder; intro x)
    | ((with_reducible apply Only.step (Via.get State.draw_only rfl)); rfl)
    | split

theorem State.xf32_only {s : State} {t w : Nat} :
    Via inExt [.draws, .grid] s (State.xf32 s t w) := by
  unfold State.xf32
  repeat' first
    | with_reducible refine Via.step (State.stepped_only ?_) rfl ?_
    | (intro k; rw [Tile.setX_mem]; exact tile_wf k _)
    | with_reducible exact Only.refl _ _
    | (lift_lets -underBinder; intro x)
    | (intro x)
    | with_reducible refine Via.ite (fun _ => ?_) (fun _ => ?_)
    | ((with_reducible apply Only.step (Via.get State.draw_only rfl)); rfl)

theorem State.xfmvDx_only {s : State} {t w : Nat} :
    Via inExt [.grid] s (State.xfmvDx s t w) := by
  unfold State.xfmvDx
  repeat' first
    | with_reducible refine Via.step (State.stepped_only ?_) rfl ?_
    | exact fun k => tile_wf k _
    | with_reducible exact Only.refl _ _

theorem State.xfmvXd_only {s : State} {t w : Nat} :
    Via inExt [.grid] s (State.xfmvXd s t w) := by
  unfold State.xfmvXd
  repeat' first
    | with_reducible refine Via.step (State.stepped_only ?_) rfl ?_
    | (intro k; rw [Tile.setX_mem]; exact tile_wf k _)
    | with_reducible exact Only.refl _ _

theorem State.xfcmp_only {s : State} {t w : Nat} :
    Via inExt [.grid] s (State.xfcmp s t w) := by
  unfold State.xfcmp
  repeat' first
    | with_reducible refine Via.step (State.stepped_only ?_) rfl ?_
    | (intro k; rw [Tile.setX_mem]; exact tile_wf k _)
    | with_reducible exact Only.refl _ _

theorem State.xkey_only {s : State} {t w : Nat} :
    Via inExt [.grid] s (State.xkey s t w) := by
  unfold State.xkey
  repeat' first
    | with_reducible refine Via.step (State.stepped_only ?_) rfl ?_
    | (intro k; rw [Tile.setX_mem]; exact tile_wf k _)
    | with_reducible exact Only.refl _ _
    | (lift_lets -underBinder; intro x)
    | (intro x)
    | with_reducible refine Via.ite (fun _ => ?_) (fun _ => ?_)
    | with_reducible exact Via.nil rfl

theorem State.xfcv_only {s : State} {t w : Nat} :
    Via inExt [.grid] s (State.xfcv s t w) := by
  unfold State.xfcv
  repeat' first
    | with_reducible refine Via.step (State.stepped_only ?_) rfl ?_
    | exact fun k => tile_wf k _
    | with_reducible exact Only.refl _ _

theorem State.xpass_only {s : State} {t : Nat} {e : TileEvent} {w : Nat} :
    Via inExt [.grid] s (State.xpass s t e w) := by
  unfold State.xpass
  repeat' first
    | with_reducible refine Via.step (State.stepped_only ?_) rfl ?_
    | (intro k; rw [Tile.setX_mem]; exact tile_wf k _)
    | with_reducible exact Only.refl _ _

theorem State.xpclr_only {s : State} {t : Nat} {e : TileEvent} {w : Nat} :
    Via inExt [.grid] s (State.xpclr s t e w) := by
  unfold State.xpclr
  repeat' first
    | with_reducible refine Via.step (State.stepped_only ?_) rfl ?_
    | exact fun k => tile_wf k _
    | with_reducible exact Only.refl _ _
    | (lift_lets -underBinder; intro x)
    | (intro x)
    | with_reducible refine Via.ite (fun _ => ?_) (fun _ => ?_)
    | with_reducible exact Via.nil rfl

theorem State.xpost_only {s : State} {t : Nat} {e : TileEvent} {w : Nat} :
    Via inExt [.cred, .sched, .grid] s (State.xpost s t e w) := by
  unfold State.xpost
  repeat' first
    | with_reducible refine Via.step (State.stepped_only ?_) rfl ?_
    | (intro k; rw [Tile.setX_mem]; exact tile_wf k _)
    | with_reducible exact Only.refl _ _
    | (lift_lets -underBinder; intro x)
    | (intro x)
    | with_reducible refine Via.ite (fun _ => ?_) (fun _ => ?_)
    | ((with_reducible apply Only.step State.postCand_only); rfl)
    | split
    | with_reducible exact Via.nil rfl

theorem State.xmsend_only {s : State} {t : Nat} {e : TileEvent} {w : Nat} :
    Via inExt [.draws, .grid] s (State.xmsend s t e w) := by
  unfold State.xmsend
  repeat' first
    | with_reducible refine Via.step (State.stepped_only ?_) rfl ?_
    | (intro k; rw [Tile.setX_mem]; exact tile_wf k _)
    | with_reducible exact Only.refl _ _
    | (lift_lets -underBinder; intro x)
    | (intro x)
    | with_reducible refine Via.ite (fun _ => ?_) (fun _ => ?_)
    | ((with_reducible apply Only.step (Via.get State.draw_only rfl)); rfl)
    | split
    | with_reducible exact Via.nil rfl

theorem State.xmrecv_only {s : State} {t : Nat} {e : TileEvent} {w : Nat} :
    Via inExt [.grid] s (State.xmrecv s t e w) := by
  unfold State.xmrecv
  repeat' first
    | with_reducible refine Via.step (State.stepped_only ?_) rfl ?_
    | (intro k; rw [Tile.setX_mem]; exact tile_wf k _)
    | (intro k; rw [Tile.setX_mem]; exact (Tile.storeAt_wf (tile_wf k _) ‹Tile.storeAt _ _ _ _ = some _› :))
    | with_reducible exact Only.refl _ _
    | (lift_lets -underBinder; intro x)
    | split
    | with_reducible exact Via.nil rfl

theorem State.extRun_only {s : State} {t : Nat} {e : TileEvent} {o : ExtOp} {w : Nat} :
    Via inExt [.draws, .cred, .sched, .grid] s (State.extRun s t e o w) := by
  unfold State.extRun
  repeat' first
    | with_reducible exact Only.refl _ _
    | ((with_reducible apply Via.step State.qsel_only); rfl)
    | ((with_reducible apply Via.step State.xdot_only); rfl)
    | ((with_reducible apply Via.step State.xdsq_only); rfl)
    | ((with_reducible apply Via.step State.xrd32_only); rfl)
    | ((with_reducible apply Via.step State.xrd64_only); rfl)
    | ((with_reducible apply Via.step State.xastat_only); rfl)
    | ((with_reducible apply Via.step State.xfop_only); rfl)
    | ((with_reducible apply Via.step State.xf32_only); rfl)
    | ((with_reducible apply Via.step State.xfmvDx_only); rfl)
    | ((with_reducible apply Via.step State.xfmvXd_only); rfl)
    | ((with_reducible apply Via.step State.xfcmp_only); rfl)
    | ((with_reducible apply Via.step State.xkey_only); rfl)
    | ((with_reducible apply Via.step State.xfcv_only); rfl)
    | ((with_reducible apply Via.step State.xpass_only); rfl)
    | ((with_reducible apply Via.step State.xpclr_only); rfl)
    | ((with_reducible apply Via.step State.xpost_only); rfl)
    | ((with_reducible apply Via.step State.xmsend_only); rfl)
    | ((with_reducible apply Via.step State.xmrecv_only); rfl)
    | split

theorem State.extStep_only {s : State} {t : Nat} {o : ExtOp} :
    Only [.draws, .log, .out, .can, .host, .cred, .sched, .grid] s (State.extStep s t o) := by
  unfold State.extStep
  repeat' first
    | with_reducible refine Only.step (State.afterInstr_only ?_) rfl ?_
    | with_reducible exact Only.refl _ _
    | with_reducible refine Only.ite (fun _ => ?_) (fun _ => ?_)
    | ((with_reducible apply Via.step State.extRun_only); rfl)
    | split

theorem execXrd32_only {t : Fin 256} {s : State} :
    Via inOut [.draws, .log, .out, .can, .host, .cred, .sched, .grid] s (execXrd32 t s) := by
  unfold execXrd32
  repeat' first
    | with_reducible exact Only.refl _ _
    | ((with_reducible apply Only.step State.extStep_only); rfl)
    | with_reducible refine Via.of rfl ?_

theorem execXmsend_only {t : Fin 256} {s : State} :
    Via inOut [.draws, .log, .out, .can, .host, .cred, .sched, .grid] s (execXmsend t s) := by
  unfold execXmsend
  repeat' first
    | with_reducible exact Only.refl _ _
    | ((with_reducible apply Only.step State.extStep_only); rfl)
    | with_reducible refine Via.of rfl ?_

theorem State.anyInstr_only {s : State} {t : Nat} {e : TileEvent} :
    Via inExt [.draws, .cred, .sched, .grid] s (State.anyInstr s t e) := by
  unfold State.anyInstr
  repeat' first
    | exact fun _ k => State.rvExec_wf (tile_wf k _) (by assumption)
    | with_reducible exact Only.refl _ _
    | with_reducible refine Only.setTile ?_ rfl ?_
    | ((with_reducible apply Via.step State.extRun_only); rfl)
    | split
    | with_reducible refine Via.of rfl ?_
    | with_reducible exact Via.nil rfl

theorem State.runEntry_only {s : State} {t : Nat} {e : TileEvent} {a0 : Nat} :
    Via inFst [.draws, .cred, .sched, .grid] s (State.runEntry s t e a0) := by
  induction a0 generalizing s t e with
  | zero =>
    unfold State.runEntry
    repeat' first
      | with_reducible exact Only.refl _ _
      | with_reducible refine Via.of rfl ?_
  | succ _ ih =>
    unfold State.runEntry
    repeat' first
      | with_reducible exact Only.refl _ _
      | ((with_reducible apply Via.step ih); rfl)
      | with_reducible refine Via.ite (fun _ => ?_) (fun _ => ?_)
      | with_reducible refine Only.step (Via.caseExt State.anyInstr_only (by assumption)) rfl ?_
      | split
      | with_reducible refine Via.of rfl ?_

theorem State.callEntry_only {s : State} {t : Nat} {e : TileEvent} {entry : Nat} {args : List (Nat × BitVec 32)} :
    Via inFst [.draws, .cred, .sched, .grid] s (State.callEntry s t e entry args) := by
  unfold State.callEntry
  repeat' first
    | exact fun _ h => tile_wf h _
    | with_reducible assumption
    | with_reducible exact Only.refl _ _
    | (lift_lets -underBinder; intro x; refine Only.gen (ps := [.draws, .cred, .sched, .grid]) (s := s) (x := x) ?_ (fun hx => ?_); unfold x; rotate_left; clear_value x)
    | (lift_lets -underBinder; intro x)
    | with_reducible refine Only.setTile ?_ rfl ?_
    | ((with_reducible apply Only.step State.call_only); rfl)
    | with_reducible refine Only.step (Via.caseFst State.runEntry_only (by assumption)) rfl ?_
    | split
    | with_reducible refine Via.of rfl ?_

theorem State.boundCall_only {s : State} {t : Nat} {e : TileEvent} {c : Coll} {a0 slot i : Nat} :
    Only [.draws, .log, .out, .can, .host, .cred, .sched, .grid] s (State.boundCall s t e c a0 slot i) := by
  unfold State.boundCall
  repeat' first
    | with_reducible exact Only.refl _ _
    | (lift_lets -underBinder; intro x)
    | (intro x)
    | with_reducible refine Only.ite (fun _ => ?_) (fun _ => ?_)
    | with_reducible refine Only.step (Via.caseFst State.callEntry_only (by assumption)) rfl ?_
    | ((with_reducible apply Only.step State.modCtx_only); rfl)
    | ((with_reducible apply Only.step State.markFault_only); rfl)
    | split

theorem execXf32_only {t : Fin 256} {s : State} :
    Via inOut [.draws, .log, .out, .can, .host, .cred, .sched, .grid] s (execXf32 t s) := by
  unfold execXf32
  repeat' first
    | with_reducible exact Only.refl _ _
    | ((with_reducible apply Only.step State.extStep_only); rfl)
    | with_reducible refine Via.of rfl ?_

theorem State.coverCall_only {s : State} {t coll : Nat} {c : Coll} {bound centroid vec : List Sys2Proof.Byte} :
    Via inFst [.draws, .log, .out, .can, .host, .cred, .sched, .grid] s (State.coverCall s t coll c bound centroid vec) := by
  unfold State.coverCall
  repeat' first
    | with_reducible exact Only.refl _ _
    | (lift_lets -underBinder; intro x)
    | (intro x)
    | with_reducible refine Only.step (Via.caseFst State.callEntry_only (by assumption)) rfl ?_
    | ((with_reducible apply Only.step State.markFault_only); rfl)
    | split
    | with_reducible refine Via.of rfl ?_

theorem execXmrecv_only {t : Fin 256} {s : State} :
    Via inOut [.draws, .log, .out, .can, .host, .cred, .sched, .grid] s (execXmrecv t s) := by
  unfold execXmrecv
  repeat' first
    | with_reducible exact Only.refl _ _
    | ((with_reducible apply Only.step State.extStep_only); rfl)
    | with_reducible refine Via.of rfl ?_

theorem State.rankCustom_only {s : State} {t : Nat} {e : TileEvent} {c : Coll} :
    Only [.draws, .log, .out, .can, .host, .cred, .sched, .grid] s (State.rankCustom s t e c) := by
  unfold State.rankCustom
  repeat' first
    | with_reducible assumption
    | with_reducible exact Only.refl _ _
    | with_reducible refine Only.foldl (fun _ _ _ => ?_) ?_
    | with_reducible refine Only.ite (fun _ => ?_) (fun _ => ?_)
    | ((with_reducible apply Only.step State.boundCall_only); rfl)

theorem State.scoreEvent_only {s : State} {t : Nat} {kind : TileEventKind} :
    Only [.draws, .log, .out, .can, .host, .cred, .sched, .grid] s (State.scoreEvent s t kind) := by
  unfold State.scoreEvent
  repeat' first
    | with_reducible refine Only.step (State.scanEvent_only ?_) rfl ?_
    | with_reducible exact Only.refl _ _
    | with_reducible refine Only.ite (fun _ => ?_) (fun _ => ?_)
    | with_reducible refine Only.step (Via.caseOptSnd State.nextEvent_only (by assumption)) rfl ?_
    | ((with_reducible apply Only.step State.eventDone_only); rfl)
    | ((with_reducible apply Only.step State.rankCustom_only); rfl)
    | ((with_reducible apply Only.step State.rankStandard_only); rfl)
    | ((with_reducible apply Only.step State.call_only); rfl)
    | split

theorem execVec_only {t : Fin 256} {s : State} :
    Via inOut [.draws, .log, .out, .can, .host, .cred, .sched, .grid] s (execVec t s) := by
  unfold execVec
  repeat' first
    | with_reducible exact Only.refl _ _
    | ((with_reducible apply Only.step State.scoreEvent_only); rfl)
    | with_reducible refine Via.of rfl ?_

theorem State.baseStep_only {s : State} {t : Nat} :
    Only [.draws, .log, .out, .can, .host, .cred, .sched, .grid] s (State.baseStep s t) := by
  unfold State.baseStep
  repeat' first
    | with_reducible refine Only.step (State.afterInstr_only ?_) rfl ?_
    | with_reducible exact Only.refl _ _
    | with_reducible refine Only.ite (fun _ => ?_) (fun _ => ?_)
    | ((with_reducible apply Via.step State.anyInstr_only); rfl)
    | split

theorem execRv32imcInstruction_only {t : Fin 256} {s : State} :
    Via inOut [.draws, .log, .out, .can, .host, .cred, .sched, .grid] s (execRv32imcInstruction t s) := by
  unfold execRv32imcInstruction
  repeat' first
    | with_reducible exact Only.refl _ _
    | ((with_reducible apply Only.step State.baseStep_only); rfl)
    | with_reducible refine Via.of rfl ?_

theorem execPblock_only {t : Fin 256} {s : State} :
    Via inOut [.draws, .log, .out, .can, .host, .cred, .sched, .grid] s (execPblock t s) := by
  unfold execPblock
  repeat' first
    | with_reducible exact Only.refl _ _
    | ((with_reducible apply Only.step State.scoreEvent_only); rfl)
    | with_reducible refine Via.of rfl ?_

theorem execQsel_only {t : Fin 256} {s : State} :
    Via inOut [.draws, .log, .out, .can, .host, .cred, .sched, .grid] s (execQsel t s) := by
  unfold execQsel
  repeat' first
    | with_reducible exact Only.refl _ _
    | ((with_reducible apply Only.step State.extStep_only); rfl)
    | with_reducible refine Via.of rfl ?_

theorem execXdot_only {t : Fin 256} {s : State} :
    Via inOut [.draws, .log, .out, .can, .host, .cred, .sched, .grid] s (execXdot t s) := by
  unfold execXdot
  repeat' first
    | with_reducible exact Only.refl _ _
    | ((with_reducible apply Only.step State.extStep_only); rfl)
    | with_reducible refine Via.of rfl ?_

theorem execXpass_only {t : Fin 256} {s : State} :
    Via inOut [.draws, .log, .out, .can, .host, .cred, .sched, .grid] s (execXpass t s) := by
  unfold execXpass
  repeat' first
    | with_reducible exact Only.refl _ _
    | ((with_reducible apply Only.step State.extStep_only); rfl)
    | with_reducible refine Via.of rfl ?_

theorem execXpost_only {t : Fin 256} {s : State} :
    Via inOut [.draws, .log, .out, .can, .host, .cred, .sched, .grid] s (execXpost t s) := by
  unfold execXpost
  repeat' first
    | with_reducible exact Only.refl _ _
    | ((with_reducible apply Only.step State.extStep_only); rfl)
    | with_reducible refine Via.of rfl ?_

theorem execXastat_only {t : Fin 256} {s : State} :
    Via inOut [.draws, .log, .out, .can, .host, .cred, .sched, .grid] s (execXastat t s) := by
  unfold execXastat
  repeat' first
    | with_reducible exact Only.refl _ _
    | ((with_reducible apply Only.step State.extStep_only); rfl)
    | with_reducible refine Via.of rfl ?_

theorem execXdsq_only {t : Fin 256} {s : State} :
    Via inOut [.draws, .log, .out, .can, .host, .cred, .sched, .grid] s (execXdsq t s) := by
  unfold execXdsq
  repeat' first
    | with_reducible exact Only.refl _ _
    | ((with_reducible apply Only.step State.extStep_only); rfl)
    | with_reducible refine Via.of rfl ?_

theorem execXpclr_only {t : Fin 256} {s : State} :
    Via inOut [.draws, .log, .out, .can, .host, .cred, .sched, .grid] s (execXpclr t s) := by
  unfold execXpclr
  repeat' first
    | with_reducible exact Only.refl _ _
    | ((with_reducible apply Only.step State.extStep_only); rfl)
    | with_reducible refine Via.of rfl ?_

theorem execXfcmp_only {t : Fin 256} {s : State} :
    Via inOut [.draws, .log, .out, .can, .host, .cred, .sched, .grid] s (execXfcmp t s) := by
  unfold execXfcmp
  repeat' first
    | with_reducible exact Only.refl _ _
    | ((with_reducible apply Only.step State.extStep_only); rfl)
    | with_reducible refine Via.of rfl ?_

theorem execXkey_only {t : Fin 256} {s : State} :
    Via inOut [.draws, .log, .out, .can, .host, .cred, .sched, .grid] s (execXkey t s) := by
  unfold execXkey
  repeat' first
    | with_reducible exact Only.refl _ _
    | ((with_reducible apply Only.step State.extStep_only); rfl)
    | with_reducible refine Via.of rfl ?_

theorem execXfmvXd_only {t : Fin 256} {s : State} :
    Via inOut [.draws, .log, .out, .can, .host, .cred, .sched, .grid] s (execXfmvXd t s) := by
  unfold execXfmvXd
  repeat' first
    | with_reducible exact Only.refl _ _
    | ((with_reducible apply Only.step State.extStep_only); rfl)
    | with_reducible refine Via.of rfl ?_

theorem execXrd64_only {t : Fin 256} {s : State} :
    Via inOut [.draws, .log, .out, .can, .host, .cred, .sched, .grid] s (execXrd64 t s) := by
  unfold execXrd64
  repeat' first
    | with_reducible exact Only.refl _ _
    | ((with_reducible apply Only.step State.extStep_only); rfl)
    | with_reducible refine Via.of rfl ?_

theorem execXfop_only {t : Fin 256} {s : State} :
    Via inOut [.draws, .log, .out, .can, .host, .cred, .sched, .grid] s (execXfop t s) := by
  unfold execXfop
  repeat' first
    | with_reducible exact Only.refl _ _
    | ((with_reducible apply Only.step State.extStep_only); rfl)
    | with_reducible refine Via.of rfl ?_

theorem execXfcv_only {t : Fin 256} {s : State} :
    Via inOut [.draws, .log, .out, .can, .host, .cred, .sched, .grid] s (execXfcv t s) := by
  unfold execXfcv
  repeat' first
    | with_reducible exact Only.refl _ _
    | ((with_reducible apply Only.step State.extStep_only); rfl)
    | with_reducible refine Via.of rfl ?_

theorem execXfmvDx_only {t : Fin 256} {s : State} :
    Via inOut [.draws, .log, .out, .can, .host, .cred, .sched, .grid] s (execXfmvDx t s) := by
  unfold execXfmvDx
  repeat' first
    | with_reducible exact Only.refl _ _
    | ((with_reducible apply Only.step State.extStep_only); rfl)
    | with_reducible refine Via.of rfl ?_

end Sys2Proof.Machine
end

