-- ==== Sys2Proof/Laws/Only/Mutations.lean ====
section
/-! SUPPORT. What each operation of Machine/Mutations.lean may change. -/

namespace Sys2Proof.Machine

theorem State.modSeqr_only {s : State} {g : Nat} {f : Sequencer → Sequencer} :
    Only [.colls] s (State.modSeqr s g f) := by
  unfold State.modSeqr
  repeat' first
    | with_reducible exact Only.refl _ _
    | ((with_reducible apply Only.step State.modColl_only); rfl)

theorem State.resendRevokes_only {s : State} {p : Nat → Bool} :
    Only [.cred, .colls, .fab] s (State.resendRevokes s p) := by
  unfold State.resendRevokes
  repeat' first
    | with_reducible assumption
    | with_reducible exact Only.refl _ _
    | (lift_lets -underBinder; intro x)
    | (intro x; refine Only.gen (ps := [.cred, .colls, .fab]) (s := s) (x := x) ?_ (fun hx => ?_); unfold x; rotate_left; clear_value x)
    | with_reducible refine Only.foldl (fun _ _ _ => ?_) ?_
    | ((with_reducible apply Only.step State.modSeqr_only); rfl)
    | ((with_reducible apply Only.step State.requestFor_only); rfl)
    | split

theorem State.flushItem_only {s : State} {it : Buffered} :
    Only [.out, .mem] s (State.flushItem s it) := by
  unfold State.flushItem
  repeat' first
    | with_reducible exact Only.refl _ _
    | (lift_lets -underBinder; intro x)
    | ((with_reducible apply Only.step State.writeFrame_only); rfl)
    | ((with_reducible apply Only.step State.emit_only); rfl)
    | split

theorem State.flushStash_only {s : State} {g : Nat} :
    Only [.out, .mem, .bw, .colls, .stash] s (State.flushStash s g) := by
  unfold State.flushStash
  try dsimp -zeta -proj only [State.set_stash]
  repeat' first
    | with_reducible assumption
    | with_reducible exact Only.refl _ _
    | (lift_lets -underBinder; intro x)
    | (intro x; refine Only.gen (ps := [.out, .mem, .bw, .colls, .stash]) (s := s) (x := x) ?_ (fun hx => ?_); unfold x; rotate_left; clear_value x)
    | (intro x)
    | with_reducible refine Only.foldl (fun _ _ _ => ?_) ?_
    | ((with_reducible apply Only.step State.chargeUpTo_only); rfl)
    | ((with_reducible apply Only.step State.flushItem_only); rfl)
    | ((with_reducible apply Only.step State.setColl_only); rfl)
    | with_reducible refine Only.with_stash ?_ rfl
    | split

theorem State.doneMut_only {s : State} {tag status seq : Nat} :
    Only [.host, .cred] s (State.doneMut s tag status seq) := by
  unfold State.doneMut
  repeat' first
    | with_reducible exact Only.refl _ _
    | ((with_reducible apply Only.step State.done_only); rfl)
    | split

theorem State.answerMut_only {s : State} {g device tag status seq : Nat} :
    Only [.host, .cred, .fab] s (State.answerMut s g device tag status seq) := by
  unfold State.answerMut
  repeat' first
    | with_reducible exact Only.refl _ _
    | with_reducible refine Only.ite (fun _ => ?_) (fun _ => ?_)
    | ((with_reducible apply Only.step State.doneMut_only); rfl)
    | ((with_reducible apply Only.step State.send_only); rfl)

theorem State.startRevoke_only {s : State} {g : Nat} {m : InFlight} :
    Only [.host, .cred, .colls, .fab] s (State.startRevoke s g m) := by
  unfold State.startRevoke
  repeat' first
    | with_reducible assumption
    | with_reducible exact Only.refl _ _
    | (lift_lets -underBinder; intro x; refine Only.gen (ps := [.host, .cred, .colls, .fab]) (s := s) (x := x) ?_ (fun hx => ?_); unfold x; rotate_left; clear_value x)
    | with_reducible refine Only.foldl (fun _ _ _ => ?_) ?_
    | with_reducible refine Only.ite (fun _ => ?_) (fun _ => ?_)
    | ((with_reducible apply Only.step State.answerMut_only); rfl)
    | ((with_reducible apply Only.step State.modSeqr_only); rfl)
    | ((with_reducible apply Only.step State.requestFor_only); rfl)

theorem State.sequenceAudit_only {s : State} {g : Nat} :
    Only [.boot, .log, .out, .can, .host, .colls] s (State.sequenceAudit s g) := by
  unfold State.sequenceAudit
  try dsimp -zeta -proj only [State.set_boot]
  repeat' first
    | with_reducible assumption
    | with_reducible exact Only.refl _ _
    | (lift_lets -underBinder; intro x)
    | (intro x; refine Only.gen (ps := [.boot, .log, .out, .can, .host, .colls]) (s := s) (x := x) ?_ (fun hx => ?_); unfold x; rotate_left; clear_value x)
    | with_reducible refine Only.ite (fun _ => ?_) (fun _ => ?_)
    | ((with_reducible apply Only.step State.logEvent_only); rfl)
    | ((with_reducible apply Only.step State.setColl_only); rfl)
    | with_reducible refine Only.with_boot ?_ rfl
    | split

theorem State.commit_only {s : State} {g : Nat} {q : Sequencer} {m : InFlight} :
    Only [.boot, .log, .out, .can, .host, .cred, .colls, .fab] s (State.commit s g q m) := by
  unfold State.commit
  repeat' first
    | with_reducible assumption
    | with_reducible exact Only.refl _ _
    | (lift_lets -underBinder; intro x)
    | (intro x; refine Only.gen (ps := [.boot, .log, .out, .can, .host, .cred, .colls, .fab]) (s := s) (x := x) ?_ (fun hx => ?_); unfold x; rotate_left; clear_value x)
    | ((with_reducible apply Only.step State.modSeqr_only); rfl)
    | ((with_reducible apply Only.step State.sequenceAudit_only); rfl)
    | ((with_reducible apply Only.step State.answerMut_only); rfl)

theorem State.settleWrites_only {s : State} {g : Nat} :
    Only [.boot, .log, .out, .can, .host, .cred, .colls, .fab] s (State.settleWrites s g) := by
  unfold State.settleWrites
  repeat' first
    | with_reducible exact Only.refl _ _
    | with_reducible refine Only.ite (fun _ => ?_) (fun _ => ?_)
    | ((with_reducible apply Only.step State.startRevoke_only); rfl)
    | ((with_reducible apply Only.step State.commit_only); rfl)
    | split

theorem State.writeAnswered_only {s : State} {g : Nat} {stash : Bool} {status : Nat} :
    Only [.boot, .log, .out, .can, .host, .cred, .colls, .fab] s (State.writeAnswered s g stash status) := by
  unfold State.writeAnswered
  repeat' first
    | with_reducible exact Only.refl _ _
    | ((with_reducible apply Only.step State.settleWrites_only); rfl)
    | ((with_reducible apply Only.step State.modSeqr_only); rfl)

theorem State.takeAck_only {s : State} {i ty request : Nat} {stash : Bool} :
    Only [.boot, .log, .out, .can, .host, .cred, .colls, .fab] s (State.takeAck s i ty request stash) := by
  unfold State.takeAck
  repeat' first
    | with_reducible exact Only.refl _ _
    | with_reducible refine Only.step (Via.caseOptSnd State.take_only (by assumption)) rfl ?_
    | ((with_reducible apply Only.step State.lateResponse_only); rfl)
    | ((with_reducible apply Only.step State.writeAnswered_only); rfl)
    | ((with_reducible apply Only.step State.endRequest_only); rfl)
    | split

theorem State.sendWrites_only {s : State} {g : Nat} {r : MutReq} {n owner : Nat} {rec vec : List Sys2Proof.Byte} {kill : Option (Nat × Nat)} :
    Only [.cred, .colls, .fab] s (State.sendWrites s g r n owner rec vec kill) := by
  unfold State.sendWrites
  repeat' first
    | with_reducible assumption
    | with_reducible exact Only.refl _ _
    | (lift_lets -underBinder; intro x)
    | (intro x; refine Only.gen (ps := [.cred, .colls, .fab]) (s := s) (x := x) ?_ (fun hx => ?_); unfold x; rotate_left; clear_value x)
    | (intro x)
    | ((with_reducible apply Only.step State.modSeqr_only); rfl)
    | ((with_reducible apply Only.step State.requestFor_only); rfl)
    | split

theorem State.pokeBlock_only {s : State} {t i link : Nat} :
    Only [.grid] s (State.pokeBlock s t i link) := by
  unfold State.pokeBlock
  repeat' first
    | exact fun _ h => tile_wf h _
    | with_reducible exact Only.refl _ _
    | (lift_lets -underBinder; intro x)
    | with_reducible refine Only.setTile ?_ rfl ?_

theorem State.pokeLink_only {s : State} {at_ : Bool × Nat × Nat} {link : Nat} :
    Only [.out, .mem, .seg, .stash, .grid] s (State.pokeLink s at_ link) := by
  unfold State.pokeLink
  repeat' first
    | with_reducible assumption
    | with_reducible exact Only.refl _ _
    | (lift_lets -underBinder; intro x)
    | (intro x; refine Only.gen (ps := [.out, .mem, .seg, .stash, .grid]) (s := s) (x := x) ?_ (fun hx => ?_); unfold x; rotate_left; clear_value x)
    | with_reducible refine Only.ite (fun _ => ?_) (fun _ => ?_)
    | ((with_reducible apply Only.step State.pokeBlock_only); rfl)
    | ((with_reducible apply Only.step State.setSeg_only); rfl)
    | ((with_reducible apply Only.step State.poke_only); rfl)

theorem State.unkillAt_only {s : State} {n : Nat} {at_ : Bool × Nat × Nat} :
    Via inOpt [.out, .mem, .seg, .stash, .grid] s (State.unkillAt s n at_) := by
  unfold State.unkillAt
  repeat' first
    | with_reducible exact Only.refl _ _
    | (lift_lets -underBinder; intro x)
    | with_reducible refine Via.ite (fun _ => ?_) (fun _ => ?_)
    | ((with_reducible apply Only.step State.pokeBlock_only); rfl)
    | ((with_reducible apply Only.step State.setSeg_only); rfl)
    | ((with_reducible apply Only.step State.pokeLink_only); rfl)
    | with_reducible refine Via.of rfl ?_
    | with_reducible exact Via.nil rfl

theorem State.unkill_only {s : State} {c : Coll} {n : Nat} :
    Via inOpt [.out, .mem, .seg, .stash, .grid] s (State.unkill s c n) := by
  unfold State.unkill
  repeat' first
    | with_reducible assumption
    | with_reducible exact Only.refl _ _
    | with_reducible refine Via.bind rfl ?_ (fun _ _ => ?_)
    | with_reducible refine Via.foldl (fun _ _ _ => ?_) ?_
    | ((with_reducible apply Via.step State.unkillAt_only); rfl)
    | with_reducible refine Via.of rfl ?_

theorem State.invalidate_only {s : State} {c : Coll} {n : Nat} :
    Only [.out, .mem, .stash] s (State.invalidate s c n) := by
  unfold State.invalidate
  repeat' first
    | with_reducible exact Only.refl _ _
    | (lift_lets -underBinder; intro x)
    | ((with_reducible apply Only.step State.poke_only); rfl)
    | split

theorem execRevoke_only {i : Nat} {s : State} :
    Via inOut [.out, .mem, .seg, .colls, .stash, .grid, .fab] s (execRevoke i s) := by
  unfold execRevoke
  repeat' first
    | with_reducible exact Only.refl _ _
    | (lift_lets -underBinder; intro x)
    | (intro x)
    | with_reducible refine Only.step (Via.caseOptSnd State.take_only (by assumption)) rfl ?_
    | ((with_reducible apply Only.step State.send_only); rfl)
    | with_reducible refine Only.step (Via.caseOpt State.unkill_only (by assumption)) rfl ?_
    | ((with_reducible apply Only.step State.modColl_only); rfl)
    | ((with_reducible apply Only.step State.invalidate_only); rfl)
    | split
    | with_reducible refine Via.of rfl ?_

theorem State.modLive_only {s : State} {key : Nat} {f : Live → Live} :
    Only [.host] s (State.modLive s key f) := by
  unfold State.modLive
  repeat' first
    | with_reducible exact Only.refl _ _
    | ((with_reducible apply Only.step State.setLive_only); rfl)
    | split

theorem State.admitMutation_only {s : State} {op : Nat} :
    Only [.host, .cred, .sched] s (State.admitMutation s op) := by
  unfold State.admitMutation
  repeat' first
    | with_reducible exact Only.refl _ _
    | with_reducible refine Only.ite (fun _ => ?_) (fun _ => ?_)
    | with_reducible refine Only.step (Via.caseOptSnd State.beginWork_only (by assumption)) rfl ?_
    | ((with_reducible apply Only.step State.refuse_only); rfl)
    | ((with_reducible apply Only.step (Via.get State.takeIn_only rfl)); rfl)
    | ((with_reducible apply Only.step State.modLive_only); rfl)
    | ((with_reducible apply Only.step State.reserve_only); rfl)
    | split

theorem execDelete_only {s : State} :
    Via inOut [.host, .cred, .sched] s (execDelete s) := by
  unfold execDelete
  repeat' first
    | with_reducible exact Only.refl _ _
    | ((with_reducible apply Only.step State.admitMutation_only); rfl)
    | with_reducible refine Via.of rfl ?_

theorem State.tableSpace_only {s : State} {c : Coll} {g kind entries : Nat} {held : List Nat} :
    Via inOptSnd [.draws, .seg] s (State.tableSpace s c g kind entries held) := by
  unfold State.tableSpace
  repeat' first
    | with_reducible exact Only.refl _ _
    | with_reducible refine Via.map rfl (fun _ _ => ?_)
    | with_reducible refine Via.ite (fun _ => ?_) (fun _ => ?_)
    | with_reducible refine Only.step (Via.caseOptSnd State.alloc_only (by assumption)) rfl ?_
    | with_reducible refine Via.of rfl ?_

theorem State.idSpace_only {s : State} {g : Nat} {c : Coll} {q : Sequencer} {needed : Bool} :
    Via inOpt [.draws, .seg, .colls] s (State.idSpace s g c q needed) := by
  unfold State.idSpace
  repeat' first
    | with_reducible exact Only.refl _ _
    | with_reducible refine Via.map rfl (fun _ _ => ?_)
    | with_reducible refine Via.ite (fun _ => ?_) (fun _ => ?_)
    | ((with_reducible apply Only.step State.modColl_only); rfl)
    | with_reducible refine Only.step (Via.caseOptSnd State.tableSpace_only (by assumption)) rfl ?_
    | with_reducible refine Via.of rfl ?_

theorem State.assignedList_only {s : State} {c : Coll} {vec : List Sys2Proof.Byte} :
    Via inSnd [.draws] s (State.assignedList s c vec) := by
  unfold State.assignedList
  repeat' first
    | with_reducible exact Only.refl _ _
    | (lift_lets -underBinder; intro x)
    | (intro x)
    | with_reducible refine Via.ite (fun _ => ?_) (fun _ => ?_)
    | ((with_reducible apply Only.step (Via.get State.draw_only rfl)); rfl)
    | with_reducible refine Via.of rfl ?_

theorem State.acceptMutation_only {s : State} {g : Nat} {c : Coll} {q : Sequencer} {r : MutReq} :
    Only [.draws, .host, .cred, .seg, .colls, .fab] s (State.acceptMutation s g c q r) := by
  unfold State.acceptMutation
  repeat' first
    | with_reducible exact Only.refl _ _
    | (lift_lets -underBinder; intro x)
    | (intro x)
    | with_reducible refine Only.ite (fun _ => ?_) (fun _ => ?_)
    | ((with_reducible apply Only.step State.answerMut_only); rfl)
    | with_reducible refine Only.step (Via.caseOpt State.idSpace_only (by assumption)) rfl ?_
    | ((with_reducible apply Only.step State.sendWrites_only); rfl)
    | ((with_reducible apply Only.step (Via.get State.assignedList_only rfl)); rfl)
    | split

theorem State.buffer_only {s : State} {g seg off : Nat} {bytes : List Sys2Proof.Byte} :
    Only [.stash] s (State.buffer s g seg off bytes) := by
  unfold State.buffer
  try dsimp -zeta -proj only [State.set_stash]
  repeat' first
    | with_reducible exact Only.refl _ _
    | (lift_lets -underBinder; intro x)
    | (intro x)
    | with_reducible refine Only.with_stash ?_ rfl

theorem State.startStash_only {s : State} {n root : Nat} :
    Only [.mem] s (State.startStash s n root) := by
  unfold State.startStash
  repeat' first
    | with_reducible exact Only.refl _ _
    | with_reducible refine Only.ite (fun _ => ?_) (fun _ => ?_)
    | ((with_reducible apply Only.step State.segWrite_only); rfl)

theorem State.stashStripe_only {s : State} {g : Nat} {c : Coll} :
    Via inOptLast [.draws, .mem, .seg, .stash] s (State.stashStripe s g c) := by
  unfold State.stashStripe
  repeat' first
    | with_reducible assumption
    | with_reducible exact Only.refl _ _
    | (lift_lets -underBinder; intro x; refine Only.gen (ps := [.draws, .mem, .seg, .stash]) (s := s) (x := x) ?_ (fun hx => ?_); unfold x; rotate_left; clear_value x)
    | (lift_lets -underBinder; intro x)
    | (intro x; refine Only.gen (ps := [.draws, .mem, .seg, .stash]) (s := s) (x := x) ?_ (fun hx => ?_); unfold x; rotate_left; clear_value x)
    | (intro x)
    | with_reducible refine Via.map rfl (fun _ _ => ?_)
    | with_reducible refine Via.ite (fun _ => ?_) (fun _ => ?_)
    | ((with_reducible apply Only.step State.buffer_only); rfl)
    | ((with_reducible apply Only.step State.startStash_only); rfl)
    | with_reducible refine Only.step (Via.caseOptSnd State.alloc_only (by assumption)) rfl ?_
    | split
    | with_reducible refine Via.of rfl ?_

theorem State.appendStash_only {s : State} {g : Nat} {c : Coll} {rec vec : List Sys2Proof.Byte} :
    Via inOpt [.draws, .mem, .seg, .colls, .stash] s (State.appendStash s g c rec vec) := by
  unfold State.appendStash
  split
  · exact Via.nil rfl
  · rename_i n h c' s' h1
    have k1 := Only.step (Via.caseOptLast State.stashStripe_only h1) rfl (Only.refl [.draws, .mem, .seg, .colls, .stash] _)
    extract_lets -underBinder e i seq vecs space
    have k2 : Via inOptSnd [.draws, .mem, .seg, .colls, .stash] s space := by
      unfold space
      split
      · exact Via.map rfl fun p hp => Via.of rfl (Only.step (Via.elim State.alloc_only hp rfl) rfl k1)
      · exact Via.of rfl k1
    clear_value space
    rcases space with _ | ⟨v, u⟩
    · exact Via.nil rfl
    · have k3 : Only [.draws, .mem, .seg, .colls, .stash] s u := Via.get k2 rfl
      dsimp -zeta only
      split
      · exact Via.nil rfl
      · rename_i h3
        have k4 := Only.step (Via.caseOptSnd State.tableSpace_only h3) rfl k3
        exact Via.of rfl (Only.step State.setColl_only rfl (Only.step State.buffer_only rfl (Only.step State.buffer_only rfl (Only.step State.buffer_only rfl k4))))

theorem execStashAck_only {i : Nat} {s : State} :
    Via inOut [.boot, .log, .out, .can, .host, .cred, .colls, .fab] s (execStashAck i s) := by
  unfold execStashAck
  repeat' first
    | with_reducible exact Only.refl _ _
    | ((with_reducible apply Only.step State.takeAck_only); rfl)
    | with_reducible refine Via.of rfl ?_

theorem State.revoked_only {s : State} {g d : Nat} :
    Only [.host, .cred, .colls, .fab] s (State.revoked s g d) := by
  unfold State.revoked
  repeat' first
    | with_reducible assumption
    | with_reducible exact Only.refl _ _
    | (lift_lets -underBinder; intro x)
    | (intro x; refine Only.gen (ps := [.host, .cred, .colls, .fab]) (s := s) (x := x) ?_ (fun hx => ?_); unfold x; rotate_left; clear_value x)
    | with_reducible refine Only.ite (fun _ => ?_) (fun _ => ?_)
    | ((with_reducible apply Only.step State.modSeqr_only); rfl)
    | ((with_reducible apply Only.step State.answerMut_only); rfl)
    | split

theorem execInsert_only {s : State} :
    Via inOut [.host, .cred, .sched] s (execInsert s) := by
  unfold execInsert
  repeat' first
    | with_reducible exact Only.refl _ _
    | ((with_reducible apply Only.step State.admitMutation_only); rfl)
    | with_reducible refine Via.of rfl ?_

theorem State.killRecord_only {s : State} {g : Nat} {c : Coll} {target seq dest tag : Nat} :
    Via inOpt [.out, .mem, .seg, .stash, .grid, .fab] s (State.killRecord s g c target seq dest tag) := by
  unfold State.killRecord
  repeat' first
    | with_reducible assumption
    | with_reducible exact Only.refl _ _
    | (lift_lets -underBinder; intro x)
    | (intro x; refine Only.gen (ps := [.out, .mem, .seg, .stash, .grid, .fab]) (s := s) (x := x) ?_ (fun hx => ?_); unfold x; rotate_left; clear_value x)
    | with_reducible refine Only.foldl (fun _ _ _ => ?_) ?_
    | with_reducible refine Via.ite (fun _ => ?_) (fun _ => ?_)
    | ((with_reducible apply Only.step State.pokeLink_only); rfl)
    | ((with_reducible apply Only.step State.killAck_only); rfl)
    | ((with_reducible apply Only.step State.pokeBlock_only); rfl)
    | ((with_reducible apply Only.step State.killAt_only); rfl)
    | split
    | with_reducible refine Via.of rfl ?_
    | with_reducible exact Via.nil rfl

theorem execUpsert_only {s : State} :
    Via inOut [.host, .cred, .sched] s (execUpsert s) := by
  unfold execUpsert
  repeat' first
    | with_reducible exact Only.refl _ _
    | ((with_reducible apply Only.step State.admitMutation_only); rfl)
    | with_reducible refine Via.of rfl ?_

theorem execMutRsp_only {i : Nat} {s : State} :
    Via inOut [.host, .cred, .fab] s (execMutRsp i s) := by
  unfold execMutRsp
  repeat' first
    | with_reducible assumption
    | with_reducible exact Only.refl _ _
    | (lift_lets -underBinder; intro x; refine Only.gen (ps := [.host, .cred, .fab]) (s := s) (x := x) ?_ (fun hx => ?_); unfold x; rotate_left; clear_value x)
    | with_reducible refine Only.step (Via.caseOptSnd State.take_only (by assumption)) rfl ?_
    | ((with_reducible apply Only.step State.lateResponse_only); rfl)
    | ((with_reducible apply Only.step State.endRequest_only); rfl)
    | ((with_reducible apply Only.step State.doneMut_only); rfl)
    | split
    | with_reducible refine Via.of rfl ?_

theorem State.queueMut_only {s : State} {g : Nat} {q : Sequencer} {r : MutReq} :
    Only [.host, .cred, .colls, .fab] s (State.queueMut s g q r) := by
  unfold State.queueMut
  repeat' first
    | with_reducible exact Only.refl _ _
    | with_reducible refine Only.ite (fun _ => ?_) (fun _ => ?_)
    | ((with_reducible apply Only.step State.answerMut_only); rfl)
    | ((with_reducible apply Only.step State.modSeqr_only); rfl)

theorem State.handOff_only {s : State} {key : Nat} {l : Live} :
    Only [.host, .cred, .colls, .sched, .grid, .fab] s (State.handOff s key l) := by
  unfold State.handOff
  repeat' first
    | with_reducible assumption
    | with_reducible exact Only.refl _ _
    | (lift_lets -underBinder; intro x; refine Only.gen (ps := [.host, .cred, .colls, .sched, .grid, .fab]) (s := s) (x := x) ?_ (fun hx => ?_); unfold x; rotate_left; clear_value x)
    | (intro x)
    | ((with_reducible apply Only.step State.failLive_only); rfl)
    | ((with_reducible apply Only.step State.setLive_only); rfl)
    | ((with_reducible apply Only.step State.queueMut_only); rfl)
    | ((with_reducible apply Only.step State.request_only); rfl)
    | split

theorem execStashFlush_only {g : Nat} {s : State} :
    Via inOut [.out, .mem, .bw, .colls, .stash] s (execStashFlush g s) := by
  unfold execStashFlush
  repeat' first
    | with_reducible exact Only.refl _ _
    | ((with_reducible apply Only.step State.flushStash_only); rfl)
    | split
    | with_reducible refine Via.of rfl ?_

theorem execKillWrite_only {i : Nat} {s : State} :
    Via inOut [.out, .mem, .seg, .colls, .stash, .grid, .fab] s (execKillWrite i s) := by
  unfold execKillWrite
  repeat' first
    | with_reducible exact Only.refl _ _
    | (lift_lets -underBinder; intro x)
    | (intro x)
    | with_reducible refine Only.step (Via.caseOptSnd State.take_only (by assumption)) rfl ?_
    | ((with_reducible apply Only.step State.send_only); rfl)
    | with_reducible refine Only.step (Via.caseOpt State.killRecord_only (by assumption)) rfl ?_
    | ((with_reducible apply Only.step State.modColl_only); rfl)
    | split
    | with_reducible refine Via.of rfl ?_

theorem State.hold_only {s : State} {g d : Nat} :
    Only [.host, .cred, .colls, .fab] s (State.hold s g d) := by
  unfold State.hold
  repeat' first
    | with_reducible assumption
    | with_reducible exact Only.refl _ _
    | (lift_lets -underBinder; intro x)
    | (intro x; refine Only.gen (ps := [.host, .cred, .colls, .fab]) (s := s) (x := x) ?_ (fun hx => ?_); unfold x; rotate_left; clear_value x)
    | (intro x)
    | with_reducible refine Only.foldl (fun _ _ _ => ?_) ?_
    | with_reducible refine Only.ite (fun _ => ?_) (fun _ => ?_)
    | ((with_reducible apply Only.step State.modSeqr_only); rfl)
    | ((with_reducible apply Only.step State.answerMut_only); rfl)
    | split

theorem execMutFwd_only {i : Nat} {s : State} :
    Via inOut [.host, .cred, .colls, .fab] s (execMutFwd i s) := by
  unfold execMutFwd
  repeat' first
    | with_reducible exact Only.refl _ _
    | (lift_lets -underBinder; intro x)
    | (intro x)
    | with_reducible refine Only.step (Via.caseOptSnd State.take_only (by assumption)) rfl ?_
    | ((with_reducible apply Only.step State.answerMut_only); rfl)
    | ((with_reducible apply Only.step State.queueMut_only); rfl)
    | split
    | with_reducible refine Via.of rfl ?_

theorem execStashWrite_only {i : Nat} {s : State} :
    Via inOut [.draws, .out, .mem, .seg, .bw, .colls, .stash, .fab] s (execStashWrite i s) := by
  unfold execStashWrite
  repeat' first
    | with_reducible exact Only.refl _ _
    | (lift_lets -underBinder; intro x)
    | (intro x)
    | with_reducible refine Only.step (Via.caseOptSnd State.take_only (by assumption)) rfl ?_
    | ((with_reducible apply Only.step State.send_only); rfl)
    | with_reducible refine Only.step (Via.caseOpt State.appendStash_only (by assumption)) rfl ?_
    | ((with_reducible apply Only.step State.flushStash_only); rfl)
    | split
    | with_reducible refine Via.of rfl ?_

theorem execRevokeAck_only {i : Nat} {s : State} :
    Via inOut [.host, .cred, .colls, .fab] s (execRevokeAck i s) := by
  unfold execRevokeAck
  repeat' first
    | with_reducible exact Only.refl _ _
    | with_reducible refine Only.step (Via.caseOptSnd State.take_only (by assumption)) rfl ?_
    | ((with_reducible apply Only.step State.lateResponse_only); rfl)
    | ((with_reducible apply Only.step State.revoked_only); rfl)
    | ((with_reducible apply Only.step State.endRequest_only); rfl)
    | split
    | with_reducible refine Via.of rfl ?_

theorem execKillAck_only {i : Nat} {s : State} :
    Via inOut [.boot, .log, .out, .can, .host, .cred, .colls, .fab] s (execKillAck i s) := by
  unfold execKillAck
  repeat' first
    | with_reducible exact Only.refl _ _
    | ((with_reducible apply Only.step State.takeAck_only); rfl)
    | with_reducible refine Via.of rfl ?_

end Sys2Proof.Machine
end

