-- ==== Sys2Proof/Laws/Only/Builds.lean ====
section
/-! SUPPORT. What each operation of Machine/Builds.lean may change. -/

namespace Sys2Proof.Machine

theorem State.clearBlocks_only {s : State} {ts : List Nat} :
    Only [.grid] s (State.clearBlocks s ts) := by
  unfold State.clearBlocks
  repeat' first
    | exact fun _ h => tile_wf h _
    | with_reducible assumption
    | with_reducible exact Only.refl _ _
    | (lift_lets -underBinder; intro x)
    | with_reducible refine Only.foldl (fun _ _ _ => ?_) ?_
    | with_reducible refine Only.setTile ?_ rfl ?_

theorem State.abandonBuild_only {s : State} {g : Nat} :
    Only [.seg, .colls, .grid] s (State.abandonBuild s g) := by
  unfold State.abandonBuild
  repeat' first
    | with_reducible assumption
    | with_reducible exact Only.refl _ _
    | (lift_lets -underBinder; intro x; refine Only.gen (ps := [.seg, .colls, .grid]) (s := s) (x := x) ?_ (fun hx => ?_); unfold x; rotate_left; clear_value x)
    | (intro x; refine Only.gen (ps := [.seg, .colls, .grid]) (s := s) (x := x) ?_ (fun hx => ?_); unfold x; rotate_left; clear_value x)
    | with_reducible refine Only.foldl (fun _ _ _ => ?_) ?_
    | ((with_reducible apply Only.step State.setColl_only); rfl)
    | ((with_reducible apply Only.step State.freeSeg_only); rfl)
    | ((with_reducible apply Only.step State.clearBlocks_only); rfl)
    | split

theorem Build.take_only {b : Build} {owner kind g list written n : Nat} :
    Via inOptSndBld [.draws, .seg] b.st (Build.take b owner kind g list written n) := by
  unfold Build.take
  repeat' first
    | with_reducible exact Only.refl _ _
    | with_reducible refine Via.map rfl (fun _ _ => ?_)
    | with_reducible refine Only.step (Via.caseOptSnd State.allocMany_only (by assumption)) rfl ?_
    | with_reducible refine Via.of rfl ?_

theorem Build.write_only {b : Build} {n off : Nat} {bytes : List Sys2Proof.Byte} :
    Via inBld [.mem] b.st (Build.write b n off bytes) := by
  unfold Build.write
  repeat' first
    | with_reducible exact Only.refl _ _
    | ((with_reducible apply Only.step State.segWrite_only); rfl)
    | with_reducible refine Via.of rfl ?_

theorem Build.writeVectors_only {b : Build} {e : Nat} {vs : List Nat} {vecs : List (List Sys2Proof.Byte)} :
    Via inBld [.mem] b.st (Build.writeVectors b e vs vecs) := by
  unfold Build.writeVectors
  repeat' first
    | with_reducible assumption
    | with_reducible exact Only.refl _ _
    | with_reducible refine Only.foldlBld (fun _ _ _ => ?_) ?_
    | ((with_reducible apply Only.step (Via.get Build.write_only rfl)); rfl)
    | with_reducible refine Via.of rfl ?_

theorem Build.stripe_only {b : Build} {g : Nat} {c : Coll} {kind list generation index n next : Nat} {es : List Entry} :
    Via inOptBld [.draws, .mem, .seg] b.st (Build.stripe b g c kind list generation index n next es) := by
  unfold Build.stripe
  repeat' first
    | with_reducible exact Only.refl _ _
    | (lift_lets -underBinder; intro x)
    | (intro x)
    | with_reducible refine Only.step (Via.caseOptSndBld Build.take_only (by assumption)) rfl ?_
    | ((with_reducible apply Only.step (Via.get Build.writeVectors_only rfl)); rfl)
    | ((with_reducible apply Only.step (Via.get Build.write_only rfl)); rfl)
    | split
    | with_reducible refine Via.of rfl ?_
    | with_reducible exact Via.nil rfl

theorem Build.table_only {b : Build} {g : Nat} {c : Coll} {kind generation per after : Nat} {items : List (List Sys2Proof.Byte)} :
    Via inOptSndBld [.draws, .mem, .seg] b.st (Build.table b g c kind generation per after items) := by
  unfold Build.table
  repeat' first
    | with_reducible assumption
    | with_reducible exact Only.refl _ _
    | (lift_lets -underBinder; intro x)
    | with_reducible refine Only.foldlBld (fun _ _ _ => ?_) ?_
    | with_reducible refine Only.step (Via.caseOptSndBld Build.take_only (by assumption)) rfl ?_
    | ((with_reducible apply Only.step (Via.get Build.write_only rfl)); rfl)
    | split
    | with_reducible refine Via.of rfl ?_
    | with_reducible exact Via.nil rfl

theorem Build.directories_only {b : Build} {g : Nat} {c : Coll} {generation : Nat} {changed : Map (List Sys2Proof.Byte)} :
    Via inOptSndBld [.draws, .mem, .seg] b.st (Build.directories b g c generation changed) := by
  unfold Build.directories
  extract_lets -underBinder own olds entry last rest
  clear_value own olds entry last rest
  refine Via.map rfl fun p hp => ⟨fun t ht => ?_⟩
  cases ht
  exact Build.table_only.only _ (by rw [hp])

theorem State.retireRest_only {s : State} {g : Nat} {keep : List Nat} :
    Only [.seg] s (State.retireRest s g keep) := by
  unfold State.retireRest
  repeat' first
    | with_reducible assumption
    | with_reducible exact Only.refl _ _
    | with_reducible refine Only.foldl (fun _ _ _ => ?_) ?_
    | ((with_reducible apply Only.step State.retireSeg_only); rfl)

theorem State.flip_only {s : State} {g : Nat} :
    Only [.seg, .colls] s (State.flip s g) := by
  unfold State.flip
  repeat' first
    | with_reducible exact Only.refl _ _
    | (lift_lets -underBinder; intro x)
    | (intro x)
    | ((with_reducible apply Only.step State.retireRest_only); rfl)
    | ((with_reducible apply Only.step State.setColl_only); rfl)
    | split

theorem Build.pin_only {b : Build} {g : Nat} {c : Coll} {list generation : Nat} {es : List Entry} :
    Via inOptBld [.grid] b.st (Build.pin b g c list generation es) := by
  unfold Build.pin
  repeat' first
    | exact fun _ h => tile_wf h _
    | with_reducible assumption
    | with_reducible exact Only.refl _ _
    | (lift_lets -underBinder; intro x)
    | (intro x)
    | with_reducible refine Only.foldlBld (fun _ _ _ => ?_) ?_
    | with_reducible refine Via.ite (fun _ => ?_) (fun _ => ?_)
    | with_reducible refine Only.setTile ?_ rfl ?_
    | with_reducible refine Via.of rfl ?_
    | with_reducible exact Via.nil rfl

theorem Build.stripes_only {b : Build} {g : Nat} {c : Coll} {kind list generation a0 : Nat} {a1 : List Nat} {a2 : List (List Entry)} :
    Via inOptBld [.draws, .mem, .seg] b.st (Build.stripes b g c kind list generation a0 a1 a2) := by
  induction a2 generalizing b a0 a1 with
  | nil => cases a1 <;> exact Via.of rfl (Only.refl _ _)
  | cons es rest ih =>
    cases a1 with
    | nil => exact Via.of rfl (Only.refl _ _)
    | cons n ns =>
      unfold Build.stripes
      split
      · exact Via.nil rfl
      · rename_i b' h
        exact Via.step ih rfl (Via.caseOptBld Build.stripe_only h)

theorem Build.chain_only {b : Build} {g : Nat} {c : Coll} {kind list generation : Nat} {es : List Entry} :
    Via inOptSndBld [.draws, .mem, .seg] b.st (Build.chain b g c kind list generation es) := by
  unfold Build.chain
  repeat' first
    | with_reducible exact Only.refl _ _
    | (lift_lets -underBinder; intro x)
    | with_reducible refine Via.map rfl (fun _ _ => ?_)
    | with_reducible refine Only.step (Via.caseOptSndBld Build.take_only (by assumption)) rfl ?_
    | with_reducible refine Only.step (Via.caseOptBld Build.stripes_only (by assumption)) rfl ?_
    | split
    | with_reducible refine Via.of rfl ?_
    | with_reducible exact Via.nil rfl

theorem Build.list_only {b : Build} {g : Nat} {c : Coll} {l generation : Nat} {es : List Entry} :
    Via inExcSndBld [.draws, .mem, .seg, .grid] b.st (Build.list b g c l generation es) := by
  unfold Build.list
  repeat' first
    | with_reducible exact Only.refl _ _
    | with_reducible refine Via.ite (fun _ => ?_) (fun _ => ?_)
    | with_reducible refine Only.step (Via.caseOptBld Build.pin_only (by assumption)) rfl ?_
    | with_reducible refine Only.step (Via.caseOptSndBld Build.chain_only (by assumption)) rfl ?_
    | split
    | with_reducible refine Via.of rfl ?_
    | with_reducible exact Via.nil rfl

theorem Build.bounds_only {b : Build} {g : Nat} {c : Coll} {generation : Nat} {changed : Map (List Sys2Proof.Byte)} :
    Via inOptSndBld [.draws, .mem, .seg] b.st (Build.bounds b g c generation changed) := by
  unfold Build.bounds
  extract_lets -underBinder cap cents all same last
  clear_value cap cents all same last
  split
  · exact Via.nil rfl
  · rename_i ns b' h
    refine Via.of rfl (Only.foldlBld (fun u i hu => ?_) (Only.step (Via.caseOptSndBld Build.take_only h) rfl (Only.refl _ _)))
    exact Only.step (Via.get Build.write_only rfl) rfl hu

theorem Build.runLists_only {b : Build} {g : Nat} {c : Coll} {generation cut : Nat} {stash : List Entry} {a0 : List Nat} :
    Via inExcSndBld [.draws, .mem, .seg, .grid] b.st (Build.runLists b g c generation cut stash a0) := by
  induction a0 generalizing b with
  | nil => exact Via.of rfl (Only.refl _ _)
  | cons l ls ih =>
    unfold Build.runLists
    extract_lets -underBinder es
    clear_value es
    split
    · exact Via.nil rfl
    · rename_i h
      have k := Only.step (Via.caseExcSndBld Build.list_only h) rfl (Only.refl [.draws, .mem, .seg, .grid] _)
      split
      · exact Via.nil rfl
      · rename_i h'
        exact Via.of rfl (Only.step (Via.caseExcSndBld ih h') rfl k)

theorem State.buildRun_only {s : State} {g : Nat} {c : Coll} {generation cut : Nat} :
    Via inExcSnd [.draws, .mem, .seg, .grid] s (State.buildRun s g c generation cut) := by
  unfold State.buildRun
  repeat' first
    | with_reducible exact Only.refl _ _
    | (lift_lets -underBinder; intro x)
    | (intro x)
    | ((with_reducible apply Only.step (Via.get State.draw_only rfl)); rfl)
    | with_reducible refine Only.step (Via.caseExcSndBld Build.runLists_only (by assumption)) rfl ?_
    | with_reducible refine Only.step (Via.caseOptSndBld Build.directories_only (by assumption)) rfl ?_
    | with_reducible refine Only.step (Via.caseOptSndBld Build.bounds_only (by assumption)) rfl ?_
    | split
    | with_reducible refine Via.of rfl ?_
    | with_reducible exact Via.nil rfl

theorem State.stashCovered_only {s : State} {g : Nat} {c : Coll} {e : Entry} :
    Via inFst [.draws, .log, .out, .can, .host, .cred, .sched, .grid] s (State.stashCovered s g c e) := by
  unfold State.stashCovered
  repeat' first
    | with_reducible exact Only.refl _ _
    | (lift_lets -underBinder; intro x)
    | with_reducible refine Via.ite (fun _ => ?_) (fun _ => ?_)
    | with_reducible refine Only.step (Via.caseFst State.coverCall_only (by assumption)) rfl ?_
    | split
    | with_reducible refine Via.of rfl ?_

theorem State.firstStuck_only {s : State} {g : Nat} {c : Coll} {a0 : List Entry} :
    Via inFst [.draws, .log, .out, .can, .host, .cred, .sched, .grid] s (State.firstStuck s g c a0) := by
  induction a0 generalizing s g c with
  | nil =>
    unfold State.firstStuck
    repeat' first
      | with_reducible exact Only.refl _ _
      | with_reducible refine Via.of rfl ?_
  | cons _ _ ih =>
    unfold State.firstStuck
    repeat' first
      | with_reducible exact Only.refl _ _
      | ((with_reducible apply Via.step ih); rfl)
      | with_reducible refine Via.ite (fun _ => ?_) (fun _ => ?_)
      | ((with_reducible apply Only.step (Via.get State.stashCovered_only rfl)); rfl)
      | with_reducible refine Via.of rfl ?_

theorem State.proposal_only {s : State} {g : Nat} {c : Coll} {committed : Nat} :
    Via inFst [.draws, .log, .out, .can, .host, .cred, .sched, .grid] s (State.proposal s g c committed) := by
  unfold State.proposal
  repeat' first
    | with_reducible exact Only.refl _ _
    | (lift_lets -underBinder; intro x)
    | (intro x)
    | with_reducible refine Only.step (Via.caseFst State.firstStuck_only (by assumption)) rfl ?_
    | split
    | with_reducible refine Via.of rfl ?_

theorem State.writeRoot_only {s : State} {g : Nat} :
    Via inOpt [.draws, .mem, .seg, .colls] s (State.writeRoot s g) := by
  unfold State.writeRoot
  repeat' first
    | with_reducible exact Only.refl _ _
    | (lift_lets -underBinder; intro x)
    | (intro x)
    | with_reducible refine Only.step (Via.caseOptSnd State.alloc_only (by assumption)) rfl ?_
    | ((with_reducible apply Only.step State.setColl_only); rfl)
    | ((with_reducible apply Only.step State.segWrite_only); rfl)
    | split
    | with_reducible refine Via.of rfl ?_
    | with_reducible exact Via.nil rfl

theorem State.freeGenerations_only {s : State} {g : Nat} :
    Only [.seg, .colls, .grid] s (State.freeGenerations s g) := by
  unfold State.freeGenerations
  try dsimp -zeta -proj only [State.set_colls]
  repeat' first
    | with_reducible assumption
    | with_reducible exact Only.refl _ _
    | (lift_lets -underBinder; intro x)
    | (intro x; refine Only.gen (ps := [.seg, .colls, .grid]) (s := s) (x := x) ?_ (fun hx => ?_); unfold x; rotate_left; clear_value x)
    | (intro x)
    | with_reducible refine Only.foldl (fun _ _ _ => ?_) ?_
    | with_reducible refine Only.ite (fun _ => ?_) (fun _ => ?_)
    | ((with_reducible apply Only.step State.setColl_only); rfl)
    | ((with_reducible apply Only.step State.modSeqr_only); rfl)
    | ((with_reducible apply Only.step State.freeSeg_only); rfl)
    | ((with_reducible apply Only.step State.clearBlocks_only); rfl)
    | ((with_reducible apply Only.step State.modColl_only); rfl)
    | with_reducible refine Only.with_colls ?_ rfl
    | split

theorem execSegmentFree_only {g : Nat} {s : State} :
    Via inOut [.boot, .log, .out, .can, .host, .seg, .colls, .grid] s (execSegmentFree g s) := by
  unfold execSegmentFree
  repeat' first
    | with_reducible exact Only.refl _ _
    | ((with_reducible apply Only.step State.segmentAudit_only); rfl)
    | ((with_reducible apply Only.step State.freeGenerations_only); rfl)
    | with_reducible refine Via.of rfl ?_

end Sys2Proof.Machine
end

