-- ==== Sys2Proof/Laws/Only/Loads.lean ====
section
/-! SUPPORT. What each operation of Machine/Loads.lean may change. -/

namespace Sys2Proof.Machine

theorem State.abandonLoad_only {s : State} {g : Nat} :
    Only [.seg, .colls, .grid] s (State.abandonLoad s g) := by
  unfold State.abandonLoad
  repeat' first
    | with_reducible exact Only.refl _ _
    | ((with_reducible apply Only.step State.modColl_only); rfl)
    | ((with_reducible apply Only.step State.abandonBuild_only); rfl)

theorem State.sendImage_only {s : State} {dest tag requester g off : Nat} {a0 : List (List Sys2Proof.Byte)} :
    Only [.fab] s (State.sendImage s dest tag requester g off a0) := by
  induction a0 generalizing s dest tag requester g off with
  | nil =>
    unfold State.sendImage
    repeat' with_reducible exact Only.refl _ _
  | cons _ _ ih =>
    unfold State.sendImage
    repeat' first
      | with_reducible exact Only.refl _ _
      | ((with_reducible apply Only.step ih); rfl)
      | ((with_reducible apply Only.step State.send_only); rfl)

theorem execImagePull_only {i : Nat} {data : List Sys2Proof.Byte} {s : State} :
    Via inOut [.out, .fab] s (execImagePull i data s) := by
  unfold execImagePull
  repeat' first
    | with_reducible exact Only.refl _ _
    | (lift_lets -underBinder; intro x)
    | (intro x)
    | with_reducible refine Only.step (Via.caseOptSnd State.take_only (by assumption)) rfl ?_
    | ((with_reducible apply Only.step State.sendImage_only); rfl)
    | ((with_reducible apply Only.step State.emit_only); rfl)
    | split
    | with_reducible refine Via.of rfl ?_

theorem State.takeCtrl_only {s : State} {i op : Nat} :
    Via inOptSnd [.fab] s (State.takeCtrl s i op) := by
  unfold State.takeCtrl
  repeat' first
    | with_reducible exact Only.refl _ _
    | with_reducible refine Via.ite (fun _ => ?_) (fun _ => ?_)
    | with_reducible refine Only.step (Via.caseOptSnd State.takeKind_only (by assumption)) rfl ?_
    | split
    | with_reducible refine Via.of rfl ?_
    | with_reducible exact Via.nil rfl

theorem State.ackCtrl_only {s : State} {m : List Sys2Proof.Byte} {status seq : Nat} :
    Only [.fab] s (State.ackCtrl s m status seq) := by
  unfold State.ackCtrl
  repeat' first
    | with_reducible exact Only.refl _ _
    | ((with_reducible apply Only.step State.send_only); rfl)

theorem Build.repairLists_only {b : Build} {g : Nat} {c : Coll} {p : Pull} {generation : Nat} {a0 : List IndexEntry} :
    Via inExcSndBld [.draws, .mem, .seg, .grid] b.st (Build.repairLists b g c p generation a0) := by
  induction a0 generalizing b with
  | nil => exact Via.of rfl (Only.refl _ _)
  | cons e es ih =>
    unfold Build.repairLists
    extract_lets -underBinder entries
    clear_value entries
    refine Via.ite (fun _ => ih) (fun _ => ?_)
    split
    · exact Via.nil rfl
    · rename_i h
      have k := Only.step (Via.caseExcSndBld Build.list_only h) rfl (Only.refl [.draws, .mem, .seg, .grid] _)
      split
      · exact Via.nil rfl
      · rename_i h'
        exact Via.of rfl (Only.step (Via.caseExcSndBld ih h') rfl k)

theorem State.buildRepair_only {s : State} {g : Nat} {c : Coll} {p : Pull} {generation cut : Nat} :
    Via inExcSnd [.draws, .mem, .seg, .grid] s (State.buildRepair s g c p generation cut) := by
  unfold State.buildRepair
  repeat' first
    | with_reducible exact Only.refl _ _
    | (lift_lets -underBinder; intro x)
    | with_reducible refine Only.step (Via.caseExcSndBld Build.repairLists_only (by assumption)) rfl ?_
    | ((with_reducible apply Only.step (Via.get State.draw_only rfl)); rfl)
    | with_reducible refine Only.step (Via.caseOptSndBld Build.directories_only (by assumption)) rfl ?_
    | with_reducible refine Only.step (Via.caseOptSndBld Build.bounds_only (by assumption)) rfl ?_
    | split
    | with_reducible refine Via.of rfl ?_
    | with_reducible exact Via.nil rfl

theorem State.sendPull_only {s : State} {g : Nat} {p : Pull} {r : Nat × Nat} :
    Only [.cred, .fab] s (State.sendPull s g p r) := by
  unfold State.sendPull
  repeat' first
    | with_reducible exact Only.refl _ _
    | ((with_reducible apply Only.step State.requestFor_only); rfl)

theorem State.ackLoad_only {s : State} {g : Nat} {c : Coll} {p : Pull} {status : Nat} :
    Only [.fab] s (State.ackLoad s g c p status) := by
  unfold State.ackLoad
  repeat' first
    | with_reducible exact Only.refl _ _
    | ((with_reducible apply Only.step State.send_only); rfl)

theorem State.entryCovered_only {s : State} {g : Nat} {c : Coll} {bound centroid vec : List Sys2Proof.Byte} :
    Via inFst [.draws, .log, .out, .can, .host, .cred, .sched, .grid] s (State.entryCovered s g c bound centroid vec) := by
  unfold State.entryCovered
  repeat' first
    | with_reducible exact Only.refl _ _
    | with_reducible refine Via.ite (fun _ => ?_) (fun _ => ?_)
    | with_reducible refine Only.step (Via.caseFst State.coverCall_only (by assumption)) rfl ?_
    | split
    | with_reducible refine Via.of rfl ?_

theorem State.allCovered_only {s : State} {g : Nat} {c : Coll} {bound centroid : List Sys2Proof.Byte} {a0 : List Entry} :
    Via inFst [.draws, .log, .out, .can, .host, .cred, .sched, .grid] s (State.allCovered s g c bound centroid a0) := by
  induction a0 generalizing s g c bound centroid with
  | nil =>
    unfold State.allCovered
    repeat' first
      | with_reducible exact Only.refl _ _
      | with_reducible refine Via.of rfl ?_
  | cons _ _ ih =>
    unfold State.allCovered
    repeat' first
      | with_reducible exact Only.refl _ _
      | ((with_reducible apply Via.step ih); rfl)
      | with_reducible refine Only.step (Via.caseFst State.entryCovered_only (by assumption)) rfl ?_
      | split
      | with_reducible refine Via.of rfl ?_

theorem State.repairCovered_only {s : State} {g : Nat} {c : Coll} {p : Pull} {a0 : List IndexEntry} :
    Via inFst [.draws, .log, .out, .can, .host, .cred, .sched, .grid] s (State.repairCovered s g c p a0) := by
  induction a0 generalizing s g c p with
  | nil =>
    unfold State.repairCovered
    repeat' first
      | with_reducible exact Only.refl _ _
      | with_reducible refine Via.of rfl ?_
  | cons _ _ ih =>
    unfold State.repairCovered
    repeat' first
      | with_reducible exact Only.refl _ _
      | ((with_reducible apply Via.step ih); rfl)
      | with_reducible refine Only.step (Via.caseFst State.allCovered_only (by assumption)) rfl ?_
      | split
      | with_reducible refine Via.of rfl ?_

theorem State.loadCovered_only {s : State} {g : Nat} {c : Coll} {p : Pull} {bounds cents : List Sys2Proof.Byte} {a0 : List IndexEntry} :
    Via inFst [.draws, .log, .out, .can, .host, .cred, .sched, .grid] s (State.loadCovered s g c p bounds cents a0) := by
  induction a0 generalizing s g c p bounds cents with
  | nil =>
    unfold State.loadCovered
    repeat' first
      | with_reducible exact Only.refl _ _
      | with_reducible refine Via.of rfl ?_
  | cons _ _ ih =>
    unfold State.loadCovered
    repeat' first
      | with_reducible exact Only.refl _ _
      | ((with_reducible apply Via.step ih); rfl)
      | with_reducible refine Only.step (Via.caseFst State.allCovered_only (by assumption)) rfl ?_
      | split
      | with_reducible refine Via.of rfl ?_

theorem Build.loadLists_only {b : Build} {g : Nat} {c : Coll} {p : Pull} {a0 : List IndexEntry} :
    Via inExcSndBld [.draws, .mem, .seg, .grid] b.st (Build.loadLists b g c p a0) := by
  induction a0 generalizing b g c p with
  | nil =>
    unfold Build.loadLists
    repeat' first
      | with_reducible exact Only.refl _ _
      | with_reducible refine Via.of rfl ?_
  | cons _ _ ih =>
    unfold Build.loadLists
    repeat' first
      | with_reducible exact Only.refl _ _
      | with_reducible refine Only.step (Via.caseExcSndBld ih (by assumption)) rfl ?_
      | (lift_lets -underBinder; intro x)
      | with_reducible refine Only.step (Via.caseExcSndBld Build.list_only (by assumption)) rfl ?_
      | split
      | with_reducible refine Via.of rfl ?_
      | with_reducible exact Via.nil rfl

theorem State.buildLoad_only {s : State} {g : Nat} {c : Coll} {p : Pull} :
    Via inExcSnd [.draws, .mem, .seg, .grid] s (State.buildLoad s g c p) := by
  unfold State.buildLoad
  repeat' first
    | with_reducible exact Only.refl _ _
    | (lift_lets -underBinder; intro x)
    | (intro x)
    | with_reducible refine Only.step (Via.caseExcSndBld Build.loadLists_only (by assumption)) rfl ?_
    | with_reducible refine Only.step (Via.caseOptSndBld Build.table_only (by assumption)) rfl ?_
    | with_reducible refine Only.step (Via.caseOptSndBld Build.chain_only (by assumption)) rfl ?_
    | with_reducible refine Only.step (Via.caseOptSndBld Build.take_only (by assumption)) rfl ?_
    | split
    | with_reducible refine Via.of rfl ?_
    | with_reducible exact Via.nil rfl

theorem State.endPull_only {s : State} {g : Nat} {c : Coll} {p : Pull} :
    Only [.draws, .log, .out, .can, .host, .cred, .mem, .seg, .colls, .sched, .grid, .fab] s (State.endPull s g c p) := by
  unfold State.endPull
  repeat' first
    | with_reducible exact Only.refl _ _
    | with_reducible refine Only.ite (fun _ => ?_) (fun _ => ?_)
    | ((with_reducible apply Only.step State.ackLoad_only); rfl)
    | with_reducible refine Only.step (Via.caseFst State.repairCovered_only (by assumption)) rfl ?_
    | with_reducible refine Only.step (Via.caseFst State.loadCovered_only (by assumption)) rfl ?_
    | with_reducible refine Only.step (Via.caseExcSnd State.buildLoad_only (by assumption)) rfl ?_
    | ((with_reducible apply Only.step State.modColl_only); rfl)
    | split

theorem State.goOnPulling_only {s : State} {g : Nat} :
    Only [.draws, .log, .out, .can, .host, .cred, .mem, .seg, .colls, .sched, .grid, .fab] s (State.goOnPulling s g) := by
  unfold State.goOnPulling
  repeat' first
    | with_reducible exact Only.refl _ _
    | ((with_reducible apply Only.step State.sendPull_only); rfl)
    | ((with_reducible apply Only.step State.endPull_only); rfl)
    | split

theorem execCollCtrlLoadPrepare_only {i : Nat} {s : State} :
    Via inOut [.draws, .log, .out, .can, .host, .cred, .mem, .seg, .colls, .sched, .grid, .fab] s (execCollCtrlLoadPrepare i s) := by
  unfold execCollCtrlLoadPrepare
  repeat' first
    | with_reducible assumption
    | with_reducible exact Only.refl _ _
    | (lift_lets -underBinder; intro x)
    | (intro x; refine Only.gen (ps := [.draws, .log, .out, .can, .host, .cred, .mem, .seg, .colls, .sched, .grid, .fab]) (s := s) (x := x) ?_ (fun hx => ?_); unfold x; rotate_left; clear_value x)
    | with_reducible refine Only.step (Via.caseOptSnd State.takeCtrl_only (by assumption)) rfl ?_
    | ((with_reducible apply Only.step State.ackCtrl_only); rfl)
    | ((with_reducible apply Only.step State.abandonBuild_only); rfl)
    | ((with_reducible apply Only.step State.goOnPulling_only); rfl)
    | ((with_reducible apply Only.step State.modColl_only); rfl)
    | split
    | with_reducible refine Via.of rfl ?_

theorem State.ctrl_only {s : State} {g dest op tag requester generation seq device : Nat} :
    Only [.cred, .fab] s (State.ctrl s g dest op tag requester generation seq device) := by
  unfold State.ctrl
  repeat' first
    | with_reducible exact Only.refl _ _
    | ((with_reducible apply Only.step State.requestFor_only); rfl)

theorem State.ctrlAll_only {s : State} {g : Nat} {ds : List Nat} {op tag requester generation seq device : Nat} :
    Only [.cred, .fab] s (State.ctrlAll s g ds op tag requester generation seq device) := by
  unfold State.ctrlAll
  repeat' first
    | with_reducible assumption
    | with_reducible exact Only.refl _ _
    | with_reducible refine Only.foldl (fun _ _ _ => ?_) ?_
    | ((with_reducible apply Only.step State.ctrl_only); rfl)

theorem execCollCtrlLoadAbandon_only {i : Nat} {s : State} :
    Via inOut [.seg, .colls, .grid, .fab] s (execCollCtrlLoadAbandon i s) := by
  unfold execCollCtrlLoadAbandon
  repeat' first
    | with_reducible exact Only.refl _ _
    | with_reducible refine Only.step (Via.caseOptSnd State.takeCtrl_only (by assumption)) rfl ?_
    | ((with_reducible apply Only.step State.ackCtrl_only); rfl)
    | ((with_reducible apply Only.step State.abandonLoad_only); rfl)
    | split
    | with_reducible refine Via.of rfl ?_

theorem execImageData_only {i : Nat} {s : State} :
    Via inOut [.draws, .log, .out, .can, .host, .cred, .mem, .seg, .colls, .sched, .grid, .fab] s (execImageData i s) := by
  unfold execImageData
  repeat' first
    | with_reducible assumption
    | with_reducible exact Only.refl _ _
    | (lift_lets -underBinder; intro x)
    | (intro x; refine Only.gen (ps := [.draws, .log, .out, .can, .host, .cred, .mem, .seg, .colls, .sched, .grid, .fab]) (s := s) (x := x) ?_ (fun hx => ?_); unfold x; rotate_left; clear_value x)
    | (intro x)
    | with_reducible refine Only.step (Via.caseOptSnd State.take_only (by assumption)) rfl ?_
    | ((with_reducible apply Only.step State.lateResponse_only); rfl)
    | ((with_reducible apply Only.step State.modColl_only); rfl)
    | ((with_reducible apply Only.step State.goOnPulling_only); rfl)
    | ((with_reducible apply Only.step State.endRequest_only); rfl)
    | split
    | with_reducible refine Via.of rfl ?_

theorem execLoadLists_only {data : List Sys2Proof.Byte} {s : State} :
    Via inOut [.out, .host, .cred, .sched] s (execLoadLists data s) := by
  unfold execLoadLists
  repeat' first
    | with_reducible assumption
    | with_reducible exact Only.refl _ _
    | (lift_lets -underBinder; intro x; refine Only.gen (ps := [.out, .host, .cred, .sched]) (s := s) (x := x) ?_ (fun hx => ?_); unfold x; rotate_left; clear_value x)
    | (lift_lets -underBinder; intro x)
    | (intro x)
    | with_reducible refine Only.step (Via.caseOptSnd State.beginWork_only (by assumption)) rfl ?_
    | ((with_reducible apply Only.step State.refuse_only); rfl)
    | ((with_reducible apply Only.step State.emit_only); rfl)
    | ((with_reducible apply Only.step (Via.get State.takeIn_only rfl)); rfl)
    | split
    | with_reducible refine Via.of rfl ?_

end Sys2Proof.Machine
end

