-- ==== Sys2Proof/Laws/Only/Exports.lean ====
section
/-! SUPPORT. What each operation of Machine/Exports.lean may change. -/

namespace Sys2Proof.Machine

theorem State.sendListPull_only {s : State} {key : Nat} {l : Live} {c : Coll} {a0 : Exporting} {r : Nat × Nat × Nat} :
    Only [.cred, .fab] s (State.sendListPull s key l c a0 r) := by
  unfold State.sendListPull
  repeat' first
    | with_reducible exact Only.refl _ _
    | (lift_lets -underBinder; intro x)
    | ((with_reducible apply Only.step State.request_only); rfl)

theorem State.endExport_only {s : State} {key : Nat} {l : Live} {c : Coll} {a0 : Exporting} :
    Only [.out, .host, .cred] s (State.endExport s key l c a0) := by
  unfold State.endExport
  repeat' first
    | with_reducible assumption
    | with_reducible exact Only.refl _ _
    | (lift_lets -underBinder; intro x)
    | (intro x; refine Only.gen (ps := [.out, .host, .cred]) (s := s) (x := x) ?_ (fun hx => ?_); unfold x; rotate_left; clear_value x)
    | (intro x)
    | with_reducible refine Only.ite (fun _ => ?_) (fun _ => ?_)
    | ((with_reducible apply Only.step State.done_only); rfl)
    | ((with_reducible apply Only.step State.setBurrow_only); rfl)
    | ((with_reducible apply Only.step State.emit_only); rfl)

theorem State.goOnExporting_only {s : State} {key : Nat} {l : Live} :
    Only [.out, .host, .cred, .seg, .sched, .grid, .fab] s (State.goOnExporting s key l) := by
  unfold State.goOnExporting
  repeat' first
    | with_reducible assumption
    | with_reducible exact Only.refl _ _
    | (lift_lets -underBinder; intro x)
    | with_reducible refine Only.foldl (fun _ _ _ => ?_) ?_
    | with_reducible refine Only.ite (fun _ => ?_) (fun _ => ?_)
    | ((with_reducible apply Only.step State.failLive_only); rfl)
    | ((with_reducible apply Only.step State.sendListPull_only); rfl)
    | ((with_reducible apply Only.step State.want_only); rfl)
    | ((with_reducible apply Only.step State.endExport_only); rfl)
    | split

theorem State.sendListData_only {s : State} {m : List Sys2Proof.Byte} {off : Nat} {a0 : List (List Entry)} :
    Only [.fab] s (State.sendListData s m off a0) := by
  induction a0 generalizing s m off with
  | nil =>
    unfold State.sendListData
    repeat' first
      | with_reducible exact Only.refl _ _
      | ((with_reducible apply Only.step State.send_only); rfl)
  | cons _ _ ih =>
    unfold State.sendListData
    repeat' first
      | with_reducible exact Only.refl _ _
      | ((with_reducible apply Only.step ih); rfl)
      | (cases ‹List.cons _ _ = List.cons _ _›)
      | ((with_reducible apply Only.step State.send_only); rfl)
      | split

theorem execListPull_only {i : Nat} {s : State} :
    Via inOut [.seg, .fab] s (execListPull i s) := by
  unfold execListPull
  repeat' first
    | with_reducible assumption
    | with_reducible exact Only.refl _ _
    | (lift_lets -underBinder; intro x)
    | (intro x)
    | with_reducible refine Only.foldl (fun _ _ _ => ?_) ?_
    | with_reducible refine Only.step (Via.caseOptSnd State.take_only (by assumption)) rfl ?_
    | ((with_reducible apply Only.step State.want_only); rfl)
    | ((with_reducible apply Only.step State.sendListData_only); rfl)
    | split
    | with_reducible refine Via.of rfl ?_

theorem execListData_only {i : Nat} {s : State} :
    Via inOut [.host, .cred, .fab] s (execListData i s) := by
  unfold execListData
  repeat' first
    | with_reducible assumption
    | with_reducible exact Only.refl _ _
    | (lift_lets -underBinder; intro x)
    | (intro x; refine Only.gen (ps := [.host, .cred, .fab]) (s := s) (x := x) ?_ (fun hx => ?_); unfold x; rotate_left; clear_value x)
    | (intro x)
    | with_reducible refine Only.ite (fun _ => ?_) (fun _ => ?_)
    | with_reducible refine Only.step (Via.caseOptSnd State.take_only (by assumption)) rfl ?_
    | ((with_reducible apply Only.step State.lateResponse_only); rfl)
    | ((with_reducible apply Only.step State.endRequest_only); rfl)
    | ((with_reducible apply Only.step State.modLive_only); rfl)
    | split
    | with_reducible refine Via.of rfl ?_

theorem execSnapshotExport_only {s : State} :
    Via inOut [.out, .host, .cred, .seg, .sched, .grid, .fab] s (execSnapshotExport s) := by
  unfold execSnapshotExport
  repeat' first
    | with_reducible exact Only.refl _ _
    | with_reducible refine Only.step (Via.caseOptSnd State.beginWork_only (by assumption)) rfl ?_
    | ((with_reducible apply Only.step State.refuse_only); rfl)
    | with_reducible refine Only.step (Via.caseSnd State.takeIn_only (by assumption)) rfl ?_
    | ((with_reducible apply Only.step State.stampLive_only); rfl)
    | ((with_reducible apply Only.step State.askStamp_only); rfl)
    | ((with_reducible apply Only.step State.goOnExporting_only); rfl)
    | split
    | with_reducible refine Via.of rfl ?_

end Sys2Proof.Machine
end

