-- ==== Sys2Proof/Laws/Only/Control.lean ====
section
/-! SUPPORT. What each operation of Machine/Control.lean may change. -/

namespace Sys2Proof.Machine

theorem State.clearGrants_only {s : State} {g : Nat} :
    Only [.dict] s (State.clearGrants s g) := by
  unfold State.clearGrants
  try dsimp -zeta -proj only [State.set_dict]
  repeat' first
    | with_reducible exact Only.refl _ _
    | (lift_lets -underBinder; intro x)
    | (intro x)
    | with_reducible refine Only.with_dict ?_ rfl

theorem State.dropColl_only {s : State} {g : Nat} :
    Only [.out, .dict, .mem, .seg, .bw, .colls, .stash, .grid] s (State.dropColl s g) := by
  unfold State.dropColl
  repeat' first
    | with_reducible assumption
    | with_reducible exact Only.refl _ _
    | (lift_lets -underBinder; intro x; refine Only.gen (ps := [.out, .dict, .mem, .seg, .bw, .colls, .stash, .grid]) (s := s) (x := x) ?_ (fun hx => ?_); unfold x; rotate_left; clear_value x)
    | (intro x; refine Only.gen (ps := [.out, .dict, .mem, .seg, .bw, .colls, .stash, .grid]) (s := s) (x := x) ?_ (fun hx => ?_); unfold x; rotate_left; clear_value x)
    | (intro x)
    | with_reducible refine Only.ite (fun _ => ?_) (fun _ => ?_)
    | ((with_reducible apply Only.step State.abandonBuild_only); rfl)
    | ((with_reducible apply Only.step State.clearGrants_only); rfl)
    | ((with_reducible apply Only.step State.flushStash_only); rfl)
    | ((with_reducible apply Only.step State.setColl_only); rfl)
    | ((with_reducible apply Only.step State.retireRest_only); rfl)
    | split

theorem execCollCtrlFlip_only {i : Nat} {s : State} :
    Via inOut [.seg, .colls, .fab] s (execCollCtrlFlip i s) := by
  unfold execCollCtrlFlip
  repeat' first
    | with_reducible exact Only.refl _ _
    | (lift_lets -underBinder; intro x)
    | (intro x)
    | with_reducible refine Only.step (Via.caseOptSnd State.takeCtrl_only (by assumption)) rfl ?_
    | ((with_reducible apply Only.step State.ackCtrl_only); rfl)
    | ((with_reducible apply Only.step State.flip_only); rfl)
    | split
    | with_reducible refine Via.of rfl ?_

theorem State.prepareBuild_only {s : State} {g : Nat} {c : Coll} {generation cut : Nat} :
    Via inExc [.draws, .mem, .seg, .colls, .grid] s (State.prepareBuild s g c generation cut) := by
  unfold State.prepareBuild
  split
  · exact Via.ite (fun _ => Via.of rfl (Only.refl _ _)) (fun _ => Via.nil rfl)
  · have k : Via inExcSnd [.draws, .mem, .seg, .colls, .grid] s (match c.pull with
      | some p => s.buildRepair g c p generation cut
      | none => s.buildRun g c generation cut) := by
      split
      · exact Via.step State.buildRepair_only rfl (Only.refl _ _)
      · exact Via.step State.buildRun_only rfl (Only.refl _ _)
    extract_lets -underBinder built
    have k : Via inExcSnd [.draws, .mem, .seg, .colls, .grid] s built := k
    clear_value built
    rcases built with _ | ⟨p, u⟩
    · exact Via.nil rfl
    · exact Via.of rfl (Only.step State.modColl_only rfl (Via.get k rfl))

theorem State.answerAll_only {s : State} {g status : Nat} {cmds : List (Nat × Nat)} :
    Only [.host, .cred, .fab] s (State.answerAll s g status cmds) := by
  unfold State.answerAll
  repeat' first
    | with_reducible assumption
    | with_reducible exact Only.refl _ _
    | with_reducible refine Only.foldl (fun _ _ _ => ?_) ?_
    | ((with_reducible apply Only.step State.answerMut_only); rfl)

theorem State.startDrop_only {s : State} {g : Nat} {c : Coll} {q : Sequencer} {r : MutReq} :
    Only [.host, .cred, .colls, .fab] s (State.startDrop s g c q r) := by
  unfold State.startDrop
  repeat' first
    | with_reducible assumption
    | with_reducible exact Only.refl _ _
    | (lift_lets -underBinder; intro x)
    | (intro x; refine Only.gen (ps := [.host, .cred, .colls, .fab]) (s := s) (x := x) ?_ (fun hx => ?_); unfold x; rotate_left; clear_value x)
    | with_reducible refine Only.ite (fun _ => ?_) (fun _ => ?_)
    | ((with_reducible apply Only.step State.modSeqr_only); rfl)
    | ((with_reducible apply Only.step State.answerAll_only); rfl)
    | ((with_reducible apply Only.step State.answerMut_only); rfl)
    | ((with_reducible apply Only.step State.ctrlAll_only); rfl)
    | split

theorem State.otherProposals_only {s : State} {c : Coll} {committed : Nat} :
    Via inFst [.draws] s (State.otherProposals s c committed) := by
  unfold State.otherProposals
  repeat' first
    | with_reducible assumption
    | with_reducible exact Only.refl _ _
    | with_reducible refine Only.foldlFst (fun _ _ _ => ?_) ?_
    | ((with_reducible apply Only.step (Via.get State.draw_only rfl)); rfl)
    | with_reducible refine Via.of rfl ?_

theorem State.startRun_only {s : State} {g : Nat} {cmds : List (Nat × Nat)} :
    Only [.draws, .log, .out, .can, .host, .cred, .colls, .sched, .grid, .fab] s (State.startRun s g cmds) := by
  unfold State.startRun
  repeat' first
    | with_reducible exact Only.refl _ _
    | (lift_lets -underBinder; intro x)
    | with_reducible refine Only.ite (fun _ => ?_) (fun _ => ?_)
    | ((with_reducible apply Only.step State.answerAll_only); rfl)
    | ((with_reducible apply Only.step (Via.get State.proposal_only rfl)); rfl)
    | ((with_reducible apply Only.step (Via.get State.otherProposals_only rfl)); rfl)
    | ((with_reducible apply Only.step State.logEvent_only); rfl)
    | ((with_reducible apply Only.step State.modSeqr_only); rfl)
    | split

theorem State.acceptCompact_only {s : State} {g : Nat} {q : Sequencer} {r : MutReq} :
    Only [.draws, .log, .out, .can, .host, .cred, .colls, .sched, .grid, .fab] s (State.acceptCompact s g q r) := by
  unfold State.acceptCompact
  repeat' first
    | with_reducible exact Only.refl _ _
    | with_reducible refine Only.ite (fun _ => ?_) (fun _ => ?_)
    | ((with_reducible apply Only.step State.modSeqr_only); rfl)
    | ((with_reducible apply Only.step State.startRun_only); rfl)

theorem State.acceptLoad_only {s : State} {g : Nat} {c : Coll} {r : MutReq} :
    Only [.cred, .colls, .fab] s (State.acceptLoad s g c r) := by
  unfold State.acceptLoad
  repeat' first
    | with_reducible exact Only.refl _ _
    | (lift_lets -underBinder; intro x)
    | (intro x)
    | ((with_reducible apply Only.step State.ctrlAll_only); rfl)
    | ((with_reducible apply Only.step State.modSeqr_only); rfl)

theorem execSequencerAccept_only {g : Nat} {s : State} :
    Via inOut [.draws, .log, .out, .can, .host, .cred, .seg, .colls, .sched, .grid, .fab] s (execSequencerAccept g s) := by
  unfold execSequencerAccept
  repeat' first
    | with_reducible assumption
    | with_reducible exact Only.refl _ _
    | (lift_lets -underBinder; intro x)
    | (intro x; refine Only.gen (ps := [.draws, .log, .out, .can, .host, .cred, .seg, .colls, .sched, .grid, .fab]) (s := s) (x := x) ?_ (fun hx => ?_); unfold x; rotate_left; clear_value x)
    | (intro x)
    | with_reducible refine Only.foldl (fun _ _ _ => ?_) ?_
    | ((with_reducible apply Only.step State.modSeqr_only); rfl)
    | ((with_reducible apply Only.step State.answerMut_only); rfl)
    | ((with_reducible apply Only.step State.want_only); rfl)
    | ((with_reducible apply Only.step State.startDrop_only); rfl)
    | ((with_reducible apply Only.step State.acceptCompact_only); rfl)
    | ((with_reducible apply Only.step State.acceptLoad_only); rfl)
    | ((with_reducible apply Only.step State.acceptMutation_only); rfl)
    | split
    | with_reducible refine Via.of rfl ?_

theorem execCollCtrlPrepare_only {i : Nat} {s : State} :
    Via inOut [.draws, .mem, .seg, .colls, .grid, .fab] s (execCollCtrlPrepare i s) := by
  unfold execCollCtrlPrepare
  repeat' first
    | with_reducible assumption
    | with_reducible exact Only.refl _ _
    | (lift_lets -underBinder; intro x)
    | (intro x; refine Only.gen (ps := [.draws, .mem, .seg, .colls, .grid, .fab]) (s := s) (x := x) ?_ (fun hx => ?_); unfold x; rotate_left; clear_value x)
    | (intro x)
    | with_reducible refine Only.foldl (fun _ _ _ => ?_) ?_
    | with_reducible refine Only.ite (fun _ => ?_) (fun _ => ?_)
    | with_reducible refine Only.step (Via.caseOptSnd State.takeCtrl_only (by assumption)) rfl ?_
    | ((with_reducible apply Only.step State.ackCtrl_only); rfl)
    | ((with_reducible apply Only.step State.abandonBuild_only); rfl)
    | ((with_reducible apply Only.step State.want_only); rfl)
    | with_reducible refine Only.step (Via.caseExc State.prepareBuild_only (by assumption)) rfl ?_
    | with_reducible refine Only.step (Via.caseOpt State.writeRoot_only (by assumption)) rfl ?_
    | split
    | with_reducible refine Via.of rfl ?_

theorem State.makeColl_only {s : State} {g : Nat} {c : Coll} :
    Via inOpt [.draws, .mem, .seg, .colls] s (State.makeColl s g c) := by
  unfold State.makeColl
  repeat' first
    | with_reducible assumption
    | with_reducible exact Only.refl _ _
    | (lift_lets -underBinder; intro x; refine Only.gen (ps := [.draws, .mem, .seg, .colls]) (s := s) (x := x) ?_ (fun hx => ?_); unfold x; rotate_left; clear_value x)
    | with_reducible refine Only.step (Via.caseOptSnd State.alloc_only (by assumption)) rfl ?_
    | ((with_reducible apply Only.step State.setColl_only); rfl)
    | ((with_reducible apply Only.step State.segWrite_only); rfl)
    | split
    | with_reducible refine Via.of rfl ?_
    | with_reducible exact Via.nil rfl

theorem execCollCtrlCreate_only {i : Nat} {s : State} :
    Via inOut [.draws, .mem, .seg, .colls, .fab] s (execCollCtrlCreate i s) := by
  unfold execCollCtrlCreate
  try dsimp -zeta -proj only [State.set_colls]
  repeat' first
    | with_reducible exact Only.refl _ _
    | (lift_lets -underBinder; intro x)
    | (intro x)
    | with_reducible refine Only.step (Via.caseOptSnd State.takeCtrl_only (by assumption)) rfl ?_
    | ((with_reducible apply Only.step State.ackCtrl_only); rfl)
    | ((with_reducible apply Only.step State.setColl_only); rfl)
    | with_reducible refine Only.step (Via.caseOpt State.makeColl_only (by assumption)) rfl ?_
    | ((with_reducible apply Only.step (Via.get State.draw_only rfl)); rfl)
    | with_reducible refine Only.with_colls ?_ rfl
    | split
    | (clear_value *; split)
    | with_reducible refine Via.of rfl ?_

theorem State.dropLost_only {s : State} {key g : Nat} {c : Coll} :
    Only [.out, .dict, .host, .cred, .mem, .seg, .bw, .colls, .stash, .sched, .grid, .fab] s (State.dropLost s key g c) := by
  unfold State.dropLost
  repeat' first
    | with_reducible assumption
    | with_reducible exact Only.refl _ _
    | (lift_lets -underBinder; intro x; refine Only.gen (ps := [.out, .dict, .host, .cred, .mem, .seg, .bw, .colls, .stash, .sched, .grid, .fab]) (s := s) (x := x) ?_ (fun hx => ?_); unfold x; rotate_left; clear_value x)
    | ((with_reducible apply Only.step State.ctrlAll_only); rfl)
    | ((with_reducible apply Only.step State.failLive_only); rfl)
    | ((with_reducible apply Only.step State.dropColl_only); rfl)

theorem State.admitManage_only {s : State} {op : Nat} :
    Only [.host, .cred, .sched] s (State.admitManage s op) := by
  unfold State.admitManage
  repeat' first
    | with_reducible exact Only.refl _ _
    | with_reducible refine Only.step (Via.caseOptSnd State.beginWork_only (by assumption)) rfl ?_
    | ((with_reducible apply Only.step State.refuse_only); rfl)
    | ((with_reducible apply Only.step (Via.get State.takeIn_only rfl)); rfl)
    | split

theorem execCollCtrlLost_only {i : Nat} {s : State} :
    Via inOut [.colls, .fab] s (execCollCtrlLost i s) := by
  unfold execCollCtrlLost
  repeat' first
    | with_reducible exact Only.refl _ _
    | with_reducible refine Only.step (Via.caseOptSnd State.takeCtrl_only (by assumption)) rfl ?_
    | ((with_reducible apply Only.step State.ackCtrl_only); rfl)
    | ((with_reducible apply Only.step State.modColl_only); rfl)
    | split
    | with_reducible refine Via.of rfl ?_

theorem State.dropAcked_only {s : State} {g d : Nat} :
    Only [.host, .cred, .colls, .fab] s (State.dropAcked s g d) := by
  unfold State.dropAcked
  repeat' first
    | with_reducible exact Only.refl _ _
    | (lift_lets -underBinder; intro x)
    | with_reducible refine Only.ite (fun _ => ?_) (fun _ => ?_)
    | ((with_reducible apply Only.step State.modSeqr_only); rfl)
    | ((with_reducible apply Only.step State.answerMut_only); rfl)
    | split

theorem execCompactTriggerEval_only {s : State} :
    Via inOut [.draws, .log, .out, .can, .host, .cred, .colls, .sched, .grid, .fab] s (execCompactTriggerEval s) := by
  unfold execCompactTriggerEval
  repeat' first
    | with_reducible assumption
    | with_reducible exact Only.refl _ _
    | with_reducible refine Only.foldl (fun _ _ _ => ?_) ?_
    | with_reducible refine Only.ite (fun _ => ?_) (fun _ => ?_)
    | ((with_reducible apply Only.step State.startRun_only); rfl)
    | split
    | with_reducible refine Via.of rfl ?_

theorem State.unmakeColl_only {s : State} {g : Nat} :
    Only [.seg, .colls] s (State.unmakeColl s g) := by
  unfold State.unmakeColl
  try dsimp -zeta -proj only [State.set_colls]
  repeat' first
    | with_reducible assumption
    | with_reducible exact Only.refl _ _
    | (lift_lets -underBinder; intro x)
    | (intro x; refine Only.gen (ps := [.seg, .colls]) (s := s) (x := x) ?_ (fun hx => ?_); unfold x; rotate_left; clear_value x)
    | with_reducible refine Only.foldl (fun _ _ _ => ?_) ?_
    | ((with_reducible apply Only.step State.freeSeg_only); rfl)
    | with_reducible refine Only.with_colls ?_ rfl

theorem State.endCreation_only {s : State} {g : Nat} {c : Coll} {k : Creation} :
    Only [.host, .cred, .seg, .colls, .sched, .grid, .fab] s (State.endCreation s g c k) := by
  unfold State.endCreation
  repeat' first
    | with_reducible assumption
    | with_reducible exact Only.refl _ _
    | (lift_lets -underBinder; intro x; refine Only.gen (ps := [.host, .cred, .seg, .colls, .sched, .grid, .fab]) (s := s) (x := x) ?_ (fun hx => ?_); unfold x; rotate_left; clear_value x)
    | with_reducible refine Only.ite (fun _ => ?_) (fun _ => ?_)
    | ((with_reducible apply Only.step State.failLive_only); rfl)
    | ((with_reducible apply Only.step State.setColl_only); rfl)
    | ((with_reducible apply Only.step State.ctrlAll_only); rfl)
    | ((with_reducible apply Only.step State.unmakeColl_only); rfl)

theorem State.sendCreate_only {s : State} {g d tag : Nat} {bs : List Sys2Proof.Byte} {a0 : Nat} {a1 : List (List Sys2Proof.Byte)} :
    Only [.cred, .fab] s (State.sendCreate s g d tag bs a0 a1) := by
  induction a1 generalizing s g d tag bs a0 with
  | nil =>
    unfold State.sendCreate
    repeat' with_reducible exact Only.refl _ _
  | cons _ _ ih =>
    unfold State.sendCreate
    repeat' first
      | with_reducible exact Only.refl _ _
      | ((with_reducible apply Only.step ih); rfl)
      | ((with_reducible apply Only.step State.request_only); rfl)

theorem execCollectionCreate_only {s : State} :
    Via inOut [.draws, .host, .cred, .mem, .seg, .colls, .sched, .grid, .fab] s (execCollectionCreate s) := by
  unfold execCollectionCreate
  repeat' first
    | with_reducible assumption
    | with_reducible exact Only.refl _ _
    | (lift_lets -underBinder; intro x)
    | (intro x)
    | with_reducible refine Only.foldl (fun _ _ _ => ?_) ?_
    | with_reducible refine Only.step (Via.caseOptSnd State.beginWork_only (by assumption)) rfl ?_
    | ((with_reducible apply Only.step State.refuse_only); rfl)
    | with_reducible refine Only.step (Via.caseSnd State.takeIn_only (by assumption)) rfl ?_
    | with_reducible refine Only.step (Via.caseOpt State.makeColl_only (by assumption)) rfl ?_
    | ((with_reducible apply Only.step State.failLive_only); rfl)
    | ((with_reducible apply Only.step State.endCreation_only); rfl)
    | ((with_reducible apply Only.step State.sendCreate_only); rfl)
    | split
    | with_reducible refine Via.of rfl ?_

theorem State.endRun_only {s : State} {g status : Nat} :
    Only [.draws, .log, .out, .can, .host, .cred, .colls, .sched, .grid, .fab] s (State.endRun s g status) := by
  unfold State.endRun
  repeat' first
    | with_reducible assumption
    | with_reducible exact Only.refl _ _
    | (lift_lets -underBinder; intro x)
    | (intro x; refine Only.gen (ps := [.draws, .log, .out, .can, .host, .cred, .colls, .sched, .grid, .fab]) (s := s) (x := x) ?_ (fun hx => ?_); unfold x; rotate_left; clear_value x)
    | with_reducible refine Only.ite (fun _ => ?_) (fun _ => ?_)
    | ((with_reducible apply Only.step State.modSeqr_only); rfl)
    | ((with_reducible apply Only.step State.answerMut_only); rfl)
    | ((with_reducible apply Only.step State.answerAll_only); rfl)
    | ((with_reducible apply Only.step State.startRun_only); rfl)
    | split

theorem State.prepareAcked_only {s : State} {g d status : Nat} :
    Only [.draws, .log, .out, .can, .host, .cred, .seg, .colls, .sched, .grid, .fab] s (State.prepareAcked s g d status) := by
  unfold State.prepareAcked
  repeat' first
    | with_reducible assumption
    | with_reducible exact Only.refl _ _
    | (lift_lets -underBinder; intro x)
    | (intro x; refine Only.gen (ps := [.draws, .log, .out, .can, .host, .cred, .seg, .colls, .sched, .grid, .fab]) (s := s) (x := x) ?_ (fun hx => ?_); unfold x; rotate_left; clear_value x)
    | (intro x)
    | with_reducible refine Only.ite (fun _ => ?_) (fun _ => ?_)
    | ((with_reducible apply Only.step State.modSeqr_only); rfl)
    | ((with_reducible apply Only.step State.ctrlAll_only); rfl)
    | ((with_reducible apply Only.step State.abandonBuild_only); rfl)
    | ((with_reducible apply Only.step State.logEvent_only); rfl)
    | ((with_reducible apply Only.step State.endRun_only); rfl)
    | split

theorem State.flipAcked_only {s : State} {g d : Nat} :
    Only [.draws, .log, .out, .can, .host, .cred, .colls, .sched, .grid, .fab] s (State.flipAcked s g d) := by
  unfold State.flipAcked
  repeat' first
    | with_reducible assumption
    | with_reducible exact Only.refl _ _
    | (lift_lets -underBinder; intro x)
    | (intro x; refine Only.gen (ps := [.draws, .log, .out, .can, .host, .cred, .colls, .sched, .grid, .fab]) (s := s) (x := x) ?_ (fun hx => ?_); unfold x; rotate_left; clear_value x)
    | with_reducible refine Only.ite (fun _ => ?_) (fun _ => ?_)
    | ((with_reducible apply Only.step State.modSeqr_only); rfl)
    | ((with_reducible apply Only.step State.endRun_only); rfl)
    | ((with_reducible apply Only.step State.logEvent_only); rfl)
    | split

theorem State.createAcked_only {s : State} {g d status : Nat} :
    Only [.host, .cred, .seg, .colls, .sched, .grid, .fab] s (State.createAcked s g d status) := by
  unfold State.createAcked
  repeat' first
    | with_reducible exact Only.refl _ _
    | (lift_lets -underBinder; intro x)
    | (intro x)
    | with_reducible refine Only.ite (fun _ => ?_) (fun _ => ?_)
    | ((with_reducible apply Only.step State.endCreation_only); rfl)
    | ((with_reducible apply Only.step State.setColl_only); rfl)
    | split

theorem State.sendPrepare_only {s : State} {g : Nat} {c : Coll} {r : Run} :
    Only [.cred, .colls, .fab] s (State.sendPrepare s g c r) := by
  unfold State.sendPrepare
  repeat' first
    | with_reducible assumption
    | with_reducible exact Only.refl _ _
    | (lift_lets -underBinder; intro x)
    | (intro x; refine Only.gen (ps := [.cred, .colls, .fab]) (s := s) (x := x) ?_ (fun hx => ?_); unfold x; rotate_left; clear_value x)
    | ((with_reducible apply Only.step State.modSeqr_only); rfl)
    | ((with_reducible apply Only.step State.ctrlAll_only); rfl)

theorem State.loadAcked_only {s : State} {g d status : Nat} :
    Only [.draws, .log, .out, .can, .host, .cred, .colls, .sched, .grid, .fab] s (State.loadAcked s g d status) := by
  unfold State.loadAcked
  repeat' first
    | with_reducible exact Only.refl _ _
    | (lift_lets -underBinder; intro x)
    | with_reducible refine Only.ite (fun _ => ?_) (fun _ => ?_)
    | ((with_reducible apply Only.step State.modSeqr_only); rfl)
    | ((with_reducible apply Only.step State.sendPrepare_only); rfl)
    | ((with_reducible apply Only.step State.endRun_only); rfl)
    | ((with_reducible apply Only.step State.ctrlAll_only); rfl)
    | split

theorem execMutationHandoff_only {b : Fin 64} {q : Fin 16} {s : State} :
    Via inOut [.out, .dict, .host, .cred, .mem, .seg, .bw, .colls, .stash, .sched, .grid, .fab] s (execMutationHandoff b q s) := by
  unfold execMutationHandoff
  repeat' first
    | with_reducible exact Only.refl _ _
    | ((with_reducible apply Only.step State.dropLost_only); rfl)
    | ((with_reducible apply Only.step State.handOff_only); rfl)
    | split
    | with_reducible refine Via.of rfl ?_

theorem execCollCtrlDrop_only {i : Nat} {s : State} :
    Via inOut [.out, .dict, .mem, .seg, .bw, .colls, .stash, .grid, .fab] s (execCollCtrlDrop i s) := by
  unfold execCollCtrlDrop
  repeat' first
    | with_reducible exact Only.refl _ _
    | with_reducible refine Only.step (Via.caseOptSnd State.takeCtrl_only (by assumption)) rfl ?_
    | ((with_reducible apply Only.step State.ackCtrl_only); rfl)
    | ((with_reducible apply Only.step State.dropColl_only); rfl)
    | split
    | with_reducible refine Via.of rfl ?_

theorem execCompact_only {s : State} :
    Via inOut [.host, .cred, .sched] s (execCompact s) := by
  unfold execCompact
  repeat' first
    | with_reducible exact Only.refl _ _
    | ((with_reducible apply Only.step State.admitManage_only); rfl)
    | with_reducible refine Via.of rfl ?_

theorem execCompactCopyDone_only {g : Nat} {s : State} :
    Via inOut [.draws, .log, .out, .can, .host, .cred, .mem, .seg, .colls, .sched, .grid, .fab] s (execCompactCopyDone g s) := by
  unfold execCompactCopyDone
  repeat' first
    | with_reducible assumption
    | with_reducible exact Only.refl _ _
    | (lift_lets -underBinder; intro x)
    | (intro x; refine Only.gen (ps := [.draws, .log, .out, .can, .host, .cred, .mem, .seg, .colls, .sched, .grid, .fab]) (s := s) (x := x) ?_ (fun hx => ?_); unfold x; rotate_left; clear_value x)
    | with_reducible refine Only.foldl (fun _ _ _ => ?_) ?_
    | ((with_reducible apply Only.step State.endRun_only); rfl)
    | ((with_reducible apply Only.step State.want_only); rfl)
    | ((with_reducible apply Only.step State.abandonBuild_only); rfl)
    | with_reducible refine Only.step (Via.caseExcSnd State.buildRun_only (by assumption)) rfl ?_
    | ((with_reducible apply Only.step State.sendPrepare_only); rfl)
    | ((with_reducible apply Only.step State.modColl_only); rfl)
    | ((with_reducible apply Only.step State.logEvent_only); rfl)
    | ((with_reducible apply Only.step State.modSeqr_only); rfl)
    | split
    | with_reducible refine Via.of rfl ?_

theorem execCollectionDrop_only {s : State} :
    Via inOut [.host, .cred, .sched] s (execCollectionDrop s) := by
  unfold execCollectionDrop
  repeat' first
    | with_reducible exact Only.refl _ _
    | ((with_reducible apply Only.step State.admitManage_only); rfl)
    | with_reducible refine Via.of rfl ?_

end Sys2Proof.Machine
end

