-- ==== Sys2Proof/Laws/Only/Scrub.lean ====
section
/-! SUPPORT. What each operation of Machine/Scrub.lean may change. -/

namespace Sys2Proof.Machine

theorem execFenceComplete_only {b : Fin 64} {q : Fin 16} {s : State} :
    Via inOut [.host, .cred, .colls, .sched, .grid, .fab] s (execFenceComplete b q s) := by
  unfold execFenceComplete
  repeat' first
    | with_reducible exact Only.refl _ _
    | (lift_lets -underBinder; intro x)
    | ((with_reducible apply Only.step State.failLive_only); rfl)
    | ((with_reducible apply Only.step State.finish_only); rfl)
    | ((with_reducible apply Only.step State.setColl_only); rfl)
    | ((with_reducible apply Only.step State.askStamp_only); rfl)
    | split
    | with_reducible refine Via.of rfl ?_

theorem State.settlePrepared_only {s : State} {g : Nat} :
    Only [.seg, .colls, .grid] s (State.settlePrepared s g) := by
  unfold State.settlePrepared
  repeat' first
    | with_reducible exact Only.refl _ _
    | with_reducible refine Only.ite (fun _ => ?_) (fun _ => ?_)
    | ((with_reducible apply Only.step State.flip_only); rfl)
    | ((with_reducible apply Only.step State.abandonBuild_only); rfl)
    | split

theorem State.cutStripe_only {s : State} {g : Nat} {c : Coll} {n r next : Nat} :
    Via inFst [.mem, .seg] s (State.cutStripe s g c n r next) := by
  unfold State.cutStripe
  repeat' first
    | with_reducible assumption
    | with_reducible exact Only.refl _ _
    | (lift_lets -underBinder; intro x)
    | (intro x)
    | with_reducible refine Only.foldl (fun _ _ _ => ?_) ?_
    | with_reducible refine Via.ite (fun _ => ?_) (fun _ => ?_)
    | ((with_reducible apply Only.step State.freeSeg_only); rfl)
    | ((with_reducible apply Only.step State.segWrite_only); rfl)
    | with_reducible refine Via.of rfl ?_

theorem State.cutStripes_only {s : State} {g : Nat} {c : Coll} {r : Nat} {a0 : List Nat} :
    Via inFst [.mem, .seg] s (State.cutStripes s g c r a0) := by
  induction a0 generalizing s g c r with
  | nil =>
    unfold State.cutStripes
    repeat' first
      | with_reducible exact Only.refl _ _
      | with_reducible refine Via.of rfl ?_
  | cons _ _ ih =>
    unfold State.cutStripes
    repeat' first
      | with_reducible exact Only.refl _ _
      | with_reducible refine Only.step (Via.caseFst ih (by assumption)) rfl ?_
      | with_reducible refine Only.step (Via.caseFst State.cutStripe_only (by assumption)) rfl ?_
      | split
      | with_reducible refine Via.of rfl ?_

theorem State.rollBack_only {s : State} {g r : Nat} :
    Only [.out, .host, .cred, .mem, .seg, .colls, .stash, .grid, .fab] s (State.rollBack s g r) := by
  unfold State.rollBack
  try dsimp -zeta -proj only [State.set_stash]
  repeat' first
    | with_reducible assumption
    | with_reducible exact Only.refl _ _
    | (lift_lets -underBinder; intro x; refine Only.gen (ps := [.out, .host, .cred, .mem, .seg, .colls, .stash, .grid, .fab]) (s := s) (x := x) ?_ (fun hx => ?_); unfold x; rotate_left; clear_value x)
    | (intro x; refine Only.gen (ps := [.out, .host, .cred, .mem, .seg, .colls, .stash, .grid, .fab]) (s := s) (x := x) ?_ (fun hx => ?_); unfold x; rotate_left; clear_value x)
    | with_reducible refine Only.foldl (fun _ _ _ => ?_) ?_
    | with_reducible refine Only.ite (fun _ => ?_) (fun _ => ?_)
    | with_reducible refine Only.getD ?_ ?_
    | ((with_reducible apply Via.step State.unkillAt_only); rfl)
    | ((with_reducible apply Only.step (Via.get State.cutStripes_only rfl)); rfl)
    | ((with_reducible apply Only.step State.segWrite_only); rfl)
    | ((with_reducible apply Only.step State.answerMut_only); rfl)
    | ((with_reducible apply Only.step State.modColl_only); rfl)
    | with_reducible refine Only.with_stash ?_ rfl
    | split

theorem State.endScrub_only {s : State} {g : Nat} {c : Coll} :
    Only [.log, .out, .can, .host, .cred, .mem, .seg, .colls, .stash, .grid, .fab] s (State.endScrub s g c) := by
  unfold State.endScrub
  repeat' first
    | with_reducible exact Only.refl _ _
    | (lift_lets -underBinder; intro x)
    | ((with_reducible apply Only.step State.logEvent_only); rfl)
    | ((with_reducible apply Only.step State.modColl_only); rfl)
    | ((with_reducible apply Only.step State.rollBack_only); rfl)

theorem State.scrubColl_only {s : State} {g : Nat} :
    Only [.log, .out, .can, .host, .cred, .mem, .seg, .colls, .stash, .grid, .fab] s (State.scrubColl s g) := by
  unfold State.scrubColl
  repeat' first
    | with_reducible assumption
    | with_reducible exact Only.refl _ _
    | (lift_lets -underBinder; intro x; refine Only.gen (ps := [.log, .out, .can, .host, .cred, .mem, .seg, .colls, .stash, .grid, .fab]) (s := s) (x := x) ?_ (fun hx => ?_); unfold x; rotate_left; clear_value x)
    | (lift_lets -underBinder; intro x)
    | (intro x; refine Only.gen (ps := [.log, .out, .can, .host, .cred, .mem, .seg, .colls, .stash, .grid, .fab]) (s := s) (x := x) ?_ (fun hx => ?_); unfold x; rotate_left; clear_value x)
    | (intro x)
    | with_reducible refine Only.ite (fun _ => ?_) (fun _ => ?_)
    | ((with_reducible apply Only.step State.settlePrepared_only); rfl)
    | ((with_reducible apply Only.step State.ctrlAll_only); rfl)
    | ((with_reducible apply Only.step State.endScrub_only); rfl)
    | split

theorem State.recount_only {s : State} :
    Only [.seg] s (State.recount s) := by
  unfold State.recount
  try dsimp -zeta -proj only [State.set_seg]
  repeat' first
    | with_reducible exact Only.refl _ _
    | (lift_lets -underBinder; intro x)
    | (intro x)
    | with_reducible refine Only.with_seg ?_ rfl

theorem execStartupScrub_only {s : State} :
    Via inOut [.boot, .log, .out, .can, .host, .cred, .mem, .seg, .colls, .stash, .grid, .fab] s (execStartupScrub s) := by
  unfold execStartupScrub
  try dsimp -zeta -proj only [State.set_boot]
  repeat' first
    | with_reducible assumption
    | with_reducible exact Only.refl _ _
    | (lift_lets -underBinder; intro x; refine Only.gen (ps := [.boot, .log, .out, .can, .host, .cred, .mem, .seg, .colls, .stash, .grid, .fab]) (s := s) (x := x) ?_ (fun hx => ?_); unfold x; rotate_left; clear_value x)
    | (intro x; refine Only.gen (ps := [.boot, .log, .out, .can, .host, .cred, .mem, .seg, .colls, .stash, .grid, .fab]) (s := s) (x := x) ?_ (fun hx => ?_); unfold x; rotate_left; clear_value x)
    | (intro x)
    | with_reducible refine Only.foldl (fun _ _ _ => ?_) ?_
    | ((with_reducible apply Only.step State.scrubColl_only); rfl)
    | ((with_reducible apply Only.step State.freeSeg_only); rfl)
    | ((with_reducible apply Only.step State.recount_only); rfl)
    | ((with_reducible apply Only.step State.segmentAudit_only); rfl)
    | with_reducible refine Only.with_boot ?_ rfl
    | split
    | with_reducible refine Via.of rfl ?_

theorem State.scrubReported_only {s : State} {g d flushed : Nat} :
    Only [.log, .out, .can, .host, .cred, .mem, .seg, .colls, .stash, .grid, .fab] s (State.scrubReported s g d flushed) := by
  unfold State.scrubReported
  repeat' first
    | with_reducible assumption
    | with_reducible exact Only.refl _ _
    | (lift_lets -underBinder; intro x)
    | (intro x; refine Only.gen (ps := [.log, .out, .can, .host, .cred, .mem, .seg, .colls, .stash, .grid, .fab]) (s := s) (x := x) ?_ (fun hx => ?_); unfold x; rotate_left; clear_value x)
    | with_reducible refine Only.ite (fun _ => ?_) (fun _ => ?_)
    | ((with_reducible apply Only.step State.setColl_only); rfl)
    | ((with_reducible apply Only.step State.endScrub_only); rfl)
    | split

theorem execCtrlAck_only {i : Nat} {s : State} :
    Via inOut [.draws, .log, .out, .can, .host, .cred, .mem, .seg, .colls, .stash, .sched, .grid, .fab] s (execCtrlAck i s) := by
  unfold execCtrlAck
  repeat' first
    | with_reducible assumption
    | with_reducible exact Only.refl _ _
    | (lift_lets -underBinder; intro x; refine Only.gen (ps := [.draws, .log, .out, .can, .host, .cred, .mem, .seg, .colls, .stash, .sched, .grid, .fab]) (s := s) (x := x) ?_ (fun hx => ?_); unfold x; rotate_left; clear_value x)
    | (lift_lets -underBinder; intro x)
    | (intro x)
    | with_reducible refine Only.step (Via.caseOptSnd State.takeKind_only (by assumption)) rfl ?_
    | ((with_reducible apply Only.step State.lateResponse_only); rfl)
    | ((with_reducible apply Only.step State.endRequest_only); rfl)
    | ((with_reducible apply Only.step State.createAcked_only); rfl)
    | ((with_reducible apply Only.step State.prepareAcked_only); rfl)
    | ((with_reducible apply Only.step State.flipAcked_only); rfl)
    | ((with_reducible apply Only.step State.dropAcked_only); rfl)
    | ((with_reducible apply Only.step State.loadAcked_only); rfl)
    | ((with_reducible apply Only.step State.scrubReported_only); rfl)
    | split
    | with_reducible refine Via.of rfl ?_

theorem execFence_only {s : State} :
    Via inOut [.host, .cred, .sched] s (execFence s) := by
  unfold execFence
  repeat' first
    | with_reducible exact Only.refl _ _
    | with_reducible refine Only.step (Via.caseOptSnd State.beginWork_only (by assumption)) rfl ?_
    | ((with_reducible apply Only.step State.refuse_only); rfl)
    | ((with_reducible apply Only.step (Via.get State.takeIn_only rfl)); rfl)
    | split
    | with_reducible refine Via.of rfl ?_

theorem execCollCtrlScrubState_only {i : Nat} {s : State} :
    Via inOut [.log, .out, .can, .host, .cred, .mem, .seg, .bw, .colls, .stash, .grid, .fab] s (execCollCtrlScrubState i s) := by
  unfold execCollCtrlScrubState
  repeat' first
    | with_reducible assumption
    | with_reducible exact Only.refl _ _
    | (lift_lets -underBinder; intro x; refine Only.gen (ps := [.log, .out, .can, .host, .cred, .mem, .seg, .bw, .colls, .stash, .grid, .fab]) (s := s) (x := x) ?_ (fun hx => ?_); unfold x; rotate_left; clear_value x)
    | (lift_lets -underBinder; intro x)
    | (intro x; refine Only.gen (ps := [.log, .out, .can, .host, .cred, .mem, .seg, .bw, .colls, .stash, .grid, .fab]) (s := s) (x := x) ?_ (fun hx => ?_); unfold x; rotate_left; clear_value x)
    | (intro x)
    | with_reducible refine Only.ite (fun _ => ?_) (fun _ => ?_)
    | with_reducible refine Only.step (Via.caseOptSnd State.takeCtrl_only (by assumption)) rfl ?_
    | ((with_reducible apply Only.step State.flushStash_only); rfl)
    | ((with_reducible apply Only.step State.ackCtrl_only); rfl)
    | ((with_reducible apply Only.step State.scrubReported_only); rfl)
    | ((with_reducible apply Only.step State.rollBack_only); rfl)
    | split
    | with_reducible refine Via.of rfl ?_

end Sys2Proof.Machine
end

