-- ==== Sys2Proof/Laws/Only/Payload.lean ====
section
/-! SUPPORT. What each operation of Machine/Payload.lean may change. -/

namespace Sys2Proof.Machine

theorem State.deliverOne_only {s : State} {q : Ctx} {owner : Nat} {acc : State × Delivery} {ih : Nat × Nat} (h : Only [.out, .seg, .bw] s acc.1) :
    Via inFst [.out, .seg, .bw] s (State.deliverOne s q owner acc ih) := by
  rcases acc with ⟨t, d⟩
  rcases ih with ⟨i, n⟩
  unfold State.deliverOne
  dsimp -zeta only
  extract_lets -underBinder write
  have w : ∀ u off bs, Only [.out, .seg, .bw] s u → Only [.out, .seg, .bw] s (write u off bs) := fun u off bs k => Only.step State.emit_only rfl k
  clear_value write
  have k : Only [.out, .seg, .bw] s t := h
  split
  · exact Via.of rfl (w _ _ _ k)
  · refine Via.ite (fun _ => Via.of rfl (w _ _ _ k)) (fun _ => Via.ite (fun _ => Via.of rfl (w _ _ _ k)) (fun _ => ?_))
    exact Via.of rfl (Only.step State.touch_only rfl (Only.step State.chargeUpTo_only rfl (w _ _ _ (w _ _ _ k))))

theorem State.deliverPayloads_only {s : State} {q : Ctx} {owner : Nat} {hs : List Nat} :
    Only [.out, .seg, .bw] s (State.deliverPayloads s q owner hs) := by
  unfold State.deliverPayloads
  exact Only.foldlFst (fun u x hu => Via.get (State.deliverOne_only hu) rfl) (Only.refl _ _)

theorem State.payReadGoes_only {s : State} {key : Nat} :
    Only [.out, .host, .seg, .bw] s (State.payReadGoes s key) := by
  unfold State.payReadGoes
  repeat' first
    | with_reducible exact Only.refl _ _
    | (lift_lets -underBinder; intro x)
    | (intro x)
    | with_reducible refine Only.ite (fun _ => ?_) (fun _ => ?_)
    | ((with_reducible apply Only.step State.emit_only); rfl)
    | ((with_reducible apply Only.step State.finish_only); rfl)
    | ((with_reducible apply Only.step State.want_only); rfl)
    | with_reducible refine Only.step (Via.caseOpt State.charge_only (by assumption)) rfl ?_
    | ((with_reducible apply Only.step State.touch_only); rfl)
    | split

theorem State.freeGranules_only {s : State} {v : Handle} :
    Only [.seg, .pay] s (State.freeGranules s v) := by
  unfold State.freeGranules
  try dsimp -zeta -proj only [State.set_pay]
  repeat' first
    | with_reducible exact Only.refl _ _
    | (lift_lets -underBinder; intro x)
    | (intro x)
    | with_reducible refine Only.ite (fun _ => ?_) (fun _ => ?_)
    | ((with_reducible apply Only.step State.freeSeg_only); rfl)
    | with_reducible refine Only.with_pay ?_ rfl
    | split

theorem State.useRun_only {s : State} {seg first g : Nat} :
    Only [.pay] s (State.useRun s seg first g) := by
  unfold State.useRun
  try dsimp -zeta -proj only [State.set_pay]
  repeat' first
    | with_reducible exact Only.refl _ _
    | (lift_lets -underBinder; intro x)
    | (intro x)
    | with_reducible refine Only.with_pay ?_ rfl

theorem State.unpublish_only {s : State} {b h : Nat} :
    Only [.pay] s (State.unpublish s b h) := by
  unfold State.unpublish
  try dsimp -zeta -proj only [State.set_pay]
  repeat' first
    | with_reducible exact Only.refl _ _
    | (lift_lets -underBinder; intro x)
    | with_reducible refine Only.with_pay ?_ rfl
    | split

theorem State.needPage_only {s : State} {b h : Nat} :
    Via inOpt [.draws, .seg, .pay] s (State.needPage s b h) := by
  unfold State.needPage
  try dsimp -zeta -proj only [State.set_pay]
  repeat' first
    | with_reducible assumption
    | with_reducible exact Only.refl _ _
    | (lift_lets -underBinder; intro x; refine Only.gen (ps := [.draws, .seg, .pay]) (s := s) (x := x) ?_ (fun hx => ?_); unfold x; rotate_left; clear_value x)
    | (intro x)
    | with_reducible refine Via.map rfl (fun _ _ => ?_)
    | with_reducible refine Via.ite (fun _ => ?_) (fun _ => ?_)
    | with_reducible refine Only.step (Via.caseOptSnd State.alloc_only (by assumption)) rfl ?_
    | with_reducible refine Only.with_pay ?_ rfl
    | with_reducible refine Via.of rfl ?_

theorem State.needRun_only {s : State} {b g : Nat} :
    Via inOptSnd [.draws, .seg] s (State.needRun s b g) := by
  unfold State.needRun
  repeat' first
    | with_reducible exact Only.refl _ _
    | with_reducible refine Via.map rfl (fun _ _ => ?_)
    | with_reducible refine Only.step (Via.caseOptSnd State.alloc_only (by assumption)) rfl ?_
    | split
    | with_reducible refine Via.of rfl ?_

theorem State.payPublish_only {s : State} {b : Nat} {d src : List Sys2Proof.Byte} :
    Via inOptFst [.draws, .mem, .seg, .bw, .pay] s (State.payPublish s b d src) := by
  unfold State.payPublish
  try dsimp -zeta -proj only [State.set_pay]
  repeat' first
    | with_reducible assumption
    | with_reducible exact Only.refl _ _
    | (lift_lets -underBinder; intro x; refine Only.gen (ps := [.draws, .mem, .seg, .bw, .pay]) (s := s) (x := x) ?_ (fun hx => ?_); unfold x; rotate_left; clear_value x)
    | (lift_lets -underBinder; intro x)
    | (intro x)
    | with_reducible refine Via.map rfl (fun _ _ => ?_)
    | with_reducible refine Via.ite (fun _ => ?_) (fun _ => ?_)
    | ((with_reducible apply Only.step State.unpublish_only); rfl)
    | with_reducible refine Only.step (Via.caseOpt State.needPage_only (by assumption)) rfl ?_
    | with_reducible refine Only.step (Via.caseOptSnd State.needRun_only (by assumption)) rfl ?_
    | ((with_reducible apply Only.step State.segWrite_only); rfl)
    | ((with_reducible apply Only.step State.useRun_only); rfl)
    | with_reducible refine Only.step (Via.caseOpt State.charge_only (by assumption)) rfl ?_
    | with_reducible refine Only.with_pay ?_ rfl
    | split
    | with_reducible refine Via.of rfl ?_

theorem State.payWriteGoes_only {s : State} {key : Nat} :
    Only [.draws, .host, .mem, .seg, .bw, .pay] s (State.payWriteGoes s key) := by
  unfold State.payWriteGoes
  repeat' first
    | with_reducible exact Only.refl _ _
    | (lift_lets -underBinder; intro x)
    | with_reducible refine Only.step (Via.caseOptFst State.payPublish_only (by assumption)) rfl ?_
    | ((with_reducible apply Only.step State.finish_only); rfl)
    | split

theorem execPayloadWrite_only {data : List Sys2Proof.Byte} {s : State} :
    Via inOut [.draws, .out, .host, .cred, .mem, .seg, .bw, .sched, .pay] s (execPayloadWrite data s) := by
  unfold execPayloadWrite
  repeat' first
    | with_reducible assumption
    | with_reducible exact Only.refl _ _
    | (lift_lets -underBinder; intro x; refine Only.gen (ps := [.draws, .out, .host, .cred, .mem, .seg, .bw, .sched, .pay]) (s := s) (x := x) ?_ (fun hx => ?_); unfold x; rotate_left; clear_value x)
    | (lift_lets -underBinder; intro x)
    | (intro x; refine Only.gen (ps := [.draws, .out, .host, .cred, .mem, .seg, .bw, .sched, .pay]) (s := s) (x := x) ?_ (fun hx => ?_); unfold x; rotate_left; clear_value x)
    | (intro x)
    | with_reducible refine Only.ite (fun _ => ?_) (fun _ => ?_)
    | with_reducible refine Only.step (Via.caseOptSnd State.beginWork_only (by assumption)) rfl ?_
    | with_reducible refine Only.step (Via.caseSnd State.takeIn_only (by assumption)) rfl ?_
    | ((with_reducible apply Only.step State.setLive_only); rfl)
    | ((with_reducible apply Only.step State.emit_only); rfl)
    | ((with_reducible apply Only.step State.payWriteGoes_only); rfl)
    | ((with_reducible apply Only.step State.refuse_only); rfl)
    | split
    | with_reducible refine Via.of rfl ?_

theorem execPayloadRead_only {s : State} :
    Via inOut [.out, .host, .cred, .seg, .bw, .sched] s (execPayloadRead s) := by
  unfold execPayloadRead
  repeat' first
    | with_reducible exact Only.refl _ _
    | with_reducible refine Only.step (Via.caseOptSnd State.beginWork_only (by assumption)) rfl ?_
    | with_reducible refine Only.step (Via.caseSnd State.takeIn_only (by assumption)) rfl ?_
    | ((with_reducible apply Only.step State.payReadGoes_only); rfl)
    | ((with_reducible apply Only.step State.refuse_only); rfl)
    | split
    | with_reducible refine Via.of rfl ?_

theorem execPayloadGranuleFree_only {i : Nat} {s : State} :
    Via inOut [.seg, .pay] s (execPayloadGranuleFree i s) := by
  unfold execPayloadGranuleFree
  try dsimp -zeta -proj only [State.set_pay]
  repeat' first
    | with_reducible exact Only.refl _ _
    | (lift_lets -underBinder; intro x)
    | ((with_reducible apply Only.step State.freeGranules_only); rfl)
    | with_reducible refine Only.with_pay ?_ rfl
    | split
    | with_reducible refine Via.of rfl ?_

end Sys2Proof.Machine
end

