-- ==== Sys2Proof/Laws/Only/Results.lean ====
section
/-! SUPPORT. What each operation of Machine/Results.lean may change. -/

namespace Sys2Proof.Machine

theorem State.openRemote_only {s : State} {c : Coll} {q : Ctx} :
    Via inOptSnd [.draws, .cred, .sched, .grid] s (State.openRemote s c q) := by
  unfold State.openRemote
  repeat' first
    | with_reducible exact Only.refl _ _
    | (lift_lets -underBinder; intro x)
    | (intro x)
    | with_reducible refine Via.ite (fun _ => ?_) (fun _ => ?_)
    | with_reducible refine Only.step (Via.caseOptSnd State.newCtx_only (by assumption)) rfl ?_
    | ((with_reducible apply Only.step (Via.get State.draw_only rfl)); rfl)
    | with_reducible refine Only.step (Via.caseSnd State.takeSlots_only (by assumption)) rfl ?_
    | ((with_reducible apply Only.step State.reserve_only); rfl)
    | ((with_reducible apply Only.step State.modCtx_only); rfl)
    | split
    | with_reducible refine Via.of rfl ?_
    | with_reducible exact Via.nil rfl

theorem State.wantRecords_only {s : State} {ds : List Cand} :
    Only [.seg] s (State.wantRecords s ds) := by
  unfold State.wantRecords
  repeat' first
    | with_reducible assumption
    | with_reducible exact Only.refl _ _
    | with_reducible refine Only.foldl (fun _ _ _ => ?_) ?_
    | ((with_reducible apply Only.step State.want_only); rfl)

theorem State.resultWrite_only {s : State} {o : Origin} {addr : Nat} {bs : List Sys2Proof.Byte} :
    Only [.out, .host] s (State.resultWrite s o addr bs) := by
  unfold State.resultWrite
  repeat' first
    | with_reducible exact Only.refl _ _
    | (lift_lets -underBinder; intro x)
    | with_reducible refine Only.ite (fun _ => ?_) (fun _ => ?_)
    | ((with_reducible apply Only.step State.setBurrow_only); rfl)
    | ((with_reducible apply Only.step State.emit_only); rfl)

theorem State.writeBurst_only {s : State} {o : Origin} {q : Ctx} {recs : List (List Sys2Proof.Byte)} :
    Only [.out, .host, .cred] s (State.writeBurst s o q recs) := by
  unfold State.writeBurst
  repeat' first
    | with_reducible assumption
    | with_reducible exact Only.refl _ _
    | (lift_lets -underBinder; intro x)
    | (intro x; refine Only.gen (ps := [.out, .host, .cred]) (s := s) (x := x) ?_ (fun hx => ?_); unfold x; rotate_left; clear_value x)
    | with_reducible refine Only.foldl (fun _ _ _ => ?_) ?_
    | ((with_reducible apply Only.step State.reserve_only); rfl)
    | ((with_reducible apply Only.step State.resultWrite_only); rfl)
    | ((with_reducible apply Only.step State.giveBack_only); rfl)

theorem State.finishResults_only {s : State} {a0 : Nat} {q : Ctx} {owner : Nat} :
    Only [.out, .host, .cred, .seg, .bw, .sched, .grid, .fab] s (State.finishResults s a0 q owner) := by
  unfold State.finishResults
  repeat' first
    | with_reducible assumption
    | with_reducible exact Only.refl _ _
    | (lift_lets -underBinder; intro x)
    | with_reducible refine Only.foldl (fun _ _ _ => ?_) ?_
    | with_reducible refine Only.ite (fun _ => ?_) (fun _ => ?_)
    | ((with_reducible apply Only.step State.endQuery_only); rfl)
    | ((with_reducible apply Only.step State.wantRecords_only); rfl)
    | ((with_reducible apply Only.step State.want_only); rfl)
    | ((with_reducible apply Only.step State.deliverPayloads_only); rfl)

theorem State.writeResults_only {s : State} {a0 : Nat} {q : Ctx} {c : Coll} {o : Origin} :
    Only [.out, .host, .cred, .seg, .bw, .sched, .grid, .fab] s (State.writeResults s a0 q c o) := by
  unfold State.writeResults
  repeat' first
    | with_reducible assumption
    | with_reducible exact Only.refl _ _
    | (lift_lets -underBinder; intro x; refine Only.gen (ps := [.out, .host, .cred, .seg, .bw, .sched, .grid, .fab]) (s := s) (x := x) ?_ (fun hx => ?_); unfold x; rotate_left; clear_value x)
    | (lift_lets -underBinder; intro x)
    | (intro x; refine Only.gen (ps := [.out, .host, .cred, .seg, .bw, .sched, .grid, .fab]) (s := s) (x := x) ?_ (fun hx => ?_); unfold x; rotate_left; clear_value x)
    | (intro x)
    | with_reducible refine Only.ite (fun _ => ?_) (fun _ => ?_)
    | ((with_reducible apply Only.step State.setCtx_only); rfl)
    | ((with_reducible apply Only.step State.wantRecords_only); rfl)
    | ((with_reducible apply Only.step State.writeBurst_only); rfl)
    | ((with_reducible apply Only.step State.finishResults_only); rfl)
    | split

theorem execResultWrite_only {a0 : Nat} {s : State} :
    Via inOut [.out, .host, .cred, .seg, .bw, .sched, .grid, .fab] s (execResultWrite a0 s) := by
  unfold execResultWrite
  repeat' first
    | with_reducible exact Only.refl _ _
    | ((with_reducible apply Only.step State.writeResults_only); rfl)
    | split
    | with_reducible refine Via.of rfl ?_

theorem State.partialArrives_only {s : State} {a0 : Nat} {c : Coll} {m : List Sys2Proof.Byte} :
    Only [.sched] s (State.partialArrives s a0 c m) := by
  unfold State.partialArrives
  repeat' first
    | with_reducible exact Only.refl _ _
    | (lift_lets -underBinder; intro x)
    | (intro x)
    | ((with_reducible apply Only.step State.modCtx_only); rfl)

theorem execWaveRsp_only {i : Nat} {s : State} :
    Via inOut [.cred, .sched, .fab] s (execWaveRsp i s) := by
  unfold execWaveRsp
  repeat' first
    | with_reducible assumption
    | with_reducible exact Only.refl _ _
    | (lift_lets -underBinder; intro x; refine Only.gen (ps := [.cred, .sched, .fab]) (s := s) (x := x) ?_ (fun hx => ?_); unfold x; rotate_left; clear_value x)
    | with_reducible refine Only.ite (fun _ => ?_) (fun _ => ?_)
    | with_reducible refine Only.step (Via.caseOptSnd State.take_only (by assumption)) rfl ?_
    | ((with_reducible apply Only.step State.lateResponse_only); rfl)
    | ((with_reducible apply Only.step State.endRequest_only); rfl)
    | ((with_reducible apply Only.step State.partialArrives_only); rfl)
    | split
    | with_reducible refine Via.of rfl ?_

theorem State.sendPartial_only {s : State} {q : Ctx} {a0 : Nat} {a1 : List Nat} {a2 : List (List Sys2Proof.Byte)} :
    Only [.fab] s (State.sendPartial s q a0 a1 a2) := by
  induction a0 generalizing s q a1 a2 with
  | zero =>
    unfold State.sendPartial
    repeat' with_reducible exact Only.refl _ _
  | succ _ ih =>
    unfold State.sendPartial
    repeat' first
      | with_reducible assumption
      | with_reducible exact Only.refl _ _
      | ((with_reducible apply Only.step ih); rfl)
      | (lift_lets -underBinder; intro x)
      | (intro x; refine Only.gen (ps := [.fab]) (s := s) (x := x) ?_ (fun hx => ?_); unfold x; rotate_left; clear_value x)
      | (intro x)
      | with_reducible refine Only.ite (fun _ => ?_) (fun _ => ?_)
      | ((with_reducible apply Only.step State.send_only); rfl)

theorem State.endRemoteWave_only {s : State} {a0 : Nat} {q : Ctx} {c : Coll} :
    Only [.seg, .sched, .fab] s (State.endRemoteWave s a0 q c) := by
  unfold State.endRemoteWave
  repeat' first
    | with_reducible exact Only.refl _ _
    | (lift_lets -underBinder; intro x)
    | ((with_reducible apply Only.step State.wantRecords_only); rfl)
    | ((with_reducible apply Only.step State.setCtx_only); rfl)
    | ((with_reducible apply Only.step State.sendPartial_only); rfl)
    | split

theorem State.remoteWave_only {s : State} {a0 : Nat} {q : Ctx} {c : Coll} {lists : List Nat} :
    Only [.log, .out, .can, .host, .cred, .colls, .sched, .grid] s (State.remoteWave s a0 q c lists) := by
  unfold State.remoteWave
  repeat' first
    | with_reducible assumption
    | with_reducible exact Only.refl _ _
    | (lift_lets -underBinder; intro x)
    | (intro x; refine Only.gen (ps := [.log, .out, .can, .host, .cred, .colls, .sched, .grid]) (s := s) (x := x) ?_ (fun hx => ?_); unfold x; rotate_left; clear_value x)
    | (intro x)
    | with_reducible refine Only.foldl (fun _ _ _ => ?_) ?_
    | with_reducible refine Only.ite (fun _ => ?_) (fun _ => ?_)
    | ((with_reducible apply Only.step State.damageBlock_only); rfl)
    | ((with_reducible apply Only.step State.setCtx_only); rfl)
    | ((with_reducible apply Only.step State.issueList_only); rfl)
    | ((with_reducible apply Only.step State.issueStash_only); rfl)

theorem State.waveRequest_only {s : State} {m : List Sys2Proof.Byte} :
    Via inOpt [.draws, .log, .out, .can, .host, .cred, .colls, .sched, .grid] s (State.waveRequest s m) := by
  unfold State.waveRequest
  repeat' first
    | with_reducible exact Only.refl _ _
    | (lift_lets -underBinder; intro x)
    | (intro x)
    | with_reducible refine Via.ite (fun _ => ?_) (fun _ => ?_)
    | ((with_reducible apply Only.step State.remoteWave_only); rfl)
    | with_reducible refine Only.step (Via.caseOptSnd State.openRemote_only (by assumption)) rfl ?_
    | split
    | with_reducible refine Via.of rfl ?_
    | with_reducible exact Via.nil rfl

theorem execWaveReq_only {i : Nat} {s : State} :
    Via inOut [.draws, .log, .out, .can, .host, .cred, .colls, .sched, .grid, .fab] s (execWaveReq i s) := by
  unfold execWaveReq
  repeat' first
    | with_reducible exact Only.refl _ _
    | with_reducible refine Only.getD ?_ ?_
    | with_reducible refine Only.step (Via.caseOptSnd State.take_only (by assumption)) rfl ?_
    | ((with_reducible apply Via.step State.waveRequest_only); rfl)
    | split
    | with_reducible refine Via.of rfl ?_

theorem State.endRemote_only {s : State} {a0 : Nat} :
    Only [.cred, .sched, .grid, .fab] s (State.endRemote s a0) := by
  unfold State.endRemote
  repeat' first
    | with_reducible exact Only.refl _ _
    | ((with_reducible apply Only.step State.dropCtx_only); rfl)
    | ((with_reducible apply Only.step State.freeQuery_only); rfl)

theorem execRelease_only {i : Nat} {s : State} :
    Via inOut [.cred, .sched, .grid, .fab] s (execRelease i s) := by
  unfold execRelease
  repeat' first
    | with_reducible exact Only.refl _ _
    | with_reducible refine Only.step (Via.caseOptSnd State.take_only (by assumption)) rfl ?_
    | ((with_reducible apply Only.step State.endRemote_only); rfl)
    | split
    | with_reducible refine Via.of rfl ?_

theorem execWaveEnd_only {a0 : Nat} {s : State} :
    Via inOut [.log, .out, .can, .host, .cred, .seg, .colls, .sched, .grid, .fab] s (execWaveEnd a0 s) := by
  unfold execWaveEnd
  repeat' first
    | with_reducible exact Only.refl _ _
    | ((with_reducible apply Only.step State.endRemoteWave_only); rfl)
    | ((with_reducible apply Only.step State.endHomeWave_only); rfl)
    | split
    | with_reducible refine Via.of rfl ?_

theorem execRemoteStateTimeout_only {a0 : Nat} {s : State} :
    Via inOut [.cred, .sched, .grid, .fab] s (execRemoteStateTimeout a0 s) := by
  unfold execRemoteStateTimeout
  repeat' first
    | with_reducible exact Only.refl _ _
    | ((with_reducible apply Only.step State.endRemote_only); rfl)
    | split
    | with_reducible refine Via.of rfl ?_

end Sys2Proof.Machine
end

