-- ==== Sys2Proof/Laws/Only/Select.lean ====
section
/-! SUPPORT. What each operation of Machine/Select.lean may change. -/

namespace Sys2Proof.Machine

theorem State.selReads_only {s : State} {b addr a0 a1 : Nat} :
    Only [.out] s (State.selReads s b addr a0 a1) := by
  induction a0 generalizing s b addr a1 with
  | zero =>
    unfold State.selReads
    repeat' with_reducible exact Only.refl _ _
  | succ _ ih =>
    unfold State.selReads
    repeat' first
      | with_reducible exact Only.refl _ _
      | ((with_reducible apply Only.step ih); rfl)
      | with_reducible refine Only.ite (fun _ => ?_) (fun _ => ?_)
      | ((with_reducible apply Only.step State.emit_only); rfl)

theorem State.selPosts_only {s : State} {n count : Nat} :
    Only [.cred] s (State.selPosts s n count) := by
  unfold State.selPosts
  repeat' first
    | with_reducible exact Only.refl _ _
    | ((with_reducible apply Only.step State.giveBack_only); rfl)
    | ((with_reducible apply Only.step State.reserve_only); rfl)

theorem State.selWrite_only {s : State} {o : Origin} {addr size : Nat} {values : Bool} {a0 a1 : Nat} {a2 : List Cand} :
    Only [.out, .host, .cred] s (State.selWrite s o addr size values a0 a1 a2) := by
  induction a0 generalizing s o addr size values a1 a2 with
  | zero =>
    unfold State.selWrite
    repeat' with_reducible exact Only.refl _ _
  | succ _ ih =>
    unfold State.selWrite
    repeat' first
      | with_reducible assumption
      | with_reducible exact Only.refl _ _
      | ((with_reducible apply Only.step ih); rfl)
      | (lift_lets -underBinder; intro x; refine Only.gen (ps := [.out, .host, .cred]) (s := s) (x := x) ?_ (fun hx => ?_); unfold x; rotate_left; clear_value x)
      | (intro x; refine Only.gen (ps := [.out, .host, .cred]) (s := s) (x := x) ?_ (fun hx => ?_); unfold x; rotate_left; clear_value x)
      | with_reducible refine Only.foldl (fun _ _ _ => ?_) ?_
      | with_reducible refine Only.ite (fun _ => ?_) (fun _ => ?_)
      | ((with_reducible apply Only.step State.reserve_only); rfl)
      | ((with_reducible apply Only.step State.giveBack_only); rfl)
      | ((with_reducible apply Only.step State.resultWrite_only); rfl)

theorem State.selectRound_only {s : State} {a0 : Nat} {q : Ctx} {l : Live} {source : List Sys2Proof.Byte} :
    Only [.out, .host, .cred, .sched, .grid, .fab] s (State.selectRound s a0 q l source) := by
  unfold State.selectRound
  repeat' first
    | with_reducible assumption
    | with_reducible exact Only.refl _ _
    | (lift_lets -underBinder; intro x; refine Only.gen (ps := [.out, .host, .cred, .sched, .grid, .fab]) (s := s) (x := x) ?_ (fun hx => ?_); unfold x; rotate_left; clear_value x)
    | (lift_lets -underBinder; intro x)
    | (intro x)
    | with_reducible refine Only.ite (fun _ => ?_) (fun _ => ?_)
    | ((with_reducible apply Only.step State.selReads_only); rfl)
    | ((with_reducible apply Only.step State.selPosts_only); rfl)
    | ((with_reducible apply Only.step State.setCtx_only); rfl)
    | ((with_reducible apply Only.step State.selWrite_only); rfl)
    | ((with_reducible apply Only.step State.endQuery_only); rfl)

theorem State.dispatchSelect_only {s : State} {a0 : Nat} {q : Ctx} :
    Only [.draws, .cred, .sched, .grid] s (State.dispatchSelect s a0 q) := by
  unfold State.dispatchSelect
  repeat' first
    | with_reducible exact Only.refl _ _
    | (lift_lets -underBinder; intro x)
    | (intro x)
    | with_reducible refine Only.ite (fun _ => ?_) (fun _ => ?_)
    | ((with_reducible apply Only.step (Via.get State.draw_only rfl)); rfl)
    | ((with_reducible apply Only.step (Via.get State.takeSlots_only rfl)); rfl)
    | ((with_reducible apply Only.step State.setCtx_only); rfl)
    | split

theorem execSelectDeadline_only {a0 : Nat} {s : State} :
    Via inOut [.host, .cred, .sched, .grid, .fab] s (execSelectDeadline a0 s) := by
  unfold execSelectDeadline
  repeat' first
    | with_reducible exact Only.refl _ _
    | ((with_reducible apply Only.step State.endQuery_only); rfl)
    | ((with_reducible apply Only.step State.setCtx_only); rfl)
    | split
    | with_reducible refine Via.of rfl ?_

theorem State.admitSelect_only {s : State} {f : Fetched} :
    Only [.draws, .host, .cred, .sched, .grid, .fab] s (State.admitSelect s f) := by
  unfold State.admitSelect
  repeat' first
    | with_reducible assumption
    | with_reducible exact Only.refl _ _
    | (lift_lets -underBinder; intro x; refine Only.gen (ps := [.draws, .host, .cred, .sched, .grid, .fab]) (s := s) (x := x) ?_ (fun hx => ?_); unfold x; rotate_left; clear_value x)
    | (lift_lets -underBinder; intro x)
    | (intro x; refine Only.gen (ps := [.draws, .host, .cred, .sched, .grid, .fab]) (s := s) (x := x) ?_ (fun hx => ?_); unfold x; rotate_left; clear_value x)
    | (intro x)
    | with_reducible refine Only.ite (fun _ => ?_) (fun _ => ?_)
    | with_reducible refine Only.step (Via.caseSnd State.newLive_only (by assumption)) rfl ?_
    | with_reducible refine Only.step (Via.caseOptSnd State.newCtx_only (by assumption)) rfl ?_
    | ((with_reducible apply Only.step State.failLive_only); rfl)
    | ((with_reducible apply Only.step State.reserve_only); rfl)
    | ((with_reducible apply Only.step State.setLive_only); rfl)
    | ((with_reducible apply Only.step State.endQuery_only); rfl)
    | ((with_reducible apply Only.step State.setCtx_only); rfl)
    | split

theorem execSelect_only {s : State} :
    Via inOut [.draws, .host, .cred, .sched, .grid, .fab] s (execSelect s) := by
  unfold execSelect
  repeat' first
    | with_reducible exact Only.refl _ _
    | with_reducible refine Only.step (Via.caseOptSnd State.beginWork_only (by assumption)) rfl ?_
    | ((with_reducible apply Only.step State.refuse_only); rfl)
    | ((with_reducible apply Only.step State.admitSelect_only); rfl)
    | split
    | with_reducible refine Via.of rfl ?_

theorem execSelectRoundEnd_only {a0 : Nat} {source : List Sys2Proof.Byte} {s : State} :
    Via inOut [.out, .host, .cred, .sched, .grid, .fab] s (execSelectRoundEnd a0 source s) := by
  unfold execSelectRoundEnd
  repeat' first
    | with_reducible exact Only.refl _ _
    | ((with_reducible apply Only.step State.selectRound_only); rfl)
    | split
    | with_reducible refine Via.of rfl ?_

theorem execQueryDispatch_only {a0 : Nat} {s : State} :
    Via inOut [.draws, .log, .out, .can, .host, .cred, .seg, .colls, .sched, .grid, .fab] s (execQueryDispatch a0 s) := by
  unfold execQueryDispatch
  repeat' first
    | with_reducible exact Only.refl _ _
    | ((with_reducible apply Only.step State.dispatchSelect_only); rfl)
    | ((with_reducible apply Only.step State.dispatchQuery_only); rfl)
    | split
    | with_reducible refine Via.of rfl ?_

end Sys2Proof.Machine
end

