-- ==== Sys2Proof/Laws/Only/Lost.lean ====
section
/-! SUPPORT. What each operation of Machine/Lost.lean may change. -/

namespace Sys2Proof.Machine

theorem State.loseDevice_only {s : State} {a0 : Nat} {q : Ctx} {d : Nat} :
    Only [.sched] s (State.loseDevice s a0 q d) := by
  unfold State.loseDevice
  repeat' first
    | with_reducible exact Only.refl _ _
    | (lift_lets -underBinder; intro x)
    | (intro x)
    | ((with_reducible apply Only.step State.setCtx_only); rfl)

theorem State.tableRefused_only {s : State} {tag coll : Nat} :
    Only [.host, .cred, .sched, .grid, .fab] s (State.tableRefused s tag coll) := by
  unfold State.tableRefused
  repeat' first
    | with_reducible exact Only.refl _ _
    | with_reducible refine Only.ite (fun _ => ?_) (fun _ => ?_)
    | ((with_reducible apply Only.step State.conclude_only); rfl)
    | ((with_reducible apply Only.step State.setCtx_only); rfl)
    | ((with_reducible apply Only.step State.forgetWaves_only); rfl)
    | ((with_reducible apply Only.step State.lateResponse_only); rfl)
    | ((with_reducible apply Only.step State.doneMut_only); rfl)
    | ((with_reducible apply Only.step State.endRequest_only); rfl)
    | ((with_reducible apply Only.step State.failLive_only); rfl)
    | split

theorem State.lostEffect_only {s : State} {r : Request} :
    Only [.draws, .boot, .log, .out, .can, .host, .cred, .seg, .colls, .sched, .grid, .fab] s (State.lostEffect s r) := by
  unfold State.lostEffect
  repeat' first
    | exact Via.map rfl (fun _ _ => Via.of rfl (Only.step State.failLive_only rfl (by assumption)))
    | with_reducible assumption
    | with_reducible exact Only.refl _ _
    | with_reducible refine Only.foldl (fun _ _ _ => ?_) ?_
    | with_reducible refine Only.ite (fun _ => ?_) (fun _ => ?_)
    | with_reducible refine Only.getD ?_ ?_
    | ((with_reducible apply Only.step State.loseDevice_only); rfl)
    | ((with_reducible apply Only.step State.doneMut_only); rfl)
    | ((with_reducible apply Only.step State.failLive_only); rfl)
    | ((with_reducible apply Only.step State.writeAnswered_only); rfl)
    | ((with_reducible apply Only.step State.hold_only); rfl)
    | ((with_reducible apply Only.step State.modColl_only); rfl)
    | ((with_reducible apply Only.step State.ackLoad_only); rfl)
    | ((with_reducible apply Only.step State.createAcked_only); rfl)
    | ((with_reducible apply Only.step State.prepareAcked_only); rfl)
    | split

theorem execRequestLost_only {i : Nat} {s : State} :
    Via inOut [.draws, .boot, .log, .out, .can, .host, .cred, .seg, .colls, .sched, .grid, .fab] s (execRequestLost i s) := by
  unfold execRequestLost
  try dsimp -zeta -proj only [State.set_fab]
  repeat' first
    | with_reducible assumption
    | with_reducible exact Only.refl _ _
    | (lift_lets -underBinder; intro x)
    | (intro x; refine Only.gen (ps := [.draws, .boot, .log, .out, .can, .host, .cred, .seg, .colls, .sched, .grid, .fab]) (s := s) (x := x) ?_ (fun hx => ?_); unfold x; rotate_left; clear_value x)
    | ((with_reducible apply Only.step State.lostEffect_only); rfl)
    | ((with_reducible apply Only.step State.endRequest_only); rfl)
    | with_reducible refine Only.with_fab ?_ rfl
    | split
    | with_reducible refine Via.of rfl ?_

theorem State.submissionFails_only {s : State} {b q : Nat} :
    Only [.log, .out, .can, .host] s (State.submissionFails s b q) := by
  unfold State.submissionFails
  repeat' first
    | with_reducible exact Only.refl _ _
    | with_reducible refine Only.ite (fun _ => ?_) (fun _ => ?_)
    | ((with_reducible apply Only.step State.logBurrow_only); rfl)
    | ((with_reducible apply Only.step State.flagBurrow_only); rfl)
    | ((with_reducible apply Only.step State.haltSlot_only); rfl)

theorem State.dataFails_only {s : State} {b q id : Nat} :
    Only [.host, .cred, .colls, .sched, .grid, .fab] s (State.dataFails s b q id) := by
  unfold State.dataFails
  repeat' first
    | with_reducible exact Only.refl _ _
    | (lift_lets -underBinder; intro x)
    | with_reducible refine Only.ite (fun _ => ?_) (fun _ => ?_)
    | with_reducible refine Only.step (Via.caseOptSnd State.beginWork_only (by assumption)) rfl ?_
    | ((with_reducible apply Only.step State.refuse_only); rfl)
    | ((with_reducible apply Only.step State.endQuery_only); rfl)
    | ((with_reducible apply Only.step State.setCtx_only); rfl)
    | ((with_reducible apply Only.step State.modColl_only); rfl)
    | ((with_reducible apply Only.step State.ackLoad_only); rfl)
    | ((with_reducible apply Only.step State.failLive_only); rfl)
    | split

theorem execHostReadError_only {what : Sys2Proof.ReadFailure} {s : State} :
    Via inOut [.log, .out, .can, .host, .cred, .seg, .colls, .sched, .grid, .fab, .pay] s (execHostReadError what s) := by
  unfold execHostReadError
  repeat' first
    | with_reducible exact Only.refl _ _
    | ((with_reducible apply Only.step State.submissionFails_only); rfl)
    | ((with_reducible apply Only.step State.dataFails_only); rfl)
    | ((with_reducible apply Only.step State.pageInFails_only); rfl)
    | split
    | with_reducible refine Via.of rfl ?_

theorem execRefused_only {i : Nat} {s : State} :
    Via inOut [.host, .cred, .sched, .grid, .fab] s (execRefused i s) := by
  unfold execRefused
  repeat' first
    | with_reducible exact Only.refl _ _
    | with_reducible refine Only.step (Via.caseOptSnd State.take_only (by assumption)) rfl ?_
    | ((with_reducible apply Only.step State.tableRefused_only); rfl)
    | split
    | with_reducible refine Via.of rfl ?_

end Sys2Proof.Machine
end

