-- ==== Sys2Proof/Laws/Queries.lean ====
section
/-! SUPPORT. What the operations of a query say of its context: freeing it, ending it, deciding it, its streams, posts, tiles and waves. -/

namespace Sys2Proof.Machine

@[simp] theorem State.ctx_setLive {s : State} {x k : Nat} {l : Live} : (s.setLive k l).ctx? x = s.ctx? x := rfl
@[simp] theorem State.ctx_setColl {s : State} {x g : Nat} {c : Coll} : (s.setColl g c).ctx? x = s.ctx? x := rfl
theorem State.ctx_of_sched {s t : State} {x : Nat} (h : t.sched = s.sched) : t.ctx? x = s.ctx? x := by unfold State.ctx?; rw [h]
theorem State.live_of_host {s t : State} {k : Nat} (h : t.host = s.host) : t.live? k = s.live? k := by unfold State.live?; rw [h]
theorem State.coll_of_colls {s t : State} {g : Nat} (h : t.colls = s.colls) : t.coll? g = s.coll? g := by unfold State.coll?; rw [h]
theorem State.served_of_colls {s t : State} {g : Nat} (h : t.colls = s.colls) : t.served g = s.served g := by unfold State.served; rw [State.coll_of_colls h]
theorem State.tile_of_grid {s t : State} {n : Nat} (h : t.grid = s.grid) : t.tile n = s.tile n := by unfold State.tile; rw [h]
theorem State.seg_of_seg {s t : State} {n : Nat} (h : t.seg = s.seg) : t.seg_ n = s.seg_ n := by unfold State.seg_; rw [h]
theorem State.ctx_setCtx_other {s : State} {x y : Nat} {q : Ctx} (h : x ≠ y) : (s.setCtx x q).ctx? y = s.ctx? y := Map.get?_put_other h

/-- Posts that leave change credits and posts only. -/
theorem State.dropPosts_sched {s : State} {x : Nat} :
    (s.dropPosts x).sched = { s.sched with posts := s.sched.posts.filter fun p => p.2.1 != x } := by
  unfold State.dropPosts
  dsimp only
  exact foldl_kept (g := State.sched) (f := fun (s : State) (p : Nat × Nat × Cand) => s.giveBack 0x0A p.1 1) (fun _ _ => rfl) _ _
theorem State.ctx_dropPosts {s : State} {x y : Nat} : (s.dropPosts x).ctx? y = s.ctx? y := by unfold State.ctx?; rw [State.dropPosts_sched]
theorem State.ctx_leaveStreams {s : State} {x y : Nat} {p : Stream → Bool} : (s.leaveStreams x p).ctx? y = s.ctx? y := rfl
theorem State.ctx_enterStream {s : State} {x y g r : Nat} {w : StreamOf} {l : List Nat} : (s.enterStream x g r w l).ctx? y = s.ctx? y := rfl

/-- A query that is freed keeps its context, which is finished; the host interface and the output stay. -/
theorem State.freeQuery_ctx {s : State} {x : Nat} {c : Ctx} (h : s.ctx? x = some c) (hp : c.phase ≠ .finished) :
    (s.freeQuery x).ctx? x = some { c with chunks := 0, opened := [], remotes := [], waveLists := [], phase := .finished } := by
  unfold State.freeQuery
  rw [h]
  dsimp only
  rw [if_neg hp]
  exact State.ctx_setCtx

/-- The end of a query: its completion waits, and what it held has returned. -/
theorem State.endQuery_eq {s : State} {x key : Nat} {c : Ctx} {l : Live} (h : s.ctx? x = some c) (hk : c.cmd = some key) (hl : s.live? key = some l) :
    s.endQuery x = (s.freeQuery x).finish key { origin := l.origin, status := c.status, sealed := c.sealed, count := c.written, lists := c.scanned
                                                stamp := c.stamp, waves := c.waves % 65536, ctx := some x } := by
  unfold State.endQuery
  rw [h]
  dsimp only
  rw [hk]
  dsimp only
  rw [State.live_of_host (State.freeQuery_only.host), hl]

/-- A running query that is decided. -/
theorem State.conclude_ctx {s : State} {x status : Nat} {sealed keep : Bool} {c : Ctx} (h : s.ctx? x = some c)
    (hp : c.phase ≠ .decided ∧ c.phase ≠ .writing ∧ c.phase ≠ .finished) :
    (s.conclude x status sealed keep).ctx? x = some { c with
      phase := .decided, status := status, sealed := sealed, waveLists := [], stashLeft := false, remotes := []
      sorter := if keep then { c.sorter.endWave with spill := [] } else { k := c.sorter.k } } := by
  unfold State.conclude State.modCtx
  dsimp only
  rw [State.ctx_dropPosts, State.ctx_leaveStreams, h]
  dsimp only
  rw [if_neg (by simp [hp.1, hp.2.1, hp.2.2])]
  exact State.ctx_setCtx

/-- Slots taken on tiles: the tiles are those asked for, in order; contexts stay. -/
theorem State.takeSlots_tiles {x kernel : Nat} : ∀ {ts : List Nat} {s : State}, (s.takeSlots x kernel ts).1.map Prod.fst = ts ∧ (s.takeSlots x kernel ts).2.sched = s.sched
    ∧ (s.takeSlots x kernel ts).2.colls = s.colls ∧ (s.takeSlots x kernel ts).2.host = s.host
  | [], _ => ⟨rfl, rfl, rfl, rfl⟩
  | t :: ts, s => by
    obtain ⟨h1, h2, h3, h4⟩ := State.takeSlots_tiles (x := x) (kernel := kernel) (ts := ts) (s := (s.takeSlot x t kernel).2)
    unfold State.takeSlots
    exact ⟨by rw [List.map_cons, h1], h2, h3, h4⟩

/-- The requests a device gives up change no context. -/
theorem State.ctx_forgetWaves {s : State} {x y : Nat} : (s.forgetWaves x).ctx? y = s.ctx? y := State.ctx_of_sched State.forgetWaves_only.sched

/-- A list, and the stash, that are issued change no context. -/
theorem State.ctx_issueList {s : State} {x y l : Nat} {q : Ctx} {c : Coll} : (s.issueList x q c l).ctx? y = s.ctx? y := by
  unfold State.issueList
  split
  · exact State.ctx_of_sched (foldl_kept (g := State.sched) (fun _ _ => State.issueBlock_only.sched) _ _)
  · exact State.ctx_enterStream
theorem State.ctx_issueStash {s : State} {x y : Nat} {q : Ctx} : (s.issueStash x q).ctx? y = s.ctx? y := by
  unfold State.issueStash
  dsimp only
  split
  · rfl
  · exact State.ctx_enterStream

/-- What a wave request changes in the query's context. -/
theorem State.sendWave_ctx {s : State} {x d : Nat} {ls : List Nat} {q : Ctx} (h : s.ctx? x = some q) :
    ∃ o r, (s.sendWave x d ls).ctx? x = some { q with opened := o, remotes := r } := by
  unfold State.sendWave
  rw [h]
  dsimp only
  refine ⟨if (!q.opened.contains d) = true then q.opened ++ [d] else q.opened, q.remotes ++ [d], ?_⟩
  refine (State.ctx_of_sched State.request_only.sched).trans ?_
  exact State.ctx_setCtx

theorem State.sendWaves_ctx {x : Nat} {f : Nat → List Nat} : ∀ {ds : List Nat} {s : State} {q : Ctx}, s.ctx? x = some q →
    ∃ o r, (ds.foldl (fun s d => s.sendWave x d (f d)) s).ctx? x = some { q with opened := o, remotes := r }
  | [], _, q, h => ⟨q.opened, q.remotes, h⟩
  | d :: ds, s, q, h => by
    obtain ⟨o, r, h1⟩ := State.sendWave_ctx (d := d) (ls := f d) h
    obtain ⟨o', r', h2⟩ := State.sendWaves_ctx (ds := ds) (f := f) h1
    exact ⟨o', r', h2⟩

/-- A wave that is issued: the query is in it, with the lists taken off its table. -/
theorem State.issueWave_ctx {s : State} {x : Nat} {q : Ctx} {c : Coll} : ∃ q', (s.issueWave x q c).ctx? x = some q' ∧ q'.phase = .wave ∧ q'.waves = q.waves + 1
    ∧ q'.table = q.table.drop (q.waveLists' q.width).length ∧ q'.k = q.k ∧ q'.tiles = q.tiles ∧ q'.scanned = q.scanned := by
  unfold State.issueWave
  extract_lets first chosen q1 lost kept mine found s1 isBad bad good q2 away q3 s2 s3 s4 s5 devices
  have h5 : s5.ctx? x = some q3 := by
    have h2 : s2.ctx? x = some q3 := State.ctx_setCtx
    have h3 : s3.ctx? x = some q3 := (foldl_kept (g := fun t : State => t.ctx? x) (fun _ _ => State.ctx_issueList) good s2).trans h2
    have h4 : s4.ctx? x = some q3 := by
      show (if first = true then s3.issueStash x q3 else s3).ctx? x = _
      split
      · exact State.ctx_issueStash.trans h3
      · exact h3
    exact (State.ctx_of_sched State.prefetchLists_only.sched).trans h4
  obtain ⟨o, r, h⟩ := State.sendWaves_ctx (f := fun d => (away.filter fun r => r.owner == d).map (·.list)) (ds := devices) h5
  exact ⟨_, h, rfl, rfl, rfl, rfl, rfl, rfl⟩

end Sys2Proof.Machine
end

