-- ==== Sys2Proof/Laws/Commands.lean ====
section
/-! SUPPORT. What the operations on messages and requests say: a message taken from the inbox, one sent, a request that leaves, and what
they leave alone of collections, commands and tags. -/

namespace Sys2Proof.Machine

/-! ## Taking a message -/

/-- A message that is taken leaves the inbox; but for the fabric nothing changes, and nothing is sent. -/
theorem State.take_eq {s u : State} {i ty : Nat} {m : List Byte} (h : s.take i ty = some (m, u)) :
    u = { s with fab := u.fab } ∧ u.fab.inbox = s.fab.inbox.eraseIdx i ∧ u.fab.transit = s.fab.transit ∧ u.fab.requests = s.fab.requests
      ∧ u.fab.lateResponses = s.fab.lateResponses := by
  unfold State.take at h
  split at h
  · cases h
  · split at h
    · cases h
      unfold State.unitsBack
      split <;> exact ⟨rfl, rfl, rfl, rfl, rfl⟩
    · cases h

theorem State.takeKind_eq {s u : State} {i ty k : Nat} {m : List Byte} (h : s.takeKind i ty k = some (m, u)) :
    u = { s with fab := u.fab } ∧ u.fab.inbox = s.fab.inbox.eraseIdx i ∧ u.fab.transit = s.fab.transit ∧ u.fab.requests = s.fab.requests
      ∧ u.fab.lateResponses = s.fab.lateResponses := by
  unfold State.takeKind at h
  split at h
  · rename_i ht
    split at h
    · cases h
      exact State.take_eq ht
    · cases h
  · cases h

theorem State.takeCtrl_eq {s u : State} {i op : Nat} {m : List Byte} (h : s.takeCtrl i op = some (m, u)) :
    u = { s with fab := u.fab } ∧ u.fab.inbox = s.fab.inbox.eraseIdx i ∧ u.fab.transit = s.fab.transit ∧ u.fab.requests = s.fab.requests
      ∧ u.fab.lateResponses = s.fab.lateResponses := by
  unfold State.takeCtrl at h
  split at h
  · rename_i ht
    split at h
    · cases h
      exact State.takeKind_eq ht
    · cases h
  · cases h

/-! ## Sending -/

theorem msgDest_mkMsg {s : State} {dest ty flags tag requester coll : Nat} {body : List Byte} :
    msgDest (s.mkMsg dest ty flags tag requester coll body).bytes = dest % 128 := by
  show (BitVec.ofNat 8 dest).toNat % 128 = _
  rw [BitVec.toNat_ofNat]
  omega

theorem State.self_boot {s t : State} (h : t.boot = s.boot) : t.self = s.self := by unfold State.self State.deviceId; rw [h]
theorem State.deviceId_boot {s t : State} (h : t.boot = s.boot) : t.deviceId = s.deviceId := by unfold State.deviceId; rw [h]
theorem State.mkMsg_boot {s t : State} {dest ty flags tag requester coll : Nat} {body : List Byte} (h : t.boot = s.boot) :
    t.mkMsg dest ty flags tag requester coll body = s.mkMsg dest ty flags tag requester coll body := by
  unfold State.mkMsg; rw [State.self_boot h]

/-- Not this device. -/
theorem State.other {s : State} {d : Nat} (h : d ≠ s.self) : s.deviceId ≠ some d := by
  intro e
  refine h ?_
  unfold State.self
  rw [e]
  rfl

/-- A message to another device goes to the ports. -/
theorem State.send_eq {s : State} {dest ty flags tag requester coll : Nat} {body : List Byte} (h : dest % 128 ≠ s.self) :
    s.send dest ty flags tag requester coll body = { s with fab := { s.fab with transit := s.fab.transit ++ [s.mkMsg dest ty flags tag requester coll body] } } := by
  unfold State.send State.post
  rw [msgDest_mkMsg, if_neg (State.other h)]

theorem msgSource_lt {m : List Byte} : msgSource m % 128 = msgSource m := by unfold msgSource; omega

/-- A request that has its landing units leaves. -/
theorem State.requestFor_sends {s : State} {dest ty flags tag requester coll owner : Nat} {body : List Byte} (h : dest ≠ s.self) (hd : dest < 128)
    (hu : s.used (requestPool (s.mkMsg dest ty flags tag requester coll body)).1 dest + (requestPool (s.mkMsg dest ty flags tag requester coll body)).2
      ≤ poolSize (requestPool (s.mkMsg dest ty flags tag requester coll body)).1) :
    (s.requestFor dest ty flags tag requester coll owner body).fab.transit = s.fab.transit ++ [s.mkMsg dest ty flags tag requester coll body]
    ∧ (s.requestFor dest ty flags tag requester coll owner body).fab.requests = s.fab.requests ++ [({ kind := ty, dest := dest, tag := tag, coll := coll, owner := owner, until_ := s.clk.now + Config.recoveryBoundUs, landing := (requestPool (s.mkMsg dest ty flags tag requester coll body)).2 } : Request)] := by
  unfold State.requestFor
  dsimp only
  unfold State.startRequest
  dsimp only
  rw [if_neg (State.other h), if_pos hu]
  dsimp only
  have hp : ∀ (u : State), u.deviceId = s.deviceId → u.post (s.mkMsg dest ty flags tag requester coll body)
      = { u with fab := { u.fab with transit := u.fab.transit ++ [s.mkMsg dest ty flags tag requester coll body] } } := by
    intro u hb
    unfold State.post
    rw [msgDest_mkMsg, Nat.mod_eq_of_lt hd, hb, if_neg (State.other h)]
  rw [hp (s.reserve _ _ _) rfl]
  exact ⟨rfl, rfl⟩

/-! ## What stays -/

theorem State.byTag_same {s t : State} {tag : Nat} (hh : t.host = s.host) (hs : t.sched = s.sched) : t.byTag tag = s.byTag tag := by
  unfold State.byTag State.cmdTag State.live?
  rw [hh, hs]

theorem State.cmdTag_same {s t : State} {key : Nat} (hs : t.sched = s.sched) : t.cmdTag key = s.cmdTag key := by unfold State.cmdTag; rw [hs]

theorem State.served_coll {s : State} {g : Nat} {c : Coll} (h : s.served g = some c) : s.coll? g = some c := by
  unfold State.served at h
  split at h
  · rename_i c' hc
    split at h
    · cases h; exact hc
    · cases h
  · cases h

theorem State.modColl_coll {s : State} {g : Nat} {f : Coll → Coll} {c : Coll} (h : s.coll? g = some c) : (s.modColl g f).coll? g = some (f c) := by
  unfold State.modColl
  rw [h]
  exact State.coll_setColl

theorem State.modSeqr_coll {s : State} {g : Nat} {f : Sequencer → Sequencer} {c : Coll} {q : Sequencer} (h : s.coll? g = some c) (hq : c.seqr = some q) :
    (s.modSeqr g f).coll? g = some { c with seqr := some (f q) } := by
  unfold State.modSeqr
  rw [State.modColl_coll h, hq]
  rfl

/-- An answer to a mutation's device that is not this one. -/
theorem State.answerMut_eq {s : State} {g device tag status seq : Nat} (h : device ≠ s.self) (hd : device < 128) :
    s.answerMut g device tag status seq = { s with fab := { s.fab with transit := s.fab.transit
      ++ [s.mkMsg device mMutRsp 0 tag device g (toLE 2 status ++ toLE 6 seq ++ zeros 8)] } } := by
  unfold State.answerMut
  rw [if_neg h]
  exact State.send_eq (by rw [Nat.mod_eq_of_lt hd]; exact h)

/-- A live command handed to a sequencer completes: it is live no more, and its completion waits. -/
theorem State.doneMut_completes {s : State} {tag key status seq : Nat} {l : Live} (ht : s.byTag tag = some key) (hl : s.live? key = some l) :
    (s.doneMut tag status seq).live? key = none
    ∧ (s.doneMut tag status seq).host.waiting = s.host.waiting ++ [mutCompletion l.opcode status seq l.origin] := by
  unfold State.doneMut
  rw [ht]
  dsimp only
  rw [hl]
  dsimp only
  unfold State.done
  rw [hl]
  dsimp only
  refine ⟨Map.get?_del_same, ?_⟩
  split <;> rfl

end Sys2Proof.Machine
end

