-- ==== Sys2Proof/Laws/Dictionary.lean ====
section
/-! SUPPORT. Writes to the dictionary: what a write that passes its checks comes down to, and what reads of the base layer
and of the overlay give after it. -/

namespace Sys2Proof.Machine

theorem findObject_of {ix sub : Nat} {o : Obj} (h : (findObject ix sub).toOption = some o) : findObject ix sub = .ok o := by
  generalize findObject ix sub = r at h ⊢
  cases r with
  | error c => cases h
  | ok p =>
    cases h
    rfl

/-- A write that meets an object which may be written, with a value of its length, runs its effect and keeps its answer. -/
theorem State.dictWrite_of {s : State} {via : Transport} {ix sub : Nat} {data : List Byte} {o : Obj}
    (hs : 4 ≤ s.boot.stage) (ho : (findObject ix sub).toOption = some o) (ha : o.acc ≠ .ro) (hl : o.acc = .rwl → s.dict.locked = false)
    (hw : o.acc ≠ .w1) (hlen : lengthOk o data = true) (ht : s.transitionRefuses ix sub data = false) :
    s.dictWrite via ix sub data
      = { (s.writeAccepted ix sub o data).1 with dict := { (s.writeAccepted ix sub o data).1.dict with answer := (s.writeAccepted ix sub o data).2 } } := by
  have hp : s.precheck ix sub = .ok o := by
    unfold State.precheck
    rw [findObject_of ho]
    dsimp only
    rw [if_neg ha]
    split
    · rename_i h
      exact absurd h.2 (by rw [hl h.1]; decide)
    · rfl
  have hu : s.serviceUp = true := decide_eq_true hs
  unfold State.dictWrite State.writeObject
  rw [hp, hu]
  dsimp only
  rw [if_neg (by decide), hlen, if_neg (by decide), if_neg (fun h => hw h.1), ht, if_neg (by decide)]

/-- A write to a CMD object runs its command. -/
theorem State.dictWrite_cmd {s : State} {via : Transport} {ix sub : Nat} {data : List Byte} {o : Obj}
    (hs : 4 ≤ s.boot.stage) (ho : (findObject ix sub).toOption = some o) (ha : o.acc = .cmd) (hlen : lengthOk o data = true)
    (hr : rangeOk o data = true) (ht : s.transitionRefuses ix sub data = false) :
    s.dictWrite via ix sub data
      = { (s.runCommand ix sub (leNat data)).1 with
          dict := { (s.runCommand ix sub (leNat data)).1.dict with answer := (s.runCommand ix sub (leNat data)).2 } } := by
  rw [State.dictWrite_of hs ho (by rw [ha]; decide) (by rw [ha]; intro h; cases h) (by rw [ha]; decide) hlen ht]
  unfold State.writeAccepted
  rw [if_pos ha, hr, if_pos rfl]

/-- A write to a request object stores what it carries. -/
theorem State.dictWrite_request {s : State} {via : Transport} {ix sub : Nat} {data : List Byte} {o : Obj}
    (hs : 4 ≤ s.boot.stage) (ho : (findObject ix sub).toOption = some o) (ha : o.acc = .rw ∨ o.acc = .wo) (hq : isRequest ix sub = true)
    (hlen : lengthOk o data = true) (hr : rangeOk o data = true) (ht : s.transitionRefuses ix sub data = false) :
    s.dictWrite via ix sub data
      = { (s.writeRequest ix sub data).1 with dict := { (s.writeRequest ix sub data).1.dict with answer := (s.writeRequest ix sub data).2 } } := by
  have h1 : o.acc ≠ .ro := by rcases ha with h | h <;> rw [h] <;> decide
  have h2 : o.acc ≠ .w1 := by rcases ha with h | h <;> rw [h] <;> decide
  have h3 : o.acc ≠ .cmd := by rcases ha with h | h <;> rw [h] <;> decide
  have h4 : o.acc ≠ .rwl := by rcases ha with h | h <;> rw [h] <;> decide
  rw [State.dictWrite_of hs ho h1 (fun h => absurd h h4) h2 hlen ht]
  unfold State.writeAccepted
  rw [if_neg h3, if_pos hq, hr, if_pos rfl]

/-- A write to an object of the base layer that no overlay or delta rule concerns lands there, and the device takes it up. -/
theorem State.dictWrite_base {s : State} {via : Transport} {ix sub : Nat} {data : List Byte} {o : Obj}
    (hs : 4 ≤ s.boot.stage) (ho : (findObject ix sub).toOption = some o) (ha : o.acc = .rw ∨ o.acc = .rwl ∧ s.dict.locked = false)
    (hq : isRequest ix sub = false) (hi : ¬(0x8280 ≤ ix ∧ ix < 0x8288)) (hlen : lengthOk o data = true) (hc : s.baseCheck ix sub o data = none)
    (hm : overlayModeOf ix = none) (ht : s.transitionRefuses ix sub data = false) :
    s.dictWrite via ix sub data
      = { s.baseWrite ix sub data with dict := { (s.baseWrite ix sub data).dict with answer := .ok (s.shadowed ix sub) } } := by
  have h1 : o.acc ≠ .ro := by rcases ha with h | ⟨h, -⟩ <;> rw [h] <;> decide
  have h2 : o.acc ≠ .w1 := by rcases ha with h | ⟨h, -⟩ <;> rw [h] <;> decide
  have h3 : o.acc ≠ .cmd := by rcases ha with h | ⟨h, -⟩ <;> rw [h] <;> decide
  have h4 : inBase ix sub o = true := by
    unfold inBase
    have : (!(decide (0x8280 ≤ ix) && decide (ix < 0x8288))) = true := by simp; omega
    rcases ha with h | ⟨h, -⟩ <;> rw [h, hq, this] <;> rfl
  have h5 : o.acc = .rwl → s.dict.locked = false := by
    intro h
    rcases ha with k | ⟨-, k⟩
    · rw [k] at h; cases h
    · exact k
  rw [State.dictWrite_of hs ho h1 h5 h2 hlen ht]
  unfold State.writeAccepted
  rw [if_neg h3, hq, if_neg (by decide), if_pos h4]
  unfold State.writeBase
  rw [hc, hm]

theorem State.transitionRefuses_idle {s : State} {ix sub : Nat} {v : List Byte} (h : s.dict.applying = false) (hx : ¬(ix = 0x2001 ∧ sub = 1)) :
    s.transitionRefuses ix sub v = false := by
  unfold State.transitionRefuses
  rw [if_neg hx, h]
  rfl

/-! ## Reads after a write to the base layer -/

@[simp] theorem State.baseValue_putBase_same {s : State} {ix sub : Nat} {v : List Byte} : (s.putBase ix sub v).baseValue ix sub = v := by
  unfold State.baseValue
  rw [show (s.putBase ix sub v).dict.base = Map.put s.dict.base (objKey ix sub) v from rfl, Map.get?_put_same]

theorem State.baseValue_putBase_other {s : State} {ix sub i j : Nat} {v : List Byte} (h : objKey ix sub ≠ objKey i j) :
    (s.putBase ix sub v).baseValue i j = s.baseValue i j := by
  unfold State.baseValue
  rw [show (s.putBase ix sub v).dict.base = Map.put s.dict.base (objKey ix sub) v from rfl, Map.get?_put_other h]

/-- A fold over a map does not see an entry that the fold's step ignores. -/
theorem Map.foldr_put {α β : Type} {f : Nat × α → β → β} {i : Nat} {v : α} {z : β} (h : ∀ w b, f (i, w) b = b) (m : Map α) :
    (Map.put m i v).foldr f z = m.foldr f z := by
  induction m with
  | nil => simp only [Map.put, List.foldr_cons, List.foldr_nil, h]
  | cons e m ih =>
    obtain ⟨k, w⟩ := e
    unfold Map.put
    split
    · simp only [List.foldr_cons, h]
    · split
      · rename_i hk
        subst hk
        simp only [List.foldr_cons, h]
      · simp only [List.foldr_cons, ih]

/-- An object that is no delta of a mode does not change that mode's overlay. -/
theorem State.overlayOf_putOther {s : State} {ix sub : Nat} {v : List Byte} {m : Nat} (hk : m < 5 → (ix * 256 + sub) / 65536 ≠ 0x31 + m) :
    (s.putBase ix sub v).overlayOf m = s.overlayOf m := by
  unfold State.overlayOf
  rw [show (s.putBase ix sub v).dict.base = Map.put s.dict.base (objKey ix sub) v from rfl, Map.foldr_put]
  · refine congrArg (fun f => List.foldr f [] s.dict.base) ?_
    funext e rest
    split
    · rename_i hd
      have he : e.1 / 65536 = 0x31 + m := by
        simp only [isEnabledDelta, Bool.and_eq_true, decide_eq_true_eq] at hd
        exact hd.1.1.2
      have hm : m < 5 := by
        simp only [isEnabledDelta, Bool.and_eq_true, decide_eq_true_eq] at hd
        exact hd.1.1.1
      have hn : ∀ j, j < 256 → objKey ix sub ≠ objKey (e.1 / 256) j := by
        intro j hj hh
        unfold objKey at hh
        have := hk hm
        omega
      dsimp only
      rw [State.baseValue_putBase_other (hn 1 (by omega)), State.baseValue_putBase_other (hn 2 (by omega)), State.baseValue_putBase_other (hn 3 (by omega))]
    · rfl
  · intro w b
    have : isEnabledDelta m (objKey ix sub, w) = false := by
      by_cases hm : m < 5
      · simp only [isEnabledDelta, objKey, hk hm, decide_false, Bool.false_and, Bool.and_false]
      · simp only [isEnabledDelta, hm, decide_false, Bool.false_and]
    rw [this, if_neg (by decide)]

/-- An object that is no delta does not change any overlay by its value. -/
theorem State.overlayOf_putBase {s : State} {ix sub : Nat} {v : List Byte} (hs : sub < 256) (h : ix < 0x3100 ∨ 0x3600 ≤ ix) (m : Nat) :
    (s.putBase ix sub v).overlayOf m = s.overlayOf m := State.overlayOf_putOther (by omega)

/-- A write to an object that no overlay shadows and no transition holds back is the value the device acts on. -/
theorem State.acted_putBase_same {s : State} {ix sub : Nat} {v : List Byte} (hs : sub < 256) (h : ix < 0x3100 ∨ 0x3600 ≤ ix)
    (hh : s.dict.heldOld = []) (hsh : s.shadowed ix sub = false) : (s.putBase ix sub v).acted ix sub = v := by
  have ho : (s.putBase ix sub v).overlay = s.overlay := by
    unfold State.overlay
    show (match s.dict.overlayOld with | some o => o | none => (s.putBase ix sub v).overlayOf s.dict.mode) = _
    rw [State.overlayOf_putBase hs h]
    all_goals rfl
  unfold State.acted
  rw [show (s.putBase ix sub v).dict.heldOld = s.dict.heldOld from rfl, hh]
  unfold State.effective
  rw [ho, State.baseValue_putBase_same]
  unfold State.shadowed at hsh
  cases hg : Map.get? s.overlay (objKey ix sub) with
  | none => rfl
  | some w => rw [hg] at hsh; cases hsh

theorem State.cfg_putBase_same {s : State} {ix sub : Nat} {v : List Byte} (hs : sub < 256) (h : ix < 0x3100 ∨ 0x3600 ≤ ix)
    (hh : s.dict.heldOld = []) (hsh : s.shadowed ix sub = false) : (s.putBase ix sub v).cfg ix sub = leNat v := by
  unfold State.cfg
  rw [State.acted_putBase_same hs h hh hsh]

/-- Out of a transition, an object that is not shadowed is written and the device takes up its new value. -/
theorem State.baseWrite_of {s : State} {ix sub : Nat} {v : List Byte} (hsh : s.shadowed ix sub = false) (ha : s.dict.applying = false) :
    s.baseWrite ix sub v = (s.putBase ix sub v).react ix sub := by
  unfold State.baseWrite
  dsimp only
  rw [hsh, if_neg (by decide), if_neg]
  intro h
  exact absurd h.1 (by rw [show (s.putBase ix sub v).dict.applying = s.dict.applying from rfl, ha]; decide)

end Sys2Proof.Machine
end

