-- ==== Sys2Proof/Laws/Ops.lean ====
section
/-! SUPPORT. What the shared operations of Machine/Ops.lean leave of the host interface and of the log. -/

namespace Sys2Proof.Machine

/-- A vector that is raised changes nothing of the host interface but the vectors. -/
theorem State.raise_host {s : State} {fn vec : Nat} : (s.raise fn vec).host = { s.host with vectors := (s.raise fn vec).host.vectors } := by
  unfold State.raise
  dsimp only
  split <;> rfl

theorem State.canSend_rest {s : State} {f n : Nat} {d : List Byte} : s.canSend f n d = { s with out := (s.canSend f n d).out } := by
  unfold State.canSend
  split <;> rfl

/-- An event appends one entry to the log. -/
theorem State.logFrom_log {s : State} {source code : Nat} {ps : List Byte} :
    (s.logFrom source code ps).log = s.log.append (eventEntry (nextEntry s.log.last) code source s.clk.sec s.clk.us ps) := by
  have r : ∀ (u : State) (a b : Nat), (u.raise a b).log = u.log := fun u a b => by unfold State.raise; dsimp only; split <;> rfl
  have c : ∀ (u : State) (a b : Nat) (d : List Byte), (u.canSend a b d).log = u.log := fun u a b d => by rw [State.canSend_rest]
  unfold State.logFrom
  dsimp only
  repeat' split
  all_goals simp only [r, c]

/-- An event changes nothing of the host interface but the vectors. -/
theorem State.logFrom_host {s : State} {source code : Nat} {ps : List Byte} :
    (s.logFrom source code ps).host = { s.host with vectors := (s.logFrom source code ps).host.vectors } := by
  have r : ∀ (u : State) (a b : Nat), u.host = { s.host with vectors := u.host.vectors } →
      (u.raise a b).host = { s.host with vectors := (u.raise a b).host.vectors } := fun u a b h =>
    State.raise_host.trans (congrArg (fun H : HostIf => { H with vectors := (u.raise a b).host.vectors }) h)
  have c : ∀ (u : State) (a b : Nat) (d : List Byte) (v : Can), u.host = { s.host with vectors := u.host.vectors } →
      ({ u.canSend a b d with can := v } : State).host = { s.host with vectors := ({ u.canSend a b d with can := v } : State).host.vectors } :=
    fun u a b d v h => by rw [State.canSend_rest]; exact h
  unfold State.logFrom
  dsimp only
  repeat' split
  all_goals repeat' first
    | exact c _ _ _ _ _ (by assumption)
    | apply c
    | apply r
    | rfl

@[simp] theorem State.logFrom_last {s : State} {source code : Nat} {ps : List Byte} :
    (s.logFrom source code ps).log.last = nextEntry s.log.last := by rw [State.logFrom_log]; rfl
@[simp] theorem State.logFrom_slots {s : State} {source code : Nat} {ps : List Byte} :
    (s.logFrom source code ps).host.slots = s.host.slots := by rw [State.logFrom_host]
@[simp] theorem State.logFrom_burrows {s : State} {source code : Nat} {ps : List Byte} :
    (s.logFrom source code ps).host.burrows = s.host.burrows := by rw [State.logFrom_host]
@[simp] theorem State.raise_slots {s : State} {fn vec : Nat} : (s.raise fn vec).host.slots = s.host.slots := by rw [State.raise_host]
@[simp] theorem State.raise_burrows {s : State} {fn vec : Nat} : (s.raise fn vec).host.burrows = s.host.burrows := by rw [State.raise_host]

/-- What a queue's signal leaves of the host interface: only the slot's count and the vectors change. -/
theorem State.signal_host {s : State} {b q : Nat} :
    (s.signal b q).host = { s.host with slots := Map.put s.host.slots (slotKey b q) { s.slot b q with unsignalled := 0 }
                                        vectors := (s.signal b q).host.vectors } := by
  unfold State.signal
  dsimp only
  split
  · rfl
  · rw [State.raise_host]; rfl

@[simp] theorem State.signal_fetched {s : State} {b q : Nat} : (s.signal b q).host.fetched = s.host.fetched := by rw [State.signal_host]
@[simp] theorem State.signal_live {s : State} {b q : Nat} : (s.signal b q).host.live = s.host.live := by rw [State.signal_host]
@[simp] theorem State.signal_waiting {s : State} {b q : Nat} : (s.signal b q).host.waiting = s.host.waiting := by rw [State.signal_host]
@[simp] theorem State.signal_admitting {s : State} {b q : Nat} : (s.signal b q).host.admitting = s.host.admitting := by rw [State.signal_host]
@[simp] theorem State.signal_burrows {s : State} {b q : Nat} : (s.signal b q).host.burrows = s.host.burrows := by rw [State.signal_host]

end Sys2Proof.Machine
end

