-- ==== Sys2Proof/Laws/Log.lean ====
section
/-! SUPPORT. What an event, an interrupt and a frame on the bus leave alone: every part of the state but the log, the output, CAN FD
and the interrupt vectors. -/

namespace Sys2Proof.Machine

@[simp] theorem State.logEvent_eq {s : State} {code : Nat} {ps : List Byte} : s.logEvent code ps = s.logFrom 0 code ps := rfl
@[simp] theorem State.logBurrow_eq {s : State} {b code : Nat} {ps : List Byte} : s.logBurrow b code ps = s.logFrom (64 + b) code ps := rfl
@[simp] theorem State.logPort_eq {s : State} {p code : Nat} {ps : List Byte} : s.logPort p code ps = s.logFrom (128 + p) code ps := rfl
@[simp] theorem State.logStack_eq {s : State} {st code : Nat} {ps : List Byte} : s.logStack st code ps = s.logFrom (192 + st) code ps := rfl
@[simp] theorem State.logFrom_pending {s : State} {source code : Nat} {ps : List Byte} : (s.logFrom source code ps).pending = s.pending :=
  State.logFrom_only.frame.1
@[simp] theorem State.logFrom_draws {s : State} {source code : Nat} {ps : List Byte} : (s.logFrom source code ps).draws = s.draws :=
  State.logFrom_only.frame.2 .draws rfl
@[simp] theorem State.logFrom_clk {s : State} {source code : Nat} {ps : List Byte} : (s.logFrom source code ps).clk = s.clk :=
  State.logFrom_only.frame.2 .clk rfl
@[simp] theorem State.logFrom_boot {s : State} {source code : Nat} {ps : List Byte} : (s.logFrom source code ps).boot = s.boot :=
  State.logFrom_only.frame.2 .boot rfl
@[simp] theorem State.logFrom_dict {s : State} {source code : Nat} {ps : List Byte} : (s.logFrom source code ps).dict = s.dict :=
  State.logFrom_only.frame.2 .dict rfl
@[simp] theorem State.logFrom_flash {s : State} {source code : Nat} {ps : List Byte} : (s.logFrom source code ps).flash = s.flash :=
  State.logFrom_only.frame.2 .flash rfl
@[simp] theorem State.logFrom_vdp {s : State} {source code : Nat} {ps : List Byte} : (s.logFrom source code ps).vdp = s.vdp :=
  State.logFrom_only.frame.2 .vdp rfl
@[simp] theorem State.logFrom_ssp {s : State} {source code : Nat} {ps : List Byte} : (s.logFrom source code ps).ssp = s.ssp :=
  State.logFrom_only.frame.2 .ssp rfl
@[simp] theorem State.logFrom_cred {s : State} {source code : Nat} {ps : List Byte} : (s.logFrom source code ps).cred = s.cred :=
  State.logFrom_only.frame.2 .cred rfl
@[simp] theorem State.logFrom_mem {s : State} {source code : Nat} {ps : List Byte} : (s.logFrom source code ps).mem = s.mem :=
  State.logFrom_only.frame.2 .mem rfl
@[simp] theorem State.logFrom_seg {s : State} {source code : Nat} {ps : List Byte} : (s.logFrom source code ps).seg = s.seg :=
  State.logFrom_only.frame.2 .seg rfl
@[simp] theorem State.logFrom_bw {s : State} {source code : Nat} {ps : List Byte} : (s.logFrom source code ps).bw = s.bw :=
  State.logFrom_only.frame.2 .bw rfl
@[simp] theorem State.logFrom_diag {s : State} {source code : Nat} {ps : List Byte} : (s.logFrom source code ps).diag = s.diag :=
  State.logFrom_only.frame.2 .diag rfl
@[simp] theorem State.logFrom_colls {s : State} {source code : Nat} {ps : List Byte} : (s.logFrom source code ps).colls = s.colls :=
  State.logFrom_only.frame.2 .colls rfl
@[simp] theorem State.logFrom_stash {s : State} {source code : Nat} {ps : List Byte} : (s.logFrom source code ps).stash = s.stash :=
  State.logFrom_only.frame.2 .stash rfl
@[simp] theorem State.logFrom_sched {s : State} {source code : Nat} {ps : List Byte} : (s.logFrom source code ps).sched = s.sched :=
  State.logFrom_only.frame.2 .sched rfl
@[simp] theorem State.logFrom_grid {s : State} {source code : Nat} {ps : List Byte} : (s.logFrom source code ps).grid = s.grid :=
  State.logFrom_only.frame.2 .grid rfl
@[simp] theorem State.logFrom_fab {s : State} {source code : Nat} {ps : List Byte} : (s.logFrom source code ps).fab = s.fab :=
  State.logFrom_only.frame.2 .fab rfl
@[simp] theorem State.logFrom_pay {s : State} {source code : Nat} {ps : List Byte} : (s.logFrom source code ps).pay = s.pay :=
  State.logFrom_only.frame.2 .pay rfl
@[simp] theorem State.logFrom_ftf {s : State} {source code : Nat} {ps : List Byte} : (s.logFrom source code ps).ftf = s.ftf :=
  State.logFrom_only.frame.2 .ftf rfl
@[simp] theorem State.logFrom_gov {s : State} {source code : Nat} {ps : List Byte} : (s.logFrom source code ps).gov = s.gov :=
  State.logFrom_only.frame.2 .gov rfl
@[simp] theorem State.logFrom_fetched {s : State} {source code : Nat} {ps : List Byte} : (s.logFrom source code ps).host.fetched = s.host.fetched := by
  rw [State.logFrom_host]
@[simp] theorem State.logFrom_live {s : State} {source code : Nat} {ps : List Byte} : (s.logFrom source code ps).host.live = s.host.live := by
  rw [State.logFrom_host]
@[simp] theorem State.logFrom_waiting {s : State} {source code : Nat} {ps : List Byte} : (s.logFrom source code ps).host.waiting = s.host.waiting := by
  rw [State.logFrom_host]
@[simp] theorem State.logFrom_admitting {s : State} {source code : Nat} {ps : List Byte} : (s.logFrom source code ps).host.admitting = s.host.admitting := by
  rw [State.logFrom_host]
@[simp] theorem State.logFrom_vfEnable {s : State} {source code : Nat} {ps : List Byte} : (s.logFrom source code ps).host.vfEnable = s.host.vfEnable := by
  rw [State.logFrom_host]
@[simp] theorem State.logFrom_numVfs {s : State} {source code : Nat} {ps : List Byte} : (s.logFrom source code ps).host.numVfs = s.host.numVfs := by
  rw [State.logFrom_host]
@[simp] theorem State.logFrom_decisions {s : State} {source code : Nat} {ps : List Byte} : (s.logFrom source code ps).host.decisions = s.host.decisions := by
  rw [State.logFrom_host]

/-- A vector that is raised changes nothing but the output and the vectors. -/
@[simp] theorem State.raise_pending {s : State} {fn vec : Nat} : (s.raise fn vec).pending = s.pending := State.raise_only.frame.1
@[simp] theorem State.raise_draws {s : State} {fn vec : Nat} : (s.raise fn vec).draws = s.draws := State.raise_only.frame.2 .draws rfl
@[simp] theorem State.raise_clk {s : State} {fn vec : Nat} : (s.raise fn vec).clk = s.clk := State.raise_only.frame.2 .clk rfl
@[simp] theorem State.raise_boot {s : State} {fn vec : Nat} : (s.raise fn vec).boot = s.boot := State.raise_only.frame.2 .boot rfl
@[simp] theorem State.raise_dict {s : State} {fn vec : Nat} : (s.raise fn vec).dict = s.dict := State.raise_only.frame.2 .dict rfl
@[simp] theorem State.raise_flash {s : State} {fn vec : Nat} : (s.raise fn vec).flash = s.flash := State.raise_only.frame.2 .flash rfl
@[simp] theorem State.raise_vdp {s : State} {fn vec : Nat} : (s.raise fn vec).vdp = s.vdp := State.raise_only.frame.2 .vdp rfl
@[simp] theorem State.raise_ssp {s : State} {fn vec : Nat} : (s.raise fn vec).ssp = s.ssp := State.raise_only.frame.2 .ssp rfl
@[simp] theorem State.raise_cred {s : State} {fn vec : Nat} : (s.raise fn vec).cred = s.cred := State.raise_only.frame.2 .cred rfl
@[simp] theorem State.raise_mem {s : State} {fn vec : Nat} : (s.raise fn vec).mem = s.mem := State.raise_only.frame.2 .mem rfl
@[simp] theorem State.raise_seg {s : State} {fn vec : Nat} : (s.raise fn vec).seg = s.seg := State.raise_only.frame.2 .seg rfl
@[simp] theorem State.raise_bw {s : State} {fn vec : Nat} : (s.raise fn vec).bw = s.bw := State.raise_only.frame.2 .bw rfl
@[simp] theorem State.raise_diag {s : State} {fn vec : Nat} : (s.raise fn vec).diag = s.diag := State.raise_only.frame.2 .diag rfl
@[simp] theorem State.raise_colls {s : State} {fn vec : Nat} : (s.raise fn vec).colls = s.colls := State.raise_only.frame.2 .colls rfl
@[simp] theorem State.raise_stash {s : State} {fn vec : Nat} : (s.raise fn vec).stash = s.stash := State.raise_only.frame.2 .stash rfl
@[simp] theorem State.raise_sched {s : State} {fn vec : Nat} : (s.raise fn vec).sched = s.sched := State.raise_only.frame.2 .sched rfl
@[simp] theorem State.raise_grid {s : State} {fn vec : Nat} : (s.raise fn vec).grid = s.grid := State.raise_only.frame.2 .grid rfl
@[simp] theorem State.raise_fab {s : State} {fn vec : Nat} : (s.raise fn vec).fab = s.fab := State.raise_only.frame.2 .fab rfl
@[simp] theorem State.raise_pay {s : State} {fn vec : Nat} : (s.raise fn vec).pay = s.pay := State.raise_only.frame.2 .pay rfl
@[simp] theorem State.raise_ftf {s : State} {fn vec : Nat} : (s.raise fn vec).ftf = s.ftf := State.raise_only.frame.2 .ftf rfl
@[simp] theorem State.raise_gov {s : State} {fn vec : Nat} : (s.raise fn vec).gov = s.gov := State.raise_only.frame.2 .gov rfl
@[simp] theorem State.raise_log {s : State} {fn vec : Nat} : (s.raise fn vec).log = s.log := State.raise_only.frame.2 .log rfl
@[simp] theorem State.raise_can {s : State} {fn vec : Nat} : (s.raise fn vec).can = s.can := State.raise_only.frame.2 .can rfl

@[simp] theorem State.logFrom_burrow {s : State} {source code b : Nat} {ps : List Byte} : (s.logFrom source code ps).burrow b = s.burrow b := by
  unfold State.burrow
  rw [State.logFrom_burrows]
@[simp] theorem State.logFrom_slot {s : State} {source code b q : Nat} {ps : List Byte} : (s.logFrom source code ps).slot b q = s.slot b q := by
  unfold State.slot
  rw [State.logFrom_slots]
@[simp] theorem State.raise_burrow {s : State} {fn vec b : Nat} : (s.raise fn vec).burrow b = s.burrow b := by
  unfold State.burrow
  rw [State.raise_burrows]
@[simp] theorem State.raise_slot {s : State} {fn vec b q : Nat} : (s.raise fn vec).slot b q = s.slot b q := by
  unfold State.slot
  rw [State.raise_slots]

/-- An event changes nothing of CAN FD but the number of the next event frame. -/
theorem State.logFrom_can {s : State} {source code : Nat} {ps : List Byte} :
    (s.logFrom source code ps).can = { s.can with eventSeq := (s.logFrom source code ps).can.eventSeq } := by
  have c : ∀ (u : State) (a b : Nat) (d : List Byte), (u.canSend a b d).can = u.can := fun u a b d => State.canSend_only.frame.2 .can rfl
  unfold State.logFrom
  dsimp only
  repeat' split
  all_goals simp only [c, State.raise_can]

end Sys2Proof.Machine
end

