-- ==== Sys2Proof/Laws/Only/Fabric.lean ====
section
/-! SUPPORT. What each operation of Machine/Fabric.lean may change. -/

namespace Sys2Proof.Machine

theorem State.setPort_only {s : State} {p : Nat} {v : Port} :
    Only [.fab] s (State.setPort s p v) := by
  unfold State.setPort
  try dsimp -zeta -proj only [State.set_fab]
  repeat' first
    | with_reducible exact Only.refl _ _
    | (lift_lets -underBinder; intro x)
    | with_reducible refine Only.with_fab ?_ rfl

theorem State.modPort_only {s : State} {p : Nat} {f : Port → Port} :
    Only [.fab] s (State.modPort s p f) := by
  unfold State.modPort
  repeat' first
    | with_reducible exact Only.refl _ _
    | ((with_reducible apply Only.step State.setPort_only); rfl)

theorem State.resetLink_only {s : State} {p : Nat} :
    Only [.cred, .fab] s (State.resetLink s p) := by
  unfold State.resetLink
  try dsimp -zeta -proj only [State.set_fab]
  repeat' first
    | with_reducible assumption
    | with_reducible exact Only.refl _ _
    | (lift_lets -underBinder; intro x; refine Only.gen (ps := [.cred, .fab]) (s := s) (x := x) ?_ (fun hx => ?_); unfold x; rotate_left; clear_value x)
    | (intro x; refine Only.gen (ps := [.cred, .fab]) (s := s) (x := x) ?_ (fun hx => ?_); unfold x; rotate_left; clear_value x)
    | (intro x)
    | ((with_reducible apply Only.step State.giveBack_only); rfl)
    | ((with_reducible apply Only.step State.modPort_only); rfl)
    | with_reducible refine Only.with_fab ?_ rfl

theorem State.refusePort_only {s : State} {p reason : Nat} :
    Only [.log, .out, .can, .host, .cred, .fab] s (State.refusePort s p reason) := by
  unfold State.refusePort
  repeat' first
    | with_reducible assumption
    | with_reducible exact Only.refl _ _
    | (lift_lets -underBinder; intro x)
    | (intro x; refine Only.gen (ps := [.log, .out, .can, .host, .cred, .fab]) (s := s) (x := x) ?_ (fun hx => ?_); unfold x; rotate_left; clear_value x)
    | (intro x)
    | with_reducible refine Only.ite (fun _ => ?_) (fun _ => ?_)
    | ((with_reducible apply Only.step State.modPort_only); rfl)
    | ((with_reducible apply Only.step State.resetLink_only); rfl)
    | ((with_reducible apply Only.step State.logPort_only); rfl)

theorem State.linkExchange_only {ps : List Part} {s0 s : State} {p : Nat} {f : List Sys2Proof.Byte} {pass : State → State}
    (hq : [.log, .out, .can, .host, .cred, .fab].all ps.contains = true) (hk : ∀ u, Only ps s0 u → Only ps s0 (pass u)) (h : Only ps s0 s) : Only ps s0 (s.linkExchange p f pass) := by
  have hd : ∀ {qs : List Part} {t u : State}, Only qs t u → qs.all ([.log, .out, .can, .host, .cred, .fab]).contains = true → Only ps s0 t → Only ps s0 u :=
    fun a b c => Only.step (Only.step a b (Only.refl _ _)) hq c
  unfold State.linkExchange
  extract_lets t
  have k : Only ps s0 t := hd State.modPort_only rfl h
  clear_value t
  split
  · exact hd State.refusePort_only rfl k
  · exact hk _ k

theorem State.sendSequenced_only {s : State} {p kind channel : Nat} {payload : List Sys2Proof.Byte} :
    Only [.out, .fab] s (State.sendSequenced s p kind channel payload) := by
  unfold State.sendSequenced
  repeat' first
    | with_reducible exact Only.refl _ _
    | ((with_reducible apply Only.step State.emit_only); rfl)
    | ((with_reducible apply Only.step State.setPort_only); rfl)

theorem State.bindStream_only {s : State} {p : Nat} :
    Only [.out, .fab] s (State.bindStream s p) := by
  unfold State.bindStream
  repeat' first
    | with_reducible assumption
    | with_reducible exact Only.refl _ _
    | (lift_lets -underBinder; intro x)
    | (intro x; refine Only.gen (ps := [.out, .fab]) (s := s) (x := x) ?_ (fun hx => ?_); unfold x; rotate_left; clear_value x)
    | ((with_reducible apply Only.step State.setPort_only); rfl)
    | ((with_reducible apply Only.step State.sendSequenced_only); rfl)

theorem State.portUp_only {s : State} {p : Nat} :
    Only [.out, .cred, .colls, .fab] s (State.portUp s p) := by
  unfold State.portUp
  repeat' first
    | with_reducible assumption
    | with_reducible exact Only.refl _ _
    | (lift_lets -underBinder; intro x; refine Only.gen (ps := [.out, .cred, .colls, .fab]) (s := s) (x := x) ?_ (fun hx => ?_); unfold x; rotate_left; clear_value x)
    | ((with_reducible apply Only.step State.bindStream_only); rfl)
    | ((with_reducible apply Only.step State.modPort_only); rfl)
    | ((with_reducible apply Only.step State.resendRevokes_only); rfl)

theorem State.train_only {s : State} {p : Nat} :
    Only [.cred, .fab] s (State.train s p) := by
  unfold State.train
  repeat' first
    | with_reducible exact Only.refl _ _
    | ((with_reducible apply Only.step State.modPort_only); rfl)
    | ((with_reducible apply Only.step State.resetLink_only); rfl)

theorem State.startPort_only {s : State} {p : Nat} :
    Only [.cred, .fab] s (State.startPort s p) := by
  unfold State.startPort
  repeat' first
    | with_reducible exact Only.refl _ _
    | with_reducible refine Only.ite (fun _ => ?_) (fun _ => ?_)
    | ((with_reducible apply Only.step State.train_only); rfl)

theorem State.startPorts_only {s : State} :
    Only [.cred, .fab] s (State.startPorts s) := by
  unfold State.startPorts
  repeat' first
    | with_reducible assumption
    | with_reducible exact Only.refl _ _
    | with_reducible refine Only.foldl (fun _ _ _ => ?_) ?_
    | ((with_reducible apply Only.step State.startPort_only); rfl)

theorem State.sendIdle_only {s : State} {p : Nat} {nak : Bool} :
    Only [.out, .fab] s (State.sendIdle s p nak) := by
  unfold State.sendIdle
  repeat' first
    | with_reducible exact Only.refl _ _
    | ((with_reducible apply Only.step State.emit_only); rfl)
    | ((with_reducible apply Only.step State.setPort_only); rfl)

theorem State.sendNak_only {s : State} {p : Nat} :
    Only [.out, .fab] s (State.sendNak s p) := by
  unfold State.sendNak
  repeat' first
    | with_reducible exact Only.refl _ _
    | with_reducible refine Only.ite (fun _ => ?_) (fun _ => ?_)
    | ((with_reducible apply Only.step State.sendIdle_only); rfl)
    | ((with_reducible apply Only.step State.modPort_only); rfl)

theorem State.acknowledge_only {s : State} {p a0 : Nat} :
    Only [.out, .fab] s (State.acknowledge s p a0) := by
  induction a0 generalizing s p with
  | zero =>
    unfold State.acknowledge
    repeat' with_reducible exact Only.refl _ _
  | succ _ ih =>
    unfold State.acknowledge
    repeat' first
      | with_reducible assumption
      | with_reducible exact Only.refl _ _
      | ((with_reducible apply Only.step ih); rfl)
      | (lift_lets -underBinder; intro x; refine Only.gen (ps := [.out, .fab]) (s := s) (x := x) ?_ (fun hx => ?_); unfold x; rotate_left; clear_value x)
      | with_reducible refine Only.ite (fun _ => ?_) (fun _ => ?_)
      | ((with_reducible apply Only.step State.sendIdle_only); rfl)

theorem State.takeFields_only {s : State} {p : Nat} {f : List Sys2Proof.Byte} :
    Only [.cred, .fab] s (State.takeFields s p f) := by
  unfold State.takeFields
  repeat' first
    | with_reducible exact Only.refl _ _
    | with_reducible refine Only.ite (fun _ => ?_) (fun _ => ?_)
    | ((with_reducible apply Only.step State.modPort_only); rfl)
    | ((with_reducible apply Only.step State.giveBack_only); rfl)

theorem State.acceptFlit_only {s : State} {p : Nat} {f : List Sys2Proof.Byte} :
    Only [.cred, .fab] s (State.acceptFlit s p f) := by
  unfold State.acceptFlit
  repeat' first
    | with_reducible exact Only.refl _ _
    | ((with_reducible apply Only.step State.takeFields_only); rfl)
    | ((with_reducible apply Only.step State.modPort_only); rfl)

theorem State.sequenced_only {ps : List Part} {s0 s : State} {p : Nat} {f : List Sys2Proof.Byte} {pass : State → State}
    (hq : [.out, .cred, .fab].all ps.contains = true) (hk : ∀ u, Only ps s0 u → Only ps s0 (pass u)) (h : Only ps s0 s) : Only ps s0 (s.sequenced p f pass) := by
  have hd : ∀ {qs : List Part} {t u : State}, Only qs t u → qs.all ([.out, .cred, .fab]).contains = true → Only ps s0 t → Only ps s0 u :=
    fun a b c => Only.step (Only.step a b (Only.refl _ _)) hq c
  unfold State.sequenced
  refine Only.ite (fun _ => hd State.sendNak_only rfl h) (fun _ => ?_)
  split
  · exact h
  · exact hd State.sendNak_only rfl h
  · exact hd State.acknowledge_only rfl (hk _ (hd State.acceptFlit_only rfl h))

theorem State.unknownMessage_only {s : State} {p ty : Nat} :
    Only [.log, .out, .can, .host] s (State.unknownMessage s p ty) := by
  unfold State.unknownMessage
  repeat' first
    | with_reducible exact Only.refl _ _
    | ((with_reducible apply Only.step State.logPort_only); rfl)

theorem State.resend_only {s : State} {p : Nat} :
    Only [.out, .fab] s (State.resend s p) := by
  unfold State.resend
  repeat' first
    | with_reducible assumption
    | with_reducible exact Only.refl _ _
    | (lift_lets -underBinder; intro x)
    | (intro x; refine Only.gen (ps := [.out, .fab]) (s := s) (x := x) ?_ (fun hx => ?_); unfold x; rotate_left; clear_value x)
    | with_reducible refine Only.foldl (fun _ _ _ => ?_) ?_
    | with_reducible refine Only.ite (fun _ => ?_) (fun _ => ?_)
    | ((with_reducible apply Only.step State.setPort_only); rfl)
    | ((with_reducible apply Only.step State.emit_only); rfl)

theorem State.sendLink_only {s : State} {p : Nat} :
    Only [.out] s (State.sendLink s p) := by
  unfold State.sendLink
  repeat' first
    | with_reducible exact Only.refl _ _
    | ((with_reducible apply Only.step State.emit_only); rfl)

theorem State.sendFlits_only {s : State} {p key : Nat} {first : Bool} {a0 : List (List Sys2Proof.Byte)} :
    Only [.out, .fab] s (State.sendFlits s p key first a0) := by
  induction a0 generalizing s p key first with
  | nil =>
    unfold State.sendFlits
    repeat' with_reducible exact Only.refl _ _
  | cons _ _ ih =>
    unfold State.sendFlits
    repeat' first
      | with_reducible exact Only.refl _ _
      | ((with_reducible apply Only.step ih); rfl)
      | ((with_reducible apply Only.step State.sendSequenced_only); rfl)

theorem State.forward_only {s : State} {i : Nat} {m : Message} :
    Only [.out, .cred, .fab] s (State.forward s i m) := by
  unfold State.forward
  try dsimp -zeta -proj only [State.set_fab]
  repeat' first
    | with_reducible assumption
    | with_reducible exact Only.refl _ _
    | (lift_lets -underBinder; intro x)
    | (intro x; refine Only.gen (ps := [.out, .cred, .fab]) (s := s) (x := x) ?_ (fun hx => ?_); unfold x; rotate_left; clear_value x)
    | (intro x)
    | with_reducible refine Only.ite (fun _ => ?_) (fun _ => ?_)
    | ((with_reducible apply Only.step State.unitsBack_only); rfl)
    | ((with_reducible apply Only.step State.send_only); rfl)
    | ((with_reducible apply Only.step State.reserve_only); rfl)
    | ((with_reducible apply Only.step State.modPort_only); rfl)
    | ((with_reducible apply Only.step State.sendFlits_only); rfl)
    | ((with_reducible apply Only.step State.acknowledge_only); rfl)
    | with_reducible refine Only.with_fab ?_ rfl
    | split

theorem State.oweUnits_only {s : State} {p key n : Nat} :
    Only [.fab] s (State.oweUnits s p key n) := by
  unfold State.oweUnits
  repeat' first
    | with_reducible exact Only.refl _ _
    | ((with_reducible apply Only.step State.modPort_only); rfl)

theorem State.messageArrives_only {s : State} {p key : Nat} {w : List Sys2Proof.Byte} :
    Only [.log, .out, .can, .host, .fab] s (State.messageArrives s p key w) := by
  unfold State.messageArrives
  try dsimp -zeta -proj only [State.set_fab]
  repeat' first
    | with_reducible assumption
    | with_reducible exact Only.refl _ _
    | (lift_lets -underBinder; intro x; refine Only.gen (ps := [.log, .out, .can, .host, .fab]) (s := s) (x := x) ?_ (fun hx => ?_); unfold x; rotate_left; clear_value x)
    | (lift_lets -underBinder; intro x)
    | (intro x; refine Only.gen (ps := [.log, .out, .can, .host, .fab]) (s := s) (x := x) ?_ (fun hx => ?_); unfold x; rotate_left; clear_value x)
    | (intro x)
    | with_reducible refine Only.ite (fun _ => ?_) (fun _ => ?_)
    | ((with_reducible apply Only.step State.unknownMessage_only); rfl)
    | ((with_reducible apply Only.step State.oweUnits_only); rfl)
    | ((with_reducible apply Only.step State.logPort_only); rfl)
    | with_reducible refine Only.with_fab ?_ rfl
    | split

theorem State.dataArrives_only {s : State} {p : Nat} {f : List Sys2Proof.Byte} :
    Only [.log, .out, .can, .host, .fab] s (State.dataArrives s p f) := by
  unfold State.dataArrives
  repeat' first
    | with_reducible assumption
    | with_reducible exact Only.refl _ _
    | (lift_lets -underBinder; intro x)
    | (intro x; refine Only.gen (ps := [.log, .out, .can, .host, .fab]) (s := s) (x := x) ?_ (fun hx => ?_); unfold x; rotate_left; clear_value x)
    | (intro x)
    | with_reducible refine Only.ite (fun _ => ?_) (fun _ => ?_)
    | ((with_reducible apply Only.step State.modPort_only); rfl)
    | ((with_reducible apply Only.step State.unknownMessage_only); rfl)
    | ((with_reducible apply Only.step State.oweUnits_only); rfl)
    | ((with_reducible apply Only.step State.messageArrives_only); rfl)

end Sys2Proof.Machine
end

