-- ==== Sys2Proof/Laws/Fabric.lean ====
section
/-! SUPPORT. What the operations of a port leave of it: sending an IDLE flit changes only the credits it owes, what came with a flit
only the replay buffer and the credits, and messages of this device none of the ports. -/

namespace Sys2Proof.Machine

theorem Port.creditDue_rest {v : Port} : v.creditDue.2.2 = { v with owed := v.creditDue.2.2.owed } := by
  unfold Port.creditDue
  split <;> rfl

/-- An IDLE flit takes credits to return along, and nothing else of its port. -/
theorem State.sendIdle_port {s : State} {p : Nat} {nak : Bool} :
    (s.sendIdle p nak).port p = { s.port p with owed := (s.port p).creditDue.2.2.owed } := by
  unfold State.sendIdle
  dsimp only
  exact State.port_setPort.trans Port.creditDue_rest

theorem State.sendIdle_out {s : State} {p : Nat} {nak : Bool} : ∃ g, (s.sendIdle p nak).out = s.out ++ [.flit p g] := ⟨_, rfl⟩

/-- Sending an IDLE flit leaves the fabric but its ports alone. -/
theorem State.sendIdle_fab {s : State} {p : Nat} {nak : Bool} : (s.sendIdle p nak).fab = { s.fab with ports := (s.sendIdle p nak).fab.ports } := rfl

theorem State.acknowledge_port {s : State} {p : Nat} : ∀ {n : Nat}, ∃ o, (s.acknowledge p n).port p = { s.port p with owed := o } := by
  intro n
  induction n generalizing s with
  | zero => exact ⟨_, rfl⟩
  | succ n ih =>
    unfold State.acknowledge
    dsimp only
    split
    · exact ⟨_, State.sendIdle_port⟩
    · obtain ⟨o, h⟩ := ih (s := s.sendIdle p false)
      exact ⟨o, by rw [h, State.sendIdle_port]⟩

theorem State.acknowledge_out {s : State} {p : Nat} : ∀ {n : Nat}, ∃ g rest, (s.acknowledge p (n + 1)).out = s.out ++ .flit p g :: rest := by
  intro n
  induction n generalizing s with
  | zero =>
    unfold State.acknowledge
    dsimp only
    obtain ⟨g, h⟩ := State.sendIdle_out (s := s) (p := p) (nak := false)
    split
    · exact ⟨g, [], h⟩
    · exact ⟨g, [], h⟩
  | succ n ih =>
    unfold State.acknowledge
    dsimp only
    obtain ⟨g, h⟩ := State.sendIdle_out (s := s) (p := p) (nak := false)
    split
    · exact ⟨g, [], h⟩
    · obtain ⟨g', r, h'⟩ := ih (s := s.sendIdle p false)
      exact ⟨g, .flit p g' :: r, by rw [h', h, List.append_assoc]; rfl⟩

theorem State.acknowledge_fab {s : State} {p : Nat} : ∀ {n : Nat}, (s.acknowledge p n).fab = { s.fab with ports := (s.acknowledge p n).fab.ports } := by
  intro n
  induction n generalizing s with
  | zero => rfl
  | succ n ih =>
    unfold State.acknowledge
    dsimp only
    split
    · exact State.sendIdle_fab
    · rw [ih, State.sendIdle_fab]

/-- What an accepted flit carries along concerns the replay buffer and the credits. -/
theorem State.takeFields_is {s : State} {p : Nat} {f : List Byte} {v : Port} (h : (if flitAckValid f then
      match (s.port p).replay.findIdx? fun x => x.seq == flitAck f with
      | some i => { s.port p with replay := (s.port p).replay.drop (i + 1), ackTime := s.clk.now }
      | none => s.port p
    else s.port p) = v) : ∃ c, (s.takeFields p f).port p = { v with units := c } := by
  unfold State.takeFields State.modPort
  dsimp only
  generalize hw : (if flitAckValid f = true then _ else _ : Port) = w
  obtain rfl : w = v := hw.symm.trans h
  rw [State.port_setPort]
  split
  · exact ⟨_, State.port_setPort⟩
  · rw [show ∀ (u : State) (c k n : Nat), (u.giveBack c k n).port p = u.port p from fun _ _ _ _ => rfl]
    exact ⟨_, State.port_setPort⟩

theorem State.takeFields_port {s : State} {p : Nat} {f : List Byte} : ∃ a b c, (s.takeFields p f).port p = { s.port p with
    replay := a, ackTime := b, units := c } := by
  obtain ⟨c, h⟩ := State.takeFields_is (s := s) (p := p) (f := f) rfl
  rw [h]
  split
  · split <;> exact ⟨_, _, _, rfl⟩
  · exact ⟨_, _, _, rfl⟩

theorem State.takeFields_replay {s : State} {p i : Nat} {f : List Byte} (ha : flitAckValid f = true)
    (hi : (s.port p).replay.findIdx? (fun x => x.seq == flitAck f) = some i) :
    ((s.takeFields p f).port p).replay = (s.port p).replay.drop (i + 1) ∧ ((s.takeFields p f).port p).ackTime = s.clk.now := by
  obtain ⟨c, h⟩ := State.takeFields_is (s := s) (p := p) (f := f) rfl
  rw [h, if_pos ha, hi]
  exact ⟨rfl, rfl⟩

theorem State.takeFields_fab {s : State} {p : Nat} {f : List Byte} : (s.takeFields p f).fab = { s.fab with ports := (s.takeFields p f).fab.ports } := by
  unfold State.takeFields State.modPort
  dsimp only
  generalize (if flitAckValid f = true then _ else _ : Port) = v
  split <;> rfl

theorem State.sendNak_port {s : State} {p : Nat} : ((s.sendNak p).port p).nakSent = true ∧ ((s.sendNak p).port p).rxSeq = (s.port p).rxSeq := by
  unfold State.sendNak
  split
  · exact ⟨‹_›, rfl⟩
  · rw [State.sendIdle_port]
    unfold State.modPort
    rw [State.port_setPort]
    exact ⟨rfl, rfl⟩

/-- A sequenced flit moves the port's transmit sequence and joins the replay buffer. -/
theorem State.sendSequenced_port {s : State} {p kind channel : Nat} {payload : List Byte} : ∃ a b c d,
    (s.sendSequenced p kind channel payload).port p = { s.port p with txSeq := a, replay := b, ackTime := c, owed := d } := by
  unfold State.sendSequenced
  dsimp only
  rw [show ∀ v o, ((s.setPort p v).emit o).port p = v from fun _ _ => State.port_setPort, Port.creditDue_rest]
  exact ⟨_, _, _, _, rfl⟩

theorem State.bindStream_port {s : State} {p : Nat} : ∃ a b c d,
    (s.bindStream p).port p = { s.port p with bindNo := ((s.port p).bindNo + 1) % 65536, txBind := 0, txSeq := a, replay := b, ackTime := c, owed := d } := by
  unfold State.bindStream
  obtain ⟨a, b, c, d, h⟩ := State.sendSequenced_port (s := s.setPort p { s.port p with bindNo := ((s.port p).bindNo + 1) % 65536, txBind := 0 }) (p := p)
    (kind := 3) (channel := 0) (payload := ctrlPayload 1 (s.port p).bindNo 0 ((s.port p).triples 0))
  refine ⟨a, b, c, d, ?_⟩
  dsimp only
  rw [h, State.port_setPort]

theorem State.bindStream_out {s : State} {p : Nat} : ∃ g, (s.bindStream p).out = s.out ++ [.flit p g] := ⟨_, rfl⟩

theorem State.post_ports {s : State} {m : Message} : (s.post m).fab.ports = s.fab.ports := by
  unfold State.post
  split <;> rfl

theorem State.requestFor_ports {s : State} {dest ty flags tag requester coll owner : Nat} {body : List Byte} :
    (s.requestFor dest ty flags tag requester coll owner body).fab.ports = s.fab.ports := by
  unfold State.requestFor
  dsimp only
  split
  · rename_i h
    unfold State.startRequest at h
    dsimp only at h
    split at h
    · cases h
      exact State.post_ports
    · split at h
      · cases h
        exact State.post_ports
      · cases h
  · rfl

theorem State.resendRevokes_ports {s : State} {q : Nat → Bool} : (s.resendRevokes q).fab.ports = s.fab.ports := by
  unfold State.resendRevokes
  refine foldl_kept (g := fun u : State => u.fab.ports) ?_ s.colls s
  intro u e
  split
  · rfl
  · dsimp only
    rw [foldl_kept (g := fun u : State => u.fab.ports) (fun _ _ => State.requestFor_ports)]
    unfold State.modSeqr State.modColl
    split <;> rfl

theorem State.resendRevokes_port {s : State} {q : Nat → Bool} {p : Nat} : (s.resendRevokes q).port p = s.port p := by
  unfold State.port
  rw [State.resendRevokes_ports]

/-- Link-up ends in UP, under the number of the BIND that goes out. -/
theorem State.portUp_port {s : State} {p : Nat} : ((s.portUp p).port p).state = .up ∧ ((s.portUp p).port p).neighbour = (s.port p).neighbour
    ∧ ((s.portUp p).port p).txBind = 0 ∧ ((s.portUp p).port p).generation = (s.port p).generation := by
  unfold State.portUp
  dsimp only
  rw [State.resendRevokes_port]
  obtain ⟨a, b, c, d, h⟩ := State.bindStream_port (s := s.modPort p fun v => { v with state := .up, reason := 0, since := s.clk.now }) (p := p)
  rw [h]
  unfold State.modPort
  rw [State.port_setPort]
  exact ⟨rfl, rfl, rfl, rfl⟩

/-- A link whose counters start anew keeps its state, its neighbour, its codec tables and its counts of replays. -/
theorem State.resetLink_port {s : State} {p : Nat} : (s.resetLink p).port p = { s.port p with
    txSeq := 0, rxSeq := 0, nakSent := false, rxAny := false, retrainDue := false, replay := [], units := [], owed := [], partials := [], bindNo := 0, txBind := 0, rxBind := 0 } := by
  unfold State.resetLink State.modPort
  dsimp only
  exact State.port_setPort

theorem State.logPort_port {s : State} {p q code : Nat} {ps : List Byte} : (s.logPort q code ps).port p = s.port p := by
  unfold State.port
  rw [State.logPort_only.fab]

end Sys2Proof.Machine
end

