-- ==== Sys2Proof/Laws/Only/Memory.lean ====
section
/-! SUPPORT. What each operation of Machine/Memory.lean may change. -/

namespace Sys2Proof.Machine

theorem State.settleFrames_only {s : State} :
    Only [.draws, .boot, .log, .out, .can, .host, .mem, .seg] s (State.settleFrames s) := by
  unfold State.settleFrames
  repeat' first
    | with_reducible exact Only.refl _ _
    | ((with_reducible apply Only.step State.segmentAudit_only); rfl)
    | ((with_reducible apply Only.step State.replaceAll_only); rfl)

theorem execPageInDone_only {seg : Nat} {data : List Sys2Proof.Byte} {s : State} :
    Via inOut [.draws, .boot, .log, .out, .can, .host, .cred, .mem, .seg, .stash, .fab] s (execPageInDone seg data s) := by
  unfold execPageInDone
  repeat' first
    | with_reducible exact Only.refl _ _
    | ((with_reducible apply Only.step State.settleFrames_only); rfl)
    | ((with_reducible apply Only.step State.pagedIn_only); rfl)
    | with_reducible refine Via.of rfl ?_

theorem State.evacuate_only {s : State} {n : Nat} {found : Sys2Proof.BurstRead} :
    Only [.draws, .log, .out, .can, .host, .cred, .mem, .seg, .colls, .stash, .sched, .fab, .pay] s (State.evacuate s n found) := by
  unfold State.evacuate
  try dsimp -zeta -proj only [State.set_seg]
  repeat' first
    | with_reducible assumption
    | with_reducible exact Only.refl _ _
    | (lift_lets -underBinder; intro x)
    | (intro x; refine Only.gen (ps := [.draws, .log, .out, .can, .host, .cred, .mem, .seg, .colls, .stash, .sched, .fab, .pay]) (s := s) (x := x) ?_ (fun hx => ?_); unfold x; rotate_left; clear_value x)
    | (intro x)
    | with_reducible refine Only.ite (fun _ => ?_) (fun _ => ?_)
    | ((with_reducible apply Only.step State.quarantine_only); rfl)
    | ((with_reducible apply Only.step State.setSeg_only); rfl)
    | ((with_reducible apply Only.step State.writeFrame_only); rfl)
    | ((with_reducible apply Only.step (Via.get State.draw_only rfl)); rfl)
    | ((with_reducible apply Only.step State.frameBack_only); rfl)
    | ((with_reducible apply Only.step State.releaseKills_only); rfl)
    | with_reducible refine Only.with_seg ?_ rfl
    | split

theorem State.looseFrameBad_only {s : State} {f : Nat} :
    Only [.draws, .log, .out, .can, .host, .cred, .mem, .seg, .sched] s (State.looseFrameBad s f) := by
  unfold State.looseFrameBad
  try dsimp -zeta -proj only [State.set_seg]
  repeat' first
    | with_reducible assumption
    | with_reducible exact Only.refl _ _
    | (lift_lets -underBinder; intro x)
    | (intro x; refine Only.gen (ps := [.draws, .log, .out, .can, .host, .cred, .mem, .seg, .sched]) (s := s) (x := x) ?_ (fun hx => ?_); unfold x; rotate_left; clear_value x)
    | (intro x)
    | with_reducible refine Only.ite (fun _ => ?_) (fun _ => ?_)
    | ((with_reducible apply Only.step State.quarantineFrame_only); rfl)
    | ((with_reducible apply Only.step State.replaceScratch_only); rfl)
    | ((with_reducible apply Only.step State.stopQuery_only); rfl)
    | with_reducible refine Only.with_seg ?_ rfl

theorem State.burstFound_only {s : State} {f : Nat} {found : Sys2Proof.BurstRead} :
    Only [.draws, .log, .out, .can, .host, .cred, .mem, .seg, .colls, .sched, .pay] s (State.burstFound s f found) := by
  unfold State.burstFound
  repeat' first
    | with_reducible exact Only.refl _ _
    | ((with_reducible apply Only.step State.countCorrected_only); rfl)
    | ((with_reducible apply Only.step State.quarantine_only); rfl)
    | ((with_reducible apply Only.step State.looseFrameBad_only); rfl)
    | split

theorem execPatrolScrub_only {frame burst : Nat} {found : Sys2Proof.BurstRead} {s : State} :
    Via inOut [.draws, .boot, .log, .out, .can, .host, .cred, .mem, .seg, .colls, .sched, .pay] s (execPatrolScrub frame burst found s) := by
  unfold execPatrolScrub
  try dsimp -zeta -proj only [State.set_seg]
  repeat' first
    | with_reducible assumption
    | with_reducible exact Only.refl _ _
    | (lift_lets -underBinder; intro x; refine Only.gen (ps := [.draws, .boot, .log, .out, .can, .host, .cred, .mem, .seg, .colls, .sched, .pay]) (s := s) (x := x) ?_ (fun hx => ?_); unfold x; rotate_left; clear_value x)
    | (intro x)
    | with_reducible refine Via.ite (fun _ => ?_) (fun _ => ?_)
    | ((with_reducible apply Only.step State.burstFound_only); rfl)
    | ((with_reducible apply Only.step State.settleFrames_only); rfl)
    | with_reducible refine Only.with_seg ?_ rfl
    | with_reducible refine Via.of rfl ?_
    | with_reducible exact Via.nil rfl

theorem execPageOutDone_only {seg : Nat} {s : State} :
    Via inOut [.draws, .boot, .log, .out, .can, .host, .mem, .seg, .stash, .fab] s (execPageOutDone seg s) := by
  unfold execPageOutDone
  repeat' first
    | with_reducible exact Only.refl _ _
    | ((with_reducible apply Only.step State.settleFrames_only); rfl)
    | ((with_reducible apply Only.step State.pagedOut_only); rfl)
    | with_reducible refine Via.of rfl ?_

theorem execPageOutStart_only {s : State} :
    Via inOut [.draws, .out, .seg, .bw] s (execPageOutStart s) := by
  unfold execPageOutStart
  try dsimp -zeta -proj only [State.set_seg]
  repeat' first
    | with_reducible assumption
    | with_reducible exact Only.refl _ _
    | (lift_lets -underBinder; intro x)
    | (intro x; refine Only.gen (ps := [.draws, .out, .seg, .bw]) (s := s) (x := x) ?_ (fun hx => ?_); unfold x; rotate_left; clear_value x)
    | (intro x)
    | with_reducible refine Only.step (Via.caseSnd State.sweep_only (by assumption)) rfl ?_
    | ((with_reducible apply Only.step State.pageOut_only); rfl)
    | with_reducible refine Only.with_seg ?_ rfl
    | split
    | with_reducible refine Via.of rfl ?_

theorem execEvacuationCopyDone_only {seg : Nat} {found : Sys2Proof.BurstRead} {s : State} :
    Via inOut [.draws, .boot, .log, .out, .can, .host, .cred, .mem, .seg, .colls, .stash, .sched, .fab, .pay] s (execEvacuationCopyDone seg found s) := by
  unfold execEvacuationCopyDone
  repeat' first
    | with_reducible exact Only.refl _ _
    | ((with_reducible apply Only.step State.settleFrames_only); rfl)
    | ((with_reducible apply Only.step State.evacuate_only); rfl)
    | with_reducible refine Via.of rfl ?_

theorem State.touchFrame_only {s : State} {f : Nat} :
    Only [.seg] s (State.touchFrame s f) := by
  unfold State.touchFrame
  repeat' first
    | with_reducible exact Only.refl _ _
    | ((with_reducible apply Only.step State.touch_only); rfl)
    | split

theorem execHbmReadDone_only {frame burst : Nat} {found : Sys2Proof.BurstRead} {s : State} :
    Via inOut [.draws, .boot, .log, .out, .can, .host, .cred, .mem, .seg, .colls, .sched, .pay] s (execHbmReadDone frame burst found s) := by
  unfold execHbmReadDone
  repeat' first
    | with_reducible exact Only.refl _ _
    | with_reducible refine Via.ite (fun _ => ?_) (fun _ => ?_)
    | ((with_reducible apply Only.step State.settleFrames_only); rfl)
    | ((with_reducible apply Only.step State.burstFound_only); rfl)
    | ((with_reducible apply Only.step State.touchFrame_only); rfl)
    | with_reducible refine Via.of rfl ?_
    | with_reducible exact Via.nil rfl

theorem execPcRetired_only {pc : Fin 256} {s : State} :
    Via inOut [.draws, .boot, .log, .out, .can, .host, .mem, .seg, .bw] s (execPcRetired pc s) := by
  unfold execPcRetired
  repeat' first
    | with_reducible exact Only.refl _ _
    | ((with_reducible apply Only.step State.segmentAudit_only); rfl)
    | ((with_reducible apply Only.step State.retirePc_only); rfl)
    | split
    | with_reducible refine Via.of rfl ?_

theorem execPageInStart_only {seg : Nat} {s : State} :
    Via inOut [.draws, .out, .cred, .seg, .bw] s (execPageInStart seg s) := by
  unfold execPageInStart
  repeat' first
    | with_reducible exact Only.refl _ _
    | ((with_reducible apply Only.step State.pageIn_only); rfl)
    | with_reducible refine Via.of rfl ?_

end Sys2Proof.Machine
end

