-- ==== Sys2Proof/Laws/Only/Diag.lean ====
section
/-! SUPPORT. What each operation of Machine/Diag.lean may change. -/

namespace Sys2Proof.Machine

theorem State.setGenerator_only {s : State} {st : Nat} {g : Generator} :
    Only [.diag] s (State.setGenerator s st g) := by
  unfold State.setGenerator
  try dsimp -zeta -proj only [State.set_diag]
  repeat' first
    | with_reducible exact Only.refl _ _
    | (lift_lets -underBinder; intro x)
    | with_reducible refine Only.with_diag ?_ rfl

theorem State.returnFrames_only {s : State} {fs : List (Nat × Bool)} :
    Only [.seg] s (State.returnFrames s fs) := by
  unfold State.returnFrames
  try dsimp -zeta -proj only [State.set_seg]
  repeat' first
    | with_reducible assumption
    | with_reducible exact Only.refl _ _
    | (lift_lets -underBinder; intro x)
    | with_reducible refine Only.foldl (fun _ _ _ => ?_) ?_
    | with_reducible refine Only.ite (fun _ => ?_) (fun _ => ?_)
    | ((with_reducible apply Only.step State.frameBack_only); rfl)
    | with_reducible refine Only.with_seg ?_ rfl

theorem State.writePattern_only {s : State} {pattern v : Nat} {fs : List Nat} :
    Only [.mem] s (State.writePattern s pattern v fs) := by
  exact Only.foldlFst (fun u x hu => Only.step State.writeFrame_only rfl hu) (Only.refl _ _)

theorem State.startGenerator_only {s : State} {st : Nat} :
    Via inOpt [.mem, .seg, .diag] s (State.startGenerator s st) := by
  unfold State.startGenerator
  try dsimp -zeta -proj only [State.set_seg]
  repeat' first
    | with_reducible assumption
    | with_reducible exact Only.refl _ _
    | (lift_lets -underBinder; intro x)
    | (intro x; refine Only.gen (ps := [.mem, .seg, .diag]) (s := s) (x := x) ?_ (fun hx => ?_); unfold x; rotate_left)
    | (intro x)
    | with_reducible refine Via.ite (fun _ => ?_) (fun _ => ?_)
    | ((with_reducible apply Only.step State.setGenerator_only); rfl)
    | ((with_reducible apply Only.step State.returnFrames_only); rfl)
    | ((with_reducible apply Only.step State.writePattern_only); rfl)
    | with_reducible refine Only.with_seg ?_ rfl
    | refine Only.ite (fun _ => ?_) (fun _ => ?_)
    | with_reducible refine Via.of rfl ?_
    | with_reducible exact Via.nil rfl

theorem State.stopGenerator_only {s : State} {st : Nat} :
    Only [.seg, .diag] s (State.stopGenerator s st) := by
  unfold State.stopGenerator
  repeat' first
    | with_reducible exact Only.refl _ _
    | (lift_lets -underBinder; intro x)
    | with_reducible refine Only.ite (fun _ => ?_) (fun _ => ?_)
    | ((with_reducible apply Only.step State.setGenerator_only); rfl)
    | ((with_reducible apply Only.step State.returnFrames_only); rfl)

theorem State.repairStatus_only {s : State} {st code : Nat} :
    Only [.diag] s (State.repairStatus s st code) := by
  unfold State.repairStatus
  try dsimp -zeta -proj only [State.set_diag]
  repeat' first
    | with_reducible exact Only.refl _ _
    | (lift_lets -underBinder; intro x)
    | with_reducible refine Only.with_diag ?_ rfl

theorem State.repairCommand_only {s : State} {st cmd : Nat} :
    Via inSnd [.diag] s (State.repairCommand s st cmd) := by
  unfold State.repairCommand
  try dsimp -zeta -proj only [State.set_diag]
  repeat' first
    | with_reducible assumption
    | with_reducible exact Only.refl _ _
    | (lift_lets -underBinder; intro x)
    | (intro x; refine Only.gen (ps := [.diag]) (s := s) (x := x) ?_ (fun hx => ?_); unfold x; rotate_left; clear_value x)
    | (intro x)
    | with_reducible refine Via.ite (fun _ => ?_) (fun _ => ?_)
    | ((with_reducible apply Only.step State.repairStatus_only); rfl)
    | with_reducible refine Only.with_diag ?_ rfl
    | with_reducible refine Via.of rfl ?_

theorem State.fuseRepair_only {s : State} {st slot v : Nat} :
    Only [.diag] s (State.fuseRepair s st slot v) := by
  unfold State.fuseRepair
  try dsimp -zeta -proj only [State.set_diag]
  repeat' first
    | with_reducible exact Only.refl _ _
    | (lift_lets -underBinder; intro x)
    | with_reducible refine Only.with_diag ?_ rfl

theorem execGeneratorDone_only {st : Fin 8} {found : Sys2Proof.GeneratorFind} {s : State} :
    Via inOut [.draws, .boot, .log, .out, .can, .host, .mem, .seg, .diag] s (execGeneratorDone st found s) := by
  unfold execGeneratorDone
  repeat' first
    | with_reducible exact Only.refl _ _
    | (lift_lets -underBinder; intro x)
    | ((with_reducible apply Only.step State.settleFrames_only); rfl)
    | ((with_reducible apply Only.step State.setGenerator_only); rfl)
    | ((with_reducible apply Only.step State.returnFrames_only); rfl)
    | split
    | with_reducible refine Via.of rfl ?_

theorem State.releaseFrame_only {s : State} {f : Nat} :
    Only [.seg, .diag] s (State.releaseFrame s f) := by
  unfold State.releaseFrame
  try dsimp -zeta -proj only [State.set_seg_diag , State.set_seg , State.set_diag]
  repeat' first
    | with_reducible assumption
    | with_reducible exact Only.refl _ _
    | (lift_lets -underBinder; intro x)
    | (intro x; refine Only.gen (ps := [.seg, .diag]) (s := s) (x := x) ?_ (fun hx => ?_); unfold x; rotate_left; clear_value x)
    | (intro x)
    | with_reducible refine Only.ite (fun _ => ?_) (fun _ => ?_)
    | with_reducible refine Only.with_seg ?_ rfl
    | with_reducible refine Only.with_diag ?_ rfl

theorem execHardRepairCheckDone_only {st : Fin 8} {pass : Bool} {s : State} :
    Via inOut [.draws, .boot, .log, .out, .can, .host, .mem, .seg, .diag] s (execHardRepairCheckDone st pass s) := by
  unfold execHardRepairCheckDone
  try dsimp -zeta -proj only [State.set_diag]
  repeat' first
    | with_reducible assumption
    | with_reducible exact Only.refl _ _
    | (lift_lets -underBinder; intro x)
    | (intro x; refine Only.gen (ps := [.draws, .boot, .log, .out, .can, .host, .mem, .seg, .diag]) (s := s) (x := x) ?_ (fun hx => ?_); unfold x; rotate_left; clear_value x)
    | ((with_reducible apply Only.step State.settleFrames_only); rfl)
    | ((with_reducible apply Only.step State.releaseFrame_only); rfl)
    | with_reducible refine Only.with_diag ?_ rfl
    | split
    | with_reducible refine Via.of rfl ?_

end Sys2Proof.Machine
end

