-- ==== Sys2Proof/Laws/Only/Links.lean ====
section
/-! SUPPORT. What each operation of Machine/Links.lean may change. -/

namespace Sys2Proof.Machine

theorem execLinkFlit_only {p : Fin 10} {flit : List Sys2Proof.Byte} {s : State} :
    Via inOut [.log, .out, .can, .host, .cred, .colls, .fab] s (execLinkFlit p flit s) := by
  unfold execLinkFlit
  repeat' first
    | with_reducible refine State.linkExchange_only rfl (fun _ _ => ?_) ?_
    | with_reducible assumption
    | with_reducible exact Only.refl _ _
    | (lift_lets -underBinder; intro x)
    | ((with_reducible apply Only.step State.portUp_only); rfl)
    | split
    | with_reducible refine Via.of rfl ?_

theorem State.portEnable_only {s : State} {p : Nat} {on : Bool} :
    Only [.cred, .fab] s (State.portEnable s p on) := by
  unfold State.portEnable
  repeat' first
    | with_reducible exact Only.refl _ _
    | (lift_lets -underBinder; intro x)
    | with_reducible refine Only.ite (fun _ => ?_) (fun _ => ?_)
    | ((with_reducible apply Only.step State.startPort_only); rfl)
    | ((with_reducible apply Only.step State.setPort_only); rfl)
    | ((with_reducible apply Only.step State.modPort_only); rfl)
    | ((with_reducible apply Only.step State.resetLink_only); rfl)
    | split

theorem State.loadTable_only {s : State} {p slot : Nat} {image : List Sys2Proof.Byte} {t : Option CodecTable} :
    Only [.out, .fab] s (State.loadTable s p slot image t) := by
  unfold State.loadTable
  repeat' first
    | with_reducible assumption
    | with_reducible exact Only.refl _ _
    | (lift_lets -underBinder; intro x; refine Only.gen (ps := [.out, .fab]) (s := s) (x := x) ?_ (fun hx => ?_); unfold x; rotate_left; clear_value x)
    | with_reducible refine Only.ite (fun _ => ?_) (fun _ => ?_)
    | ((with_reducible apply Only.step State.modPort_only); rfl)
    | ((with_reducible apply Only.step State.bindStream_only); rfl)

theorem execNak_only {p : Fin 10} {flit : List Sys2Proof.Byte} {s : State} :
    Via inOut [.out, .cred, .fab] s (execNak p flit s) := by
  unfold execNak
  repeat' first
    | with_reducible exact Only.refl _ _
    | ((with_reducible apply Only.step State.sendNak_only); rfl)
    | ((with_reducible apply Only.step State.resend_only); rfl)
    | ((with_reducible apply Only.step State.takeFields_only); rfl)
    | split
    | with_reducible refine Via.of rfl ?_

theorem execPhyTrained_only {p : Fin 10} {s : State} :
    Via inOut [.out, .fab] s (execPhyTrained p s) := by
  unfold execPhyTrained
  repeat' first
    | with_reducible exact Only.refl _ _
    | (lift_lets -underBinder; intro x)
    | ((with_reducible apply Only.step State.sendLink_only); rfl)
    | ((with_reducible apply Only.step State.setPort_only); rfl)
    | split
    | with_reducible refine Via.of rfl ?_

theorem execMessageForward_only {i : Nat} {s : State} :
    Via inOut [.out, .cred, .fab] s (execMessageForward i s) := by
  unfold execMessageForward
  repeat' first
    | with_reducible exact Only.refl _ _
    | ((with_reducible apply Only.step State.forward_only); rfl)
    | split
    | with_reducible refine Via.of rfl ?_

theorem execRetraining_only {p : Fin 10} {s : State} :
    Via inOut [.fab] s (execRetraining p s) := by
  unfold execRetraining
  repeat' first
    | with_reducible exact Only.refl _ _
    | (lift_lets -underBinder; intro x)
    | ((with_reducible apply Only.step State.setPort_only); rfl)
    | split
    | with_reducible refine Via.of rfl ?_

theorem execReplayTimeout_only {p : Fin 10} {s : State} :
    Via inOut [.out, .fab] s (execReplayTimeout p s) := by
  unfold execReplayTimeout
  repeat' first
    | with_reducible exact Only.refl _ _
    | (lift_lets -underBinder; intro x)
    | ((with_reducible apply Only.step State.resend_only); rfl)
    | split
    | with_reducible refine Via.of rfl ?_

theorem execBindAck_only {p : Fin 10} {flit : List Sys2Proof.Byte} {s : State} :
    Via inOut [.log, .out, .can, .host, .cred, .fab] s (execBindAck p flit s) := by
  unfold execBindAck
  repeat' first
    | with_reducible refine State.sequenced_only rfl (fun _ _ => ?_) ?_
    | with_reducible assumption
    | with_reducible exact Only.refl _ _
    | (lift_lets -underBinder; intro x)
    | with_reducible refine Only.ite (fun _ => ?_) (fun _ => ?_)
    | ((with_reducible apply Only.step State.unknownMessage_only); rfl)
    | ((with_reducible apply Only.step State.modPort_only); rfl)
    | split
    | with_reducible refine Via.of rfl ?_

theorem State.applyBind_only {s : State} {p : Nat} {b : List Sys2Proof.Byte} :
    Only [.out, .fab] s (State.applyBind s p b) := by
  unfold State.applyBind
  repeat' first
    | with_reducible assumption
    | with_reducible exact Only.refl _ _
    | (lift_lets -underBinder; intro x; refine Only.gen (ps := [.out, .fab]) (s := s) (x := x) ?_ (fun hx => ?_); unfold x; rotate_left; clear_value x)
    | (intro x; refine Only.gen (ps := [.out, .fab]) (s := s) (x := x) ?_ (fun hx => ?_); unfold x; rotate_left; clear_value x)
    | (intro x)
    | ((with_reducible apply Only.step State.modPort_only); rfl)
    | ((with_reducible apply Only.step State.sendSequenced_only); rfl)

theorem execIdleFlit_only {p : Fin 10} {flit : List Sys2Proof.Byte} {s : State} :
    Via inOut [.out, .cred, .fab] s (execIdleFlit p flit s) := by
  unfold execIdleFlit
  repeat' first
    | with_reducible exact Only.refl _ _
    | ((with_reducible apply Only.step State.sendNak_only); rfl)
    | ((with_reducible apply Only.step State.takeFields_only); rfl)
    | split
    | with_reducible refine Via.of rfl ?_

theorem State.resume_only {s : State} {p : Nat} :
    Only [.out, .cred, .colls, .fab] s (State.resume s p) := by
  unfold State.resume
  repeat' first
    | with_reducible assumption
    | with_reducible exact Only.refl _ _
    | (lift_lets -underBinder; intro x; refine Only.gen (ps := [.out, .cred, .colls, .fab]) (s := s) (x := x) ?_ (fun hx => ?_); unfold x; rotate_left; clear_value x)
    | (intro x; refine Only.gen (ps := [.out, .cred, .colls, .fab]) (s := s) (x := x) ?_ (fun hx => ?_); unfold x; rotate_left; clear_value x)
    | (intro x)
    | with_reducible refine Only.foldl (fun _ _ _ => ?_) ?_
    | ((with_reducible apply Only.step State.modPort_only); rfl)
    | ((with_reducible apply Only.step State.emit_only); rfl)
    | ((with_reducible apply Only.step State.resendRevokes_only); rfl)
    | ((with_reducible apply Only.step State.bindStream_only); rfl)

theorem execRetrainDone_only {p : Fin 10} {flit : List Sys2Proof.Byte} {s : State} :
    Via inOut [.log, .out, .can, .host, .cred, .colls, .fab] s (execRetrainDone p flit s) := by
  unfold execRetrainDone
  repeat' first
    | with_reducible refine State.linkExchange_only rfl (fun _ _ => ?_) ?_
    | with_reducible assumption
    | with_reducible exact Only.refl _ _
    | (lift_lets -underBinder; intro x)
    | ((with_reducible apply Only.step State.sendLink_only); rfl)
    | ((with_reducible apply Only.step State.resume_only); rfl)
    | split
    | with_reducible refine Via.of rfl ?_

theorem execBind_only {p : Fin 10} {flit : List Sys2Proof.Byte} {s : State} :
    Via inOut [.log, .out, .can, .host, .cred, .fab] s (execBind p flit s) := by
  unfold execBind
  repeat' first
    | with_reducible refine State.sequenced_only rfl (fun _ _ => ?_) ?_
    | with_reducible assumption
    | with_reducible exact Only.refl _ _
    | (lift_lets -underBinder; intro x)
    | (intro x)
    | ((with_reducible apply Only.step State.applyBind_only); rfl)
    | ((with_reducible apply Only.step State.unknownMessage_only); rfl)
    | split
    | with_reducible refine Via.of rfl ?_

theorem execRetrainTimeout_only {p : Fin 10} {s : State} :
    Via inOut [.log, .out, .can, .host, .cred, .fab] s (execRetrainTimeout p s) := by
  unfold execRetrainTimeout
  repeat' first
    | with_reducible exact Only.refl _ _
    | (lift_lets -underBinder; intro x)
    | ((with_reducible apply Only.step State.logPort_only); rfl)
    | ((with_reducible apply Only.step State.modPort_only); rfl)
    | ((with_reducible apply Only.step State.resetLink_only); rfl)
    | split
    | with_reducible refine Via.of rfl ?_

theorem execLinkUpRetry_only {p : Fin 10} {link : Option (List Sys2Proof.Byte)} {s : State} :
    Via inOut [.log, .out, .can, .host, .cred, .colls, .fab] s (execLinkUpRetry p link s) := by
  unfold execLinkUpRetry
  repeat' first
    | with_reducible refine State.linkExchange_only rfl (fun _ _ => ?_) ?_
    | exact (id (by assumption) : Only _ _ _)
    | with_reducible exact Only.refl _ _
    | (lift_lets -underBinder; intro x)
    | (intro x)
    | ((with_reducible apply Only.step State.setPort_only); rfl)
    | ((with_reducible apply Only.step State.sendLink_only); rfl)
    | ((with_reducible apply Only.step State.portUp_only); rfl)
    | ((with_reducible apply Only.step State.resetLink_only); rfl)
    | split
    | with_reducible refine Via.of rfl ?_

theorem execPortDrainEnd_only {p : Fin 10} {s : State} :
    Via inOut [.cred, .fab] s (execPortDrainEnd p s) := by
  unfold execPortDrainEnd
  repeat' first
    | with_reducible assumption
    | with_reducible exact Only.refl _ _
    | (lift_lets -underBinder; intro x)
    | (intro x; refine Only.gen (ps := [.cred, .fab]) (s := s) (x := x) ?_ (fun hx => ?_); unfold x; rotate_left; clear_value x)
    | ((with_reducible apply Only.step State.modPort_only); rfl)
    | ((with_reducible apply Only.step State.resetLink_only); rfl)
    | ((with_reducible apply Only.step State.train_only); rfl)
    | split
    | with_reducible refine Via.of rfl ?_

theorem execBindRefuse_only {p : Fin 10} {flit : List Sys2Proof.Byte} {s : State} :
    Via inOut [.log, .out, .can, .host, .cred, .fab] s (execBindRefuse p flit s) := by
  unfold execBindRefuse
  repeat' first
    | with_reducible refine State.sequenced_only rfl (fun _ _ => ?_) ?_
    | with_reducible assumption
    | with_reducible exact Only.refl _ _
    | (lift_lets -underBinder; intro x)
    | with_reducible refine Only.ite (fun _ => ?_) (fun _ => ?_)
    | ((with_reducible apply Only.step State.unknownMessage_only); rfl)
    | ((with_reducible apply Only.step State.logPort_only); rfl)
    | ((with_reducible apply Only.step State.modPort_only); rfl)
    | split
    | with_reducible refine Via.of rfl ?_

theorem execDataFlit_only {p : Fin 10} {flit : List Sys2Proof.Byte} {s : State} :
    Via inOut [.log, .out, .can, .host, .cred, .fab] s (execDataFlit p flit s) := by
  unfold execDataFlit
  repeat' first
    | with_reducible refine State.sequenced_only rfl (fun _ _ => ?_) ?_
    | with_reducible assumption
    | with_reducible exact Only.refl _ _
    | ((with_reducible apply Only.step State.dataArrives_only); rfl)
    | ((with_reducible apply Only.step State.sendNak_only); rfl)
    | split
    | with_reducible refine Via.of rfl ?_

end Sys2Proof.Machine
end

