-- ==== Sys2Proof/Laws/Only/Store.lean ====
section
/-! SUPPORT. What each operation of Machine/Store.lean may change. -/

namespace Sys2Proof.Machine

theorem State.flashErase_only {s : State} {a n : Nat} :
    Only [.flash] s (State.flashErase s a n) := by
  unfold State.flashErase
  try dsimp -zeta -proj only [State.set_flash]
  repeat' first
    | exact fun _ h => Memory.wf_clear h
    | with_reducible exact Only.refl _ _
    | with_reducible refine Only.with_flash ?_ rfl ?_

theorem State.startStore_only {s : State} :
    Only [.dict, .flash] s (State.startStore s) := by
  unfold State.startStore
  try dsimp -zeta -proj only [State.set_dict]
  repeat' first
    | with_reducible assumption
    | with_reducible exact Only.refl _ _
    | (lift_lets -underBinder; intro x; refine Only.gen (ps := [.dict, .flash]) (s := s) (x := x) ?_ (fun hx => ?_); unfold x; rotate_left; clear_value x)
    | (intro x)
    | ((with_reducible apply Only.step State.flashErase_only); rfl)
    | with_reducible refine Only.with_dict ?_ rfl

theorem State.requestStore_only {s : State} :
    Only [.dict, .flash] s (State.requestStore s) := by
  unfold State.requestStore
  try dsimp -zeta -proj only [State.set_dict]
  repeat' first
    | with_reducible exact Only.refl _ _
    | (lift_lets -underBinder; intro x)
    | with_reducible refine Only.ite (fun _ => ?_) (fun _ => ?_)
    | ((with_reducible apply Only.step State.startStore_only); rfl)
    | with_reducible refine Only.with_dict ?_ rfl

theorem State.putBase_only {s : State} {ix sub : Nat} {v : List Sys2Proof.Byte} :
    Only [.dict] s (State.putBase s ix sub v) := by
  unfold State.putBase
  try dsimp -zeta -proj only [State.set_dict]
  repeat' first
    | with_reducible exact Only.refl _ _
    | (lift_lets -underBinder; intro x)
    | with_reducible refine Only.with_dict ?_ rfl

theorem State.loadImage_only {s : State} {e : Nat × List Sys2Proof.Byte} :
    Only [.out, .fab] s (State.loadImage s e) := by
  unfold State.loadImage
  repeat' first
    | with_reducible exact Only.refl _ _
    | (lift_lets -underBinder; intro x)
    | with_reducible refine Only.ite (fun _ => ?_) (fun _ => ?_)
    | ((with_reducible apply Only.step State.loadTable_only); rfl)
    | split

theorem State.skipRecord_only {s : State} {ix sub : Nat} :
    Only [.log, .out, .can, .host] s (State.skipRecord s ix sub) := by
  unfold State.skipRecord
  repeat' first
    | with_reducible exact Only.refl _ _
    | ((with_reducible apply Only.step State.logEvent_only); rfl)

theorem State.checkDelta_only {s : State} {m d : Nat} :
    Only [.log, .out, .dict, .can, .host] s (State.checkDelta s m d) := by
  unfold State.checkDelta
  repeat' first
    | with_reducible exact Only.refl _ _
    | with_reducible refine Only.ite (fun _ => ?_) (fun _ => ?_)
    | ((with_reducible apply Only.step State.skipRecord_only); rfl)
    | ((with_reducible apply Only.step State.putBase_only); rfl)

theorem State.checkDeltas_only {s : State} :
    Only [.log, .out, .dict, .can, .host] s (State.checkDeltas s) := by
  unfold State.checkDeltas
  repeat' first
    | with_reducible assumption
    | with_reducible exact Only.refl _ _
    | with_reducible refine Only.foldl (fun _ _ _ => ?_) ?_
    | ((with_reducible apply Only.step State.checkDelta_only); rfl)

theorem State.flashWrite_only {s : State} {a : Nat} {bs : List Sys2Proof.Byte} :
    Only [.flash] s (State.flashWrite s a bs) := by
  unfold State.flashWrite
  try dsimp -zeta -proj only [State.set_flash]
  repeat' first
    | exact fun _ h => Memory.wf_writeN h
    | with_reducible exact Only.refl _ _
    | with_reducible refine Only.with_flash ?_ rfl ?_

theorem State.freeBytes_only {s : State} {place n : Nat} :
    Via inSnd [.draws] s (State.freeBytes s place n) := by
  unfold State.freeBytes
  try dsimp -zeta -proj only [State.set_draws]
  repeat' first
    | with_reducible exact Only.refl _ _
    | with_reducible refine Only.with_draws ?_ rfl
    | with_reducible refine Via.of rfl ?_

theorem State.flashSpoil_only {s : State} {a n : Nat} :
    Only [.draws, .flash] s (State.flashSpoil s a n) := by
  unfold State.flashSpoil
  repeat' first
    | with_reducible exact Only.refl _ _
    | ((with_reducible apply Only.step (Via.get State.freeBytes_only rfl)); rfl)
    | ((with_reducible apply Only.step State.flashWrite_only); rfl)

theorem State.breakStore_only {s : State} :
    Only [.draws, .boot, .dict, .flash] s (State.breakStore s) := by
  unfold State.breakStore
  try dsimp -zeta -proj only [State.set_boot_dict , State.set_dict , State.set_boot]
  repeat' first
    | with_reducible assumption
    | with_reducible exact Only.refl _ _
    | (lift_lets -underBinder; intro x; refine Only.gen (ps := [.draws, .boot, .dict, .flash]) (s := s) (x := x) ?_ (fun hx => ?_); unfold x; rotate_left; clear_value x)
    | (lift_lets -underBinder; intro x)
    | (intro x)
    | ((with_reducible apply Only.step State.flashSpoil_only); rfl)
    | with_reducible refine Only.with_dict ?_ rfl
    | with_reducible refine Only.with_boot ?_ rfl
    | split

theorem State.putDelta_only {s : State} {a0 : Nat × Nat × Nat × Nat × List Sys2Proof.Byte} :
    Only [.dict] s (State.putDelta s a0) := by
  unfold State.putDelta
  repeat' first
    | with_reducible exact Only.refl _ _
    | (lift_lets -underBinder; intro x)
    | ((with_reducible apply Only.step State.putBase_only); rfl)

theorem State.loadRecord_only {s : State} {r : Record} :
    Only [.log, .out, .dict, .can, .host] s (State.loadRecord s r) := by
  unfold State.loadRecord
  repeat' first
    | with_reducible exact Only.refl _ _
    | with_reducible refine Only.ite (fun _ => ?_) (fun _ => ?_)
    | ((with_reducible apply Only.step State.skipRecord_only); rfl)
    | ((with_reducible apply Only.step State.putBase_only); rfl)
    | split

theorem State.loadConfig_only {s : State} :
    Only [.log, .out, .dict, .can, .host, .fab] s (State.loadConfig s) := by
  unfold State.loadConfig
  try dsimp -zeta -proj only [State.set_dict]
  repeat' first
    | with_reducible assumption
    | with_reducible exact Only.refl _ _
    | (lift_lets -underBinder; intro x; refine Only.gen (ps := [.log, .out, .dict, .can, .host, .fab]) (s := s) (x := x) ?_ (fun hx => ?_); unfold x; rotate_left; clear_value x)
    | (lift_lets -underBinder; intro x)
    | (intro x; refine Only.gen (ps := [.log, .out, .dict, .can, .host, .fab]) (s := s) (x := x) ?_ (fun hx => ?_); unfold x; rotate_left; clear_value x)
    | with_reducible refine Only.foldl (fun _ _ _ => ?_) ?_
    | with_reducible refine Only.ite (fun _ => ?_) (fun _ => ?_)
    | ((with_reducible apply Only.step State.putDelta_only); rfl)
    | ((with_reducible apply Only.step State.logEvent_only); rfl)
    | ((with_reducible apply Only.step State.checkDeltas_only); rfl)
    | ((with_reducible apply Only.step State.loadRecord_only); rfl)
    | ((with_reducible apply Only.step State.loadImage_only); rfl)
    | with_reducible refine Only.with_dict ?_ rfl
    | split

theorem State.endStore_only {s : State} {ok : Bool} :
    Only [.draws, .log, .out, .dict, .flash, .can, .host] s (State.endStore s ok) := by
  unfold State.endStore
  try dsimp -zeta -proj only [State.set_dict]
  repeat' first
    | with_reducible assumption
    | with_reducible exact Only.refl _ _
    | (lift_lets -underBinder; intro x; refine Only.gen (ps := [.draws, .log, .out, .dict, .flash, .can, .host]) (s := s) (x := x) ?_ (fun hx => ?_); unfold x; rotate_left; clear_value x)
    | (intro x; refine Only.gen (ps := [.draws, .log, .out, .dict, .flash, .can, .host]) (s := s) (x := x) ?_ (fun hx => ?_); unfold x; rotate_left; clear_value x)
    | (intro x)
    | with_reducible refine Only.ite (fun _ => ?_) (fun _ => ?_)
    | ((with_reducible apply Only.step State.flashWrite_only); rfl)
    | ((with_reducible apply Only.step State.flashSpoil_only); rfl)
    | ((with_reducible apply Only.step State.logEvent_only); rfl)
    | with_reducible refine Only.with_dict ?_ rfl
    | split

end Sys2Proof.Machine
end

