-- ==== Sys2Proof/Laws/Only/Audit.lean ====
section
/-! SUPPORT. What each operation of Machine/Audit.lean may change. -/

namespace Sys2Proof.Machine

theorem State.drainPort_only {s : State} {p : Nat} :
    Only [.cred, .fab] s (State.drainPort s p) := by
  unfold State.drainPort
  repeat' first
    | with_reducible exact Only.refl _ _
    | ((with_reducible apply Only.step State.modPort_only); rfl)
    | ((with_reducible apply Only.step State.resetLink_only); rfl)
    | split

theorem State.triggerWarm_only {s : State} {retain : Bool} :
    Only [.boot, .log, .out, .can, .host, .cred, .sched, .grid, .fab] s (State.triggerWarm s retain) := by
  unfold State.triggerWarm
  try dsimp -zeta -proj only [State.set_boot]
  repeat' first
    | with_reducible assumption
    | with_reducible exact Only.refl _ _
    | (lift_lets -underBinder; intro x)
    | (intro x; refine Only.gen (ps := [.boot, .log, .out, .can, .host, .cred, .sched, .grid, .fab]) (s := s) (x := x) ?_ (fun hx => ?_); unfold x; rotate_left; clear_value x)
    | with_reducible refine Only.foldl (fun _ _ _ => ?_) ?_
    | with_reducible refine Only.ite (fun _ => ?_) (fun _ => ?_)
    | ((with_reducible apply Only.step State.discardDrain_only); rfl)
    | ((with_reducible apply Only.step State.drainPort_only); rfl)
    | with_reducible refine Only.with_boot ?_ rfl

theorem State.creditFault_only {s : State} {key : Nat} {p : Pool} :
    Only [.boot, .log, .out, .can, .host, .cred, .sched, .grid, .fab] s (State.creditFault s key p) := by
  unfold State.creditFault
  try dsimp -zeta -proj only [State.set_boot_cred , State.set_boot , State.set_cred]
  repeat' first
    | with_reducible assumption
    | with_reducible exact Only.refl _ _
    | (lift_lets -underBinder; intro x)
    | (intro x; refine Only.gen (ps := [.boot, .log, .out, .can, .host, .cred, .sched, .grid, .fab]) (s := s) (x := x) ?_ (fun hx => ?_); unfold x; rotate_left; clear_value x)
    | (intro x)
    | with_reducible refine Only.foldl (fun _ _ _ => ?_) ?_
    | ((with_reducible apply Only.step State.logEvent_only); rfl)
    | ((with_reducible apply Only.step State.failLive_only); rfl)
    | with_reducible refine Only.with_boot ?_ rfl
    | with_reducible refine Only.with_cred ?_ rfl

theorem State.audit_only {s : State} :
    Only [.boot, .log, .out, .can, .host, .cred, .sched, .grid, .fab] s (State.audit s) := by
  unfold State.audit
  try dsimp -zeta -proj only [State.set_cred]
  repeat' first
    | with_reducible assumption
    | with_reducible exact Only.refl _ _
    | (lift_lets -underBinder; intro x)
    | (intro x; refine Only.gen (ps := [.boot, .log, .out, .can, .host, .cred, .sched, .grid, .fab]) (s := s) (x := x) ?_ (fun hx => ?_); unfold x; rotate_left; clear_value x)
    | with_reducible refine Only.ite (fun _ => ?_) (fun _ => ?_)
    | ((with_reducible apply Only.step State.creditFault_only); rfl)
    | with_reducible refine Only.with_cred ?_ rfl
    | split

theorem execCreditAudit_only {s : State} :
    Via inOut [.boot, .log, .out, .can, .host, .cred, .sched, .grid, .fab] s (execCreditAudit s) := by
  unfold execCreditAudit
  repeat' first
    | with_reducible exact Only.refl _ _
    | ((with_reducible apply Only.step State.audit_only); rfl)
    | with_reducible refine Via.of rfl ?_

end Sys2Proof.Machine
end

