-- ==== Sys2Proof/Laws/Only/Dictionary.lean ====
section
/-! SUPPORT. What each operation of Machine/Dictionary.lean may change. -/

namespace Sys2Proof.Machine

theorem State.setCalendar_only {s : State} {sec : Nat} :
    Only [.clk, .log, .out, .can, .host] s (State.setCalendar s sec) := by
  unfold State.setCalendar
  try dsimp -zeta -proj only [State.set_clk]
  repeat' first
    | with_reducible exact Only.refl _ _
    | (lift_lets -underBinder; intro x)
    | ((with_reducible apply Only.step State.logEvent_only); rfl)
    | with_reducible refine Only.with_clk ?_ rfl

theorem State.calendarCommit_only {s : State} :
    Via inFst [.clk, .log, .out, .can, .host] s (State.calendarCommit s) := by
  unfold State.calendarCommit
  try dsimp -zeta -proj only [State.set_clk]
  repeat' first
    | with_reducible assumption
    | with_reducible exact Only.refl _ _
    | (lift_lets -underBinder; intro x)
    | (intro x; refine Only.gen (ps := [.clk, .log, .out, .can, .host]) (s := s) (x := x) ?_ (fun hx => ?_); unfold x; rotate_left; clear_value x)
    | with_reducible refine Via.ite (fun _ => ?_) (fun _ => ?_)
    | ((with_reducible apply Only.step State.setCalendar_only); rfl)
    | with_reducible refine Only.with_clk ?_ rfl
    | with_reducible refine Via.of rfl ?_

theorem State.sspGo_only {s : State} :
    Via inFst [.out, .ssp] s (State.sspGo s) := by
  unfold State.sspGo
  try dsimp -zeta -proj only [State.set_ssp]
  repeat' first
    | with_reducible assumption
    | with_reducible exact Only.refl _ _
    | (lift_lets -underBinder; intro x)
    | (intro x; refine Only.gen (ps := [.out, .ssp]) (s := s) (x := x) ?_ (fun hx => ?_); unfold x; rotate_left; clear_value x)
    | (intro x)
    | with_reducible refine Via.ite (fun _ => ?_) (fun _ => ?_)
    | ((with_reducible apply Only.step State.emit_only); rfl)
    | with_reducible refine Only.with_ssp ?_ rfl
    | with_reducible refine Via.of rfl ?_

theorem State.lockAll_only {s : State} :
    Only [.log, .out, .dict, .can, .host] s (State.lockAll s) := by
  unfold State.lockAll
  try dsimp -zeta -proj only [State.set_dict]
  repeat' first
    | with_reducible exact Only.refl _ _
    | (lift_lets -underBinder; intro x)
    | with_reducible refine Only.ite (fun _ => ?_) (fun _ => ?_)
    | ((with_reducible apply Only.step State.logEvent_only); rfl)
    | with_reducible refine Only.with_dict ?_ rfl

theorem State.keepOverlay_only {s : State} :
    Only [.dict] s (State.keepOverlay s) := by
  unfold State.keepOverlay
  try dsimp -zeta -proj only [State.set_dict]
  repeat' first
    | with_reducible exact Only.refl _ _
    | (lift_lets -underBinder; intro x)
    | with_reducible refine Only.with_dict ?_ rfl

theorem State.trayCountChanged_only {s : State} :
    Only [.cred, .fab] s (State.trayCountChanged s) := by
  unfold State.trayCountChanged
  repeat' first
    | with_reducible assumption
    | with_reducible exact Only.refl _ _
    | with_reducible refine Only.foldl (fun _ _ _ => ?_) ?_
    | with_reducible refine Only.ite (fun _ => ?_) (fun _ => ?_)
    | ((with_reducible apply Only.step State.startPorts_only); rfl)
    | ((with_reducible apply Only.step State.portEnable_only); rfl)

theorem State.react_only {s : State} {ix sub : Nat} :
    Only [.log, .out, .can, .host, .cred, .bw, .fab, .ftf] s (State.react s ix sub) := by
  unfold State.react
  try dsimp -zeta -proj only [State.set_can]
  repeat' first
    | with_reducible exact Only.refl _ _
    | (lift_lets -underBinder; intro x)
    | (intro x)
    | with_reducible refine Only.ite (fun _ => ?_) (fun _ => ?_)
    | ((with_reducible apply Only.step State.burrowEnable_only); rfl)
    | ((with_reducible apply Only.step State.portEnable_only); rfl)
    | ((with_reducible apply Only.step State.trayCountChanged_only); rfl)
    | ((with_reducible apply Only.step State.loadImage_only); rfl)
    | ((with_reducible apply Only.step State.channelEnable_only); rfl)
    | ((with_reducible apply Only.step State.clearLastGood_only); rfl)
    | ((with_reducible apply Only.step State.rescale_only); rfl)
    | ((with_reducible apply Only.step State.shed_only); rfl)
    | with_reducible refine Only.with_can ?_ rfl

theorem State.baseWrite_only {s : State} {ix sub : Nat} {v : List Sys2Proof.Byte} :
    Only [.log, .out, .dict, .can, .host, .cred, .bw, .fab, .ftf] s (State.baseWrite s ix sub v) := by
  unfold State.baseWrite
  try dsimp -zeta -proj only [State.set_dict]
  repeat' first
    | with_reducible assumption
    | with_reducible exact Only.refl _ _
    | (lift_lets -underBinder; intro x)
    | (intro x; refine Only.gen (ps := [.log, .out, .dict, .can, .host, .cred, .bw, .fab, .ftf]) (s := s) (x := x) ?_ (fun hx => ?_); unfold x; rotate_left; clear_value x)
    | (intro x)
    | with_reducible refine Only.ite (fun _ => ?_) (fun _ => ?_)
    | ((with_reducible apply Only.step State.putBase_only); rfl)
    | ((with_reducible apply Only.step State.react_only); rfl)
    | with_reducible refine Only.with_dict ?_ rfl

theorem State.reapply_only {s : State} :
    Only [.dict] s (State.reapply s) := by
  unfold State.reapply
  try dsimp -zeta -proj only [State.set_dict]
  repeat' first
    | with_reducible exact Only.refl _ _
    | (lift_lets -underBinder; intro x)
    | with_reducible refine Only.with_dict ?_ rfl

theorem State.restoreDefaults_only {s : State} :
    Only [.log, .out, .dict, .can, .host, .cred, .bw, .fab, .ftf] s (State.restoreDefaults s) := by
  unfold State.restoreDefaults
  repeat' first
    | with_reducible assumption
    | with_reducible exact Only.refl _ _
    | (lift_lets -underBinder; intro x)
    | (intro x; refine Only.gen (ps := [.log, .out, .dict, .can, .host, .cred, .bw, .fab, .ftf]) (s := s) (x := x) ?_ (fun hx => ?_); unfold x; rotate_left; clear_value x)
    | (intro x)
    | with_reducible refine Only.foldl (fun _ _ _ => ?_) ?_
    | with_reducible refine Only.ite (fun _ => ?_) (fun _ => ?_)
    | ((with_reducible apply Only.step State.keepOverlay_only); rfl)
    | ((with_reducible apply Only.step State.baseWrite_only); rfl)
    | ((with_reducible apply Only.step State.reapply_only); rfl)

theorem State.clearOverlay_only {s : State} {m : Nat} :
    Only [.dict] s (State.clearOverlay s m) := by
  unfold State.clearOverlay
  repeat' first
    | with_reducible assumption
    | with_reducible exact Only.refl _ _
    | (lift_lets -underBinder; intro x)
    | (intro x; refine Only.gen (ps := [.dict]) (s := s) (x := x) ?_ (fun hx => ?_); unfold x; rotate_left; clear_value x)
    | with_reducible refine Only.foldl (fun _ _ _ => ?_) ?_
    | with_reducible refine Only.ite (fun _ => ?_) (fun _ => ?_)
    | ((with_reducible apply Only.step State.keepOverlay_only); rfl)
    | ((with_reducible apply Only.step State.putBase_only); rfl)
    | ((with_reducible apply Only.step State.reapply_only); rfl)

theorem State.tried_only {ps : List Part} {s0 s : State} {r : Except Nat State} (h : Only ps s0 s) (k : Via inExc ps s0 r) :
    Via inFst ps s0 (s.tried r) := by
  cases r with
  | ok u => exact Via.of rfl (k.only u rfl)
  | error c => exact Via.of rfl h

theorem State.tileReset_only {s : State} {t : Nat} :
    Only [.grid] s (State.tileReset s t) := by
  unfold State.tileReset
  repeat' first
    | exact fun _ h => tile_wf h _
    | with_reducible exact Only.refl _ _
    | (lift_lets -underBinder; intro x)
    | with_reducible refine Only.setTile ?_ rfl ?_

theorem State.clearLog_only {s : State} :
    Only [.log] s (State.clearLog s) := by
  unfold State.clearLog
  try dsimp -zeta -proj only [State.set_log]
  repeat' first
    | exact fun _ _ e he => absurd he List.not_mem_nil
    | with_reducible exact Only.refl _ _
    | (lift_lets -underBinder; intro x)
    | with_reducible refine Only.with_log ?_ rfl ?_

theorem State.runCommand_only {s : State} {ix sub v : Nat} :
    Via inFst [.draws, .clk, .boot, .log, .out, .dict, .flash, .can, .ssp, .host, .cred, .mem, .seg, .bw, .diag, .sched, .grid, .fab, .ftf] s (State.runCommand s ix sub v) := by
  unfold State.runCommand
  have k1 : ∀ m, Only [.draws, .clk, .boot, .log, .out, .dict, .flash, .can, .ssp, .host, .cred, .mem, .seg, .bw, .diag, .sched, .grid, .fab, .ftf] s (s.clearOverlay m) := fun m => Only.step State.clearOverlay_only rfl (Only.refl _ _)
  have k2 : ∀ m b, Via inExc [.draws, .clk, .boot, .log, .out, .dict, .flash, .can, .ssp, .host, .cred, .mem, .seg, .bw, .diag, .sched, .grid, .fab, .ftf] s (s.triggerShot m b) := fun m b => Via.step State.triggerShot_only rfl (Only.refl _ _)
  have k3 : ∀ m n, Via inExc [.draws, .clk, .boot, .log, .out, .dict, .flash, .can, .ssp, .host, .cred, .mem, .seg, .bw, .diag, .sched, .grid, .fab, .ftf] s (s.zeroCalibrate m n) := fun m n => Via.step State.zeroCalibrate_only rfl (Only.refl _ _)
  have k4 : ∀ t, Via inExc [.draws, .clk, .boot, .log, .out, .dict, .flash, .can, .ssp, .host, .cred, .mem, .seg, .bw, .diag, .sched, .grid, .fab, .ftf] s (s.trigger t) := fun t => Via.step State.trigger_only rfl (Only.refl _ _)
  have k5 : ∀ m, Only [.draws, .clk, .boot, .log, .out, .dict, .flash, .can, .ssp, .host, .cred, .mem, .seg, .bw, .diag, .sched, .grid, .fab, .ftf] s (s.stopGenerator m).settleFrames := fun m =>
    Only.step State.settleFrames_only rfl (Only.step State.stopGenerator_only rfl (Only.refl _ _))
  have k6 : ∀ m n, Only [.draws, .clk, .boot, .log, .out, .dict, .flash, .can, .ssp, .host, .cred, .mem, .seg, .bw, .diag, .sched, .grid, .fab, .ftf] s (s.repairCommand m n).2 := fun m n => Only.step (Via.get State.repairCommand_only rfl) rfl (Only.refl _ _)
  refine Via.ite (fun _ => Via.step State.calendarCommit_only rfl (Only.refl _ _)) fun _ => ?_
  refine Via.ite (fun _ => Via.step State.sspGo_only rfl (Only.refl _ _)) fun _ => ?_
  refine Via.ite (fun _ => Via.of rfl (Only.step State.lockAll_only rfl (Only.refl _ _))) fun _ => ?_
  refine Via.ite (fun _ => Via.of rfl (Only.ite (fun _ => Only.step State.requestStore_only rfl (Only.refl _ _))
    fun _ => Only.step State.restoreDefaults_only rfl (Only.refl _ _))) fun _ => ?_
  refine Via.ite (fun _ => ?_) fun _ => ?_
  · generalize ix - 12288 = m
    exact Via.of rfl (k1 m)
  refine Via.ite (fun _ => Via.of rfl (Only.step State.segmentAudit_only rfl (Only.step State.retirePc_only rfl (Only.refl _ _)))) fun _ => ?_
  refine Via.ite (fun _ => Via.ite (fun _ => State.tried_only (Only.refl _ _) (k2 _ _))
    fun _ => State.tried_only (Only.refl _ _) (k3 _ _)) fun _ => ?_
  refine Via.ite (fun _ => State.tried_only (Only.refl _ _) (k4 _)) fun _ => ?_
  refine Via.ite (fun _ => Via.of rfl (Only.ite (fun _ => Only.step State.triggerWarm_only rfl (Only.refl _ _)) fun _ =>
    Only.ite (fun _ => Only.step State.tileReset_only rfl (Only.refl _ _)) fun _ => Only.step State.audit_only rfl (Only.refl _ _))) fun _ => ?_
  refine Via.ite (fun _ => Via.ite (fun _ => ?_) fun _ => Via.of rfl (k5 _)) fun _ => ?_
  · split
    · rename_i h
      exact Via.of rfl (Only.step State.settleFrames_only rfl (Only.step (Via.caseOpt State.startGenerator_only h) rfl (Only.refl _ _)))
    · exact Via.of rfl (Only.refl _ _)
  refine Via.ite (fun _ => ?_) fun _ => Via.of rfl (Only.step State.clearLog_only rfl (Only.refl _ _))
  exact Via.of rfl (k6 _ _)

theorem State.requestMode_only {s : State} {m : Nat} :
    Only [.dict] s (State.requestMode s m) := by
  unfold State.requestMode
  try dsimp -zeta -proj only [State.set_dict]
  repeat' first
    | with_reducible exact Only.refl _ _
    | (lift_lets -underBinder; intro x)
    | (intro x)
    | with_reducible refine Only.ite (fun _ => ?_) (fun _ => ?_)
    | with_reducible refine Only.with_dict ?_ rfl

theorem State.writeRequest_only {s : State} {ix sub : Nat} {data : List Sys2Proof.Byte} :
    Via inFst [.clk, .log, .out, .dict, .can, .host] s (State.writeRequest s ix sub data) := by
  unfold State.writeRequest
  try dsimp -zeta -proj only [State.set_clk , State.set_dict]
  repeat' first
    | with_reducible exact Only.refl _ _
    | (lift_lets -underBinder; intro x)
    | with_reducible refine Via.ite (fun _ => ?_) (fun _ => ?_)
    | ((with_reducible apply Only.step State.setCalendar_only); rfl)
    | ((with_reducible apply Only.step State.requestMode_only); rfl)
    | with_reducible refine Only.with_clk ?_ rfl
    | with_reducible refine Only.with_dict ?_ rfl
    | split
    | with_reducible refine Via.of rfl ?_

theorem State.writeBase_only {s : State} {ix sub : Nat} {o : Obj} {data : List Sys2Proof.Byte} :
    Via inFst [.log, .out, .dict, .can, .host, .cred, .bw, .fab, .ftf] s (State.writeBase s ix sub o data) := by
  unfold State.writeBase
  repeat' first
    | with_reducible exact Only.refl _ _
    | (lift_lets -underBinder; intro x)
    | with_reducible refine Via.ite (fun _ => ?_) (fun _ => ?_)
    | ((with_reducible apply Only.step State.baseWrite_only); rfl)
    | ((with_reducible apply Only.step State.reapply_only); rfl)
    | ((with_reducible apply Only.step State.putBase_only); rfl)
    | ((with_reducible apply Only.step State.keepOverlay_only); rfl)
    | split
    | with_reducible refine Via.of rfl ?_

theorem State.writeAccepted_only {s : State} {ix sub : Nat} {o : Obj} {data : List Sys2Proof.Byte} :
    Via inFst [.draws, .clk, .boot, .log, .out, .dict, .flash, .can, .ssp, .host, .cred, .mem, .seg, .bw, .diag, .sched, .grid, .fab, .ftf] s (State.writeAccepted s ix sub o data) := by
  unfold State.writeAccepted
  repeat' first
    | with_reducible exact Only.refl _ _
    | with_reducible refine Via.ite (fun _ => ?_) (fun _ => ?_)
    | ((with_reducible apply Via.step State.runCommand_only); rfl)
    | ((with_reducible apply Via.step State.writeRequest_only); rfl)
    | ((with_reducible apply Via.step State.writeBase_only); rfl)
    | ((with_reducible apply Only.step State.fuseRepair_only); rfl)
    | with_reducible refine Via.of rfl ?_

theorem State.writeObject_only {s : State} {via : Sys2Proof.Transport} {ix sub : Nat} {data : List Sys2Proof.Byte} :
    Via inFst [.draws, .clk, .boot, .log, .out, .dict, .flash, .can, .ssp, .host, .cred, .mem, .seg, .bw, .diag, .sched, .grid, .fab, .ftf] s (State.writeObject s via ix sub data) := by
  unfold State.writeObject
  repeat' first
    | with_reducible exact Only.refl _ _
    | with_reducible refine Via.ite (fun _ => ?_) (fun _ => ?_)
    | ((with_reducible apply Only.step State.logEvent_only); rfl)
    | ((with_reducible apply Via.step State.writeAccepted_only); rfl)
    | split
    | with_reducible refine Via.of rfl ?_

theorem State.dictWrite_only {s : State} {via : Sys2Proof.Transport} {ix sub : Nat} {data : List Sys2Proof.Byte} :
    Only [.draws, .clk, .boot, .log, .out, .dict, .flash, .can, .ssp, .host, .cred, .mem, .seg, .bw, .diag, .sched, .grid, .fab, .ftf] s (State.dictWrite s via ix sub data) := by
  unfold State.dictWrite
  try dsimp -zeta -proj only [State.set_dict]
  repeat' first
    | with_reducible exact Only.refl _ _
    | (lift_lets -underBinder; intro x)
    | with_reducible refine Only.ite (fun _ => ?_) (fun _ => ?_)
    | ((with_reducible apply Only.step (Via.get State.writeObject_only rfl)); rfl)
    | with_reducible refine Only.with_dict ?_ rfl

theorem State.afterTransition_only {s : State} :
    Only [.log, .out, .dict, .can, .host, .cred, .bw, .fab, .ftf] s (State.afterTransition s) := by
  unfold State.afterTransition
  try dsimp -zeta -proj only [State.set_dict]
  repeat' first
    | with_reducible assumption
    | with_reducible exact Only.refl _ _
    | (lift_lets -underBinder; intro x)
    | (intro x; refine Only.gen (ps := [.log, .out, .dict, .can, .host, .cred, .bw, .fab, .ftf]) (s := s) (x := x) ?_ (fun hx => ?_); unfold x; rotate_left; clear_value x)
    | (intro x)
    | with_reducible refine Only.foldl (fun _ _ _ => ?_) ?_
    | with_reducible refine Only.ite (fun _ => ?_) (fun _ => ?_)
    | ((with_reducible apply Only.step State.react_only); rfl)
    | with_reducible refine Only.with_dict ?_ rfl

theorem State.refuseTransition_only {s : State} {k : Nat} :
    Only [.log, .out, .dict, .can, .host, .cred, .bw, .fab, .ftf] s (State.refuseTransition s k) := by
  unfold State.refuseTransition
  try dsimp -zeta -proj only [State.set_dict]
  repeat' first
    | with_reducible assumption
    | with_reducible exact Only.refl _ _
    | (lift_lets -underBinder; intro x; refine Only.gen (ps := [.log, .out, .dict, .can, .host, .cred, .bw, .fab, .ftf]) (s := s) (x := x) ?_ (fun hx => ?_); unfold x; rotate_left)
    | (lift_lets -underBinder; intro x)
    | (intro x; refine Only.gen (ps := [.log, .out, .dict, .can, .host, .cred, .bw, .fab, .ftf]) (s := s) (x := x) ?_ (fun hx => ?_); unfold x; rotate_left)
    | (intro x)
    | ((with_reducible apply Only.step State.logEvent_only); rfl)
    | ((with_reducible apply Only.step State.afterTransition_only); rfl)
    | ((with_reducible apply Only.step State.reapply_only); rfl)
    | with_reducible refine Only.with_dict ?_ rfl
    | refine Only.ite (fun _ => ?_) (fun _ => ?_)

theorem State.applyTransition_only {s : State} {changed : List Nat} :
    Only [.log, .out, .dict, .can, .host, .cred, .bw, .fab, .ftf] s (State.applyTransition s changed) := by
  unfold State.applyTransition
  try dsimp -zeta -proj only [State.set_dict]
  repeat' first
    | with_reducible assumption
    | with_reducible exact Only.refl _ _
    | (lift_lets -underBinder; intro x)
    | (intro x; refine Only.gen (ps := [.log, .out, .dict, .can, .host, .cred, .bw, .fab, .ftf]) (s := s) (x := x) ?_ (fun hx => ?_); unfold x; rotate_left; clear_value x)
    | (intro x)
    | with_reducible refine Only.foldl (fun _ _ _ => ?_) ?_
    | ((with_reducible apply Only.step State.react_only); rfl)
    | ((with_reducible apply Only.step State.afterTransition_only); rfl)
    | ((with_reducible apply Only.step State.logEvent_only); rfl)
    | with_reducible refine Only.with_dict ?_ rfl

theorem State.quietPoint_only {s : State} :
    Only [.log, .out, .dict, .can, .host, .cred, .bw, .fab, .ftf] s (State.quietPoint s) := by
  unfold State.quietPoint
  repeat' first
    | with_reducible exact Only.refl _ _
    | (lift_lets -underBinder; intro x)
    | (intro x)
    | with_reducible refine Only.ite (fun _ => ?_) (fun _ => ?_)
    | ((with_reducible apply Only.step State.refuseTransition_only); rfl)
    | ((with_reducible apply Only.step State.applyTransition_only); rfl)
    | split

end Sys2Proof.Machine
end

