-- ==== Sys2Proof/Laws/Only/Writes.lean ====
section
/-! SUPPORT. What each operation of Machine/Writes.lean may change. -/

namespace Sys2Proof.Machine

theorem execReadSpareResources_only {via : Sys2Proof.Transport} {st : Fin 8} {s : State} :
    Via inOut [.draws, .clk, .boot, .log, .out, .dict, .flash, .can, .ssp, .host, .cred, .mem, .seg, .bw, .diag, .sched, .grid, .fab, .ftf] s (execReadSpareResources via st s) := by
  unfold execReadSpareResources
  repeat' first
    | with_reducible exact Only.refl _ _
    | ((with_reducible apply Only.step State.dictWrite_only); rfl)
    | with_reducible refine Via.of rfl ?_

theorem execSspGo_only {via : Sys2Proof.Transport} {s : State} :
    Via inOut [.draws, .clk, .boot, .log, .out, .dict, .flash, .can, .ssp, .host, .cred, .mem, .seg, .bw, .diag, .sched, .grid, .fab, .ftf] s (execSspGo via s) := by
  unfold execSspGo
  repeat' first
    | with_reducible exact Only.refl _ _
    | ((with_reducible apply Only.step State.dictWrite_only); rfl)
    | with_reducible refine Via.of rfl ?_

theorem execGeneratorStart_only {via : Sys2Proof.Transport} {st : Fin 8} {s : State} :
    Via inOut [.draws, .clk, .boot, .log, .out, .dict, .flash, .can, .ssp, .host, .cred, .mem, .seg, .bw, .diag, .sched, .grid, .fab, .ftf] s (execGeneratorStart via st s) := by
  unfold execGeneratorStart
  repeat' first
    | with_reducible exact Only.refl _ _
    | ((with_reducible apply Only.step State.dictWrite_only); rfl)
    | with_reducible refine Via.of rfl ?_

theorem execDictionaryWrite_only {via : Sys2Proof.Transport} {index subindex : Nat} {data : List Sys2Proof.Byte} {s : State} :
    Via inOut [.draws, .clk, .boot, .log, .out, .dict, .flash, .can, .ssp, .host, .cred, .mem, .seg, .bw, .diag, .sched, .grid, .fab, .ftf] s (execDictionaryWrite via index subindex data s) := by
  unfold execDictionaryWrite
  repeat' first
    | with_reducible exact Only.refl _ _
    | ((with_reducible apply Only.step State.dictWrite_only); rfl)
    | with_reducible refine Via.of rfl ?_

theorem execHardRepairWrite_only {via : Sys2Proof.Transport} {st : Fin 8} {slot : Fin 32} {value : Nat} {s : State} :
    Via inOut [.draws, .clk, .boot, .log, .out, .dict, .flash, .can, .ssp, .host, .cred, .mem, .seg, .bw, .diag, .sched, .grid, .fab, .ftf] s (execHardRepairWrite via st slot value s) := by
  unfold execHardRepairWrite
  repeat' first
    | with_reducible exact Only.refl _ _
    | ((with_reducible apply Only.step State.dictWrite_only); rfl)
    | with_reducible refine Via.of rfl ?_

theorem execCalendarCommit_only {via : Sys2Proof.Transport} {value : Nat} {s : State} :
    Via inOut [.draws, .clk, .boot, .log, .out, .dict, .flash, .can, .ssp, .host, .cred, .mem, .seg, .bw, .diag, .sched, .grid, .fab, .ftf] s (execCalendarCommit via value s) := by
  unfold execCalendarCommit
  repeat' first
    | with_reducible exact Only.refl _ _
    | ((with_reducible apply Only.step State.dictWrite_only); rfl)
    | with_reducible refine Via.of rfl ?_

theorem execSoftRepair_only {via : Sys2Proof.Transport} {st : Fin 8} {s : State} :
    Via inOut [.draws, .clk, .boot, .log, .out, .dict, .flash, .can, .ssp, .host, .cred, .mem, .seg, .bw, .diag, .sched, .grid, .fab, .ftf] s (execSoftRepair via st s) := by
  unfold execSoftRepair
  repeat' first
    | with_reducible exact Only.refl _ _
    | ((with_reducible apply Only.step State.dictWrite_only); rfl)
    | with_reducible refine Via.of rfl ?_

theorem execTileResetExecute_only {t : Fin 256} {s : State} :
    Via inOut [.log, .out, .can, .host, .cred, .grid] s (execTileResetExecute t s) := by
  unfold execTileResetExecute
  repeat' first
    | exact fun _ h => tile_wf h _
    | with_reducible assumption
    | with_reducible exact Only.refl _ _
    | (lift_lets -underBinder; intro x)
    | (intro x; refine Only.gen (ps := [.log, .out, .can, .host, .cred, .grid]) (s := s) (x := x) ?_ (fun hx => ?_); unfold x; rotate_left; clear_value x)
    | (intro x)
    | with_reducible refine Only.ite (fun _ => ?_) (fun _ => ?_)
    | with_reducible refine Only.setTile ?_ rfl ?_
    | ((with_reducible apply Only.step State.endInvocation_only); rfl)
    | ((with_reducible apply Only.step State.logEvent_only); rfl)
    | split
    | with_reducible refine Via.of rfl ?_

theorem execTileReset_only {via : Sys2Proof.Transport} {value : Nat} {s : State} :
    Via inOut [.draws, .clk, .boot, .log, .out, .dict, .flash, .can, .ssp, .host, .cred, .mem, .seg, .bw, .diag, .sched, .grid, .fab, .ftf] s (execTileReset via value s) := by
  unfold execTileReset
  repeat' first
    | with_reducible exact Only.refl _ _
    | ((with_reducible apply Only.step State.dictWrite_only); rfl)
    | with_reducible refine Via.of rfl ?_

theorem execWarmResetNoRetain_only {via : Sys2Proof.Transport} {s : State} :
    Via inOut [.draws, .clk, .boot, .log, .out, .dict, .flash, .can, .ssp, .host, .cred, .mem, .seg, .bw, .diag, .sched, .grid, .fab, .ftf] s (execWarmResetNoRetain via s) := by
  unfold execWarmResetNoRetain
  repeat' first
    | with_reducible exact Only.refl _ _
    | ((with_reducible apply Only.step State.dictWrite_only); rfl)
    | with_reducible refine Via.of rfl ?_

theorem execFlowChannelEnable_only {via : Sys2Proof.Transport} {c : Fin 2} {enable : Bool} {s : State} :
    Via inOut [.draws, .clk, .boot, .log, .out, .dict, .flash, .can, .ssp, .host, .cred, .mem, .seg, .bw, .diag, .sched, .grid, .fab, .ftf] s (execFlowChannelEnable via c enable s) := by
  unfold execFlowChannelEnable
  repeat' first
    | with_reducible exact Only.refl _ _
    | ((with_reducible apply Only.step State.dictWrite_only); rfl)
    | with_reducible refine Via.of rfl ?_

theorem execCalendarTimeWrite_only {via : Sys2Proof.Transport} {value : Nat} {s : State} :
    Via inOut [.draws, .clk, .boot, .log, .out, .dict, .flash, .can, .ssp, .host, .cred, .mem, .seg, .bw, .diag, .sched, .grid, .fab, .ftf] s (execCalendarTimeWrite via value s) := by
  unfold execCalendarTimeWrite
  repeat' first
    | with_reducible exact Only.refl _ _
    | ((with_reducible apply Only.step State.dictWrite_only); rfl)
    | with_reducible refine Via.of rfl ?_

theorem execShotDown_only {via : Sys2Proof.Transport} {c : Fin 2} {s : State} :
    Via inOut [.draws, .clk, .boot, .log, .out, .dict, .flash, .can, .ssp, .host, .cred, .mem, .seg, .bw, .diag, .sched, .grid, .fab, .ftf] s (execShotDown via c s) := by
  unfold execShotDown
  repeat' first
    | with_reducible exact Only.refl _ _
    | ((with_reducible apply Only.step State.dictWrite_only); rfl)
    | with_reducible refine Via.of rfl ?_

theorem execCalendarSecond_only {s : State} :
    Via inOut [.clk] s (execCalendarSecond s) := by
  unfold execCalendarSecond
  try dsimp -zeta -proj only [State.set_clk]
  repeat' first
    | with_reducible exact Only.refl _ _
    | (lift_lets -underBinder; intro x)
    | with_reducible refine Only.with_clk ?_ rfl
    | split
    | with_reducible refine Via.of rfl ?_

theorem execStoreBase_only {via : Sys2Proof.Transport} {ended : Option Bool} {s : State} :
    Via inOut [.draws, .clk, .boot, .log, .out, .dict, .flash, .can, .ssp, .host, .cred, .mem, .seg, .bw, .diag, .sched, .grid, .fab, .ftf] s (execStoreBase via ended s) := by
  unfold execStoreBase
  repeat' first
    | with_reducible assumption
    | with_reducible exact Only.refl _ _
    | (lift_lets -underBinder; intro x; refine Only.gen (ps := [.draws, .clk, .boot, .log, .out, .dict, .flash, .can, .ssp, .host, .cred, .mem, .seg, .bw, .diag, .sched, .grid, .fab, .ftf]) (s := s) (x := x) ?_ (fun hx => ?_); unfold x; rotate_left; clear_value x)
    | ((with_reducible apply Only.step State.dictWrite_only); rfl)
    | ((with_reducible apply Only.step State.endStore_only); rfl)
    | split
    | with_reducible refine Via.of rfl ?_

theorem execTableImageWrite_only {via : Sys2Proof.Transport} {p : Fin 10} {slot : Fin 32} {image : List Sys2Proof.Byte} {s : State} :
    Via inOut [.draws, .clk, .boot, .log, .out, .dict, .flash, .can, .ssp, .host, .cred, .mem, .seg, .bw, .diag, .sched, .grid, .fab, .ftf] s (execTableImageWrite via p slot image s) := by
  unfold execTableImageWrite
  repeat' first
    | with_reducible exact Only.refl _ _
    | ((with_reducible apply Only.step State.dictWrite_only); rfl)
    | with_reducible refine Via.of rfl ?_

theorem execGeneratorStop_only {via : Sys2Proof.Transport} {st : Fin 8} {s : State} :
    Via inOut [.draws, .clk, .boot, .log, .out, .dict, .flash, .can, .ssp, .host, .cred, .mem, .seg, .bw, .diag, .sched, .grid, .fab, .ftf] s (execGeneratorStop via st s) := by
  unfold execGeneratorStop
  repeat' first
    | with_reducible exact Only.refl _ _
    | ((with_reducible apply Only.step State.dictWrite_only); rfl)
    | with_reducible refine Via.of rfl ?_

theorem execLockAll_only {via : Sys2Proof.Transport} {s : State} :
    Via inOut [.draws, .clk, .boot, .log, .out, .dict, .flash, .can, .ssp, .host, .cred, .mem, .seg, .bw, .diag, .sched, .grid, .fab, .ftf] s (execLockAll via s) := by
  unfold execLockAll
  repeat' first
    | with_reducible exact Only.refl _ _
    | ((with_reducible apply Only.step State.dictWrite_only); rfl)
    | with_reducible refine Via.of rfl ?_

theorem execRestoreDefaults_only {via : Sys2Proof.Transport} {s : State} :
    Via inOut [.draws, .clk, .boot, .log, .out, .dict, .flash, .can, .ssp, .host, .cred, .mem, .seg, .bw, .diag, .sched, .grid, .fab, .ftf] s (execRestoreDefaults via s) := by
  unfold execRestoreDefaults
  repeat' first
    | with_reducible exact Only.refl _ _
    | ((with_reducible apply Only.step State.dictWrite_only); rfl)
    | with_reducible refine Via.of rfl ?_

theorem execRtdConvert_only {via : Sys2Proof.Transport} {r : Fin 2} {s : State} :
    Via inOut [.draws, .clk, .boot, .log, .out, .dict, .flash, .can, .ssp, .host, .cred, .mem, .seg, .bw, .diag, .sched, .grid, .fab, .ftf] s (execRtdConvert via r s) := by
  unfold execRtdConvert
  repeat' first
    | with_reducible exact Only.refl _ _
    | ((with_reducible apply Only.step State.dictWrite_only); rfl)
    | with_reducible refine Via.of rfl ?_

theorem execSspFrameDone_only {data : List Sys2Proof.Byte} {s : State} :
    Via inOut [.ssp] s (execSspFrameDone data s) := by
  unfold execSspFrameDone
  try dsimp -zeta -proj only [State.set_ssp]
  repeat' first
    | with_reducible exact Only.refl _ _
    | (lift_lets -underBinder; intro x)
    | (intro x)
    | with_reducible refine Only.with_ssp ?_ rfl
    | split
    | with_reducible refine Via.of rfl ?_

theorem execPendingStoreStart_only {ended : Option Bool} {s : State} :
    Via inOut [.draws, .log, .out, .dict, .flash, .can, .host] s (execPendingStoreStart ended s) := by
  unfold execPendingStoreStart
  repeat' first
    | with_reducible assumption
    | with_reducible exact Only.refl _ _
    | (lift_lets -underBinder; intro x; refine Only.gen (ps := [.draws, .log, .out, .dict, .flash, .can, .host]) (s := s) (x := x) ?_ (fun hx => ?_); unfold x; rotate_left; clear_value x)
    | ((with_reducible apply Only.step State.endStore_only); rfl)
    | ((with_reducible apply Only.step State.startStore_only); rfl)
    | split
    | with_reducible refine Via.of rfl ?_

theorem execClearLog_only {via : Sys2Proof.Transport} {s : State} :
    Via inOut [.draws, .clk, .boot, .log, .out, .dict, .flash, .can, .ssp, .host, .cred, .mem, .seg, .bw, .diag, .sched, .grid, .fab, .ftf] s (execClearLog via s) := by
  unfold execClearLog
  repeat' first
    | with_reducible exact Only.refl _ _
    | ((with_reducible apply Only.step State.dictWrite_only); rfl)
    | with_reducible refine Via.of rfl ?_

theorem execPortEnable_only {via : Sys2Proof.Transport} {p : Fin 10} {enable : Bool} {s : State} :
    Via inOut [.draws, .clk, .boot, .log, .out, .dict, .flash, .can, .ssp, .host, .cred, .mem, .seg, .bw, .diag, .sched, .grid, .fab, .ftf] s (execPortEnable via p enable s) := by
  unfold execPortEnable
  repeat' first
    | with_reducible exact Only.refl _ _
    | ((with_reducible apply Only.step State.dictWrite_only); rfl)
    | with_reducible refine Via.of rfl ?_

theorem execBurrowEnable_only {via : Sys2Proof.Transport} {b : Fin 64} {enable : Bool} {s : State} :
    Via inOut [.draws, .clk, .boot, .log, .out, .dict, .flash, .can, .ssp, .host, .cred, .mem, .seg, .bw, .diag, .sched, .grid, .fab, .ftf] s (execBurrowEnable via b enable s) := by
  unfold execBurrowEnable
  repeat' first
    | with_reducible exact Only.refl _ _
    | ((with_reducible apply Only.step State.dictWrite_only); rfl)
    | with_reducible refine Via.of rfl ?_

theorem execAuditNow_only {via : Sys2Proof.Transport} {s : State} :
    Via inOut [.draws, .clk, .boot, .log, .out, .dict, .flash, .can, .ssp, .host, .cred, .mem, .seg, .bw, .diag, .sched, .grid, .fab, .ftf] s (execAuditNow via s) := by
  unfold execAuditNow
  repeat' first
    | with_reducible exact Only.refl _ _
    | ((with_reducible apply Only.step State.dictWrite_only); rfl)
    | with_reducible refine Via.of rfl ?_

theorem execClearSoftRepairs_only {via : Sys2Proof.Transport} {st : Fin 8} {s : State} :
    Via inOut [.draws, .clk, .boot, .log, .out, .dict, .flash, .can, .ssp, .host, .cred, .mem, .seg, .bw, .diag, .sched, .grid, .fab, .ftf] s (execClearSoftRepairs via st s) := by
  unfold execClearSoftRepairs
  repeat' first
    | with_reducible exact Only.refl _ _
    | ((with_reducible apply Only.step State.dictWrite_only); rfl)
    | with_reducible refine Via.of rfl ?_

theorem execWarmResetRetain_only {via : Sys2Proof.Transport} {s : State} :
    Via inOut [.draws, .clk, .boot, .log, .out, .dict, .flash, .can, .ssp, .host, .cred, .mem, .seg, .bw, .diag, .sched, .grid, .fab, .ftf] s (execWarmResetRetain via s) := by
  unfold execWarmResetRetain
  repeat' first
    | with_reducible exact Only.refl _ _
    | ((with_reducible apply Only.step State.dictWrite_only); rfl)
    | with_reducible refine Via.of rfl ?_

theorem execShotUp_only {via : Sys2Proof.Transport} {c : Fin 2} {s : State} :
    Via inOut [.draws, .clk, .boot, .log, .out, .dict, .flash, .can, .ssp, .host, .cred, .mem, .seg, .bw, .diag, .sched, .grid, .fab, .ftf] s (execShotUp via c s) := by
  unfold execShotUp
  repeat' first
    | with_reducible exact Only.refl _ _
    | ((with_reducible apply Only.step State.dictWrite_only); rfl)
    | with_reducible refine Via.of rfl ?_

theorem execClearOverlay_only {via : Sys2Proof.Transport} {mode : Fin 5} {s : State} :
    Via inOut [.draws, .clk, .boot, .log, .out, .dict, .flash, .can, .ssp, .host, .cred, .mem, .seg, .bw, .diag, .sched, .grid, .fab, .ftf] s (execClearOverlay via mode s) := by
  unfold execClearOverlay
  repeat' first
    | with_reducible exact Only.refl _ _
    | ((with_reducible apply Only.step State.dictWrite_only); rfl)
    | with_reducible refine Via.of rfl ?_

theorem execQuietPoint_only {s : State} :
    Via inOut [.log, .out, .dict, .can, .host, .cred, .bw, .fab, .ftf] s (execQuietPoint s) := by
  unfold execQuietPoint
  repeat' first
    | with_reducible exact Only.refl _ _
    | ((with_reducible apply Only.step State.quietPoint_only); rfl)
    | with_reducible refine Via.of rfl ?_

theorem execDeltaEnable_only {via : Sys2Proof.Transport} {mode : Fin 5} {delta : Fin 256} {enable : Bool} {s : State} :
    Via inOut [.draws, .clk, .boot, .log, .out, .dict, .flash, .can, .ssp, .host, .cred, .mem, .seg, .bw, .diag, .sched, .grid, .fab, .ftf] s (execDeltaEnable via mode delta enable s) := by
  unfold execDeltaEnable
  repeat' first
    | with_reducible exact Only.refl _ _
    | ((with_reducible apply Only.step State.dictWrite_only); rfl)
    | with_reducible refine Via.of rfl ?_

theorem execModeRequest_only {via : Sys2Proof.Transport} {mode : Nat} {s : State} :
    Via inOut [.draws, .clk, .boot, .log, .out, .dict, .flash, .can, .ssp, .host, .cred, .mem, .seg, .bw, .diag, .sched, .grid, .fab, .ftf] s (execModeRequest via mode s) := by
  unfold execModeRequest
  repeat' first
    | with_reducible exact Only.refl _ _
    | ((with_reducible apply Only.step State.dictWrite_only); rfl)
    | with_reducible refine Via.of rfl ?_

theorem execZeroCalibrate_only {via : Sys2Proof.Transport} {c : Fin 2} {n : Nat} {s : State} :
    Via inOut [.draws, .clk, .boot, .log, .out, .dict, .flash, .can, .ssp, .host, .cred, .mem, .seg, .bw, .diag, .sched, .grid, .fab, .ftf] s (execZeroCalibrate via c n s) := by
  unfold execZeroCalibrate
  repeat' first
    | with_reducible exact Only.refl _ _
    | ((with_reducible apply Only.step State.dictWrite_only); rfl)
    | with_reducible refine Via.of rfl ?_

theorem execGuaranteeWrite_only {via : Sys2Proof.Transport} {b : Fin 64} {value : Nat} {s : State} :
    Via inOut [.draws, .clk, .boot, .log, .out, .dict, .flash, .can, .ssp, .host, .cred, .mem, .seg, .bw, .diag, .sched, .grid, .fab, .ftf] s (execGuaranteeWrite via b value s) := by
  unfold execGuaranteeWrite
  repeat' first
    | with_reducible exact Only.refl _ _
    | ((with_reducible apply Only.step State.dictWrite_only); rfl)
    | with_reducible refine Via.of rfl ?_

theorem execRetirePc_only {via : Sys2Proof.Transport} {pc : Fin 256} {s : State} :
    Via inOut [.draws, .clk, .boot, .log, .out, .dict, .flash, .can, .ssp, .host, .cred, .mem, .seg, .bw, .diag, .sched, .grid, .fab, .ftf] s (execRetirePc via pc s) := by
  unfold execRetirePc
  repeat' first
    | with_reducible exact Only.refl _ _
    | ((with_reducible apply Only.step State.dictWrite_only); rfl)
    | with_reducible refine Via.of rfl ?_

end Sys2Proof.Machine
end

