-- ==== Sys2Proof/Laws/Only/Vdp.lean ====
section
/-! SUPPORT. What each operation of Machine/Vdp.lean may change. -/

namespace Sys2Proof.Machine

theorem State.vdpWrite_only {s : State} {via : Sys2Proof.Transport} {m : List Sys2Proof.Byte} :
    Via inFst [.draws, .clk, .boot, .log, .out, .dict, .flash, .can, .ssp, .host, .cred, .mem, .seg, .bw, .diag, .sched, .grid, .fab, .ftf] s (State.vdpWrite s via m) := by
  unfold State.vdpWrite
  try dsimp -zeta -proj only [State.set_dict]
  repeat' first
    | with_reducible exact Only.refl _ _
    | (lift_lets -underBinder; intro x)
    | (intro x)
    | with_reducible refine Via.ite (fun _ => ?_) (fun _ => ?_)
    | ((with_reducible apply Only.step (Via.get State.writeObject_only rfl)); rfl)
    | with_reducible refine Only.with_dict ?_ rfl
    | split
    | with_reducible refine Via.of rfl ?_

theorem State.writeNext_only {s : State} {via : Sys2Proof.Transport} {t : Transfer} {m : List Sys2Proof.Byte} :
    Via inFst [.draws, .clk, .boot, .log, .out, .dict, .flash, .can, .ssp, .host, .cred, .mem, .seg, .bw, .diag, .sched, .grid, .fab, .ftf] s (State.writeNext s via t m) := by
  unfold State.writeNext
  try dsimp -zeta -proj only [State.set_dict]
  repeat' first
    | with_reducible exact Only.refl _ _
    | (lift_lets -underBinder; intro x)
    | (intro x)
    | with_reducible refine Via.ite (fun _ => ?_) (fun _ => ?_)
    | ((with_reducible apply Only.step (Via.get State.writeObject_only rfl)); rfl)
    | with_reducible refine Only.with_dict ?_ rfl
    | with_reducible refine Via.of rfl ?_

theorem State.vdpSegmentIn_only {s : State} {via : Sys2Proof.Transport} {p : VdpPort} {m : List Sys2Proof.Byte} :
    Via inFst [.draws, .clk, .boot, .log, .out, .dict, .flash, .can, .ssp, .host, .cred, .mem, .seg, .bw, .diag, .sched, .grid, .fab, .ftf] s (State.vdpSegmentIn s via p m) := by
  unfold State.vdpSegmentIn
  repeat' first
    | with_reducible exact Only.refl _ _
    | with_reducible refine Via.ite (fun _ => ?_) (fun _ => ?_)
    | ((with_reducible apply Via.step State.writeNext_only); rfl)
    | split
    | with_reducible refine Via.of rfl ?_

theorem State.vdpServe_only {s : State} {via : Sys2Proof.Transport} {p : VdpPort} {m : List Sys2Proof.Byte} {len : Nat} :
    Via inFst [.draws, .clk, .boot, .log, .out, .dict, .flash, .can, .ssp, .host, .cred, .mem, .seg, .bw, .diag, .sched, .grid, .fab, .ftf] s (State.vdpServe s via p m len) := by
  unfold State.vdpServe
  repeat' first
    | with_reducible exact Only.refl _ _
    | (lift_lets -underBinder; intro x)
    | with_reducible refine Via.ite (fun _ => ?_) (fun _ => ?_)
    | with_reducible refine Only.step (Via.caseFst State.vdpWrite_only (by assumption)) rfl ?_
    | with_reducible refine Only.step (Via.caseFst State.vdpSegmentIn_only (by assumption)) rfl ?_
    | split
    | with_reducible refine Via.of rfl ?_

theorem State.serveMailbox_only {s : State} :
    Only [.draws, .clk, .boot, .log, .out, .dict, .flash, .vdp, .can, .ssp, .host, .cred, .mem, .seg, .bw, .diag, .sched, .grid, .fab, .ftf] s (State.serveMailbox s) := by
  unfold State.serveMailbox
  try dsimp -zeta -proj only [State.set_vdp]
  repeat' first
    | with_reducible exact Only.refl _ _
    | (lift_lets -underBinder; intro x)
    | (intro x)
    | with_reducible refine Only.ite (fun _ => ?_) (fun _ => ?_)
    | ((with_reducible apply Only.step (Via.get State.vdpServe_only rfl)); rfl)
    | ((with_reducible apply Only.step State.raise_only); rfl)
    | with_reducible refine Only.with_vdp ?_ rfl
    | split

theorem execCanBusOff_only {s : State} :
    Via inOut [.log, .out, .vdp, .can, .host] s (execCanBusOff s) := by
  unfold execCanBusOff
  try dsimp -zeta -proj only [State.set_vdp_can , State.set_vdp , State.set_can]
  repeat' first
    | with_reducible exact Only.refl _ _
    | (lift_lets -underBinder; intro x)
    | (intro x)
    | ((with_reducible apply Only.step State.logEvent_only); rfl)
    | with_reducible refine Only.with_vdp ?_ rfl
    | with_reducible refine Only.with_can ?_ rfl
    | split
    | with_reducible refine Via.of rfl ?_

theorem execCanSettingsApply_only {s : State} :
    Via inOut [.can] s (execCanSettingsApply s) := by
  unfold execCanSettingsApply
  try dsimp -zeta -proj only [State.set_can]
  repeat' first
    | with_reducible exact Only.refl _ _
    | (lift_lets -underBinder; intro x)
    | with_reducible refine Only.with_can ?_ rfl
    | with_reducible refine Via.of rfl ?_

theorem State.submitMailbox_only {s : State} {len : Nat} {request : List Sys2Proof.Byte} :
    Only [.draws, .clk, .boot, .log, .out, .dict, .flash, .vdp, .can, .ssp, .host, .cred, .mem, .seg, .bw, .diag, .sched, .grid, .fab, .ftf] s (State.submitMailbox s len request) := by
  unfold State.submitMailbox
  try dsimp -zeta -proj only [State.set_vdp]
  repeat' first
    | with_reducible exact Only.refl _ _
    | (lift_lets -underBinder; intro x)
    | with_reducible refine Only.ite (fun _ => ?_) (fun _ => ?_)
    | ((with_reducible apply Only.step State.serveMailbox_only); rfl)
    | with_reducible refine Only.with_vdp ?_ rfl

theorem State.serveCan_only {s : State} {identifier : Nat} {data : List Sys2Proof.Byte} :
    Only [.draws, .clk, .boot, .log, .out, .dict, .flash, .vdp, .can, .ssp, .host, .cred, .mem, .seg, .bw, .diag, .sched, .grid, .fab, .ftf] s (State.serveCan s identifier data) := by
  unfold State.serveCan
  try dsimp -zeta -proj only [State.set_vdp]
  repeat' first
    | with_reducible assumption
    | with_reducible exact Only.refl _ _
    | (lift_lets -underBinder; intro x)
    | (intro x; refine Only.gen (ps := [.draws, .clk, .boot, .log, .out, .dict, .flash, .vdp, .can, .ssp, .host, .cred, .mem, .seg, .bw, .diag, .sched, .grid, .fab, .ftf]) (s := s) (x := x) ?_ (fun hx => ?_); unfold x; rotate_left; clear_value x)
    | (intro x)
    | with_reducible refine Only.ite (fun _ => ?_) (fun _ => ?_)
    | ((with_reducible apply Only.step State.canSend_only); rfl)
    | ((with_reducible apply Only.step (Via.get State.vdpServe_only rfl)); rfl)
    | with_reducible refine Only.with_vdp ?_ rfl
    | split
    | (clear_value *; split)

theorem State.vdpArrive_only {s : State} {service : Nat} {m : Sys2Proof.VdpIn} :
    Only [.draws, .clk, .boot, .log, .out, .dict, .flash, .vdp, .can, .ssp, .host, .cred, .mem, .seg, .bw, .diag, .sched, .grid, .fab, .ftf] s (State.vdpArrive s service m) := by
  unfold State.vdpArrive
  repeat' first
    | with_reducible exact Only.refl _ _
    | with_reducible refine Only.ite (fun _ => ?_) (fun _ => ?_)
    | ((with_reducible apply Only.step State.submitMailbox_only); rfl)
    | ((with_reducible apply Only.step State.serveCan_only); rfl)
    | split

theorem execVdpAbort_only {m : Sys2Proof.VdpIn} {s : State} :
    Via inOut [.draws, .clk, .boot, .log, .out, .dict, .flash, .vdp, .can, .ssp, .host, .cred, .mem, .seg, .bw, .diag, .sched, .grid, .fab, .ftf] s (execVdpAbort m s) := by
  unfold execVdpAbort
  repeat' first
    | with_reducible exact Only.refl _ _
    | ((with_reducible apply Only.step State.vdpArrive_only); rfl)
    | with_reducible refine Via.of rfl ?_

theorem execCanHeartbeat_only {s : State} :
    Via inOut [.out, .can] s (execCanHeartbeat s) := by
  unfold execCanHeartbeat
  try dsimp -zeta -proj only [State.set_can]
  repeat' first
    | with_reducible assumption
    | with_reducible exact Only.refl _ _
    | (lift_lets -underBinder; intro x; refine Only.gen (ps := [.out, .can]) (s := s) (x := x) ?_ (fun hx => ?_); unfold x; rotate_left; clear_value x)
    | (intro x)
    | ((with_reducible apply Only.step State.canSend_only); rfl)
    | with_reducible refine Only.with_can ?_ rfl
    | split
    | with_reducible refine Via.of rfl ?_

theorem execVdpRead_only {m : Sys2Proof.VdpIn} {s : State} :
    Via inOut [.draws, .clk, .boot, .log, .out, .dict, .flash, .vdp, .can, .ssp, .host, .cred, .mem, .seg, .bw, .diag, .sched, .grid, .fab, .ftf] s (execVdpRead m s) := by
  unfold execVdpRead
  repeat' first
    | with_reducible exact Only.refl _ _
    | ((with_reducible apply Only.step State.vdpArrive_only); rfl)
    | with_reducible refine Via.of rfl ?_

theorem execCanBusError_only {txErrors rxErrors : Nat} {s : State} :
    Via inOut [.can] s (execCanBusError txErrors rxErrors s) := by
  unfold execCanBusError
  try dsimp -zeta -proj only [State.set_can]
  repeat' first
    | with_reducible exact Only.refl _ _
    | (lift_lets -underBinder; intro x)
    | with_reducible refine Only.with_can ?_ rfl
    | split
    | with_reducible refine Via.of rfl ?_

theorem execVdpSegment_only {m : Sys2Proof.VdpIn} {s : State} :
    Via inOut [.draws, .clk, .boot, .log, .out, .dict, .flash, .vdp, .can, .ssp, .host, .cred, .mem, .seg, .bw, .diag, .sched, .grid, .fab, .ftf] s (execVdpSegment m s) := by
  unfold execVdpSegment
  repeat' first
    | with_reducible exact Only.refl _ _
    | ((with_reducible apply Only.step State.vdpArrive_only); rfl)
    | with_reducible refine Via.of rfl ?_

theorem execGoWhileBusy_only {s : State} :
    Via inOut [.vdp] s (execGoWhileBusy s) := by
  unfold execGoWhileBusy
  try dsimp -zeta -proj only [State.set_vdp]
  repeat' first
    | with_reducible exact Only.refl _ _
    | (lift_lets -underBinder; intro x)
    | with_reducible refine Only.with_vdp ?_ rfl
    | split
    | with_reducible refine Via.of rfl ?_

theorem execCanBusRecover_only {s : State} :
    Via inOut [.can] s (execCanBusRecover s) := by
  unfold execCanBusRecover
  try dsimp -zeta -proj only [State.set_can]
  repeat' first
    | with_reducible exact Only.refl _ _
    | (lift_lets -underBinder; intro x)
    | with_reducible refine Only.with_can ?_ rfl
    | split
    | with_reducible refine Via.of rfl ?_

theorem execVdpTransferTimeout_only {via : Sys2Proof.Transport} {s : State} :
    Via inOut [.vdp] s (execVdpTransferTimeout via s) := by
  unfold execVdpTransferTimeout
  try dsimp -zeta -proj only [State.set_vdp]
  repeat' first
    | with_reducible exact Only.refl _ _
    | (lift_lets -underBinder; intro x)
    | with_reducible refine Only.with_vdp ?_ rfl
    | split
    | with_reducible refine Via.of rfl ?_

theorem execMailboxClear_only {value : Nat} {s : State} :
    Via inOut [.vdp] s (execMailboxClear value s) := by
  unfold execMailboxClear
  try dsimp -zeta -proj only [State.set_vdp]
  repeat' first
    | with_reducible exact Only.refl _ _
    | (lift_lets -underBinder; intro x)
    | with_reducible refine Only.with_vdp ?_ rfl
    | split
    | with_reducible refine Via.of rfl ?_

theorem execVdpWrite_only {m : Sys2Proof.VdpIn} {s : State} :
    Via inOut [.draws, .clk, .boot, .log, .out, .dict, .flash, .vdp, .can, .ssp, .host, .cred, .mem, .seg, .bw, .diag, .sched, .grid, .fab, .ftf] s (execVdpWrite m s) := by
  unfold execVdpWrite
  repeat' first
    | with_reducible exact Only.refl _ _
    | ((with_reducible apply Only.step State.vdpArrive_only); rfl)
    | with_reducible refine Via.of rfl ?_

end Sys2Proof.Machine
end

