-- ==== Sys2Proof/Laws/Only/Kernels.lean ====
section
/-! SUPPORT. What each operation of Machine/Kernels.lean may change. -/

namespace Sys2Proof.Machine

theorem State.loadKernel_only {s : State} {slot : Nat} {k : Kernel} :
    Only [.grid] s (State.loadKernel s slot k) := by
  unfold State.loadKernel
  refine Only.foldl (fun u t hu => Only.setTile hu rfl fun _ k => ?_) (Only.step State.setKernel_only rfl (Only.refl _ _))
  dsimp only
  split
  · exact tile_wf k t
  · exact Memory.wf_writeN (tile_wf k t)

theorem execProgramLoad_only {data : List Sys2Proof.Byte} {s : State} :
    Via inOut [.log, .out, .can, .host, .cred, .grid] s (execProgramLoad data s) := by
  unfold execProgramLoad
  repeat' first
    | with_reducible assumption
    | with_reducible exact Only.refl _ _
    | (lift_lets -underBinder; intro x)
    | (intro x; refine Only.gen (ps := [.log, .out, .can, .host, .cred, .grid]) (s := s) (x := x) ?_ (fun hx => ?_); unfold x; rotate_left; clear_value x)
    | (intro x)
    | with_reducible refine Only.step (Via.caseOptSnd State.beginWork_only (by assumption)) rfl ?_
    | ((with_reducible apply Only.step State.refuse_only); rfl)
    | ((with_reducible apply Only.step State.complete_only); rfl)
    | ((with_reducible apply Only.step State.loadKernel_only); rfl)
    | ((with_reducible apply Only.step State.emit_only); rfl)
    | ((with_reducible apply Only.step State.logEvent_only); rfl)
    | split
    | with_reducible refine Via.of rfl ?_

theorem State.loadBundle_only {s : State} {ks : List Kernel} :
    Only [.grid] s (State.loadBundle s ks) := by
  unfold State.loadBundle
  repeat' first
    | with_reducible assumption
    | with_reducible exact Only.refl _ _
    | with_reducible refine Only.foldl (fun _ _ _ => ?_) ?_
    | ((with_reducible apply Only.step State.loadKernel_only); rfl)

end Sys2Proof.Machine
end

