-- ==== Sys2Proof/Laws/Only/Ssp.lean ====
section
/-! SUPPORT. What each operation of Machine/Ssp.lean may change. -/

namespace Sys2Proof.Machine

theorem State.sspDone_only {s : State} {answer : List Sys2Proof.Byte} :
    Only [.ssp] s (State.sspDone s answer) := by
  unfold State.sspDone
  try dsimp -zeta -proj only [State.set_ssp]
  repeat' first
    | with_reducible exact Only.refl _ _
    | (lift_lets -underBinder; intro x)
    | with_reducible refine Only.with_ssp ?_ rfl

theorem State.serveSlot_only {ps : List Part} {s0 s : State} {op : Nat} {f : List Sys2Proof.Byte → State × List Sys2Proof.Byte}
    (hq : [.ssp].all ps.contains = true) (hk : ∀ r, Only ps s0 s → Only ps s0 (f r).1) (h : Only ps s0 s) : Only ps s0 (s.serveSlot op f) := by
  have hd : ∀ {qs : List Part} {t u : State}, Only qs t u → qs.all ([.ssp]).contains = true → Only ps s0 t → Only ps s0 u :=
    fun a b c => Only.step (Only.step a b (Only.refl _ _)) hq c
  unfold State.serveSlot
  split
  · exact h
  · rename_i r _
    refine Only.ite (fun _ => h) (fun _ => Only.ite (fun _ => hd State.sspDone_only rfl h) (fun _ => ?_))
    have k : Only ps s0 (f r).1 := hk r h
    generalize f r = x at k
    rcases x with ⟨u, a⟩
    exact hd State.sspDone_only rfl k

theorem execRead_only {s : State} :
    Via inOut [.ssp] s (execRead s) := by
  unfold execRead
  repeat' first
    | with_reducible refine State.serveSlot_only rfl (fun _ _ => ?_) ?_
    | with_reducible assumption
    | with_reducible exact Only.refl _ _
    | with_reducible refine Via.of rfl ?_

theorem execSspStall_only {s : State} :
    Via inOut [.log, .out, .can, .ssp, .host] s (execSspStall s) := by
  unfold execSspStall
  try dsimp -zeta -proj only [State.set_ssp]
  repeat' first
    | with_reducible exact Only.refl _ _
    | (lift_lets -underBinder; intro x)
    | ((with_reducible apply Only.step State.logEvent_only); rfl)
    | with_reducible refine Only.with_ssp ?_ rfl
    | split
    | with_reducible refine Via.of rfl ?_

theorem State.answerIdent_only {s : State} :
    Only [.ssp] s (State.answerIdent s) := by
  unfold State.answerIdent
  try dsimp -zeta -proj only [State.set_ssp]
  repeat' first
    | with_reducible exact Only.refl _ _
    | (lift_lets -underBinder; intro x)
    | with_reducible refine Only.ite (fun _ => ?_) (fun _ => ?_)
    | with_reducible refine Only.with_ssp ?_ rfl
    | split

theorem State.slotStage_only {s : State} {r : List Sys2Proof.Byte} :
    Via inFst [.ssp] s (State.slotStage s r) := by
  unfold State.slotStage
  try dsimp -zeta -proj only [State.set_ssp]
  repeat' first
    | with_reducible exact Only.refl _ _
    | (lift_lets -underBinder; intro x)
    | (intro x)
    | with_reducible refine Via.ite (fun _ => ?_) (fun _ => ?_)
    | with_reducible refine Only.with_ssp ?_ rfl
    | with_reducible refine Via.of rfl ?_

theorem State.slotPut_only {s : State} {r data : List Sys2Proof.Byte} :
    Via inFst [.draws, .clk, .boot, .log, .out, .dict, .flash, .can, .ssp, .host, .cred, .mem, .seg, .bw, .diag, .sched, .grid, .fab, .ftf] s (State.slotPut s r data) := by
  unfold State.slotPut
  try dsimp -zeta -proj only [State.set_dict]
  repeat' first
    | with_reducible exact Only.refl _ _
    | (lift_lets -underBinder; intro x)
    | ((with_reducible apply Only.step (Via.get State.writeObject_only rfl)); rfl)
    | with_reducible refine Only.with_dict ?_ rfl
    | with_reducible refine Via.of rfl ?_

theorem State.slotWriteStaged_only {s : State} {r : List Sys2Proof.Byte} :
    Via inFst [.draws, .clk, .boot, .log, .out, .dict, .flash, .can, .ssp, .host, .cred, .mem, .seg, .bw, .diag, .sched, .grid, .fab, .ftf] s (State.slotWriteStaged s r) := by
  unfold State.slotWriteStaged
  try dsimp -zeta -proj only [State.set_ssp]
  repeat' first
    | with_reducible assumption
    | with_reducible exact Only.refl _ _
    | (lift_lets -underBinder; intro x)
    | (intro x; refine Only.gen (ps := [.draws, .clk, .boot, .log, .out, .dict, .flash, .can, .ssp, .host, .cred, .mem, .seg, .bw, .diag, .sched, .grid, .fab, .ftf]) (s := s) (x := x) ?_ (fun hx => ?_); unfold x; rotate_left; clear_value x)
    | with_reducible refine Via.ite (fun _ => ?_) (fun _ => ?_)
    | ((with_reducible apply Via.step State.slotPut_only); rfl)
    | with_reducible refine Only.with_ssp ?_ rfl
    | with_reducible refine Via.of rfl ?_

theorem State.enumerate_only {s : State} {r : List Sys2Proof.Byte} :
    Via inFst [.boot, .log, .out, .can, .host, .cred, .fab] s (State.enumerate s r) := by
  unfold State.enumerate
  try dsimp -zeta -proj only [State.set_boot]
  repeat' first
    | with_reducible exact Only.refl _ _
    | (lift_lets -underBinder; intro x)
    | with_reducible refine Via.ite (fun _ => ?_) (fun _ => ?_)
    | ((with_reducible apply Only.step State.startPorts_only); rfl)
    | ((with_reducible apply Only.step State.logEvent_only); rfl)
    | with_reducible refine Only.with_boot ?_ rfl
    | split
    | with_reducible refine Via.of rfl ?_

theorem execNop_only {s : State} :
    Via inOut [] s (execNop s) := by
  unfold execNop
  repeat' first
    | with_reducible exact Only.refl _ _
    | with_reducible refine Via.of rfl ?_

theorem execEnum_only {s : State} :
    Via inOut [.boot, .log, .out, .can, .ssp, .host, .cred, .fab] s (execEnum s) := by
  unfold execEnum
  repeat' first
    | with_reducible refine State.serveSlot_only rfl (fun _ _ => ?_) ?_
    | with_reducible assumption
    | with_reducible exact Only.refl _ _
    | ((with_reducible apply Only.step (Via.get State.enumerate_only rfl)); rfl)
    | with_reducible refine Via.of rfl ?_

theorem execWriteStaged_only {s : State} :
    Via inOut [.draws, .clk, .boot, .log, .out, .dict, .flash, .can, .ssp, .host, .cred, .mem, .seg, .bw, .diag, .sched, .grid, .fab, .ftf] s (execWriteStaged s) := by
  unfold execWriteStaged
  repeat' first
    | with_reducible refine State.serveSlot_only rfl (fun _ _ => ?_) ?_
    | with_reducible assumption
    | with_reducible exact Only.refl _ _
    | ((with_reducible apply Only.step (Via.get State.slotWriteStaged_only rfl)); rfl)
    | with_reducible refine Via.of rfl ?_

theorem execLength_only {s : State} :
    Via inOut [.ssp] s (execLength s) := by
  unfold execLength
  repeat' first
    | with_reducible refine State.serveSlot_only rfl (fun _ _ => ?_) ?_
    | with_reducible assumption
    | with_reducible exact Only.refl _ _
    | with_reducible refine Via.of rfl ?_

theorem State.slotWrite_only {s : State} {r : List Sys2Proof.Byte} :
    Via inFst [.draws, .clk, .boot, .log, .out, .dict, .flash, .can, .ssp, .host, .cred, .mem, .seg, .bw, .diag, .sched, .grid, .fab, .ftf] s (State.slotWrite s r) := by
  unfold State.slotWrite
  repeat' first
    | with_reducible exact Only.refl _ _
    | with_reducible refine Via.ite (fun _ => ?_) (fun _ => ?_)
    | ((with_reducible apply Via.step State.slotPut_only); rfl)
    | split
    | with_reducible refine Via.of rfl ?_

theorem execWrite_only {s : State} :
    Via inOut [.draws, .clk, .boot, .log, .out, .dict, .flash, .can, .ssp, .host, .cred, .mem, .seg, .bw, .diag, .sched, .grid, .fab, .ftf] s (execWrite s) := by
  unfold execWrite
  repeat' first
    | with_reducible refine State.serveSlot_only rfl (fun _ _ => ?_) ?_
    | with_reducible assumption
    | with_reducible exact Only.refl _ _
    | ((with_reducible apply Only.step (Via.get State.slotWrite_only rfl)); rfl)
    | with_reducible refine Via.of rfl ?_

theorem State.latchSlot_only {s : State} {r : List Sys2Proof.Byte} :
    Only [.ssp] s (State.latchSlot s r) := by
  unfold State.latchSlot
  try dsimp -zeta -proj only [State.set_ssp]
  repeat' first
    | with_reducible exact Only.refl _ _
    | (lift_lets -underBinder; intro x)
    | with_reducible refine Only.ite (fun _ => ?_) (fun _ => ?_)
    | with_reducible refine Only.with_ssp ?_ rfl

theorem execSspSelectRise_only {edges : Nat} {slot : List Sys2Proof.Byte} {s : State} :
    Via inOut [.out, .ssp] s (execSspSelectRise edges slot s) := by
  unfold execSspSelectRise
  try dsimp -zeta -proj only [State.set_ssp]
  repeat' first
    | with_reducible assumption
    | with_reducible exact Only.refl _ _
    | (lift_lets -underBinder; intro x)
    | (intro x; refine Only.gen (ps := [.out, .ssp]) (s := s) (x := x) ?_ (fun hx => ?_); unfold x; rotate_left; clear_value x)
    | (intro x)
    | ((with_reducible apply Only.step State.latchSlot_only); rfl)
    | ((with_reducible apply Only.step State.emit_only); rfl)
    | with_reducible refine Only.with_ssp ?_ rfl
    | split
    | with_reducible refine Via.of rfl ?_

theorem execIdent_only {s : State} :
    Via inOut [.ssp] s (execIdent s) := by
  unfold execIdent
  repeat' first
    | with_reducible exact Only.refl _ _
    | ((with_reducible apply Only.step State.answerIdent_only); rfl)
    | with_reducible refine Via.of rfl ?_

theorem execStage_only {s : State} :
    Via inOut [.ssp] s (execStage s) := by
  unfold execStage
  repeat' first
    | with_reducible refine State.serveSlot_only rfl (fun _ _ => ?_) ?_
    | with_reducible assumption
    | with_reducible exact Only.refl _ _
    | ((with_reducible apply Only.step (Via.get State.slotStage_only rfl)); rfl)
    | with_reducible refine Via.of rfl ?_

theorem execSspSelectFall_only {s : State} :
    Via inOut [.ssp] s (execSspSelectFall s) := by
  unfold execSspSelectFall
  try dsimp -zeta -proj only [State.set_ssp]
  repeat' first
    | with_reducible assumption
    | with_reducible exact Only.refl _ _
    | (lift_lets -underBinder; intro x; refine Only.gen (ps := [.ssp]) (s := s) (x := x) ?_ (fun hx => ?_); unfold x; rotate_left; clear_value x)
    | (intro x)
    | ((with_reducible apply Only.step State.answerIdent_only); rfl)
    | with_reducible refine Only.with_ssp ?_ rfl
    | split
    | with_reducible refine Via.of rfl ?_

end Sys2Proof.Machine
end

