-- ==== Sys2Proof/Laws/Only/Boot.lean ====
section
/-! SUPPORT. What each operation of Machine/Boot.lean may change. -/

namespace Sys2Proof.Machine

theorem execPerstDeassert_only {s : State} :
    Via inOut [.boot] s (execPerstDeassert s) := by
  unfold execPerstDeassert
  try dsimp -zeta -proj only [State.set_boot]
  repeat' first
    | with_reducible exact Only.refl _ _
    | (lift_lets -underBinder; intro x)
    | with_reducible refine Only.with_boot ?_ rfl
    | with_reducible refine Via.of rfl ?_

theorem State.recoveryStatus_only {s : State} {n : Nat} :
    Only [.boot] s (State.recoveryStatus s n) := by
  unfold State.recoveryStatus
  try dsimp -zeta -proj only [State.set_boot]
  repeat' first
    | with_reducible exact Only.refl _ _
    | (lift_lets -underBinder; intro x)
    | with_reducible refine Only.with_boot ?_ rfl

theorem State.inRecovery_only {ps : List Part} {s0 s : State} {window : List Sys2Proof.Byte} {r : RecoveryFor} {pass : State → State}
    (hq : [.boot].all ps.contains = true) (hk : ∀ u, Only ps s0 u → Only ps s0 (pass u)) (h : Only ps s0 s) : Only ps s0 (s.inRecovery window r pass) := by
  have hd : ∀ {qs : List Part} {t u : State}, Only qs t u → qs.all ([.boot]).contains = true → Only ps s0 t → Only ps s0 u :=
    fun a b c => Only.step (Only.step a b (Only.refl _ _)) hq c
  unfold State.inRecovery
  dsimp -zeta -proj only [State.set_boot]
  refine Only.ite (fun _ => h) (fun _ => ?_)
  have k := fun b => hd (Only.with_boot (ps := [.boot]) (v := b) (Only.refl _ s) rfl) rfl h
  dsimp only
  exact Only.ite (fun _ => hk _ (k _)) (fun _ => hd State.recoveryStatus_only rfl (k _))

theorem State.writeArea_only {s : State} {a size : Nat} {bs : List Sys2Proof.Byte} {ok : Bool} :
    Only [.draws, .flash] s (State.writeArea s a size bs ok) := by
  unfold State.writeArea
  repeat' first
    | with_reducible assumption
    | with_reducible exact Only.refl _ _
    | (lift_lets -underBinder; intro x; refine Only.gen (ps := [.draws, .flash]) (s := s) (x := x) ?_ (fun hx => ?_); unfold x; rotate_left; clear_value x)
    | with_reducible refine Only.ite (fun _ => ?_) (fun _ => ?_)
    | ((with_reducible apply Only.step State.flashErase_only); rfl)
    | ((with_reducible apply Only.step State.flashWrite_only); rfl)
    | ((with_reducible apply Only.step State.flashSpoil_only); rfl)

theorem State.setStage_only {s : State} {n : Nat} :
    Only [.boot] s (State.setStage s n) := by
  unfold State.setStage
  try dsimp -zeta -proj only [State.set_boot]
  repeat' first
    | with_reducible exact Only.refl _ _
    | (lift_lets -underBinder; intro x)
    | with_reducible refine Only.with_boot ?_ rfl

theorem State.enterHost_only {s : State} :
    Only [.boot, .log, .out, .can, .host, .cred, .fab] s (State.enterHost s) := by
  unfold State.enterHost
  repeat' first
    | with_reducible assumption
    | with_reducible exact Only.refl _ _
    | with_reducible refine Only.foldl (fun _ _ _ => ?_) ?_
    | with_reducible refine Only.ite (fun _ => ?_) (fun _ => ?_)
    | ((with_reducible apply Only.step State.startPorts_only); rfl)
    | ((with_reducible apply Only.step State.burrowEnable_only); rfl)
    | ((with_reducible apply Only.step State.setStage_only); rfl)

theorem State.advance_only {s : State} :
    Only [.boot, .log, .out, .can, .host, .cred, .fab] s (State.advance s) := by
  unfold State.advance
  repeat' first
    | with_reducible exact Only.refl _ _
    | with_reducible refine Only.ite (fun _ => ?_) (fun _ => ?_)
    | ((with_reducible apply Only.step State.enterHost_only); rfl)

theorem State.bootOn_only {s : State} {stage : Nat} :
    Only [.draws, .clk, .boot, .log, .out, .dict, .flash, .vdp, .can, .ssp, .host, .cred, .mem, .seg, .bw, .diag, .sched, .grid, .fab, .ftf] s (State.bootOn s stage) := by
  unfold State.bootOn
  try dsimp -zeta -proj only [State.set_boot]
  repeat' first
    | with_reducible exact Only.refl _ _
    | (lift_lets -underBinder; intro x)
    | ((with_reducible apply Only.step State.advance_only); rfl)
    | ((with_reducible apply Only.step State.serveMailbox_only); rfl)
    | with_reducible refine Only.with_boot ?_ rfl

theorem State.bootFlag_only {s : State} {bit : Nat} :
    Only [.boot] s (State.bootFlag s bit) := by
  unfold State.bootFlag
  try dsimp -zeta -proj only [State.set_boot]
  repeat' first
    | with_reducible exact Only.refl _ _
    | (lift_lets -underBinder; intro x)
    | with_reducible refine Only.with_boot ?_ rfl

theorem State.startFirmware_only {s : State} {h image : List Sys2Proof.Byte} {secondary : Bool} :
    Only [.boot] s (State.startFirmware s h image secondary) := by
  unfold State.startFirmware
  try dsimp -zeta -proj only [State.set_boot]
  repeat' first
    | with_reducible exact Only.refl _ _
    | (lift_lets -underBinder; intro x)
    | with_reducible refine Only.with_boot ?_ rfl

theorem State.bootRecovered_only {s : State} {h image : List Sys2Proof.Byte} :
    Only [.draws, .clk, .boot, .log, .out, .dict, .flash, .vdp, .can, .ssp, .host, .cred, .mem, .seg, .bw, .diag, .sched, .grid, .fab, .ftf] s (State.bootRecovered s h image) := by
  unfold State.bootRecovered
  repeat' first
    | with_reducible exact Only.refl _ _
    | ((with_reducible apply Only.step State.bootOn_only); rfl)
    | ((with_reducible apply Only.step State.logEvent_only); rfl)
    | ((with_reducible apply Only.step State.bootFlag_only); rfl)
    | ((with_reducible apply Only.step State.startFirmware_only); rfl)
    | ((with_reducible apply Only.step State.recoveryStatus_only); rfl)

theorem execRecoveryWriteFirmware_only {window : List Sys2Proof.Byte} {written : Bool} {s : State} :
    Via inOut [.draws, .clk, .boot, .log, .out, .dict, .flash, .vdp, .can, .ssp, .host, .cred, .mem, .seg, .bw, .diag, .sched, .grid, .fab, .ftf] s (execRecoveryWriteFirmware window written s) := by
  unfold execRecoveryWriteFirmware
  repeat' first
    | with_reducible refine State.inRecovery_only rfl (fun _ _ => ?_) ?_
    | with_reducible assumption
    | with_reducible exact Only.refl _ _
    | (lift_lets -underBinder; intro x; refine Only.gen (ps := [.draws, .clk, .boot, .log, .out, .dict, .flash, .vdp, .can, .ssp, .host, .cred, .mem, .seg, .bw, .diag, .sched, .grid, .fab, .ftf]) (s := s) (x := x) ?_ (fun hx => ?_); unfold x; rotate_left; clear_value x)
    | ((with_reducible apply Only.step State.recoveryStatus_only); rfl)
    | ((with_reducible apply Only.step State.writeArea_only); rfl)
    | ((with_reducible apply Only.step State.bootRecovered_only); rfl)
    | split
    | with_reducible refine Via.of rfl ?_

theorem State.takeBundle_only {s : State} {ks : List Kernel} :
    Only [.boot, .grid] s (State.takeBundle s ks) := by
  unfold State.takeBundle
  try dsimp -zeta -proj only [State.set_boot]
  repeat' first
    | with_reducible assumption
    | with_reducible exact Only.refl _ _
    | (lift_lets -underBinder; intro x; refine Only.gen (ps := [.boot, .grid]) (s := s) (x := x) ?_ (fun hx => ?_); unfold x; rotate_left; clear_value x)
    | (intro x)
    | ((with_reducible apply Only.step State.loadBundle_only); rfl)
    | with_reducible refine Only.with_boot ?_ rfl

theorem State.readFuses_only {s : State} {fuse : Sys2Proof.FuseRead} :
    Only [.boot, .log, .out, .dict, .can, .host] s (State.readFuses s fuse) := by
  unfold State.readFuses
  try dsimp -zeta -proj only [State.set_boot , State.set_dict]
  repeat' first
    | with_reducible assumption
    | with_reducible exact Only.refl _ _
    | (lift_lets -underBinder; intro x)
    | (intro x; refine Only.gen (ps := [.boot, .log, .out, .dict, .can, .host]) (s := s) (x := x) ?_ (fun hx => ?_); unfold x; rotate_left; clear_value x)
    | (intro x)
    | with_reducible refine Only.ite (fun _ => ?_) (fun _ => ?_)
    | ((with_reducible apply Only.step State.logEvent_only); rfl)
    | ((with_reducible apply Only.step State.bootFlag_only); rfl)
    | with_reducible refine Only.with_boot ?_ rfl
    | with_reducible refine Only.with_dict ?_ rfl

theorem execColdResetRelease_only {locked : Bool} {fuse : Sys2Proof.FuseRead} {tray : Fin 16} {s : State} :
    Via inOut [.boot, .log, .out, .dict, .can, .host] s (execColdResetRelease locked fuse tray s) := by
  unfold execColdResetRelease
  try dsimp -zeta -proj only [State.set_boot]
  repeat' first
    | with_reducible assumption
    | with_reducible exact Only.refl _ _
    | (lift_lets -underBinder; intro x)
    | (intro x; refine Only.gen (ps := [.boot, .log, .out, .dict, .can, .host]) (s := s) (x := x) ?_ (fun hx => ?_); unfold x; rotate_left; clear_value x)
    | ((with_reducible apply Only.step State.logEvent_only); rfl)
    | ((with_reducible apply Only.step State.readFuses_only); rfl)
    | with_reducible refine Only.with_boot ?_ rfl
    | split
    | with_reducible refine Via.of rfl ?_

theorem State.enterRecovery_only {s : State} {r : RecoveryFor} :
    Only [.boot, .log, .out, .can, .host] s (State.enterRecovery s r) := by
  unfold State.enterRecovery
  try dsimp -zeta -proj only [State.set_boot]
  repeat' first
    | with_reducible exact Only.refl _ _
    | (lift_lets -underBinder; intro x)
    | ((with_reducible apply Only.step State.logEvent_only); rfl)
    | with_reducible refine Only.with_boot ?_ rfl

theorem State.coldFirmware_only {s : State} :
    Only [.draws, .clk, .boot, .log, .out, .dict, .flash, .vdp, .can, .ssp, .host, .cred, .mem, .seg, .bw, .diag, .sched, .grid, .fab, .ftf] s (State.coldFirmware s) := by
  unfold State.coldFirmware
  repeat' first
    | with_reducible exact Only.refl _ _
    | ((with_reducible apply Only.step State.serveMailbox_only); rfl)
    | ((with_reducible apply Only.step State.startFirmware_only); rfl)
    | ((with_reducible apply Only.step State.logEvent_only); rfl)
    | ((with_reducible apply Only.step State.bootFlag_only); rfl)
    | ((with_reducible apply Only.step State.enterRecovery_only); rfl)
    | split

theorem execBundleLoad_only {s : State} :
    Via inOut [.boot, .log, .out, .can, .host, .cred, .grid, .fab] s (execBundleLoad s) := by
  unfold execBundleLoad
  repeat' first
    | with_reducible exact Only.refl _ _
    | ((with_reducible apply Only.step State.advance_only); rfl)
    | ((with_reducible apply Only.step State.takeBundle_only); rfl)
    | ((with_reducible apply Only.step State.enterRecovery_only); rfl)
    | ((with_reducible apply Only.step State.logEvent_only); rfl)
    | ((with_reducible apply Only.step State.bootFlag_only); rfl)
    | split
    | with_reducible refine Via.of rfl ?_

theorem execPllLockRetry_only {locked : Bool} {fuse : Sys2Proof.FuseRead} {s : State} :
    Via inOut [.boot, .log, .out, .dict, .can, .host] s (execPllLockRetry locked fuse s) := by
  unfold execPllLockRetry
  repeat' first
    | with_reducible exact Only.refl _ _
    | ((with_reducible apply Only.step State.readFuses_only); rfl)
    | split
    | with_reducible refine Via.of rfl ?_

theorem execBootComplete_only {s : State} :
    Via inOut [.boot, .log, .out, .dict, .can, .host, .cred, .bw, .fab, .ftf] s (execBootComplete s) := by
  unfold execBootComplete
  try dsimp -zeta -proj only [State.set_dict , State.set_ftf , State.set_boot]
  repeat' first
    | with_reducible assumption
    | with_reducible exact Only.refl _ _
    | (lift_lets -underBinder; intro x)
    | (intro x; refine Only.gen (ps := [.boot, .log, .out, .dict, .can, .host, .cred, .bw, .fab, .ftf]) (s := s) (x := x) ?_ (fun hx => ?_); unfold x; rotate_left; clear_value x)
    | (intro x)
    | with_reducible refine Only.foldl (fun _ _ _ => ?_) ?_
    | with_reducible refine Only.ite (fun _ => ?_) (fun _ => ?_)
    | ((with_reducible apply Only.step State.react_only); rfl)
    | ((with_reducible apply Only.step State.lockAll_only); rfl)
    | with_reducible refine Only.with_dict ?_ rfl
    | with_reducible refine Only.with_ftf ?_ rfl
    | with_reducible refine Only.with_boot ?_ rfl
    | split
    | with_reducible refine Via.of rfl ?_

theorem State.takeConfig_only {s : State} :
    Only [.can, .ftf] s (State.takeConfig s) := by
  unfold State.takeConfig
  try dsimp -zeta -proj only [State.set_can]
  repeat' first
    | with_reducible assumption
    | with_reducible exact Only.refl _ _
    | (lift_lets -underBinder; intro x)
    | (intro x; refine Only.gen (ps := [.can, .ftf]) (s := s) (x := x) ?_ (fun hx => ?_); unfold x; rotate_left; clear_value x)
    | ((with_reducible apply Only.step State.channelEnable_only); rfl)
    | with_reducible refine Only.with_can ?_ rfl

theorem execConfigLoad_only {s : State} :
    Via inOut [.boot, .log, .out, .dict, .can, .host, .cred, .fab, .ftf] s (execConfigLoad s) := by
  unfold execConfigLoad
  try dsimp -zeta -proj only [State.set_boot]
  repeat' first
    | with_reducible assumption
    | with_reducible exact Only.refl _ _
    | (lift_lets -underBinder; intro x; refine Only.gen (ps := [.boot, .log, .out, .dict, .can, .host, .cred, .fab, .ftf]) (s := s) (x := x) ?_ (fun hx => ?_); unfold x; rotate_left; clear_value x)
    | (intro x)
    | ((with_reducible apply Only.step State.takeConfig_only); rfl)
    | ((with_reducible apply Only.step State.loadConfig_only); rfl)
    | ((with_reducible apply Only.step State.advance_only); rfl)
    | with_reducible refine Only.with_boot ?_ rfl
    | split
    | with_reducible refine Via.of rfl ?_

theorem execHbmTrainingDone_only {failed : List (Fin 256)} {s : State} :
    Via inOut [.draws, .boot, .log, .out, .can, .host, .cred, .mem, .seg, .bw, .fab] s (execHbmTrainingDone failed s) := by
  unfold execHbmTrainingDone
  try dsimp -zeta -proj only [State.set_boot_mem , State.set_boot , State.set_mem , State.set_bw]
  repeat' first
    | exact fun _ _ => rfl
    | with_reducible assumption
    | with_reducible exact Only.refl _ _
    | (lift_lets -underBinder; intro x)
    | (intro x; refine Only.gen (ps := [.draws, .boot, .log, .out, .can, .host, .cred, .mem, .seg, .bw, .fab]) (s := s) (x := x) ?_ (fun hx => ?_); unfold x; rotate_left; clear_value x)
    | (intro x)
    | with_reducible refine Only.foldl (fun _ _ _ => ?_) ?_
    | ((with_reducible apply Only.step State.retirePc_only); rfl)
    | ((with_reducible apply Only.step State.advance_only); rfl)
    | ((with_reducible apply Only.step State.segmentAudit_only); rfl)
    | ((with_reducible apply Only.step State.rescale_only); rfl)
    | with_reducible refine Only.with_boot ?_ rfl
    | with_reducible refine Only.with_mem ?_ rfl ?_
    | with_reducible refine Only.with_bw ?_ rfl
    | split
    | with_reducible refine Via.of rfl ?_

theorem State.warmFirmware_only {s : State} :
    Only [.draws, .clk, .boot, .log, .out, .dict, .flash, .vdp, .can, .ssp, .host, .cred, .mem, .seg, .bw, .diag, .sched, .grid, .fab, .ftf] s (State.warmFirmware s) := by
  unfold State.warmFirmware
  try dsimp -zeta -proj only [State.set_boot]
  repeat' first
    | with_reducible assumption
    | with_reducible exact Only.refl _ _
    | (lift_lets -underBinder; intro x; refine Only.gen (ps := [.draws, .clk, .boot, .log, .out, .dict, .flash, .vdp, .can, .ssp, .host, .cred, .mem, .seg, .bw, .diag, .sched, .grid, .fab, .ftf]) (s := s) (x := x) ?_ (fun hx => ?_); unfold x; rotate_left; clear_value x)
    | (intro x; refine Only.gen (ps := [.draws, .clk, .boot, .log, .out, .dict, .flash, .vdp, .can, .ssp, .host, .cred, .mem, .seg, .bw, .diag, .sched, .grid, .fab, .ftf]) (s := s) (x := x) ?_ (fun hx => ?_); unfold x; rotate_left; clear_value x)
    | (intro x)
    | with_reducible refine Only.ite (fun _ => ?_) (fun _ => ?_)
    | ((with_reducible apply Only.step State.logEvent_only); rfl)
    | ((with_reducible apply Only.step State.bootOn_only); rfl)
    | with_reducible refine Only.with_boot ?_ rfl

theorem execFirmwareReadDone_only {s : State} :
    Via inOut [.draws, .clk, .boot, .log, .out, .dict, .flash, .vdp, .can, .ssp, .host, .cred, .mem, .seg, .bw, .diag, .sched, .grid, .fab, .ftf] s (execFirmwareReadDone s) := by
  unfold execFirmwareReadDone
  repeat' first
    | with_reducible exact Only.refl _ _
    | ((with_reducible apply Only.step State.warmFirmware_only); rfl)
    | ((with_reducible apply Only.step State.coldFirmware_only); rfl)
    | split
    | with_reducible refine Via.of rfl ?_

theorem execRecoveryWriteBundle_only {window : List Sys2Proof.Byte} {written : Bool} {s : State} :
    Via inOut [.draws, .clk, .boot, .log, .out, .dict, .flash, .vdp, .can, .ssp, .host, .cred, .mem, .seg, .bw, .diag, .sched, .grid, .fab, .ftf] s (execRecoveryWriteBundle window written s) := by
  unfold execRecoveryWriteBundle
  repeat' first
    | with_reducible refine State.inRecovery_only rfl (fun _ _ => ?_) ?_
    | with_reducible assumption
    | with_reducible exact Only.refl _ _
    | (lift_lets -underBinder; intro x; refine Only.gen (ps := [.draws, .clk, .boot, .log, .out, .dict, .flash, .vdp, .can, .ssp, .host, .cred, .mem, .seg, .bw, .diag, .sched, .grid, .fab, .ftf]) (s := s) (x := x) ?_ (fun hx => ?_); unfold x; rotate_left; clear_value x)
    | ((with_reducible apply Only.step State.recoveryStatus_only); rfl)
    | ((with_reducible apply Only.step State.writeArea_only); rfl)
    | ((with_reducible apply Only.step State.bootOn_only); rfl)
    | ((with_reducible apply Only.step State.takeBundle_only); rfl)
    | split
    | with_reducible refine Via.of rfl ?_

theorem execRecoveryBootFirmware_only {window : List Sys2Proof.Byte} {s : State} :
    Via inOut [.draws, .clk, .boot, .log, .out, .dict, .flash, .vdp, .can, .ssp, .host, .cred, .mem, .seg, .bw, .diag, .sched, .grid, .fab, .ftf] s (execRecoveryBootFirmware window s) := by
  unfold execRecoveryBootFirmware
  repeat' first
    | with_reducible refine State.inRecovery_only rfl (fun _ _ => ?_) ?_
    | with_reducible assumption
    | with_reducible exact Only.refl _ _
    | ((with_reducible apply Only.step State.recoveryStatus_only); rfl)
    | ((with_reducible apply Only.step State.bootRecovered_only); rfl)
    | split
    | with_reducible refine Via.of rfl ?_

theorem execRecoveryTakeBundle_only {window : List Sys2Proof.Byte} {s : State} :
    Via inOut [.draws, .clk, .boot, .log, .out, .dict, .flash, .vdp, .can, .ssp, .host, .cred, .mem, .seg, .bw, .diag, .sched, .grid, .fab, .ftf] s (execRecoveryTakeBundle window s) := by
  unfold execRecoveryTakeBundle
  repeat' first
    | with_reducible refine State.inRecovery_only rfl (fun _ _ => ?_) ?_
    | with_reducible assumption
    | with_reducible exact Only.refl _ _
    | ((with_reducible apply Only.step State.recoveryStatus_only); rfl)
    | ((with_reducible apply Only.step State.bootOn_only); rfl)
    | ((with_reducible apply Only.step State.takeBundle_only); rfl)
    | split
    | with_reducible refine Via.of rfl ?_

end Sys2Proof.Machine
end

