-- ==== Sys2Proof/Laws/Only/Coolant.lean ====
section
/-! SUPPORT. What each operation of Machine/Coolant.lean may change. -/

namespace Sys2Proof.Machine

theorem execFlowStale_only {c : Fin 2} {s : State} :
    Via inOut [.log, .out, .can, .host, .ftf] s (execFlowStale c s) := by
  unfold execFlowStale
  repeat' first
    | with_reducible exact Only.refl _ _
    | ((with_reducible apply Only.step State.flowStale_only); rfl)
    | with_reducible refine Via.of rfl ?_

theorem execShotResult_only {c : Fin 2} {measured : Option Sys2Proof.ShotMeasure} {s : State} :
    Via inOut [.log, .out, .dict, .can, .host, .ftf] s (execShotResult c measured s) := by
  unfold execShotResult
  repeat' first
    | with_reducible exact Only.refl _ _
    | ((with_reducible apply Only.step State.shotEnds_only); rfl)
    | with_reducible refine Via.of rfl ?_

theorem execRingDownEnd_only {c : Fin 2} {s : State} :
    Via inOut [.ftf] s (execRingDownEnd c s) := by
  unfold execRingDownEnd
  repeat' first
    | with_reducible exact Only.refl _ _
    | ((with_reducible apply Only.step State.ringDownEnds_only); rfl)
    | with_reducible refine Via.of rfl ?_

theorem execNoFlowTimeout_only {s : State} :
    Via inOut [.dict] s (execNoFlowTimeout s) := by
  unfold execNoFlowTimeout
  repeat' first
    | with_reducible exact Only.refl _ _
    | ((with_reducible apply Only.step State.forceSafe_only); rfl)
    | split
    | with_reducible refine Via.of rfl ?_

theorem execRtdResult_only {r : Fin 2} {ref1 rtd ref2 : Option Nat} {s : State} :
    Via inOut [.ftf] s (execRtdResult r ref1 rtd ref2 s) := by
  unfold execRtdResult
  repeat' first
    | with_reducible exact Only.refl _ _
    | ((with_reducible apply Only.step State.rtdEnds_only); rfl)
    | with_reducible refine Via.of rfl ?_

theorem execShotStart_only {s : State} :
    Via inOut [.ftf] s (execShotStart s) := by
  unfold execShotStart
  repeat' first
    | with_reducible exact Only.refl _ _
    | ((with_reducible apply Only.step State.startNext_only); rfl)
    | with_reducible refine Via.of rfl ?_

end Sys2Proof.Machine
end

