-- ==== Sys2Proof/Laws/Only/Host.lean ====
section
/-! SUPPORT. What each operation of Machine/Host.lean may change. -/

namespace Sys2Proof.Machine

theorem execBurrowDrainEnd_only {b : Fin 64} {s : State} :
    Via inOut [.log, .out, .can, .host] s (execBurrowDrainEnd b s) := by
  unfold execBurrowDrainEnd
  repeat' first
    | with_reducible exact Only.refl _ _
    | ((with_reducible apply Only.step State.drainEnd_only); rfl)
    | with_reducible refine Via.of rfl ?_

theorem State.releaseCompletion_only {s : State} {c : Completion} :
    Only [.cred, .sched] s (State.releaseCompletion s c) := by
  unfold State.releaseCompletion
  repeat' first
    | with_reducible assumption
    | with_reducible exact Only.refl _ _
    | (lift_lets -underBinder; intro x; refine Only.gen (ps := [.cred, .sched]) (s := s) (x := x) ?_ (fun hx => ?_); unfold x; rotate_left; clear_value x)
    | ((with_reducible apply Only.step State.giveBack_only); rfl)
    | ((with_reducible apply Only.step State.dropCtx_only); rfl)
    | split

theorem State.countEntry_only {s : State} {b q : Nat} :
    Only [.out, .host] s (State.countEntry s b q) := by
  unfold State.countEntry
  repeat' first
    | with_reducible assumption
    | with_reducible exact Only.refl _ _
    | (lift_lets -underBinder; intro x)
    | (intro x; refine Only.gen (ps := [.out, .host]) (s := s) (x := x) ?_ (fun hx => ?_); unfold x; rotate_left; clear_value x)
    | (intro x)
    | with_reducible refine Only.ite (fun _ => ?_) (fun _ => ?_)
    | ((with_reducible apply Only.step State.setSlot_only); rfl)
    | ((with_reducible apply Only.step State.signal_only); rfl)

theorem State.postCompletion_only {s : State} {b q : Nat} :
    Only [.out, .host, .cred, .sched] s (State.postCompletion s b q) := by
  unfold State.postCompletion
  try dsimp -zeta -proj only [State.set_host]
  repeat' first
    | with_reducible assumption
    | with_reducible exact Only.refl _ _
    | (lift_lets -underBinder; intro x)
    | (intro x; refine Only.gen (ps := [.out, .host, .cred, .sched]) (s := s) (x := x) ?_ (fun hx => ?_); unfold x; rotate_left; clear_value x)
    | (intro x)
    | with_reducible refine Only.ite (fun _ => ?_) (fun _ => ?_)
    | ((with_reducible apply Only.step State.settleSlot_only); rfl)
    | ((with_reducible apply Only.step State.releaseCompletion_only); rfl)
    | ((with_reducible apply Only.step State.setBurrow_only); rfl)
    | ((with_reducible apply Only.step State.emit_only); rfl)
    | ((with_reducible apply Only.step State.setSlot_only); rfl)
    | ((with_reducible apply Only.step State.countEntry_only); rfl)
    | with_reducible refine Only.with_host ?_ rfl
    | split

theorem execCompletionWrite_only {b : Fin 64} {q : Fin 16} {s : State} :
    Via inOut [.out, .host, .cred, .sched] s (execCompletionWrite b q s) := by
  unfold execCompletionWrite
  repeat' first
    | with_reducible exact Only.refl _ _
    | ((with_reducible apply Only.step State.postCompletion_only); rfl)
    | with_reducible refine Via.of rfl ?_

theorem State.doorbellInvalid_only {s : State} {b q : Nat} :
    Only [.log, .out, .can, .host] s (State.doorbellInvalid s b q) := by
  unfold State.doorbellInvalid
  repeat' first
    | with_reducible exact Only.refl _ _
    | ((with_reducible apply Only.step State.logBurrow_only); rfl)
    | ((with_reducible apply Only.step State.flagBurrow_only); rfl)

theorem execSqTailDoorbell_only {byAlias : Bool} {b : Fin 64} {q : Fin 16} {value : Nat} {s : State} :
    Via inOut [.log, .out, .can, .host] s (execSqTailDoorbell byAlias b q value s) := by
  unfold execSqTailDoorbell
  repeat' first
    | with_reducible exact Only.refl _ _
    | (lift_lets -underBinder; intro x)
    | (intro x)
    | ((with_reducible apply Only.step State.doorbellInvalid_only); rfl)
    | ((with_reducible apply Only.step State.setSlot_only); rfl)
    | split
    | with_reducible refine Via.of rfl ?_

theorem execMsixVectorUnmask_only {fn : Fin 65} {vec : Fin 32} {addr data : Nat} {s : State} :
    Via inOut [.out, .host] s (execMsixVectorUnmask fn vec addr data s) := by
  unfold execMsixVectorUnmask
  try dsimp -zeta -proj only [State.set_host]
  repeat' first
    | with_reducible assumption
    | with_reducible exact Only.refl _ _
    | (lift_lets -underBinder; intro x)
    | (intro x; refine Only.gen (ps := [.out, .host]) (s := s) (x := x) ?_ (fun hx => ?_); unfold x; rotate_left; clear_value x)
    | (intro x)
    | ((with_reducible apply Only.step State.emit_only); rfl)
    | with_reducible refine Only.with_host ?_ rfl
    | split
    | with_reducible refine Via.of rfl ?_

theorem execAdmission_only {s : State} :
    Via inOut [.host, .cred] s (execAdmission s) := by
  unfold execAdmission
  repeat' first
    | with_reducible exact Only.refl _ _
    | ((with_reducible apply Only.step State.admissionStep_only); rfl)
    | with_reducible refine Via.of rfl ?_

theorem execVfEnableChange_only {enable : Bool} {numVfs : Nat} {s : State} :
    Via inOut [.log, .out, .can, .host, .cred, .sched, .grid, .fab] s (execVfEnableChange enable numVfs s) := by
  unfold execVfEnableChange
  repeat' first
    | with_reducible exact Only.refl _ _
    | ((with_reducible apply Only.step State.vfChange_only); rfl)
    | with_reducible refine Via.of rfl ?_

theorem execPfFlr_only {s : State} :
    Via inOut [.boot, .vdp, .host] s (execPfFlr s) := by
  unfold execPfFlr
  repeat' first
    | with_reducible exact Only.refl _ _
    | ((with_reducible apply Only.step State.pfFlr_only); rfl)
    | with_reducible refine Via.of rfl ?_

theorem execVfFlr_only {b : Fin 64} {s : State} :
    Via inOut [.log, .out, .can, .host, .cred, .sched, .grid, .fab] s (execVfFlr b s) := by
  unfold execVfFlr
  repeat' first
    | with_reducible exact Only.refl _ _
    | ((with_reducible apply Only.step State.vfFlr_only); rfl)
    | with_reducible refine Via.of rfl ?_

theorem execHostFetch_only {b : Fin 64} {q : Fin 16} {data : List Sys2Proof.Byte} {s : State} :
    Via inOut [.out, .host, .cred] s (execHostFetch b q data s) := by
  unfold execHostFetch
  repeat' first
    | with_reducible exact Only.refl _ _
    | ((with_reducible apply Only.step State.hostFetch_only); rfl)
    | with_reducible refine Via.of rfl ?_

theorem execCqHeadDoorbell_only {byAlias : Bool} {b : Fin 64} {q : Fin 16} {value : Nat} {s : State} :
    Via inOut [.log, .out, .can, .host] s (execCqHeadDoorbell byAlias b q value s) := by
  unfold execCqHeadDoorbell
  repeat' first
    | with_reducible exact Only.refl _ _
    | (lift_lets -underBinder; intro x)
    | (intro x)
    | ((with_reducible apply Only.step State.doorbellInvalid_only); rfl)
    | ((with_reducible apply Only.step State.setSlot_only); rfl)
    | split
    | with_reducible refine Via.of rfl ?_

theorem execQueueCreate_only {b : Fin 64} {q : Fin 16} {regs : Sys2Proof.SlotRegs} {s : State} :
    Via inOut [.host] s (execQueueCreate b q regs s) := by
  unfold execQueueCreate
  repeat' first
    | with_reducible exact Only.refl _ _
    | (lift_lets -underBinder; intro x)
    | ((with_reducible apply Only.step State.setSlot_only); rfl)
    | ((with_reducible apply Only.step State.createQueue_only); rfl)
    | split
    | with_reducible refine Via.of rfl ?_

theorem execCoalesceTimer_only {b : Fin 64} {q : Fin 16} {s : State} :
    Via inOut [.out, .host] s (execCoalesceTimer b q s) := by
  unfold execCoalesceTimer
  repeat' first
    | with_reducible exact Only.refl _ _
    | (lift_lets -underBinder; intro x)
    | ((with_reducible apply Only.step State.signal_only); rfl)
    | split
    | with_reducible refine Via.of rfl ?_

theorem execQueueDelete_only {b : Fin 64} {q : Fin 16} {s : State} :
    Via inOut [.out, .host, .cred] s (execQueueDelete b q s) := by
  unfold execQueueDelete
  repeat' first
    | with_reducible exact Only.refl _ _
    | (lift_lets -underBinder; intro x)
    | ((with_reducible apply Only.step State.deleteSlot_only); rfl)
    | ((with_reducible apply Only.step State.setSlot_only); rfl)
    | split
    | with_reducible refine Via.of rfl ?_

end Sys2Proof.Machine
end

