-- ==== Sys2Proof/Laws/Only/Reset.lean ====
section
/-! SUPPORT. What each operation of Machine/Reset.lean may change. -/

namespace Sys2Proof.Machine

theorem State.warmHost_only {s : State} :
    Only [.log, .out, .can, .host] s (State.warmHost s) := by
  unfold State.warmHost
  try dsimp -zeta -proj only [State.set_host]
  repeat' first
    | with_reducible assumption
    | with_reducible exact Only.refl _ _
    | (lift_lets -underBinder; intro x; refine Only.gen (ps := [.log, .out, .can, .host]) (s := s) (x := x) ?_ (fun hx => ?_); unfold x; rotate_left; clear_value x)
    | (intro x)
    | with_reducible refine Only.foldl (fun _ _ _ => ?_) ?_
    | with_reducible refine Only.ite (fun _ => ?_) (fun _ => ?_)
    | ((with_reducible apply Only.step State.resetVf_only); rfl)
    | ((with_reducible apply Only.step State.logBurrow_only); rfl)
    | ((with_reducible apply Only.step State.raise_only); rfl)
    | with_reducible refine Only.with_host ?_ rfl

theorem State.warmFtf_only {s : State} :
    Only [.ftf] s (State.warmFtf s) := by
  unfold State.warmFtf
  try dsimp -zeta -proj only [State.set_ftf]
  repeat' first
    | with_reducible exact Only.refl _ _
    | (lift_lets -underBinder; intro x)
    | (intro x)
    | with_reducible refine Only.with_ftf ?_ rfl

theorem State.warmCommon_only {s : State} {retain : Bool} :
    Only [.draws, .boot, .log, .out, .dict, .flash, .vdp, .can, .ssp, .host, .cred, .seg, .bw, .diag, .stash, .sched, .fab, .ftf] s (State.warmCommon s retain) := by
  unfold State.warmCommon
  try dsimp -zeta -proj only [State.set_boot_vdp_ssp_cred_seg_bw_stash_sched_fab , State.set_dict , State.set_boot , State.set_vdp , State.set_ssp , State.set_cred , State.set_seg , State.set_bw , State.set_stash , State.set_sched , State.set_fab]
  repeat' first
    | with_reducible assumption
    | with_reducible exact Only.refl _ _
    | (lift_lets -underBinder; intro x; refine Only.gen (ps := [.draws, .boot, .log, .out, .dict, .flash, .vdp, .can, .ssp, .host, .cred, .seg, .bw, .diag, .stash, .sched, .fab, .ftf]) (s := s) (x := x) ?_ (fun hx => ?_); unfold x; rotate_left; clear_value x)
    | (intro x; refine Only.gen (ps := [.draws, .boot, .log, .out, .dict, .flash, .vdp, .can, .ssp, .host, .cred, .seg, .bw, .diag, .stash, .sched, .fab, .ftf]) (s := s) (x := x) ?_ (fun hx => ?_); unfold x; rotate_left; clear_value x)
    | (intro x)
    | with_reducible refine Only.foldl (fun _ _ _ => ?_) ?_
    | ((with_reducible apply Only.step State.stopGenerator_only); rfl)
    | ((with_reducible apply Only.step State.breakStore_only); rfl)
    | ((with_reducible apply Only.step State.warmHost_only); rfl)
    | ((with_reducible apply Only.step State.warmFtf_only); rfl)
    | ((with_reducible apply Only.step State.react_only); rfl)
    | with_reducible refine Only.with_dict ?_ rfl
    | with_reducible refine Only.with_boot ?_ rfl
    | with_reducible refine Only.with_vdp ?_ rfl
    | with_reducible refine Only.with_ssp ?_ rfl
    | with_reducible refine Only.with_cred ?_ rfl
    | with_reducible refine Only.with_seg ?_ rfl
    | with_reducible refine Only.with_bw ?_ rfl
    | with_reducible refine Only.with_stash ?_ rfl
    | with_reducible refine Only.with_sched ?_ rfl
    | with_reducible refine Only.with_fab ?_ rfl

theorem State.warmEmptied_only {s : State} :
    Only [.cred, .mem, .seg, .colls, .grid, .fab, .pay] s (State.warmEmptied s) := by
  unfold State.warmEmptied
  try dsimp -zeta -proj only [State.set_mem_seg_colls_grid_pay , State.set_mem , State.set_seg , State.set_colls , State.set_grid , State.set_pay]
  repeat' first
    | exact fun _ _ => rfl
    | exact fun _ _ e he => absurd he (List.not_mem_nil)
    | with_reducible assumption
    | with_reducible exact Only.refl _ _
    | (lift_lets -underBinder; intro x)
    | (intro x; refine Only.gen (ps := [.cred, .mem, .seg, .colls, .grid, .fab, .pay]) (s := s) (x := x) ?_ (fun hx => ?_); unfold x; rotate_left; clear_value x)
    | (intro x)
    | with_reducible refine Only.foldl (fun _ _ _ => ?_) ?_
    | ((with_reducible apply Only.step State.ctrlAll_only); rfl)
    | with_reducible refine Only.with_mem ?_ rfl ?_
    | with_reducible refine Only.with_seg ?_ rfl
    | with_reducible refine Only.with_colls ?_ rfl
    | with_reducible refine Only.with_grid ?_ rfl ?_
    | with_reducible refine Only.with_pay ?_ rfl

theorem execPcieHotReset_only {s : State} :
    Via inOut [.boot, .log, .out, .vdp, .can, .host, .cred, .sched, .grid, .fab] s (execPcieHotReset s) := by
  unfold execPcieHotReset
  repeat' first
    | with_reducible exact Only.refl _ _
    | ((with_reducible apply Only.step State.pfFlr_only); rfl)
    | ((with_reducible apply Only.step State.vfChange_only); rfl)
    | with_reducible refine Via.of rfl ?_

theorem execWatchdog_only {s : State} :
    Via inOut [.boot, .log, .out, .can, .host, .cred, .sched, .grid, .fab] s (execWatchdog s) := by
  unfold execWatchdog
  try dsimp -zeta -proj only [State.set_boot]
  repeat' first
    | with_reducible assumption
    | with_reducible exact Only.refl _ _
    | (lift_lets -underBinder; intro x; refine Only.gen (ps := [.boot, .log, .out, .can, .host, .cred, .sched, .grid, .fab]) (s := s) (x := x) ?_ (fun hx => ?_); unfold x; rotate_left; clear_value x)
    | (intro x)
    | ((with_reducible apply Only.step State.triggerWarm_only); rfl)
    | with_reducible refine Only.with_boot ?_ rfl
    | split
    | with_reducible refine Via.of rfl ?_

theorem execWarmRstN_only {s : State} :
    Via inOut [.boot, .log, .out, .can, .host, .cred, .sched, .grid, .fab] s (execWarmRstN s) := by
  unfold execWarmRstN
  repeat' first
    | with_reducible exact Only.refl _ _
    | ((with_reducible apply Only.step State.triggerWarm_only); rfl)
    | split
    | with_reducible refine Via.of rfl ?_

theorem State.warmRetained_only {s : State} :
    Only [.seg, .colls, .grid, .pay] s (State.warmRetained s) := by
  unfold State.warmRetained
  try dsimp -zeta -proj only [State.set_seg_colls_grid , State.set_seg , State.set_colls , State.set_grid , State.set_pay]
  repeat' first
    | exact fun _ k e he => by obtain ⟨e', h1, rfl⟩ := List.mem_map.mp he; exact k e' h1
    | with_reducible assumption
    | with_reducible exact Only.refl _ _
    | (lift_lets -underBinder; intro x)
    | (intro x; refine Only.gen (ps := [.seg, .colls, .grid, .pay]) (s := s) (x := x) ?_ (fun hx => ?_); unfold x; rotate_left; clear_value x)
    | (intro x)
    | with_reducible refine Only.foldl (fun _ _ _ => ?_) ?_
    | ((with_reducible apply Only.step State.freeGranules_only); rfl)
    | ((with_reducible apply Only.step State.clearBlocks_only); rfl)
    | ((with_reducible apply Only.step State.recount_only); rfl)
    | with_reducible refine Only.with_seg ?_ rfl
    | with_reducible refine Only.with_colls ?_ rfl
    | with_reducible refine Only.with_grid ?_ rfl ?_
    | with_reducible refine Only.with_pay ?_ rfl

theorem State.warmReset_only {s : State} {retain : Bool} :
    Only [.draws, .boot, .log, .out, .dict, .flash, .vdp, .can, .ssp, .host, .cred, .mem, .seg, .bw, .diag, .colls, .stash, .sched, .grid, .fab, .pay, .ftf] s (State.warmReset s retain) := by
  unfold State.warmReset
  repeat' first
    | with_reducible assumption
    | with_reducible exact Only.refl _ _
    | (lift_lets -underBinder; intro x; refine Only.gen (ps := [.draws, .boot, .log, .out, .dict, .flash, .vdp, .can, .ssp, .host, .cred, .mem, .seg, .bw, .diag, .colls, .stash, .sched, .grid, .fab, .pay, .ftf]) (s := s) (x := x) ?_ (fun hx => ?_); unfold x; rotate_left; clear_value x)
    | with_reducible refine Only.ite (fun _ => ?_) (fun _ => ?_)
    | ((with_reducible apply Only.step State.warmCommon_only); rfl)
    | ((with_reducible apply Only.step State.warmRetained_only); rfl)
    | ((with_reducible apply Only.step State.warmEmptied_only); rfl)

theorem execWarmResetExecute_only {s : State} :
    Via inOut [.draws, .boot, .log, .out, .dict, .flash, .vdp, .can, .ssp, .host, .cred, .mem, .seg, .bw, .diag, .colls, .stash, .sched, .grid, .fab, .pay, .ftf] s (execWarmResetExecute s) := by
  unfold execWarmResetExecute
  repeat' first
    | with_reducible exact Only.refl _ _
    | ((with_reducible apply Only.step State.warmReset_only); rfl)
    | split
    | with_reducible refine Via.of rfl ?_

theorem reset_governorLegal : State.reset.governorLegal := ⟨by decide, by decide, by decide, rfl⟩

theorem execColdRstNAsserted_only {s : State} :
    Via inOut [.clk, .boot, .log, .dict, .vdp, .can, .ssp, .host, .cred, .mem, .seg, .bw, .diag, .colls, .stash, .sched, .grid, .fab, .pay, .ftf, .gov] s (execColdRstNAsserted s) := by
  refine Via.of rfl ⟨⟨rfl, fun p hp => ?_⟩, fun p hp => ?_⟩
  · cases p <;> first | rfl | exact absurd hp (by decide)
  · cases p <;> first | exact hp | trivial | rfl | exact fun e he => absurd he List.not_mem_nil | exact reset_governorLegal

end Sys2Proof.Machine
end

