-- ==== Sys2Proof/Laws/Frames.lean ====
section
/-! SUPPORT. What a command may change: the lemmas of Laws/Only/ over every constructor. -/

namespace Sys2Proof.Machine

/-- Every command changes only the parts of its footprint and keeps every part's invariant. -/
theorem exec_only {c : Instr} {s : State} : Via inOut (footprint c) s (exec c s) := by
  cases c with
  | sqTailDoorbell => exact execSqTailDoorbell_only
  | cqHeadDoorbell => exact execCqHeadDoorbell_only
  | queueCreate => exact execQueueCreate_only
  | queueDelete => exact execQueueDelete_only
  | hostFetch => exact execHostFetch_only
  | hostReadError => exact execHostReadError_only
  | admission => exact execAdmission_only
  | query => exact execQuery_only
  | insert => exact execInsert_only
  | delete => exact execDelete_only
  | upsert => exact execUpsert_only
  | select => exact execSelect_only
  | payloadRead => exact execPayloadRead_only
  | payloadWrite => exact execPayloadWrite_only
  | fence => exact execFence_only
  | fenceComplete => exact execFenceComplete_only
  | collectionCreate => exact execCollectionCreate_only
  | collectionDrop => exact execCollectionDrop_only
  | compact => exact execCompact_only
  | loadLists => exact execLoadLists_only
  | snapshotExport => exact execSnapshotExport_only
  | programLoad => exact execProgramLoad_only
  | completionWrite => exact execCompletionWrite_only
  | coalesceTimer => exact execCoalesceTimer_only
  | msixVectorUnmask => exact execMsixVectorUnmask_only
  | burrowEnable => exact execBurrowEnable_only
  | vfFlr => exact execVfFlr_only
  | pfFlr => exact execPfFlr_only
  | vfEnableChange => exact execVfEnableChange_only
  | burrowDrainEnd => exact execBurrowDrainEnd_only
  | stampReq => exact execStampReq_only
  | stampRsp => exact execStampRsp_only
  | queryDispatch => exact execQueryDispatch_only
  | rankingMerge => exact execRankingMerge_only
  | listIssue => exact execListIssue_only
  | segmentDelivery => exact execSegmentDelivery_only
  | needMask => exact execNeedMask_only
  | sorterPost => exact execSorterPost_only
  | waveEnd => exact execWaveEnd_only
  | queryDeadline => exact execQueryDeadline_only
  | resultWrite => exact execResultWrite_only
  | waveReq => exact execWaveReq_only
  | waveRsp => exact execWaveRsp_only
  | release => exact execRelease_only
  | remoteStateTimeout => exact execRemoteStateTimeout_only
  | requestLost => exact execRequestLost_only
  | mutationHandoff => exact execMutationHandoff_only
  | mutFwd => exact execMutFwd_only
  | mutRsp => exact execMutRsp_only
  | sequencerAccept => exact execSequencerAccept_only
  | stashWrite => exact execStashWrite_only
  | killWrite => exact execKillWrite_only
  | stashAck => exact execStashAck_only
  | killAck => exact execKillAck_only
  | revoke => exact execRevoke_only
  | revokeAck => exact execRevokeAck_only
  | stashFlush => exact execStashFlush_only
  | compactTriggerEval => exact execCompactTriggerEval_only
  | compactCopyDone => exact execCompactCopyDone_only
  | collCtrlPrepare => exact execCollCtrlPrepare_only
  | collCtrlFlip => exact execCollCtrlFlip_only
  | ctrlAck => exact execCtrlAck_only
  | collCtrlCreate => exact execCollCtrlCreate_only
  | collCtrlDrop => exact execCollCtrlDrop_only
  | collCtrlScrubState => exact execCollCtrlScrubState_only
  | collCtrlLoadPrepare => exact execCollCtrlLoadPrepare_only
  | collCtrlLoadAbandon => exact execCollCtrlLoadAbandon_only
  | collCtrlLost => exact execCollCtrlLost_only
  | segmentFree => exact execSegmentFree_only
  | startupScrub => exact execStartupScrub_only
  | listPull => exact execListPull_only
  | listData => exact execListData_only
  | imagePull => exact execImagePull_only
  | imageData => exact execImageData_only
  | refused => exact execRefused_only
  | hbmReadDone => exact execHbmReadDone_only
  | patrolScrub => exact execPatrolScrub_only
  | pageOutStart => exact execPageOutStart_only
  | pageOutDone => exact execPageOutDone_only
  | pageInStart => exact execPageInStart_only
  | pageInDone => exact execPageInDone_only
  | pcRetired => exact execPcRetired_only
  | retirePc => exact execRetirePc_only
  | evacuationCopyDone => exact execEvacuationCopyDone_only
  | tokenRefill => exact execTokenRefill_only
  | tokenCharge => exact execTokenCharge_only
  | guaranteeWrite => exact execGuaranteeWrite_only
  | generatorStart => exact execGeneratorStart_only
  | generatorStop => exact execGeneratorStop_only
  | generatorDone => exact execGeneratorDone_only
  | readSpareResources => exact execReadSpareResources_only
  | softRepair => exact execSoftRepair_only
  | clearSoftRepairs => exact execClearSoftRepairs_only
  | hardRepairWrite => exact execHardRepairWrite_only
  | portEnable => exact execPortEnable_only
  | linkFlit => exact execLinkFlit_only
  | dataFlit => exact execDataFlit_only
  | nak => exact execNak_only
  | replayTimeout => exact execReplayTimeout_only
  | retraining => exact execRetraining_only
  | retrainDone => exact execRetrainDone_only
  | retrainTimeout => exact execRetrainTimeout_only
  | linkUpRetry => exact execLinkUpRetry_only
  | portDrainEnd => exact execPortDrainEnd_only
  | messageForward => exact execMessageForward_only
  | bind => exact execBind_only
  | bindAck => exact execBindAck_only
  | bindRefuse => exact execBindRefuse_only
  | tableImageWrite => exact execTableImageWrite_only
  | queryIn => exact execQueryIn_only
  | metaEvent => exact execMetaEvent_only
  | vec => exact execVec_only
  | pblock => exact execPblock_only
  | retire => exact execRetire_only
  | msgEvent => exact execMsgEvent_only
  | qsel => exact execQsel_only
  | xdot => exact execXdot_only
  | xdsq => exact execXdsq_only
  | xrd32 => exact execXrd32_only
  | xrd64 => exact execXrd64_only
  | xastat => exact execXastat_only
  | xfop => exact execXfop_only
  | xf32 => exact execXf32_only
  | xfmvDx => exact execXfmvDx_only
  | xfmvXd => exact execXfmvXd_only
  | xfcmp => exact execXfcmp_only
  | xkey => exact execXkey_only
  | xfcv => exact execXfcv_only
  | xpass => exact execXpass_only
  | xpclr => exact execXpclr_only
  | xpost => exact execXpost_only
  | xmsend => exact execXmsend_only
  | xmrecv => exact execXmrecv_only
  | kernelTimeLimit => exact execKernelTimeLimit_only
  | tileReset => exact execTileReset_only
  | tileResetExecute => exact execTileResetExecute_only
  | selectRoundEnd => exact execSelectRoundEnd_only
  | selectDeadline => exact execSelectDeadline_only
  | payloadGranuleFree => exact execPayloadGranuleFree_only
  | vdpRead => exact execVdpRead_only
  | vdpWrite => exact execVdpWrite_only
  | vdpSegment => exact execVdpSegment_only
  | vdpAbort => exact execVdpAbort_only
  | vdpTransferTimeout => exact execVdpTransferTimeout_only
  | mailboxClear => exact execMailboxClear_only
  | dictionaryWrite => exact execDictionaryWrite_only
  | storeBase => exact execStoreBase_only
  | pendingStoreStart => exact execPendingStoreStart_only
  | restoreDefaults => exact execRestoreDefaults_only
  | modeRequest => exact execModeRequest_only
  | quietPoint => exact execQuietPoint_only
  | lockAll => exact execLockAll_only
  | clearOverlay => exact execClearOverlay_only
  | deltaEnable => exact execDeltaEnable_only
  | calendarTimeWrite => exact execCalendarTimeWrite_only
  | calendarCommit => exact execCalendarCommit_only
  | calendarSecond => exact execCalendarSecond_only
  | clearLog => exact execClearLog_only
  | warmResetRetain => exact execWarmResetRetain_only
  | warmResetNoRetain => exact execWarmResetNoRetain_only
  | auditNow => exact execAuditNow_only
  | creditAudit => exact execCreditAudit_only
  | canBusOff => exact execCanBusOff_only
  | canBusRecover => exact execCanBusRecover_only
  | canHeartbeat => exact execCanHeartbeat_only
  | canSettingsApply => exact execCanSettingsApply_only
  | sspGo => exact execSspGo_only
  | sspFrameDone => exact execSspFrameDone_only
  | sspSelectFall => exact execSspSelectFall_only
  | sspSelectRise => exact execSspSelectRise_only
  | nop => exact execNop_only
  | read => exact execRead_only
  | write => exact execWrite_only
  | stage => exact execStage_only
  | writeStaged => exact execWriteStaged_only
  | length => exact execLength_only
  | ident => exact execIdent_only
  | enum => exact execEnum_only
  | sspStall => exact execSspStall_only
  | coldResetRelease => exact execColdResetRelease_only
  | pllLockRetry => exact execPllLockRetry_only
  | perstDeassert => exact execPerstDeassert_only
  | firmwareReadDone => exact execFirmwareReadDone_only
  | configLoad => exact execConfigLoad_only
  | bundleLoad => exact execBundleLoad_only
  | hbmTrainingDone => exact execHbmTrainingDone_only
  | bootComplete => exact execBootComplete_only
  | recoveryBootFirmware => exact execRecoveryBootFirmware_only
  | recoveryWriteFirmware => exact execRecoveryWriteFirmware_only
  | recoveryTakeBundle => exact execRecoveryTakeBundle_only
  | recoveryWriteBundle => exact execRecoveryWriteBundle_only
  | warmRstN => exact execWarmRstN_only
  | watchdog => exact execWatchdog_only
  | warmResetExecute => exact execWarmResetExecute_only
  | pcieHotReset => exact execPcieHotReset_only
  | shotUp => exact execShotUp_only
  | shotDown => exact execShotDown_only
  | shotStart => exact execShotStart_only
  | shotResult => exact execShotResult_only
  | flowStale => exact execFlowStale_only
  | ringDownEnd => exact execRingDownEnd_only
  | rtdConvert => exact execRtdConvert_only
  | rtdResult => exact execRtdResult_only
  | flowChannelEnable => exact execFlowChannelEnable_only
  | zeroCalibrate => exact execZeroCalibrate_only
  | noFlowTimeout => exact execNoFlowTimeout_only
  | governorSample => exact execGovernorSample_only
  | mclkStepDone => exact execMclkStepDone_only
  | vrCorrection => exact execVrCorrection_only
  | governorSafe => exact execGovernorSafe_only
  | governorCauseClear => exact execGovernorCauseClear_only
  | coldRstNAsserted => exact execColdRstNAsserted_only
  | idleFlit => exact execIdleFlit_only
  | phyTrained => exact execPhyTrained_only
  | goWhileBusy => exact execGoWhileBusy_only
  | canBusError => exact execCanBusError_only
  | hardRepairCheckDone => exact execHardRepairCheckDone_only
  | rv32imcInstruction => exact execRv32imcInstruction_only

/-- A command that answers a state with a property runs, in its frame. -/
theorem Runs.of {c : Instr} {s t : State} {p : State → Prop} (h : exec c s = .next t) (k : p t) : Runs c s p :=
  ⟨t, h, k, (exec_only.only t (by rw [h])).frame⟩

end Sys2Proof.Machine
end

