-- ==== Sys2Proof/Laws/Segments.lean ====
section
/-! SUPPORT. What the settling of system-area frames and the check of the segment law leave of the Segment Manager. -/

namespace Sys2Proof.Machine

/-- A system-area frame's replacement changes only which frame replaces it and the counts of the pool. -/
theorem State.replaceFrame_seg {s : State} {f : Nat} :
    (s.replaceFrame f).seg = { s.seg with replaced := (s.replaceFrame f).seg.replaced, free := (s.replaceFrame f).seg.free
                                          total := (s.replaceFrame f).seg.total } := by
  unfold State.replaceFrame
  split <;> rfl

theorem State.replaceScratch_seg {s : State} {x : Nat} :
    (s.replaceScratch x).seg = { s.seg with replaced := (s.replaceScratch x).seg.replaced, free := (s.replaceScratch x).seg.free
                                            total := (s.replaceScratch x).seg.total } := by
  unfold State.replaceScratch
  split
  · refine List.foldlRecOn (motive := fun t : State => t.seg = { s.seg with replaced := t.seg.replaced, free := t.seg.free, total := t.seg.total }) _ _ rfl ?_
    intro t h f _
    rw [State.replaceFrame_seg, h]
  · rfl

theorem State.replaceAll_seg {s : State} :
    s.replaceAll.seg = { s.seg with replaced := s.replaceAll.seg.replaced, free := s.replaceAll.seg.free, total := s.replaceAll.seg.total } := by
  unfold State.replaceAll
  refine List.foldlRecOn (motive := fun t : State => t.seg = { s.seg with replaced := t.seg.replaced, free := t.seg.free, total := t.seg.total }) _ _ ?_ ?_
  · refine List.foldlRecOn (motive := fun t : State => t.seg = { s.seg with replaced := t.seg.replaced, free := t.seg.free, total := t.seg.total }) _ _ rfl ?_
    intro t h f _
    rw [State.replaceFrame_seg, h]
  · intro t h x _
    rw [State.replaceScratch_seg, h]

/-- The audit changes only whether allocation is frozen. -/
theorem State.segmentAudit_seg {s : State} : s.segmentAudit.seg = { s.seg with frozen := s.segmentAudit.seg.frozen } := by
  unfold State.segmentAudit
  split
  · rfl
  · simp only [State.logEvent_eq, State.logFrom_seg]

theorem State.settleFrames_seg {s : State} :
    s.settleFrames.seg = { s.seg with replaced := s.settleFrames.seg.replaced, free := s.settleFrames.seg.free
                                      total := s.settleFrames.seg.total, frozen := s.settleFrames.seg.frozen } := by
  unfold State.settleFrames
  rw [State.segmentAudit_seg, State.replaceAll_seg]

@[simp] theorem State.settleFrames_map {s : State} : s.settleFrames.seg.map = s.seg.map := by rw [State.settleFrames_seg]
@[simp] theorem State.settleFrames_seg_ {s : State} {n : Nat} : s.settleFrames.seg_ n = s.seg_ n := by
  unfold State.seg_
  rw [State.settleFrames_map]
@[simp] theorem State.settleFrames_quarantine {s : State} : s.settleFrames.seg.quarantine = s.seg.quarantine := by rw [State.settleFrames_seg]
@[simp] theorem State.settleFrames_retired {s : State} : s.settleFrames.seg.retired = s.seg.retired := by rw [State.settleFrames_seg]
@[simp] theorem State.settleFrames_corrected {s : State} : s.settleFrames.seg.corrected = s.seg.corrected := by rw [State.settleFrames_seg]
@[simp] theorem State.settleFrames_patrolled {s : State} : s.settleFrames.seg.patrolled = s.seg.patrolled := by rw [State.settleFrames_seg]

end Sys2Proof.Machine
end

