-- ==== Sys2Proof/Tests/Slice0.lean ====
section
/-! SUPPORT. Tests of the model: well-formedness, single steps on small states, and for every statement a state and operands that meet its
hypotheses, clause by clause. -/

namespace Sys2Proof.Tests

open Sys2Proof Sys2Proof.Machine

set_option Elab.async false

/-! ## Small states -/

/-- A device in service at position 0, with every virtual function present and burrow 0 enabled. -/
def up : State := { State.reset with
  boot := { State.reset.boot with coldHeld := false, perstHeld := false, hostUp := true, stage := 7, position := some 0 }
  host := { vfEnable := true, numVfs := 64, burrows := [(0, { state := .enabled })] } }

/-- A live queue slot of four entries each way. -/
def liveSlot : QSlot := { regs := { sqBase := 4096, cqBase := 8192, sqEntries := 4, cqEntries := 4, cls := 2, vector := 31 }, status := .live }

/-- The device with queue 0 of burrow 0 live. -/
def queued : State := up.setSlot 0 0 liveSlot

/-- The next state, if there is one. -/
def next? (o : Host.Outcome State Fault Refusal) : Option State :=
  match o with
  | .next t => some t
  | _ => none

/-- What a message's taker takes. -/
def taken (o : Option (List Byte × State)) : State := (o.getD ([], up)).2

/-- A state in which an object of the base layer has a value. -/
def given (s : State) (ix sub : Nat) (v : List Byte) : State :=
  { s with dict := { s.dict with base := Map.put s.dict.base (objKey ix sub) v } }

/-- The device at a stage of the boot. -/
def staged (n : Nat) : State := { up with boot := { up.boot with stage := n, firmwareOk := true } }

/-- What an option holds, where it holds something. -/
theorem getD_self {α : Type} {o : Option α} (h : o.isSome = true) (d : α) : o = some (o.getD d) := by
  cases o with
  | none => cases h
  | some x => rfl

/-- CRC-32C with each byte's value computed before the next: the form the kernel evaluates at once. -/
def crcStrict : List Byte → Nat → Nat
  | [], c => c
  | b :: bs, c =>
    match crcByte c b with
    | 0 => crcStrict bs 0
    | n + 1 => crcStrict bs (n + 1)

theorem crc32c_eq (bs : List Byte) : crc32c bs = crcStrict bs 0xFFFFFFFF ^^^ 0xFFFFFFFF := by
  have : ∀ c, bs.foldl crcByte c = crcStrict bs c := by
    induction bs with
    | nil => intro c; rfl
    | cons b bs ih =>
      intro c
      unfold crcStrict
      show bs.foldl crcByte (crcByte c b) = _
      rw [ih]
      split <;> rename_i h <;> rw [h]
  unfold crc32c
  rw [this]

/-! ## A state and operands that meet the hypotheses of each statement, clause by clause -/

/-- Its hypotheses can be met, clause by clause. -/
theorem witness_StepRunsTheFrontCommand :
    ∃ (c : Instr) (rest : List Instr) (s : State), s.pending = c :: rest :=
  ⟨.admission, [.query], { up with pending := [.admission, .query] }, (by decide +kernel)⟩

/-- Its hypotheses can be met, clause by clause. -/
theorem witness_IdleStepCountsAMicrosecond :
    ∃ (s : State), s.pending = [] :=
  ⟨up, (by decide +kernel)⟩

/-- Its hypotheses can be met, clause by clause. -/
theorem witness_EveryCommandCompletes :
    ∃ (c : Instr), (∀ f b r, c ≠ .hbmReadDone f b r) ∧ (∀ f b r, c ≠ .patrolScrub f b r) :=
  ⟨.admission, (fun _ _ _ h => by cases h), (fun _ _ _ h => by cases h)⟩

/-- Its hypotheses can be met, clause by clause. -/
theorem witness_ReadsOutsideHbmFault :
    ∃ (f : Nat) (b : Nat), (Config.frames ≤ f ∨ 2048 ≤ b) :=
  ⟨Config.frames, 0, (by decide +kernel)⟩

/-- Its hypotheses can be met, clause by clause. -/
theorem witness_StepKeepsMemoryCanonical :
    ∃ (s : State) (t : State), s.memoryCanonical ∧ step s = .next t :=
  ⟨{ up with pending := [.admission] }, (next? (step { up with pending := [.admission] })).getD up,
    (by unfold State.memoryCanonical; decide +kernel), (by rfl)⟩

/-- Its hypotheses can be met, clause by clause. -/
theorem witness_StepKeepsGovernorLevels :
    ∃ (s : State) (t : State), s.governorLegal ∧ step s = .next t :=
  ⟨{ up with pending := [.admission] }, (next? (step { up with pending := [.admission] })).getD up, (by unfold State.governorLegal; decide +kernel),
    (by rfl)⟩

/-- Its hypotheses can be met, clause by clause. -/
theorem witness_StepKeepsLogBounded :
    ∃ (s : State) (t : State), s.logBounded ∧ step s = .next t :=
  ⟨{ up with pending := [.admission] }, (next? (step { up with pending := [.admission] })).getD up, (by unfold State.logBounded; decide +kernel),
    (by rfl)⟩

/-- Its hypotheses can be met, clause by clause. -/
theorem witness_DoorbellsMoveTheirQueue :
    (∃ (al : Bool) (b : Fin 64) (q : Fin 16) (v : Nat) (s : State) (sl : QSlot), s.slot b q = sl ∧ s.doorbellReaches al b = true ∧ sl.status = .live
      ∧ v % 65536 < sl.regs.sqEntries
      ∧ (sl.tail + sl.regs.sqEntries - sl.sqHead) % sl.regs.sqEntries ≤ (v % 65536 + sl.regs.sqEntries - sl.sqHead) % sl.regs.sqEntries)
    ∧ (∃ (al : Bool) (b : Fin 64) (q : Fin 16) (v : Nat) (s : State) (sl : QSlot), s.slot b q = sl ∧ s.doorbellReaches al b = true
      ∧ sl.status ≠ .absent ∧ sl.status ≠ .refused ∧ v % 65536 < sl.regs.cqEntries
      ∧ (v % 65536 + sl.regs.cqEntries - sl.cqHead) % sl.regs.cqEntries ≤ (sl.cqTail + sl.regs.cqEntries - sl.cqHead) % sl.regs.cqEntries) :=
  ⟨⟨false, 0, 0, 3, queued, liveSlot, (by decide +kernel), (by decide +kernel), (by decide +kernel), (by decide +kernel), (by decide +kernel)⟩,
    ⟨false, 0, 0, 3, up.setSlot 0 0 { liveSlot with cqTail := 3 }, { liveSlot with cqTail := 3 }, (by decide +kernel), (by decide +kernel),
      (by decide +kernel), (by decide +kernel), (by decide +kernel), (by decide +kernel)⟩⟩

/-- Its hypotheses can be met, clause by clause. -/
theorem witness_InvalidDoorbellsAreFlagged :
    (∃ (al : Bool) (b : Fin 64) (q : Fin 16) (v : Nat) (s : State) (sl : QSlot), s.slot b q = sl ∧ s.doorbellReaches al b = true
      ∧ (sl.status ≠ .live ∨ sl.regs.sqEntries ≤ v % 65536 ∨ (v % 65536 + sl.regs.sqEntries - sl.sqHead) % sl.regs.sqEntries < (sl.tail + sl.regs.sqEntries - sl.sqHead) % sl.regs.sqEntries))
    ∧ (∃ (al : Bool) (b : Fin 64) (q : Fin 16) (v : Nat) (s : State) (sl : QSlot), s.slot b q = sl ∧ s.doorbellReaches al b = true
      ∧ (sl.status = .absent ∨ sl.status = .refused ∨ sl.regs.cqEntries ≤ v % 65536 ∨ (sl.cqTail + sl.regs.cqEntries - sl.cqHead) % sl.regs.cqEntries < (v % 65536 + sl.regs.cqEntries - sl.cqHead) % sl.regs.cqEntries)) :=
  ⟨⟨false, 0, 0, 4, queued, liveSlot, (by decide +kernel), (by decide +kernel), (by decide +kernel)⟩,
    ⟨false, 0, 0, 1, queued, liveSlot, (by decide +kernel), (by decide +kernel), (by decide +kernel)⟩⟩

/-- Its hypotheses can be met, clause by clause. -/
theorem witness_QueueCreateMakesALiveSlot :
    ∃ (b : Fin 64) (q : Fin 16) (r : SlotRegs) (s : State), s.vfReachable b = true
      ∧ ((s.slot b q).status = .absent ∨ (s.slot b q).status = .refused) ∧ (s.burrow b).state = .enabled ∧ r.sqBase % 4096 = 0 ∧ r.cqBase % 4096 = 0
      ∧ 2 ≤ r.sqEntries ∧ r.sqEntries ≤ 4096 ∧ 2 ≤ r.cqEntries ∧ r.cqEntries ≤ 4096
      ∧ (((List.range 16).filter fun p => p != q.val && (s.slot b p).status == .live).length < s.cfg (burrowIndex b) 3) ∧ r.cls ≤ 3
      ∧ (r.cls = 0 → (s.cfg (burrowIndex b) 7).testBit 2 = true) ∧ r.vector ≤ 31 ∧ r.coalesceTime ≤ 10000 :=
  ⟨0, 15, { sqBase := 4096, cqBase := 8192, sqEntries := 4096, cqEntries := 2, cls := 3, vector := 31, coalesceTime := 10000 }, up,
    (by decide +kernel), (by decide +kernel), (by decide +kernel), (by decide +kernel), (by decide +kernel), (by decide +kernel), (by decide +kernel),
    (by decide +kernel), (by decide +kernel), (by decide +kernel), (by decide +kernel), (fun h => absurd h (by decide)), (by decide +kernel),
    (by decide +kernel)⟩

/-- Its hypotheses can be met, clause by clause. -/
theorem witness_QueueDeleteEmptiesAnIdleSlot :
    ∃ (b : Fin 64) (q : Fin 16) (s : State), s.vfReachable b = true ∧ (s.slot b q).status = .live ∧ (s.slot b q).pendingCreate = false
      ∧ s.queueIdle b q = true :=
  ⟨0, 0, queued, (by decide +kernel), (by decide +kernel), (by decide +kernel), (by decide +kernel)⟩

/-- Its hypotheses can be met, clause by clause. -/
theorem witness_HostFetchTakesOneCommand :
    ∃ (b : Fin 64) (q : Fin 16) (data : List Byte) (s : State) (sl : QSlot) (n : Nat), s.slot b q = sl ∧ entriesOf data = n ∧ s.vfPresent b = true
      ∧ (s.burrow b).state = .enabled ∧ sl.status = .live ∧ 1 ≤ n ∧ data.length = 128 * n ∧ n ≤ sl.regs.sqEntries - 1
      ∧ n ≤ (sl.tail + sl.regs.sqEntries - sl.sqHead) % sl.regs.sqEntries ∧ s.used 0x01 0 + n ≤ Config.fetchSlots :=
  ⟨0, 0, 0x11 :: List.replicate 127 0, up.setSlot 0 0 { liveSlot with tail := 1 }, { liveSlot with tail := 1 }, 1, (by decide +kernel),
    (by decide +kernel), (by decide +kernel), (by decide +kernel), (by decide +kernel), (by decide +kernel), (by decide +kernel), (by decide +kernel),
    (by decide +kernel), (by decide +kernel)⟩

/-- A fetched DELETE of queue 0 of burrow 0. -/
def fetchedDelete : Fetched := { origin := { burrow := 0, queue := 0, gen := 0, cmdId := 7 }, bytes := 0x11 :: List.replicate 127 0, entries := 1, order := 0 }

/-- The device with a DELETE fetched, its queue of class `c`, with `u` urgent tokens. -/
def arrived (c u : Nat) : State :=
  let s := up.setSlot 0 0 { liveSlot with regs := { liveSlot.regs with cls := c } }
  { s with host := { s.host with fetched := [fetchedDelete], urgentTokens := u, urgentTurn := 63 }, bw := { s.bw with bucket := [(0, 1000)] } }

/-- Its hypotheses can be met, clause by clause. -/
theorem witness_AdmissionServesInTurn :
    (∃ (s : State) (q : Nat) (f : Fetched), s.admissionOpen = true ∧ s.host.admitting = none ∧ s.host.decisions % 2 ^ s.gov.throttle = 0
      ∧ (∀ g ∈ s.host.fetched, (s.slot g.origin.burrow g.origin.queue).status ≠ .deleting) ∧ 0 < s.host.urgentTokens
      ∧ s.pickClass ((s.host.urgentTurn + 1) % 64) (· == 0) = some (q, f) ∧ knownOpcode (dOpcode f.bytes) = true)
    ∧ (∃ (s : State) (b : Nat) (q : Nat) (c : Nat) (left : Nat) (f : Fetched), s.admissionOpen = true ∧ s.host.admitting = none
      ∧ s.host.decisions % 2 ^ s.gov.throttle = 0 ∧ (∀ g ∈ s.host.fetched, (s.slot g.origin.burrow g.origin.queue).status ≠ .deleting)
      ∧ s.host.urgentTokens = 0 ∧ s.host.inService = some b ∧ s.eligible b = true ∧ s.pickLevel3 b = some (q, f, c, left)
      ∧ f.entries ≤ (s.burrow b).deficit ∧ knownOpcode (dOpcode f.bytes) = true)
    ∧ (∃ (s : State), s.admissionOpen = true ∧ s.host.admitting = none ∧ s.host.decisions % 2 ^ s.gov.throttle ≠ 0
      ∧ (∀ g ∈ s.host.fetched, (s.slot g.origin.burrow g.origin.queue).status ≠ .deleting)) :=
  ⟨⟨arrived 0 1, 0, fetchedDelete, (by decide +kernel), (by decide +kernel), (by decide +kernel), (by decide +kernel), (by decide +kernel),
    (by decide +kernel), (by decide +kernel)⟩,
    ⟨let s := arrived 1 0; { s with host := { s.host with inService := some 0, burrows := [(0, { state := .enabled, deficit := 1 })] } }, 0, 0, 1, (let s := arrived 1 0; ({ s with host := { s.host with inService := some 0, burrows := [(0, { state := .enabled, deficit := 1 })] } } : State)).classWeight 1 - 1, fetchedDelete,
      (by decide +kernel), (by decide +kernel), (by decide +kernel), (by decide +kernel), (by decide +kernel), (by decide +kernel),
      (by decide +kernel), (by decide +kernel), (by decide +kernel), (by decide +kernel)⟩,
    ⟨{ up with gov := { up.gov with throttle := 1 }, host := { up.host with decisions := 1 } }, (by decide +kernel), (by decide +kernel),
      (by decide +kernel), (by decide +kernel)⟩⟩

/-- Its hypotheses can be met, clause by clause. -/
theorem witness_CompletionWritePostsTheEntry :
    ∃ (b : Fin 64) (q : Fin 16) (s : State) (c : Completion) (rest : List Completion) (sl : QSlot), s.slot b q = sl
      ∧ (takeFirst (fun c => c.origin.burrow == b.val && c.origin.queue == q.val) s.host.waiting = some (c, rest)) ∧ (s.burrow b).discard = false
      ∧ c.origin.gen = (s.burrow b).generation ∧ sl.status = .live
      ∧ (sl.cqTail + sl.regs.cqEntries - sl.cqHead) % sl.regs.cqEntries < sl.regs.cqEntries - 1 :=
  ⟨0, 0, { queued with host := { queued.host with waiting := [{ origin := fetchedDelete.origin }] } }, { origin := fetchedDelete.origin }, [], liveSlot,
    (by decide +kernel), (by decide +kernel), (by decide +kernel), (by decide +kernel), (by decide +kernel), (by decide +kernel)⟩

/-- Its hypotheses can be met, clause by clause. -/
theorem witness_InterruptsAreSentAndHeld :
    (∃ (b : Fin 64) (q : Fin 16) (s : State) (sl : QSlot), s.slot b q = sl ∧ sl.status = .live ∧ sl.regs.coalesceTime ≠ 0 ∧ 0 < sl.unsignalled
      ∧ sl.firstUnsignalled + sl.regs.coalesceTime ≤ s.clk.now ∧ sl.regs.irqFlags % 2 = 1
      ∧ (Map.getD s.host.vectors (32 * (b + 1) + sl.regs.vector) {}).masked = false)
    ∧ (∃ (fn : Fin 65) (vec : Fin 32), (fn.val ≠ 0 ∨ vec.val < 16))
    ∧ (∃ (b : Nat) (q : Nat) (s : State), s.fetches b q = true ∧ (s.slot b q).waiting ≠ 0) :=
  ⟨⟨0, 0, let s := up.setSlot 0 0 { liveSlot with regs := { liveSlot.regs with coalesceTime := 10000 }, unsignalled := 1 }
  { s with clk := { s.clk with now := 10000 }, host := { s.host with vectors := [(63, { masked := false })] } }, { liveSlot with regs := { liveSlot.regs with coalesceTime := 10000 }, unsignalled := 1 },
    (by decide +kernel), (by decide +kernel), (by decide +kernel), (by decide +kernel), (by decide +kernel), (by decide +kernel),
    (by decide +kernel)⟩,
    ⟨0, 15, (by decide +kernel)⟩,
    ⟨0, 0, up.setSlot 0 0 { liveSlot with tail := 1 }, (by decide +kernel), (by decide +kernel)⟩⟩

/-- Its hypotheses can be met, clause by clause. -/
theorem witness_BurrowEnableActs :
    (∃ (b : Fin 64) (s : State), s.dict.applying = false ∧ s.dict.heldOld = [] ∧ s.shadowed (burrowIndex b) 1 = false ∧ 6 ≤ s.boot.stage
      ∧ s.vfPresent b = true ∧ (s.burrow b).state = .disabled)
    ∧ (∃ (b : Fin 64) (s : State), s.dict.applying = false ∧ s.dict.heldOld = [] ∧ s.shadowed (burrowIndex b) 1 = false ∧ 4 ≤ s.boot.stage
      ∧ (s.burrow b).state = .disabled) :=
  ⟨⟨63, up, (by decide +kernel), (by decide +kernel), (by decide +kernel), (by decide +kernel), (by decide +kernel), (by decide +kernel)⟩,
    ⟨63, up, (by decide +kernel), (by decide +kernel), (by decide +kernel), (by decide +kernel), (by decide +kernel)⟩⟩

/-- Its hypotheses can be met, clause by clause. -/
theorem witness_FunctionResetsAndDrains :
    (∃ (b : Fin 64) (s : State), s.vfPresent b = true ∧ (s.burrow b).state = .disabled)
    ∧ (∃ (b : Fin 64) (s : State), (s.burrow b).state = .draining ∧ s.burrowIdle b = true ∧ (s.burrow b).resetting = false
      ∧ (s.burrow b).pendingEnable = false)
    ∧ (∃ (s : State), (∀ b < 64, (s.burrow b).state = .disabled ∧ (s.burrow b).pendingEnable = false)) :=
  ⟨⟨63, up, (by decide +kernel), (by decide +kernel)⟩,
    ⟨0, up.setBurrow 0 { state := .draining }, (by decide +kernel), (by decide +kernel), (by decide +kernel), (by decide +kernel)⟩,
    ⟨up.setBurrow 0 {}, (by decide +kernel)⟩⟩

/-- Its hypotheses can be met, clause by clause. -/
theorem witness_ColdResetStartsTheDevice :
    (∃ (s : State), s.boot.coldHeld = true)
    ∧ (∃ (s : State), s.boot.stage = 1)
    ∧ (∃ (s : State), (∀ b < 64, (s.burrow b).state = .disabled)) :=
  ⟨⟨State.reset, (by decide +kernel)⟩,
    ⟨{ State.reset with boot := { State.reset.boot with stage := 1 } }, (by decide +kernel)⟩,
    ⟨up.setBurrow 0 {}, (by decide +kernel)⟩⟩

/-- Its hypotheses can be met, clause by clause. -/
theorem witness_BootGoesStageByStage :
    (∃ (s : State), s.boot.stage = 2 ∧ s.boot.warmBoot = none ∧ s.vdp.busy = false)
    ∧ (∃ (s : State), s.boot.stage = 4 ∧ s.boot.configDone = false ∧ s.boot.bundleDone = false)
    ∧ (∃ (s : State), s.boot.stage = 5 ∧ s.boot.bundleDone = false ∧ s.boot.hbmDone = false)
    ∧ (∃ (s : State), s.boot.firmwareOk = true ∧ s.boot.hbmDone = false ∧ 3 ≤ s.boot.stage ∧ s.boot.bundleDone = false)
    ∧ (∃ (s : State) (m : Nat), s.boot.stage = 6 ∧ s.boot.scrubbing = false ∧ (if s.deviceCause then 4 else s.cfg 0x2001 5) = m
      ∧ s.dict.heldKeys = [] ∧ s.changedKeys s.overlay (s.overlayOf m) = []) :=
  ⟨⟨staged 2, (by decide +kernel), (by decide +kernel), (by decide +kernel)⟩,
    ⟨staged 4, (by decide +kernel), (by decide +kernel), (by decide +kernel)⟩,
    ⟨staged 5, (by decide +kernel), (by decide +kernel), (by decide +kernel)⟩,
    ⟨staged 3, (by decide +kernel), (by decide +kernel), (by decide +kernel), (by decide +kernel)⟩,
    ⟨staged 6, 0, (by decide +kernel), (by decide +kernel), (by decide +kernel), (by decide +kernel), (by decide +kernel)⟩⟩

/-- The device waiting in recovery for an image. -/
def recovering (r : RecoveryFor) : State := { up with boot := { up.boot with stage := 3, recovery := some r } }

/-- Its hypotheses can be met, clause by clause. -/
theorem witness_RecoveryTakesAnImage :
    (∃ (s : State), s.boot.stage = 3 ∧ s.boot.hostUp = true ∧ s.boot.recovery = some .firmware ∧ s.vdp.busy = false)
    ∧ (∃ (s : State), s.boot.stage = 3 ∧ s.boot.hostUp = true ∧ s.boot.recovery = some .firmware ∧ s.vdp.busy = false)
    ∧ (∃ (s : State), s.boot.stage = 3 ∧ s.boot.hostUp = true ∧ s.boot.recovery = some .bundle ∧ s.vdp.busy = false ∧ s.boot.hbmDone = false)
    ∧ (∃ (s : State), s.boot.stage = 3 ∧ s.boot.hostUp = true ∧ s.boot.recovery = some .bundle ∧ s.vdp.busy = false ∧ s.boot.hbmDone = false) :=
  ⟨⟨recovering .firmware, (by decide +kernel), (by decide +kernel), (by decide +kernel), (by decide +kernel)⟩,
    ⟨recovering .firmware, (by decide +kernel), (by decide +kernel), (by decide +kernel), (by decide +kernel)⟩,
    ⟨recovering .bundle, (by decide +kernel), (by decide +kernel), (by decide +kernel), (by decide +kernel), (by decide +kernel)⟩,
    ⟨recovering .bundle, (by decide +kernel), (by decide +kernel), (by decide +kernel), (by decide +kernel), (by decide +kernel)⟩⟩

/-- The device in service with no burrow enabled and no port up. -/
def alone : State := { staged 7 with host := {} }

/-- Its hypotheses can be met, clause by clause. -/
theorem witness_WarmResetsRestartTheDevice :
    (∃ (s : State), s.boot.coldHeld = false ∧ s.boot.firmwareOk = true ∧ s.boot.warmPending = none ∧ (∀ b < 64, (s.burrow b).state ≠ .enabled)
      ∧ (∀ p < 10, (s.port p).state = .disabled))
    ∧ (∃ (s : State), 4 ≤ s.boot.stage ∧ s.boot.warmPending = none ∧ (∀ b < 64, (s.burrow b).state ≠ .enabled)
      ∧ (∀ p < 10, (s.port p).state = .disabled))
    ∧ (∃ (s : State), 4 ≤ s.boot.stage ∧ s.dict.applying = false ∧ s.boot.warmPending = none ∧ (∀ b < 64, (s.burrow b).state ≠ .enabled)
      ∧ (∀ p < 10, (s.port p).state = .disabled))
    ∧ (∃ (retain : Bool) (at_ : Nat) (s : State), s.boot.warmPending = some (retain, at_) ∧ at_ ≤ s.clk.now ∧ s.dict.heldKeys = []
      ∧ s.changedKeys s.overlay (s.overlayOf s.dict.mode) = []) :=
  ⟨⟨alone, (by decide +kernel), (by decide +kernel), (by decide +kernel), (by decide +kernel), (by decide +kernel)⟩,
    ⟨alone, (by decide +kernel), (by decide +kernel), (by decide +kernel), (by decide +kernel)⟩,
    ⟨alone, (by decide +kernel), (by decide +kernel), (by decide +kernel), (by decide +kernel), (by decide +kernel)⟩,
    ⟨true, 0, { alone with boot := { alone.boot with warmPending := some (true, 0) } }, (by decide +kernel), (by decide +kernel),
      (by decide +kernel), (by decide +kernel)⟩⟩

/-- The object at an index and sub-index. -/
def objectAt (ix sub : Nat) : Obj := ((findObject ix sub).toOption).getD { ty := .bool, acc := .ro, dflt := [] }

/-- The code a missing object answers. -/
def codeAt (ix sub : Nat) : Nat := match findObject ix sub with | .error c => c | .ok _ => 0

/-- Its hypotheses can be met, clause by clause. -/
theorem witness_DictionaryWritesAreChecked :
    (∃ (ix : Nat) (sub : Nat) (code : Nat) (s : State), 4 ≤ s.boot.stage ∧ findObject ix sub = .error code)
    ∧ (∃ (ix : Nat) (sub : Nat) (s : State) (o : Obj), 4 ≤ s.boot.stage ∧ (findObject ix sub).toOption = some o ∧ o.acc = .ro)
    ∧ (∃ (ix : Nat) (sub : Nat) (s : State) (o : Obj), 4 ≤ s.boot.stage ∧ (findObject ix sub).toOption = some o ∧ o.acc = .rwl ∧ s.dict.locked = true)
    ∧ (∃ (ix : Nat) (sub : Nat) (data : List Byte) (s : State) (o : Obj), 4 ≤ s.boot.stage ∧ (findObject ix sub).toOption = some o ∧ o.acc ≠ .ro
      ∧ ¬(o.acc = .rwl ∧ s.dict.locked = true) ∧ lengthOk o data = false)
    ∧ (∃ (ix : Nat) (sub : Nat) (data : List Byte) (s : State) (o : Obj), 4 ≤ s.boot.stage ∧ (findObject ix sub).toOption = some o
      ∧ (o.acc = .rw ∨ o.acc = .rwl ∧ s.dict.locked = false) ∧ isRequest ix sub = false ∧ ¬(0x8280 ≤ ix ∧ ix < 0x8288) ∧ lengthOk o data = true
      ∧ s.baseCheck ix sub o data = none ∧ overlayModeOf ix = none ∧ s.transitionRefuses ix sub data = false) :=
  ⟨⟨0x7fff, 0, codeAt 0x7fff 0, up, (by decide +kernel), rfl⟩,
    ⟨0x1018, 1, up, objectAt 0x1018 1, (by decide +kernel), (by decide +kernel), (by decide +kernel)⟩,
    ⟨0x1200, 1, { up with dict := { up.dict with locked := true } }, objectAt 0x1200 1, (by decide +kernel), (by decide +kernel),
      (by decide +kernel), (by decide +kernel)⟩,
    ⟨0x1200, 3, [], up, objectAt 0x1200 3, (by decide +kernel), (by decide +kernel), (by decide +kernel), (by decide +kernel), (by decide +kernel)⟩,
    ⟨0x1200, 3, [7], up, objectAt 0x1200 3, (by decide +kernel), (by decide +kernel), (by decide +kernel), (by decide +kernel), (by decide +kernel),
      (by decide +kernel), (by decide +kernel), (by decide +kernel), (by decide +kernel)⟩⟩

/-- The device writing a copy of the base dictionary. -/
def storing (p : Bool) : State := { up with dict := { up.dict with storing := some (1, 1, []), storePending := p } }

/-- Its hypotheses can be met, clause by clause. -/
theorem witness_StoreWritesTheOtherCopy :
    (∃ (s : State) (c : Nat) (g : Nat), 4 ≤ s.boot.stage ∧ s.dict.applying = false ∧ s.dict.storing = none
      ∧ (match s.dict.storeCopy with | none => (0, 1) | some k => (1 - k, (s.dict.storeGeneration + 1) % 2 ^ 32)) = (c, g)
      ∧ (copyBytes g s.records).length ≤ 65536)
    ∧ (∃ (s : State) (c : Nat) (g : Nat), 4 ≤ s.boot.stage ∧ s.dict.applying = false ∧ s.dict.storing = none
      ∧ (match s.dict.storeCopy with | none => (0, 1) | some k => (1 - k, (s.dict.storeGeneration + 1) % 2 ^ 32)) = (c, g)
      ∧ (copyBytes g s.records).length ≤ 65536)
    ∧ (∃ (s : State) (r : Nat × Nat × List Byte), 4 ≤ s.boot.stage ∧ s.dict.applying = false ∧ s.dict.storing = some r)
    ∧ (∃ (s : State) (c : Nat) (g : Nat) (img : List Byte), s.dict.storing = some (c, g, img) ∧ img.length ≤ 65536 ∧ s.dict.storePending = false)
    ∧ (∃ (s : State) (c : Nat) (g : Nat) (img : List Byte), s.dict.storing = some (c, g, img) ∧ img.length ≤ 65536 ∧ s.dict.storePending = true)
    ∧ (∃ (s : State) (r : Nat × Nat × List Byte), s.dict.storing = some r ∧ s.dict.storePending = false) :=
  ⟨⟨up, 0, 1, (by decide +kernel), (by decide +kernel), (by decide +kernel), (by decide +kernel), (by decide +kernel)⟩,
    ⟨up, 0, 1, (by decide +kernel), (by decide +kernel), (by decide +kernel), (by decide +kernel), (by decide +kernel)⟩,
    ⟨storing false, (1, 1, []), (by decide +kernel), (by decide +kernel), (by decide +kernel)⟩,
    ⟨storing false, 1, 1, [], (by decide +kernel), (by decide +kernel), (by decide +kernel)⟩,
    ⟨storing true, 1, 1, [], (by decide +kernel), (by decide +kernel), (by decide +kernel)⟩,
    ⟨storing false, (1, 1, []), (by decide +kernel), (by decide +kernel)⟩⟩

/-- Its hypotheses can be met, clause by clause. -/
theorem witness_DefaultsAndLocks :
    (∃ (s : State), 4 ≤ s.boot.stage ∧ s.dict.applying = false)
    ∧ (∃ (s : State), 4 ≤ s.boot.stage ∧ s.dict.applying = false)
    ∧ (∃ (s : State), 4 ≤ s.boot.stage ∧ s.dict.applying = false) :=
  ⟨⟨up, (by decide +kernel), (by decide +kernel)⟩,
    ⟨up, (by decide +kernel), (by decide +kernel)⟩,
    ⟨up, (by decide +kernel), (by decide +kernel)⟩⟩

/-- Its hypotheses can be met, clause by clause. -/
theorem witness_ModesChangeAtQuietPoints :
    (∃ (m : Nat) (s : State), 4 ≤ s.boot.stage ∧ s.dict.applying = false ∧ s.deviceCause = false ∧ m ≤ 4 ∧ m ≠ s.dict.mode)
    ∧ (∃ (s : State), s.dict.applying = true ∧ s.dict.safeWaiting = false ∧ s.dict.heldKeys = []
      ∧ s.changedKeys s.overlay (s.overlayOf s.dict.target) = [])
    ∧ (∃ (s : State), 4 ≤ s.boot.stage ∧ s.dict.applying = false)
    ∧ (∃ (m : Fin 5) (d : Fin 256) (on : Bool) (s : State), 4 ≤ s.boot.stage ∧ s.dict.applying = false ∧ s.dict.locked = false
      ∧ (on = true → s.deltaProblem m d = none) ∧ s.deltaOn m d ≠ on) :=
  ⟨⟨4, up, (by decide +kernel), (by decide +kernel), (by decide +kernel), (by decide +kernel), (by decide +kernel)⟩,
    ⟨{ up with dict := { up.dict with applying := true, target := 1 } }, (by decide +kernel), (by decide +kernel), (by decide +kernel),
      (by decide +kernel)⟩,
    ⟨up, (by decide +kernel), (by decide +kernel)⟩,
    ⟨4, 255, false, given up (deltaIndex 4 255) 4 [1], (by decide +kernel), (by decide +kernel), (by decide +kernel), (by decide +kernel),
      (by decide +kernel)⟩⟩

/-- Its hypotheses can be met, clause by clause. -/
theorem witness_CalendarIsSet :
    (∃ (v : Nat) (s : State), 4 ≤ s.boot.stage ∧ s.dict.applying = false ∧ v ≤ 7258118399)
    ∧ (∃ (s : State), 4 ≤ s.boot.stage ∧ s.dict.applying = false ∧ s.clk.dateOk = true)
    ∧ (∃ (s : State), 4 ≤ s.boot.stage ∧ s.dict.applying = false ∧ s.clk.dateOk = false)
    ∧ (∃ (s : State), s.boot.coldHeld = false) :=
  ⟨⟨7258118399, up, (by decide +kernel), (by decide +kernel), (by decide +kernel)⟩,
    ⟨{ up with clk := { up.clk with second := 59, minute := 59, hour := 23, day := 29, month := 2, year := 2024 } }, (by decide +kernel),
      (by decide +kernel), (by decide +kernel)⟩,
    ⟨{ up with clk := { up.clk with second := 0, minute := 0, hour := 0, day := 29, month := 2, year := 2023 } }, (by decide +kernel),
      (by decide +kernel), (by decide +kernel)⟩,
    ⟨up, (by decide +kernel)⟩⟩

/-- A device whose pool of key 256 has lost a credit. -/
def leaking : State := { up with cred := { up.cred with pools := [(256, { issued := 2, returned := 1 })] } }

/-- Its hypotheses can be met, clause by clause. -/
theorem witness_CreditAuditsFenceTheDevice :
    (∃ (s : State), s.boot.fenced = false ∧ (∀ e ∈ s.cred.pools, e.2.issued = e.2.returned + e.2.outstanding))
    ∧ (∃ (s : State), 4 ≤ s.boot.stage ∧ s.dict.applying = false ∧ s.boot.fenced = false
      ∧ (∀ e ∈ s.cred.pools, e.2.issued = e.2.returned + e.2.outstanding))
    ∧ (∃ (s : State) (k : Nat) (p : Pool) (before : Map Pool) (after : Map Pool), s.boot.fenced = false ∧ s.cred.pools = before ++ (k, p) :: after
      ∧ (∀ e ∈ before, e.2.issued = e.2.returned + e.2.outstanding) ∧ p.issued ≠ p.returned + p.outstanding ∧ s.host.live = []) :=
  ⟨⟨{ up with cred := { up.cred with pools := [(256, { issued := 2, returned := 1, outstanding := 1 })] } }, (by decide +kernel),
    (by decide +kernel)⟩,
    ⟨up, (by decide +kernel), (by decide +kernel), (by decide +kernel), (by decide +kernel)⟩,
    ⟨leaking, 256, { issued := 2, returned := 1 }, [], [], (by decide +kernel), (by decide +kernel), (by decide +kernel), (by decide +kernel),
      (by decide +kernel)⟩⟩

/-- A request of four bytes in the mailbox. -/
def framed (r : List Byte) : List Byte := padTo 64 r

/-- Its hypotheses can be met, clause by clause. -/
theorem witness_MailboxServesTheProtocol :
    (∃ (len : Nat) (request : List Byte) (m : List Byte) (v : List Byte) (s : State), padTo 64 request = m ∧ vdpService request = 0
      ∧ vdpService m = 0 ∧ vdpMalformed m len = false ∧ s.mailboxOpen = true ∧ 4 ≤ s.boot.stage ∧ s.vdp.busy = false
      ∧ s.readObject (vdpIndex m) (vdpSub m) = .ok v)
    ∧ (∃ (len : Nat) (request : List Byte) (m : List Byte) (s : State), padTo 64 request = m ∧ vdpService request = 1 ∧ vdpService m = 1
      ∧ vdpMalformed m len = false ∧ s.mailboxOpen = true ∧ 4 ≤ s.boot.stage ∧ s.vdp.busy = false ∧ vdpCount m ≠ 63)
    ∧ (∃ (len : Nat) (request : List Byte) (m : List Byte) (s : State) (tr : Transfer), padTo 64 request = m ∧ vdpService request = 2
      ∧ vdpService m = 2 ∧ vdpMalformed m len = false ∧ s.mailboxOpen = true ∧ 4 ≤ s.boot.stage ∧ s.vdp.busy = false
      ∧ s.vdp.mailbox.transfer = some tr ∧ s.clk.now < tr.since + 1000000 ∧ tr.write = false ∧ (if tr.started then 1 - tr.toggle else 0) = vdpToggle m
      ∧ tr.toggle ≤ 1)
    ∧ (∃ (len : Nat) (request : List Byte) (m : List Byte) (s : State), padTo 64 request = m ∧ vdpService request = 3 ∧ vdpService m = 3
      ∧ vdpMalformed m len = false ∧ s.mailboxOpen = true ∧ 4 ≤ s.boot.stage ∧ s.vdp.busy = false) :=
  ⟨⟨4, [0, 0x18, 0x10, 1], framed [0, 0x18, 0x10, 1], ((up.readObject 0x1018 1).toOption).getD [], up, (by decide +kernel), (by decide +kernel),
    (by decide +kernel), (by decide +kernel), (by decide +kernel), (by decide +kernel), (by decide +kernel), rfl⟩,
    ⟨5, [0x41, 0, 0x12, 3, 7], framed [0x41, 0, 0x12, 3, 7], up, (by decide +kernel), (by decide +kernel), (by decide +kernel), (by decide +kernel),
      (by decide +kernel), (by decide +kernel), (by decide +kernel), (by decide +kernel)⟩,
    ⟨4, [0x80, 1, 0, 0], framed [0x80, 1, 0, 0], { up with vdp := { up.vdp with mailbox := { transfer := some { write := false, index := 0x1008, subindex := 0, total := 100, started := true } } } }, { write := false, index := 0x1008, subindex := 0, total := 100, started := true },
      (by decide +kernel), (by decide +kernel), (by decide +kernel), (by decide +kernel), (by decide +kernel), (by decide +kernel),
      (by decide +kernel), (by decide +kernel), (by decide +kernel), (by decide +kernel), (by decide +kernel), (by decide +kernel)⟩,
    ⟨4, [0xC0, 0, 0, 0], framed [0xC0, 0, 0, 0], up, (by decide +kernel), (by decide +kernel), (by decide +kernel), (by decide +kernel),
      (by decide +kernel), (by decide +kernel), (by decide +kernel)⟩⟩

/-- A transfer that began at time 0. -/
def oldTransfer : Transfer := { write := true, index := 0x3000, subindex := 1, total := 8 }

/-- A device whose mailbox is at work. -/
def busy : State := { up with vdp := { up.vdp with busy := true } }

/-- Its hypotheses can be met, clause by clause. -/
theorem witness_MailboxFlagsAndTimeouts :
    (∃ (s : State) (tr : Transfer), s.vdp.mailbox.transfer = some tr ∧ tr.since + 1000000 ≤ s.clk.now)
    ∧ (∃ (s : State) (tr : Transfer), s.vdp.can.transfer = some tr ∧ tr.since + 1000000 ≤ s.clk.now)
    ∧ (∃ (s : State), s.mailboxOpen = true)
    ∧ (∃ (s : State), s.mailboxOpen = true ∧ s.vdp.busy = true)
    ∧ (∃ (request : List Byte) (s : State), vdpService request = 0 ∧ s.mailboxOpen = true ∧ s.vdp.busy = true) :=
  ⟨⟨{ up with clk := { up.clk with now := 1000000 }, vdp := { up.vdp with mailbox := { transfer := some oldTransfer } } }, oldTransfer,
    (by decide +kernel), (by decide +kernel)⟩,
    ⟨{ up with clk := { up.clk with now := 1000000 }, vdp := { up.vdp with can := { transfer := some oldTransfer } } }, oldTransfer,
      (by decide +kernel), (by decide +kernel)⟩,
    ⟨busy, (by decide +kernel)⟩,
    ⟨busy, (by decide +kernel), (by decide +kernel)⟩,
    ⟨[0, 0, 0, 0], busy, (by decide +kernel), (by decide +kernel), (by decide +kernel)⟩⟩

/-- Its hypotheses can be met, clause by clause. -/
theorem witness_CanFollowsTheBus :
    (∃ (s : State), s.can.enable = true ∧ s.can.state ≠ 2)
    ∧ (∃ (s : State), s.can.state = 2 ∧ (s.cfg 0x1200 10 = 1 ∨ s.can.rejoin = true))
    ∧ (∃ (s : State), s.can.enable = true ∧ s.can.state ≠ 2)
    ∧ (∃ (s : State) (node : Nat), 4 ≤ s.boot.stage ∧ s.cfg 0x1200 4 ≠ 0 ∧ s.canOn = true ∧ s.canNode = some node) :=
  ⟨⟨up, (by decide +kernel), (by decide +kernel)⟩,
    ⟨{ up with can := { up.can with state := 2, rejoin := true } }, (by decide +kernel), (by decide +kernel)⟩,
    ⟨up, (by decide +kernel), (by decide +kernel)⟩,
    ⟨given up 0x1200 4 [1, 0], 1, (by decide +kernel), (by decide +kernel), (by decide +kernel), (by decide +kernel)⟩⟩

/-- A request slot of an operation, an index, a subindex and data. -/
def slotOf (op ix sub data : Nat) : List Byte := toLE 1 (op + 16 * (15 - op)) ++ toLE 2 ix ++ toLE 1 sub ++ toLE 4 data

/-- The device with a request latched at its sideband. -/
def asked (r : List Byte) : State := { up with ssp := { up.ssp with request := some r } }

/-- A frame of the master port. -/
def aFrame : MasterFrame := { select := 2, command := [3], address := [0, 0, 0], dummy := 0, write := false, eightBit := false, data := [], len := 4 }

/-- Its hypotheses can be met, clause by clause. -/
theorem witness_SidebandFramesAreLatched :
    (∃ (s : State) (f : MasterFrame), 4 ≤ s.boot.stage ∧ s.dict.applying = false ∧ s.masterFrame = f ∧ s.ssp.status ≠ 1 ∧ 2 ≤ f.select
      ∧ (f.write = true ∨ f.eightBit = true → f.data.length = f.len))
    ∧ (∃ (s : State) (f : MasterFrame), s.ssp.frame = some f)
    ∧ (∃ (s : State), s.boot.coldHeld = false ∧ s.ssp.request = none)
    ∧ (∃ (slot : List Byte) (s : State), s.ssp.selected = true ∧ s.ssp.stalled = false ∧ s.ssp.shifted ≠ sspBusy ∧ slotValid (padTo 8 slot) = true
      ∧ slotOp (padTo 8 slot) ≠ 0 ∧ slotOp (padTo 8 slot) ≠ 6)
    ∧ (∃ (edges : Nat) (s : State), s.ssp.selected = true ∧ edges ≠ 512)
    ∧ (∃ (s : State) (r : List Byte), s.ssp.request = some r ∧ slotOp r = 6) :=
  ⟨⟨given up 0x1220 1 [2], (given up 0x1220 1 [2]).masterFrame, (by decide +kernel), (by decide +kernel), (by decide +kernel), (by decide +kernel),
    (by decide +kernel), (by decide +kernel)⟩,
    ⟨{ up with ssp := { up.ssp with status := 1, frame := some aFrame } }, aFrame, (by decide +kernel)⟩,
    ⟨up, (by decide +kernel), (by decide +kernel)⟩,
    ⟨slotOf 1 0x1018 1 0, { up with ssp := { up.ssp with selected := true } }, (by decide +kernel), (by decide +kernel), (by decide +kernel),
      (by decide +kernel), (by decide +kernel), (by decide +kernel)⟩,
    ⟨511, { up with ssp := { up.ssp with selected := true } }, (by decide +kernel), (by decide +kernel)⟩,
    ⟨asked (slotOf 6 0 0 0), slotOf 6 0 0 0, (by decide +kernel), (by decide +kernel)⟩⟩

/-- Its hypotheses can be met, clause by clause. -/
theorem witness_SidebandServesItsSlots :
    (∃ (s : State) (r : List Byte), s.ssp.request = some r ∧ slotOp r = 1 ∧ 4 ≤ s.boot.stage ∧ s.boot.position ≠ none)
    ∧ (∃ (s : State) (r : List Byte) (v : List Byte), s.readObject (slotIndex r) (slotSub r) = .ok v ∧ slotData r % 4 = 0 ∧ slotData r ≤ 65532
      ∧ (v = [] ∨ slotData r < v.length))
    ∧ (∃ (s : State) (r : List Byte) (v : List Byte), s.ssp.request = some r ∧ slotOp r = 5 ∧ 4 ≤ s.boot.stage ∧ s.boot.position ≠ none
      ∧ s.readObject (slotIndex r) (slotSub r) = .ok v)
    ∧ (∃ (s : State) (r : List Byte) (o : Obj) (n : Nat), s.ssp.request = some r ∧ slotOp r = 2 ∧ 4 ≤ s.boot.stage ∧ s.boot.position ≠ none
      ∧ s.precheck (slotIndex r) (slotSub r) = .ok o ∧ o.ty.size = some n ∧ n ≤ 4 ∧ slotData r < 2 ^ (8 * n))
    ∧ (∃ (s : State) (r : List Byte), s.ssp.request = some r ∧ slotOp r = 3 ∧ 4 ≤ s.boot.stage ∧ s.boot.position ≠ none
      ∧ s.ssp.target = some (slotIndex r, slotSub r) ∧ s.ssp.staging.length + 4 ≤ 256)
    ∧ (∃ (s : State) (r : List Byte), s.ssp.request = some r ∧ slotOp r = 4 ∧ 4 ≤ s.boot.stage ∧ s.boot.position ≠ none
      ∧ s.ssp.target = some (slotIndex r, slotSub r) ∧ slotData r ≤ s.ssp.staging.length)
    ∧ (∃ (s : State) (r : List Byte), s.ssp.request = some r ∧ slotOp r = 7 ∧ 4 ≤ s.boot.stage ∧ s.boot.position = none ∧ slotData r ≤ 7)
    ∧ (∃ (s : State) (r : List Byte) (p : Nat), s.ssp.request = some r ∧ slotOp r = 7 ∧ 4 ≤ s.boot.stage ∧ s.boot.position = some p ∧ slotData r ≤ 7
      ∧ slotData r ≠ p) :=
  ⟨⟨asked (slotOf 1 0x1018 1 0), slotOf 1 0x1018 1 0, (by decide +kernel), (by decide +kernel), (by decide +kernel), (by decide +kernel)⟩,
    ⟨up, slotOf 1 0x1018 1 0, ((up.readObject 0x1018 1).toOption).getD [], rfl, (by decide +kernel), (by decide +kernel), (by decide +kernel)⟩,
    ⟨asked (slotOf 5 0x1018 1 0), slotOf 5 0x1018 1 0, (((asked (slotOf 5 0x1018 1 0)).readObject 0x1018 1).toOption).getD [], (by decide +kernel),
      (by decide +kernel), (by decide +kernel), (by decide +kernel), rfl⟩,
    ⟨asked (slotOf 2 0x1200 3 7), slotOf 2 0x1200 3 7, objectAt 0x1200 3, 1, (by decide +kernel), (by decide +kernel), (by decide +kernel),
      (by decide +kernel), rfl, (by decide +kernel), (by decide +kernel), (by decide +kernel)⟩,
    ⟨{ asked (slotOf 3 0x1200 3 7) with ssp := { (asked (slotOf 3 0x1200 3 7)).ssp with target := some (0x1200, 3), staging := List.replicate 252 0 } }, slotOf 3 0x1200 3 7,
      (by decide +kernel), (by decide +kernel), (by decide +kernel), (by decide +kernel), (by decide +kernel), (by decide +kernel)⟩,
    ⟨{ asked (slotOf 4 0x1200 3 1) with ssp := { (asked (slotOf 4 0x1200 3 1)).ssp with target := some (0x1200, 3), staging := [7, 0, 0, 0] } }, slotOf 4 0x1200 3 1,
      (by decide +kernel), (by decide +kernel), (by decide +kernel), (by decide +kernel), (by decide +kernel), (by decide +kernel)⟩,
    ⟨{ asked (slotOf 7 0 0 7) with boot := { up.boot with position := none } }, slotOf 7 0 0 7, (by decide +kernel), (by decide +kernel),
      (by decide +kernel), (by decide +kernel), (by decide +kernel)⟩,
    ⟨asked (slotOf 7 0 0 7), slotOf 7 0 0 7, 0, (by decide +kernel), (by decide +kernel), (by decide +kernel), (by decide +kernel),
      (by decide +kernel), (by decide +kernel)⟩⟩

/-- Its hypotheses can be met, clause by clause. -/
theorem witness_StallsAreLoggedOncePerLowPeriod :
    (∃ (s : State), s.ssp.selected = true ∧ s.ssp.stalled = false)
    ∧ (∃ (s : State), s.ssp.stalled = true)
    ∧ (∃ (s : State), s.ssp.selected = true ∧ s.ssp.stalled = true) :=
  ⟨⟨{ up with ssp := { up.ssp with selected := true } }, (by decide +kernel), (by decide +kernel)⟩,
    ⟨{ up with ssp := { up.ssp with selected := true, stalled := true } }, (by decide +kernel)⟩,
    ⟨{ up with ssp := { up.ssp with selected := true, stalled := true } }, (by decide +kernel), (by decide +kernel)⟩⟩

/-- A device with 100 tokens in the pool. -/
def tokened : State := { given up 0x4111 1 (toLE 4 100) with bw := { up.bw with pool := 100 } }

/-- Its hypotheses can be met, clause by clause. -/
theorem witness_BandwidthIsRegulated :
    (∃ (s : State), s.bw.pool + sumNat ((List.range 64).map s.bucket) ≤ s.bw.deliverable + sumNat ((List.range 64).map s.depth)
      ∧ deliverableOf s.bw.healthy s.refillTokens = s.bw.deliverable)
    ∧ (∃ (b : Fin 64) (n : Nat) (s : State), s.spent b + n ≤ min (s.ceiling b) s.bw.deliverable ∧ n ≤ s.bucket b + s.bw.pool)
    ∧ (∃ (b : Fin 64) (n : Nat) (s : State), (min (s.ceiling b) s.bw.deliverable < s.spent b + n ∨ s.bucket b + s.bw.pool < n))
    ∧ (∃ (b : Fin 64) (v : Nat) (s : State), 4 ≤ s.boot.stage ∧ s.dict.applying = false ∧ s.dict.locked = false ∧ v ≤ 102400
      ∧ v ≤ leNat (s.baseValue 0x4111 (b + 1))
      ∧ (viewSum (s.baseView 0x4110 (b + 1) (toLE 4 v)) ≤ s.bw.deliverable ∨ viewSum (s.baseView 0x4110 (b + 1) (toLE 4 v)) ≤ viewSum s.baseValue))
    ∧ (∃ (b : Fin 64) (v : Nat) (s : State), 4 ≤ s.boot.stage ∧ s.dict.applying = false ∧ s.dict.locked = false ∧ v ≤ 102400
      ∧ v ≤ leNat (s.baseValue 0x4111 (b + 1)) ∧ s.bw.deliverable < viewSum (s.baseView 0x4110 (b + 1) (toLE 4 v))
      ∧ viewSum s.baseValue < viewSum (s.baseView 0x4110 (b + 1) (toLE 4 v))) :=
  ⟨⟨up, (by decide +kernel), (by decide +kernel)⟩,
    ⟨0, 100, tokened, (by decide +kernel), (by decide +kernel)⟩,
    ⟨0, 101, tokened, (by decide +kernel)⟩,
    ⟨0, 50, tokened, (by decide +kernel), (by decide +kernel), (by decide +kernel), (by decide +kernel), (by decide +kernel), (by decide +kernel)⟩,
    ⟨63, 102400, given up 0x4111 64 (toLE 4 102400), (by decide +kernel), (by decide +kernel), (by decide +kernel), (by decide +kernel),
      (by decide +kernel), (by decide +kernel), (by decide +kernel)⟩⟩

/-- The device in the mode DIAG. -/
def inDiag : State := { up with dict := { up.dict with mode := 3 } }

/-- The device while the generator of stack 0 runs. -/
def generating : State := { inDiag with diag := { inDiag.diag with generators := [(0, { status := 1, frames := [(0, true)] })] } }

/-- Its hypotheses can be met, clause by clause. -/
theorem witness_DiagnosticsRepairFrames :
    (∃ (st : Fin 8) (s : State), 4 ≤ s.boot.stage ∧ s.dict.applying = false ∧ s.dict.mode = 3 ∧ (s.generator st).frames = []
      ∧ s.genCfg st 5 ≤ ((s.setGenerator st { s.generator st with frames := [] }).usableFrames st).length ∧ s.genCfg st 7 ≠ 0)
    ∧ (∃ (st : Fin 8) (s : State), 4 ≤ s.boot.stage ∧ s.dict.applying = false ∧ (s.generator st).status = 1)
    ∧ (∃ (st : Fin 8) (s : State), (s.generator st).status = 1)
    ∧ (∃ (s : State), 4 ≤ s.boot.stage ∧ s.dict.applying = false ∧ s.dict.mode = 3)
    ∧ (∃ (st : Fin 8) (s : State), 4 ≤ s.boot.stage ∧ s.dict.applying = false ∧ s.repairOk st (s.cfg (0x8200 + st) 2) (s.cfg (0x8200 + st) 4) = true)
    ∧ (∃ (s : State), 4 ≤ s.boot.stage ∧ s.dict.applying = false ∧ s.dict.mode = 3)
    ∧ (∃ (st : Fin 8) (slot : Fin 32) (v : Nat) (s : State), 4 ≤ s.boot.stage ∧ s.dict.applying = false ∧ v < 2 ^ 32
      ∧ Map.get? s.diag.hard (st * 32 + slot) = none)
    ∧ (∃ (st : Fin 8) (f : Nat) (fs : List Nat) (s : State), Map.getD s.diag.checking st [] = f :: fs) :=
  ⟨⟨0, given inDiag 0x8100 6 (toLE 2 12219), (by decide +kernel), (by decide +kernel), (by decide +kernel), (by decide +kernel),
    (by decide +kernel), (by decide +kernel)⟩,
    ⟨0, generating, (by decide +kernel), (by decide +kernel), (by decide +kernel)⟩,
    ⟨0, generating, (by decide +kernel)⟩,
    ⟨inDiag, (by decide +kernel), (by decide +kernel), (by decide +kernel)⟩,
    ⟨7, inDiag, (by decide +kernel), (by decide +kernel), (by decide +kernel)⟩,
    ⟨inDiag, (by decide +kernel), (by decide +kernel), (by decide +kernel)⟩,
    ⟨7, 31, 0x80000000, inDiag, (by decide +kernel), (by decide +kernel), (by decide +kernel), (by decide +kernel)⟩,
    ⟨7, 5, [6], { inDiag with diag := { inDiag.diag with checking := [(7, [5, 6])] } }, (by decide +kernel)⟩⟩

/-- The device while flow channel 0 takes a shot. -/
def shooting : State := { up with ftf := { up.ftf with running := some (.shot 0 true 0), channelA := { state := .busy } } }

/-- Its hypotheses can be met, clause by clause. -/
theorem witness_FlowMeasuresInTurn :
    (∃ (c : Fin 2) (s : State), 4 ≤ s.boot.stage ∧ s.dict.applying = false ∧ (s.channel c).state = .idle ∧ s.ftf.running = none ∧ s.ftf.waiting = [])
    ∧ (∃ (c : Fin 2) (s : State), 4 ≤ s.boot.stage ∧ s.dict.applying = false ∧ (s.channel c).state = .idle ∧ s.ftf.running = none
      ∧ s.ftf.waiting = [])
    ∧ (∃ (c : Fin 2) (s : State), 4 ≤ s.boot.stage ∧ s.dict.applying = false ∧ (s.channel c).state ≠ .idle)
    ∧ (∃ (r : Fin 2) (s : State), 4 ≤ s.boot.stage ∧ s.dict.applying = false ∧ (s.rtdInput r).busy = false ∧ s.ftf.running = none
      ∧ s.ftf.waiting = [])
    ∧ (∃ (m : Measurement) (rest : List Measurement) (s : State), s.ftf.running = none ∧ s.ftf.waiting = m :: rest)
    ∧ (∃ (c : Fin 2) (up : Bool) (m : Option ShotMeasure) (s : State), s.ftf.running = some (.shot c up (s.channel c).generation)
      ∧ (s.channel c).state = .busy ∧ s.shotStatus c up m ≠ 0)
    ∧ (∃ (c : Fin 2) (s : State), 9 ≤ (s.channel c).hold ∧ (s.channel c).stale = false)
    ∧ (∃ (c : Fin 2) (s : State), s.ftf.running = none ∧ (s.channel c).state = .busy ∧ (s.channel c).ringing = true) :=
  ⟨⟨1, up, (by decide +kernel), (by decide +kernel), (by decide +kernel), (by decide +kernel), (by decide +kernel)⟩,
    ⟨0, up, (by decide +kernel), (by decide +kernel), (by decide +kernel), (by decide +kernel), (by decide +kernel)⟩,
    ⟨0, shooting, (by decide +kernel), (by decide +kernel), (by decide +kernel)⟩,
    ⟨1, up, (by decide +kernel), (by decide +kernel), (by decide +kernel), (by decide +kernel), (by decide +kernel)⟩,
    ⟨.rtd 1, [], { up with ftf := { up.ftf with waiting := [.rtd 1] } }, (by decide +kernel), (by decide +kernel)⟩,
    ⟨0, true, none, shooting, (by decide +kernel), (by decide +kernel), (by decide +kernel)⟩,
    ⟨1, { up with ftf := { up.ftf with channelB := { hold := 9 } } }, (by decide +kernel), (by decide +kernel)⟩,
    ⟨1, { up with ftf := { up.ftf with channelB := { state := .busy, ringing := true } } }, (by decide +kernel), (by decide +kernel),
      (by decide +kernel)⟩⟩

/-- Its hypotheses can be met, clause by clause. -/
theorem witness_TemperatureAndCoolant :
    (∃ (r : Fin 2) (a : Nat) (b : Nat) (d : Nat) (s : State), s.ftf.running = some (.rtd r) ∧ a ≤ 6400000 ∧ b ≤ 6400000 ∧ d ≤ 6400000
      ∧ (le64 0x408F400000000000 (rtdResistance (s.cfg (0x7030 + r) 2) a b d) && le64 (rtdResistance (s.cfg (0x7030 + r) 2) a b d) 0x4098950000000000) = true)
    ∧ (∃ (r : Fin 2) (s : State), s.ftf.running = some (.rtd r))
    ∧ (∃ (c : Fin 2) (s : State), 4 ≤ s.boot.stage ∧ s.dict.applying = false ∧ s.dict.heldOld = [] ∧ s.shadowed (0x7010 + c) 1 = false
      ∧ (s.channel c).state = .disabled)
    ∧ (∃ (c : Fin 2) (s : State), 4 ≤ s.boot.stage ∧ s.dict.applying = false ∧ s.dict.heldOld = [] ∧ s.shadowed (0x7010 + c) 1 = false
      ∧ (s.channel c).state = .idle)
    ∧ (∃ (c : Fin 2) (n : Nat) (s : State), 4 ≤ s.boot.stage ∧ s.dict.applying = false ∧ s.chanCfg c 5 ≠ 2 ∧ 1 ≤ n ∧ n ≤ 255)
    ∧ (∃ (s : State), s.boot.stage = 7 ∧ s.ftf.lastValid + 5000000 ≤ s.clk.now ∧ s.dict.applying = false ∧ s.dict.mode ≠ 4) :=
  ⟨⟨1, 6400000, 6400000, 6400000, { up with ftf := { up.ftf with running := some (.rtd 1) } }, (by decide +kernel), (by decide +kernel),
    (by decide +kernel), (by decide +kernel), (by decide +kernel)⟩,
    ⟨0, { up with ftf := { up.ftf with running := some (.rtd 0) } }, (by decide +kernel)⟩,
    ⟨1, { up with ftf := { up.ftf with channelB := { state := .disabled } } }, (by decide +kernel), (by decide +kernel), (by decide +kernel),
      (by decide +kernel), (by decide +kernel)⟩,
    ⟨1, up, (by decide +kernel), (by decide +kernel), (by decide +kernel), (by decide +kernel), (by decide +kernel)⟩,
    ⟨1, 255, given up 0x7011 5 [0], (by decide +kernel), (by decide +kernel), (by decide +kernel), (by decide +kernel), (by decide +kernel)⟩,
    ⟨{ up with clk := { up.clk with now := 5000000 } }, (by decide +kernel), (by decide +kernel), (by decide +kernel), (by decide +kernel)⟩⟩

/-- Its hypotheses can be met, clause by clause. -/
theorem witness_GovernorLimitsPower :
    (∃ (p : Nat) (s : State), lt64 (int64 s.effectiveCap) (mul64 .near p s.gov.f) = true)
    ∧ (∃ (p : Nat) (s : State), lt64 (int64 s.effectiveCap) (mul64 .near p s.gov.f) = false)
    ∧ (∃ (m : Nat) (s : State), s.gov.mclkTo = some m ∧ (m ≤ s.gov.mclk ∨ s.bw.channelTokens = stepTokens m))
    ∧ (∃ (s : State), s.cfg 0x7100 8 ≠ 0 ∧ s.gov.eCount ≠ 0)
    ∧ (∃ (s : State), s.cfg 0x7100 8 ≠ 0 ∧ s.gov.vrFailed = false)
    ∧ (∃ (s : State), 100 ≤ s.gov.limitRun ∧ s.dict.safeCause.testBit 3 = false ∧ s.dict.applying = false ∧ s.dict.mode ≠ 4)
    ∧ (∃ (s : State), 100000 ≤ s.gov.safeRun ∧ s.dict.safeCause.testBit 3 = true) :=
  ⟨⟨int64 91, up, (by decide +kernel)⟩,
    ⟨int64 90, up, (by decide +kernel)⟩,
    ⟨0, { up with gov := { up.gov with mclkTo := some 0 } }, (by decide +kernel), (by decide +kernel)⟩,
    ⟨{ given up 0x7100 8 [1] with gov := { up.gov with eCount := 1 } }, (by decide +kernel), (by decide +kernel)⟩,
    ⟨given up 0x7100 8 [1], (by decide +kernel), (by decide +kernel)⟩,
    ⟨{ up with gov := { up.gov with limitRun := 100 } }, (by decide +kernel), (by decide +kernel), (by decide +kernel), (by decide +kernel)⟩,
    ⟨{ up with gov := { up.gov with safeRun := 100000 }, dict := { up.dict with safeCause := 8 } }, (by decide +kernel), (by decide +kernel)⟩⟩

/-- A state whose segment 5 is as given. -/
def withSeg (v : Seg) : State := { up with seg := { up.seg with map := [(5, v)] } }

/-- A resident segment in frame 7. -/
def resident : Seg := { state := .resident, frame := some 7 }

/-- Its hypotheses can be met, clause by clause. -/
theorem witness_ReadsFindErrors :
    (∃ (f : Nat) (b : Nat) (n : Nat) (v : Seg) (s : State), f < Config.frames ∧ b < 2048
      ∧ (s.seg.map.find? (fun (e : Nat × Seg) => e.2.frame == some f) = some (n, v)))
    ∧ (∃ (f : Nat) (b : Nat), f < Config.frames ∧ b < 2048)
    ∧ (∃ (f : Nat) (b : Nat) (s : State), f < 3129344 ∧ b < 2048 ∧ (s.seg.map.find? (fun (e : Nat × Seg) => e.2.frame == some f) = none)
      ∧ s.seg.replaced = [] ∧ f ∉ s.seg.quarantine ∧ s.frameTested f = false)
    ∧ (∃ (f : Nat) (b : Nat) (n : Nat) (v : Seg) (s : State), f < Config.frames ∧ b < 2048
      ∧ (s.seg.map.find? (fun (e : Nat × Seg) => e.2.frame == some f) = some (n, v)) ∧ (s.seg_ n).state = .resident)
    ∧ (∃ (f : Nat) (b : Nat), f < Config.frames ∧ b < 2048) :=
  ⟨⟨7, 2047, 5, resident, withSeg resident, (by decide +kernel), (by decide +kernel), (by decide +kernel)⟩,
    ⟨0, 0, (by decide +kernel), (by decide +kernel)⟩,
    ⟨3129343, 0, up, (by decide +kernel), (by decide +kernel), (by decide +kernel), (by decide +kernel), (by decide +kernel), (by decide +kernel)⟩,
    ⟨7, 0, 5, resident, withSeg resident, (by decide +kernel), (by decide +kernel), (by decide +kernel), (by decide +kernel)⟩,
    ⟨0, 2047, (by decide +kernel), (by decide +kernel)⟩⟩

/-- A frame can be picked where a search finds one. -/
theorem picked {s : State} (h : s.seg.free ≠ 0) (k : (s.findFrame Config.poolFrames 0).isSome = true) : s.pickFrame = some (s.pickFrame.getD 0) := by
  unfold State.pickFrame
  rw [if_neg h]
  dsimp only
  split
  · rfl
  · obtain ⟨f, hf⟩ := Option.isSome_iff_exists.mp k
    rw [hf]; rfl

/-- The device with no free frame left, one page slot for burrow 0, tokens for a page, and segment 5 in HBM. -/
def full : State := { given (given (withSeg resident) 0x4102 1 (toLE 4 1)) 0x4111 1 (toLE 4 2000) with
  seg := { (withSeg resident).seg with free := 0 }, bw := { up.bw with pool := 2000 } }

/-- It as the page-out has swept it. -/
def swept : State := ({ full with seg := { full.seg with pagingOut := true } }.sweep [5, 5]).2

/-- The device with segment 5 paged out and wanted back. -/
def wanted : State := { given (withSeg { state := .paged, slot := some 0 }) 0x4111 1 (toLE 4 2000) with
  seg := { (withSeg { state := .paged, slot := some 0 }).seg with wanted := [(5, true)] }, bw := { up.bw with pool := 2000 } }

/-- Its hypotheses can be met, clause by clause. -/
theorem witness_SegmentsArePaged :
    (∃ (s : State), s.cfg 0x4010 1 ≤ s.seg.free ∧ s.seg.pagingOut = false)
    ∧ (∃ (s : State) (u : State) (w : State) (n : Nat) (slot : Nat), s.pageOutRuns = true
      ∧ { s with seg := { s.seg with pagingOut := true } }.sweep ({ s with seg := { s.seg with pagingOut := true } }).sweepOrder = (some n, u)
      ∧ u.freeSlot (u.seg_ n).burrow = some slot ∧ u.charge (u.seg_ n).burrow 1024 = some w)
    ∧ (∃ (n : Nat) (f : Nat) (s : State), (s.seg_ n).state = .pagingOut ∧ (s.seg_ n).frame = some f ∧ (s.seg_ n).kills = []
      ∧ s.coll? (s.seg_ n).coll = none)
    ∧ (∃ (n : Nat) (f : Nat) (slot : Nat) (s : State) (w : State), (s.seg.wanted.find? (fun w => w.1 == n) = some (n, true))
      ∧ (s.seg_ n).slot = some slot ∧ s.pickFrame = some f ∧ (s.seg_ n).state = .paged ∧ s.used 7 hostTagPool < Config.hostPageTags
      ∧ s.vfPresent (s.seg_ n).burrow = true ∧ s.charge (s.seg_ n).burrow 1024 = some w)
    ∧ (∃ (n : Nat) (f : Nat) (s : State), (s.seg_ n).state = .pagingIn ∧ (s.seg_ n).frame = some f ∧ (s.seg_ n).kills = []
      ∧ s.coll? (s.seg_ n).coll = none) :=
  ⟨⟨up, (by decide +kernel), (by decide +kernel)⟩,
    ⟨full, swept, (swept.charge 0 1024).getD up, 5, (swept.freeSlot 0).getD 0, (by decide +kernel), (by decide +kernel),
      getD_self (by decide +kernel) 0, getD_self (by decide +kernel) up⟩,
    ⟨5, 7, withSeg { state := .pagingOut, frame := some 7 }, (by decide +kernel), (by decide +kernel), (by decide +kernel), (by decide +kernel)⟩,
    ⟨5, wanted.pickFrame.getD 0, 0, wanted, (wanted.charge 0 1024).getD up, (by decide +kernel),
      (by decide +kernel), picked (by decide) (by decide +kernel), (by decide +kernel), (by decide +kernel), (by decide +kernel),
      getD_self (by decide +kernel) up⟩,
    ⟨5, 7, withSeg { state := .pagingIn, frame := some 7 }, (by decide +kernel), (by decide +kernel), (by decide +kernel), (by decide +kernel)⟩⟩

/-- The device with two failures of pseudo-channel 255. -/
def failing : State := { up with seg := { up.seg with failures := [(255, 2)] } }

/-- A resident segment being evacuated. -/
def moving : State := withSeg { resident with copying := true }

/-- Its hypotheses can be met, clause by clause. -/
theorem witness_ChannelsAreRetired :
    (∃ (pc : Fin 256) (s : State), s.mustRetire pc = true ∧ pc.val ∉ s.seg.retired)
    ∧ (∃ (pc : Fin 256) (s : State), s.mustRetire pc = false)
    ∧ (∃ (pc : Fin 256) (s : State), 4 ≤ s.boot.stage ∧ s.dict.applying = false ∧ pc.val ∉ s.seg.retired)
    ∧ (∃ (n : Nat) (f : Nat) (g : Nat) (s : State), (s.seg_ n).copying = true ∧ (s.seg_ n).frame = some f ∧ (s.seg_ n).state = .resident
      ∧ (s.seg_ n).kills = [] ∧ s.pickFrame = some g) :=
  ⟨⟨255, failing, (by decide +kernel), (by decide +kernel)⟩,
    ⟨0, failing, (by decide +kernel)⟩,
    ⟨255, up, (by decide +kernel), (by decide +kernel), (by decide +kernel)⟩,
    ⟨5, 7, moving.pickFrame.getD 0, moving, (by decide +kernel), (by decide +kernel), (by decide +kernel),
      (by decide +kernel), picked (by decide) (by decide +kernel)⟩⟩

/-- A state whose port 0 is as given, on a device whose die ID is 1. -/
def withPort (v : Port) : State :=
  { up with boot := { up.boot with fuse := { up.boot.fuse with dieId := 1 } }, fab := { up.fab with ports := [(0, v)] } }

/-- A LINK flit from position 1 of the tray, its port 0, with a die ID. -/
def aLink (die : Nat) : List Byte := mkFlit 2 0 0 0 0 0 ([1, 0, 1, 0] ++ toLE 8 die)

/-- Its hypotheses can be met, clause by clause. -/
theorem witness_PortsComeUpAndGoDown :
    (∃ (p : Fin 10) (s : State), s.dict.applying = false ∧ s.dict.heldOld = [] ∧ s.shadowed (0x6010 + p) 1 = false ∧ 6 ≤ s.boot.stage
      ∧ s.boot.position.isSome = true ∧ s.portUsed p = true ∧ (s.port p).state = .disabled)
    ∧ (∃ (p : Fin 10) (s : State), s.dict.applying = false ∧ s.dict.heldOld = [] ∧ s.shadowed (0x6010 + p) 1 = false ∧ 4 ≤ s.boot.stage
      ∧ (s.port p).state = .up)
    ∧ (∃ (p : Fin 10) (s : State), (s.port p).state = .training ∧ (s.port p).linkSent = false)
    ∧ (∃ (p : Fin 10) (f : List Byte) (s : State), (s.port p).state = .training ∧ (s.port p).linkSent = true ∧ isLink f = true
      ∧ s.linkReason p f = none)
    ∧ (∃ (p : Fin 10) (f : List Byte) (r : Nat) (s : State), (s.port p).state = .training ∧ (s.port p).linkSent = true ∧ isLink f = true
      ∧ s.linkReason p f = some r)
    ∧ (∃ (p : Fin 10) (f : List Byte) (s : State), ((s.port p).state = .down ∨ (s.port p).state = .refused) ∧ (s.port p).since + 10000 ≤ s.clk.now
      ∧ isLink f = true ∧ s.linkReason p f = none)
    ∧ (∃ (p : Fin 10) (s : State), ((s.port p).state = .down ∨ (s.port p).state = .refused) ∧ (s.port p).since + 10000 ≤ s.clk.now)
    ∧ (∃ (p : Fin 10) (s : State), (s.port p).state = .draining ∧ ((s.port p).replay = [] ∨ (s.port p).since + 400 ≤ s.clk.now))
    ∧ (∃ (p : Fin 10) (s : State), (s.port p).state = .up ∧ (s.port p).retrainDue = true)
    ∧ (∃ (p : Fin 10) (f : List Byte) (s : State), (s.port p).state = .retraining ∧ s.clk.now ≤ (s.port p).since + 200 ∧ isLink f = true
      ∧ s.linkReason p f = none)
    ∧ (∃ (p : Fin 10) (s : State), (s.port p).state = .retraining ∧ (s.port p).since + 200 < s.clk.now) :=
  ⟨⟨6, up, (by decide +kernel), (by decide +kernel), (by decide +kernel), (by decide +kernel), (by decide +kernel), (by decide +kernel),
    (by decide +kernel)⟩,
    ⟨0, withPort { state := .up }, (by decide +kernel), (by decide +kernel), (by decide +kernel), (by decide +kernel), (by decide +kernel)⟩,
    ⟨0, withPort { state := .training }, (by decide +kernel), (by decide +kernel)⟩,
    ⟨0, aLink 2, withPort { state := .training, linkSent := true }, (by decide +kernel), (by decide +kernel),
      (by simp only [aLink, isLink, flitCrcOk, mkFlit, crc32c_eq]; decide +kernel), (by decide +kernel)⟩,
    ⟨0, aLink 1, 1, withPort { state := .training, linkSent := true }, (by decide +kernel), (by decide +kernel),
      (by simp only [aLink, isLink, flitCrcOk, mkFlit, crc32c_eq]; decide +kernel), (by decide +kernel)⟩,
    ⟨0, aLink 2, { withPort { state := .down } with clk := { up.clk with now := 10000 } }, (by decide +kernel), (by decide +kernel),
      (by simp only [aLink, isLink, flitCrcOk, mkFlit, crc32c_eq]; decide +kernel), (by decide +kernel)⟩,
    ⟨0, { withPort { state := .refused } with clk := { up.clk with now := 10000 } }, (by decide +kernel), (by decide +kernel)⟩,
    ⟨0, withPort { state := .draining }, (by decide +kernel), (by decide +kernel)⟩,
    ⟨0, withPort { state := .up, retrainDue := true }, (by decide +kernel), (by decide +kernel)⟩,
    ⟨0, aLink 2, { withPort { state := .retraining } with clk := { up.clk with now := 200 } }, (by decide +kernel), (by decide +kernel),
      (by simp only [aLink, isLink, flitCrcOk, mkFlit, crc32c_eq]; decide +kernel), (by decide +kernel)⟩,
    ⟨0, { withPort { state := .retraining } with clk := { up.clk with now := 201 } }, (by decide +kernel), (by decide +kernel)⟩⟩

/-- A message of one flit. -/
def shortMsg : List Byte := (up.mkMsg 0 mRelease 0 0 0 0 []).bytes

/-- A port that is up with two flits kept for replay. -/
def replaying : Port := { state := .up, replay := [{ seq := 0, bytes := [] }, { seq := 1, bytes := [] }] }

/-- Its hypotheses can be met, clause by clause. -/
theorem witness_FlitsArriveInSequence :
    (∃ (p : Fin 10) (f : List Byte) (s : State), (s.port p).receives = true ∧ flitCrcOk f = true ∧ flitKind f = 1 ∧ (s.port p).arrival f = .accepted
      ∧ flitSom f = true ∧ flitEom f = false)
    ∧ (∃ (p : Fin 10) (f : List Byte) (bytes : List Byte) (s : State), (s.port p).receives = true ∧ flitCrcOk f = true ∧ flitKind f = 1
      ∧ (s.port p).arrival f = .accepted ∧ flitSom f = true ∧ flitEom f = true ∧ 16 ≤ field (flitPayload f) 6 2
      ∧ field (flitPayload f) 6 2 ≤ (flitPayload f).length ∧ (flitPayload f).length < field (flitPayload f) 6 2 + 244
      ∧ (s.port p).decode ((flitPayload f).take (field (flitPayload f) 6 2)) = .ok bytes ∧ s.deviceId = some (msgDest bytes))
    ∧ (∃ (p : Fin 10) (f : List Byte) (s : State), (s.port p).receives = true ∧ flitCrcOk f = true ∧ flitKind f = 1
      ∧ (s.port p).arrival f = .duplicate)
    ∧ (∃ (p : Fin 10) (f : List Byte) (s : State), (s.port p).receives = true ∧ flitCrcOk f = false)
    ∧ (∃ (p : Fin 10) (f : List Byte) (i : Nat) (s : State), (s.port p).receives = true ∧ flitCrcOk f = true ∧ flitKind f = 0 ∧ flitNak f = false
      ∧ flitAckValid f = true ∧ ((s.port p).replay.findIdx? (fun x => x.seq == flitAck f) = some i))
    ∧ (∃ (p : Fin 10) (f : List Byte) (i : Nat) (s : State), (s.port p).receives = true ∧ flitCrcOk f = true ∧ flitKind f = 0 ∧ flitNak f = true
      ∧ flitAckValid f = true ∧ ((s.port p).replay.findIdx? (fun x => x.seq == flitAck f) = some i)
      ∧ (∀ x ∈ (s.port p).replay.drop (i + 1), x.resends < 8))
    ∧ (∃ (p : Fin 10) (s : State), (s.port p).receives = true ∧ (s.port p).ackTime + 20 ≤ s.clk.now ∧ (s.port p).replay ≠ []
      ∧ (∀ x ∈ (s.port p).replay, x.resends < 8))
    ∧ (∃ (i : Nat) (m : Message) (s : State), s.fab.transit[i]? = some m ∧ msgSource m.bytes ≠ 127 ∧ s.deviceId = some (msgDest m.bytes)) :=
  ⟨⟨0, mkFlit 1 8 0 0 0 0 [], withPort { state := .up }, (by decide +kernel), (by simp only [flitCrcOk, mkFlit, crc32c_eq]; decide +kernel),
    (by decide +kernel), (by decide +kernel), (by decide +kernel), (by decide +kernel)⟩,
    ⟨0, mkFlit 1 24 0 0 0 0 shortMsg, shortMsg, withPort { state := .up }, (by decide +kernel),
      (by simp only [flitCrcOk, mkFlit, crc32c_eq]; decide +kernel), (by decide +kernel), (by decide +kernel), (by decide +kernel),
      (by decide +kernel), (by decide +kernel), (by decide +kernel), (by decide +kernel), rfl, (by decide +kernel)⟩,
    ⟨0, mkFlit 1 24 0 0 0 0 shortMsg, withPort { state := .up, rxSeq := 1, rxAny := true }, (by decide +kernel),
      (by simp only [flitCrcOk, mkFlit, crc32c_eq]; decide +kernel), (by decide +kernel), (by decide +kernel)⟩,
    ⟨0, [], withPort { state := .up }, (by decide +kernel), (by decide +kernel)⟩,
    ⟨0, mkFlit 0 0 0 0x8000 0 0 [], 0, withPort replaying, (by decide +kernel), (by simp only [flitCrcOk, mkFlit, crc32c_eq]; decide +kernel),
      (by decide +kernel), (by decide +kernel), (by decide +kernel), (by decide +kernel)⟩,
    ⟨0, mkFlit 0 0 0 0xC000 0 0 [], 0, withPort replaying, (by decide +kernel), (by simp only [flitCrcOk, mkFlit, crc32c_eq]; decide +kernel),
      (by decide +kernel), (by decide +kernel), (by decide +kernel), (by decide +kernel), (by decide +kernel)⟩,
    ⟨0, { withPort replaying with clk := { up.clk with now := 20 } }, (by decide +kernel), (by decide +kernel), (by decide +kernel),
      (by decide +kernel)⟩,
    ⟨0, up.mkMsg 0 mRelease 0 0 0 0 [], { up with fab := { up.fab with transit := [up.mkMsg 0 mRelease 0 0 0 0 []] } }, (by decide +kernel),
      (by decide +kernel), (by decide +kernel)⟩⟩

/-- Its hypotheses can be met, clause by clause. -/
theorem witness_CodecStreamsAreBound :
    (∃ (p : Fin 10) (slot : Fin 32) (image : List Byte) (table : Option CodecTable) (s : State), s.dict.applying = false ∧ s.dict.heldOld = []
      ∧ s.shadowed (0x6100 + 32 * p + slot) 1 = false ∧ 4 ≤ s.boot.stage ∧ checkTableImage image = .ok table ∧ (s.port p).state ≠ .up)
    ∧ (∃ (p : Fin 10) (f : List Byte) (s : State), (s.port p).receives = true ∧ flitCrcOk f = true ∧ flitKind f = 3
      ∧ (s.port p).arrival f = .accepted ∧ field (flitPayload f) 0 1 = 1 ∧ ctrlZero (flitPayload f) = true)
    ∧ (∃ (p : Fin 10) (f : List Byte) (s : State), (s.port p).receives = true ∧ flitCrcOk f = true ∧ flitKind f = 3
      ∧ (s.port p).arrival f = .accepted ∧ field (flitPayload f) 0 1 = 2 ∧ ctrlZero (flitPayload f) = true
      ∧ (s.port p).answers (flitPayload f) = true)
    ∧ (∃ (p : Fin 10) (f : List Byte) (s : State), (s.port p).receives = true ∧ flitCrcOk f = true ∧ flitKind f = 3
      ∧ (s.port p).arrival f = .accepted ∧ field (flitPayload f) 0 1 = 3 ∧ ctrlZero (flitPayload f) = true
      ∧ (s.port p).answers (flitPayload f) = true) :=
  ⟨⟨9, 31, [], none, up, (by decide +kernel), (by decide +kernel), (by decide +kernel), (by decide +kernel), rfl, (by decide +kernel)⟩,
    ⟨0, mkFlit 3 0 0 0 0 0 [1], withPort { state := .up }, (by decide +kernel), (by simp only [flitCrcOk, mkFlit, crc32c_eq]; decide +kernel),
      (by decide +kernel), (by decide +kernel), (by decide +kernel), (by decide +kernel)⟩,
    ⟨0, mkFlit 3 0 0 0 0 0 [2], withPort { state := .up, bindNo := 1 }, (by decide +kernel),
      (by simp only [flitCrcOk, mkFlit, crc32c_eq]; decide +kernel), (by decide +kernel), (by decide +kernel), (by decide +kernel),
      (by decide +kernel), (by decide +kernel)⟩,
    ⟨0, mkFlit 3 0 0 0 0 0 [3], withPort { state := .up, bindNo := 1 }, (by decide +kernel),
      (by simp only [flitCrcOk, mkFlit, crc32c_eq]; decide +kernel), (by decide +kernel), (by decide +kernel), (by decide +kernel),
      (by decide +kernel), (by decide +kernel)⟩⟩

/-- A kernel's first instruction is never the one before the dispatcher's return address. -/
theorem entry_ne_return : (4 : BitVec 32) ≠ returnAddress := by
  unfold returnAddress
  generalize Config.dispatcherReturn = x
  intro h
  have := congrArg BitVec.toNat h
  have hx := x.isLt
  simp [BitVec.toNat_add, BitVec.toNat_mul] at this
  omega

/-- The word of an extension instruction. -/
def extWord (op f3 rd r1 r2 f7 : Nat) : Nat := op + 2 ^ 7 * rd + 2 ^ 12 * f3 + 2 ^ 15 * r1 + 2 ^ 20 * r2 + 2 ^ 25 * f7

/-- An invocation on collection 0. -/
def anEvent : TileEvent := { kind := .queryIn, kernel := 0, ctxs := [0] }

/-- A tile at the start of kernel 0, which begins with a word; its registers x5 and d1, d2 hold values. -/
def running (w : Nat) (x5 : BitVec 32) (d1 d2 : BitVec 64) : State :=
  { up with
    colls := [(0, {})]
    grid := { up.grid with
      kernels := [(0, { text := toLE 4 w })]
      tiles := [(0, { running := some anEvent, regs := [(5, x5)], dregs := [(1, d1), (2, d2)] })] } }

/-- Its hypotheses can be met, clause by clause. -/
theorem witness_ArraySumsAreExact :
    (∃ (t : Fin 256) (e : TileEvent) (w : Nat) (s : State), s.extAt t = some (e, .qsel, w) ∧ (s.tile t).pc + 4 ≠ returnAddress)
    ∧ (∃ (t : Fin 256) (e : TileEvent) (w : Nat) (c : Coll) (f : AccFormat) (q : List Byte) (ws : List Nat) (xs : List (List Byte)) (square : Bool) (s : State), s.extAt t = some (e, if square then .xdsq else .xdot, w)
      ∧ (s.tile t).pc + 4 ≠ returnAddress ∧ s.invColl e = some c ∧ f = (if fR2 w = 0 then plainFormat c.ty else weightedFormat c.ty)
      ∧ fRd w + (fF7 w % 32 + 1) ≤ 32 ∧ ((fF7 w).testBit 6 = true ∨ (∀ j < fF7 w % 32 + 1, ((s.tile t).acc (fRd w + j)).format = f))
      ∧ s.operandBytes t e c.vecBytes = some q ∧ s.weights t e (fR2 w) c.dim = some ws
      ∧ s.readVectors t e c.vecBytes (fF7 w % 32 + 1) ((s.tile t).x (fR1 w)).toNat = some xs)
    ∧ (∃ (t : Fin 256) (e : TileEvent) (w : Nat) (s : State), s.extAt t = some (e, .xrd32, w) ∧ (s.tile t).pc + 4 ≠ returnAddress)
    ∧ (∃ (t : Fin 256) (e : TileEvent) (w : Nat) (s : State), s.extAt t = some (e, .xrd64, w) ∧ (s.tile t).pc + 4 ≠ returnAddress)
    ∧ (∃ (t : Fin 256) (e : TileEvent) (w : Nat) (s : State), s.extAt t = some (e, .xastat, w) ∧ (s.tile t).pc + 4 ≠ returnAddress ∧ fRd w ≠ 0) :=
  ⟨⟨0, anEvent, extWord 0x0B 0 0 5 0 1, running (extWord 0x0B 0 0 5 0 1) 0x10080000 0 0, (by decide +kernel), entry_ne_return⟩,
    ⟨0, anEvent, extWord 0x0B 1 31 5 0 0x40, {}, .int32, (running (extWord 0x0B 1 31 5 0 0x40) 0x10080000 0 0).operandBytes 0 anEvent 8 |>.getD [], List.replicate 8 1, [List.replicate 8 0], false, running (extWord 0x0B 1 31 5 0 0x40) 0x10080000 0 0,
      (by decide +kernel), entry_ne_return, (by decide +kernel), (by decide +kernel), (by decide +kernel), (by decide +kernel), rfl,
      (by decide +kernel), (by decide +kernel)⟩,
    ⟨0, anEvent, extWord 0x0B 4 31 31 0 2, running (extWord 0x0B 4 31 31 0 2) 0 0 0, (by decide +kernel), entry_ne_return⟩,
    ⟨0, anEvent, extWord 0x0B 5 7 31 0 2, running (extWord 0x0B 5 7 31 0 2) 0 0 0, (by decide +kernel), entry_ne_return⟩,
    ⟨0, anEvent, extWord 0x0B 6 31 31 0 0, running (extWord 0x0B 6 31 31 0 0) 0 0 0, (by decide +kernel), entry_ne_return, (by decide +kernel)⟩⟩

/-- Its hypotheses can be met, clause by clause. -/
theorem witness_FloatInstructionsFollowIeee :
    (∃ (t : Fin 256) (e : TileEvent) (w : Nat) (r : Nat) (s : State), s.extAt t = some (e, .xfop, w) ∧ (s.tile t).pc + 4 ≠ returnAddress
      ∧ fOp (fopOf w) (modeOf w) ((s.tile t).d (fR1 w)).toNat ((s.tile t).d (fR2 w)).toNat = some r)
    ∧ (∃ (t : Fin 256) (e : TileEvent) (w : Nat) (s : State), s.extAt t = some (e, .xfop, w) ∧ (s.tile t).pc + 4 ≠ returnAddress
      ∧ fOp (fopOf w) (modeOf w) ((s.tile t).d (fR1 w)).toNat ((s.tile t).d (fR2 w)).toNat = none)
    ∧ (∃ (t : Fin 256) (e : TileEvent) (w : Nat) (s : State), s.extAt t = some (e, .xf32, w) ∧ (s.tile t).pc + 4 ≠ returnAddress
      ∧ isNan .b64 ((s.tile t).d (fR1 w)).toNat = false)
    ∧ (∃ (t : Fin 256) (e : TileEvent) (w : Nat) (s : State), s.extAt t = some (e, .xfmvDx, w) ∧ (s.tile t).pc + 4 ≠ returnAddress)
    ∧ (∃ (t : Fin 256) (e : TileEvent) (w : Nat) (s : State), s.extAt t = some (e, .xfmvXd, w) ∧ (s.tile t).pc + 4 ≠ returnAddress)
    ∧ (∃ (t : Fin 256) (e : TileEvent) (w : Nat) (s : State), s.extAt t = some (e, .xfcmp, w) ∧ (s.tile t).pc + 4 ≠ returnAddress)
    ∧ (∃ (t : Fin 256) (e : TileEvent) (w : Nat) (s : State), s.extAt t = some (e, .xkey, w) ∧ (s.tile t).pc + 4 ≠ returnAddress
      ∧ isNan .b32 ((s.tile t).x (fR1 w)).toNat = false)
    ∧ (∃ (t : Fin 256) (e : TileEvent) (w : Nat) (s : State), s.extAt t = some (e, .xkey, w) ∧ isNan .b32 ((s.tile t).x (fR1 w)).toNat = true
      ∧ (s.tile t).running = some e ∧ e.kind = .queryIn)
    ∧ (∃ (t : Fin 256) (e : TileEvent) (w : Nat) (s : State), s.extAt t = some (e, .xfcv, w) ∧ (s.tile t).pc + 4 ≠ returnAddress) :=
  ⟨⟨0, anEvent, extWord 0x2B 0 7 1 2 0, int64 3, running (extWord 0x2B 0 7 1 2 0) 0 (BitVec.ofNat 64 (int64 1)) (BitVec.ofNat 64 (int64 2)),
    (by decide +kernel), entry_ne_return, (by decide +kernel)⟩,
    ⟨0, anEvent, extWord 0x2B 0 7 1 2 0, running (extWord 0x2B 0 7 1 2 0) 0 0x7FF0000000000000 0xFFF0000000000000,
      (by decide +kernel), entry_ne_return, (by decide +kernel)⟩,
    ⟨0, anEvent, extWord 0x2B 1 31 1 0 2, running (extWord 0x2B 1 31 1 0 2) 0 0 0, (by decide +kernel), entry_ne_return, (by decide +kernel)⟩,
    ⟨0, anEvent, extWord 0x2B 2 7 5 31 0, running (extWord 0x2B 2 7 5 31 0) 1 0 0, (by decide +kernel), entry_ne_return⟩,
    ⟨0, anEvent, extWord 0x2B 3 31 7 0 1, running (extWord 0x2B 3 31 7 0 1) 1 0 0, (by decide +kernel), entry_ne_return⟩,
    ⟨0, anEvent, extWord 0x2B 4 31 1 2 0, running (extWord 0x2B 4 31 1 2 0) 1 0 0, (by decide +kernel), entry_ne_return⟩,
    ⟨0, anEvent, extWord 0x2B 5 31 5 0 1, running (extWord 0x2B 5 31 5 0 1) 0x3F800000 0 0, (by decide +kernel), entry_ne_return,
      (by decide +kernel)⟩,
    ⟨0, anEvent, extWord 0x2B 5 31 5 0 1, running (extWord 0x2B 5 31 5 0 1) 0x7FC00000 0 0, (by decide +kernel), (by decide +kernel),
      (by decide +kernel), (by decide +kernel)⟩,
    ⟨0, anEvent, extWord 0x2B 6 7 5 0 0, running (extWord 0x2B 6 7 5 0 0) 0xFFFFFFFF 0 0, (by decide +kernel), entry_ne_return⟩⟩

/-- An event of kernel 0 about one record of a list of collection 0, for context 0. -/
def eventOf (k : TileEventKind) : TileEvent :=
  { kind := k, kernel := 0, ctxs := [0], what := .list 0, metaBytes := zeros 24 ++ [1] ++ zeros 295, count := 1 }

/-- A query on collection 0 that holds slot 0 of tile 0. -/
def aQuery : Ctx := { k := 1, phase := .wave, tiles := [(0, 0)] }

/-- The tile 0 as given, running an event on a kernel whose text begins with a word; collection 0 and context 0 exist. -/
def invoked (w : Nat) (e : TileEvent) (v : Tile) : State :=
  { up with
    colls := [(0, {})]
    sched := { up.sched with ctxs := [(0, aQuery)] }
    grid := { up.grid with kernels := [(0, { text := toLE 4 w })], tiles := [(0, { v with running := some e, slots := [(0, 0)] })] } }

/-- The address a kernel returns to is even. -/
theorem return_even : (returnAddress + 0) &&& 0xFFFFFFFE = returnAddress := by
  unfold returnAddress
  generalize Config.dispatcherReturn = x
  revert x
  decide +kernel

/-- The tile after a base instruction. -/
def afterRv (o : RvOut) : Tile := match o with | .ok v => v | .fault _ => {}

/-- A message to kernel 0 of tile 0 from tile 1. -/
def aUserMsg : UserMsg := { source := 1, dest := 0, kernel := 0, tag := 3, payload := [] }

/-- Its hypotheses can be met, clause by clause. -/
theorem witness_KernelsPassPostAndSend :
    (∃ (t : Fin 256) (e : TileEvent) (w : Nat) (s : State), s.extAt t = some (e, .xpass, w) ∧ (s.tile t).pc + 4 ≠ returnAddress
      ∧ (∀ p ∈ s.invQueries t e, (s.tile t).passBit e.metaBuf ((s.tile t).x (fR1 w)).toNat p.2 = false))
    ∧ (∃ (t : Fin 256) (e : TileEvent) (w : Nat) (x : Nat) (slot : Nat) (s : State), s.extAt t = some (e, .xpass, w)
      ∧ (s.tile t).pc + 4 ≠ returnAddress ∧ e.ofStripe = true ∧ s.invQueries t e = [(x, slot)] ∧ ((s.tile t).x (fR1 w)).toNat < 2048
      ∧ fF7 w % 2 = slot / 32 ∧ (s.tile t).passBit e.metaBuf ((s.tile t).x (fR1 w)).toNat slot = true)
    ∧ (∃ (t : Fin 256) (e : TileEvent) (w : Nat) (s : State), s.extAt t = some (e, .xpclr, w) ∧ (s.tile t).pc + 4 ≠ returnAddress
      ∧ (e.kind = .metaSeg ∨ e.kind = .pblock))
    ∧ (∃ (t : Fin 256) (e : TileEvent) (w : Nat) (a : Nat) (x : Nat) (q : Ctx) (s : State), s.extAt t = some (e, .xpost, w)
      ∧ (s.tile t).pc + 4 ≠ returnAddress ∧ (e.kind = .vec ∨ e.kind = .pblock) ∧ e.what ≠ .centroids ∧ ((s.tile t).x (fR2 w)).toNat = a ∧ a < 2 ^ 17
      ∧ a / 64 < s.recordLimit e ∧ ((s.invQueries t e).find? (fun p => p.2 == a % 64) = some (x, a % 64)) ∧ s.slotQuery t x (a % 64) = some q
      ∧ ((s.tile t).passBit e.metaBuf (a / 64) (a % 64) = false ∨ q.beatsTau ((s.tile t).x (fR1 w)).toNat (recSeq (e.record (a / 64))) = false))
    ∧ (∃ (t : Fin 256) (e : TileEvent) (w : Nat) (a : Nat) (x : Nat) (q : Ctx) (s : State), s.extAt t = some (e, .xpost, w)
      ∧ (s.tile t).pc + 4 ≠ returnAddress ∧ (e.kind = .vec ∨ e.kind = .pblock) ∧ e.what ≠ .centroids ∧ ((s.tile t).x (fR2 w)).toNat = a ∧ a < 2 ^ 17
      ∧ a / 64 < s.recordLimit e ∧ ((s.invQueries t e).find? (fun p => p.2 == a % 64) = some (x, a % 64)) ∧ s.slotQuery t x (a % 64) = some q
      ∧ (s.tile t).passBit e.metaBuf (a / 64) (a % 64) = true ∧ q.beatsTau ((s.tile t).x (fR1 w)).toNat (recSeq (e.record (a / 64))) = true
      ∧ s.postFree t q.sorterNo = true)
    ∧ (∃ (t : Fin 256) (e : TileEvent) (w : Nat) (h : List Byte) (m : List Byte) (s : State), s.extAt t = some (e, .xmsend, w)
      ∧ (s.tile t).pc + 4 ≠ returnAddress ∧ s.tileRead t e ((s.tile t).x (fR2 w)).toNat 16 = some h ∧ sendable t h = true
      ∧ s.tileRead t e ((s.tile t).x (fR2 w)).toNat (64 + 64 * field h 6 2) = some m)
    ∧ (∃ (t : Fin 256) (e : TileEvent) (w : Nat) (m : UserMsg) (rest : List UserMsg) (v : Tile) (s : State), s.extAt t = some (e, .xmrecv, w)
      ∧ (s.tile t).pc + 4 ≠ returnAddress ∧ (takeFirst (fun m => m.kernel == e.kernel) (s.tile t).recvQueue = some (m, rest))
      ∧ (s.tile t).storeAt e.kernel ((s.tile t).x (fR1 w)).toNat m.bytes = some v)
    ∧ (∃ (t : Fin 256) (e : TileEvent) (len : Nat) (i : Rv) (v : Tile) (s : State), (s.tile t).running = some e ∧ s.rvFetch t e = some (len, i)
      ∧ (∀ w, i ≠ .ext w) ∧ s.rvExec t e len i = .ok v ∧ v.pc ≠ returnAddress)
    ∧ (∃ (t : Fin 256) (e : TileEvent) (len : Nat) (i : Rv) (v : Tile) (s : State), (s.tile t).running = some e ∧ e.kind = .queryIn
      ∧ s.rvFetch t e = some (len, i) ∧ (∀ w, i ≠ .ext w) ∧ s.rvExec t e len i = .ok v ∧ v.pc = returnAddress) :=
  ⟨⟨0, eventOf .vec, extWord 0x5B 0 31 0 0 0, invoked (extWord 0x5B 0 31 0 0 0) (eventOf .vec) {}, (by decide +kernel), entry_ne_return,
    (by decide +kernel)⟩,
    ⟨0, eventOf .vec, extWord 0x5B 0 31 0 0 0, 0, 0, invoked (extWord 0x5B 0 31 0 0 0) (eventOf .vec) { passes := [0] },
      (by decide +kernel), entry_ne_return, (by decide +kernel), (by decide +kernel), (by decide +kernel), (by decide +kernel), (by decide +kernel)⟩,
    ⟨0, eventOf .metaSeg, extWord 0x5B 1 0 0 0 0, invoked (extWord 0x5B 1 0 0 0 0) (eventOf .metaSeg) {}, (by decide +kernel), entry_ne_return,
      (by decide +kernel)⟩,
    ⟨0, eventOf .vec, extWord 0x5B 2 31 1 0 0, 0, 0, aQuery, invoked (extWord 0x5B 2 31 1 0 0) (eventOf .vec) {},
      (by decide +kernel), entry_ne_return, (by decide +kernel), (by decide +kernel), (by decide +kernel), (by decide +kernel), (by decide +kernel),
      (by decide +kernel), (by decide +kernel), (by decide +kernel)⟩,
    ⟨0, eventOf .vec, extWord 0x5B 2 31 1 0 0, 0, 0, aQuery, invoked (extWord 0x5B 2 31 1 0 0) (eventOf .vec) { passes := [0] },
      (by decide +kernel), entry_ne_return, (by decide +kernel), (by decide +kernel), (by decide +kernel), (by decide +kernel), (by decide +kernel),
      (by decide +kernel), (by decide +kernel), (by decide +kernel), (by decide +kernel), (by decide +kernel)⟩,
    ⟨0, eventOf .queryIn, extWord 0x5B 3 31 0 5 0, [1, 0, 0, 0, 3, 0, 0, 0, 0, 0, 0, 0, 0, 0, 0, 0], padTo 64 [1, 0, 0, 0, 3], invoked (extWord 0x5B 3 31 0 5 0) (eventOf .queryIn) { regs := [(5, 0x10080000)], mem := [(0x10080000, 1), (0x10080004, 3)] },
      (by decide +kernel), entry_ne_return, (by decide +kernel), (by decide +kernel), (by decide +kernel)⟩,
    ⟨0, eventOf .queryIn, extWord 0x5B 4 31 5 0 0, aUserMsg, [], { regs := [(5, 0x10080000)], recvQueue := [aUserMsg], running := some (eventOf .queryIn), slots := [(0, 0)], mem := Memory.writeN 0 [] 0x10080000 aUserMsg.bytes }, invoked (extWord 0x5B 4 31 5 0 0) (eventOf .queryIn) { regs := [(5, 0x10080000)], recvQueue := [aUserMsg] },
      (by decide +kernel), entry_ne_return, (by decide +kernel), (by decide +kernel)⟩,
    ⟨0, eventOf .queryIn, 4, .lui 5 0x1000, afterRv ((invoked 0x12B7 (eventOf .queryIn) {}).rvExec 0 (eventOf .queryIn) 4 (.lui 5 0x1000)), invoked 0x12B7 (eventOf .queryIn) {},
      (by decide +kernel), (by decide +kernel), (by intro w; nofun), rfl, entry_ne_return⟩,
    ⟨0, eventOf .queryIn, 2, .jalr 0 1 0, afterRv ((invoked 0x8082 (eventOf .queryIn) { regs := [(1, returnAddress)] }).rvExec 0 (eventOf .queryIn) 2 (.jalr 0 1 0)), invoked 0x8082 (eventOf .queryIn) { regs := [(1, returnAddress)] },
      (by decide +kernel), (by decide +kernel), (by decide +kernel), (by intro w; nofun), rfl, return_even⟩⟩

/-- The tile 0 as given, collection 0 and context 0 in place. -/
def tiled (v : Tile) : State :=
  { up with
    colls := [(0, {})]
    sched := { up.sched with ctxs := [(0, aQuery)] }
    grid := { up.grid with tiles := [(0, { v with slots := [(0, 0)] })] } }

/-- Its hypotheses can be met, clause by clause. -/
theorem witness_TilesServeTheirEvents :
    (∃ (t : Fin 256) (e : TileEvent) (rest : List TileEvent) (s : State), (s.tile t).running = none ∧ (s.tile t).events = e :: rest ∧ e.kernel < 4
      ∧ e.kind = .queryIn)
    ∧ (∃ (t : Fin 256) (e : TileEvent) (rest : List TileEvent) (s : State), (s.tile t).running = none ∧ (s.tile t).events = e :: rest ∧ e.kernel < 4
      ∧ e.kind = .metaSeg)
    ∧ (∃ (t : Fin 256) (e : TileEvent) (rest : List TileEvent) (s : State), (s.tile t).running = none ∧ (s.tile t).events = e :: rest ∧ e.kernel < 4
      ∧ e.kind = .retire ∧ Map.get? (s.tile t).slots e.first ≠ none)
    ∧ (∃ (t : Fin 256) (e : TileEvent) (rest : List TileEvent) (s : State) (p : Instr × TileEventKind), p ∈ [(Instr.queryIn t, TileEventKind.queryIn), (.metaEvent t, .metaSeg), (.vec t, .vec), (.pblock t, .pblock), (.retire t, .retire)]
      ∧ (s.tile t).running = none ∧ (s.tile t).events = e :: rest ∧ 4 ≤ e.kernel ∧ e.ctxs ≠ [] ∧ e.kind = p.2)
    ∧ (∃ (t : Fin 256) (e : TileEvent) (rest : List TileEvent) (c : Coll) (q : Ctx) (x : Nat) (slot : Nat) (s : State) (p : Instr × TileEventKind), p ∈ [(Instr.vec t, TileEventKind.vec), (.pblock t, .pblock)]
      ∧ (s.tile t).running = none ∧ (s.tile t).events = e :: rest ∧ e.kernel = 0 ∧ e.count = 1 ∧ e.done = 0 ∧ e.ctxs ≠ [] ∧ s.invColl e = some c
      ∧ s.invQueries t e = [(x, slot)] ∧ s.ctx? x = some q ∧ (s.tile t).passBit e.metaBuf e.first slot = true ∧ s.postFree t q.sorterNo = true
      ∧ q.beatsTau (rankOrderKey c.metric (score c.metric c.ty (elements c.ty c.dim q.vec) (elements c.ty c.dim (e.vector c.vecBytes e.first)) (recNorm (e.record e.first)))) (recSeq (e.record e.first)) = true
      ∧ e.kind = p.2)
    ∧ (∃ (t : Fin 256) (e : TileEvent) (rest : List TileEvent) (c : Coll) (q : Ctx) (x : Nat) (slot : Nat) (s : State), (s.tile t).running = none
      ∧ (s.tile t).events = e :: rest ∧ e.kind = .vec ∧ e.kernel = 1 ∧ e.ctxs ≠ [] ∧ s.coll? e.coll = some c ∧ c.metric ≠ .custom
      ∧ s.invQueries t e = [(x, slot)] ∧ s.ctx? x = some q)
    ∧ (∃ (t : Fin 256) (f : Fin 256) (e : TileEvent) (m : UserMsg) (rest : List UserMsg) (s : State), (s.tile t).running = some e ∧ f ≠ t
      ∧ (s.tile t).recvQueue.length < 32 ∧ s.mail f t = some (m, rest) ∧ (∀ g < 256, g ≠ f.val → s.mail g t = none))
    ∧ (∃ (t : Fin 256) (e : TileEvent) (s : State), (s.tile t).running = some e ∧ e.kind = .queryIn ∧ s.kernelLimit < s.clk.now - (s.tile t).started)
    ∧ (∃ (s : State), 4 ≤ s.boot.stage ∧ s.dict.applying = false)
    ∧ (∃ (t : Fin 256) (s : State), (s.tile t).resetPending = true ∧ (s.tile t).slots = [] ∧ (s.tile t).running = none) :=
  ⟨⟨0, { eventOf .queryIn with kernel := 3 }, [], tiled { events := [{ eventOf .queryIn with kernel := 3 }] }, (by decide +kernel),
    (by decide +kernel), (by decide +kernel), (by decide +kernel)⟩,
    ⟨0, eventOf .metaSeg, [], tiled { events := [eventOf .metaSeg] }, (by decide +kernel), (by decide +kernel), (by decide +kernel),
      (by decide +kernel)⟩,
    ⟨0, eventOf .retire, [], tiled { events := [eventOf .retire] }, (by decide +kernel), (by decide +kernel), (by decide +kernel),
      (by decide +kernel), (by decide +kernel)⟩,
    ⟨0, { eventOf .vec with kernel := 4 }, [], tiled { events := [{ eventOf .vec with kernel := 4 }] }, (.vec 0, .vec), (by decide +kernel),
      (by decide +kernel), (by decide +kernel), (by decide +kernel), (by decide +kernel), (by decide +kernel)⟩,
    ⟨0, eventOf .pblock, [], {}, aQuery, 0, 0, tiled { events := [eventOf .pblock], passes := [0] }, (.pblock 0, .pblock), (by decide +kernel),
      (by decide +kernel), (by decide +kernel), (by decide +kernel), (by decide +kernel), (by decide +kernel), (by decide +kernel),
      (by decide +kernel), (by decide +kernel), (by decide +kernel), (by decide +kernel), (by decide +kernel), (by decide +kernel),
      (by decide +kernel)⟩,
    ⟨0, { eventOf .vec with kernel := 1 }, [], {}, aQuery, 0, 0, tiled { events := [{ eventOf .vec with kernel := 1 }] }, (by decide +kernel),
      (by decide +kernel), (by decide +kernel), (by decide +kernel), (by decide +kernel), (by decide +kernel), (by decide +kernel),
      (by decide +kernel), (by decide +kernel)⟩,
    ⟨0, 255, eventOf .queryIn, { aUserMsg with source := 255 }, [], { up with grid := { up.grid with tiles := [(0, { running := some (eventOf .queryIn) }), (255, { sendQueue := [{ aUserMsg with source := 255 }] })] } },
      (by decide +kernel), (by decide +kernel), (by decide +kernel), (by decide +kernel), (by decide +kernel)⟩,
    ⟨255, eventOf .queryIn, { up with clk := { up.clk with now := 2 ^ 40 }, grid := { up.grid with tiles := [(255, { running := some (eventOf .queryIn) })] } },
      (by decide +kernel), (by decide +kernel), (by decide +kernel)⟩,
    ⟨up, (by decide +kernel), (by decide +kernel)⟩,
    ⟨255, { up with grid := { up.grid with tiles := [(255, { resetPending := true, faulted := [2] })] } }, (by decide +kernel), (by decide +kernel),
      (by decide +kernel)⟩⟩

/-- A descriptor of n bytes with the given fields: offset, width, value. -/
def desc (n : Nat) (fs : List (Nat × Nat × Nat)) : List Byte := fs.foldl (fun b f => splice b f.1 (toLE f.2.1 f.2.2)) (zeros n)

/-- A collection of one list, of which this device is the sequencer. -/
def aColl : Coll := { shards := [(0, 0)], seqr := some {} }

/-- The device with that collection. -/
def serving : State := { up with colls := [(0, aColl)] }

/-- A command of queue 0 of burrow 0 that admission has chosen. -/
def chosen (bs : List Byte) : Fetched := { origin := { burrow := 0, queue := 0, gen := 0, cmdId := 9 }, bytes := bs, entries := 1, order := 0 }

/-- A state in which admission has chosen a command. -/
def admitting (s : State) (bs : List Byte) : State := { s with host := { s.host with admitting := some (chosen bs) } }

/-- The state once it is begun. -/
def begun (op : Nat) (s : State) : State := ((s.begin_ op).map Prod.snd).getD s

/-- A state in which command 3 is live. -/
def inFlight (s : State) (bs : List Byte) : State :=
  { s with host := { s.host with live := [(3, { origin := { burrow := 0, queue := 0, gen := 0, cmdId := 9 }, opcode := dOpcode bs, bytes := bs })] } }

/-- A QUERY of one result. -/
def queryBytes : List Byte := desc 256 [(0, 1, 0x01), (6, 2, 8), (8, 2, 1), (12, 1, 1), (20, 4, 1), (32, 4, 16)]

/-- A repair image of one centroid section, for that collection once loaded. -/
def anImage : List Byte :=
  let h := ascii "RLIX" ++ desc 120 [(0, 2, 1), (2, 2, 1), (4, 2, 8), (6, 1, ElemType.int8.code), (7, 1, Metric.innerProduct.code), (8, 4, 1), (12, 4, 1)]
  h ++ toLE 4 (crc32c h) ++ desc 24 [(0, 4, 1), (4, 4, crc32c (zeros 8)), (8, 8, 152), (16, 8, 8)] ++ zeros 8

/-- LOAD_LISTS of that image. -/
def loadBytes : List Byte := desc 128 [(0, 1, 0x53), (24, 8, 160)]

/-- The device with the collection loaded. -/
def loaded : State := { up with colls := [(0, { aColl with load := .loaded })] }

/-- Its hypotheses can be met, clause by clause. -/
theorem witness_HostCommandsAreAdmitted :
    (∃ (f : Fetched) (c : Coll) (s : State) (u : State), s.begin_ 0x01 = some (f, u) ∧ s.queryCheck f.origin.burrow f.bytes = none
      ∧ s.served (dColl f.bytes) = some c ∧ s.queryCredits (qK f.bytes) = true ∧ s.isSequencer c = true ∧ c.mediaQuery = false ∧ qK f.bytes ≠ 0)
    ∧ (∃ (f : Fetched) (s : State) (u : State), s.begin_ 0x20 = some (f, u) ∧ selectCheck f.bytes = none ∧ s.queryCredits (selectK f.bytes) = true
      ∧ selectK f.bytes ≠ 0)
    ∧ (∃ (p : Instr × Nat) (f : Fetched) (s : State) (u : State), p ∈ [(Instr.insert, 0x10), (.delete, 0x11), (.upsert, 0x12)]
      ∧ s.begin_ p.2 = some (f, u) ∧ s.mutationCheck f.origin.burrow f.bytes = none ∧ s.used 0x05 0 < Config.mutationSlots)
    ∧ (∃ (f : Fetched) (s : State) (u : State), s.begin_ 0x40 = some (f, u) ∧ u.fenceCheck f.origin.burrow f.bytes = none)
    ∧ (∃ (b : Fin 64) (q : Fin 16) (key : Nat) (l : Live) (s : State), s.liveFence b q = some (key, l) ∧ s.live? key = some l
      ∧ s.fenceDone key l = true ∧ l.ctx = none ∧ l.mutationSlot = false ∧ (dFlags l.bytes).testBit 1 = false)
    ∧ (∃ (b : Fin 64) (q : Fin 16) (key : Nat) (l : Live) (c : Coll) (s : State), s.liveFence b q = some (key, l) ∧ s.fenceDone key l = true
      ∧ (dFlags l.bytes).testBit 1 = true ∧ s.served (dColl l.bytes) = some c ∧ c.recovered = none ∧ s.isSequencer c = true)
    ∧ (∃ (p : Instr × Nat) (f : Fetched) (s : State) (u : State), p ∈ [(Instr.collectionDrop, 0x51), (.compact, 0x52)] ∧ s.begin_ p.2 = some (f, u)
      ∧ u.manageCheck f.origin.burrow f.bytes (dropFieldsOk f.bytes) (p.2 == 0x51) = none)
    ∧ (∃ (f : Fetched) (c : Coll) (data : List Byte) (s : State) (u : State), s.begin_ 0x53 = some (f, u)
      ∧ s.manageCheck f.origin.burrow f.bytes (loadFieldsOk f.bytes) false = none ∧ u.served (dColl f.bytes) = some c
      ∧ data.length = field f.bytes 24 8 ∧ imageCheck c.target data = none)
    ∧ (∃ (f : Fetched) (c : Coll) (s : State) (u : State), s.begin_ 0x54 = some (f, u) ∧ u.exportCheck f.origin.burrow f.bytes = none
      ∧ u.served (dColl f.bytes) = some c ∧ u.isSequencer c = true) :=
  ⟨⟨chosen queryBytes, aColl, admitting serving queryBytes, begun 0x01 (admitting serving queryBytes), (by decide +kernel), (by decide +kernel),
    (by decide +kernel), (by decide +kernel), (by decide +kernel), (by decide +kernel), (by decide +kernel)⟩,
    ⟨chosen (desc 128 [(0, 1, 0x20), (8, 2, 1), (12, 4, 1), (16, 4, 1), (20, 4, 1), (32, 8, 64), (48, 8, 64)]), admitting up (desc 128 [(0, 1, 0x20), (8, 2, 1), (12, 4, 1), (16, 4, 1), (20, 4, 1), (32, 8, 64), (48, 8, 64)]), begun 0x20 (admitting up (desc 128 [(0, 1, 0x20), (8, 2, 1), (12, 4, 1), (16, 4, 1), (20, 4, 1), (32, 8, 64), (48, 8, 64)])),
      (by decide +kernel), (by decide +kernel), (by decide +kernel), (by decide +kernel)⟩,
    ⟨(.insert, 0x10), chosen (desc 256 [(0, 1, 0x10), (6, 2, 8), (8, 1, 1)]), admitting serving (desc 256 [(0, 1, 0x10), (6, 2, 8), (8, 1, 1)]), begun 0x10 (admitting serving (desc 256 [(0, 1, 0x10), (6, 2, 8), (8, 1, 1)])),
      (by decide +kernel), (by decide +kernel), (by decide +kernel), (by decide +kernel)⟩,
    ⟨chosen (desc 128 [(0, 1, 0x40)]), admitting up (desc 128 [(0, 1, 0x40)]), begun 0x40 (admitting up (desc 128 [(0, 1, 0x40)])),
      (by decide +kernel), (by decide +kernel)⟩,
    ⟨0, 0, 3, { origin := { burrow := 0, queue := 0, gen := 0, cmdId := 9 }, opcode := 0x40, bytes := desc 128 [(0, 1, 0x40)] }, inFlight up (desc 128 [(0, 1, 0x40)]),
      (by decide +kernel), (by decide +kernel), (by decide +kernel), (by decide +kernel), (by decide +kernel), (by decide +kernel)⟩,
    ⟨0, 0, 3, { origin := { burrow := 0, queue := 0, gen := 0, cmdId := 9 }, opcode := 0x40, bytes := desc 128 [(0, 1, 0x40), (1, 1, 2)] }, aColl, inFlight serving (desc 128 [(0, 1, 0x40), (1, 1, 2)]),
      (by decide +kernel), (by decide +kernel), (by decide +kernel), (by decide +kernel), (by decide +kernel), (by decide +kernel)⟩,
    ⟨(.compact, 0x52), chosen (desc 128 [(0, 1, 0x52)]), admitting serving (desc 128 [(0, 1, 0x52)]), begun 0x52 (admitting serving (desc 128 [(0, 1, 0x52)])),
      (by decide +kernel), (by decide +kernel), (by decide +kernel)⟩,
    ⟨chosen loadBytes, { aColl with load := .loaded }, anImage, admitting loaded loadBytes, begun 0x53 (admitting loaded loadBytes),
      (by decide +kernel), (by decide +kernel), (by decide +kernel), (by decide +kernel), (by decide +kernel)⟩,
    ⟨chosen (desc 128 [(0, 1, 0x54)]), aColl, admitting serving (desc 128 [(0, 1, 0x54)]), begun 0x54 (admitting serving (desc 128 [(0, 1, 0x54)])),
      (by decide +kernel), (by decide +kernel), (by decide +kernel), (by decide +kernel)⟩⟩

/-- A segment can be allocated while none is listed. -/
theorem allocates {s : State} {b kind coll list written : Nat} (hf : s.seg.frozen = false) (hq : (s.quotaLeft b == 0) = false) (hm : s.seg.map = [])
    (h : s.seg.free ≠ 0) (k : (s.findFrame Config.poolFrames 0).isSome = true) : (s.alloc b kind coll list written).isSome = true := by
  unfold State.alloc
  rw [hf, hq, if_neg (by decide)]
  dsimp only
  have hn : ∀ n, (s.seg_ n).state = .free := by intro n; unfold State.seg_; rw [hm]; rfl
  rw [if_pos (hn _), if_neg (by have := Nat.mod_lt ((s.draw.2).draw.1) (show 0 < Config.lastSegment + 1 by decide); omega), picked h k]
  rfl

/-- The device with a program key, burrow 0 being allowed to load programs and create a collection. -/
def allowed : State := given (given (given (given up 0x4100 1 (toLE 4 5)) 0x5000 7 [3]) 0x5000 0x0B [1]) 0x2141 1 (4 :: zeros 96)

/-- A kernel image with an empty ELF file. -/
def aKernel : List Byte :=
  desc 64 [(0, 1, 0x52), (1, 1, 0x4C), (2, 1, 0x4B), (3, 1, 0x49), (4, 2, 1), (7, 1, 1), (8, 4, 1), (16, 4, 96)]
    ++ desc 96 [(0, 1, 0x7F), (1, 1, 0x45), (2, 1, 0x4C), (3, 1, 0x46), (4, 1, 1), (5, 1, 1), (16, 2, 2), (18, 2, 243), (24, 4, 0x8000), (36, 4, 1)]
    ++ zeros 96

/-- PROGRAM_LOAD into slot 4, with and without an image. -/
def programBytes (n : Nat) : List Byte := desc 64 [(0, 1, 0x60), (4, 1, 4), (16, 4, n)]

/-- COLLECTION_CREATE of one list of dimension 8 on this device. -/
def createBytes : List Byte := desc 256 [(0, 1, 0x50), (6, 2, 8), (13, 1, 1), (14, 2, 1), (16, 4, 1)]

/-- It, once taken in. -/
def taken1 : State := ((begun 0x50 (admitting allowed createBytes)).takeIn (chosen createBytes)).2

/-- The live command 3 of `inFlight`. -/
def liveOf (bs : List Byte) : Live := { origin := { burrow := 0, queue := 0, gen := 0, cmdId := 9 }, opcode := dOpcode bs, bytes := bs }

/-- A handle's payload, and the device that stores it, with tokens. -/
def aHandle : Handle := { n := 4096, s := 4096, seg := 10 }
def storingPay : State :=
  { given up 0x4111 1 (toLE 4 2000) with
    bw := { up.bw with pool := 2000 }
    seg := { up.seg with map := [(10, { state := .resident, frame := some 7, kind := 0x0B })] }
    pay := { handles := [(5, aHandle)], pages := [(0, 9)], granules := [(10, [0])] } }

/-- Its hypotheses can be met, clause by clause. -/
theorem witness_ProgramsCollectionsAndPayloads :
    (∃ (f : Fetched) (s : State) (u : State), s.begin_ 0x60 = some (f, u) ∧ u.programAllowed f.origin.burrow f.bytes = true ∧ field f.bytes 16 4 = 0)
    ∧ (∃ (f : Fetched) (data : List Byte) (pk : List Byte) (k : Kernel) (s : State) (u : State), s.begin_ 0x60 = some (f, u)
      ∧ u.programAllowed f.origin.burrow f.bytes = true ∧ field f.bytes 16 4 ≠ 0 ∧ data.length = field f.bytes 16 4
      ∧ kernelOf data (field f.bytes 4 1) f.origin.burrow = some k ∧ 1 ≤ field data 7 1 ∧ field data 7 1 ≤ 4
      ∧ s.programKey (field data 7 1) = some pk)
    ∧ (∃ (f : Fetched) (r : Nat) (c : Coll) (s : State) (u : State) (v : State) (w : State), s.begin_ 0x50 = some (f, u)
      ∧ u.createCheck f.origin.burrow f.bytes = none ∧ (mapDevices (parseRanges (f.bytes.drop 128) (createRanges f.bytes))).filter (· != u.self) = []
      ∧ u.takeIn f = (Map.freeKey s.host.live 4096 0, v) ∧ v.alloc f.origin.burrow 6 (dColl f.bytes) Config.noSegment 0 = some (r, w)
      ∧ c = newColl (slice f.bytes 4 16) (dFlags f.bytes) f.origin.burrow (parseRanges (f.bytes.drop 128) (createRanges f.bytes)))
    ∧ (∃ (key : Nat) (l : Live) (s : State), s.begin_ 0x31 = none ∧ s.oldestLive 0x31 = some key ∧ s.live? key = some l ∧ field l.bytes 8 4 = 0)
    ∧ (∃ (key : Nat) (seg : Nat) (first : Nat) (l : Live) (s : State) (w : State), s.begin_ 0x31 = none ∧ s.oldestLive 0x31 = some key
      ∧ s.live? key = some l ∧ field l.bytes 4 4 ≠ 0 ∧ field l.bytes 8 4 ≠ 0 ∧ badSource l.bytes l.data = false
      ∧ s.hasPage l.origin.burrow (field l.bytes 4 4) = true
      ∧ s.findRun l.origin.burrow (granulesFor ((payFmtOf l.bytes).stored (field l.bytes 8 4))) = some (seg, first)
      ∧ s.charge l.origin.burrow (tokensFor ((payFmtOf l.bytes).stored (field l.bytes 8 4))) = some w)
    ∧ (∃ (key : Nat) (l : Live) (s : State), s.begin_ 0x30 = none ∧ s.oldestLive 0x30 = some key ∧ s.live? key = some l
      ∧ s.handle l.origin.burrow (field l.bytes 4 4) = none ∧ 64 ≤ field l.bytes 24 4)
    ∧ (∃ (key : Nat) (l : Live) (v : Handle) (s : State) (w : State), s.begin_ 0x30 = none ∧ s.oldestLive 0x30 = some key ∧ s.live? key = some l
      ∧ s.handle l.origin.burrow (field l.bytes 4 4) = some v ∧ v.damaged = false ∧ (dFlags l.bytes).testBit 0 = false ∧ 64 + v.s ≤ field l.bytes 24 4
      ∧ s.readable v.seg = true ∧ s.charge l.origin.burrow (tokensFor v.s) = some w)
    ∧ (∃ (i : Nat) (b : Nat) (v : Handle) (us : List Nat) (s : State), s.pay.old[i]? = some (b, v) ∧ Map.get? s.pay.granules v.seg = some us
      ∧ (∃ j ∈ us, j < v.granule ∨ v.granule + granulesFor v.s ≤ j)) :=
  ⟨⟨chosen (programBytes 0), admitting allowed (programBytes 0), begun 0x60 (admitting allowed (programBytes 0)), (by decide +kernel),
    (by decide +kernel), (by decide +kernel)⟩,
    ⟨chosen (programBytes 256), aKernel, zeros 96, (kernelOf aKernel 4 0).getD {}, admitting allowed (programBytes 256), begun 0x60 (admitting allowed (programBytes 256)),
      (by decide +kernel), (by decide +kernel), (by decide +kernel), (by decide +kernel), getD_self (by decide +kernel) _, (by decide +kernel),
      (by decide +kernel)⟩,
    ⟨chosen createBytes, ((taken1.alloc 0 6 0 Config.noSegment 0).getD (0, up)).1, newColl (slice createBytes 4 16) (dFlags createBytes) 0 (parseRanges (createBytes.drop 128) 1), admitting allowed createBytes, begun 0x50 (admitting allowed createBytes), taken1, ((taken1.alloc 0 6 0 Config.noSegment 0).getD (0, up)).2,
      (by decide +kernel), (by decide +kernel), (by decide +kernel), (by decide +kernel),
      getD_self (allocates (by decide +kernel) (by decide +kernel) (by decide +kernel) (by decide +kernel) (by decide +kernel)) _,
      (by decide +kernel)⟩,
    ⟨3, liveOf (desc 128 [(0, 1, 0x31), (4, 4, 5)]), inFlight storingPay (desc 128 [(0, 1, 0x31), (4, 4, 5)]), (by decide +kernel),
      (by decide +kernel), (by decide +kernel), (by decide +kernel)⟩,
    ⟨3, 10, 1, liveOf (desc 128 [(0, 1, 0x31), (4, 4, 5), (8, 4, 4096)]), inFlight storingPay (desc 128 [(0, 1, 0x31), (4, 4, 5), (8, 4, 4096)]), ((inFlight storingPay (desc 128 [(0, 1, 0x31), (4, 4, 5), (8, 4, 4096)])).charge 0 64).getD up,
      (by decide +kernel), (by decide +kernel), (by decide +kernel), (by decide +kernel), (by decide +kernel), (by decide +kernel),
      (by decide +kernel), (by decide +kernel), getD_self (by decide +kernel) _⟩,
    ⟨3, liveOf (desc 128 [(0, 1, 0x30), (4, 4, 6), (24, 4, 64)]), inFlight storingPay (desc 128 [(0, 1, 0x30), (4, 4, 6), (24, 4, 64)]),
      (by decide +kernel), (by decide +kernel), (by decide +kernel), (by decide +kernel), (by decide +kernel)⟩,
    ⟨3, liveOf (desc 128 [(0, 1, 0x30), (4, 4, 5), (24, 4, 4160)]), aHandle, inFlight storingPay (desc 128 [(0, 1, 0x30), (4, 4, 5), (24, 4, 4160)]), ((inFlight storingPay (desc 128 [(0, 1, 0x30), (4, 4, 5), (24, 4, 4160)])).charge 0 64).getD up,
      (by decide +kernel), (by decide +kernel), (by decide +kernel), (by decide +kernel), (by decide +kernel), (by decide +kernel),
      (by decide +kernel), (by decide +kernel), getD_self (by decide +kernel) _⟩,
    ⟨0, 0, aHandle, [0, 1], { up with pay := { old := [(0, aHandle)], granules := [(10, [0, 1])] } }, (by decide +kernel),
      (by decide +kernel), ⟨1, by decide +kernel, by decide +kernel⟩⟩⟩

/-- A message to this device from another position. -/
def mailFrom (src ty tag coll : Nat) (body : List Byte) : Message :=
  { up with boot := { up.boot with position := some src } }.mkMsg 0 ty 0 tag src coll body

/-- A state whose inbox holds a message. -/
def inboxed (s : State) (m : Message) : State := { s with fab := { s.fab with inbox := [m] } }

/-- A state that waits for the answer of a request. -/
def awaiting (s : State) (r : Request) : State := { s with fab := { s.fab with requests := [r] } }

/-- A state with one query context. -/
def withCtx (s : State) (x : Nat) (q : Ctx) : State := { s with sched := { s.sched with ctxs := [(x, q)] } }

/-- There is then no other context. -/
theorem only_ctx {s : State} {x y : Nat} {q q' : Ctx} (h : y ≠ x) (k : (withCtx s x q).ctx? y = some q') : False := by
  have : (withCtx s x q).ctx? y = if x = y then some q else none := by
    show Map.get? [(x, q)] y = _
    simp [Map.get?]
  rw [this, if_neg (fun e => h e.symm)] at k
  cases k

/-- A query that waits for its stamp. -/
def stamping : Ctx := { k := 1, tag := 7, cmd := some 3, phase := .stamping }

/-- A request for a stamp. -/
def stampAsked (owner : Nat) : Request := { kind := mStamp, dest := 1, tag := 7, owner := owner }

/-- The state in which its answer has come. -/
def answered (owner : Nat) : State :=
  inboxed (awaiting (withCtx (inFlight serving (desc 128 [(0, 1, 0x40)])) 5 stamping) (stampAsked owner)) (mailFrom 1 mStamp 7 0 [1, 0, 9, 0, 0, 0, 0, 0])

/-- A query of a pinned collection that is ready, and the device that holds its block. -/
def pinnedColl : Coll := { aColl with lists := 4, pinned := true, generation := 1, blocks := [(2, 5)] }
def pinnedQuery : State := withCtx { up with colls := [(0, pinnedColl)] } 0 { k := 1, generation := 1 }

/-- A SELECT that is ready, with groups of sixteen tiles. -/
def readySelect : State := withCtx (given up 0x2100 5 [16]) 0 { k := 1, coll := selectColl }

/-- Its hypotheses can be met, clause by clause. -/
theorem witness_QueriesAreStampedAndRanked :
    (∃ (i : Nat) (m : List Byte) (c : Coll) (s : State) (u : State), s.takeKind i mStamp 0 = some (m, u) ∧ s.served (msgColl m) = some c
      ∧ s.isSequencer c = true
      ∧ s.deviceId ≠ some (msgDest (s.mkMsg (msgSource m) mStamp 0 (msgTag m) (msgRequester m) (msgColl m) ([1, 0] ++ toLE 6 c.committed)).bytes))
    ∧ (∃ (i : Nat) (x : Nat) (key : Nat) (m : List Byte) (r : Request) (q : Ctx) (c : Coll) (s : State) (u : State), s.takeKind i mStamp 1 = some (m, u)
      ∧ u.awaited mStamp (msgSource m) (msgTag m) (msgColl m) = some r ∧ r.owner < 8192 ∧ s.ctx? x = some q ∧ q.phase = .stamping ∧ q.tag = r.owner
      ∧ q.cmd = some key ∧ s.served q.coll = some c ∧ q.k ≠ 0 ∧ c.mediaQuery = false ∧ (∀ y q', y ≠ x → s.ctx? y = some q' → q'.phase ≠ .stamping))
    ∧ (∃ (i : Nat) (m : List Byte) (r : Request) (l : Live) (s : State) (u : State), s.takeKind i mStamp 1 = some (m, u)
      ∧ u.awaited mStamp (msgSource m) (msgTag m) (msgColl m) = some r ∧ 8192 ≤ r.owner ∧ s.live? (r.owner - 8192) = some l ∧ l.opcode ≠ 0x54)
    ∧ (∃ (x : Nat) (q : Ctx) (c : Coll) (ts : List Nat) (s : State), x < 4096 ∧ s.ctx? x = some q ∧ q.isSelect = false ∧ s.coll? q.coll = some c
      ∧ q.phase = .ready ∧ q.generation ≠ 0 ∧ c.lists ≠ 1 ∧ s.hasBound c = true ∧ s.chooseTiles c q.generation c.kernel c.vecBytes = some ts)
    ∧ (∃ (x : Nat) (q : Ctx) (ts : List Nat) (s : State), s.ctx? x = some q ∧ q.isSelect = true ∧ q.phase = .ready
      ∧ s.groupTiles (s.draw.1 % max (16 / max (s.cfg 0x2100 5) 1) 1) (s.cfg 0x2100 5) 2 1 = some ts)
    ∧ (∃ (x : Nat) (q : Ctx) (c : Coll) (s : State), s.ctx? x = some q ∧ s.coll? q.coll = some c ∧ q.phase = .ranking
      ∧ s.busyWith x .centroids = false ∧ q.isBlocked none = false ∧ s.tooLate q = false)
    ∧ (∃ (x : Nat) (q : Ctx) (c : Coll) (s : State), x < 4096 ∧ s.ctx? x = some q ∧ s.coll? q.coll = some c ∧ q.deadline ≤ s.clk.now
      ∧ (q.phase = .ready ∨ q.phase = .ranked ∨ q.phase = .ranking)) :=
  ⟨⟨0, (mailFrom 1 mStamp 7 0 (zeros 8)).bytes, aColl, inboxed serving (mailFrom 1 mStamp 7 0 (zeros 8)), taken ((inboxed serving (mailFrom 1 mStamp 7 0 (zeros 8))).takeKind 0 mStamp 0),
    (by decide +kernel), (by decide +kernel), (by decide +kernel), (by decide +kernel)⟩,
    ⟨0, 5, 3, (mailFrom 1 mStamp 7 0 [1, 0, 9, 0, 0, 0, 0, 0]).bytes, stampAsked 7, stamping, aColl, answered 7, taken ((answered 7).takeKind 0 mStamp 1),
      (by decide +kernel), (by decide +kernel), (by decide +kernel), (by decide +kernel), (by decide +kernel), (by decide +kernel),
      (by decide +kernel), (by decide +kernel), (by decide +kernel), (by decide +kernel), (fun _ _ h k => absurd (only_ctx h k) id)⟩,
    ⟨0, (mailFrom 1 mStamp 7 0 [1, 0, 9, 0, 0, 0, 0, 0]).bytes, stampAsked 8195, liveOf (desc 128 [(0, 1, 0x40)]), answered 8195, taken ((answered 8195).takeKind 0 mStamp 1),
      (by decide +kernel), (by decide +kernel), (by decide +kernel), (by decide +kernel), (by decide +kernel)⟩,
    ⟨0, { k := 1, generation := 1 }, pinnedColl, [5], pinnedQuery, (by decide +kernel), (by decide +kernel), (by decide +kernel),
      (by decide +kernel), (by decide +kernel), (by decide +kernel), (by decide +kernel), (by decide +kernel), (by decide +kernel)⟩,
    ⟨0, { k := 1, coll := selectColl }, (readySelect.groupTiles 0 16 2 1).getD [], readySelect, (by decide +kernel), (by decide +kernel),
      (by decide +kernel), (by
    rw [show readySelect.cfg 0x2100 5 = 16 by decide +kernel, show max (16 / max 16 1) 1 = 1 by decide, Nat.mod_one]
    exact getD_self (by decide +kernel) _)⟩,
    ⟨0, { k := 1, phase := .ranking }, aColl, withCtx serving 0 { k := 1, phase := .ranking }, (by decide +kernel), (by decide +kernel),
      (by decide +kernel), (by decide +kernel), (by decide +kernel), (by decide +kernel)⟩,
    ⟨4095, { k := 1, phase := .ranking }, aColl, withCtx serving 4095 { k := 1, phase := .ranking }, (by decide +kernel), (by decide +kernel),
      (by decide +kernel), (by decide +kernel), (by decide +kernel)⟩⟩

/-- A collection with a root in segment 1 that names segment 2 as its first stash stripe, segment 2 beginning with the header of a list, the burrow with tokens, and
tile 0 serving a query of it. -/
def streamed (st : Stream) : State :=
  { given up 0x4111 1 (toLE 4 2000) with
    clk := { up.clk with now := 1000000 }
    bw := { up.bw with pool := 2000 }
    colls := [(0, aColl)]
    seg := { up.seg with map := [(1, { state := .resident, frame := some 1 }), (2, { state := .resident, frame := some 2 })] }
    mem := [(65808, 2), (131072, 1), (131120, 0x34), (131121, 0xCB), (131122, 0xC3), (131123, 0x64)]
    sched := { up.sched with ctxs := [(0, aQuery)], streams := [st] } }

/-- A part of a run of memory. -/
theorem slice_readN {d : Byte} {m : Memory} (k : Nat) : ∀ (off n a : Nat), off + k ≤ n → slice (Memory.readN d m a n) off k = Memory.readN d m (a + off) k := by
  have head : ∀ (k n a : Nat), k ≤ n → (Memory.readN d m a n).take k = Memory.readN d m a k := by
    intro k
    induction k with
    | zero => intro n a _; rfl
    | succ k ih =>
      intro n a h
      obtain ⟨j, rfl⟩ : ∃ j, n = j + 1 := ⟨n - 1, by omega⟩
      show _ :: (Memory.readN d m (a + 1) j).take k = _
      rw [ih j (a + 1) (by omega)]
      rfl
  intro off
  induction off with
  | zero => intro n a h; exact head k n a (by omega)
  | succ off ih =>
    intro n a h
    obtain ⟨j, rfl⟩ : ∃ j, n = j + 1 := ⟨n - 1, by omega⟩
    show slice (Memory.readN d m (a + 1) j) off k = _
    rw [ih j (a + 1) (by omega), show a + 1 + off = a + (off + 1) by omega]

/-- A stream that waits to be issued; one whose stripe is read, its previous metadata naming segment 2; one whose vectors are read. -/
def waitingStream : Stream := { coll := 0, root := 1, what := .stash, waiters := [{ ctx := 0, stripes := [0] }] }
def metaStream : Stream :=
  { coll := 0, root := 1, what := .list 0, waiters := [{ ctx := 0, stripes := [1] }], issued := true, stripe := 1, metaBytes := desc 256 [(4, 4, 2)] }
def vecStream : Stream :=
  { coll := 0, root := 1, what := .list 0, waiters := [{ ctx := 0, stripes := [1] }], issued := true, stripe := 1, phase := .vectorsDue
    need := 1, part := [0], tiles := [(0, 0)], metaBytes := desc 256 [(128, 4, 2)] }
def maskStream : Stream := { vecStream with phase := .needDue, tilesDue := [0] }

/-- The state after a read. -/
def afterRead (o : ReadOutcome) : State := match o with | .bytes _ s => s | .damaged s => s | .wait s => s

/-- A candidate. -/
def aCand : Cand := { key := 5, seq := 1, ref := 0 }

/-- A query in a wave with nothing left to scan. -/
def lastWave : Ctx := { k := 1, phase := .wave, home := 1 }

/-- Its hypotheses can be met, clause by clause. -/
theorem witness_StripesReachTheirTiles :
    (∃ (i : Nat) (j : Nat) (n : Nat) (st : Stream) (c : Coll) (w : Waiter) (ws : List Waiter) (s : State), s.sched.streams[i]? = some st
      ∧ s.coll? st.coll = some c ∧ st.waiters = w :: ws ∧ st.issued = false ∧ st.nextStripe = some j
      ∧ s.stripeSeg c { st with stripe := j, metaBytes := [] } = some n ∧ s.used 0x07 (s.stackOf n) < Config.stackTags
      ∧ s.cfg 0x2100 1 ≤ (s.clk.now - w.since) * 1000)
    ∧ (∃ (i : Nat) (n : Nat) (found : BurstRead) (slot : List Byte) (bs : List Byte) (st : Stream) (c : Coll) (s : State) (u : State) (able : List Nat) (part : List Nat), s.sched.streams[i]? = some st
      ∧ s.coll? st.coll = some c ∧ st.issued = true ∧ st.phase = .metaDue ∧ s.stripeSeg c st = some n ∧ s.readSegment n found slot = .bytes bs u
      ∧ headerOk (bs.take 256) st.what.headerType st.coll = true
      ∧ (u.payers 1024 64 (once (((st.waiters.filter fun w => w.stripes.contains st.stripe).map (·.ctx)).map (u.payer c))) = able)
      ∧ ((((st.waiters.filter fun w => w.stripes.contains st.stripe).map (·.ctx)).filter fun x => able.contains (u.payer c x)) = part) ∧ part ≠ []
      ∧ (∀ tl ∈ u.stripeTiles st part, (u.tile tl).freeBuffer.isSome))
    ∧ (∃ (i : Nat) (v : Nat) (found : BurstRead) (slot : List Byte) (bs : List Byte) (st : Stream) (c : Coll) (s : State) (u : State), s.sched.streams[i]? = some st
      ∧ s.coll? st.coll = some c ∧ st.issued = true ∧ st.phase = .vectorsDue ∧ lowestBit st.need = some v
      ∧ s.readSegment (hdrVec st.metaBytes v) found slot = .bytes bs u ∧ (∀ p ∈ shares 1024 (once (st.part.map (u.payer c))), u.canPay p.1 p.2 = true)
      ∧ (∀ tb ∈ st.tiles, (st.what = .centroids ∨ ((u.tile tb.1).needs tb.2 (geoE c.vecBytes)).testBit v = true) → (u.tile tb.1).freeBuffer.isSome))
    ∧ (∃ (i : Nat) (n : Nat) (st : Stream) (c : Coll) (s : State), s.sched.streams[i]? = some st ∧ s.coll? st.coll = some c ∧ st.issued = true
      ∧ st.phase = .metaDue ∧ s.stripeSeg c st = some n ∧ (s.seg_ n).state = .paged ∧ (∀ w ∈ s.seg.wanted, w.1 ≠ n))
    ∧ (∃ (t : Fin 256) (i : Nat) (st : Stream) (c : Coll) (need : Nat) (s : State), s.sched.streams.findIdx? (s.maskReady t.val) = some i
      ∧ s.sched.streams[i]? = some st ∧ s.coll? st.coll = some c
      ∧ ((st.need ||| s.needOf (geoE c.vecBytes) (st.tiles.filter fun tb => tb.1 == t.val)) = need))
    ∧ (∃ (n : Fin 16) (k : Nat) (x : Nat) (d : Cand) (rest : List (Nat × Nat × Cand)) (q : Ctx) (s : State), (takeFirst (fun p => p.1 == n.val) s.sched.posts = some ((k, x, d), rest))
      ∧ s.ctx? x = some q ∧ q.phase = .wave)
    ∧ (∃ (x : Nat) (q : Ctx) (c : Coll) (s : State), x < 4096 ∧ s.ctx? x = some q ∧ s.coll? q.coll = some c ∧ q.phase = .wave
      ∧ s.waveDone x q = true ∧ q.remotes = [] ∧ s.tooLate q = false ∧ q.table = [] ∧ q.far = [] ∧ q.beyond = none ∧ q.outLists = [])
    ∧ (∃ (x : Nat) (q : Ctx) (c : Coll) (recs : List (List Byte)) (s : State), 4096 ≤ x ∧ s.ctx? x = some q ∧ s.coll? q.coll = some c
      ∧ q.phase = .wave ∧ s.waveDone x q = true ∧ q.remotes = []
      ∧ s.resultRecords { q with sorter := q.sorter.endWave } c q.sorter.endWave.top = some recs ∧ recs.length ≤ 500
      ∧ s.deviceId ≠ some (msgDest (s.mkMsg q.home mWaveRsp 4 q.tag q.home q.coll (waveRspBody q.waves q.waveLists.length q.waveDamaged recs)).bytes)) :=
  ⟨⟨0, 0, 2, waitingStream, aColl, { ctx := 0, stripes := [0] }, [], streamed waitingStream, (by decide +kernel), (by decide +kernel),
    (by decide +kernel), (by decide +kernel), (by decide +kernel), (by decide +kernel), (by decide +kernel), (by decide +kernel)⟩,
    ⟨0, 2, .clean, [], (streamed metaStream).segRead 2 0 65536, metaStream, aColl, streamed metaStream, (streamed metaStream).touch 2, [0], [0],
      (by decide +kernel), (by decide +kernel), (by decide +kernel), (by decide +kernel), (by decide +kernel), rfl, (by
    have h : ((streamed metaStream).segRead 2 0 65536).take 256 = splice (desc 256 [(0, 1, 1)]) 48 [0x34, 0xCB, 0xC3, 0x64] := by
      show slice (Memory.readN 0 (streamed metaStream).mem 131072 65536) 0 256 = _
      rw [slice_readN 256 0 65536 _ (by decide)]
      decide +kernel
    rw [h]
    unfold headerOk headerCrc
    rw [crc32c_eq]
    decide +kernel), (by decide +kernel), (by decide +kernel), (by decide +kernel), (by decide +kernel)⟩,
    ⟨0, 0, .clean, [], (streamed vecStream).segRead 2 0 65536, vecStream, aColl, streamed vecStream, (streamed vecStream).touch 2,
      (by decide +kernel), (by decide +kernel), (by decide +kernel), (by decide +kernel), (by decide +kernel), rfl, (by decide +kernel),
      (by decide +kernel)⟩,
    ⟨0, 2, metaStream, aColl, { streamed metaStream with seg := { (streamed metaStream).seg with map := [(2, { state := .paged, slot := some 0 })] } },
      (by decide +kernel), (by decide +kernel), (by decide +kernel), (by decide +kernel), (by decide +kernel), (by decide +kernel),
      (by decide +kernel)⟩,
    ⟨0, 0, maskStream, aColl, 1, streamed maskStream, (by decide +kernel), (by decide +kernel), (by decide +kernel), (by decide +kernel)⟩,
    ⟨15, 15, 0, aCand, [], aQuery, { streamed metaStream with sched := { (streamed metaStream).sched with posts := [(15, 0, aCand)] } },
      (by decide +kernel), (by decide +kernel), (by decide +kernel)⟩,
    ⟨0, lastWave, aColl, withCtx serving 0 lastWave, (by decide +kernel), (by decide +kernel), (by decide +kernel), (by decide +kernel),
      (by decide +kernel), (by decide +kernel), (by decide +kernel), (by decide +kernel), (by decide +kernel), (by decide +kernel),
      (by decide +kernel)⟩,
    ⟨4096, lastWave, aColl, [], withCtx serving 4096 lastWave, (by decide +kernel), (by decide +kernel), (by decide +kernel), (by decide +kernel),
      (by decide +kernel), (by decide +kernel), (by decide +kernel), (by decide +kernel), (by decide +kernel)⟩⟩

/-- A query that is decided, one candidate of another device left to write. -/
def decided : Ctx :=
  { k := 1, cmd := some 3, phase := .decided, sorter := { k := 1, top := [{ aCand with remote := true }] }, records := [(0, zeros 40)] }

/-- A remote query of position 1. -/
def remoteQuery : Ctx := { k := 1, home := 1, tag := 7, phase := .ranked }

/-- The context 5 whose wave request waits for its answer. -/
def waveAsked : Request := { kind := mWaveReq, dest := 1, tag := 5, owner := 5 }

/-- A SELECT in a wave on one tile. -/
def selectWave : Ctx := { k := 1, coll := selectColl, cmd := some 3, phase := .wave, tiles := [(0, 0)], sorter := { k := 1 } }

/-- The descriptor of a long SELECT. -/
def selectBytes : List Byte := desc 128 [(0, 1, 0x20), (8, 2, 1), (12, 4, 1000000), (16, 4, 1), (20, 4, 1)]

/-- Its hypotheses can be met, clause by clause. -/
theorem witness_ResultsAreWrittenAndWavesAnswered :
    (∃ (x : Nat) (key : Nat) (q : Ctx) (c : Coll) (l : Live) (recs : List (List Byte)) (s : State), s.ctx? x = some q ∧ q.cmd = some key
      ∧ s.live? key = some l ∧ s.coll? q.coll = some c ∧ (q.phase = .decided ∨ q.phase = .writing) ∧ s.used 0x0B 0 + 64 ≤ Config.stagingPlaces
      ∧ (∀ d ∈ q.sorter.top, s.recordGone d = false) ∧ s.resultRecords q c ((q.sorter.top.drop q.written).take 64) = some recs
      ∧ (s.burrow l.origin.burrow).discard = false ∧ l.origin.gen = (s.burrow l.origin.burrow).generation ∧ q.payload = false)
    ∧ (∃ (i : Nat) (x : Nat) (m : List Byte) (c : Coll) (g : Nat × Nat) (q : Ctx) (s : State) (u : State), s.boot.fenced = false
      ∧ s.take i mWaveReq = some (m, u) ∧ s.served (msgColl m) = some c ∧ (c.generations.find? (fun g => g.1 == field (msgBody m) 8 8) = some g)
      ∧ s.remoteCtx (msgSource m) (msgTag m) = some x ∧ s.ctx? x = some q)
    ∧ (∃ (i : Nat) (m : List Byte) (r : Request) (c : Coll) (q : Ctx) (s : State) (u : State), s.take i mWaveRsp = some (m, u)
      ∧ u.awaited mWaveReq (msgSource m) (msgTag m) (msgColl m) = some r ∧ s.waveQuery r = some q ∧ s.coll? (msgColl m) = some c)
    ∧ (∃ (i : Nat) (x : Nat) (m : List Byte) (s : State) (u : State), s.take i mRelease = some (m, u) ∧ s.remoteCtx (msgSource m) (msgTag m) = some x)
    ∧ (∃ (x : Nat) (q : Ctx) (s : State), 4096 ≤ x ∧ s.ctx? x = some q ∧ q.deadline + Config.recoveryBoundUs < s.clk.now)
    ∧ (∃ (i : Nat) (r : Request) (q : Ctx) (s : State), s.fab.requests[i]? = some r ∧ r.until_ < s.clk.now ∧ r.kind = mWaveReq
      ∧ s.waveQuery r = some q)
    ∧ (∃ (i : Nat) (m : List Byte) (r : Request) (q : Ctx) (s : State) (u : State), s.take i mRefused = some (m, u)
      ∧ u.refusedRequest (msgTag m) (msgColl m) = some r ∧ r.kind = mWaveReq ∧ s.waveQuery r = some q)
    ∧ (∃ (x : Nat) (key : Nat) (first : Nat) (n : Nat) (q : Ctx) (l : Live) (source : List Byte) (posts : List Cand) (s : State), s.ctx? x = some q
      ∧ q.cmd = some key ∧ s.live? key = some l ∧ q.isSelect = true ∧ q.phase = .wave ∧ s.clk.now ≤ q.deadline
      ∧ selRound q (selLength l.bytes) = (first, n) ∧ first + n < selLength l.bytes
      ∧ (((selCands (field l.bytes 4 1) (selElem l.bytes) n first (padTo (n * selElem l.bytes) source)).filter fun d => q.beatsTau d.key d.seq) = posts)) :=
  ⟨⟨0, 3, decided, aColl, liveOf queryBytes, [zeros 40], withCtx (inFlight serving queryBytes) 0 decided, (by decide +kernel), (by decide +kernel),
    (by decide +kernel), (by decide +kernel), (by decide +kernel), (by decide +kernel), (by decide +kernel), (by decide +kernel), (by decide +kernel),
    (by decide +kernel), (by decide +kernel)⟩,
    ⟨0, 4096, (mailFrom 1 mWaveReq 7 0 (zeros 48)).bytes, aColl, (0, 0), remoteQuery, inboxed (withCtx serving 4096 remoteQuery) (mailFrom 1 mWaveReq 7 0 (zeros 48)), taken ((inboxed (withCtx serving 4096 remoteQuery) (mailFrom 1 mWaveReq 7 0 (zeros 48))).take 0 mWaveReq),
      (by decide +kernel), (by decide +kernel), (by decide +kernel), (by decide +kernel), (by decide +kernel), (by decide +kernel)⟩,
    ⟨0, (mailFrom 1 mWaveRsp 5 0 (zeros 8)).bytes, waveAsked, aColl, lastWave, inboxed (awaiting (withCtx serving 5 lastWave) waveAsked) (mailFrom 1 mWaveRsp 5 0 (zeros 8)), taken ((inboxed (awaiting (withCtx serving 5 lastWave) waveAsked) (mailFrom 1 mWaveRsp 5 0 (zeros 8))).take 0 mWaveRsp),
      (by decide +kernel), (by decide +kernel), (by decide +kernel), (by decide +kernel)⟩,
    ⟨0, 4096, (mailFrom 1 mRelease 7 0 []).bytes, inboxed (withCtx serving 4096 remoteQuery) (mailFrom 1 mRelease 7 0 []), taken ((inboxed (withCtx serving 4096 remoteQuery) (mailFrom 1 mRelease 7 0 [])).take 0 mRelease),
      (by decide +kernel), (by decide +kernel)⟩,
    ⟨4096, remoteQuery, { withCtx serving 4096 remoteQuery with clk := { up.clk with now := Config.recoveryBoundUs + 1 } }, (by decide +kernel),
      (by decide +kernel), (by decide +kernel)⟩,
    ⟨0, waveAsked, lastWave, { awaiting (withCtx serving 5 lastWave) waveAsked with clk := { up.clk with now := 1 } }, (by decide +kernel),
      (by decide +kernel), (by decide +kernel), (by decide +kernel)⟩,
    ⟨0, (mailFrom 1 mRefused 5 0 (zeros 8)).bytes, waveAsked, lastWave, inboxed (awaiting (withCtx serving 5 lastWave) waveAsked) (mailFrom 1 mRefused 5 0 (zeros 8)), taken ((inboxed (awaiting (withCtx serving 5 lastWave) waveAsked) (mailFrom 1 mRefused 5 0 (zeros 8))).take 0 mRefused),
      (by decide +kernel), (by decide +kernel), (by decide +kernel), (by decide +kernel)⟩,
    ⟨0, 3, 0, (selRound selectWave 1000000).2, selectWave, liveOf selectBytes, [], (selCands (field selectBytes 4 1) (selElem selectBytes) (selRound selectWave 1000000).2 0
      (padTo ((selRound selectWave 1000000).2 * selElem selectBytes) [])).filter fun d => selectWave.beatsTau d.key d.seq, withCtx (inFlight up selectBytes) 0 selectWave,
      (by decide +kernel), (by decide +kernel), (by decide +kernel), (by decide +kernel), (by decide +kernel), (by decide +kernel),
      (by decide +kernel), (by decide +kernel), rfl⟩⟩

/-- Its hypotheses can be met, clause by clause. -/
theorem witness_SelectDeadlineEndsTheCommand :
    (∃ (x : Nat) (key : Nat) (q : Ctx) (l : Live) (s : State), s.ctx? x = some q ∧ q.isSelect = true ∧ (q.phase = .ready ∨ q.phase = .wave)
      ∧ q.deadline ≤ s.clk.now ∧ q.cmd = some key ∧ s.live? key = some l)
    ∧ (∃ (x : Nat) (q : Ctx) (s : State), s.ctx? x = some q ∧ q.isSelect = true ∧ q.deadline < s.clk.now) :=
  ⟨⟨0, 3, selectWave, liveOf selectBytes, withCtx (inFlight up selectBytes) 0 selectWave, (by decide +kernel), (by decide +kernel),
    (by decide +kernel), (by decide +kernel), (by decide +kernel), (by decide +kernel)⟩,
    ⟨0, selectWave, { withCtx (inFlight up selectBytes) 0 selectWave with clk := { up.clk with now := 1 } }, (by decide +kernel),
      (by decide +kernel), (by decide +kernel)⟩⟩

/-- A DELETE of burrow 0 that a device holds under a tag, and a sequencer with one such mutation. -/
def aMut (op device : Nat) : MutReq := { device := device, tag := 3, burrow := 0, desc := desc 128 [(0, 1, op)] }
def queue (op device : Nat) : Sequencer := { queue := [aMut op device] }

/-- A device that is the sequencer of collection 0 as given. -/
def sequencing (q : Sequencer) : State := { up with colls := [(0, { aColl with load := .loaded, seqr := some q })] }

/-- A collection whose sequencer is at position 0; the device at position 1 that holds a mutation of it. -/
def holding : State := { inFlight serving (desc 128 [(0, 1, 0x11)]) with boot := { up.boot with position := some 1 } }

/-- Its hypotheses can be met, clause by clause. -/
theorem witness_MutationsAreForwardedAndAccepted :
    (∃ (b : Fin 64) (p : Fin 16) (key : Nat) (l : Live) (c : Coll) (q : Sequencer) (s : State), s.unhanded b.val p.val = some (key, l)
      ∧ s.served l.coll = some c ∧ (c.lost = false ∨ l.opcode ≠ 0x51) ∧ s.isSequencer c = true ∧ c.seqr = some q ∧ q.held = false)
    ∧ (∃ (b : Fin 64) (p : Fin 16) (key : Nat) (l : Live) (c : Coll) (m : Message) (s : State), s.unhanded b.val p.val = some (key, l)
      ∧ s.served l.coll = some c ∧ (c.lost = false ∨ l.opcode ≠ 0x51) ∧ sequencerOf c.shards ≠ s.self ∧ sequencerOf c.shards < 128
      ∧ (s.mkMsg (sequencerOf c.shards) mMutFwd 0 (s.cmdTag key) s.self l.coll (mutFwdBody l.origin.burrow (padTo 128 l.bytes) (if l.opcode = 0x10 ∨ l.opcode = 0x12 then cmdVector c l.bytes else [])) = m)
      ∧ s.used 0x0E (sequencerOf c.shards) + landingNeed m ≤ Config.landingUnits)
    ∧ (∃ (i : Nat) (m : List Byte) (c : Coll) (q : Sequencer) (s : State) (u : State), s.boot.fenced = false ∧ s.take i mMutFwd = some (m, u)
      ∧ s.served (msgColl m) = some c ∧ c.seqr = some q ∧ q.held = false)
    ∧ (∃ (i : Nat) (m : List Byte) (s : State) (u : State), s.boot.fenced = false ∧ s.take i mMutFwd = some (m, u) ∧ s.served (msgColl m) = none
      ∧ msgSource m ≠ s.self)
    ∧ (∃ (i : Nat) (key : Nat) (m : List Byte) (r : Request) (l : Live) (s : State) (u : State), s.take i mMutRsp = some (m, u)
      ∧ u.awaited mMutFwd (msgSource m) (msgTag m) (msgColl m) = some r ∧ s.byTag (msgTag m) = some key ∧ s.live? key = some l)
    ∧ (∃ (g : Nat) (c : Coll) (q : Sequencer) (r : MutReq) (rest : List MutReq) (s : State), s.coll? g = some c ∧ c.seqr = some q
      ∧ q.queue = r :: rest ∧ c.dropped = false ∧ q.drop = none ∧ c.lapsed = false ∧ q.canAccept (dOpcode r.desc) = true
      ∧ s.centroidsMissing c (dOpcode r.desc) = [] ∧ c.mediaMutation = false ∧ c.readOnly = false ∧ s.seg.frozen = false ∧ c.load = .loaded
      ∧ dOpcode r.desc = 0x11 ∧ Map.get? q.idMap (field r.desc 16 8) = none ∧ r.device ≠ s.self ∧ r.device < 128)
    ∧ (∃ (g : Nat) (c : Coll) (q : Sequencer) (r : MutReq) (rest : List MutReq) (s : State) (e : _), s.coll? g = some c ∧ c.seqr = some q
      ∧ q.queue = r :: rest ∧ c.dropped = false ∧ q.drop = none ∧ c.lapsed = false ∧ q.canAccept (dOpcode r.desc) = true
      ∧ s.centroidsMissing c (dOpcode r.desc) = [] ∧ c.mediaMutation = false ∧ c.readOnly = false ∧ s.seg.frozen = false ∧ c.load = .loaded
      ∧ dOpcode r.desc = 0x10 ∧ Map.get? q.idMap (field r.desc 16 8) = some e ∧ r.device ≠ s.self ∧ r.device < 128)
    ∧ (∃ (g : Nat) (c : Coll) (q : Sequencer) (r : MutReq) (rest : List MutReq) (s : State) (target : _) (d : _), s.coll? g = some c
      ∧ c.seqr = some q ∧ q.queue = r :: rest ∧ c.dropped = false ∧ q.drop = none ∧ c.lapsed = false ∧ q.canAccept (dOpcode r.desc) = true
      ∧ s.centroidsMissing c (dOpcode r.desc) = [] ∧ c.mediaMutation = false ∧ c.readOnly = false ∧ s.seg.frozen = false ∧ c.load = .loaded
      ∧ dOpcode r.desc = 0x11 ∧ Map.get? q.idMap (field r.desc 16 8) = some (target, d) ∧ q.committed + 1 ≤ Config.lastSequence)
    ∧ (∃ (g : Nat) (c : Coll) (q : Sequencer) (r : MutReq) (rest : List MutReq) (s : State) (w : _), s.coll? g = some c ∧ c.seqr = some q
      ∧ q.queue = r :: rest ∧ c.dropped = false ∧ q.drop = none ∧ c.lapsed = false ∧ q.canAccept (dOpcode r.desc) = true
      ∧ s.centroidsMissing c (dOpcode r.desc) = [] ∧ c.mediaMutation = false ∧ c.readOnly = false ∧ s.seg.frozen = false ∧ c.load = .loaded
      ∧ dOpcode r.desc = 0x10 ∧ Map.get? q.idMap (field r.desc 16 8) = none ∧ q.committed + 1 ≤ Config.lastSequence ∧ c.lists = 1
      ∧ ((s.modSeqr g fun q => { q with queue := rest }).idSpace g c q true = some w))
    ∧ (∃ (g : Nat) (c : Coll) (q : Sequencer) (r : MutReq) (rest : List MutReq) (s : State), s.coll? g = some c ∧ c.seqr = some q
      ∧ q.queue = r :: rest ∧ c.dropped = false ∧ q.drop = none ∧ c.lapsed = false ∧ q.canAccept (dOpcode r.desc) = true
      ∧ s.centroidsMissing c (dOpcode r.desc) = [] ∧ c.mediaMutation = false ∧ c.readOnly = false ∧ s.seg.frozen = false ∧ c.load = .loaded
      ∧ dOpcode r.desc = 0x53) :=
  ⟨⟨0, 0, 3, liveOf (desc 128 [(0, 1, 0x11)]), aColl, {}, inFlight serving (desc 128 [(0, 1, 0x11)]), (by decide +kernel), (by decide +kernel),
    (by decide +kernel), (by decide +kernel), (by decide +kernel), (by decide +kernel)⟩,
    ⟨0, 0, 3, liveOf (desc 128 [(0, 1, 0x11)]), aColl, holding.mkMsg 0 mMutFwd 0 3 1 0 (mutFwdBody 0 (desc 128 [(0, 1, 0x11)]) []), holding,
      (by decide +kernel), (by decide +kernel), (by decide +kernel), (by decide +kernel), (by decide +kernel), (by decide +kernel),
      (by decide +kernel)⟩,
    ⟨0, (mailFrom 1 mMutFwd 3 0 (zeros 136)).bytes, aColl, {}, inboxed serving (mailFrom 1 mMutFwd 3 0 (zeros 136)), taken ((inboxed serving (mailFrom 1 mMutFwd 3 0 (zeros 136))).take 0 mMutFwd),
      (by decide +kernel), (by decide +kernel), (by decide +kernel), (by decide +kernel), (by decide +kernel)⟩,
    ⟨0, (mailFrom 1 mMutFwd 3 0 (zeros 136)).bytes, inboxed up (mailFrom 1 mMutFwd 3 0 (zeros 136)), taken ((inboxed up (mailFrom 1 mMutFwd 3 0 (zeros 136))).take 0 mMutFwd),
      (by decide +kernel), (by decide +kernel), (by decide +kernel), (by decide +kernel)⟩,
    ⟨0, 3, (mailFrom 1 mMutRsp 3 0 (zeros 16)).bytes, { kind := mMutFwd, dest := 1, tag := 3 }, liveOf (desc 128 [(0, 1, 0x11)]), inboxed (awaiting (inFlight up (desc 128 [(0, 1, 0x11)])) { kind := mMutFwd, dest := 1, tag := 3 }) (mailFrom 1 mMutRsp 3 0 (zeros 16)), taken ((inboxed (awaiting (inFlight up (desc 128 [(0, 1, 0x11)])) { kind := mMutFwd, dest := 1, tag := 3 }) (mailFrom 1 mMutRsp 3 0 (zeros 16))).take 0 mMutRsp),
      (by decide +kernel), (by decide +kernel), (by decide +kernel), (by decide +kernel)⟩,
    ⟨0, { aColl with load := .loaded, seqr := some (queue 0x11 1) }, queue 0x11 1, aMut 0x11 1, [], sequencing (queue 0x11 1), (by decide +kernel),
      (by decide +kernel), (by decide +kernel), (by decide +kernel), (by decide +kernel), (by decide +kernel), (by decide +kernel),
      (by decide +kernel), (by decide +kernel), (by decide +kernel), (by decide +kernel), (by decide +kernel), (by decide +kernel),
      (by decide +kernel), (by decide +kernel), (by decide +kernel)⟩,
    ⟨0, { aColl with load := .loaded, seqr := some { queue 0x10 1 with idMap := [(0, (1, 0))] } }, { queue 0x10 1 with idMap := [(0, (1, 0))] }, aMut 0x10 1, [], sequencing { queue 0x10 1 with idMap := [(0, (1, 0))] }, (1, 0),
      (by decide +kernel), (by decide +kernel), (by decide +kernel), (by decide +kernel), (by decide +kernel), (by decide +kernel),
      (by decide +kernel), (by decide +kernel), (by decide +kernel), (by decide +kernel), (by decide +kernel), (by decide +kernel),
      (by decide +kernel), (by decide +kernel), (by decide +kernel), (by decide +kernel)⟩,
    ⟨0, { aColl with load := .loaded, seqr := some { queue 0x11 0 with idMap := [(0, (1, 0))] } }, { queue 0x11 0 with idMap := [(0, (1, 0))] }, aMut 0x11 0, [], sequencing { queue 0x11 0 with idMap := [(0, (1, 0))] }, 1, 0,
      (by decide +kernel), (by decide +kernel), (by decide +kernel), (by decide +kernel), (by decide +kernel), (by decide +kernel),
      (by decide +kernel), (by decide +kernel), (by decide +kernel), (by decide +kernel), (by decide +kernel), (by decide +kernel),
      (by decide +kernel), (by decide +kernel), (by decide +kernel)⟩,
    ⟨0, { aColl with load := .loaded, idSegs := [6], seqr := some (queue 0x10 0) }, queue 0x10 0, aMut 0x10 0, [], { up with colls := [(0, { aColl with load := .loaded, idSegs := [6], seqr := some (queue 0x10 0) })] }, ((({ up with colls := [(0, { aColl with load := .loaded, idSegs := [6], seqr := some (queue 0x10 0) })] } : State).modSeqr 0 fun q => { q with queue := [] }).idSpace 0 { aColl with load := .loaded, idSegs := [6], seqr := some (queue 0x10 0) } (queue 0x10 0) true).getD up,
      (by decide +kernel), (by decide +kernel), (by decide +kernel), (by decide +kernel), (by decide +kernel), (by decide +kernel),
      (by decide +kernel), (by decide +kernel), (by decide +kernel), (by decide +kernel), (by decide +kernel), (by decide +kernel),
      (by decide +kernel), (by decide +kernel), (by decide +kernel), (by decide +kernel), getD_self (by decide +kernel) _⟩,
    ⟨0, { aColl with load := .loaded, seqr := some (queue 0x53 0) }, queue 0x53 0, aMut 0x53 0, [], sequencing (queue 0x53 0), (by decide +kernel),
      (by decide +kernel), (by decide +kernel), (by decide +kernel), (by decide +kernel), (by decide +kernel), (by decide +kernel),
      (by decide +kernel), (by decide +kernel), (by decide +kernel), (by decide +kernel), (by decide +kernel), (by decide +kernel)⟩⟩

/-- A state whose inbox holds a message of a type from position 1 on collection 0, and the state after it is taken. -/
def got (s : State) (ty : Nat) (body : List Byte) : State := inboxed s (mailFrom 1 ty 7 0 body)
def gone (s : State) (ty : Nat) (body : List Byte) : State := taken ((got s ty body).take 0 ty)
def mailed (ty : Nat) (body : List Byte) : List Byte := (mailFrom 1 ty 7 0 body).bytes

/-- A record with number 1 and its vector. -/
def recBody : List Byte := desc 72 [(0, 6, 1)]

/-- A collection whose last stash stripe, segment 2, has room beside its one record. -/
def stashing : Coll := { aColl with stash := [2], locSegs := [8] }
def roomy : State :=
  { up with
    colls := [(0, stashing)]
    seg := { up.seg with map := [(2, { state := .resident, frame := some 2 }), (3, { state := .resident, frame := some 3 })] }
    mem := [(131096, 1), (131100, 1), (131200, 3)] }

/-- A stash buffer with a byte count. -/
def stuffed (n : Nat) : State := { serving with stash := [{ coll := 0, seg := 2, offset := 0, bytes := List.replicate n 0 }] }

/-- A collection whose record 1 lies in segment 2, with that segment as given. -/
def located : Coll := { aColl with locator := [(1, (false, 2, 0))] }
def atSegment (v : Seg) : State := { up with colls := [(0, located)], seg := { up.seg with map := [(2, v)] } }

/-- A sequencer with a mutation in flight, and the device that waits for an acknowledgement of it. -/
def mutating (x : InFlight) : Coll := { aColl with seqr := some { current := some x } }
def acked (ty : Nat) (x : InFlight) : State := awaiting { up with colls := [(0, mutating x)] } { kind := ty, dest := 1, tag := 7 }
def flying (op : Nat) : InFlight := { req := aMut op 0, n := 1, sent := [1] }

/-- Its hypotheses can be met, clause by clause. -/
theorem witness_WritesLandCommitOrAreRevoked :
    (∃ (i : Nat) (m : List Byte) (c : Coll) (s : State) (u : State) (w : State), s.take i mStashWrite = some (m, u) ∧ s.served (msgColl m) = some c
      ∧ s.boot.fenced = false ∧ s.stashUsed + 576 + c.vecBytes ≤ Config.stashBufferBytes ∧ c.mediaMutation = false
      ∧ recTomb ((msgBody m).take 64) = false ∧ u.appendStash (msgColl m) c ((msgBody m).take 64) ((msgBody m).drop 64) = some w
      ∧ c.flushed < recSeq ((msgBody m).take 64) ∧ msgSource m ≠ s.self)
    ∧ (∃ (i : Nat) (m : List Byte) (c : Coll) (s : State) (u : State), s.take i mStashWrite = some (m, u) ∧ s.served (msgColl m) = some c
      ∧ s.boot.fenced = false ∧ s.stashUsed + 576 + c.vecBytes ≤ Config.stashBufferBytes ∧ c.mediaMutation = false
      ∧ recTomb ((msgBody m).take 64) = false ∧ u.appendStash (msgColl m) c ((msgBody m).take 64) ((msgBody m).drop 64) = none ∧ msgSource m ≠ s.self)
    ∧ (∃ (i : Nat) (m : List Byte) (c : Coll) (s : State) (u : State), s.take i mStashWrite = some (m, u) ∧ s.served (msgColl m) = some c
      ∧ Config.stashBufferBytes < s.stashUsed + 576 + c.vecBytes)
    ∧ (∃ (i : Nat) (n : Nat) (j : Nat) (f : Nat) (m : List Byte) (c : Coll) (s : State) (u : State), s.take i mKillWrite = some (m, u)
      ∧ s.coll? (msgColl m) = some c ∧ c.copiesOf (field (msgBody m) 0 6) = [] ∧ Map.get? c.locator (field (msgBody m) 0 6) = some (false, n, j)
      ∧ (s.seg_ n).copying = false ∧ (s.seg_ n).state = .resident ∧ (s.seg_ n).frame = some f ∧ (∀ it ∈ s.stash, it.seg ≠ n)
      ∧ (s.seg_ n).coll = msgColl m ∧ msgSource m ≠ s.self)
    ∧ (∃ (i : Nat) (n : Nat) (j : Nat) (m : List Byte) (c : Coll) (s : State) (u : State), s.take i mKillWrite = some (m, u)
      ∧ s.coll? (msgColl m) = some c ∧ c.copiesOf (field (msgBody m) 0 6) = [] ∧ Map.get? c.locator (field (msgBody m) 0 6) = some (false, n, j)
      ∧ ((s.seg_ n).copying = true ∨ (s.seg_ n).state = .pagingIn))
    ∧ (∃ (i : Nat) (m : List Byte) (r : Request) (c : Coll) (q : Sequencer) (x : InFlight) (s : State) (u : State), s.take i mStashAck = some (m, u)
      ∧ u.awaited mStashWrite (msgSource m) (msgTag m) (msgColl m) = some r ∧ s.coll? (msgColl m) = some c ∧ c.seqr = some q ∧ q.current = some x
      ∧ x.killAt.isSome = true ∧ field (msgBody m) 0 2 = stOk)
    ∧ (∃ (i : Nat) (m : List Byte) (r : Request) (c : Coll) (q : Sequencer) (x : InFlight) (s : State) (u : State), s.take i mStashAck = some (m, u)
      ∧ u.awaited mStashWrite (msgSource m) (msgTag m) (msgColl m) = some r ∧ s.coll? (msgColl m) = some c ∧ c.seqr = some q ∧ q.current = some x
      ∧ x.killAt = none ∧ x.revoking = [] ∧ x.failed = false ∧ field (msgBody m) 0 2 = stOk ∧ dOpcode x.req.desc ≠ 0x11 ∧ x.n = q.accepted + 1)
    ∧ (∃ (i : Nat) (m : List Byte) (r : Request) (c : Coll) (q : Sequencer) (x : InFlight) (s : State) (u : State), s.take i mStashAck = some (m, u)
      ∧ u.awaited mStashWrite (msgSource m) (msgTag m) (msgColl m) = some r ∧ s.coll? (msgColl m) = some c ∧ c.seqr = some q ∧ q.current = some x
      ∧ x.killAt = none ∧ x.revoking = [] ∧ x.failed = false ∧ field (msgBody m) 0 2 ≠ stOk ∧ x.sent ≠ [])
    ∧ (∃ (i : Nat) (m : List Byte) (r : Request) (c : Coll) (q : Sequencer) (x : InFlight) (s : State) (u : State), s.take i mKillAck = some (m, u)
      ∧ u.awaited mKillWrite (msgSource m) (msgTag m) (msgColl m) = some r ∧ s.coll? (msgColl m) = some c ∧ c.seqr = some q ∧ q.current = some x
      ∧ x.stashAt = none ∧ x.revoking = [] ∧ x.failed = false ∧ field (msgBody m) 0 2 = stOk ∧ dOpcode x.req.desc = 0x11 ∧ x.n = q.accepted + 1)
    ∧ (∃ (i : Nat) (m : List Byte) (c : Coll) (s : State) (u : State) (w : State), s.take i mRevoke = some (m, u) ∧ s.coll? (msgColl m) = some c
      ∧ u.unkill c (field (msgBody m) 0 6) = some w ∧ msgSource m ≠ s.self)
    ∧ (∃ (i : Nat) (m : List Byte) (r : Request) (c : Coll) (q : Sequencer) (x : InFlight) (s : State) (u : State), s.take i mRevokeAck = some (m, u)
      ∧ u.awaited mRevoke (msgSource m) (msgTag m) (msgColl m) = some r ∧ s.coll? (msgColl m) = some c ∧ c.seqr = some q ∧ q.current = some x
      ∧ x.revoking.erase (msgSource m) ≠ [])
    ∧ (∃ (i : Nat) (m : List Byte) (r : Request) (c : Coll) (q : Sequencer) (x : InFlight) (s : State) (u : State), s.take i mRevokeAck = some (m, u)
      ∧ u.awaited mRevoke (msgSource m) (msgTag m) (msgColl m) = some r ∧ s.coll? (msgColl m) = some c ∧ c.seqr = some q ∧ q.current = some x
      ∧ x.revoking.erase (msgSource m) = [])
    ∧ (∃ (g : Nat) (c : Coll) (s : State), s.coll? g = some c ∧ c.unflushed.isSome = true ∧ s.waitingKills g = []) :=
  ⟨⟨0, mailed mStashWrite recBody, stashing, got roomy mStashWrite recBody, gone roomy mStashWrite recBody, ((gone roomy mStashWrite recBody).appendStash 0 stashing (recBody.take 64) (recBody.drop 64)).getD up,
    (by decide +kernel), (by decide +kernel), (by decide +kernel), (by decide +kernel), (by decide +kernel), (by decide +kernel),
    getD_self (by decide +kernel) _, (by decide +kernel), (by decide +kernel)⟩,
    ⟨0, mailed mStashWrite recBody, aColl, got serving mStashWrite recBody, gone serving mStashWrite recBody, (by decide +kernel),
      (by decide +kernel), (by decide +kernel), (by decide +kernel), (by decide +kernel), (by decide +kernel),
      (by rw [← Option.isNone_iff_eq_none]; decide +kernel), (by decide +kernel)⟩,
    ⟨0, mailed mStashWrite recBody, aColl, got (stuffed 4194304) mStashWrite recBody, gone (stuffed 4194304) mStashWrite recBody, rfl,
      (by decide +kernel), (by
      have h : ∀ n, (got (stuffed n) mStashWrite recBody).stashUsed = n := by
        intro n
        show sumNat [(List.replicate n (0 : Byte)).length] = n
        rw [List.length_replicate]
        exact Nat.zero_add n
      rw [h]
      decide +kernel)⟩,
    ⟨0, 2, 0, 2, mailed mKillWrite (desc 16 [(0, 6, 1), (6, 6, 5)]), located, got (atSegment { state := .resident, frame := some 2 }) mKillWrite (desc 16 [(0, 6, 1), (6, 6, 5)]), gone (atSegment { state := .resident, frame := some 2 }) mKillWrite (desc 16 [(0, 6, 1), (6, 6, 5)]),
      (by decide +kernel), (by decide +kernel), (by decide +kernel), (by decide +kernel), (by decide +kernel), (by decide +kernel),
      (by decide +kernel), (by decide +kernel), (by decide +kernel), (by decide +kernel)⟩,
    ⟨0, 2, 0, mailed mKillWrite (desc 16 [(0, 6, 1), (6, 6, 5)]), located, got (atSegment { state := .resident, frame := some 2, copying := true }) mKillWrite (desc 16 [(0, 6, 1), (6, 6, 5)]), gone (atSegment { state := .resident, frame := some 2, copying := true }) mKillWrite (desc 16 [(0, 6, 1), (6, 6, 5)]),
      (by decide +kernel), (by decide +kernel), (by decide +kernel), (by decide +kernel), (by decide +kernel)⟩,
    ⟨0, mailed mStashAck (zeros 8), { kind := mStashWrite, dest := 1, tag := 7 }, mutating { flying 0x10 with killAt := some 1 }, { current := some { flying 0x10 with killAt := some 1 } }, { flying 0x10 with killAt := some 1 }, got (acked mStashWrite { flying 0x10 with killAt := some 1 }) mStashAck (zeros 8), gone (acked mStashWrite { flying 0x10 with killAt := some 1 }) mStashAck (zeros 8),
      (by decide +kernel), (by decide +kernel), (by decide +kernel), (by decide +kernel), (by decide +kernel), (by decide +kernel),
      (by decide +kernel)⟩,
    ⟨0, mailed mStashAck (zeros 8), { kind := mStashWrite, dest := 1, tag := 7 }, mutating (flying 0x10), { current := some (flying 0x10) }, (flying 0x10), got (acked mStashWrite (flying 0x10)) mStashAck (zeros 8), gone (acked mStashWrite (flying 0x10)) mStashAck (zeros 8),
      (by decide +kernel), (by decide +kernel), (by decide +kernel), (by decide +kernel), (by decide +kernel), (by decide +kernel),
      (by decide +kernel), (by decide +kernel), (by decide +kernel), (by decide +kernel), (by decide +kernel)⟩,
    ⟨0, mailed mStashAck (desc 8 [(0, 2, 1)]), { kind := mStashWrite, dest := 1, tag := 7 }, mutating (flying 0x10), { current := some (flying 0x10) }, (flying 0x10), got (acked mStashWrite (flying 0x10)) mStashAck (desc 8 [(0, 2, 1)]), gone (acked mStashWrite (flying 0x10)) mStashAck (desc 8 [(0, 2, 1)]),
      (by decide +kernel), (by decide +kernel), (by decide +kernel), (by decide +kernel), (by decide +kernel), (by decide +kernel),
      (by decide +kernel), (by decide +kernel), (by decide +kernel), (by decide +kernel)⟩,
    ⟨0, mailed mKillAck (zeros 8), { kind := mKillWrite, dest := 1, tag := 7 }, mutating (flying 0x11), { current := some (flying 0x11) }, (flying 0x11), got (acked mKillWrite (flying 0x11)) mKillAck (zeros 8), gone (acked mKillWrite (flying 0x11)) mKillAck (zeros 8),
      (by decide +kernel), (by decide +kernel), (by decide +kernel), (by decide +kernel), (by decide +kernel), (by decide +kernel),
      (by decide +kernel), (by decide +kernel), (by decide +kernel), (by decide +kernel), (by decide +kernel)⟩,
    ⟨0, mailed mRevoke (zeros 8), aColl, got serving mRevoke (zeros 8), gone serving mRevoke (zeros 8), gone serving mRevoke (zeros 8),
      (by decide +kernel), (by decide +kernel), rfl, (by decide +kernel)⟩,
    ⟨0, mailed mRevokeAck (zeros 8), { kind := mRevoke, dest := 1, tag := 7 }, mutating { flying 0x10 with revoking := [1, 2] }, { current := some { flying 0x10 with revoking := [1, 2] } }, { flying 0x10 with revoking := [1, 2] }, got (acked mRevoke { flying 0x10 with revoking := [1, 2] }) mRevokeAck (zeros 8), gone (acked mRevoke { flying 0x10 with revoking := [1, 2] }) mRevokeAck (zeros 8),
      (by decide +kernel), (by decide +kernel), (by decide +kernel), (by decide +kernel), (by decide +kernel), (by decide +kernel)⟩,
    ⟨0, mailed mRevokeAck (zeros 8), { kind := mRevoke, dest := 1, tag := 7 }, mutating { flying 0x10 with revoking := [1] }, { current := some { flying 0x10 with revoking := [1] } }, { flying 0x10 with revoking := [1] }, got (acked mRevoke { flying 0x10 with revoking := [1] }) mRevokeAck (zeros 8), gone (acked mRevoke { flying 0x10 with revoking := [1] }) mRevokeAck (zeros 8),
      (by decide +kernel), (by decide +kernel), (by decide +kernel), (by decide +kernel), (by decide +kernel), (by decide +kernel)⟩,
    ⟨0, { aColl with unflushed := some 5 }, { up with colls := [(0, { aColl with unflushed := some 5 })] }, (by decide +kernel),
      (by decide +kernel), (by decide +kernel)⟩⟩

/-- A COLL_CTRL message from position 1 on collection 0: an operation with more fields and bytes, and what it leaves. -/
def ctrlBody (op : Nat) (fs : List (Nat × Nat × Nat)) (rest : List Byte) : List Byte := desc 48 ((1, 1, op) :: fs) ++ rest
def ctrlGone (s : State) (body : List Byte) : State := taken ((got s mCollCtrl body).take 0 mCollCtrl)

/-- A state with a collection 0. -/
def owning (c : Coll) : State := { up with colls := [(0, c)] }

/-- A device on which every burrow has a quota, with a collection of which the last piece is missing. -/
def quotas : State :=
  { owning { created := false } with dict := { up.dict with base := (List.range 64).map fun b => (objKey 0x4100 (b + 1), toLE 4 5) } }

/-- A prepared generation 1, with and without its root. -/
def preparing (r : Option Nat) : Coll := { aColl with prepared := some { root := r, generation := 1, cut := 5 } }
def quotaFor (c : Coll) : State := given (owning c) 0x4100 1 (toLE 4 5)

/-- A drop that waits for devices. -/
def dropping (ds : List Nat) : Coll := { aColl with seqr := some { drop := some (ds, 0, 3) } }
def dropAsked (ds : List Nat) : State :=
  awaiting { inFlight up (desc 128 [(0, 1, 0x51)]) with colls := [(0, dropping ds)] } { kind := mCollCtrl, dest := 1, tag := 7, owner := opDrop }

/-- A root can be written where a segment can be had. -/
theorem wrote {s : State} {g : Nat} {c : Coll} {p : Prepared} (hc : s.coll? g = some c) (hp : c.prepared = some p)
    (h : (s.alloc c.owner 6 g Config.noSegment p.generation).isSome = true) : (s.writeRoot g).isSome = true := by
  obtain ⟨⟨r, w⟩, h⟩ := Option.isSome_iff_exists.mp h
  unfold State.writeRoot
  rw [hc]
  dsimp only
  rw [hp]
  dsimp only
  rw [h]
  rfl

/-- A collection can be made where a segment can be had. -/
theorem made {s : State} {g : Nat} {c : Coll} (h : (s.alloc c.owner 6 g Config.noSegment 0).isSome = true) : (s.makeColl g c).isSome = true := by
  obtain ⟨⟨r, w⟩, h⟩ := Option.isSome_iff_exists.mp h
  unfold State.makeColl
  rw [h]
  rfl

/-- Its hypotheses can be met, clause by clause. -/
theorem witness_ControlMessagesChangeCollections :
    (∃ (i : Nat) (m : List Byte) (s : State) (u : State), s.takeCtrl i opCreate = some (m, u) ∧ s.coll? (msgColl m) = none
      ∧ field (msgBody m) 41 1 = 0 ∧ field (msgBody m) 42 1 < field (slice (msgBody m) 24 16) 10 2 ∧ msgSource m ≠ s.self)
    ∧ (∃ (i : Nat) (m : List Byte) (c : Coll) (s : State) (u : State) (w : State), s.takeCtrl i opCreate = some (m, u)
      ∧ s.coll? (msgColl m) = some c ∧ c.created = false ∧ field (slice (msgBody m) 24 16) 10 2 ≤ field (msgBody m) 41 1 + field (msgBody m) 42 1
      ∧ msgSource m ≠ s.self
      ∧ (u.draw.2).makeColl (msgColl m) { c with shards := c.shards ++ parseRanges ((msgBody m).drop 48) (field (msgBody m) 42 1), pieces := c.pieces ++ [field (msgBody m) 41 1], created := true, owner := Config.openValue 17 s.draws % 64 } = some w)
    ∧ (∃ (i : Nat) (m : List Byte) (c : Coll) (p : Prepared) (s : State) (u : State) (r : _), s.takeCtrl i opPrepare = some (m, u)
      ∧ s.served (msgColl m) = some c ∧ c.prepared = some p ∧ p.generation = field (msgBody m) 8 8 ∧ msgSource m ≠ s.self ∧ p.root = some r
      ∧ p.cut = field (msgBody m) 16 6)
    ∧ (∃ (i : Nat) (m : List Byte) (c : Coll) (p : Prepared) (s : State) (u : State) (w : _), s.takeCtrl i opPrepare = some (m, u)
      ∧ s.served (msgColl m) = some c ∧ c.prepared = some p ∧ p.generation = field (msgBody m) 8 8 ∧ msgSource m ≠ s.self ∧ p.root = none
      ∧ u.writeRoot (msgColl m) = some w)
    ∧ (∃ (i : Nat) (r : Nat) (m : List Byte) (c : Coll) (p : Prepared) (s : State) (u : State), s.takeCtrl i opFlip = some (m, u)
      ∧ s.coll? (msgColl m) = some c ∧ c.prepared = some p ∧ p.root = some r ∧ p.generation = field (msgBody m) 8 8 ∧ msgSource m ≠ s.self)
    ∧ (∃ (i : Nat) (m : List Byte) (c : Coll) (s : State) (u : State), s.takeCtrl i opDrop = some (m, u) ∧ s.coll? (msgColl m) = some c
      ∧ c.dropped = false ∧ c.prepared = none ∧ msgSource m ≠ s.self)
    ∧ (∃ (i : Nat) (m : List Byte) (c : Coll) (s : State) (u : State), s.takeCtrl i opLost = some (m, u) ∧ s.coll? (msgColl m) = some c
      ∧ msgSource m ≠ s.self)
    ∧ (∃ (i : Nat) (m : List Byte) (c : Coll) (s : State) (u : State), s.takeCtrl i opLoadPrepare = some (m, u) ∧ s.served (msgColl m) = some c
      ∧ c.prepared = none ∧ field (msgBody m) 22 1 % 128 ≠ s.self ∧ s.used 0x0E (field (msgBody m) 22 1 % 128) + 1 ≤ Config.landingUnits)
    ∧ (∃ (i : Nat) (m : List Byte) (c : Coll) (s : State) (u : State), s.takeCtrl i opLoadAbandon = some (m, u) ∧ s.coll? (msgColl m) = some c
      ∧ c.prepared = none ∧ msgSource m ≠ s.self)
    ∧ (∃ (i : Nat) (m : List Byte) (c : Coll) (c' : Coll) (s : State) (u : State), s.takeCtrl i opScrub = some (m, u) ∧ s.coll? (msgColl m) = some c
      ∧ c.scrubbing = false ∧ c.seqr = none ∧ (u.flushStash (msgColl m)).coll? (msgColl m) = some c' ∧ msgSource m ≠ s.self)
    ∧ (∃ (i : Nat) (device : Nat) (tag : Nat) (ds : List Nat) (m : List Byte) (r : Request) (c : Coll) (q : Sequencer) (s : State) (u : State), s.takeKind i mCollCtrl 1 = some (m, u)
      ∧ field (msgBody m) 1 1 = opDrop ∧ u.awaitedCtrl (msgSource m) (msgColl m) opDrop = some r ∧ s.coll? (msgColl m) = some c ∧ c.seqr = some q
      ∧ q.drop = some (ds, device, tag) ∧ ds.erase (msgSource m) ≠ [])
    ∧ (∃ (i : Nat) (device : Nat) (tag : Nat) (ds : List Nat) (m : List Byte) (r : Request) (c : Coll) (q : Sequencer) (s : State) (u : State) (key : _) (l : _), s.takeKind i mCollCtrl 1 = some (m, u)
      ∧ field (msgBody m) 1 1 = opDrop ∧ u.awaitedCtrl (msgSource m) (msgColl m) opDrop = some r ∧ s.coll? (msgColl m) = some c ∧ c.seqr = some q
      ∧ q.drop = some (ds, device, tag) ∧ ds.erase (msgSource m) = [] ∧ device = s.self ∧ s.byTag tag = some key ∧ s.live? key = some l) :=
  ⟨⟨0, mailed mCollCtrl (ctrlBody opCreate [(34, 2, 2), (42, 1, 1)] (zeros 8)), got up mCollCtrl (ctrlBody opCreate [(34, 2, 2), (42, 1, 1)] (zeros 8)), gone up mCollCtrl (ctrlBody opCreate [(34, 2, 2), (42, 1, 1)] (zeros 8)),
    (by decide +kernel), (by decide +kernel), (by decide +kernel), (by decide +kernel), (by decide +kernel)⟩,
    ⟨0, mailed mCollCtrl (ctrlBody opCreate [(34, 2, 1), (42, 1, 1)] (zeros 8)), { created := false }, got quotas mCollCtrl (ctrlBody opCreate [(34, 2, 1), (42, 1, 1)] (zeros 8)), gone quotas mCollCtrl (ctrlBody opCreate [(34, 2, 1), (42, 1, 1)] (zeros 8)), (((gone quotas mCollCtrl (ctrlBody opCreate [(34, 2, 1), (42, 1, 1)] (zeros 8))).draw.2).makeColl 0
      { shards := parseRanges (zeros 8) 1, pieces := [0], created := true, owner := Config.openValue 17 0 % 64 }).getD up, (by decide +kernel),
      (by decide +kernel), (by decide +kernel), (by decide +kernel), (by decide +kernel), (by
      refine getD_self ?_ _
      have hq : ∀ b : Fin 64, (((gone quotas mCollCtrl (ctrlBody opCreate [(34, 2, 1), (42, 1, 1)] (zeros 8))).draw.2).quotaLeft b == 0) = false := by decide +kernel
      exact made (allocates (by decide +kernel) (hq ⟨_, Nat.mod_lt (Config.openValue 17 0) (by decide)⟩) (by decide +kernel) (by decide +kernel)
        (by decide +kernel)))⟩,
    ⟨0, mailed mCollCtrl (ctrlBody opPrepare [(8, 8, 1), (16, 6, 5)] []), preparing (some 9), { root := some 9, generation := 1, cut := 5 }, got (owning (preparing (some 9))) mCollCtrl (ctrlBody opPrepare [(8, 8, 1), (16, 6, 5)] []), gone (owning (preparing (some 9))) mCollCtrl (ctrlBody opPrepare [(8, 8, 1), (16, 6, 5)] []), 9,
      (by decide +kernel), (by decide +kernel), (by decide +kernel), (by decide +kernel), (by decide +kernel), (by decide +kernel),
      (by decide +kernel)⟩,
    ⟨0, mailed mCollCtrl (ctrlBody opPrepare [(8, 8, 1), (16, 6, 5)] []), preparing none, { generation := 1, cut := 5 }, got (quotaFor (preparing none)) mCollCtrl (ctrlBody opPrepare [(8, 8, 1), (16, 6, 5)] []), gone (quotaFor (preparing none)) mCollCtrl (ctrlBody opPrepare [(8, 8, 1), (16, 6, 5)] []), ((gone (quotaFor (preparing none)) mCollCtrl (ctrlBody opPrepare [(8, 8, 1), (16, 6, 5)] [])).writeRoot 0).getD up,
      (by decide +kernel), (by decide +kernel), (by decide +kernel), (by decide +kernel), (by decide +kernel), (by decide +kernel), (by
      refine getD_self ?_ _
      exact wrote (c := preparing none) (p := { generation := 1, cut := 5 }) rfl rfl
        (allocates (by decide +kernel) (by decide +kernel) (by decide +kernel) (by decide +kernel) (by decide +kernel)))⟩,
    ⟨0, 9, mailed mCollCtrl (ctrlBody opFlip [(8, 8, 1)] []), preparing (some 9), { root := some 9, generation := 1, cut := 5 }, got (owning (preparing (some 9))) mCollCtrl (ctrlBody opFlip [(8, 8, 1)] []), gone (owning (preparing (some 9))) mCollCtrl (ctrlBody opFlip [(8, 8, 1)] []),
      (by decide +kernel), (by decide +kernel), (by decide +kernel), (by decide +kernel), (by decide +kernel), (by decide +kernel)⟩,
    ⟨0, mailed mCollCtrl (ctrlBody opDrop [] []), aColl, got serving mCollCtrl (ctrlBody opDrop [] []), gone serving mCollCtrl (ctrlBody opDrop [] []),
      (by decide +kernel), (by decide +kernel), (by decide +kernel), (by decide +kernel), (by decide +kernel)⟩,
    ⟨0, mailed mCollCtrl (ctrlBody opLost [] []), aColl, got serving mCollCtrl (ctrlBody opLost [] []), gone serving mCollCtrl (ctrlBody opLost [] []),
      (by decide +kernel), (by decide +kernel), (by decide +kernel)⟩,
    ⟨0, mailed mCollCtrl (ctrlBody opLoadPrepare [(22, 1, 1)] []), aColl, got serving mCollCtrl (ctrlBody opLoadPrepare [(22, 1, 1)] []), gone serving mCollCtrl (ctrlBody opLoadPrepare [(22, 1, 1)] []),
      (by decide +kernel), (by decide +kernel), (by decide +kernel), (by decide +kernel), (by decide +kernel)⟩,
    ⟨0, mailed mCollCtrl (ctrlBody opLoadAbandon [] []), aColl, got serving mCollCtrl (ctrlBody opLoadAbandon [] []), gone serving mCollCtrl (ctrlBody opLoadAbandon [] []),
      (by decide +kernel), (by decide +kernel), (by decide +kernel), (by decide +kernel)⟩,
    ⟨0, mailed mCollCtrl (ctrlBody opScrub [] []), {}, ((gone (owning {}) mCollCtrl (ctrlBody opScrub [] [])).flushStash 0).coll? 0 |>.getD {}, got (owning {}) mCollCtrl (ctrlBody opScrub [] []), gone (owning {}) mCollCtrl (ctrlBody opScrub [] []),
      (by decide +kernel), (by decide +kernel), (by decide +kernel), (by decide +kernel), getD_self (by decide +kernel) _, (by decide +kernel)⟩,
    ⟨0, 0, 3, [1, 2], mailed mCollCtrl (ctrlBody opDrop [(0, 1, 1)] []), { kind := mCollCtrl, dest := 1, tag := 7, owner := opDrop }, dropping [1, 2], { drop := some ([1, 2], 0, 3) }, got (dropAsked [1, 2]) mCollCtrl (ctrlBody opDrop [(0, 1, 1)] []), gone (dropAsked [1, 2]) mCollCtrl (ctrlBody opDrop [(0, 1, 1)] []),
      (by decide +kernel), (by decide +kernel), (by decide +kernel), (by decide +kernel), (by decide +kernel), (by decide +kernel),
      (by decide +kernel)⟩,
    ⟨0, 0, 3, [1], mailed mCollCtrl (ctrlBody opDrop [(0, 1, 1)] []), { kind := mCollCtrl, dest := 1, tag := 7, owner := opDrop }, dropping [1], { drop := some ([1], 0, 3) }, got (dropAsked [1]) mCollCtrl (ctrlBody opDrop [(0, 1, 1)] []), gone (dropAsked [1]) mCollCtrl (ctrlBody opDrop [(0, 1, 1)] []), 3, liveOf (desc 128 [(0, 1, 0x51)]),
      (by decide +kernel), (by decide +kernel), (by decide +kernel), (by decide +kernel), (by decide +kernel), (by decide +kernel),
      (by decide +kernel), (by decide +kernel), (by decide +kernel), (by decide +kernel)⟩⟩

/-- What a computation that can fail gives, where it gives something. -/
theorem ok_pair {α β : Type} {o : Except Nat (α × β)} (h : o.toOption.isSome = true) (d : α × β) :
    o = .ok ((o.toOption.getD d).1, (o.toOption.getD d).2) := by
  cases o with
  | error e => cases h
  | ok x => rfl

/-- A collection whose root is segment 1, no stash stripe being above its cut, and that root's bytes. -/
def rooted (c : Coll) (mem : Memory) (v : Map Seg) : State :=
  { given (owning c) 0x4100 1 (toLE 4 5) with
    seg := { up.seg with map := (1, { state := .resident, frame := some 1, kind := 6 }) :: v }
    mem := [(65808, 0xFF), (65809, 0xFF), (65810, 0xFF), (65811, 0xFF)] ++ mem }

/-- A loaded collection with five mutations above its cut; one whose compaction run copies. -/
def grown : Coll := { aColl with root := 1, load := .loaded, flushed := 5, seqr := some { committed := 5, accepted := 5 } }
def copying : Coll := { aColl with root := 1, load := .loaded, seqr := some { committed := 5, accepted := 5, run := some { cut := 5 } } }

/-- A directory in segment 2 whose one list begins in segment 3, which is paged out. -/
def pagedList : State :=
  rooted copying [(65812, 1), (66048, 2), (131328, 3), (131332, 1)]
    [(2, { state := .resident, frame := some 2, kind := 4 }), (3, { state := .paged, slot := some 0 })]

/-- A live command 3 of opcode `op` with its export. -/
def exportingLive : Live := { liveOf (desc 128 [(0, 1, 0x54)]) with exporting := some {} }
def exportingDevice : State :=
  awaiting { serving with host := { up.host with live := [(3, exportingLive)] } } { kind := mListPull, dest := 1, tag := 3 }

/-- The message of a transfer from position 1 under tag 3. -/
def moved (s : State) (ty : Nat) (body : List Byte) : State := inboxed s (mailFrom 1 ty 3 0 body)

/-- A storing device that has asked for a part of an image. -/
def pulling : Coll := { aColl with pull := some { loader := 1, tag := 3 } }
def pullAsked : State := awaiting (owning pulling) { kind := mImagePull, dest := 1, tag := 3 }

/-- Its hypotheses can be met, clause by clause. -/
theorem witness_RunsScrubsAndTransfersProceed :
    (∃ (g : Nat) (own : Nat) (rest : Nat) (c : Coll) (q : Sequencer) (s : State) (w : State) (v : State), Map.keys s.colls = [g]
      ∧ s.coll? g = some c ∧ c.seqr = some q ∧ s.mayCompact c q = true ∧ s.triggered c q = true ∧ s.proposal g c q.committed = (w, own)
      ∧ w.otherProposals c q.committed = (v, rest) ∧ rootCut (s.rootBody c.root) < min own rest)
    ∧ (∃ (s : State), (∀ g c q, s.coll? g = some c → c.seqr = some q → (s.mayCompact c q && s.triggered c q) = false))
    ∧ (∃ (g : Nat) (c : Coll) (q : Sequencer) (r : Run) (s : State), s.coll? g = some c ∧ c.seqr = some q ∧ q.run = some r ∧ r.load = false
      ∧ r.phase = .copy ∧ s.structureLost c.root = false ∧ c.mediaMutation = false ∧ s.runMissing c ≠ [])
    ∧ (∃ (g : Nat) (c : Coll) (q : Sequencer) (r : Run) (s : State) (p : _) (w : _), s.coll? g = some c ∧ c.seqr = some q ∧ q.run = some r
      ∧ r.load = false ∧ r.phase = .copy ∧ s.structureLost c.root = false ∧ c.mediaMutation = false ∧ s.runMissing c = [] ∧ c.prepared = none
      ∧ s.buildRun g c (c.generation + 1) r.cut = .ok (p, w))
    ∧ (∃ (g : Nat) (c : Coll) (s : State), s.coll? g = some c ∧ c.dropped = false)
    ∧ (∃ (s : State), s.boot.scrubbing = false)
    ∧ (∃ (s : State), s.boot.scrubbing = true)
    ∧ (∃ (g : Nat) (c : Coll) (s : State), s.boot.scrubbing = true ∧ s.colls = [(g, c)] ∧ c.prepared = none ∧ c.seqr = none
      ∧ (mapDevices c.shards).filter (· != s.self) = [] ∧ c.reported = [])
    ∧ (∃ (i : Nat) (m : List Byte) (c : Coll) (gr : Nat × Nat) (ls : List Nat) (part : List Entry) (s : State) (u : State), s.boot.fenced = false
      ∧ s.take i mListPull = some (m, u) ∧ s.served (msgColl m) = some c ∧ (c.generations.find? (fun gr => gr.1 == field (msgBody m) 8 8) = some gr)
      ∧ ((c.owned s.self).filter (fun l => decide (field (msgBody m) 16 4 ≤ l ∧ l ≤ field (msgBody m) 20 4)) = ls)
      ∧ u.exportDamaged (msgColl m) c gr.1 gr.2 ls = false ∧ u.exportMissing c gr.2 ls = []
      ∧ ((u.exportRange c gr.1 gr.2 (field (msgBody m) 0 6) (field (msgBody m) 32 1 == 1) ls).drop (field (msgBody m) 24 8 / c.pullUnit)).take c.perPull = part
      ∧ part.length ≤ c.perData ∧ msgSource m ≠ s.self)
    ∧ (∃ (i : Nat) (key : Nat) (m : List Byte) (r : Request) (l : Live) (c : Coll) (x : Exporting) (s : State) (u : State), s.take i mListData = some (m, u)
      ∧ u.awaited mListPull (msgSource m) (msgTag m) (msgColl m) = some r ∧ s.byTag (msgTag m) = some key ∧ s.live? key = some l
      ∧ l.exporting = some x ∧ s.coll? (msgColl m) = some c)
    ∧ (∃ (i : Nat) (key : Nat) (data : List Byte) (m : List Byte) (l : Live) (s : State) (u : State), s.take i mImagePull = some (m, u)
      ∧ s.byTag (msgTag m) = some key ∧ s.live? key = some l ∧ l.opcode = 0x53 ∧ data.length = field (msgBody m) 8 4 ∧ 0 < data.length
      ∧ data.length ≤ 20448 ∧ msgSource m ≠ s.self)
    ∧ (∃ (i : Nat) (m : List Byte) (r : Request) (c : Coll) (p : Pull) (s : State) (u : State), s.take i mImageData = some (m, u)
      ∧ u.awaited mImagePull (msgSource m) (msgTag m) (msgColl m) = some r ∧ s.coll? (msgColl m) = some c ∧ c.pull = some p
      ∧ field (msgBody m) 0 8 = r.owner + (Map.getD p.got r.owner []).length ∧ msgLast m = false) :=
  ⟨⟨0, 5, 5, grown, { committed := 5, accepted := 5 }, rooted grown [] [], rooted grown [] [], rooted grown [] [], (by decide +kernel),
    (by decide +kernel), (by decide +kernel), (by decide +kernel), (by decide +kernel), (by decide +kernel), (by decide +kernel),
    (by decide +kernel)⟩,
    ⟨up, (by intro g c q h; exact absurd (show (none : Option Coll) = some c from h) (by simp))⟩,
    ⟨0, copying, { committed := 5, accepted := 5, run := some { cut := 5 } }, { cut := 5 }, pagedList, (by decide +kernel), (by decide +kernel),
      (by decide +kernel), (by decide +kernel), (by decide +kernel), (by decide +kernel), (by decide +kernel), (by decide +kernel)⟩,
    ⟨0, copying, { committed := 5, accepted := 5, run := some { cut := 5 } }, { cut := 5 }, rooted copying [] [], (((rooted copying [] []).buildRun 0 copying (copying.generation + 1) ({ cut := 5 } : Run).cut).toOption.getD ({ generation := 0, cut := 0 }, up)).1, (((rooted copying [] []).buildRun 0 copying (copying.generation + 1) ({ cut := 5 } : Run).cut).toOption.getD ({ generation := 0, cut := 0 }, up)).2,
      (by decide +kernel), (by decide +kernel), (by decide +kernel), (by decide +kernel), (by decide +kernel), (by decide +kernel),
      (by decide +kernel), (by decide +kernel), (by decide +kernel), ok_pair (by decide +kernel) _⟩,
    ⟨0, aColl, serving, (by decide +kernel), (by decide +kernel)⟩,
    ⟨up, (by decide +kernel)⟩,
    ⟨{ up with boot := { up.boot with scrubbing := true } }, (by decide +kernel)⟩,
    ⟨0, { shards := [(0, 0)] }, { owning { shards := [(0, 0)] } with boot := { up.boot with scrubbing := true } }, (by decide +kernel),
      (by decide +kernel), (by decide +kernel), (by decide +kernel), (by decide +kernel), (by decide +kernel)⟩,
    ⟨0, (mailFrom 1 mListPull 3 0 (zeros 40)).bytes, { aColl with root := 1 }, (0, 1), [0], [], (inboxed (rooted { aColl with root := 1 } [] []) (mailFrom 1 mListPull 3 0 (zeros 40))), taken ((inboxed (rooted { aColl with root := 1 } [] []) (mailFrom 1 mListPull 3 0 (zeros 40))).take 0 mListPull),
      (by decide +kernel), (by decide +kernel), (by decide +kernel), (by decide +kernel), (by decide +kernel), (by decide +kernel),
      (by decide +kernel), (by decide +kernel), (by decide +kernel), (by decide +kernel)⟩,
    ⟨0, 3, (mailFrom 1 mListData 3 0 (zeros 16)).bytes, { kind := mListPull, dest := 1, tag := 3 }, exportingLive, aColl, {}, inboxed exportingDevice (mailFrom 1 mListData 3 0 (zeros 16)), taken ((inboxed exportingDevice (mailFrom 1 mListData 3 0 (zeros 16))).take 0 mListData),
      (by decide +kernel), (by decide +kernel), (by decide +kernel), (by decide +kernel), (by decide +kernel), (by decide +kernel)⟩,
    ⟨0, 3, List.replicate 20448 0, (mailFrom 1 mImagePull 3 0 (desc 16 [(8, 4, 20448)])).bytes, liveOf loadBytes, inboxed (inFlight up loadBytes) (mailFrom 1 mImagePull 3 0 (desc 16 [(8, 4, 20448)])), taken ((inboxed (inFlight up loadBytes) (mailFrom 1 mImagePull 3 0 (desc 16 [(8, 4, 20448)]))).take 0 mImagePull),
      (by decide +kernel), (by decide +kernel), (by decide +kernel),
      (by decide +kernel), (List.length_replicate.trans (by decide +kernel)), (Nat.lt_of_lt_of_eq (by decide) List.length_replicate.symm), (Nat.le_of_eq List.length_replicate),
      (by decide +kernel)⟩,
    ⟨0, (mailFrom 1 mImageData 3 0 (zeros 16)).bytes, { kind := mImagePull, dest := 1, tag := 3 }, pulling, { loader := 1, tag := 3 }, inboxed pullAsked (mailFrom 1 mImageData 3 0 (zeros 16)), taken ((inboxed pullAsked (mailFrom 1 mImageData 3 0 (zeros 16))).take 0 mImageData),
      (by decide +kernel), (by decide +kernel), (by decide +kernel), (by decide +kernel), (by decide +kernel), (by decide +kernel)⟩⟩

/-! ## Well-formedness: an ill-formed term for each check, and the last value a check accepts -/

theorem test_wf_doorbell : (Instr.sqTailDoorbell false 0 0 (2 ^ 32)).wf = false ∧ (Instr.cqHeadDoorbell true 63 15 (2 ^ 32)).wf = false
    ∧ (Instr.sqTailDoorbell true 63 15 (2 ^ 32 - 1)).wf = true := by decide

theorem test_wf_queueCreate : (Instr.queueCreate 0 0 { sqBase := 2 ^ 64 }).wf = false ∧ (Instr.queueCreate 0 0 { cqBase := 2 ^ 64 }).wf = false
    ∧ (Instr.queueCreate 0 0 { sqEntries := 2 ^ 16 }).wf = false ∧ (Instr.queueCreate 0 0 { cqEntries := 2 ^ 16 }).wf = false
    ∧ (Instr.queueCreate 0 0 { cls := 256 }).wf = false ∧ (Instr.queueCreate 0 0 { vector := 256 }).wf = false
    ∧ (Instr.queueCreate 0 0 { irqFlags := 256 }).wf = false ∧ (Instr.queueCreate 0 0 { coalesceCount := 2 ^ 16 }).wf = false
    ∧ (Instr.queueCreate 0 0 { coalesceTime := 2 ^ 16 }).wf = false ∧ (Instr.queueCreate 0 0 liveSlot.regs).wf = true := by decide

theorem test_wf_hostFetch : (Instr.hostFetch 0 0 (List.replicate 127 0)).wf = false ∧ (Instr.hostFetch 0 0 (List.replicate 128 0)).wf = true := by
  decide +kernel

theorem test_wf_values : (Instr.vfEnableChange true 65).wf = false ∧ (Instr.guaranteeWrite .mailbox 0 (2 ^ 32)).wf = false
    ∧ (Instr.hardRepairWrite .mailbox 0 0 (2 ^ 32)).wf = false ∧ (Instr.tileReset .mailbox 65536).wf = false
    ∧ (Instr.modeRequest .can 256).wf = false ∧ (Instr.calendarTimeWrite .ssp (2 ^ 64)).wf = false ∧ (Instr.calendarCommit .ssp 256).wf = false
    ∧ (Instr.zeroCalibrate .mailbox 0 256).wf = false ∧ (Instr.vrCorrection (some (2 ^ 32))).wf = false
    ∧ (Instr.vfEnableChange true 64).wf = true := by decide

theorem test_wf_flits : (Instr.linkFlit 0 []).wf = false ∧ (Instr.dataFlit 0 []).wf = false ∧ (Instr.nak 0 []).wf = false
    ∧ (Instr.retrainDone 0 []).wf = false ∧ (Instr.linkUpRetry 0 (some [])).wf = false ∧ (Instr.bind 0 []).wf = false
    ∧ (Instr.bindAck 0 []).wf = false ∧ (Instr.bindRefuse 0 []).wf = false ∧ (Instr.idleFlit 0 []).wf = false := by decide

theorem test_wf_vdp : (Instr.vdpRead (.mailbox (2 ^ 32) [])).wf = false ∧ (Instr.vdpWrite (.mailbox 4 (List.replicate 65 0))).wf = false
    ∧ (Instr.vdpSegment (.can (2 ^ 29) [])).wf = false ∧ (Instr.vdpAbort (.can 0 (List.replicate 65 0))).wf = false := by decide

theorem test_wf_dictionary : (Instr.dictionaryWrite .mailbox 65536 0 []).wf = false ∧ (Instr.dictionaryWrite .mailbox 0 256 []).wf = false
    ∧ (Instr.sspSelectRise 512 [0]).wf = false := by decide

theorem test_wf_sizes (d e : List Byte) (hd : d.length = 65537) (he : e.length = 65535) :
    (Instr.dictionaryWrite .mailbox 0 0 d).wf = false ∧ (Instr.pageInDone 0 e).wf = false := by
  show (decide (0 < 2 ^ 16) && decide (0 < 2 ^ 8) && decide (d.length ≤ 65536)) = false ∧ (e.length == 65536) = false
  rw [hd, he]
  decide

theorem test_wf_measures : (Instr.shotResult 0 (some { time := 2 ^ 24, w1 := 0, w2 := 0 })).wf = false
    ∧ (Instr.shotResult 0 (some { time := 0, w1 := 2 ^ 24, w2 := 0 })).wf = false
    ∧ (Instr.shotResult 0 (some { time := 0, w1 := 0, w2 := 2 ^ 24 })).wf = false
    ∧ (Instr.rtdResult 0 (some (2 ^ 24)) none none).wf = false ∧ (Instr.rtdResult 0 none (some (2 ^ 24)) none).wf = false
    ∧ (Instr.rtdResult 0 none none (some (2 ^ 24))).wf = false := by decide

/-! ## Numbers of the spec's tables and worked cases -/

/-- Table 3.2: E, V and C of its five examples. -/
theorem test_stripe_geometry : [8, 128, 1536, 8192, 16384].map (fun b => (geoE b, geoV b, geoC b))
    = [(8192, 1, 1020), (512, 2, 1020), (42, 25, 1020), (8, 32, 256), (4, 32, 128)] := by decide

/-- Under R145: frame 1,000,000 is row 3,906 of pseudo-channel 13. -/
theorem test_frame_map : frameChannel 1000000 = 13 ∧ frameAt 13 3906 = 1000000 := by decide

/-- The cosine worked case of 01_promises.md: scores and order keys of x and y (Table 1.9). -/
theorem test_cosine : score .cosine .int8 [1, 2, 2, 0] [2, 1, 2, 4] 0x4039000000000000 = 0x3F088889
    ∧ score .cosine .int8 [1, 2, 2, 0] [2, 2, 1, 0] 0x4022000000000000 = 0x3F638E39
    ∧ rankOrderKey .cosine 0x3F088889 = 0x40F77776 ∧ rankOrderKey .cosine 0x3F638E39 = 0x409C71C6 := by decide +kernel

/-- Table 1.4: e1 scores 36, which has order key 0xC210_0000; of equal keys the smaller sequence number is better. -/
theorem test_tie : score .sqEuclid .int8 [3, 0, 0] [9, 0, 0] 0 = 0x42100000 ∧ rankOrderKey .sqEuclid 0x42100000 = 0xC2100000
    ∧ better 0xC2100000 1041 0xC2100000 1187 = true := by decide +kernel

/-- The worked case of 09_foragers.md: the weighted sum is 42, XRD32 gives 0x4228_0000 and XKEY 0xC228_0000 (−3 is 0xFD, −1 is 0xFF). -/
theorem test_weighted_sum : exactSum .int8 true [1, 2, 0, 1, 4, 1, 1, 3] [10, 0xFD, 7, 0, 2, 5, 0xFF, 4] [7, 0xFF, 100, 0, 4, 5, 2, 4] = 42
    ∧ roundDyadic .b32 .near 42 0 = 0x42280000 ∧ orderKey 0x42280000 = 0xC2280000 := by decide +kernel

/-- Table 9.10: the word 0x86B5_200B is XDSQ with n = 4, CLR, acc0, x10 and x11. -/
theorem test_xdsq_word : extOp 0x86B5200B = some .xdsq ∧ fF7 0x86B5200B = 0x43 ∧ fRd 0x86B5200B = 0 ∧ fR1 0x86B5200B = 10
    ∧ fR2 0x86B5200B = 11 := by decide

/-- 08_fabric.md: device 37 to 100 by port 4, then 9; device 3 to 122 by port 2, then 8, in class 1. -/
theorem test_routes : nextPort 16 4 5 100 true false = some 4 ∧ nextPort 16 4 4 100 false false = some 9
    ∧ nextPort 16 0 3 122 true false = some 2 ∧ nextPort 16 0 2 122 false false = some 8 ∧ hopClass 16 0 8 0 = 1 := by decide

/-- Table 8.10: the codes and the sign-and-mantissa bytes of the first elements under slot 3's table. -/
theorem test_codec : (codeBlock { id := 1, fp16 := false, lens := List.replicate 0x79 0 ++ [6, 5, 4, 2, 1, 3, 7] } [0x3E9A, 0xBE20, 0x3F05, 0x3DC0]).map
    (·.take 5) = some [0x1A, 0xA0, 0x05, 0x40, 0x5B] ∧ blockHeader true 3 320 = [0x40, 0x99] := by decide +kernel

/-- Table 10.6: the scale, the stored elements and the wide form. -/
theorem test_payload_block : blockScale .e4m3 [0x40A0, 0xBF80, 0x3EA0, 0x3980, 0x8000] = 0x3C36DB6E
    ∧ [0x40A0, 0xBF80, 0x3EA0, 0x3980, 0x8000].map (quantise .e4m3 0x3C36DB6E) = [0x7E, 0xEB, 0x5E, 0x0B, 0x80]
    ∧ [0x7E, 0xEB, 0x5E, 0x0B, 0x80].map (widenElem .e4m3) = [0x43E0, 0xC2B0, 0x41E0, 0x3CB0, 0x8000] := by decide +kernel

/-- The worked cases of 06_memory.md and 13_coolant_power.md: D with 255 channels, D at 5.6 Gb/s. -/
theorem test_deliverable : deliverableOf 255 400 = 79560 ∧ deliverableOf 256 350 = 69888 := by decide

/-- The worked case of 13_coolant_power.md: the inlet reads 1,116.730 Ω and 30.00 °C, each to the digits given. -/
theorem test_inlet : (let r := rtdResistance 0x408F400000000000 448000 500296 448002
    le64 0x409172EB020C49BA r && le64 r 0x409172EC083126E9 && le64 0x403DFEB851EB851F (rtdTemperature r)
      && le64 (rtdTemperature r) 0x403E0147AE147AE1) = true := by decide +kernel

/-- The same case: the flow of the first pair lies between 1.0755 and 1.0765 L/min, with k = 0.950 and CircuitDelay 1,200 ns. -/
theorem test_flow : (let q := (given (given up 0x7010 8 (toLE 8 0x3FEE666666666666)) 0x7010 9 (toLE 8 0x4092C00000000000)).rateOf 0 2635347 2634067
    decide (0x3F89A9FC ≤ flowOf q) && decide (flowOf q ≤ 0x3F89CAC1)) = true := by decide +kernel

/-- The same case: the shot at 2,000 µs is a CYCLE_SKIP, the one at 2,100 µs is GOOD. -/
theorem test_shots : (let s := ({ given up 0x7010 4 [3] with ftf := { up.ftf with channelA := { lastUp := some 2635347 } } } : State)
    (s.shotStatus 0 true (some { time := 2699349, w1 := 81, w2 := 100 }), s.shotStatus 0 true (some { time := 2635351, w1 := 341, w2 := 480 })))
    = (3, 0) := by decide +kernel

/-! ## Single steps -/

/-- R298, the worked case of 12_sideband.md: the identifiers of request and answer. -/
theorem test_identifier : canId 2 1 4 0x123 = 0x08108123 ∧ canId 3 2 4 0x123 = 0x0C208123 := by decide

/-- The same case: an ENUM slot gives the device position 3. -/
theorem test_enum : (next? (exec .enum { asked [0x87, 0, 0, 0, 3, 0, 0, 0] with boot := { up.boot with position := none } })).map (·.boot.position)
    = some (some 3) := by decide +kernel

/-- The same case: the READ of the product code is answered as the spec's bytes say. -/
theorem test_slot_read : (next? (exec .read (asked [0xE1, 0x18, 0x10, 2, 0, 0, 0, 0]))).map (·.ssp.response)
    = some [0, 0x18, 0x10, 2, 1, 0, 0x59, 0x4D] := by decide +kernel

/-- The same case: the READ over CAN FD is answered with the spec's identifier and bytes. -/
theorem test_can_read : (next? (exec (.vdpRead (.can 0x08108123 [0, 0x18, 0x10, 2, 0, 0, 0, 0])) { up with boot := { up.boot with position := some 3 } })).map
    (·.out) = some [.can 0x0C208123 [4, 0x18, 0x10, 2, 1, 0, 0x59, 0x4D]] := by decide +kernel

/-- The worked case of 06_memory.md: with 78,000 tokens guaranteed, 2,000 more are refused and 1,872 are accepted. -/
theorem test_guarantee : [2000, 1872].map (fun v => (next? (exec (.guaranteeWrite .mailbox 4 v)
      (given (given (given (given (given up 0x4110 1 (toLE 4 30000)) 0x4110 2 (toLE 4 25000)) 0x4110 3 (toLE 4 15000)) 0x4110 4 (toLE 4 8000))
        0x4111 5 (toLE 4 80000)))).map (·.dict.answer))
    = [some (.abort 0x06040002), some (.ok false)] := by decide +kernel

/-- R176: a tail that is no entry of the ring sets the doorbell error and moves nothing. -/
theorem test_bad_tail : (next? (exec (.sqTailDoorbell false 0 0 4) queued)).map (fun t => ((t.slot 0 0).tail, decide ((t.burrow 0).errorFlags = 0)))
    = some (0, false) := by decide +kernel

/-- An idle step is one microsecond. -/
theorem test_idle : (next? (step up)).map (·.clk.now) = some 1 := by decide +kernel

end Sys2Proof.Tests
end

section
/-! What a query's end says of the live commands, the completions and the output, and when SELECT_ROUND_END does nothing (R256, R257). -/

namespace Sys2Proof.Machine

@[simp] theorem State.live_setCtx {s : State} {x k : Nat} {q : Ctx} : (s.setCtx x q).live? k = s.live? k := rfl
@[simp] theorem State.live_finish_same {s : State} {k : Nat} {c : Completion} : (s.finish k c).live? k = none := Map.get?_del_same
@[simp] theorem State.waiting_finish {s : State} {k : Nat} {c : Completion} :
    (s.finish k c).host.waiting = s.host.waiting ++ [c] := rfl
@[simp] theorem State.ctx_finish {s : State} {x k : Nat} {c : Completion} : (s.finish k c).ctx? x = s.ctx? x := rfl

/-- What a query holds returns without a change to the completions that wait. -/
theorem State.waiting_freeQuery {s : State} {x : Nat} : (s.freeQuery x).host.waiting = s.host.waiting := by
  rw [State.freeQuery_only.host]

/-- What SELECT_DEADLINE answers once the deadline of a SELECT whose rounds still run has come: its query ends INCOMPLETE (R257). -/
theorem exec_selectDeadline_due {x : Nat} {q : Ctx} {s : State} (hx : s.ctx? x = some q) (hsel : q.isSelect = true)
    (hphase : q.phase = .ready ∨ q.phase = .wave) (hdue : q.deadline ≤ s.clk.now) :
    exec (.selectDeadline x) s = .next ((s.setCtx x { q with status := stIncomplete, sealed := false }).endQuery x) := by
  change execSelectDeadline x s = _
  unfold execSelectDeadline
  rw [hx]
  dsimp only
  rw [if_pos ⟨hsel, hphase, hdue⟩]

/-- No round is issued for a context that is in no round, nor for one whose deadline has passed: SELECT_ROUND_END changes nothing. -/
theorem exec_selectRoundEnd_idle {x : Nat} {q : Ctx} {source : List Byte} {s : State} (hx : s.ctx? x = some q)
    (hidle : q.phase ≠ .wave ∨ q.deadline < s.clk.now) : exec (.selectRoundEnd x source) s = .next s := by
  have hguard : ¬ (q.isSelect ∧ q.phase = .wave ∧ s.clk.now ≤ q.deadline) := by
    rintro ⟨-, hwave, hnow⟩
    rcases hidle with hphase | hpassed
    · exact hphase hwave
    · exact Nat.not_lt.mpr hnow hpassed
  change execSelectRoundEnd x source s = _
  unfold execSelectRoundEnd
  rw [hx]
  dsimp only
  cases q.cmd.bind s.live? with
  | none => rfl
  | some l => exact congrArg Host.Outcome.next (if_neg hguard)

/-- Settles O56: the query that ends leaves its context finished, so that no round end finds a round in progress. -/
theorem selectDeadlineEndsTheCommand : Obligations.SelectDeadlineEndsTheCommand := by
  refine ⟨?ends, ?passed⟩
  case ends =>
    intro x key q l s hx hsel hphase hdue hkey hlive
    have hrun := exec_selectDeadline_due hx hsel hphase hdue
    rw [State.endQuery_eq (c := { q with status := stIncomplete, sealed := false }) State.ctx_setCtx hkey hlive] at hrun
    refine Runs.of hrun ⟨?out, State.live_finish_same, ?waiting, ?rounds⟩
    case out => rw [State.finish_only.out, State.freeQuery_only.out, State.setCtx_only.out]
    case waiting =>
      rw [State.waiting_finish, State.waiting_freeQuery]
      rfl
    case rounds =>
      intro source
      have hrunning : q.phase ≠ .finished := by rcases hphase with h | h <;> simp [h]
      exact exec_selectRoundEnd_idle (State.ctx_finish.trans (State.freeQuery_ctx State.ctx_setCtx hrunning)) (.inl (by simp))
  case passed =>
    intro x q source s hx _ hpassed
    exact exec_selectRoundEnd_idle hx (.inr hpassed)

end Sys2Proof.Machine
end

section
/-! What SSP_STALL answers in a low period of S_SSN without a stall and in one that has had its stall, and the rise that ends the latter (R314, R321). -/

namespace Sys2Proof.Machine

/-- The first stall of a low period marks the period and logs SSP_STALL. -/
theorem exec_sspStall_first {s : State} (hselected : s.ssp.selected = true) (hunmarked : s.ssp.stalled = false) :
    exec .sspStall s = .next (State.logFrom { s with ssp := { s.ssp with stalled := true } } 0 0x0801 []) := by
  change execSspStall s = _
  unfold execSspStall
  rw [if_pos ⟨hselected, hunmarked⟩, State.logEvent_eq]

/-- Once the low period is marked, a stall changes nothing. -/
theorem exec_sspStall_again {s : State} (hmarked : s.ssp.stalled = true) : exec .sspStall s = .next s := by
  change execSspStall s = _
  unfold execSspStall
  rw [if_neg (by simp [hmarked])]

/-- The frame of a marked low period is discarded, even one of exactly 512 clock edges. -/
theorem exec_sspSelectRise_stalled {edges : Nat} {slot : List Byte} {s : State} (hselected : s.ssp.selected = true) (hmarked : s.ssp.stalled = true) :
    exec (.sspSelectRise edges slot) s
      = .next { s with ssp := { s.ssp with selected := false, discarded := (s.ssp.discarded + 1) % 2 ^ 32 } } := by
  change execSspSelectRise edges slot s = _
  unfold execSspSelectRise
  dsimp only
  rw [if_neg (by simp [hselected]), if_pos (.inr hmarked)]

/-- Settles O35: the mark of the low period lets SSP_STALL log once and makes the rise discard the frame. -/
theorem stallsAreLoggedOncePerLowPeriod : Obligations.StallsAreLoggedOncePerLowPeriod := by
  refine ⟨?first, ?again, ?rise⟩
  case first =>
    intro s hselected hunmarked
    exact Runs.of (exec_sspStall_first hselected hunmarked)
      ⟨State.logFrom_log, State.logFrom_ssp, State.logFrom_dict, State.logFrom_boot, State.logFrom_slots, State.logFrom_waiting, State.logFrom_mem⟩
  case again => exact fun _ hmarked => exec_sspStall_again hmarked
  case rise => exact fun _ _ _ hselected hmarked => exec_sspSelectRise_stalled hselected hmarked

end Sys2Proof.Machine
end

section
/-! The machine as a whole: how a step takes its command, and what follows for every step from the laws of what each meaning may change. -/

namespace Sys2Proof.Machine

/-- Settles O1: `step` matches on the queue. -/
theorem stepRunsTheFrontCommand : Obligations.StepRunsTheFrontCommand := by
  intro c rest s hqueue
  unfold step
  rw [hqueue]

/-- Settles O2: on an empty queue `step` is `idle`. -/
theorem idleStepCountsAMicrosecond : Obligations.IdleStepCountsAMicrosecond := by
  intro s hqueue
  change step s = .next (idle s)
  unfold step
  rw [hqueue]

/-- Settles O3: every meaning but those of the two reads of a burst has the form `.next _`. -/
theorem everyCommandCompletes : Obligations.EveryCommandCompletes := by
  intro c s hread hscrub
  cases c with
  | hbmReadDone f b r => exact absurd rfl (hread f b r)
  | patrolScrub f b r => exact absurd rfl (hscrub f b r)
  | _ => exact ⟨_, rfl⟩

theorem burstExists_eq_false {f b : Nat} (h : Config.frames ≤ f ∨ 2048 ≤ b) : burstExists f b = false := by
  unfold burstExists
  rw [decide_eq_false_iff_not]
  unfold frameBursts
  omega

/-- Settles O4: such a burst does not exist. -/
theorem readsOutsideHbmFault : Obligations.ReadsOutsideHbmFault := by
  intro f b r s houtside
  have hno : ¬ burstExists f b = true := by simp [burstExists_eq_false houtside]
  exact ⟨if_neg hno, if_neg hno⟩

/-- Settles O5: the footprint of every command is among the laws of what each meaning may change. -/
theorem commandsKeepTheirFrame : Obligations.CommandsKeepTheirFrame :=
  fun _ _ t h => (exec_only.only t (by rw [h])).frame

/-- A step keeps the invariant of every part. -/
theorem step_keeps_inv {s t : State} (h : step s = .next t) {p : Part} (hp : p.inv s) : p.inv t := by
  cases hqueue : s.pending with
  | nil =>
    unfold step at h
    rw [hqueue] at h
    cases h
    cases p <;> exact hp
  | cons c rest =>
    rw [stepRunsTheFrontCommand c rest s hqueue] at h
    refine (exec_only.only t (by rw [h])).inv p ?_
    cases p <;> exact hp

/-- Settles O6: HBM, flash and the tiles are each a part with that invariant. -/
theorem stepKeepsMemoryCanonical : Obligations.StepKeepsMemoryCanonical := by
  intro s t ⟨hmem, hflash, htiles⟩ h
  exact ⟨step_keeps_inv h (p := .mem) hmem, step_keeps_inv h (p := .flash) hflash, step_keeps_inv h (p := .grid) htiles⟩

/-- Settles O7: the levels are the invariant of the governor. -/
theorem stepKeepsGovernorLevels : Obligations.StepKeepsGovernorLevels :=
  fun _ _ hlegal h => step_keeps_inv h (p := .gov) hlegal

/-- Settles O8: the places are the invariant of the log. -/
theorem stepKeepsLogBounded : Obligations.StepKeepsLogBounded :=
  fun _ _ hbounded h => step_keeps_inv h (p := .log) hbounded

/-- Settles O9: in reset every memory and the log are empty, and every level is 0. -/
theorem resetMeetsTheInvariants : Obligations.ResetMeetsTheInvariants :=
  ⟨⟨rfl, rfl, fun _ he => absurd he List.not_mem_nil⟩, reset_governorLegal, fun _ he => absurd he List.not_mem_nil⟩
end Sys2Proof.Machine
end

section
/-! Host interface: the submission and completion queues of R173 to R181. -/

namespace Sys2Proof.Machine

/-! ## Doorbells (R176, R178) -/

theorem exec_sqTailDoorbell_moves {al : Bool} {b : Fin 64} {q : Fin 16} {v : Nat} {s : State} (hreach : s.doorbellReaches al b = true)
    (hvalid : ¬((s.slot b q).status ≠ .live ∨ (s.slot b q).regs.sqEntries ≤ v % 65536
      ∨ ({ s.slot b q with tail := v % 65536 } : QSlot).waiting < (s.slot b q).waiting)) :
    exec (.sqTailDoorbell al b q v) s = .next (s.setSlot b q { s.slot b q with tail := v % 65536 }) := by
  change execSqTailDoorbell al b q v s = _
  unfold execSqTailDoorbell
  dsimp only
  rw [if_neg (by rw [hreach]; decide), if_neg hvalid]

theorem exec_sqTailDoorbell_invalid {al : Bool} {b : Fin 64} {q : Fin 16} {v : Nat} {s : State} (hreach : s.doorbellReaches al b = true)
    (hinvalid : (s.slot b q).status ≠ .live ∨ (s.slot b q).regs.sqEntries ≤ v % 65536
      ∨ ({ s.slot b q with tail := v % 65536 } : QSlot).waiting < (s.slot b q).waiting) :
    exec (.sqTailDoorbell al b q v) s = .next (s.doorbellInvalid b q) := by
  change execSqTailDoorbell al b q v s = _
  unfold execSqTailDoorbell
  dsimp only
  rw [if_neg (by rw [hreach]; decide), if_pos hinvalid]

/-- The checks of a completion head in one condition. -/
theorem exec_cqHeadDoorbell_eq {al : Bool} {b : Fin 64} {q : Fin 16} {v : Nat} {s : State} (hreach : s.doorbellReaches al b = true) :
    exec (.cqHeadDoorbell al b q v) s = .next (
      if (s.slot b q).status = .absent ∨ (s.slot b q).status = .refused ∨ (s.slot b q).regs.cqEntries ≤ v % 65536
        ∨ (s.slot b q).unconsumed < (v % 65536 + (s.slot b q).regs.cqEntries - (s.slot b q).cqHead) % max (s.slot b q).regs.cqEntries 1
      then s.doorbellInvalid b q else s.setSlot b q { s.slot b q with cqHead := v % 65536 }) := by
  change execCqHeadDoorbell al b q v s = _
  unfold execCqHeadDoorbell
  dsimp only
  rw [if_neg (by rw [hreach]; decide)]
  grind

/-- Settles O10: both values pass the checks of their doorbell. -/
theorem doorbellsMoveTheirQueue : Obligations.DoorbellsMoveTheirQueue := by
  refine ⟨?submission, ?completion⟩
  case submission =>
    rintro al b q v s sl rfl hreach hlive hdepth hforward
    have hdeep : max (s.slot b q).regs.sqEntries 1 = (s.slot b q).regs.sqEntries := by omega
    refine exec_sqTailDoorbell_moves hreach ?_
    unfold QSlot.waiting
    rw [hdeep]
    exact not_or.mpr ⟨not_not_intro hlive, not_or.mpr ⟨Nat.not_le.mpr hdepth, Nat.not_lt.mpr hforward⟩⟩
  case completion =>
    rintro al b q v s sl rfl hreach habsent hrefused hdepth hwithin
    have hdeep : max (s.slot b q).regs.cqEntries 1 = (s.slot b q).regs.cqEntries := by omega
    rw [exec_cqHeadDoorbell_eq hreach, if_neg]
    unfold QSlot.unconsumed
    rw [hdeep]
    exact not_or.mpr ⟨habsent, not_or.mpr ⟨hrefused, not_or.mpr ⟨Nat.not_le.mpr hdepth, Nat.not_lt.mpr hwithin⟩⟩⟩

theorem State.flagBurrow_flag {s : State} {b bit : Nat} : ((s.flagBurrow b bit).burrow b).errorFlags.testBit bit = true := by
  unfold State.flagBurrow
  rw [State.burrow_setBurrow, Nat.testBit_or, Nat.testBit_two_pow_self, Bool.or_true]

/-- A doorbell that is ignored leaves every slot, flags the burrow and logs one event (R176; log entry 21). -/
theorem State.doorbellInvalid_flags {s : State} {b q : Nat} :
    (s.doorbellInvalid b q).host.slots = s.host.slots ∧ ((s.doorbellInvalid b q).burrow b).errorFlags.testBit 0 = true
      ∧ (s.doorbellInvalid b q).log.last = nextEntry s.log.last := by
  unfold State.doorbellInvalid
  simp only [State.logBurrow_eq, State.logFrom_slots, State.logFrom_burrow, State.logFrom_last]
  exact ⟨rfl, State.flagBurrow_flag, rfl⟩

/-- Settles O11: such a value fails the checks of its doorbell, and an invalid doorbell does just that. -/
theorem invalidDoorbellsAreFlagged : Obligations.InvalidDoorbellsAreFlagged := by
  refine ⟨?submission, ?completion⟩
  case submission =>
    rintro al b q v s sl rfl hreach hinvalid
    refine Runs.of (exec_sqTailDoorbell_invalid hreach ?_) State.doorbellInvalid_flags
    unfold QSlot.waiting
    by_cases hdepth : (s.slot b q).regs.sqEntries ≤ v % 65536
    · exact .inr (.inl hdepth)
    · rwa [show max (s.slot b q).regs.sqEntries 1 = (s.slot b q).regs.sqEntries by omega]
  case completion =>
    rintro al b q v s sl rfl hreach hinvalid
    refine Runs.of ((exec_cqHeadDoorbell_eq hreach).trans (congrArg _ (if_pos ?_))) State.doorbellInvalid_flags
    unfold QSlot.unconsumed
    by_cases hdepth : (s.slot b q).regs.cqEntries ≤ v % 65536
    · exact .inr (.inr (.inl hdepth))
    · rwa [show max (s.slot b q).regs.cqEntries 1 = (s.slot b q).regs.cqEntries by omega]

/-! ## Creation and deletion (R174, R175) -/

theorem State.slot_setSlot_other {s : State} {b p q : Nat} {v : QSlot} (h : p ≠ q) : (s.setSlot b q v).slot b p = s.slot b p :=
  Map.getD_put_other (by unfold slotKey; omega)

/-- The LIVE slots that a create counts beside its own do not depend on its own. -/
theorem State.liveOthers_setSlot {s : State} {b q : Nat} {v : QSlot} :
    (List.range 16).filter (fun p => p != q && ((s.setSlot b q v).slot b p).status == .live)
      = (List.range 16).filter fun p => p != q && (s.slot b p).status == .live := by
  refine List.filter_congr fun p _ => ?_
  by_cases h : p = q
  · simp [h]
  · rw [State.slot_setSlot_other h]

/-- Settles O12: the refuse reason is 0, so the create is applied. -/
theorem queueCreateMakesALiveSlot : Obligations.QueueCreateMakesALiveSlot := by
  intro b q r s hreach habsent henabled hsqBase hcqBase hsq2 hsq hcq2 hcq hothers hcls hurgent hvector htime
  have hexec : exec (.queueCreate b q r) s = .next ((s.setSlot b q { s.slot b q with regs := r }).createQueue b q) := by
    change execQueueCreate b q r s = _
    unfold execQueueCreate
    dsimp only
    rw [if_neg (by rw [hreach]; decide)]
    rcases habsent with h | h <;> rw [h]
  have hreason : (s.setSlot b q { s.slot b q with regs := r }).createReason b q = 0 := by
    have hclass : ¬(3 < r.cls ∨ r.cls = 0 ∧ (s.cfg (burrowIndex b) 7).testBit 2 = false) := by
      rintro (h | ⟨h0, hno⟩)
      · omega
      · exact absurd ((hurgent h0).symm.trans hno) (by decide)
    unfold State.createReason
    dsimp only
    rw [State.liveOthers_setSlot, State.slot_setSlot, State.burrow_setSlot]
    dsimp only
    rw [if_neg (not_not_intro henabled), if_neg (by omega)]
    exact (if_neg (Nat.not_lt.mpr hothers)).trans ((if_neg hclass).trans (if_neg (by omega)))
  refine Runs.of hexec ?_
  unfold State.createQueue
  rw [if_pos hreason]
  refine ⟨by simp only [State.slot_setSlot], fun k hk => ?_⟩
  exact (Map.get?_put_other hk.symm).trans (Map.get?_put_other hk.symm)

/-- Where no fetched command satisfies `p`, none is aborted. -/
theorem State.abortFetched_none {s : State} {p : Fetched → Bool} {fs : List Fetched} (h : ∀ f ∈ fs, p f = false) : s.abortFetched p fs = s := by
  induction fs with
  | nil => rfl
  | cons f fs ih =>
    unfold State.abortFetched
    rw [if_neg (by simp [h f List.mem_cons_self])]
    exact ih fun g hg => h g (List.mem_cons_of_mem _ hg)

/-- A queue's signal changes of its slot only the count. -/
@[simp] theorem State.slot_signal {s : State} {b q : Nat} : (s.signal b q).slot b q = { s.slot b q with unsignalled := 0 } := by
  unfold State.slot
  rw [State.signal_host]
  exact Map.getD_put_same

theorem State.queueIdle_host {s t : State} {b q : Nat} (hfetched : t.host.fetched = s.host.fetched) (hlive : t.host.live = s.host.live)
    (hwaiting : t.host.waiting = s.host.waiting) (hadmitting : t.host.admitting = s.host.admitting) : t.queueIdle b q = s.queueIdle b q := by
  unfold State.queueIdle State.fetchedOf
  rw [hfetched, hlive, hwaiting, hadmitting]

/-- A queue that holds no command has none fetched. -/
theorem State.queueIdle_fetched {s : State} {b q : Nat} (h : s.queueIdle b q = true) :
    ∀ f ∈ s.host.fetched, (f.origin.burrow == b && f.origin.queue == q) = false := by
  unfold State.queueIdle at h
  simp only [Bool.and_eq_true, List.isEmpty_iff] at h
  intro f hf
  obtain ⟨⟨⟨hfetched, -⟩, -⟩, -⟩ := h
  refine Bool.eq_false_iff.mpr fun hmine => List.not_mem_nil (a := f) ?_
  rw [← hfetched]
  exact List.mem_filter.mpr ⟨hf, hmine⟩

/-- A DELETING slot that holds no command, with no create waiting, is ABSENT; the host-written registers stay. -/
theorem State.settleSlot_slot {s : State} {b q : Nat} (hdeleting : (s.slot b q).status = .deleting) (hidle : s.queueIdle b q = true)
    (hpending : (s.slot b q).pendingCreate = false) : (s.settleSlot b q).slot b q = { regs := (s.slot b q).regs } := by
  unfold State.settleSlot
  dsimp only
  rw [if_pos ⟨hdeleting, hidle⟩, if_neg (by rw [hpending]; decide), State.slot_setSlot]

theorem State.deleteSlot_idle {s : State} {b q : Nat} (hidle : s.queueIdle b q = true) (hpending : (s.slot b q).pendingCreate = false) :
    (s.deleteSlot b q).slot b q = { regs := (s.slot b q).regs } := by
  unfold State.deleteSlot
  dsimp only
  rw [State.abortFetched_none, State.settleSlot_slot]
  · simp only [State.slot_setSlot, State.slot_signal]
  · simp only [State.slot_setSlot]
  · rw [← hidle]
    exact State.queueIdle_host State.signal_fetched State.signal_live State.signal_waiting State.signal_admitting
  · simpa only [State.slot_setSlot, State.slot_signal] using hpending
  · intro f hf
    exact State.queueIdle_fetched hidle f ((State.signal_fetched : (s.signal b q).host.fetched = s.host.fetched) ▸ hf)

/-- Settles O13: no fetched command is aborted, and a DELETING slot that holds no command is ABSENT at once. -/
theorem queueDeleteEmptiesAnIdleSlot : Obligations.QueueDeleteEmptiesAnIdleSlot := by
  intro b q s hreach hlive hpending hidle
  have hexec : exec (.queueDelete b q) s = .next (s.deleteSlot b q) := by
    change execQueueDelete b q s = _
    unfold execQueueDelete
    dsimp only
    rw [if_neg (by rw [hreach]; decide), hlive]
  exact Runs.of hexec (State.deleteSlot_idle hidle hpending)

/-! ## Host fetch (R90, R177) -/

/-- Only what leaves the device changes with the reads of a fetch. -/
theorem State.fetchReads_eq {s : State} {b head n : Nat} {r : SlotRegs} :
    s.fetchReads b head n r = { s with out := (s.fetchReads b head n r).out } := by
  unfold State.fetchReads
  dsimp only
  split <;> rfl

/-- Settles O14: every check of the fetch passes. -/
theorem hostFetchTakesOneCommand : Obligations.HostFetchTakesOneCommand := by
  rintro b q data s sl n rfl rfl hpresent henabled hlive hsome hlength hdepth hsubmitted hslots
  have hmax : max (s.slot b q).regs.sqEntries 1 = (s.slot b q).regs.sqEntries := by omega
  have hwaiting : (s.slot b q).waiting = ((s.slot b q).tail + (s.slot b q).regs.sqEntries - (s.slot b q).sqHead) % (s.slot b q).regs.sqEntries := by
    unfold QSlot.waiting
    rw [hmax]
  have hfetches : s.fetches b q = true := by
    unfold State.fetches
    rw [henabled, hlive, hpresent]
    rfl
  refine Runs.of (rfl : exec (.hostFetch b q data) s = .next (s.hostFetch b q data)) ?_
  unfold State.hostFetch
  dsimp only
  rw [if_neg, if_neg (by omega), if_neg (by rw [hwaiting]; omega), State.fetchReads_eq]
  · refine ⟨rfl, ?_, ?_⟩
    · exact State.slot_setSlot
    · exact congrArg Pool.outstanding State.pool_reserve
  · rw [hfetches, hwaiting]
    simp only [Bool.true_eq_false, false_or]
    omega

/-! ## Admission (R134, R337) -/

theorem State.abortDeleted_none {s : State} (h : ∀ g ∈ s.host.fetched, (s.slot g.origin.burrow g.origin.queue).status ≠ .deleting) :
    s.abortDeleted = s := State.abortFetched_none fun g hg => by simpa using h g hg

theorem State.refuseUnknown_known {s : State} {f : Fetched} (hadmitting : s.host.admitting = some f) (hknown : knownOpcode (dOpcode f.bytes) = true) :
    s.refuseUnknown = s := by
  unfold State.refuseUnknown
  rw [hadmitting]
  exact if_pos hknown

/-- A decision that the throttle lets through and that chooses a known command. -/
theorem State.admissionStep_chooses {s t : State} {f : Fetched} (hopen : s.admissionOpen = true) (hnone : s.host.admitting = none)
    (hthrottle : s.host.decisions % 2 ^ s.gov.throttle = 0)
    (hdeleting : ∀ g ∈ s.host.fetched, (s.slot g.origin.burrow g.origin.queue).status ≠ .deleting)
    (hchoice : s.level1.getD s.level2 = t) (hadmitting : t.host.admitting = some f) (hknown : knownOpcode (dOpcode f.bytes) = true) :
    s.admissionStep = t.countDecision.gainUrgent := by
  unfold State.admissionStep
  dsimp only
  rw [State.abortDeleted_none hdeleting, if_neg (by rw [hopen, hnone]; decide), if_neg (not_not_intro hthrottle), hchoice,
    if_pos (show t.countDecision.host.admitting.isSome = true from Option.isSome_iff_exists.mpr ⟨f, hadmitting⟩),
    State.refuseUnknown_known (s := t.countDecision.gainUrgent) hadmitting hknown]

/-- Level 1 takes the URGENT command of the burrow whose turn it is. -/
theorem State.level1_first {s : State} {q : Nat} {f : Fetched} (htokens : 0 < s.host.urgentTokens)
    (hpick : s.pickClass ((s.host.urgentTurn + 1) % 64) (· == 0) = some (q, f)) :
    s.level1 = some (({ s with host := { s.host with urgentTokens := s.host.urgentTokens - 1, urgentTurn := (s.host.urgentTurn + 1) % 64 } } : State).choose
      ((s.host.urgentTurn + 1) % 64) q f) := by
  unfold State.level1
  dsimp only
  rw [if_neg (by omega), List.range_eq_range', List.range'_succ, List.map_cons, List.findSome?_cons]
  simp only [Nat.add_zero, hpick, Option.map_some]

/-- Level 2 goes on with the burrow whose round is in progress, while its deficit covers the command picked there. -/
theorem State.serveBurrow_takes {s : State} {b q c left : Nat} {f : Fetched} (heligible : s.eligible b = true)
    (hpick : s.pickLevel3 b = some (q, f, c, left)) (hcovers : f.entries ≤ (s.burrow b).deficit) :
    ∃ t, s.serveBurrow b = some t ∧ t.host.admitting = some f ∧ t.host.fetched = s.host.fetched.filter (fun g => g.order != f.order)
      ∧ t.burrow b = { s.burrow b with deficit := (s.burrow b).deficit - f.entries, cls := c, clsLeft := left, lastQueue := q } := by
  unfold State.serveBurrow
  rw [if_pos heligible, hpick]
  refine ⟨_, if_pos hcovers, rfl, rfl, ?_⟩
  refine State.burrow_setBurrow.trans ?_
  have hkept : ∀ v : Burrow, ({ s.setBurrow b v with host := { (s.setBurrow b v).host with inService := some b } } : State).burrow b = v :=
    fun v => State.burrow_setBurrow
  simp only [hkept]

theorem State.level2_serves {s t : State} {b : Nat} (hservice : s.host.inService = some b) (hserves : s.serveBurrow b = some t)
    (hadmitting : t.host.admitting.isSome = true) : s.level2 = t := by
  unfold State.level2
  simp only [hservice, hserves, hadmitting, if_true]

/-- Settles O15: the turn's first burrow has a command; the round's burrow can pay; the throttle passes over. -/
theorem admissionServesInTurn : Obligations.AdmissionServesInTurn := by
  refine ⟨?urgent, ?round, ?throttled⟩
  case urgent =>
    intro s q f hopen hnone hthrottle hdeleting htokens hpick hknown
    refine Runs.of (congrArg Host.Outcome.next (State.admissionStep_chooses (f := f) hopen hnone hthrottle hdeleting
      (congrArg (Option.getD · s.level2) (State.level1_first htokens hpick)) rfl hknown)) ?_
    exact ⟨rfl, rfl, rfl, rfl⟩
  case round =>
    intro s b q c left f hopen hnone hthrottle hdeleting htokens hservice heligible hpick hcovers hknown
    obtain ⟨t, hserves, hadmitting, hfetched, hburrow⟩ := State.serveBurrow_takes heligible hpick hcovers
    have hchoice : s.level1.getD s.level2 = t := by
      rw [show s.level1 = none from if_pos htokens]
      exact State.level2_serves hservice hserves (Option.isSome_iff_exists.mpr ⟨f, hadmitting⟩)
    have hstep := State.admissionStep_chooses hopen hnone hthrottle hdeleting hchoice hadmitting hknown
    refine Runs.of (congrArg Host.Outcome.next hstep) ?_
    have hkept : t.countDecision.gainUrgent.burrow b = t.burrow b := rfl
    rw [hkept, hburrow]
    exact ⟨hadmitting, hfetched, rfl, rfl, rfl⟩
  case throttled =>
    intro s hopen hnone hthrottle hdeleting
    change Host.Outcome.next s.admissionStep = _
    unfold State.admissionStep
    dsimp only
    rw [State.abortDeleted_none hdeleting, if_neg (by rw [hopen, hnone]; decide), if_pos hthrottle]
    rfl

/-! ## Completions and interrupts (R177 to R180) -/

/-- A vector that is raised sends at most its message. -/
theorem State.raise_out {s : State} {fn vec : Nat} : ∃ more, (s.raise fn vec).out = s.out ++ more := by
  unfold State.raise
  dsimp only
  split
  · exact ⟨[], (List.append_nil _).symm⟩
  · exact ⟨_, rfl⟩

theorem State.signal_out {s : State} {b q : Nat} : ∃ more, (s.signal b q).out = s.out ++ more := by
  unfold State.signal
  dsimp only
  split
  · exact ⟨[], (List.append_nil _).symm⟩
  · exact State.raise_out

/-- What counting a posted entry leaves: the slot but its count, the completions that wait, and what has left before. -/
theorem State.countEntry_keeps {s : State} {b q : Nat} :
    ((s.countEntry b q).slot b q).cqTail = (s.slot b q).cqTail ∧ ((s.countEntry b q).slot b q).phase = (s.slot b q).phase
      ∧ ((s.countEntry b q).slot b q).status = (s.slot b q).status ∧ (s.countEntry b q).host.waiting = s.host.waiting
      ∧ ∃ more, (s.countEntry b q).out = s.out ++ more := by
  unfold State.countEntry
  dsimp only
  split
  · simp only [State.slot_signal, State.slot_setSlot, State.signal_waiting, true_and]
    exact ⟨rfl, State.signal_out⟩
  · simp only [State.slot_setSlot, true_and]
    exact ⟨rfl, [], (List.append_nil _).symm⟩

/-- A slot that is not DELETING is settled as it is. -/
theorem State.settleSlot_other {s : State} {b q : Nat} (h : (s.slot b q).status ≠ .deleting) : s.settleSlot b q = s := by
  unfold State.settleSlot
  exact if_neg fun hd => h hd.1

/-- Settles O16: the host has room for the entry, and neither the count nor the completion's credits touch CqTail. -/
theorem completionWritePostsTheEntry : Obligations.CompletionWritePostsTheEntry := by
  rintro b q s c rest sl rfl hfirst hdiscard hgen hlive hroom
  have hmax : max (s.slot b q).regs.cqEntries 1 = (s.slot b q).regs.cqEntries := by omega
  refine Runs.of (rfl : exec (.completionWrite b q) s = .next (s.postCompletion b q)) ?_
  unfold State.postCompletion
  rw [hfirst]
  dsimp only
  rw [if_neg (by simp [hdiscard, hgen]), if_neg (by unfold QSlot.unconsumed; rw [hmax]; omega), hmax]
  generalize hposted : (State.setSlot _ b q _ : State) = p
  have hslot : p.slot b q = { s.slot b q with
      cqTail := ((s.slot b q).cqTail + 1) % (s.slot b q).regs.cqEntries
      phase := if ((s.slot b q).cqTail + 1) % (s.slot b q).regs.cqEntries = 0 then !(s.slot b q).phase else (s.slot b q).phase } := by
    rw [← hposted, State.slot_setSlot]
  have hhost : (p.releaseCompletion c).host = p.host := State.releaseCompletion_only.host
  have hreleased : (p.releaseCompletion c).slot b q = p.slot b q := by
    unfold State.slot
    rw [hhost]
  obtain ⟨htail, hphase, hstatus, hwaiting, more, hout⟩ := State.countEntry_keeps (s := p.releaseCompletion c) (b := b) (q := q)
  rw [hreleased, hslot] at htail hphase hstatus
  rw [State.settleSlot_other (by rw [hstatus, hlive]; decide)]
  refine ⟨?_, ⟨more, ?_⟩, htail, hphase⟩
  · rw [hwaiting, hhost, ← hposted]
    rfl
  · rw [hout, State.releaseCompletion_only.out, ← hposted]
    rfl

/-- A vector that is not masked sends its message. -/
theorem State.raise_unmasked {s : State} {fn vec : Nat} (h : (Map.getD s.host.vectors (32 * fn + vec) {}).masked = false) :
    s.raise fn vec = s.emit (.msix fn vec (Map.getD s.host.vectors (32 * fn + vec) {}).addr (Map.getD s.host.vectors (32 * fn + vec) {}).data) := by
  unfold State.raise
  exact if_neg (by rw [h]; decide)

/-- A queue that owes an interrupt raises its vector. -/
theorem State.signal_owed {s : State} {b q : Nat} (howed : 0 < (s.slot b q).unsignalled) (hflag : (s.slot b q).regs.irqFlags % 2 = 1) :
    s.signal b q = (s.setSlot b q { s.slot b q with unsignalled := 0 }).raise (b + 1) (s.slot b q).regs.vector := by
  unfold State.signal
  exact if_neg (by omega)

theorem State.haltSlot_status {s : State} {b q : Nat} : ((s.haltSlot b q).slot b q).status = .halted := by
  unfold State.haltSlot
  simp only [State.slot_setSlot]

/-- Settles O17: the queue owes an interrupt, the vector is unmasked, and the slot still had entries to fetch. -/
theorem interruptsAreSentAndHeld : Obligations.InterruptsAreSentAndHeld := by
  refine ⟨?coalesced, ?unmasked, ?failed⟩
  case coalesced =>
    rintro b q s sl rfl hlive htime howed hpassed hflag hmask
    have hexec : exec (.coalesceTimer b q) s = .next (s.signal b q) := congrArg _ (if_pos ⟨hlive, htime, howed, hpassed⟩)
    refine Runs.of hexec ⟨by rw [State.slot_signal], ?_⟩
    rw [State.signal_owed howed hflag, State.raise_unmasked (s := s.setSlot b q _) hmask]
    rfl
  case unmasked =>
    intro fn vec addr data s hvector
    have hexec : exec (.msixVectorUnmask fn vec addr data) s = .next _ := congrArg Host.Outcome.next (if_neg (by omega))
    refine Runs.of hexec ?_
    dsimp only
    split
    · exact ⟨Map.get?_put_same, rfl⟩
    · exact ⟨Map.get?_put_same, (List.append_nil _).symm⟩
  case failed =>
    intro b q s hfetches hwaiting
    have hexec : exec (.hostReadError (.submission b q)) s = .next (((s.haltSlot b q).flagBurrow b 1).logBurrow b 0x0502 (toLE 1 q)) :=
      congrArg _ (if_neg (by rw [hfetches]; simpa using hwaiting))
    refine Runs.of hexec ?_
    simp only [State.logBurrow_eq, State.logFrom_slot, State.logFrom_burrow, State.logFrom_last]
    refine ⟨State.haltSlot_status, State.flagBurrow_flag, ?_⟩
    have hlog : (s.haltSlot b q).log = s.log := State.haltSlot_only.log
    exact congrArg (fun l : EventLog => nextEntry l.last) hlog

end Sys2Proof.Machine
end

section
/-! Writes to the dictionary: the checks that pass for objects without a rule of their own, and what a state's reads of the base layer depend on. -/

namespace Sys2Proof.Machine

theorem State.baseValue_base {s t : State} {ix sub : Nat} (h : t.dict.base = s.dict.base) : t.baseValue ix sub = s.baseValue ix sub := by
  unfold State.baseValue
  rw [h]

/-! An answer changes no read of the other parts, and no value. -/

theorem State.burrow_dict {s : State} {d : Dict} {b : Nat} : ({ s with dict := d } : State).burrow b = s.burrow b := rfl
theorem State.baseValue_answer {s : State} {a : Answer} {ix sub : Nat} :
    ({ s with dict := { s.dict with answer := a } } : State).baseValue ix sub = s.baseValue ix sub := rfl

/-- The indices that have cross-object checks (step 8 of Table 11.4). -/
def crossChecked : List Nat := [0x4010, 0x4101, 0x4102, 0x4110, 0x4111, 0x7010, 0x7011]

theorem State.crossCheck_plain {s : State} {v : View} {old ix sub : Nat} (h : crossChecked.contains ix = false) :
    s.crossCheck v old ix sub = none := by
  simp only [crossChecked, List.contains_cons, List.contains_nil, Bool.or_eq_false_iff, beq_eq_false_iff_ne] at h
  obtain ⟨h4010, h4101, h4102, h4110, h4111, h7010, h7011, -⟩ := h
  unfold State.crossCheck
  simp only [h4010, h4101, h4102, h4110, h4111, h7010, h7011, false_and, or_self, if_false]

/-- An object without a rule of its own takes every value of its range. -/
theorem State.baseCheck_plain {s : State} {ix sub : Nat} {o : Obj} {v : List Byte} (hrange : rangeOk o v = true)
    (himage : ¬(0x6100 ≤ ix ∧ ix < 0x6240)) (hdelta : ix < 0x3100 ∨ 0x3600 ≤ ix) (hcross : crossChecked.contains ix = false) :
    s.baseCheck ix sub o v = none := by
  unfold State.baseCheck valueOk State.overlayCheck
  rw [hrange, if_neg (by decide), if_neg himage]
  dsimp only
  rw [if_pos hdelta, State.crossCheck_plain hcross]

theorem overlayModeOf_none {ix : Nat} (h : ix < 0x3000 ∨ 0x3600 ≤ ix) : overlayModeOf ix = none := by
  unfold overlayModeOf
  rw [if_neg (by omega), if_neg (by omega)]

/-- Either truth value is a value of a BOOL object. -/
theorem ofBool_fits (d : Nat) (on : Bool) : lengthOk (num .bool .rw d) (ofBool on) = true ∧ rangeOk (num .bool .rw d) (ofBool on) = true
    ∧ (leNat (ofBool on) == 1) = on := by
  cases on <;> exact ⟨rfl, rfl, rfl⟩

/-- A plain RW object that no overlay shadows, written out of a transition: its value lands and the device takes it up. -/
theorem State.dictWrite_plain {s : State} {via : Transport} {ix sub : Nat} {data : List Byte} {o : Obj} (hs : 4 ≤ s.boot.stage)
    (ho : (findObject ix sub).toOption = some o) (ha : o.acc = .rw) (hq : isRequest ix sub = false) (hlen : lengthOk o data = true)
    (hrange : rangeOk o data = true) (himage : ¬(0x6100 ≤ ix ∧ ix < 0x6240)) (hdelta : ix < 0x3000 ∨ 0x3600 ≤ ix)
    (hcross : crossChecked.contains ix = false) (hfuse : ¬(0x8280 ≤ ix ∧ ix < 0x8288)) (happlying : s.dict.applying = false)
    (hshadow : s.shadowed ix sub = false) (hmode : ¬(ix = 0x2001 ∧ sub = 1)) :
    s.dictWrite via ix sub data
      = { (s.putBase ix sub data).react ix sub with dict := { ((s.putBase ix sub data).react ix sub).dict with answer := .ok false } } := by
  rw [State.dictWrite_base hs ho (.inl ha) hq hfuse hlen (State.baseCheck_plain hrange himage (by omega) hcross) (overlayModeOf_none hdelta)
    (State.transitionRefuses_idle happlying hmode), State.baseWrite_of hshadow happlying, hshadow]

/-- A write to a CMD object out of a transition runs its command and keeps its answer. -/
theorem State.dictWrite_command {s u : State} {via : Transport} {ix sub : Nat} {data : List Byte} {o : Obj} {a : Answer} (hs : 4 ≤ s.boot.stage)
    (ho : (findObject ix sub).toOption = some o) (ha : o.acc = .cmd) (hlen : lengthOk o data = true) (hr : rangeOk o data = true)
    (happlying : s.dict.applying = false) (hmode : ix ≠ 0x2001) (hrun : s.runCommand ix sub (leNat data) = (u, a)) :
    s.dictWrite via ix sub data = { u with dict := { u.dict with answer := a } } := by
  rw [State.dictWrite_cmd hs ho ha hlen hr (State.transitionRefuses_idle happlying fun h => hmode h.1), hrun]

/-- A write to a request object out of a transition stores what it carries and keeps its answer. -/
theorem State.dictWrite_stores {s u : State} {via : Transport} {ix sub : Nat} {data : List Byte} {o : Obj} {a : Answer} (hs : 4 ≤ s.boot.stage)
    (ho : (findObject ix sub).toOption = some o) (ha : o.acc = .rw ∨ o.acc = .wo) (hq : isRequest ix sub = true) (hlen : lengthOk o data = true)
    (hr : rangeOk o data = true) (happlying : s.dict.applying = false) (hmode : ix ≠ 0x2001) (hrun : s.writeRequest ix sub data = (u, a)) :
    s.dictWrite via ix sub data = { u with dict := { u.dict with answer := a } } := by
  rw [State.dictWrite_request hs ho ha hq hlen hr (State.transitionRefuses_idle happlying fun h => hmode h.1), hrun]

/-- A value that an object of the base layer does not take changes nothing but the answer. -/
theorem State.dictWrite_refused {s : State} {via : Transport} {ix sub : Nat} {data : List Byte} {o : Obj} {c : Nat} (hs : 4 ≤ s.boot.stage)
    (ho : (findObject ix sub).toOption = some o) (ha : o.acc = .rw ∨ o.acc = .rwl ∧ s.dict.locked = false) (hq : isRequest ix sub = false)
    (hfuse : ¬(0x8280 ≤ ix ∧ ix < 0x8288)) (hlen : lengthOk o data = true) (hc : s.baseCheck ix sub o data = some c)
    (ht : s.transitionRefuses ix sub data = false) : s.dictWrite via ix sub data = { s with dict := { s.dict with answer := .abort c } } := by
  have hro : o.acc ≠ .ro := by rcases ha with h | ⟨h, -⟩ <;> rw [h] <;> decide
  have hw1 : o.acc ≠ .w1 := by rcases ha with h | ⟨h, -⟩ <;> rw [h] <;> decide
  have hcmd : o.acc ≠ .cmd := by rcases ha with h | ⟨h, -⟩ <;> rw [h] <;> decide
  have hbase : inBase ix sub o = true := by
    have hout : (!(decide (0x8280 ≤ ix) && decide (ix < 0x8288))) = true := by simp; omega
    unfold inBase
    rcases ha with h | ⟨h, -⟩ <;> rw [h, hq, hout] <;> rfl
  have hlocked : o.acc = .rwl → s.dict.locked = false := fun h => ha.elim (fun k => absurd (k.symm.trans h) (by decide)) And.right
  have haccepted : s.writeAccepted ix sub o data = (s, .abort c) := by
    unfold State.writeAccepted
    rw [if_neg hcmd, hq, if_neg (by decide), if_pos hbase]
    unfold State.writeBase
    rw [hc]
  rw [State.dictWrite_of hs ho hro hlocked hw1 hlen ht, haccepted]

/-! ## A write that reaches the base layer -/

theorem State.baseWrite_base {s : State} {ix sub : Nat} {v : List Byte} : (s.baseWrite ix sub v).dict.base = Map.put s.dict.base (objKey ix sub) v := by
  unfold State.baseWrite
  dsimp only
  split
  · rfl
  · split
    · rfl
    · rw [State.react_only.dict]
      rfl

theorem State.baseValue_baseWrite_same {s : State} {ix sub : Nat} {v : List Byte} : (s.baseWrite ix sub v).baseValue ix sub = v :=
  (State.baseValue_base (t := s.baseWrite ix sub v) (s := s.putBase ix sub v) State.baseWrite_base).trans State.baseValue_putBase_same

theorem State.baseValue_baseWrite_other {s : State} {ix sub i j : Nat} {v : List Byte} (h : objKey ix sub ≠ objKey i j) :
    (s.baseWrite ix sub v).baseValue i j = s.baseValue i j :=
  (State.baseValue_base (t := s.baseWrite ix sub v) (s := s.putBase ix sub v) State.baseWrite_base).trans (State.baseValue_putBase_other h)

end Sys2Proof.Machine
end

section
/-! Burrow states and function-level resets (R187 to R191). -/

namespace Sys2Proof.Machine

/-! ## Enable (Table 7.10) -/

theorem findObject_burrowEnable : ∀ b : Fin 64, (findObject (burrowIndex b) 1).toOption = some (num .bool .rw 0) := by decide

theorem burrowIndex_bounds (b : Fin 64) : 0x5000 ≤ burrowIndex b ∧ burrowIndex b < 0x5400 := by
  unfold burrowIndex
  omega

theorem burrowIndex_plain : ∀ b : Fin 64, isRequest (burrowIndex b) 1 = false ∧ crossChecked.contains (burrowIndex b) = false := by decide

/-- BURROW_ENABLE out of a transition and not shadowed: Enable is in the base layer, and the burrow acts on it. -/
theorem State.dictWrite_burrowEnable {s : State} {via : Transport} {b : Fin 64} {on : Bool} (hs : 4 ≤ s.boot.stage) (happlying : s.dict.applying = false)
    (hheld : s.dict.heldOld = []) (hshadow : s.shadowed (burrowIndex b) 1 = false) :
    s.dictWrite via (burrowIndex b) 1 (ofBool on) = { (s.putBase (burrowIndex b) 1 (ofBool on)).burrowEnable b on with
      dict := { ((s.putBase (burrowIndex b) 1 (ofBool on)).burrowEnable b on).dict with answer := .ok false } } := by
  obtain ⟨hlo, hhi⟩ := burrowIndex_bounds b
  obtain ⟨hlen, hrange, hone⟩ := ofBool_fits 0 on
  obtain ⟨hrequest, hcross⟩ := burrowIndex_plain b
  have hreact : ∀ u : State, u.cfg (burrowIndex b) 1 = leNat (ofBool on) → u.react (burrowIndex b) 1 = u.burrowEnable b on := by
    intro u hu
    unfold State.react
    dsimp only
    rw [if_pos ⟨hlo, hhi⟩, if_pos rfl, hu, hone]
    congr 1
    unfold burrowIndex
    omega
  rw [State.dictWrite_plain hs (findObject_burrowEnable b) rfl hrequest hlen hrange (by omega) (by omega) hcross (by omega) happlying hshadow
    (by omega), hreact _ (State.cfg_putBase_same (by decide) (by omega) hheld hshadow)]

/-- A change of State: the burrow's new state and generation; an event and vector 3 touch no burrow. -/
theorem State.moveBurrow_burrow {s : State} {b : Nat} {nxt : BurrowState} :
    (s.moveBurrow b nxt).burrow b = { s.burrow b with
      state := nxt
      generation := if nxt = .enabled then ((s.burrow b).generation + 1) % 65536 else (s.burrow b).generation
      discard := if nxt = .draining then (s.burrow b).discard else false } := by
  unfold State.moveBurrow
  simp only [State.logBurrow_eq, State.logFrom_burrow, State.raise_burrow, State.burrow_setBurrow]

theorem State.enableBurrow_burrow {s : State} {b : Nat} :
    (s.enableBurrow b).burrow b
      = { s.burrow b with state := .enabled, generation := ((s.burrow b).generation + 1) % 65536, pendingEnable := false, discard := false } := by
  unfold State.enableBurrow
  rw [State.moveBurrow_burrow, State.burrow_setBurrow]
  rfl

theorem State.burrowEnable_on {s : State} {b : Nat} (hdisabled : (s.burrow b).state = .disabled) (hpresent : s.vfPresent b = true)
    (hstage : 6 ≤ s.boot.stage) : s.burrowEnable b true = s.enableBurrow b := by
  unfold State.burrowEnable
  dsimp only
  rw [hdisabled]
  exact if_pos ⟨hpresent, hstage⟩

theorem State.burrowEnable_off {s : State} {b : Nat} (hdisabled : (s.burrow b).state = .disabled) :
    s.burrowEnable b false = s.setBurrow b { s.burrow b with pendingEnable := false } := by
  unfold State.burrowEnable
  dsimp only
  rw [hdisabled]

/-- Settles O18: Enable reaches a DISABLED burrow, with its virtual function present or to call a waiting enable off. -/
theorem burrowEnableActs : Obligations.BurrowEnableActs := by
  refine ⟨?on, ?off⟩
  case on =>
    intro via b s happlying hheld hshadow hstage hpresent hdisabled
    refine Runs.of (congrArg Host.Outcome.next (State.dictWrite_burrowEnable (by omega) happlying hheld hshadow)) ?_
    generalize hput : s.putBase (burrowIndex b) 1 (ofBool true) = u
    have hkept : u.burrow b = s.burrow b := by rw [← hput]; rfl
    have hbase : u.baseValue (burrowIndex b) 1 = ofBool true := by rw [← hput, State.baseValue_putBase_same]
    rw [State.burrowEnable_on (by rw [hkept, hdisabled]) (by rw [← hput]; exact hpresent) (by rw [← hput]; exact hstage)]
    have hburrow : (u.enableBurrow b).burrow b = _ := State.enableBurrow_burrow
    have hdict : (u.enableBurrow b).dict = u.dict := State.enableBurrow_only.dict
    rw [hkept] at hburrow
    rw [State.burrow_dict, hburrow, State.baseValue_answer, State.baseValue_base (congrArg Dict.base hdict)]
    exact ⟨rfl, rfl, hbase, rfl⟩
  case off =>
    intro via b s happlying hheld hshadow hstage hdisabled
    refine Runs.of (congrArg Host.Outcome.next (State.dictWrite_burrowEnable hstage happlying hheld hshadow)) ?_
    rw [State.burrowEnable_off (s := s.putBase (burrowIndex b) 1 (ofBool false)) hdisabled]
    exact ⟨State.burrow_setBurrow, State.baseValue_putBase_same, rfl⟩

/-! ## Function-level resets and drains (R189 to R191) -/

/-- A fold that writes the slots of a burrow changes nothing of the host interface but slots. -/
theorem State.foldl_setSlot_host {f : State → Nat → QSlot} {b : Nat} {qs : List Nat} {s : State} :
    (qs.foldl (fun s q => s.setSlot b q (f s q)) s).host = { s.host with slots := (qs.foldl (fun s q => s.setSlot b q (f s q)) s).host.slots } := by
  refine List.foldlRecOn (motive := fun t : State => t.host = { s.host with slots := t.host.slots }) qs _ rfl fun t h q _ => ?_
  exact congrArg (fun H : HostIf => { H with slots := (t.setSlot b q (f t q)).host.slots }) h

/-- A slot outside a list is as it was after the list's slots have been written. -/
theorem State.foldl_setSlot_other {f : QSlot → QSlot} {b q : Nat} {ps : List Nat} {s : State} (h : q ∉ ps) :
    (ps.foldl (fun s p => s.setSlot b p (f (s.slot b p))) s).slot b q = s.slot b q := by
  refine List.foldlRecOn (motive := fun t : State => t.slot b q = s.slot b q) ps _ rfl fun t ht p hp => ?_
  rw [State.slot_setSlot_other (p := q) (q := p) (fun he => h (he ▸ hp)), ht]

/-- Each slot of a list is written once, from the slot as it was. -/
theorem State.foldl_setSlot_slot {f : QSlot → QSlot} {b q : Nat} {ps : List Nat} {s : State} (hnodup : ps.Nodup) (hmem : q ∈ ps) :
    (ps.foldl (fun s p => s.setSlot b p (f (s.slot b p))) s).slot b q = f (s.slot b q) := by
  induction ps generalizing s with
  | nil => cases hmem
  | cons p ps ih =>
    obtain ⟨hp, hnodup⟩ := List.nodup_cons.mp hnodup
    rw [List.foldl_cons]
    by_cases he : q = p
    · subst he
      rw [State.foldl_setSlot_other hp, State.slot_setSlot]
    · rw [ih hnodup ((List.mem_cons.mp hmem).resolve_left he), State.slot_setSlot_other he]

/-- The virtual function's registers and vectors are at their reset values, its burrow's flags clear (R190). -/
theorem State.resetVf_resets {s : State} {b : Nat} :
    (∀ q : Fin 16, (s.resetVf b).slot b q = {}) ∧ (s.resetVf b).burrow b = { s.burrow b with errorFlags := 0, resetting := false }
      ∧ (s.resetVf b).host.vectors = s.host.vectors.filter (fun e => e.1 / 32 != b + 1) := by
  unfold State.resetVf
  dsimp only
  have hhost := State.foldl_setSlot_host (f := fun _ _ => {}) (b := b) (qs := List.range 16) (s := s)
  generalize hreset : (List.range 16).foldl (fun s q => s.setSlot b q {}) s = u at hhost ⊢
  refine ⟨fun q => ?_, ?_, ?_⟩
  · show u.slot b q = {}
    rw [← hreset, State.foldl_setSlot_slot (f := fun _ => {}) List.nodup_range (List.mem_range.mpr q.isLt)]
  · refine State.burrow_setBurrow.trans ?_
    unfold State.burrow
    rw [hhost]
  · show u.host.vectors.filter _ = _
    rw [hhost]

/-- A normal drain that holds no command any more ends in DISABLED; its slots keep the host-written registers (R189). -/
theorem State.drainEnd_disables {s : State} {b : Nat} (hdraining : (s.burrow b).state = .draining) (hidle : s.burrowIdle b = true)
    (hresetting : (s.burrow b).resetting = false) (hpending : (s.burrow b).pendingEnable = false) :
    ((s.drainEnd b).burrow b).state = .disabled ∧ ((s.drainEnd b).burrow b).discard = false
      ∧ ∀ q : Fin 16, (s.drainEnd b).slot b q = { regs := (s.slot b q).regs } := by
  have hend : s.drainEnd b = ((List.range 16).foldl (fun s q => s.setSlot b q { regs := (s.slot b q).regs }) s).moveBurrow b .disabled := by
    unfold State.drainEnd
    dsimp only
    rw [if_neg (by simp [hdraining, hidle]), if_neg (by simp [hpending]), if_neg (by simp [hresetting])]
  have hmoved : ∀ (u : State) (q : Nat), (u.moveBurrow b .disabled).slot b q = u.slot b q := by
    intro u q
    unfold State.moveBurrow
    simp only [State.logBurrow_eq, State.logFrom_slot, State.raise_slot, State.slot_setBurrow]
  rw [hend, State.moveBurrow_burrow]
  refine ⟨rfl, rfl, fun q => ?_⟩
  rw [hmoved, State.foldl_setSlot_slot (f := fun sl => { regs := sl.regs }) List.nodup_range (List.mem_range.mpr q.isLt)]

/-- The virtual functions change nothing of burrows that are DISABLED and wait for no enable that now comes. -/
theorem State.vfChange_disabled {s : State} {enable : Bool} {n : Nat}
    (h : ∀ b < 64, (s.burrow b).state = .disabled ∧ (enable = true → (s.burrow b).pendingEnable = false)) :
    s.vfChange enable n = { s with host := { s.host with vfEnable := enable, numVfs := n } } := by
  unfold State.vfChange
  dsimp only
  generalize hchanged : ({ s with host := { s.host with vfEnable := enable, numVfs := n } } : State) = u
  have hburrow : ∀ b, u.burrow b = s.burrow b := by
    subst hchanged
    exact fun _ => rfl
  have hloss : ∀ b ∈ (List.range 64).filter s.vfPresent, (if u.vfPresent b = true then u else u.vfLoss b) = u := by
    intro b hb
    have hdisabled := (h b (List.mem_range.mp (List.mem_filter.mp hb).1)).1
    unfold State.vfLoss
    simp only [hburrow, hdisabled, ite_self]
  have harrives : ∀ b ∈ List.range 64, u.vfArrives b = u := by
    intro b hb
    have hpending := (h b (List.mem_range.mp hb)).2
    unfold State.vfArrives
    rw [hburrow]
    refine if_neg fun ⟨_, hpend, hpresent, _⟩ => ?_
    have henable : enable = true := by
      subst hchanged
      exact (Bool.and_eq_true_iff.mp hpresent).1
    rw [hpending henable] at hpend
    cases hpend
  have hlosses : ((List.range 64).filter s.vfPresent).foldl (fun u b => if u.vfPresent b then u else u.vfLoss b) u = u := foldl_same hloss
  rw [hlosses, foldl_same harrives]

/-- Settles O19: a DISABLED burrow has nothing to drain, and a drain that is idle ends. -/
theorem functionResetsAndDrains : Obligations.FunctionResetsAndDrains := by
  refine ⟨?vf, ?pf, ?drained, ?enable⟩
  case vf =>
    intro b s hpresent hdisabled
    have hflr : s.vfFlr b = s.resetVf b := by
      unfold State.vfFlr
      rw [if_neg (by rw [hpresent]; decide), hdisabled]
    refine Runs.of (congrArg Host.Outcome.next hflr) ?_
    obtain ⟨hslots, hburrow, hvectors⟩ := State.resetVf_resets (s := s) (b := b)
    exact ⟨hslots, by rw [hburrow], hvectors⟩
  case pf => exact fun s => Runs.of rfl ⟨rfl, rfl, rfl, rfl, rfl, rfl, rfl⟩
  case drained =>
    intro b s hdraining hidle hresetting hpending
    exact Runs.of rfl (State.drainEnd_disables hdraining hidle hresetting hpending)
  case enable =>
    intro enable n s hdisabled
    exact Runs.of (congrArg Host.Outcome.next (State.vfChange_disabled fun b hb => ⟨(hdisabled b hb).1, fun _ => (hdisabled b hb).2⟩)) rfl

end Sys2Proof.Machine
end

section
/-! Dictionary, configuration store, defaults, calendar and audits (R273 to R295, R311, R354). -/

namespace Sys2Proof.Machine

/-! ## The order of the checks (Table 11.4) -/

/-- A write that fails one of steps 1 to 4 changes nothing but the answer. -/
theorem State.dictWrite_prechecked {s : State} {via : Transport} {ix sub code : Nat} {data : List Byte} (hs : 4 ≤ s.boot.stage)
    (h : s.precheck ix sub = .error code) : s.dictWrite via ix sub data = { s with dict := { s.dict with answer := .abort code } } := by
  unfold State.dictWrite State.writeObject
  rw [if_neg (by unfold State.serviceUp; simpa using hs), h]

/-- A write of a wrong length changes nothing but the answer. -/
theorem State.dictWrite_misfit {s : State} {via : Transport} {ix sub : Nat} {data : List Byte} {o : Obj} (hs : 4 ≤ s.boot.stage)
    (h : s.precheck ix sub = .ok o) (hlen : lengthOk o data = false) :
    s.dictWrite via ix sub data = { s with dict := { s.dict with answer := .abort abLength } } := by
  unfold State.dictWrite State.writeObject
  rw [if_neg (by unfold State.serviceUp; simpa using hs), h]
  simp only [hlen, if_true]

/-- Settles O24: each refused write stops at its own check, and the last one lands in the base layer. -/
theorem dictionaryWritesAreChecked : Obligations.DictionaryWritesAreChecked := by
  refine ⟨?absent, ?readOnly, ?locked, ?length, ?lands⟩
  case absent =>
    intro via ix sub code data s hs hfind
    refine congrArg Host.Outcome.next (State.dictWrite_prechecked hs ?_)
    unfold State.precheck
    rw [hfind]
  case readOnly =>
    intro via ix sub data s o hs ho hro
    refine congrArg Host.Outcome.next (State.dictWrite_prechecked hs ?_)
    unfold State.precheck
    rw [findObject_of ho]
    exact if_pos hro
  case locked =>
    intro via ix sub data s o hs ho hrwl hlocked
    refine congrArg Host.Outcome.next (State.dictWrite_prechecked hs ?_)
    unfold State.precheck
    rw [findObject_of ho]
    exact (if_neg (by rw [hrwl]; decide)).trans (if_pos ⟨hrwl, hlocked⟩)
  case length =>
    intro via ix sub data s o hs ho hro hlock hlen
    refine congrArg Host.Outcome.next (State.dictWrite_misfit hs ?_ hlen)
    unfold State.precheck
    rw [findObject_of ho]
    exact (if_neg hro).trans (if_neg hlock)
  case lands =>
    intro via ix sub data s o hs ho hrw hrequest hfuse hlen hcheck hmode htransition
    refine Runs.of (congrArg Host.Outcome.next (State.dictWrite_base hs ho hrw hrequest hfuse hlen hcheck hmode htransition)) ⟨?_, rfl⟩
    rw [State.baseValue_answer, State.baseValue_baseWrite_same]

/-! ## Defaults, lock and log (Table 11.9, R292, R353) -/

theorem objKey_div (k : Nat) : objKey (k / 256) (k % 256) = k := by unfold objKey; omega

/-- Writing an object's default to some keys leaves the object at its default, and brings it there where its key is one of them. -/
theorem State.foldl_defaults {ix sub : Nat} {o : Obj} (ho : objAt ix sub = some o) (hsub : sub < 256) {keys : List Nat} {s : State}
    (h : s.baseValue ix sub = o.dflt ∨ objKey ix sub ∈ keys) :
    (keys.foldl (fun s k => s.baseWrite (k / 256) (k % 256) (((objAt (k / 256) (k % 256)).map Obj.dflt).getD [])) s).baseValue ix sub = o.dflt := by
  induction keys generalizing s with
  | nil => exact h.resolve_right List.not_mem_nil
  | cons k keys ih =>
    rw [List.foldl_cons]
    refine ih ?_
    by_cases hk : k = objKey ix sub
    · have hdiv : k / 256 = ix := by rw [hk]; unfold objKey; omega
      have hmod : k % 256 = sub := by rw [hk]; unfold objKey; omega
      rw [hdiv, hmod, State.baseValue_baseWrite_same, ho]
      exact .inl rfl
    · rw [State.baseValue_baseWrite_other (by rwa [objKey_div])]
      exact h.imp_right fun hm => (List.mem_cons.mp hm).resolve_left (Ne.symm hk)

/-- Whether or not an overlay is applied again, the base layer is the same. -/
theorem State.baseValue_reapply {s : State} {p : Prop} [Decidable p] {ix sub : Nat} :
    (if p then s.reapply else s).baseValue ix sub = s.baseValue ix sub :=
  State.baseValue_base (by split <;> rfl)

/-- An object that RestoreDefaults returns is at its default, or its key is among those written. -/
theorem State.restoreDefaults_value {s : State} {ix sub : Nat} {o : Obj} (hsub : sub < 256) (ho : objAt ix sub = some o) (hw1 : o.acc ≠ .w1)
    (hlocked : o.acc = .rwl → s.dict.locked = false) : s.restoreDefaults.baseValue ix sub = o.dflt := by
  unfold State.restoreDefaults
  dsimp only
  generalize hkeys : ((s.dict.base.filter _).map Prod.fst) = keys
  have hstart : s.baseValue ix sub = o.dflt ∨ objKey ix sub ∈ keys := by
    unfold State.baseValue
    cases hbase : Map.get? s.dict.base (objKey ix sub) with
    | none =>
      rw [ho]
      exact .inl (if_neg hw1)
    | some v =>
      by_cases hv : v = o.dflt
      · exact .inl hv
      · have hdiv : objKey ix sub / 256 = ix := by unfold objKey; omega
        have hmod : objKey ix sub % 256 = sub := by unfold objKey; omega
        refine .inr (hkeys ▸ List.mem_map.mpr ⟨(objKey ix sub, v), List.mem_filter.mpr ⟨Map.get?_mem hbase, ?_⟩, rfl⟩)
        rw [hdiv, hmod, ho]
        cases hacc : o.acc <;> simp_all
  have hfold : ∀ u : State, u.dict.base = s.dict.base →
      (keys.foldl (fun s k => s.baseWrite (k / 256) (k % 256) (((objAt (k / 256) (k % 256)).map Obj.dflt).getD [])) u).baseValue ix sub = o.dflt :=
    fun u hu => State.foldl_defaults ho hsub ((State.baseValue_base hu).symm ▸ hstart)
  rw [State.baseValue_reapply]
  exact hfold _ (by split <;> rfl)

theorem State.lockAll_dict {s : State} : s.lockAll.dict = { s.dict with locked := true } := by
  unfold State.lockAll
  split
  · next h => rw [← h]
  · simp only [State.logEvent_eq, State.logFrom_dict]

/-- Settles O26: each command's own result, by the command that its object runs. -/
theorem defaultsAndLocks : Obligations.DefaultsAndLocks := by
  refine ⟨?defaults, ?lock, ?log⟩
  case defaults =>
    intro via s hs happlying
    have hwrite := State.dictWrite_command (via := via) (o := num .u8 .cmd 0 (.among [1])) (u := s.restoreDefaults) (a := .ok false) hs
      (ix := 0x2000) (sub := 4) (data := [1]) rfl rfl rfl rfl happlying (by decide) rfl
    refine Runs.of (congrArg Host.Outcome.next hwrite) ⟨rfl, fun ix sub o hsub ho hw1 hlocked => ?_⟩
    exact State.restoreDefaults_value hsub ho hw1 hlocked
  case lock =>
    intro via s hs happlying
    have hwrite := State.dictWrite_command (via := via) (o := num .u8 .cmd 0 (.among [1])) (u := s.lockAll) (a := .ok false) hs
      (ix := 0x1F00) (sub := 1) (data := [1]) rfl rfl rfl rfl happlying (by decide) rfl
    exact Runs.of (congrArg Host.Outcome.next hwrite) (congrArg (fun d : Dict => { d with answer := .ok false }) State.lockAll_dict)
  case log =>
    intro via s hs happlying
    exact congrArg Host.Outcome.next (State.dictWrite_command (o := num .u8 .cmd 0 (.among [1])) (u := s.clearLog) (a := .ok false) hs
      (ix := 0x9000) (sub := 2) (data := [1]) rfl rfl rfl rfl happlying (by decide) rfl)

/-! ## The configuration store (R282, R283, R311) -/

/-- The copy that a store writes, and its generation. -/
theorem State.startStore_eq {s : State} {c g : Nat}
    (h : (match s.dict.storeCopy with | none => (0, 1) | some k => (1 - k, (s.dict.storeGeneration + 1) % 2 ^ 32)) = (c, g)) :
    s.startStore = { s.flashErase (copyAddress c) 0x10000 with
      dict := { s.dict with storing := some (c, g, copyBytes g s.records), storeStatus := 1, storePending := false } } := by
  unfold State.startStore
  cases hcopy : s.dict.storeCopy with
  | none =>
    rw [hcopy] at h
    cases h
    rfl
  | some k =>
    rw [hcopy] at h
    cases h
    rfl

/-- A store that verifies: the copy is in flash, and is the one in use. -/
theorem State.endStore_verified {s : State} {c g : Nat} {img : List Byte} (h : s.dict.storing = some (c, g, img)) (hlen : img.length ≤ 65536) :
    s.endStore true = { s.flashWrite (copyAddress c) img with
      dict := { s.dict with storing := none, storeStatus := 2, storeGeneration := g, storeCopy := some c } } := by
  unfold State.endStore
  rw [h]
  exact if_pos ⟨rfl, hlen⟩

theorem State.dictWrite_store {s : State} {via : Transport} (hs : 4 ≤ s.boot.stage) (happlying : s.dict.applying = false) :
    s.dictWrite via 0x2000 1 [1] = { s.requestStore with dict := { s.requestStore.dict with answer := .ok false } } :=
  State.dictWrite_command (o := num .u8 .cmd 0 (.among [1])) hs rfl rfl rfl rfl happlying (by decide) rfl

theorem State.requestStore_starts {s : State} (h : s.dict.storing = none) : s.requestStore = s.startStore := by
  unfold State.requestStore
  rw [h]
  exact if_neg (by decide)

theorem State.requestStore_waits {s : State} {r : Nat × Nat × List Byte} (h : s.dict.storing = some r) :
    s.requestStore = { s with dict := { s.dict with storePending := true } } := by
  unfold State.requestStore
  rw [h]
  exact if_pos rfl

/-- Settles O25: a store starts at once or waits, and ends verified or not. -/
theorem storeWritesTheOtherCopy : Obligations.StoreWritesTheOtherCopy := by
  refine ⟨?starts, ?waits, ?ends, ?next, ?fails⟩
  case starts =>
    intro via s c g hs happlying hstoring hcopy hlen
    have hwrite := State.dictWrite_store (via := via) hs happlying
    rw [State.requestStore_starts hstoring, State.startStore_eq hcopy] at hwrite
    constructor
    · have hexec : exec (.storeBase via none) s = .next (s.dictWrite via 0x2000 1 [1]) := by
        change execStoreBase via none s = _
        unfold execStoreBase
        rw [hstoring]
      rw [hwrite] at hexec
      exact Runs.of hexec ⟨rfl, rfl, rfl⟩
    · have hexec : exec (.storeBase via (some true)) s = .next ((s.dictWrite via 0x2000 1 [1]).endStore true) := by
        change execStoreBase via (some true) s = _
        unfold execStoreBase
        rw [hstoring]
      rw [hwrite, State.endStore_verified rfl hlen] at hexec
      exact Runs.of hexec ⟨rfl, rfl, rfl, rfl, rfl⟩
  case waits =>
    intro via ended s r hs happlying hstoring
    change execStoreBase via ended s = _
    unfold execStoreBase
    rw [hstoring, State.dictWrite_store hs happlying, State.requestStore_waits hstoring]
  case ends =>
    intro s c g img hstoring hlen hpending
    change execPendingStoreStart (some true) s = _
    unfold execPendingStoreStart
    dsimp only
    rw [if_neg (by simp [hpending]), State.endStore_verified hstoring hlen]
  case next =>
    intro s c g img hstoring hlen hpending
    have hexec : exec (.pendingStoreStart (some true)) s = .next (s.endStore true).startStore := by
      change execPendingStoreStart (some true) s = _
      unfold execPendingStoreStart
      dsimp only
      rw [if_pos ⟨by simp [hstoring], hpending⟩]
    rw [State.endStore_verified hstoring hlen, State.startStore_eq rfl] at hexec
    exact Runs.of hexec ⟨rfl, rfl, rfl⟩
  case fails =>
    intro s r hstoring hpending
    obtain ⟨c, g, img⟩ := r
    have hexec : exec (.pendingStoreStart (some false)) s = .next (s.endStore false) := by
      change execPendingStoreStart (some false) s = _
      unfold execPendingStoreStart
      dsimp only
      rw [if_neg (by simp [hpending])]
    refine Runs.of hexec ?_
    unfold State.endStore
    rw [hstoring]
    dsimp only
    rw [if_neg (by simp)]
    simp only [State.logEvent_eq, State.logFrom_dict, State.logFrom_last, State.flashSpoil, State.freeBytes, State.flashWrite, and_self]

/-! ## The calendar (R294, R295) -/

theorem State.setCalendar_clk {s : State} {v : Nat} : (s.setCalendar v).clk = { s.clk with sec := v, us := 0, valid := true } := State.logFrom_clk

theorem State.dictWrite_commit {s : State} {via : Transport} (hs : 4 ≤ s.boot.stage) (happlying : s.dict.applying = false) :
    s.dictWrite via 0x1011 7 (toLE 1 1) = { s.calendarCommit.1 with dict := { s.calendarCommit.1.dict with answer := s.calendarCommit.2 } } :=
  State.dictWrite_command (o := num .u8 .cmd 0 (.among [1])) hs rfl rfl rfl rfl happlying (by decide) rfl

/-- Settles O28: the seconds and the staged date set the calendar; a date that is none is refused. -/
theorem calendarIsSet : Obligations.CalendarIsSet := by
  refine ⟨?seconds, ?commit, ?refused, ?counted⟩
  case seconds =>
    intro via v s hs happlying hv
    have hvalue : leNat (toLE 8 v) = v := leNat_toLE_of_lt (by omega)
    have hrun : s.writeRequest 0x1010 0 (toLE 8 v) = (s.setCalendar v, .ok false) := by
      unfold State.writeRequest
      rw [hvalue]
      exact if_neg (by omega)
    have hwrite := State.dictWrite_stores (via := via) (o := num .time64 .rw 0) hs rfl (.inl rfl) rfl (by simp [lengthOk, num, ObjType.size])
      rfl happlying (by decide) hrun
    refine Runs.of (congrArg Host.Outcome.next hwrite) ⟨State.setCalendar_clk, rfl⟩
  case commit =>
    intro via s hs happlying hdate
    have hwrite := State.dictWrite_commit (via := via) hs happlying
    unfold State.calendarCommit at hwrite
    dsimp only at hwrite
    rw [hdate, if_pos rfl] at hwrite
    exact Runs.of (congrArg Host.Outcome.next hwrite) ⟨rfl, State.setCalendar_clk⟩
  case refused =>
    intro via s hs happlying hdate
    have hwrite := State.dictWrite_commit (via := via) hs happlying
    unfold State.calendarCommit at hwrite
    dsimp only at hwrite
    rw [hdate, if_neg (by decide)] at hwrite
    exact congrArg Host.Outcome.next hwrite
  case counted => exact fun s hheld => congrArg Host.Outcome.next (if_neg (by rw [hheld]; decide))

end Sys2Proof.Machine
end

section
/-! Credit audits (R35, R354), the mailbox's flags (R280) and CAN FD (R298 to R302). -/

namespace Sys2Proof.Machine

/-! ## The credit audit -/

theorem Pool.lawful_iff {p : Pool} : p.lawful = true ↔ p.issued = p.returned + p.outstanding := beq_iff_eq

/-- Where every pool keeps the law, an audit of the unfenced device only counts. -/
theorem State.audit_lawful {s : State} (hfenced : s.boot.fenced = false) (hlaw : ∀ e ∈ s.cred.pools, e.2.issued = e.2.returned + e.2.outstanding) :
    s.audit = { s with cred := { s.cred with auditCount := (s.cred.auditCount + 1) % 2 ^ 32 } } := by
  have hnone : s.cred.pools.find? (fun e => !e.2.lawful) = none :=
    List.find?_eq_none.mpr fun e he => by simp [Pool.lawful_iff.mpr (hlaw e he)]
  unfold State.audit State.creditMismatch
  dsimp only
  rw [if_neg (by rw [hfenced]; decide), hnone]

/-- The first pool that breaks the law is the one an audit finds. -/
theorem State.audit_broken {s : State} {k : Nat} {p : Pool} {before after : Map Pool} (hfenced : s.boot.fenced = false)
    (hpools : s.cred.pools = before ++ (k, p) :: after) (hbefore : ∀ e ∈ before, e.2.issued = e.2.returned + e.2.outstanding)
    (hbroken : p.issued ≠ p.returned + p.outstanding) :
    s.audit = ({ s with cred := { s.cred with auditCount := (s.cred.auditCount + 1) % 2 ^ 32 } } : State).creditFault k p := by
  have hfirst : s.cred.pools.find? (fun e => !e.2.lawful) = some (k, p) := by
    have hnone : before.find? (fun e => !e.2.lawful) = none :=
      List.find?_eq_none.mpr fun e he => by simp [Pool.lawful_iff.mpr (hbefore e he)]
    have hp : p.lawful = false := Bool.eq_false_iff.mpr fun h => hbroken (Pool.lawful_iff.mp h)
    rw [hpools, List.find?_append, hnone, Option.none_or, List.find?_cons]
    simp only [hp, Bool.not_false]
  unfold State.audit State.creditMismatch
  dsimp only
  rw [if_neg (by rw [hfenced]; decide), hfirst]

/-- Settles O29: an audit looks for the first pool that breaks the law; with no command live there is nothing to abort. -/
theorem creditAuditsFenceTheDevice : Obligations.CreditAuditsFenceTheDevice := by
  refine ⟨?counts, ?now, ?fences⟩
  case counts => exact fun s hfenced hlaw => congrArg Host.Outcome.next (State.audit_lawful hfenced hlaw)
  case now =>
    intro via s hs happlying hfenced hlaw
    have hwrite := State.dictWrite_command (via := via) (o := num .u8 .cmd 0 (.among [1])) (u := s.audit) (a := .ok false) hs
      (ix := 0x8000) (sub := 3) (data := [1]) rfl rfl rfl rfl happlying (by decide) rfl
    rw [State.audit_lawful hfenced hlaw] at hwrite
    exact congrArg Host.Outcome.next hwrite
  case fences =>
    intro s k p before after hfenced hpools hbefore hbroken hlive
    refine Runs.of (congrArg Host.Outcome.next (State.audit_broken hfenced hpools hbefore hbroken)) ?_
    unfold State.creditFault
    simp only [State.logEvent_eq, State.logFrom_live, hlive, List.map_nil, List.foldl_nil, State.logFrom_boot, State.logFrom_last,
      State.logFrom_cred, and_self]

/-! ## The mailbox -/

theorem State.fresh_abandons {s : State} {p : VdpPort} {tr : Transfer} (htransfer : p.transfer = some tr) (hlate : tr.since + 1000000 ≤ s.clk.now) :
    s.fresh p = { p with transfer := none } := by
  unfold State.fresh
  rw [htransfer]
  exact if_pos hlate

/-- Settles O31: the second has passed, the registers are reached, and the mailbox is busy. -/
theorem mailboxFlagsAndTimeouts : Obligations.MailboxFlagsAndTimeouts := by
  refine ⟨?mailbox, ?can, ?clear, ?go, ?request⟩
  case mailbox =>
    intro s tr htransfer hlate
    change execVdpTransferTimeout .mailbox s = _
    unfold execVdpTransferTimeout
    dsimp only
    rw [State.fresh_abandons htransfer hlate]
  case can =>
    intro s tr htransfer hlate
    change execVdpTransferTimeout .can s = _
    unfold execVdpTransferTimeout
    dsimp only
    rw [State.fresh_abandons htransfer hlate]
  case clear => exact fun s hopen => congrArg Host.Outcome.next (if_pos ⟨hopen, rfl⟩)
  case go => exact fun s hopen hbusy => congrArg Host.Outcome.next (if_pos ⟨hopen, hbusy⟩)
  case request =>
    intro len request s hservice hopen hbusy
    have hsubmit : s.submitMailbox len request = { s with vdp := { s.vdp with overrun := true } } := by
      unfold State.submitMailbox
      rw [if_neg (by rw [hopen]; decide), if_pos hbusy]
    exact congrArg Host.Outcome.next ((if_pos hservice).trans hsubmit)

/-! ## CAN FD -/

/-- A frame of 8 bytes leaves as it is while the port takes part in the bus. -/
theorem State.canSend_eight {s : State} {function sequence node : Nat} {data : List Byte} (hon : s.canOn = true) (hnode : s.canNode = some node)
    (hlen : data.length = 8) : s.canSend function sequence data = s.emit (.can (canId (s.cfg 0x1200 3) function node sequence) data) := by
  have hpad : padTo (canLength data.length) data = data := by
    rw [hlen]
    exact (congrArg (fun n => (data ++ zeros (8 - n)).take 8) hlen).trans
      ((congrArg (List.take 8) (List.append_nil data)).trans (List.take_of_length_le (Nat.le_of_eq hlen)))
  unfold State.canSend
  rw [hon, hnode, hpad]

/-- Settles O32: each branch of the bus's rules is the one its premises select. -/
theorem canFollowsTheBus : Obligations.CanFollowsTheBus := by
  refine ⟨?off, ?recover, ?error, ?heartbeat, fun s => rfl⟩
  case off =>
    intro s henable hstate
    refine Runs.of (congrArg Host.Outcome.next (if_neg (by simp [henable, hstate]))) ?_
    rw [State.logEvent_eq, State.logFrom_can]
    simp only [State.logFrom_vdp, State.logFrom_last, and_self]
  case recover => exact fun s hstate hasked => congrArg Host.Outcome.next (if_pos ⟨hstate, hasked⟩)
  case error => exact fun tx rx s henable hstate => congrArg Host.Outcome.next (if_neg (by simp [henable, hstate]))
  case heartbeat =>
    intro s node hs hperiod hon hnode
    change execCanHeartbeat s = _
    unfold execCanHeartbeat
    dsimp only
    rw [if_neg (by unfold State.serviceUp; simp [hperiod, hon, hs]), State.canSend_eight hon hnode (by simp)]
    rfl

end Sys2Proof.Machine
end

section
/-! The sideband's master port and slave frames (R307, R313 to R319). -/

namespace Sys2Proof.Machine

/-- Go starts the frame that the master objects describe: a slave is selected, no frame runs, and a frame to be written has its length. -/
theorem State.sspGo_starts {s : State} {f : MasterFrame} (hf : s.masterFrame = f) (hidle : s.ssp.status ≠ 1) (hselect : 2 ≤ f.select)
    (hlen : f.write = true ∨ f.eightBit = true → f.data.length = f.len) :
    s.sspGo = ({ s with ssp := { s.ssp with status := 1, frame := some f }
                        out := s.out ++ [.sspFrame f.select f.command f.address f.dummy f.write f.data f.len] }, .ok false) := by
  subst hf
  unfold State.sspGo
  dsimp only
  rw [if_neg hidle, if_neg (Nat.not_lt.mpr hselect), if_neg (fun h => h.2 (hlen h.1))]
  rfl

/-- A latched slot that went out with a response, not with the busy pattern, and asks for an operation of the service waits. -/
theorem State.latchSlot_request {s : State} {r : List Byte} (hbusy : s.ssp.shifted ≠ sspBusy) (hvalid : slotValid r = true)
    (hnop : slotOp r ≠ 0) (hident : slotOp r ≠ 6) :
    s.latchSlot r = { s with ssp := { s.ssp with request := some r, response := sspBusy } } := by
  unfold State.latchSlot
  rw [if_neg hbusy, if_neg (by rw [hvalid]; decide), if_neg hnop, if_neg hident]

/-- Settles O33: one clause for each edge of a frame, of the master's or of the slave's. -/
theorem sidebandFramesAreLatched : Obligations.SidebandFramesAreLatched := by
  refine ⟨?go, ?done, ?fall, ?rise, ?discarded, fun s => rfl, ?ident⟩
  case go =>
    intro via s f hs happlying hf hidle hselect hlen
    exact congrArg Host.Outcome.next (State.dictWrite_command (o := num .u8 .cmd 0 (.among [1])) (ix := 0x1220) (sub := 13) (data := [1]) hs rfl rfl
      rfl rfl happlying (by decide) (State.sspGo_starts hf hidle hselect hlen))
  case done =>
    intro data s f hframe
    change execSspFrameDone data s = _
    unfold execSspFrameDone
    rw [hframe]
    simp only [Bool.and_eq_true, Bool.not_eq_true']
  case fall =>
    intro s hheld hrequest
    have hident : s.answerIdent = s := by
      unfold State.answerIdent
      rw [hrequest]
    change execSspSelectFall s = _
    unfold execSspSelectFall
    rw [hident]
    exact congrArg Host.Outcome.next (if_neg (by rw [hheld]; decide))
  case rise =>
    intro slot s hselected hstalled hbusy hvalid hnop hident
    change execSspSelectRise 512 slot s = _
    unfold execSspSelectRise
    dsimp only
    rw [if_neg (by rw [hselected]; decide), if_neg (by simp [hstalled])]
    exact congrArg Host.Outcome.next (State.latchSlot_request hbusy hvalid hnop hident)
  case discarded =>
    intro edges slot s hselected hedges
    change execSspSelectRise edges slot s = _
    unfold execSspSelectRise
    dsimp only
    rw [if_neg (by rw [hselected]; decide), if_pos (.inl hedges)]
  case ident =>
    intro s r hrequest hop
    change execIdent s = _
    unfold execIdent State.answerIdent
    rw [hrequest]
    exact congrArg Host.Outcome.next (if_pos hop)

end Sys2Proof.Machine
end

section
/-! The power governor (R334 to R340). -/

namespace Sys2Proof.Machine

/-! ## The counts of a sample -/

/-- Two governors agree on the throttle, the counts and the readings of a sample: they differ by clock steps at most. -/
def Gov.Agree (h g : Gov) : Prop :=
  h.throttle = g.throttle ∧ h.calm = g.calm ∧ h.cap = g.cap ∧ h.power = g.power ∧ h.over_ = g.over_ ∧ h.eCount = g.eCount

theorem Gov.agree_refl {g : Gov} : g.Agree g := ⟨rfl, rfl, rfl, rfl, rfl, rfl⟩

theorem Gov.mclkDown_agree {g : Gov} : g.mclkDown.Agree g := by
  unfold Gov.mclkDown
  split <;> exact Gov.agree_refl

theorem Gov.mclkUp_agree {g : Gov} : g.mclkUp.Agree g := by
  unfold Gov.mclkUp
  split <;> exact Gov.agree_refl

theorem Gov.stepsSafe_agree {g : Gov} : g.stepsSafe.Agree g := by
  unfold Gov.stepsSafe
  split
  · exact Gov.agree_refl
  · split
    · exact Gov.mclkDown_agree
    · exact Gov.agree_refl

theorem Gov.stepsAbove_agree {g : Gov} : g.stepsAbove.Agree g := by
  unfold Gov.stepsAbove
  split
  · exact Gov.agree_refl
  · split
    · exact Gov.mclkDown_agree
    · exact Gov.agree_refl

theorem Gov.stepsBelow_agree {g : Gov} : g.stepsBelow.Agree g := by
  unfold Gov.stepsBelow
  split
  · split
    · exact Gov.mclkUp_agree
    · split <;> exact Gov.agree_refl
  · exact Gov.agree_refl

/-- A sample counts above or below the cap and stores its power and cap, whatever clock steps follow. -/
theorem Gov.sample_agree {g : Gov} {p c : Nat} {safe : Bool} :
    (g.sample p c safe).Agree { (if lt64 (int64 c) p then g.above else g.below false) with power := to32 .near p, cap := c } := by
  unfold Gov.sample
  dsimp only
  cases habove : lt64 (int64 c) p <;> cases safe
  · exact Gov.stepsBelow_agree
  · exact Gov.stepsSafe_agree
  · exact Gov.stepsAbove_agree
  · exact Gov.stepsSafe_agree

/-- Every tenth sample in a row at or below the cap takes the throttle one down. -/
theorem Gov.below_throttle {g : Gov} {far : Bool} :
    (g.below far).throttle = if (g.calm + 1) % 10 = 0 then g.throttle - 1 else g.throttle := by
  unfold Gov.below
  dsimp only
  by_cases hten : (g.calm + 1) % 10 = 0
  · by_cases hzero : 0 < g.throttle
    · rw [if_pos ⟨hten, hzero⟩, if_pos hten]
    · rw [if_neg fun k => hzero k.2, if_pos hten]
      omega
  · rw [if_neg fun k => hten k.1, if_neg hten]

/-! ## Samples and corrections over the state -/

/-- Whether or not a sample logs that the flow cap binds, the governor has counted it, and one more reading of the model. -/
theorem governorSample_agree {s : State} {p : Nat} : ∃ t, exec (.governorSample p) s = .next t ∧
    t.gov.Agree { (if lt64 (int64 s.effectiveCap) (mul64 .near p s.gov.f) then s.gov.above else s.gov.below false) with
      power := to32 .near (mul64 .near p s.gov.f), cap := s.effectiveCap, eCount := s.gov.eCount + 1 } := by
  refine ⟨_, rfl, ?_⟩
  have hgov : ∀ u : State, ∀ c : Prop, [Decidable c] → (if c then u.logEvent 0x0904 else u).gov = u.gov := by
    intro u c hc
    split
    · exact State.logFrom_gov
    · rfl
  rw [hgov]
  obtain ⟨hthrottle, hcalm, hcap, hpower, hover, hcount⟩ :=
    Gov.sample_agree (g := s.gov) (p := mul64 .near p s.gov.f) (c := s.effectiveCap) (safe := s.govSafe)
  refine ⟨hthrottle, hcalm, hcap, hpower, hover, congrArg (· + 1) (hcount.trans ?_)⟩
  cases lt64 (int64 s.effectiveCap) (mul64 .near p s.gov.f) <;> rfl

theorem State.forceSafe_idle {s : State} {cause : Nat} (happlying : s.dict.applying = false) (hmode : s.dict.mode ≠ 4) :
    s.forceSafe cause = { s with dict := { s.dict with
      safeCause := s.dict.safeCause ||| 2 ^ cause, applying := true, target := 4, forced := true, modeRequest := 4 } } := by
  unfold State.forceSafe
  dsimp only
  rw [if_neg (by rw [happlying]; decide), if_neg hmode]

/-- Settles O40: a sample is counted above or below the cap; every other command of the governor does what its premises select. -/
theorem governorLimitsPower : Obligations.GovernorLimitsPower := by
  refine ⟨?above, ?below, ?step, ?corrected, ?failed, ?safe, ?clear⟩
  case above =>
    intro p s habove
    obtain ⟨t, hexec, hthrottle, hcalm, hcap, hpower, hover, hcount⟩ := governorSample_agree (s := s) (p := p)
    rw [habove] at hthrottle hcalm hover
    exact Runs.of hexec ⟨hthrottle, hcalm, hcap, hpower, hcount, hover⟩
  case below =>
    intro p s hbelow
    obtain ⟨t, hexec, hthrottle, hcalm, hcap, -, hover, -⟩ := governorSample_agree (s := s) (p := p)
    rw [hbelow] at hthrottle hcalm hover
    exact Runs.of hexec ⟨hover, hcalm, hcap, hthrottle.trans (Gov.below_throttle (far := false))⟩
  case step =>
    intro m s hstep htokens
    change execMclkStepDone s = _
    unfold execMclkStepDone
    rw [hstep]
    exact congrArg Host.Outcome.next (if_neg fun h => htokens.elim (Nat.not_le.mpr h.1) h.2)
  case corrected =>
    intro mw s hselect hcount
    refine Runs.of (congrArg Host.Outcome.next (if_neg hselect)) ?_
    exact congrArg (fun f : Nat => { s.gov with eSum := 0, eCount := 0, f := f, vrFailed := false }) (if_neg hcount)
  case failed =>
    intro s hselect hfirst
    refine Runs.of (congrArg Host.Outcome.next ((if_neg hselect).trans (if_pos ?_))) ?_
    · exact congrArg not hfirst
    · rw [State.logEvent_eq, State.logFrom_gov, State.logFrom_last]
      exact ⟨rfl, rfl⟩
  case safe =>
    intro s hrun hcause happlying hmode
    refine Runs.of (congrArg Host.Outcome.next (if_pos ⟨hrun, hcause⟩)) ?_
    rw [State.forceSafe_idle happlying hmode, State.logEvent_eq, State.logFrom_dict, State.logFrom_last]
    exact ⟨rfl, rfl⟩
  case clear =>
    intro s hrun hcause
    exact congrArg Host.Outcome.next ((if_pos hrun).trans (if_pos ⟨hcause, by decide⟩))

end Sys2Proof.Machine
end

section
/-! The bandwidth regulators (R159 to R165). -/

namespace Sys2Proof.Machine

/-! ## The refill -/

/-- The bucket of a burrow after its refill. -/
def State.refilled (s : State) (b : Nat) : Nat :=
  if (s.burrow b).state = .enabled then min (s.depth b) (s.bucket b + s.effectiveGuarantee b) else s.bucket b

/-- The refill of one burrow fills its bucket; the spill goes to the pool, and nothing else changes. -/
theorem State.refillOne_eq (s : State) (b : Nat) :
    ∃ n, s.refillOne b = { s with bw := { s.bw with bucket := Map.put s.bw.bucket b (s.refilled b), pool := n } } := by
  unfold State.refillOne State.refilled
  dsimp only
  split
  · exact ⟨_, rfl⟩
  · exact ⟨_, rfl⟩

theorem State.bucket_refillOne_same {s : State} {b : Nat} : (s.refillOne b).bucket b = s.refilled b := by
  obtain ⟨n, h⟩ := s.refillOne_eq b
  rw [h]
  exact Map.getD_put_same

theorem State.bucket_refillOne_other {s : State} {b c : Nat} (hne : b ≠ c) : (s.refillOne b).bucket c = s.bucket c := by
  obtain ⟨n, h⟩ := s.refillOne_eq b
  rw [h]
  exact Map.getD_put_other hne

theorem State.refilled_refillOne_other {s : State} {b c : Nat} (hne : b ≠ c) : (s.refillOne b).refilled c = s.refilled c := by
  have hbucket := State.bucket_refillOne_other (s := s) hne
  obtain ⟨n, h⟩ := s.refillOne_eq b
  rw [h] at hbucket ⊢
  exact congrArg (fun x => if (s.burrow c).state = .enabled then min (s.depth c) (x + s.effectiveGuarantee c) else x) hbucket

/-- The refills of distinct burrows fill each of their buckets once, and no other. -/
theorem State.bucket_foldl_refillOne {l : List Nat} {s : State} {c : Nat} (hl : l.Nodup) :
    (l.foldl State.refillOne s).bucket c = if c ∈ l then s.refilled c else s.bucket c := by
  induction l generalizing s with
  | nil => rfl
  | cons b l ih =>
    obtain ⟨hb, hl⟩ := List.nodup_cons.mp hl
    rw [List.foldl_cons, ih hl]
    by_cases hc : b = c
    · subst hc
      rw [if_neg hb, if_pos List.mem_cons_self, State.bucket_refillOne_same]
    · rw [State.refilled_refillOne_other hc, State.bucket_refillOne_other hc]
      simp only [List.mem_cons, Ne.symm hc, false_or]

theorem State.deliverable_foldl_refillOne {l : List Nat} {s : State} : (l.foldl State.refillOne s).bw.deliverable = s.bw.deliverable :=
  foldl_kept (g := fun u : State => u.bw.deliverable) (fun u b => by
    obtain ⟨n, h⟩ := u.refillOne_eq b
    exact (congrArg (fun v : State => v.bw.deliverable) h).trans rfl) l s

/-- Where the token law holds and no deliverable rate changes, a refill fills the buckets, then the pool. -/
theorem State.refill_settled {s : State}
    (hlaw : s.bw.pool + sumNat ((List.range 64).map s.bucket) ≤ s.bw.deliverable + sumNat ((List.range 64).map s.depth))
    (hrate : deliverableOf s.bw.healthy s.refillTokens = s.bw.deliverable) :
    ∃ u : State, u = (List.range 64).foldl State.refillOne { s with bw := { s.bw with channelTokens := s.refillTokens } } ∧
      ∃ n, s.refill = { u with bw := { u.bw with pool := min n s.bw.deliverable, spent := [] } } := by
  have haudit : s.tokenAudit = s := if_neg (Nat.not_lt.mpr hlaw)
  refine ⟨_, rfl, ?_⟩
  unfold State.refill
  simp only [haudit, hrate, bne_self_eq_false, Bool.false_eq_true, if_false]
  exact ⟨_, rfl⟩

/-! ## Charges -/

theorem State.canPay_iff {s : State} {b n : Nat} :
    s.canPay b n = true ↔ s.spent b + n ≤ min (s.ceiling b) s.bw.deliverable ∧ n ≤ s.bucket b + s.bw.pool := by
  simp only [State.canPay, Bool.and_eq_true, decide_eq_true_eq]

/-! ## Guarantees -/

/-- What the regulators' checks say of a guarantee. -/
theorem State.baseCheck_guarantee {s : State} {b : Fin 64} {v : Nat} (hv : v ≤ 102400) (hceiling : v ≤ leNat (s.baseValue 0x4111 (b + 1))) :
    s.baseCheck 0x4110 (b + 1) (num .u32 .rwl 0 (.between 0 102400)) (toLE 4 v)
      = if s.bw.deliverable < viewSum (s.baseView 0x4110 (b + 1) (toLE 4 v))
          ∧ viewSum s.baseValue < viewSum (s.baseView 0x4110 (b + 1) (toLE 4 v)) then some abGuarantee else none := by
  have hvalue : leNat (toLE 4 v) = v := leNat_toLE_of_lt (by omega)
  have hrange : rangeOk (num .u32 .rwl 0 (.between 0 102400)) (toLE 4 v) = true := by
    unfold rangeOk num
    dsimp only
    rw [hvalue]
    simpa using hv
  have hself : s.baseView 0x4110 (b + 1) (toLE 4 v) 0x4110 (b + 1) = toLE 4 v := if_pos ⟨rfl, rfl⟩
  have hother : s.baseView 0x4110 (b + 1) (toLE 4 v) 0x4111 (b + 1) = s.baseValue 0x4111 (b + 1) := if_neg fun h => absurd h.1 (by decide)
  unfold State.baseCheck valueOk State.overlayCheck State.crossCheck
  rw [hrange, hself, hother, hvalue, if_neg (Nat.not_lt.mpr hceiling)]
  rfl

theorem findObject_guarantee (b : Fin 64) : (findObject 0x4110 (b + 1)).toOption = some (num .u32 .rwl 0 (.between 0 102400)) := by
  revert b
  decide

/-- Settles O36: refills, charges and guarantees, each by its own rule. -/
theorem bandwidthIsRegulated : Obligations.BandwidthIsRegulated := by
  refine ⟨?refill, ?charge, ?waits, ?accepted, ?refused⟩
  case refill =>
    intro s hlaw hrate
    obtain ⟨u, hu, n, hrefill⟩ := State.refill_settled hlaw hrate
    have hdeliverable : u.bw.deliverable = s.bw.deliverable := hu ▸ State.deliverable_foldl_refillOne
    have hbucket : ∀ b : Fin 64, u.bucket b = s.refilled b := fun b => by
      rw [hu, State.bucket_foldl_refillOne List.nodup_range, if_pos (List.mem_range.mpr b.isLt)]
      rfl
    exact Runs.of (congrArg Host.Outcome.next hrefill) ⟨rfl, Nat.min_le_right _ _, hdeliverable, hbucket⟩
  case charge =>
    intro b n s hceiling hpay
    have hcharge : s.charge b n = some _ := if_pos (State.canPay_iff.mpr ⟨hceiling, hpay⟩)
    refine Runs.of (congrArg (fun r : Option State => Host.Outcome.next (r.getD s)) hcharge) ⟨?_, ?_, ?_⟩
    · exact Map.getD_put_same.trans (by omega)
    · exact congrArg (s.bw.pool - ·) (by omega)
    · exact Map.getD_put_same
  case waits =>
    intro b n s hshort
    have hcharge : s.charge b n = none := if_neg fun h => by
      obtain ⟨hceiling, hpay⟩ := State.canPay_iff.mp h
      omega
    exact congrArg (fun r : Option State => Host.Outcome.next (r.getD s)) hcharge
  case accepted =>
    intro via b v s hs happlying hlocked hv hceiling hsum
    have hcheck := State.baseCheck_guarantee (s := s) hv hceiling
    rw [if_neg (by omega)] at hcheck
    have hwrite := State.dictWrite_base (via := via) hs (findObject_guarantee b) (.inr ⟨rfl, hlocked⟩) rfl (by decide) rfl hcheck rfl
      (State.transitionRefuses_idle happlying fun h => absurd h.1 (by decide))
    refine Runs.of (congrArg Host.Outcome.next hwrite) ⟨?_, rfl⟩
    rw [State.baseValue_answer, State.baseValue_baseWrite_same]
  case refused =>
    intro via b v s hs happlying hlocked hv hceiling hdeliverable hsum
    have hcheck := State.baseCheck_guarantee (s := s) hv hceiling
    rw [if_pos ⟨hdeliverable, hsum⟩] at hcheck
    exact congrArg Host.Outcome.next (State.dictWrite_refused hs (findObject_guarantee b) (.inr ⟨rfl, hlocked⟩) rfl (by decide) rfl hcheck
      (State.transitionRefuses_idle happlying fun h => absurd h.1 (by decide)))

end Sys2Proof.Machine
end

section
/-! The flow and temperature front end (R324 to R333): conversions, channels, calibrations and coolant loss. -/

namespace Sys2Proof.Machine

/-! ## Conversions -/

theorem discharge_ended {n : Nat} (h : n ≤ 6400000) : discharge (some n) = some n := if_neg (Nat.not_lt.mpr h)

/-- A conversion whose discharges ended and whose resistance is in range is GOOD. -/
theorem State.rtdEnds_good {s : State} {r a b d : Nat} (hrunning : s.ftf.running = some (.rtd r)) (ha : a ≤ 6400000) (hb : b ≤ 6400000)
    (hd : d ≤ 6400000)
    (hrange : (le64 0x408F400000000000 (rtdResistance (s.cfg (0x7030 + r) 2) a b d)
      && le64 (rtdResistance (s.cfg (0x7030 + r) 2) a b d) 0x4098950000000000) = true) :
    s.rtdEnds r (some a) (some b) (some d) = ({ s with ftf := { s.ftf with running := none } } : State).setRtd r { s.rtdInput r with
      busy := false, at_ := s.clk.now, status := 0, resistance := rtdResistance (s.cfg (0x7030 + r) 2) a b d
      exact := rtdTemperature (rtdResistance (s.cfg (0x7030 + r) 2) a b d)
      temperature := to32 .near (rtdTemperature (rtdResistance (s.cfg (0x7030 + r) 2) a b d)) } := by
  unfold State.rtdEnds
  rw [if_neg (by simp [hrunning]), discharge_ended ha, discharge_ended hb, discharge_ended hd]
  exact if_pos hrange

/-- A conversion whose first reference did not discharge ends with status 1. -/
theorem State.rtdEnds_unended {s : State} {r : Nat} {b d : Option Nat} (hrunning : s.ftf.running = some (.rtd r)) :
    s.rtdEnds r none b d = ({ s with ftf := { s.ftf with running := none } } : State).setRtd r { s.rtdInput r with
      busy := false, at_ := s.clk.now, status := 1 } := by
  unfold State.rtdEnds
  rw [if_neg (by simp [hrunning])]
  rfl

theorem State.running_setRtd {s : State} {r : Nat} {v : Rtd} : (s.setRtd r v).ftf.running = s.ftf.running := by
  unfold State.setRtd
  split <;> rfl

/-! ## Channels -/

theorem findObject_channel : ∀ c : Fin 2, (findObject (0x7010 + c) 1).toOption = some (num .bool .rw 1)
    ∧ (findObject (0x7010 + c) 11).toOption = some (num .u8 .cmd 0 (.between 1 255)) := by decide

/-- Enable of a channel has no check across objects. -/
theorem State.baseCheck_channelEnable {s : State} {c : Fin 2} {on : Bool} :
    s.baseCheck (0x7010 + c) 1 (num .bool .rw 1) (ofBool on) = none := by
  obtain ⟨-, hrange, -⟩ := ofBool_fits 1 on
  have hcross : ∀ v old, s.crossCheck v old (0x7010 + c) 1 = none := by
    intro v old
    unfold State.crossCheck
    rw [if_neg (by omega), if_neg (by omega), if_neg (by omega), if_neg (by omega), if_neg (by omega), if_pos (by omega)]
    rfl
  unfold State.baseCheck valueOk State.overlayCheck
  rw [hrange, if_neg (by decide), if_neg (by omega)]
  dsimp only
  rw [if_pos (by omega), hcross]

/-- A write of Enable out of a transition and not shadowed: the channel acts on it. -/
theorem State.dictWrite_channelEnable {s : State} {via : Transport} {c : Fin 2} {on : Bool} (hs : 4 ≤ s.boot.stage)
    (happlying : s.dict.applying = false) (hheld : s.dict.heldOld = []) (hshadow : s.shadowed (0x7010 + c) 1 = false) :
    s.dictWrite via (0x7010 + c) 1 (ofBool on) = { (s.putBase (0x7010 + c) 1 (ofBool on)).channelEnable c on with
      dict := { ((s.putBase (0x7010 + c) 1 (ofBool on)).channelEnable c on).dict with answer := .ok false } } := by
  obtain ⟨hlen, -, hone⟩ := ofBool_fits 1 on
  have hrequest : ∀ d : Fin 2, isRequest (0x7010 + d) 1 = false := by decide
  have hmode : overlayModeOf (0x7010 + c) = none := overlayModeOf_none (by omega)
  have hreact : ∀ u : State, u.cfg (0x7010 + c) 1 = leNat (ofBool on) → u.react (0x7010 + c) 1 = u.channelEnable c on := by
    intro u hu
    unfold State.react
    dsimp only
    rw [if_neg (by omega), if_neg (by omega), if_neg (by omega), if_neg (by omega), if_pos (by omega), if_pos rfl, hu, hone,
      Nat.add_sub_cancel_left]
  rw [State.dictWrite_base hs (findObject_channel c).1 (.inl rfl) (hrequest c) (by omega) hlen State.baseCheck_channelEnable hmode
    (State.transitionRefuses_idle happlying (by omega)), State.baseWrite_of hshadow happlying, hshadow,
    hreact _ (State.cfg_putBase_same (by decide) (by omega) hheld hshadow)]

theorem State.channel_dict {s : State} {d : Dict} {c : Nat} : ({ s with dict := d } : State).channel c = s.channel c := rfl

/-- A DISABLED channel that is enabled starts over in its next generation. -/
theorem State.channelEnable_on {s : State} {c : Nat} (h : (s.channel c).state = .disabled) :
    ((s.channelEnable c true).channel c).state = .idle
      ∧ ((s.channelEnable c true).channel c).generation = ((s.channel c).generation + 1) % 2 ^ 16 := by
  unfold State.channelEnable
  dsimp only
  rw [h]
  dsimp only
  rw [State.channel_setChannel]
  exact ⟨rfl, rfl⟩

theorem State.waiting_setChannel {s : State} {c : Nat} {v : Channel} : (s.setChannel c v).ftf.waiting = s.ftf.waiting := by
  unfold State.setChannel
  split <;> rfl

/-- An IDLE channel that is disabled is DISABLED at once, and its queued trigger is dropped. -/
theorem State.channelEnable_off {s : State} {c : Nat} (h : (s.channel c).state = .idle) :
    ((s.channelEnable c false).channel c).state = .disabled
      ∧ (s.channelEnable c false).ftf.waiting = s.ftf.waiting.filter fun w => w.source != c := by
  unfold State.channelEnable
  dsimp only
  rw [h]
  dsimp only
  rw [State.channel_setChannel, State.waiting_setChannel]
  exact ⟨rfl, rfl⟩

/-- A calibration asks for its readings. -/
theorem State.dictWrite_zeroCalibrate {s : State} {via : Transport} {c : Fin 2} {n : Nat} (hs : 4 ≤ s.boot.stage)
    (happlying : s.dict.applying = false) (hmethod : s.chanCfg c 5 ≠ 2) (hlo : 1 ≤ n) (hhi : n ≤ 255) {u : State}
    (hu : s.setChannel c { s.channel c with calLeft := n, calAsked := n, calSum := 0 } = u) :
    s.dictWrite via (0x7010 + c) 11 (toLE 1 n) = { u with dict := { u.dict with answer := .ok false } } := by
  have hvalue : leNat (toLE 1 n) = n := leNat_toLE_of_lt (by omega)
  have hrange : rangeOk (num .u8 .cmd 0 (.between 1 255)) (toLE 1 n) = true := by
    unfold rangeOk num
    dsimp only
    rw [hvalue]
    simpa using ⟨hlo, hhi⟩
  have hcalibrate : s.zeroCalibrate c n = .ok u := hu ▸ if_neg hmethod
  refine State.dictWrite_command hs (findObject_channel c).2 rfl rfl hrange happlying (by omega) ?_
  unfold State.runCommand
  rw [hvalue, if_neg (by omega), if_neg (by omega), if_neg (by omega), if_neg (by omega), if_neg (by omega), if_neg (by omega),
    if_pos (by omega), if_neg (by decide), Nat.add_sub_cancel_left, hcalibrate]
  rfl

/-- Settles O39: each clause by the branch that its premises select. -/
theorem temperatureAndCoolant : Obligations.TemperatureAndCoolant := by
  refine ⟨?good, ?unended, ?enabled, ?disabled, ?calibrate, ?lost⟩
  case good =>
    intro r a b d s hrunning ha hb hd hrange
    refine Runs.of (congrArg Host.Outcome.next (State.rtdEnds_good hrunning ha hb hd hrange)) ?_
    rw [State.running_setRtd, State.rtdInput_setRtd]
    exact ⟨rfl, rfl, rfl, rfl, rfl, rfl⟩
  case unended =>
    intro r b d s hrunning
    refine Runs.of (congrArg Host.Outcome.next (State.rtdEnds_unended hrunning)) ?_
    rw [State.running_setRtd, State.rtdInput_setRtd]
    exact ⟨rfl, rfl, rfl⟩
  case enabled =>
    intro via c s hs happlying hheld hshadow hstate
    obtain ⟨hidle, hgeneration⟩ := State.channelEnable_on (s := s.putBase (0x7010 + c) 1 (ofBool true)) (c := c) hstate
    refine Runs.of (congrArg Host.Outcome.next (State.dictWrite_channelEnable hs happlying hheld hshadow)) ?_
    rw [State.channel_dict]
    exact ⟨hidle, hgeneration, rfl⟩
  case disabled =>
    intro via c s hs happlying hheld hshadow hstate
    obtain ⟨hdisabled, hwaiting⟩ := State.channelEnable_off (s := s.putBase (0x7010 + c) 1 (ofBool false)) (c := c) hstate
    refine Runs.of (congrArg Host.Outcome.next (State.dictWrite_channelEnable hs happlying hheld hshadow)) ?_
    rw [State.channel_dict]
    exact ⟨hdisabled, hwaiting⟩
  case calibrate =>
    intro via c n s hs happlying hmethod hlo hhi
    refine Runs.of (congrArg Host.Outcome.next (State.dictWrite_zeroCalibrate hs happlying hmethod hlo hhi rfl)) ?_
    rw [State.channel_dict, State.channel_setChannel]
    exact ⟨rfl, rfl⟩
  case lost =>
    intro s hs hlate happlying hmode
    refine congrArg Host.Outcome.next ((if_pos ⟨hs, by omega⟩).trans ?_)
    exact State.forceSafe_idle happlying hmode

end Sys2Proof.Machine
end

section
/-! Cold reset, bring-up and recovery (R310, R341 to R347). -/

namespace Sys2Proof.Machine

/-! ## Cold reset -/

/-- The fuses are read and the firmware stage begins; what is logged touches neither boot nor the dictionary. -/
theorem State.readFuses_boot {s : State} {fuse : FuseRead} :
    (s.readFuses fuse).boot.stage = 2 ∧ (s.readFuses fuse).boot.fuse = fuse ∧ (s.readFuses fuse).boot.fuseFault = fuse.doubleError
      ∧ (s.readFuses fuse).boot.coldHeld = s.boot.coldHeld ∧ (s.readFuses fuse).boot.tray = s.boot.tray
      ∧ (s.readFuses fuse).dict.safeCause = if fuse.doubleError then s.dict.safeCause ||| 4 else s.dict.safeCause := by
  unfold State.readFuses
  have hlog : ∀ (u : State) (c : Prop) [Decidable c], (if c then u.logEvent 0x0107 else u).boot = u.boot
      ∧ (if c then u.logEvent 0x0107 else u).dict = u.dict := by
    intro u c hc
    split
    · exact ⟨State.logFrom_boot, State.logFrom_dict⟩
    · exact ⟨rfl, rfl⟩
  dsimp only
  split
  · simp only [State.logEvent_eq, State.logFrom_boot, State.logFrom_dict, State.bootFlag]
    split <;> simp [stFirmware, causeFuse]
  · rw [(hlog _ _).1, (hlog _ _).2]
    exact ⟨rfl, rfl, rfl, rfl, rfl, rfl⟩

/-- Settles O20: each reset by what it keeps; without a burrow in use a PCIe reset changes registers only. -/
theorem coldResetStartsTheDevice : Obligations.ColdResetStartsTheDevice := by
  refine ⟨fun s => rfl, ?release, ?retry, fun s => rfl, ?pcie⟩
  case release =>
    intro locked fuse tray s hheld
    refine Runs.of (congrArg Host.Outcome.next (if_neg (by rw [hheld]; decide))) ?_
    cases locked
    · simp only [Bool.false_eq_true, if_false, State.logEvent_eq, State.logFrom_boot, State.logFrom_dict, false_and]
      exact ⟨trivial, trivial, rfl, trivial, trivial⟩
    · simp only [if_true, true_and]
      obtain ⟨hstage, hfuse, -, hcold, htray, hcause⟩ := State.readFuses_boot (fuse := fuse)
        (s := ({ s with boot := { s.boot with coldHeld := false, tray := tray.val, stage := stClocks } } : State).logEvent 0x0100)
      rw [State.logEvent_eq, State.logFrom_boot] at hcold htray
      rw [State.logEvent_eq, State.logFrom_dict] at hcause
      exact ⟨hcold, htray, hstage, hfuse, hcause⟩
  case retry =>
    intro fuse s hstage
    obtain ⟨h2, hfuse, hfault, -⟩ := State.readFuses_boot (s := s) (fuse := fuse)
    exact Runs.of (congrArg Host.Outcome.next (if_pos ⟨hstage, rfl⟩)) ⟨h2, hfuse, hfault⟩
  case pcie =>
    intro s hdisabled
    have hchange : s.vfChange false 0 = { s with host := { s.host with vfEnable := false, numVfs := 0 } } :=
      State.vfChange_disabled fun b hb => ⟨hdisabled b hb, fun h => by cases h⟩
    exact Runs.of (congrArg (fun u : State => Host.Outcome.next u.pfFlr) hchange) ⟨rfl, rfl, rfl, rfl, rfl, rfl⟩

/-! ## Bring-up -/

theorem State.serveMailbox_idle {s : State} (h : s.vdp.busy = false) : s.serveMailbox = s := if_pos (.inl h)

theorem State.advance_bundleMissing {s : State} (h : s.boot.bundleDone = false) : s.advance = s := if_neg (by rw [h]; simp)

theorem State.advance_hbmMissing {s : State} (h : s.boot.hbmDone = false) : s.advance = s := if_neg (by rw [h]; simp)

theorem State.advance_early {s : State} (h : s.boot.stage ≠ stKernels) : s.advance = s := if_neg fun k => h k.1

theorem State.bootFlag_testBit {s : State} {bit : Nat} : (s.bootFlag bit).boot.flags.testBit bit = true := by
  simp [State.bootFlag, Nat.testBit_or, Nat.testBit_two_pow_self]

/-- Entering recovery, with its event. -/
theorem State.enterRecovery_boot {s : State} {r : RecoveryFor} :
    (s.enterRecovery r).boot = { s.boot with stage := 3, recovery := some r, recoveryStatus := 0 } := State.logFrom_boot

/-- The base layer is loaded; nothing of it starts the next stage while the bundle is missing. -/
theorem State.configLoad_exec {s : State} (hstage : s.boot.stage = 4) (hconfig : s.boot.configDone = false) (hbundle : s.boot.bundleDone = false) :
    exec .configLoad s = .next { s.loadConfig.takeConfig with boot := { s.boot with configDone := true, stage := 5 } } := by
  have hboot : s.loadConfig.takeConfig.boot = s.boot := State.takeConfig_only.boot.trans State.loadConfig_only.boot
  change execConfigLoad s = _
  unfold execConfigLoad
  dsimp only
  rw [if_neg (by rw [hstage, hconfig]; decide), hboot]
  exact congrArg Host.Outcome.next (State.advance_bundleMissing hbundle)

theorem State.flagBurrows_bw {l : List Nat} {u : State} : (l.foldl (fun s b => s.flagBurrow b 2) u).bw = u.bw :=
  foldl_kept (f := fun (s : State) b => s.flagBurrow b 2) (g := State.bw) (fun _ _ => rfl) l u

theorem State.rescale_deliverable {s : State} : s.rescale.bw.deliverable = s.bw.deliverable := by
  unfold State.rescale
  dsimp only
  split
  · split
    · rfl
    · rw [State.logEvent_eq, State.logFrom_bw, State.flagBurrows_bw]
  · split
    · rw [State.logEvent_eq, State.logFrom_bw]
    · rfl

/-- The check on the segment count may fence the device; the stages of boot go on. -/
theorem State.segmentAudit_boot {s : State} : ∃ fence, s.segmentAudit.boot = { s.boot with fenceFlag := fence } := by
  unfold State.segmentAudit
  split
  · exact ⟨_, rfl⟩
  · exact ⟨true, State.logFrom_boot⟩

/-- A cold boot's firmware copies in their order (R310). -/
theorem State.coldFirmware_boot {s : State} (hidle : s.vdp.busy = false) :
    match s.flashFirmware 0, s.flashFirmware 0x200000 with
    | some (h, image), _ => s.coldFirmware = s.startFirmware h image false
    | none, some (h, image) => s.coldFirmware = ((s.startFirmware h image true).bootFlag 0).logEvent 0x0102
    | none, none => s.coldFirmware = s.enterRecovery .firmware := by
  unfold State.coldFirmware
  cases hprimary : s.flashFirmware 0 with
  | some e => exact State.serveMailbox_idle hidle
  | none =>
    cases hsecondary : s.flashFirmware 0x200000 with
    | some e => exact State.serveMailbox_idle (by rw [State.logEvent_eq, State.logFrom_vdp]; exact hidle)
    | none => rfl

/-- An empty list of failed pseudo-channels leaves the rate at what the healthy ones deliver. -/
theorem State.hbmTraining_exec {s : State} (hfirmware : s.boot.firmwareOk = true) (hhbm : s.boot.hbmDone = false) (hstage : 3 ≤ s.boot.stage)
    (hbundle : s.boot.bundleDone = false) :
    exec (.hbmTrainingDone []) s = .next ({ s with
      mem := [], boot := { s.boot with hbmDone := true }
      bw := { s.bw with deliverable := deliverableOf s.bw.healthy s.bw.channelTokens } } : State).rescale.segmentAudit := by
  have hearly : ∀ u : State, u.boot = { s.boot with hbmDone := true } → u.rescale.segmentAudit.advance = u.rescale.segmentAudit := by
    intro u hu
    obtain ⟨fence, haudit⟩ := State.segmentAudit_boot (s := u.rescale)
    rw [State.rescale_only.boot, hu] at haudit
    refine State.advance_bundleMissing ?_
    rw [haudit]
    exact hbundle
  refine congrArg Host.Outcome.next ((if_neg ?_).trans (hearly _ rfl))
  simp [hfirmware, hhbm, hstage, stRecovery]

/-- The end of boot once the mode's values are in force: the lock, the first valid reading's deadline, READY. -/
def State.becomeReady (s : State) : State :=
  let s := if s.cfg 0x1F00 3 = 1 then s.lockAll else s
  let s := if s.boot.warmBoot.isNone then { s with ftf := { s.ftf with lastValid := s.clk.now } } else s
  { s with boot := { s.boot with stage := stReady, warmBoot := none } }

theorem State.becomeReady_after {s u : State} (hboot : u.boot = s.boot) (hftf : u.ftf = s.ftf) (hclk : u.clk = s.clk) :
    u.becomeReady.boot = { s.boot with stage := 7, warmBoot := none } ∧ u.becomeReady.dict.mode = u.dict.mode
      ∧ u.becomeReady.dict.applying = u.dict.applying
      ∧ u.becomeReady.ftf.lastValid = if s.boot.warmBoot.isNone then s.clk.now else s.ftf.lastValid := by
  have hlock : ∀ (c : Prop) [Decidable c], ∃ v, (if c then u.lockAll else u) = v ∧ v.boot = s.boot ∧ v.ftf = s.ftf ∧ v.clk = s.clk
      ∧ v.dict.mode = u.dict.mode ∧ v.dict.applying = u.dict.applying := by
    intro c hc
    refine ⟨_, rfl, ?_⟩
    split
    · exact ⟨State.lockAll_only.boot.trans hboot, State.lockAll_only.ftf.trans hftf, State.lockAll_only.clk.trans hclk,
        by rw [State.lockAll_dict], by rw [State.lockAll_dict]⟩
    · exact ⟨hboot, hftf, hclk, rfl, rfl⟩
  obtain ⟨v, hv, hvboot, hvftf, hvclk, hvmode, hvapplying⟩ := hlock (u.cfg 0x1F00 3 = 1)
  unfold State.becomeReady
  rw [hv]
  dsimp only
  rw [hvboot]
  split
  · exact ⟨rfl, hvmode, hvapplying, congrArg Clk.now hvclk⟩
  · exact ⟨congrArg (fun b : Boot => { b with stage := 7, warmBoot := none }) hvboot, hvmode, hvapplying, congrArg _ hvftf⟩

/-- BOOT_COMPLETE where no value changes with the mode and none is held back. -/
theorem bootComplete_exec {s : State} {m : Nat} (hstage : s.boot.stage = 6) (hscrub : s.boot.scrubbing = false)
    (hm : (if s.deviceCause then 4 else s.cfg 0x2001 5) = m) (hheld : s.dict.heldKeys = []) (hchanged : s.changedKeys s.overlay (s.overlayOf m) = []) :
    exec .bootComplete s = .next ({ s with dict := { s.dict with
      mode := m, modeRequest := m, applying := false, target := m, forced := false, hostWas := false, safeWaiting := false
      overlayOld := none, heldOld := [], heldKeys := [] } } : State).becomeReady := by
  have hguard : ¬(s.boot.stage ≠ stHost ∨ s.boot.scrubbing = true) := by simp [hstage, hscrub, stHost]
  subst hm
  refine congrArg Host.Outcome.next ((if_neg hguard).trans ?_)
  change State.becomeReady (List.foldl _ _ (s.changedKeys s.overlay (s.overlayOf _) ++ s.dict.heldKeys)) = _
  rw [hchanged, hheld]
  rfl

/-- Settles O21: each stage ends in the branch that flash, the bundle and the mode select. -/
theorem bootGoesStageByStage : Obligations.BootGoesStageByStage := by
  refine ⟨?firmware, ?config, ?bundle, ?hbm, ?complete⟩
  case firmware =>
    intro s hstage hwarm hidle
    have hexec : exec .firmwareReadDone s = .next s.coldFirmware := by
      refine congrArg Host.Outcome.next ((if_neg (fun h => h hstage)).trans ?_)
      rw [hwarm]
    have hcold := State.coldFirmware_boot hidle
    refine Runs.of hexec ?_
    cases hprimary : s.flashFirmware 0 with
    | some e =>
      rw [hprimary] at hcold
      dsimp only at hcold ⊢
      rw [hcold]
      exact ⟨rfl, rfl, rfl, rfl, rfl⟩
    | none =>
      cases hsecondary : s.flashFirmware 0x200000 with
      | some e =>
        rw [hprimary, hsecondary] at hcold
        dsimp only at hcold ⊢
        rw [hcold, State.logEvent_eq, State.logFrom_boot]
        exact ⟨rfl, rfl, rfl, State.bootFlag_testBit, rfl, rfl⟩
      | none =>
        rw [hprimary, hsecondary] at hcold
        dsimp only at hcold ⊢
        rw [hcold, State.enterRecovery_boot]
        exact ⟨rfl, rfl⟩
  case config =>
    intro s hstage hconfig hbundle
    exact Runs.of (State.configLoad_exec hstage hconfig hbundle) ⟨rfl, rfl, congrArg Dict.base State.takeConfig_only.dict⟩
  case bundle =>
    intro s hstage hbundle hhbm
    have hguard : ¬(s.boot.stage ≠ stKernels ∨ s.boot.bundleDone = true) := by simp [hstage, hbundle, stKernels]
    refine Runs.of (congrArg Host.Outcome.next (if_neg hguard)) ?_
    cases hparse : parseBundle (s.flashRead 0x400000 0x40000) with
    | some ks =>
      have hkept : (s.takeBundle ks).boot = { s.boot with bundleDone := true } :=
        congrArg (fun b : Boot => { b with bundleDone := true }) State.loadBundle_only.boot
      dsimp only
      rw [State.advance_hbmMissing (by rw [hkept]; exact hhbm), hkept]
      exact ⟨rfl, hstage, rfl⟩
    | none =>
      dsimp only
      rw [State.enterRecovery_boot, State.logEvent_eq, State.logFrom_boot]
      exact ⟨hbundle, rfl, rfl, State.bootFlag_testBit⟩
  case hbm =>
    intro s hfirmware hhbm hstage hbundle
    refine Runs.of (State.hbmTraining_exec hfirmware hhbm hstage hbundle) ?_
    generalize hu : ({ s with mem := _, boot := _, bw := _ } : State) = u
    obtain ⟨fence, haudit⟩ := State.segmentAudit_boot (s := u.rescale)
    rw [haudit, State.segmentAudit_only.mem, State.segmentAudit_only.bw, State.rescale_only.mem, State.rescale_only.boot,
      State.rescale_deliverable]
    subst hu
    exact ⟨rfl, rfl, rfl, rfl⟩
  case complete =>
    intro s m hstage hscrub hm hheld hchanged
    obtain ⟨hboot, hmode, happlying, hvalid⟩ := State.becomeReady_after (s := s) (u := { s with dict := { s.dict with
      mode := m, modeRequest := m, applying := false, target := m, forced := false, hostWas := false, safeWaiting := false
      overlayOld := none, heldOld := [], heldKeys := [] } }) rfl rfl rfl
    refine Runs.of (bootComplete_exec hstage hscrub hm hheld hchanged) ⟨?_, ?_, hmode, happlying, hvalid⟩
    · rw [hboot]
    · rw [hboot]

end Sys2Proof.Machine
end

section
/-! Recovery (R346): what an image in the mailbox's window does. -/

namespace Sys2Proof.Machine

/-- The length of the image in the window is noted. -/
def State.noteWindow (s : State) (window : List Byte) : State := { s with boot := { s.boot with recoveryLength := window.length } }

/-- In recovery for that kind of image, RecoveryControl acts on the window. -/
theorem State.inRecovery_acts {s : State} {window : List Byte} {r : RecoveryFor} {pass : State → State} (hstage : s.boot.stage = 3)
    (hhost : s.boot.hostUp = true) (hfor : s.boot.recovery = some r) : s.inRecovery window r pass = pass (s.noteWindow window) := by
  have hguard : ¬(s.boot.stage ≠ stRecovery ∨ s.boot.hostUp = false) := by simp [hstage, hhost, stRecovery]
  exact (if_neg hguard).trans (if_pos hfor)

/-- Boot goes on at a stage where nothing waits: no request in the mailbox, and KERNELS not complete. -/
theorem State.bootOn_waits {s : State} {stage : Nat} (hidle : s.vdp.busy = false) (hstage : stage = stKernels → s.boot.hbmDone = false) :
    s.bootOn stage = { s with boot := { s.boot with stage := stage, recovery := none } } := by
  have hserved : ({ s with boot := { s.boot with stage := stage, recovery := none } } : State).serveMailbox
      = { s with boot := { s.boot with stage := stage, recovery := none } } := State.serveMailbox_idle hidle
  refine (congrArg State.advance hserved).trans (if_neg ?_)
  exact fun ⟨hkernels, _, hhbm⟩ => by
    have := hstage hkernels
    simp_all

/-- Recovered firmware boots: its version and image, the flag of a recovery, and CONFIG next. -/
theorem State.bootRecovered_boot {s : State} {h image : List Byte} (hidle : s.vdp.busy = false) :
    (s.bootRecovered h image).boot = { s.boot with
      recoveryStatus := 4, fwVersion := field h 12 4, fwEntry := field h 16 4, fwImage := image, secondary := false, firmwareOk := true
      stage := 4, recovery := none, flags := s.boot.flags ||| 2 } := by
  unfold State.bootRecovered
  rw [State.bootOn_waits (by rw [State.logEvent_eq, State.logFrom_vdp]; exact hidle) (fun h => absurd h (by decide)), State.logEvent_eq,
    State.logFrom_boot]
  rfl

theorem State.bootRecovered_flash {s : State} {h image : List Byte} (hidle : s.vdp.busy = false) :
    (s.bootRecovered h image).flash = s.flash := by
  unfold State.bootRecovered
  rw [State.bootOn_waits (by rw [State.logEvent_eq, State.logFrom_vdp]; exact hidle) (fun h => absurd h (by decide)), State.logEvent_eq,
    State.logFrom_flash]
  rfl

theorem State.setTile_grid {s t : State} {i : Nat} {v : Tile} (h : t.grid = s.grid) : (t.setTile i v).grid = (s.setTile i v).grid :=
  congrArg (fun g : Grid => { g with tiles := Map.put g.tiles i v }) h

/-- The tiles and kernels that a kernel goes to do not depend on the rest of the device. -/
theorem State.loadKernel_grid {s t : State} {slot : Nat} {k : Kernel} (h : t.grid = s.grid) : (t.loadKernel slot k).grid = (s.loadKernel slot k).grid := by
  have hkernel : (t.setKernel slot k).grid = (s.setKernel slot k).grid :=
    congrArg (fun g : Grid => { g with kernels := Map.put g.kernels slot k }) h
  refine List.foldl_rel (r := fun u v : State => u.grid = v.grid) hkernel fun i _ u v huv => ?_
  have htile : u.tile i = v.tile i := congrArg (fun g : Grid => Map.getD g.tiles i {}) huv
  dsimp only
  rw [htile]
  exact State.setTile_grid huv

theorem State.loadBundle_grid {s t : State} {ks : List Kernel} (h : t.grid = s.grid) : (t.loadBundle ks).grid = (s.loadBundle ks).grid :=
  List.foldl_rel (r := fun u v : State => u.grid = v.grid) h fun _ _ _ _ huv => State.loadKernel_grid huv

/-- The bundle that recovery took is in, and boot goes on at KERNELS while HBM trains. -/
theorem State.bundleRecovered_eq {s : State} {ks : List Kernel} (hidle : s.vdp.busy = false) (hhbm : s.boot.hbmDone = false) :
    ∃ t, ((s.recoveryStatus 4).takeBundle ks).bootOn stKernels = t
      ∧ t.boot = { s.boot with recoveryStatus := 4, bundleDone := true, stage := 5, recovery := none } ∧ t.grid = (s.loadBundle ks).grid
      ∧ t.flash = s.flash := by
  have honly := State.loadBundle_only (s := s.recoveryStatus 4) (ks := ks)
  have hboot : ((s.recoveryStatus 4).takeBundle ks).boot = { s.boot with recoveryStatus := 4, bundleDone := true } :=
    congrArg (fun b : Boot => { b with bundleDone := true }) honly.boot
  have hgrid : ((s.recoveryStatus 4).takeBundle ks).grid = (s.loadBundle ks).grid := State.loadBundle_grid rfl
  refine ⟨_, State.bootOn_waits (honly.vdp ▸ hidle) fun _ => ?_, ?_, hgrid, honly.flash⟩
  · rw [hboot]
    exact hhbm
  · rw [hboot]
    rfl

/-- What is written to a flash area touches neither boot, the mailbox nor what the bundle goes to. -/
theorem State.writeArea_kept {s : State} {a size : Nat} {bs : List Byte} {ok : Bool} :
    (s.writeArea a size bs ok).boot = s.boot ∧ (s.writeArea a size bs ok).vdp = s.vdp ∧ (s.writeArea a size bs ok).grid = s.grid := by
  unfold State.writeArea
  cases ok <;> exact ⟨rfl, rfl, rfl⟩

/-- Settles O22: an image that fails its checks, one that is not written, and one that boots. -/
theorem recoveryTakesAnImage : Obligations.RecoveryTakesAnImage := by
  refine ⟨?boot, ?write, ?take, ?writeBundle⟩
  case boot =>
    intro w s hstage hhost hfor hidle
    refine Runs.of (congrArg Host.Outcome.next (State.inRecovery_acts hstage hhost hfor)) ?_
    cases hwindow : windowFirmware w with
    | none => exact ⟨rfl, rfl, hstage⟩
    | some e =>
      dsimp only
      rw [State.bootRecovered_boot (s := s.noteWindow w) hidle]
      exact ⟨rfl, rfl, rfl, rfl, rfl, rfl, by
        rw [Nat.testBit_or]
        exact Bool.or_eq_true_iff.mpr (.inr (by decide))⟩
  case write =>
    intro w ok s hstage hhost hfor hidle
    refine Runs.of (congrArg Host.Outcome.next (State.inRecovery_acts hstage hhost hfor)) ?_
    cases hwindow : windowFirmware w with
    | none => exact ⟨rfl, hstage, rfl⟩
    | some e =>
      obtain ⟨h, image⟩ := e
      obtain ⟨hboot, hvdp, -⟩ := State.writeArea_kept (s := s.noteWindow w) (a := 0) (size := 0x200000)
        (bs := w.take (0x1000 + image.length + 96)) (ok := ok)
      cases ok with
      | false => exact ⟨rfl, (congrArg Boot.stage hboot).trans hstage⟩
      | true =>
        have hwritten := (congrArg Vdp.busy hvdp).trans hidle
        dsimp only
        rw [if_pos rfl, State.bootRecovered_boot hwritten, State.bootRecovered_flash hwritten]
        exact ⟨rfl, rfl, rfl⟩
  case take =>
    intro w s hstage hhost hfor hidle hhbm
    refine Runs.of (congrArg Host.Outcome.next (State.inRecovery_acts hstage hhost hfor)) ?_
    cases hparse : parseBundle (w.take 0x40000) with
    | none => exact ⟨rfl, hstage⟩
    | some ks =>
      obtain ⟨t, ht, hboot, hgrid, -⟩ := State.bundleRecovered_eq (s := s.noteWindow w) (ks := ks) hidle hhbm
      dsimp only
      rw [ht, hboot]
      exact ⟨rfl, rfl, rfl, hgrid.trans (State.loadBundle_grid rfl)⟩
  case writeBundle =>
    intro w ok s hstage hhost hfor hidle hhbm
    refine Runs.of (congrArg Host.Outcome.next (State.inRecovery_acts hstage hhost hfor)) ?_
    cases hparse : parseBundle (w.take 0x40000) with
    | none => exact ⟨rfl, hstage, rfl⟩
    | some ks =>
      obtain ⟨hboot, hvdp, hgrid⟩ := State.writeArea_kept (s := s.noteWindow w) (a := 0x400000) (size := 0x40000) (bs := w.take 0x40000) (ok := ok)
      cases ok with
      | false => exact ⟨rfl, (congrArg Boot.stage hboot).trans hstage⟩
      | true =>
        obtain ⟨t, ht, htboot, htgrid, htflash⟩ := State.bundleRecovered_eq (ks := ks) ((congrArg Vdp.busy hvdp).trans hidle)
          ((congrArg Boot.hbmDone hboot).trans hhbm)
        dsimp only
        rw [if_pos rfl, ht, htboot, htflash]
        exact ⟨rfl, rfl, htgrid.trans (State.loadBundle_grid hgrid), rfl⟩

end Sys2Proof.Machine
end

section
/-! Warm resets (R348, R349): the trigger, and what the reset leaves. -/

namespace Sys2Proof.Machine

/-! ## The trigger -/

/-- With no burrow ENABLED and no port in use there is nothing to drain. -/
theorem State.triggerWarm_idle {s : State} {retain : Bool} (hpending : s.boot.warmPending = none)
    (hburrows : ∀ b < 64, (s.burrow b).state ≠ .enabled) (hports : ∀ p < 10, (s.port p).state = .disabled) :
    s.triggerWarm retain = { s with boot := { s.boot with warmPending := some (retain, s.clk.now + 2000) } } := by
  unfold State.triggerWarm
  rw [if_neg (by simp [hpending])]
  dsimp only
  generalize hu : ({ s with boot := { s.boot with warmPending := some (retain, s.clk.now + 2000) } } : State) = u
  have hburrow : ∀ b, u.burrow b = s.burrow b := by
    subst hu
    exact fun _ => rfl
  have hport : ∀ p, u.port p = s.port p := by
    subst hu
    exact fun _ => rfl
  have hdrains : ∀ b ∈ List.range 64, (if (u.burrow b).state = .enabled then u.discardDrain b else u) = u := fun b hb =>
    if_neg (hburrow b ▸ hburrows b (List.mem_range.mp hb))
  have hlinks : ∀ p ∈ List.range 10, u.drainPort p = u := by
    intro p hp
    unfold State.drainPort
    rw [hport, hports p (List.mem_range.mp hp)]
  have hdrained : (List.range 64).foldl (fun (s : State) b => if (s.burrow b).state = .enabled then s.discardDrain b else s) u = u :=
    foldl_same hdrains
  rw [hdrained, foldl_same hlinks]

theorem State.dictWrite_warmReset {s u : State} {via : Transport} {v : Nat} (hv : v = 1 ∨ v = 2) (hs : 4 ≤ s.boot.stage)
    (happlying : s.dict.applying = false) (hu : s.triggerWarm (v == 1) = u) :
    s.dictWrite via 0x8000 1 [BitVec.ofNat 8 v] = { u with dict := { u.dict with answer := .ok false } } := by
  subst hu
  rcases hv with rfl | rfl
  all_goals exact State.dictWrite_command (o := num .u8 .cmd 0 (.between 1 2)) hs rfl rfl rfl rfl happlying (by decide) rfl

/-! ## What a reset reads of the dictionary -/

theorem State.overlayOf_base {s t : State} {m : Nat} (h : t.dict.base = s.dict.base) : t.overlayOf m = s.overlayOf m := by
  unfold State.overlayOf
  rw [h]
  simp only [State.baseValue_base h]

/-- Overlays and changed keys depend on the base layer and on what a transition holds back. -/
theorem State.changedKeys_same {s t : State} (hbase : t.dict.base = s.dict.base) (hheld : t.dict.heldOld = s.dict.heldOld)
    (hold : t.dict.overlayOld = s.dict.overlayOld) (hmode : t.dict.mode = s.dict.mode) :
    t.changedKeys t.overlay (t.overlayOf t.dict.mode) = s.changedKeys s.overlay (s.overlayOf s.dict.mode) := by
  have hoverlay : t.overlay = s.overlay := by
    unfold State.overlay
    rw [hold, hmode, State.overlayOf_base hbase]
  rw [hoverlay, hmode, State.overlayOf_base hbase]
  unfold State.changedKeys
  rw [hheld]
  simp only [State.baseValue_base hbase]

/-- A store broken off changes its own fields of the dictionary only. -/
theorem State.breakStore_dict {s : State} : ∃ storing status, s.breakStore.dict = { s.dict with
    storing := storing, storeStatus := status, storePending := false } := by
  unfold State.breakStore
  cases h : s.dict.storing with
  | none => exact ⟨s.dict.storing, s.dict.storeStatus, rfl⟩
  | some r => exact ⟨none, 3, rfl⟩

/-! ## The host interface -/

/-- The host interface but its interrupt vectors. -/
def State.hostRest (s : State) : HostIf := { s.host with vectors := [] }

theorem State.logFrom_hostRest {s : State} {source code : Nat} {ps : List Byte} : (s.logFrom source code ps).hostRest = s.hostRest :=
  (congrArg (fun h : HostIf => { h with vectors := [] }) State.logFrom_host).trans rfl

theorem State.raise_hostRest {s : State} {fn vec : Nat} : (s.raise fn vec).hostRest = s.hostRest :=
  (congrArg (fun h : HostIf => { h with vectors := [] }) State.raise_host).trans rfl

theorem State.host_of_rest {s : State} {h : HostIf} (hrest : s.hostRest = { h with vectors := [] }) : s.host = { h with vectors := s.host.vectors } :=
  congrArg (fun r : HostIf => { r with vectors := s.host.vectors }) hrest

theorem Map.get?_tabulate {α : Type} {f : Nat → α} {l : List Nat} {i : Nat} (h : i ∈ l) : Map.get? (l.map fun b => (b, f b)) i = some (f i) := by
  induction l with
  | nil => cases h
  | cons b l ih =>
    rw [List.map_cons]
    by_cases hb : b = i
    · subst hb
      exact if_pos rfl
    · exact (if_neg hb).trans (ih ((List.mem_cons.mp h).resolve_left (Ne.symm hb)))

theorem State.resetVf_generation {s : State} {b c : Nat} : ((s.resetVf b).burrow c).generation = (s.burrow c).generation := by
  have hslots : ∀ c, ((List.range 16).foldl (fun (s : State) q => s.setSlot b q {}) s).burrow c = s.burrow c := fun c =>
    foldl_kept (f := fun (s : State) q => s.setSlot b q {}) (g := fun u : State => u.burrow c) (fun _ _ => rfl) _ s
  unfold State.resetVf
  generalize (List.range 16).foldl (fun (s : State) q => s.setSlot b q {}) s = u at hslots
  rw [← hslots c]
  by_cases h : b = c
  · subst h
    have hreset := State.burrow_setBurrow (s := u) (b := b) (v := { u.burrow b with errorFlags := 0, resetting := false })
    exact (congrArg Burrow.generation hreset :)
  · exact congrArg Burrow.generation (Map.getD_put_other h)

/-- The host interface as a warm reset leaves it before it is told: every burrow at its reset values but its counts. -/
def State.emptyHost (s : State) : HostIf :=
  { vfEnable := s.host.vfEnable, numVfs := s.host.numVfs, vectors := s.host.vectors
    burrows := (List.range 64).map fun b => (b, (s.burrow b).warm (s.burrowWanted b))
    slots := s.host.slots.map fun (e : Nat × QSlot) => (e.1, { regs := e.2.regs }) }

/-- A warm reset of the host interface: resets that were pending, the empty interface, then events and interrupts. -/
theorem State.warmHost_rest {s : State} :
    s.warmHost.hostRest
      = { ((List.range 64).foldl (fun (s : State) b => if (s.burrow b).resetting then s.resetVf b else s) s).emptyHost with vectors := [] } := by
  unfold State.warmHost
  dsimp only
  generalize (List.range 64).foldl (fun (s : State) b => if (s.burrow b).resetting then s.resetVf b else s) s = u
  exact foldl_kept (g := State.hostRest) (fun v b => State.logFrom_hostRest.trans State.raise_hostRest) _ { u with host := u.emptyHost }

/-- No command is left, and every burrow is DISABLED in its next generation. -/
theorem State.warmHost_host {s : State} : s.warmHost.host.fetched = [] ∧ s.warmHost.host.live = [] ∧ s.warmHost.host.waiting = []
    ∧ ∀ b < 64, (s.warmHost.burrow b).state = .disabled ∧ (s.warmHost.burrow b).generation = ((s.burrow b).generation + 1) % 65536 := by
  have hrest := State.host_of_rest (State.warmHost_rest (s := s))
  have hgeneration : ∀ b, (((List.range 64).foldl (fun (s : State) b => if (s.burrow b).resetting then s.resetVf b else s) s).burrow b).generation
      = (s.burrow b).generation := fun b =>
    foldl_kept (f := fun (s : State) b => if (s.burrow b).resetting then s.resetVf b else s) (g := fun u : State => (u.burrow b).generation)
      (fun u c => by
        split
        · exact State.resetVf_generation
        · rfl) _ s
  generalize (List.range 64).foldl (fun (s : State) b => if (s.burrow b).resetting then s.resetVf b else s) s = u at hrest hgeneration
  generalize s.warmHost = w at hrest ⊢
  refine ⟨congrArg HostIf.fetched hrest, congrArg HostIf.live hrest, congrArg HostIf.waiting hrest, fun b hb => ?_⟩
  have hburrows : w.host.burrows = (List.range 64).map fun b => (b, (u.burrow b).warm (u.burrowWanted b)) :=
    congrArg HostIf.burrows hrest
  have hburrow : w.burrow b = (u.burrow b).warm (u.burrowWanted b) := by
    have hempty := Map.get?_tabulate (f := fun b => (u.burrow b).warm (u.burrowWanted b)) (List.mem_range.mpr hb)
    rw [← hburrows] at hempty
    exact congrArg (fun o : Option Burrow => o.getD {}) hempty
  rw [hburrow, ← hgeneration b]
  exact ⟨rfl, rfl⟩

/-! ## The reset -/

theorem State.stopGenerators_only {l : List Nat} {s : State} : Only [.seg, .diag] s (l.foldl State.stopGenerator s) :=
  Only.foldl (fun _ _ h => Only.step State.stopGenerator_only rfl h) (Only.refl _ _)

/-- What both kinds of reset end: the part of the state in which no value changes when the transition in progress is dropped. -/
theorem State.warmCommon_cleared {s : State} {retain : Bool} (hheld : s.dict.heldKeys = [])
    (hchanged : s.changedKeys s.overlay (s.overlayOf s.dict.mode) = []) :
    ∃ (v : State) (b : Boot), v.host = s.host ∧ (s.warmCommon retain).host = v.warmHost.host
      ∧ (s.warmCommon retain).boot = b.warm retain ∧ (s.warmCommon retain).sched.ctxs = [] ∧ (s.warmCommon retain).fab.transit = [] := by
  obtain ⟨storing, status, hbroken⟩ := State.breakStore_dict (s := s)
  have hstop := State.stopGenerators_only (l := List.range 8) (s := s.breakStore)
  unfold State.warmCommon
  dsimp only
  generalize (List.range 8).foldl State.stopGenerator s.breakStore = u at hstop
  have hdict := hstop.dict.trans hbroken
  have hkeys : u.dict.heldKeys ++ u.changedKeys u.overlay (u.overlayOf u.dict.mode) = [] := by
    rw [State.changedKeys_same (s := s) (by rw [hdict]) (by rw [hdict]) (by rw [hdict]) (by rw [hdict]), hchanged, hdict, List.append_nil]
    exact hheld
  have hhost : ({ u with dict := u.dict.warm } : State).warmFtf.host = s.host :=
    State.warmFtf_only.host.trans (hstop.host.trans State.breakStore_only.host)
  rw [hkeys, List.foldl_nil]
  generalize ({ u with dict := u.dict.warm } : State).warmFtf = v at *
  refine ⟨v, u.boot, hhost, ?_⟩
  generalize v.warmHost = w
  exact ⟨rfl, rfl, rfl, rfl⟩

/-- Bit 4 of BootFlags says after a reset whether HBM was kept. -/
theorem Boot.warm_retained {b : Boot} {retain : Bool} : (b.warm retain).flags.testBit 4 = retain := by
  have hbit : ∀ n : Nat, n.testBit 4 = decide (n / 16 % 2 = 1) := fun n => Nat.testBit_eq_decide_div_mod_eq
  unfold Boot.warm
  dsimp only
  rw [hbit, hbit]
  by_cases hset : b.flags / 16 % 2 = 1
  · cases retain
    · simp [hset]
      omega
    · simp [hset]
      omega
  · cases retain
    · simp [hset]
    · simp [hset]
      omega

/-- A reset keeps what the common part left of boot, host interface and scheduler, and of the links where HBM is kept. -/
theorem State.warmReset_kept {s : State} {retain : Bool} : (s.warmReset retain).boot = (s.warmCommon retain).boot
    ∧ (s.warmReset retain).host = (s.warmCommon retain).host ∧ (s.warmReset retain).sched = (s.warmCommon retain).sched
    ∧ (retain = true → (s.warmReset retain).fab = (s.warmCommon retain).fab) := by
  unfold State.warmReset
  cases retain
  · exact ⟨State.warmEmptied_only.boot, State.warmEmptied_only.host, State.warmEmptied_only.sched, fun h => by cases h⟩
  · exact ⟨State.warmRetained_only.boot, State.warmRetained_only.host, State.warmRetained_only.sched, fun _ => State.warmRetained_only.fab⟩

/-- Without retention HBM holds nothing, and no collection is left. -/
theorem State.warmEmptied_empty {s : State} : s.warmEmptied.mem = [] ∧ s.warmEmptied.colls = [] := by
  unfold State.warmEmptied
  dsimp only
  exact ⟨foldl_kept (g := State.mem) (fun u e => State.ctrlAll_only.mem) _ _, foldl_kept (g := State.colls) (fun u e => State.ctrlAll_only.colls) _ _⟩

/-- Settles O23: the triggers find nothing to drain, and the reset restarts boot. -/
theorem warmResetsRestartTheDevice : Obligations.WarmResetsRestartTheDevice := by
  refine ⟨?pin, ?watchdog, ?object, ?execute⟩
  case pin =>
    intro s hheld hfirmware hpending hburrows hports
    have hguard : ¬(s.boot.coldHeld = true ∨ s.boot.firmwareOk = false) := by simp [hheld, hfirmware]
    exact congrArg Host.Outcome.next ((if_neg hguard).trans (State.triggerWarm_idle hpending hburrows hports))
  case watchdog =>
    intro s hs hpending hburrows hports
    have hguard : ¬s.serviceUp = false := by simp [State.serviceUp, hs]
    refine congrArg Host.Outcome.next ((if_neg hguard).trans ?_)
    dsimp only
    rw [State.triggerWarm_idle hpending hburrows hports]
  case object =>
    intro via s hs happlying hpending hburrows hports
    have htrigger : ∀ retain, s.triggerWarm retain = _ := fun retain => State.triggerWarm_idle hpending hburrows hports
    exact ⟨congrArg Host.Outcome.next (State.dictWrite_warmReset (.inl rfl) hs happlying (htrigger true)),
      congrArg Host.Outcome.next (State.dictWrite_warmReset (.inr rfl) hs happlying (htrigger false))⟩
  case execute =>
    intro retain at_ s hpending hdue hheld hchanged
    have hexec : exec .warmResetExecute s = .next (s.warmReset retain) := by
      change execWarmResetExecute s = _
      unfold execWarmResetExecute
      rw [hpending]
      exact congrArg Host.Outcome.next (if_pos hdue)
    obtain ⟨v, b, hvhost, hhost, hboot, hsched, hfab⟩ := State.warmCommon_cleared (retain := retain) hheld hchanged
    obtain ⟨hkboot, hkhost, hksched, hkfab⟩ := State.warmReset_kept (s := s) (retain := retain)
    obtain ⟨hfetched, hlive, hwaiting, hburrows⟩ := State.warmHost_host (s := v)
    have hempty : retain = false → (s.warmReset retain).mem = [] ∧ (s.warmReset retain).colls = [] := fun h => by
      subst h
      exact State.warmEmptied_empty
    refine Runs.of hexec ?_
    rw [hkboot.trans hboot, hkhost.trans hhost, hksched]
    refine ⟨rfl, rfl, rfl, rfl, Boot.warm_retained, hfetched, hlive, hwaiting, hsched, fun h => (congrArg Fabric.transit (hkfab h)).trans hfab,
      fun b => ?_, hempty⟩
    have hburrow : (s.warmReset retain).burrow b = v.warmHost.burrow b := congrArg (fun h : HostIf => Map.getD h.burrows b {}) (hkhost.trans hhost)
    have hbefore : v.burrow b = s.burrow b := congrArg (fun h : HostIf => Map.getD h.burrows b {}) hvhost
    rw [hburrow, ← hbefore]
    exact hburrows b b.isLt

end Sys2Proof.Machine
end

section
/-! HBM reads and the patrol scrub (R143, R144, R153, R157). -/

namespace Sys2Proof.Machine

theorem burstExists_of {f b : Nat} (hf : f < Config.frames) (hb : b < 2048) : burstExists f b = true := decide_eq_true ⟨hf, hb⟩

/-- A read of a burst that exists. -/
theorem exec_hbmReadDone {s : State} {f b : Nat} {found : BurstRead} (hf : f < Config.frames) (hb : b < 2048) :
    exec (.hbmReadDone f b found) s = .next ((s.touchFrame f).burstFound f found).settleFrames := if_pos (burstExists_of hf hb)

theorem exec_patrolScrub {s : State} {f b : Nat} {found : BurstRead} (hf : f < Config.frames) (hb : b < 2048) :
    exec (.patrolScrub f b found) s = .next ({ s.burstFound f found with
      seg := { (s.burstFound f found).seg with patrolled := (s.burstFound f found).seg.patrolled + 1 } } : State).settleFrames :=
  if_pos (burstExists_of hf hb)

/-- A read touches its frame's segment only: its reference bit. -/
theorem State.touchFrame_held {s : State} {f n : Nat} {v : Seg}
    (h : s.seg.map.find? (fun (e : Nat × Seg) => e.2.frame == some f) = some (n, v)) : s.touchFrame f = s.touch n := by
  unfold State.touchFrame
  rw [h]

theorem State.touchFrame_loose {s : State} {f : Nat} (h : s.seg.map.find? (fun (e : Nat × Seg) => e.2.frame == some f) = none) :
    s.touchFrame f = s := by
  unfold State.touchFrame
  rw [h]

theorem State.touchFrame_corrected {s : State} {f : Nat} : (s.touchFrame f).seg.corrected = s.seg.corrected ∧ (s.touchFrame f).clk = s.clk := by
  unfold State.touchFrame
  split <;> exact ⟨rfl, rfl⟩

/-- An uncorrectable burst of a pool frame that no segment and no generator holds: the frame is quarantined and counted. -/
theorem State.looseFrameBad_seg {s : State} {f : Nat} (hf : f < 3129344) (hreplaced : s.seg.replaced = []) (hnew : f ∉ s.seg.quarantine)
    (htested : s.frameTested f = false) :
    (s.looseFrameBad f).seg.quarantine = s.seg.quarantine ++ [f] ∧ (s.looseFrameBad f).seg.quarantined = s.seg.quarantined + 1
      ∧ (s.looseFrameBad f).seg.failures = Map.modify s.seg.failures (frameChannel f) 0 (· + 1) := by
  have hfresh : ¬(s.seg.quarantine.contains f = true ∨ s.frameTested f = true) := by simp [hnew, htested]
  have hpool : ¬(3129344 ≤ f ∧ f < 3141632) := by omega
  unfold State.looseFrameBad
  rw [if_neg hfresh, hreplaced]
  dsimp only [List.find?_nil, Option.map_none, Option.getD_none]
  rw [if_neg hpool]
  unfold State.quarantineFrame
  simp only [State.logStack_eq, State.logFrom_seg, and_self]

/-- A RESIDENT segment with a bad frame is QUARANTINED and has no frame. -/
theorem State.quarantine_resident {s : State} {n : Nat} (h : (s.seg_ n).state = .resident) :
    ((s.quarantine n true).seg_ n).state = .quarantined ∧ ((s.quarantine n true).seg_ n).frame = none := by
  unfold State.quarantine
  dsimp only
  rw [if_neg (by simp [h]), State.seg_setSeg]
  exact ⟨rfl, rfl⟩

/-- Settles O41: a read touches its segment, then what the burst was found to be counts. -/
theorem readsFindErrors : Obligations.ReadsFindErrors := by
  refine ⟨?clean, ?corrected, ?loose, ?held, ?scrub⟩
  case clean =>
    intro f b n v s hf hb hheld
    refine Runs.of (exec_hbmReadDone hf hb) ?_
    rw [State.settleFrames_seg_, State.settleFrames_quarantine, State.touchFrame_held hheld]
    exact ⟨State.seg_setSeg, rfl⟩
  case corrected =>
    intro f b s hf hb
    obtain ⟨hcorrected, hclk⟩ := State.touchFrame_corrected (s := s) (f := f)
    refine Runs.of (exec_hbmReadDone hf hb) ?_
    rw [State.settleFrames_corrected, ← hcorrected, ← hclk]
    exact Map.getD_put_same
  case loose =>
    intro f b s hf hb hloose hreplaced hnew htested
    obtain ⟨hquarantine, hcount, hfailures⟩ := State.looseFrameBad_seg hf hreplaced hnew htested
    have hexec := exec_hbmReadDone (s := s) (f := f) (found := .uncorrectable) (Nat.lt_trans hf (by decide)) hb
    have hfound : (s.touchFrame f).burstFound f .uncorrectable = s.looseFrameBad f := by
      rw [State.touchFrame_loose hloose]
      unfold State.burstFound
      rw [hloose]
    rw [hfound] at hexec
    refine Runs.of hexec ?_
    rw [State.settleFrames_seg]
    exact ⟨hquarantine, hcount, by rw [hfailures]; exact Map.getD_put_same⟩
  case held =>
    intro f b n v s hf hb hheld hresident
    have hexec := exec_patrolScrub (s := s) (found := .uncorrectable) hf hb
    have hfound : s.burstFound f .uncorrectable = s.quarantine n true := by
      unfold State.burstFound
      rw [hheld]
    rw [hfound] at hexec
    refine Runs.of hexec ?_
    rw [State.settleFrames_seg_]
    exact State.quarantine_resident hresident
  case scrub =>
    intro f b s hf hb
    refine Runs.of (exec_patrolScrub hf hb) ?_
    rw [State.settleFrames_patrolled, State.settleFrames_map]
    exact ⟨rfl, rfl⟩

end Sys2Proof.Machine
end

section
/-! The fabric's ports (R193, R194, R208 to R210): link-up, draining and retraining. -/

namespace Sys2Proof.Machine

/-! ## Ports and the other parts of the state -/

/-- A port's read depends on the fabric only. -/
theorem State.port_fab {s t : State} {p : Nat} (h : t.fab = s.fab) : t.port p = s.port p :=
  congrArg (fun f : Fabric => Map.getD f.ports p {}) h

@[simp] theorem State.port_modPort {s : State} {p : Nat} {f : Port → Port} : (s.modPort p f).port p = f (s.port p) := State.port_setPort

theorem State.port_putBase {s : State} {ix sub p : Nat} {v : List Byte} : (s.putBase ix sub v).port p = s.port p := rfl

theorem State.port_dict {s : State} {d : Dict} {p : Nat} : ({ s with dict := d } : State).port p = s.port p := rfl

theorem State.port_out {s : State} {o : List Out} {p : Nat} : ({ s with out := o } : State).port p = s.port p := rfl

theorem State.port_emit {s : State} {o : Out} {p : Nat} : (s.emit o).port p = s.port p := rfl

theorem State.linkReason_setPort {s : State} {p q : Nat} {v : Port} {f : List Byte} : (s.setPort q v).linkReason p f = s.linkReason p f := rfl

/-- A LINK exchange that passes its checks notes the neighbour and goes on. -/
theorem State.linkExchange_pass {s : State} {p : Nat} {f : List Byte} {pass : State → State} (h : s.linkReason p f = none) :
    s.linkExchange p f pass = pass (s.setPort p { s.port p with neighbour := field (flitPayload f) 4 8 }) := by
  unfold State.linkExchange State.modPort
  dsimp only
  rw [State.linkReason_setPort, h]

/-- One that fails a check refuses the port. -/
theorem State.linkExchange_refuse {s : State} {p r : Nat} {f : List Byte} {pass : State → State} (h : s.linkReason p f = some r) :
    s.linkExchange p f pass = (s.setPort p { s.port p with neighbour := field (flitPayload f) 4 8 }).refusePort p r := by
  unfold State.linkExchange State.modPort
  dsimp only
  rw [State.linkReason_setPort, h]

theorem State.refusePort_port {s : State} {p r : Nat} : ((s.refusePort p r).port p).state = .refused ∧ ((s.refusePort p r).port p).reason = r := by
  have hrefused : ∀ u : State, ((u.resetLink p).modPort p fun v => { v with state := .refused, reason := r, since := s.clk.now }).port p
      = { (u.resetLink p).port p with state := .refused, reason := r, since := s.clk.now } := fun _ => State.port_setPort
  unfold State.refusePort
  dsimp only
  split
  · exact ⟨congrArg Port.state (hrefused s), congrArg Port.reason (hrefused s)⟩
  · rw [State.logPort_port]
    exact ⟨congrArg Port.state (hrefused s), congrArg Port.reason (hrefused s)⟩

/-- Training starts with the link's counters anew, under the next link generation. -/
theorem State.train_port {s : State} {p : Nat} : ((s.train p).port p).state = .training
    ∧ ((s.train p).port p).generation = ((s.port p).generation + 1) % 65536 ∧ ((s.train p).port p).linkSent = false
    ∧ ((s.train p).port p).replay = [] := by
  unfold State.train
  rw [State.port_modPort, State.resetLink_port]
  exact ⟨rfl, rfl, rfl, rfl⟩

/-! ## Enable -/

/-- An object that is not written keeps the value the device acts on. -/
theorem State.cfg_putBase_other {s : State} {ix sub i j : Nat} {v : List Byte} (hs : sub < 256) (hix : ix < 0x3100 ∨ 0x3600 ≤ ix)
    (hkey : objKey ix sub ≠ objKey i j) : (s.putBase ix sub v).cfg i j = s.cfg i j := by
  have hoverlay : (s.putBase ix sub v).overlay = s.overlay := by
    have hmode : (s.putBase ix sub v).overlayOf s.dict.mode = s.overlayOf s.dict.mode := State.overlayOf_putBase hs hix _
    unfold State.overlay
    rw [show (s.putBase ix sub v).dict.overlayOld = s.dict.overlayOld from rfl, show (s.putBase ix sub v).dict.mode = s.dict.mode from rfl, hmode]
  have heffective : (s.putBase ix sub v).effective i j = s.effective i j := by
    unfold State.effective
    rw [hoverlay, State.baseValue_putBase_other hkey]
  unfold State.cfg State.acted
  rw [heffective]
  rfl

theorem findObject_portEnable : ∀ p : Fin 10, (findObject (0x6010 + p) 1).toOption = some (num .bool .rw 1)
    ∧ isRequest (0x6010 + p) 1 = false := by decide

theorem crossChecked_port (p : Fin 10) : crossChecked.contains (0x6010 + p.val) = false := by
  revert p
  decide

/-- A write of Enable out of a transition and not shadowed: the port acts on it. -/
theorem State.dictWrite_portEnable {s : State} {via : Transport} {p : Fin 10} {on : Bool} (hs : 4 ≤ s.boot.stage)
    (happlying : s.dict.applying = false) (hheld : s.dict.heldOld = []) (hshadow : s.shadowed (0x6010 + p) 1 = false) :
    s.dictWrite via (0x6010 + p) 1 (ofBool on) = { (s.putBase (0x6010 + p) 1 (ofBool on)).portEnable p on with
      dict := { ((s.putBase (0x6010 + p) 1 (ofBool on)).portEnable p on).dict with answer := .ok false } } := by
  obtain ⟨hlen, hrange, hone⟩ := ofBool_fits 1 on
  obtain ⟨hobject, hrequest⟩ := findObject_portEnable p
  have hreact : ∀ u : State, u.cfg (0x6010 + p) 1 = leNat (ofBool on) → u.react (0x6010 + p) 1 = u.portEnable p on := by
    intro u hu
    unfold State.react
    dsimp only
    rw [if_neg (by omega), if_pos (by omega), if_pos rfl, hu, hone, Nat.add_sub_cancel_left]
  rw [State.dictWrite_plain hs hobject rfl hrequest hlen hrange (by omega) (by omega) (crossChecked_port p) (by omega) happlying hshadow
    (by omega), hreact _ (State.cfg_putBase_same (by decide) (by omega) hheld hshadow)]

/-- Enable 1 of a used DISABLED port starts training. -/
theorem State.portEnable_trains {s : State} {p : Nat} (hstate : (s.port p).state = .disabled) (hstage : 6 ≤ s.boot.stage)
    (hused : s.portUsed p = true) (hposition : s.boot.position.isSome = true) (hon : s.cfg (0x6010 + p) 1 = 1) :
    s.portEnable p true = s.train p := by
  unfold State.portEnable
  dsimp only
  rw [if_pos rfl, hstate]
  exact if_pos ⟨hstate, hstage, hused, hposition, hon⟩

theorem State.portEnable_drains {s : State} {p : Nat} (hstate : (s.port p).state = .up) :
    s.portEnable p false = s.setPort p { s.port p with state := .draining, since := s.clk.now } := by
  unfold State.portEnable
  dsimp only
  rw [if_neg (by decide), hstate]

theorem State.portUsed_putEnable {s : State} {p q : Nat} {v : List Byte} (hp : p < 10) :
    (s.putBase (0x6010 + p) 1 v).portUsed q = s.portUsed q := by
  unfold State.portUsed State.trays
  rw [State.cfg_putBase_other (by decide) (by omega) (by unfold objKey; omega)]

/-! ## Retraining -/

/-- Flits that leave one after another. -/
theorem State.emitFlits_eq {s : State} {p : Nat} {l : List Sent} :
    l.foldl (fun (s : State) x => s.emit (.flit p x.bytes)) s = { s with out := s.out ++ l.map fun x => .flit p x.bytes } := by
  induction l generalizing s with
  | nil => rw [List.foldl_nil, List.map_nil, List.append_nil]
  | cons x l ih =>
    rw [List.foldl_cons, ih, List.map_cons]
    exact congrArg (fun o => { s with out := o }) (List.append_assoc s.out [.flit p x.bytes] _)

/-- The port is UP again with its replay buffer, and all of it leaves once more before the stream is bound. -/
theorem State.resume_spec {s : State} {p : Nat} : ((s.resume p).port p).state = .up
    ∧ ∃ rest, (s.resume p).out = s.out ++ (s.port p).replay.map (fun x => .flit p x.bytes) ++ rest := by
  unfold State.resume
  dsimp only
  rw [State.resendRevokes_port, State.resendRevokes_only.out, State.emitFlits_eq, State.port_modPort]
  generalize hu : ({ (State.modPort _ p _) with out := _ } : State) = u
  obtain ⟨a, b, c, d, hport⟩ := State.bindStream_port (s := u) (p := p)
  obtain ⟨g, hout⟩ := State.bindStream_out (s := u) (p := p)
  have hup : (u.port p).state = .up := by rw [← hu, State.port_out, State.port_modPort, State.port_modPort]
  have hleft : u.out = s.out ++ (s.port p).replay.map fun x => .flit p x.bytes := by
    rw [← hu]
    dsimp only
    rw [List.map_map]
    rfl
  rw [hport, hout, hleft]
  exact ⟨hup, [.flit p g], rfl⟩

/-! ## Link-up and link-down -/

/-- Settles O44: every clause by what the port's operations leave of the port. -/
theorem portsComeUpAndGoDown : Obligations.PortsComeUpAndGoDown := by
  refine ⟨?enable, ?disable, ?trained, ?up, ?refused, ?retry, ?waits, ?drained, ?retrain, ?resumed, ?down⟩
  case enable =>
    intro via p s happlying hheld hshadow hstage hposition hused hstate
    have hon : (s.putBase (0x6010 + p) 1 (ofBool true)).cfg (0x6010 + p) 1 = 1 :=
      State.cfg_putBase_same (by decide) (by omega) hheld hshadow
    have htrain := State.portEnable_trains (s := s.putBase (0x6010 + p) 1 (ofBool true)) (p := p) hstate hstage
      ((State.portUsed_putEnable p.isLt).trans hused) hposition hon
    have hwrite := State.dictWrite_portEnable (via := via) (on := true) (by omega) happlying hheld hshadow
    rw [htrain] at hwrite
    obtain ⟨htraining, hgeneration, hlink, hreplay⟩ := State.train_port (s := s.putBase (0x6010 + p) 1 (ofBool true)) (p := p)
    exact Runs.of (congrArg Host.Outcome.next hwrite) ⟨htraining, hgeneration, hlink, hreplay, rfl⟩
  case disable =>
    intro via p s happlying hheld hshadow hstage hstate
    have hwrite := State.dictWrite_portEnable (via := via) (on := false) hstage happlying hheld hshadow
    rw [State.portEnable_drains (s := s.putBase (0x6010 + p) 1 (ofBool false)) (p := p) hstate] at hwrite
    refine Runs.of (congrArg Host.Outcome.next hwrite) ⟨?_, rfl⟩
    rw [State.port_dict, State.port_setPort]
    rfl
  case trained =>
    intro p s hstate hlink
    refine Runs.of (congrArg Host.Outcome.next (if_pos ⟨hstate, hlink⟩)) ⟨State.port_setPort, ?_⟩
    have hgeneration : ((s.setPort p { s.port p with linkSent := true }).port p).generation = (s.port p).generation := by rw [State.port_setPort]
    unfold State.sendLink State.linkPayload
    rw [hgeneration]
    rfl
  case up =>
    intro p f s hstate hlink hf hreason
    have hexec : exec (.linkFlit p f) s = .next _ := congrArg Host.Outcome.next ((if_pos ⟨hstate, hlink, hf⟩).trans (State.linkExchange_pass hreason))
    obtain ⟨hup, hneighbour, hbind, -⟩ := State.portUp_port (s := s.setPort p { s.port p with neighbour := field (flitPayload f) 4 8 }) (p := p)
    rw [State.port_setPort] at hneighbour
    exact Runs.of hexec ⟨hup, hneighbour, hbind⟩
  case refused =>
    intro p f r s hstate hlink hf hreason
    exact Runs.of (congrArg Host.Outcome.next ((if_pos ⟨hstate, hlink, hf⟩).trans (State.linkExchange_refuse hreason))) State.refusePort_port
  case retry =>
    intro p f s hstate hlate hf hreason
    have hdue : ¬(((s.port p).state ≠ .down ∧ (s.port p).state ≠ .refused) ∨ s.clk.now < (s.port p).since + 10000) := by
      rintro (⟨hdown, hrefused⟩ | hearly)
      · exact hstate.elim hdown hrefused
      · omega
    have hsent : ∀ v, ((s.setPort p v).sendLink p).linkReason p f = none := fun _ => hreason
    obtain ⟨u, hu⟩ : ∃ u, (s.setPort p { s.port p with generation := ((s.port p).generation + 1) % 65536 }).sendLink p = u := ⟨_, rfl⟩
    have hexec : exec (.linkUpRetry p (some f)) s
        = .next (((u.setPort p { u.port p with neighbour := field (flitPayload f) 4 8 }).resetLink p).portUp p) := by
      refine congrArg Host.Outcome.next ((if_neg hdue).trans ?_)
      dsimp only
      rw [if_neg (by rw [hf]; decide), hreason, ← hu]
      exact State.linkExchange_pass (hsent _)
    have hnext : (u.port p).generation = ((s.port p).generation + 1) % 65536 := by
      rw [← hu]
      exact congrArg Port.generation (State.port_emit.trans State.port_setPort)
    obtain ⟨hup, -, -, hgeneration⟩ :=
      State.portUp_port (s := (u.setPort p { u.port p with neighbour := field (flitPayload f) 4 8 }).resetLink p) (p := p)
    rw [State.resetLink_port, State.port_setPort] at hgeneration
    exact Runs.of hexec ⟨hup, hgeneration.trans hnext⟩
  case waits =>
    intro p s hstate hlate
    have hdue : ¬(((s.port p).state ≠ .down ∧ (s.port p).state ≠ .refused) ∨ s.clk.now < (s.port p).since + 10000) := by
      rintro (⟨hdown, hrefused⟩ | hearly)
      · exact hstate.elim hdown hrefused
      · omega
    exact congrArg Host.Outcome.next (if_neg hdue)
  case drained =>
    intro p s hstate hend
    have hdue : ¬((s.port p).state ≠ .draining ∨ ((s.port p).replay ≠ [] ∧ s.clk.now < (s.port p).since + 400)) := by
      rintro (hother | ⟨hreplay, hearly⟩)
      · exact hother hstate
      · exact hend.elim hreplay (by omega)
    have hexec : exec (.portDrainEnd p) s = .next _ := congrArg Host.Outcome.next (if_neg hdue)
    refine Runs.of hexec ?_
    cases hpending : (s.port p).pendingEnable
    · rw [if_neg (by decide), if_neg (by decide), State.port_modPort, State.resetLink_port]
      exact ⟨rfl, rfl⟩
    · rw [if_pos rfl, if_pos rfl]
      obtain ⟨htraining, -, -, hreplay⟩ := State.train_port
        (s := (s.resetLink p).modPort p fun v => { v with state := .disabled, pendingEnable := false }) (p := p)
      exact ⟨htraining, hreplay⟩
  case retrain => exact fun p s hstate hdue => congrArg Host.Outcome.next (if_pos ⟨hstate, hdue⟩)
  case resumed =>
    intro p f s hstate hsoon hf hreason
    have hsent : (s.sendLink p).linkReason p f = none := hreason
    have hexec : exec (.retrainDone p f) s = .next _ :=
      congrArg Host.Outcome.next ((if_pos ⟨hstate, hsoon, hf⟩).trans (State.linkExchange_pass hsent))
    obtain ⟨hup, rest, hout⟩ := State.resume_spec (s := (s.sendLink p).setPort p { (s.sendLink p).port p with neighbour := field (flitPayload f) 4 8 })
      (p := p)
    refine Runs.of hexec ⟨hup, rest, hout.trans ?_⟩
    rw [State.port_setPort]
    exact congrArg (· ++ rest) (List.append_assoc s.out [_] _)
  case down =>
    intro p s hstate hlate
    refine Runs.of (congrArg Host.Outcome.next (if_pos ⟨hstate, hlate⟩)) ?_
    rw [State.logPort_port, State.port_modPort, State.logPort_eq, State.logFrom_last]
    exact ⟨rfl, rfl, rfl⟩

end Sys2Proof.Machine
end

section
/-! Flits in sequence, acknowledgement, replay and delivery (R198, R201, R207, R211). -/

namespace Sys2Proof.Machine

/-! ## Accepting a flit -/

/-- An accepted flit moves the expected sequence number; what it carries along concerns the replay buffer and the credits. -/
theorem State.acceptFlit_port {s : State} {p : Nat} {f : List Byte} : ∃ a b c, (s.acceptFlit p f).port p = { s.port p with
    rxSeq := ((s.port p).rxSeq + 1) % 4096, nakSent := false, rxAny := true, replay := a, ackTime := b, units := c } := by
  obtain ⟨a, b, c, h⟩ := State.takeFields_port (s := s.modPort p fun v => { v with rxSeq := (v.rxSeq + 1) % 4096, nakSent := false, rxAny := true })
    (p := p) (f := f)
  refine ⟨a, b, c, h.trans ?_⟩
  rw [State.port_modPort]

theorem State.acceptFlit_fab {s : State} {p : Nat} {f : List Byte} :
    (s.acceptFlit p f).fab = { s.fab with ports := (s.acceptFlit p f).fab.ports } := by
  unfold State.acceptFlit
  rw [State.takeFields_fab]
  rfl

theorem State.acceptFlit_out {s : State} {p : Nat} {f : List Byte} : (s.acceptFlit p f).out = s.out :=
  State.takeFields_only.out

/-- A flit in sequence is used, and answered with an acknowledgement. -/
theorem State.sequenced_accepted {s : State} {p : Nat} {f : List Byte} {use : State → State} (hcrc : flitCrcOk f = true)
    (harrival : (s.port p).arrival f = .accepted) : s.sequenced p f use = (use (s.acceptFlit p f)).acknowledge p 9 := by
  unfold State.sequenced
  rw [if_neg (by rw [hcrc]; decide), harrival]

theorem State.sequenced_duplicate {s : State} {p : Nat} {f : List Byte} {use : State → State} (hcrc : flitCrcOk f = true)
    (harrival : (s.port p).arrival f = .duplicate) : s.sequenced p f use = s := by
  unfold State.sequenced
  rw [if_neg (by rw [hcrc]; decide), harrival]

theorem exec_dataFlit {s : State} {p : Fin 10} {f : List Byte} (hreceives : (s.port p).receives = true)
    (hkind : flitKind f = 1) : exec (.dataFlit p f) s = .next (s.sequenced p f fun s => s.dataArrives p f) := by
  have hother : ¬(flitCrcOk f = true ∧ (flitKind f = 0 ∨ flitKind f = 2 ∨ flitKind f = 3)) := by
    rw [hkind]
    simp
  exact congrArg Host.Outcome.next ((if_neg (by rw [hreceives]; decide)).trans ((if_neg hother).trans (if_pos hkind)))

/-! ## Messages -/

/-- Only the codec's tables in force matter for a message's decoded form. -/
theorem Port.decode_codec {v w : Port} {m : List Byte} (h : v.codec = w.codec) : v.decode m = w.decode m := by
  unfold Port.decode Port.tables Port.slotOf
  rw [h]

/-- A first flit that is not the last is a partial message of its channel. -/
theorem State.dataArrives_first {s : State} {p : Nat} {f : List Byte} (hsom : flitSom f = true) (heom : flitEom f = false) :
    s.dataArrives p f = s.setPort p { s.port p with partials := Map.put (s.port p).partials (flitChannel f) (flitPayload f) } := by
  unfold State.dataArrives State.modPort
  dsimp only
  rw [if_pos hsom, if_neg (by rw [heom]; decide), List.nil_append]

theorem State.oweUnits_port {s : State} {p k n : Nat} :
    (s.oweUnits p k n).port p = { s.port p with owed := Map.put (s.port p).owed k (Map.getD (s.port p).owed k 0 + n) } := State.port_modPort

/-- A whole message for this device is in the inbox, and its receive units are owed. -/
theorem State.messageArrives_here {s : State} {p key : Nat} {w bytes : List Byte} (hdecode : (s.port p).decode w = .ok bytes)
    (hdest : s.deviceId = some (msgDest bytes)) :
    (s.messageArrives p key w).fab.inbox = s.fab.inbox ++ [{ bytes := bytes, channel := key % 4, cls := key / 4, ringHop := p == 7 || p == 8 }]
      ∧ ∃ b, (s.messageArrives p key w).port p = { s.port p with owed := b } := by
  unfold State.messageArrives
  dsimp only
  rw [hdecode]
  dsimp only
  rw [if_pos hdest]
  exact ⟨rfl, _, State.oweUnits_port⟩

/-- A message of one flit, complete and no longer than its flit. -/
theorem State.dataArrives_whole {s : State} {p : Nat} {f bytes : List Byte} (hsom : flitSom f = true) (heom : flitEom f = true)
    (hlo : 16 ≤ field (flitPayload f) 6 2) (hfits : field (flitPayload f) 6 2 ≤ (flitPayload f).length)
    (hends : (flitPayload f).length < field (flitPayload f) 6 2 + 244)
    (hdecode : (s.port p).decode ((flitPayload f).take (field (flitPayload f) 6 2)) = .ok bytes) (hdest : s.deviceId = some (msgDest bytes)) :
    (s.dataArrives p f).fab.inbox = s.fab.inbox ++ [{ bytes := bytes, channel := flitChannel f % 4, cls := flitChannel f / 4,
                                                      ringHop := p == 7 || p == 8 }]
      ∧ ∃ a b, (s.dataArrives p f).port p = { s.port p with partials := a, owed := b } := by
  have hwhole : ¬((flitPayload f).length < field (flitPayload f) 6 2 ∨ field (flitPayload f) 6 2 + 244 ≤ (flitPayload f).length) := by omega
  have hport : (s.modPort p fun v => { v with partials := Map.del v.partials (flitChannel f) }).port p
      = { s.port p with partials := Map.del (s.port p).partials (flitChannel f) } := State.port_modPort
  have harrives : s.dataArrives p f = (s.modPort p fun v => { v with partials := Map.del v.partials (flitChannel f) }).messageArrives p
      (flitChannel f) ((flitPayload f).take (field (flitPayload f) 6 2)) := by
    unfold State.dataArrives
    dsimp only
    rw [if_pos hsom, if_pos heom, List.nil_append, if_neg hwhole, Nat.max_eq_left hlo]
  obtain ⟨hinbox, owed, howed⟩ := State.messageArrives_here (key := flitChannel f)
    (((congrArg (fun v : Port => v.decode _) hport).trans (Port.decode_codec rfl)).trans hdecode) hdest
  rw [harrives, howed, hport]
  exact ⟨hinbox, _, owed, rfl⟩

/-! ## Resending -/

/-- The replay buffer leaves again, and each of its flits counts one more resend. -/
theorem State.resend_all {s : State} {p : Nat} (h : ∀ x ∈ (s.port p).replay, x.resends < 8) :
    (s.resend p).out = s.out ++ (s.port p).replay.map (fun x => .flit p x.bytes)
      ∧ ((s.resend p).port p).replay = (s.port p).replay.map (fun x => { x with resends := x.resends + 1 })
      ∧ ((s.port p).replay ≠ [] → ((s.resend p).port p).replays = ((s.port p).replays + 1) % 2 ^ 32) := by
  have hfresh : ((s.port p).replay.any fun x => decide (8 ≤ x.resends)) = false := by
    simp only [List.any_eq_false, decide_eq_true_eq]
    exact fun x hx => by have := h x hx; omega
  unfold State.resend
  dsimp only
  by_cases hempty : (s.port p).replay = []
  · rw [if_pos hempty, hempty]
    exact ⟨by simp, rfl, fun h => absurd rfl h⟩
  · rw [if_neg hempty, hfresh, if_neg (by decide), State.emitFlits_eq]
    generalize hv : ({ s.port p with replay := _, ackTime := _, replays := _ } : Port) = v
    have hport : ∀ o, ({ s.setPort p v with out := o } : State).port p = v := fun _ => State.port_setPort
    rw [hport, ← hv]
    exact ⟨rfl, rfl, fun _ => rfl⟩

/-! ## The commands of a flit -/

theorem flit_not_nak {s : State} {p : Nat} {f : List Byte} {other : State} (hcrc : flitCrcOk f = true) :
    (if flitCrcOk f = false then s.sendNak p else other) = other := if_neg (by rw [hcrc]; decide)

/-- A damaged flit is answered with a NAK, once for the gap. -/
theorem exec_dataFlit_damaged {s : State} {p : Fin 10} {f : List Byte} (hreceives : (s.port p).receives = true) (hcrc : flitCrcOk f = false) :
    exec (.dataFlit p f) s = .next (s.sendNak p) := by
  have hother : ¬(flitCrcOk f = true ∧ (flitKind f = 0 ∨ flitKind f = 2 ∨ flitKind f = 3)) := by simp [hcrc]
  refine congrArg Host.Outcome.next ((if_neg (by rw [hreceives]; decide)).trans ((if_neg hother).trans ?_))
  split
  · exact if_pos hcrc
  · rfl

/-- Settles O45: each flit by how it meets the receiver, each resend by the buffer, and a delivery by its destination. -/
theorem flitsArriveInSequence : Obligations.FlitsArriveInSequence := by
  refine ⟨?first, ?whole, ?duplicate, ?damaged, ?idle, ?nak, ?timeout, ?deliver⟩
  case first =>
    intro p f s hreceives hcrc hkind harrival hsom heom
    have hexec := exec_dataFlit (f := f) hreceives hkind
    rw [State.sequenced_accepted hcrc harrival, State.dataArrives_first hsom heom] at hexec
    obtain ⟨a, b, c, haccepted⟩ := State.acceptFlit_port (s := s) (p := p) (f := f)
    have hout := State.acceptFlit_out (s := s) (p := p) (f := f)
    generalize s.acceptFlit p f = u at hexec haccepted hout
    rw [haccepted] at hexec
    generalize hv : ({ s.port p with rxSeq := _, nakSent := false, rxAny := true, replay := a, ackTime := b, units := c } : Port) = v at hexec
    obtain ⟨o, hport⟩ := State.acknowledge_port (s := u.setPort p { v with partials := Map.put v.partials (flitChannel f) (flitPayload f) })
      (p := p) (n := 9)
    obtain ⟨g, rest, hleft⟩ := State.acknowledge_out (s := u.setPort p { v with partials := Map.put v.partials (flitChannel f) (flitPayload f) })
      (p := p) (n := 8)
    refine Runs.of hexec ⟨?_, ?_, ?_, g, rest, hleft.trans (congrArg (· ++ _) hout)⟩ <;> rw [hport, State.port_setPort, ← hv]
  case whole =>
    intro p f bytes s hreceives hcrc hkind harrival hsom heom hlo hfits hends hdecode hdest
    have hexec := exec_dataFlit (f := f) hreceives hkind
    rw [State.sequenced_accepted hcrc harrival] at hexec
    obtain ⟨a, b, c, haccepted⟩ := State.acceptFlit_port (s := s) (p := p) (f := f)
    have hfab := State.acceptFlit_fab (s := s) (p := p) (f := f)
    have hboot : (s.acceptFlit p f).boot = s.boot := State.acceptFlit_only.boot
    generalize s.acceptFlit p f = u at hexec haccepted hfab hboot
    have hdecode' : (u.port p).decode ((flitPayload f).take (field (flitPayload f) 6 2)) = .ok bytes :=
      ((congrArg (fun v : Port => v.decode _) haccepted).trans (Port.decode_codec rfl)).trans hdecode
    obtain ⟨hinbox, d, e, hport⟩ := State.dataArrives_whole hsom heom hlo hfits hends hdecode' ((State.deviceId_boot hboot).trans hdest)
    obtain ⟨o, hacked⟩ := State.acknowledge_port (s := u.dataArrives p f) (p := p) (n := 9)
    refine Runs.of hexec ?_
    rw [hacked, State.acknowledge_fab, hport, haccepted]
    exact ⟨hinbox.trans (by rw [hfab]), rfl⟩
  case duplicate =>
    intro p f s hreceives hcrc hkind harrival
    exact (exec_dataFlit hreceives hkind).trans (congrArg Host.Outcome.next (State.sequenced_duplicate hcrc harrival))
  case damaged =>
    intro p f s hreceives hcrc
    obtain ⟨hnak, hseq⟩ := State.sendNak_port (s := s) (p := p)
    refine Runs.of (exec_dataFlit_damaged hreceives hcrc) ⟨hnak, hseq, fun hsent => ?_, fun hfresh => ?_⟩
    · unfold State.sendNak
      rw [if_pos hsent]
    · unfold State.sendNak
      rw [if_neg (by rw [hfresh]; decide)]
      exact State.sendIdle_out
  case idle =>
    intro p f i s hreceives hcrc hkind hnak hvalid hi
    obtain ⟨hreplay, htime⟩ := State.takeFields_replay hvalid hi
    have hexec : exec (.idleFlit p f) s = .next (s.takeFields p f) :=
      congrArg Host.Outcome.next ((if_neg (by rw [hreceives]; decide)).trans ((flit_not_nak hcrc).trans (if_pos ⟨hkind, hnak⟩)))
    exact Runs.of hexec ⟨hreplay, htime, State.takeFields_only.out⟩
  case nak =>
    intro p f i s hreceives hcrc hkind hnak hvalid hi hfresh
    obtain ⟨hreplay, -⟩ := State.takeFields_replay hvalid hi
    have hexec : exec (.nak p f) s = .next ((s.takeFields p f).resend p) :=
      congrArg Host.Outcome.next ((if_neg (by rw [hreceives]; decide)).trans ((flit_not_nak hcrc).trans (if_pos ⟨hkind, hnak⟩)))
    have hout : (s.takeFields p f).out = s.out := State.takeFields_only.out
    obtain ⟨hleft, hcounts, -⟩ := State.resend_all (s := s.takeFields p f) (p := p) (hreplay ▸ hfresh)
    rw [hreplay] at hleft hcounts
    exact Runs.of hexec ⟨hleft.trans (congrArg (· ++ _) hout), hcounts⟩
  case timeout =>
    intro p s hreceives hlate hreplay hfresh
    obtain ⟨hleft, hcounts, hreplays⟩ := State.resend_all hfresh
    exact Runs.of (congrArg Host.Outcome.next (if_pos ⟨hreceives, hreplay, hlate⟩)) ⟨hleft, hcounts, hreplays hreplay⟩
  case deliver =>
    intro i m s hm hsource hdest
    have hbytes : s.stampSource m = m.bytes := if_neg fun h => hsource h.2.1
    have hexec : exec (.messageForward i) s = .next (s.forward i m) := by
      change execMessageForward i s = _
      unfold execMessageForward
      rw [hm]
    refine Runs.of hexec ?_
    unfold State.forward
    dsimp only
    rw [hbytes, if_pos hdest]
    unfold State.unitsBack
    cases hport : m.port with
    | none => exact ⟨rfl, rfl⟩
    | some q => exact ⟨rfl, rfl⟩

end Sys2Proof.Machine
end

section
/-! The exponent codec's tables and the binding of a stream (R199, R219, R220). -/

namespace Sys2Proof.Machine

/-! ## Table images -/

/-- A table image that passes its checks has one of the lengths of its object. -/
theorem checkTableImage_length {image : List Byte} {table : Option CodecTable} (h : checkTableImage image = .ok table) :
    image.length = 0 ∨ image.length = 36 ∨ image.length = 148 := by
  unfold checkTableImage at h
  dsimp only at h
  by_cases hempty : image = []
  · exact .inl (hempty ▸ rfl)
  · rw [if_neg hempty] at h
    by_cases hlength : image.length ≠ 148 ∧ image.length ≠ 36
    · rw [if_pos hlength] at h
      cases h
    · omega

/-- The table image objects. -/
def imageIndex (p : Fin 10) (slot : Fin 32) : Nat := 0x6100 + 32 * p + slot

theorem imageIndex_range (p : Fin 10) (slot : Fin 32) : 0x6100 ≤ imageIndex p slot ∧ imageIndex p slot < 0x6240 := by
  unfold imageIndex
  omega

theorem findObject_image {ix : Nat} (hlo : 0x6100 ≤ ix) (hhi : ix < 0x6240) : (findObject ix 1).toOption = some (dom .rw [0, 36, 148] 148) := by
  have hshape : shapeOf ix = some (.record [dom .rw [0, 36, 148] 148, num .u32 .ro 0]) := by
    unfold shapeOf
    rw [show ix / 4096 = 6 by omega]
    change shape6 ix = _
    unfold shape6
    rw [if_neg (by omega), if_neg (by omega), if_neg (by omega), if_pos ⟨hlo, hhi⟩]
  unfold findObject
  rw [hshape]
  rfl

/-- An image that passes its checks, written out of a transition and not shadowed, goes into its codec slot. -/
theorem State.dictWrite_image {s : State} {via : Transport} {p : Fin 10} {slot : Fin 32} {image : List Byte} {table : Option CodecTable}
    (hs : 4 ≤ s.boot.stage) (happlying : s.dict.applying = false) (hheld : s.dict.heldOld = [])
    (hshadow : s.shadowed (imageIndex p slot) 1 = false) (himage : checkTableImage image = .ok table) :
    s.dictWrite via (imageIndex p slot) 1 image = { (s.putBase (imageIndex p slot) 1 image).loadTable p slot image table with
      dict := { ((s.putBase (imageIndex p slot) 1 image).loadTable p slot image table).dict with answer := .ok false } } := by
  obtain ⟨hlo, hhi⟩ := imageIndex_range p slot
  have hport : (imageIndex p slot - 0x6100) / 32 = p := by unfold imageIndex; omega
  have hslot : (imageIndex p slot - 0x6100) % 32 = slot := by unfold imageIndex; omega
  have hkey : objKey (imageIndex p slot) 1 / 256 = imageIndex p slot ∧ objKey (imageIndex p slot) 1 % 256 = 1 := by unfold objKey; omega
  generalize imageIndex p slot = ix at hlo hhi hport hslot hkey hshadow ⊢
  have hlength : lengthOk (dom .rw [0, 36, 148] 148) image = true := by
    obtain h | h | h := checkTableImage_length himage <;> simp [lengthOk, dom, ObjType.size, h]
  have hrequest : isRequest ix 1 = false := by
    unfold isRequest
    simp
    omega
  have hcross : crossChecked.contains ix = false := by
    simp [crossChecked]
    omega
  have hcheck : s.baseCheck ix 1 (dom .rw [0, 36, 148] 148) image = none := by
    unfold State.baseCheck valueOk State.overlayCheck
    rw [show rangeOk (dom .rw [0, 36, 148] 148) image = true from rfl, if_neg (by decide), if_pos ⟨hlo, hhi⟩, himage]
    dsimp only
    rw [if_pos (by omega), State.crossCheck_plain hcross]
  have hloaded : ∀ u : State, u.acted ix 1 = image → u.react ix 1 = u.loadTable p slot image table := by
    intro u hu
    unfold State.react
    dsimp only
    rw [if_neg (by omega), if_neg (by omega), if_neg (by omega), if_pos ⟨hlo, hhi⟩, hu]
    unfold State.loadImage
    dsimp only
    rw [hkey.1, hkey.2, if_pos ⟨hlo, hhi, rfl⟩, himage, hport, hslot]
  rw [State.dictWrite_base hs (findObject_image hlo hhi) (.inl rfl) hrequest (by omega) hlength hcheck (overlayModeOf_none (by omega))
    (State.transitionRefuses_idle happlying (by omega)), State.baseWrite_of hshadow happlying, hshadow,
    hloaded _ (State.acted_putBase_same (by decide) (by omega) hheld hshadow)]

theorem Port.slotOf_put {v : Port} {i : Nat} {x : CodecSlot} : Port.slotOf { v with codec := Map.put v.codec i x } i = x := Map.getD_put_same

/-- A table goes into its slot; a port that is not UP has no stream to bind. -/
theorem State.loadTable_slot {s : State} {p slot : Nat} {image : List Byte} {table : Option CodecTable} (h : (s.port p).state ≠ .up) :
    ((s.loadTable p slot image table).port p).slotOf slot
      = if slot < 16 then { (s.port p).slotOf slot with image := image, table := table }
        else { (s.port p).slotOf slot with image := image, staged := some table } := by
  obtain ⟨f, hload, hf⟩ : ∃ f : Port → Port, s.loadTable p slot image table = s.modPort p f ∧ f (s.port p) = { s.port p with
      codec := Map.put (s.port p).codec slot (if slot < 16 then { (s.port p).slotOf slot with image := image, table := table }
        else { (s.port p).slotOf slot with image := image, staged := some table }) } :=
    ⟨_, if_neg fun hup => h ((congrArg Port.state State.port_modPort).symm.trans hup.1), rfl⟩
  rw [hload, State.port_modPort, hf]
  exact Port.slotOf_put

/-! ## Binding -/

theorem Map.get?_map {α β : Type} {m : Map α} {g : Nat → α → β} {i : Nat} :
    Map.get? (m.map fun (e : Nat × α) => (e.1, g e.1 e.2)) i = (Map.get? m i).map (g i) := by
  induction m with
  | nil => rfl
  | cons e m ih =>
    obtain ⟨k, v⟩ := e
    rw [List.map_cons]
    unfold Map.get?
    dsimp only
    split
    · next h => rw [h]; rfl
    · exact ih

/-- What a BIND makes of a codec slot: the staged table of a receive slot is in force. -/
def CodecSlot.bound (i : Nat) (x : CodecSlot) : CodecSlot := if 16 ≤ i then { x with table := x.staged.getD x.table, staged := none } else x

theorem Port.slotOf_bound {v w : Port} {i : Nat} (hi : 16 ≤ i)
    (h : w.codec = v.codec.map fun (e : Nat × CodecSlot) => (e.1, CodecSlot.bound e.1 e.2)) :
    w.slotOf i = { v.slotOf i with table := (v.slotOf i).staged.getD (v.slotOf i).table, staged := none } := by
  unfold Port.slotOf Map.getD
  rw [h, Map.get?_map]
  cases Map.get? v.codec i with
  | none => rfl
  | some x => exact if_pos hi

theorem sumNat_eq_zero {l : List Nat} : sumNat l = 0 ↔ ∀ n ∈ l, n = 0 := by
  have hsum : sumNat l = l.sum := List.sum_eq_foldl.symm
  rw [hsum]
  clear hsum
  induction l with
  | nil => exact ⟨fun _ n hn => absurd hn List.not_mem_nil, fun _ => rfl⟩
  | cons a l ih =>
    rw [List.sum_cons]
    refine ⟨fun h n hn => ?_, fun h => Nat.add_eq_zero_iff.mpr ⟨h a List.mem_cons_self, ih.mpr fun n hn => h n (List.mem_cons_of_mem a hn)⟩⟩
    obtain ⟨ha, hl⟩ := Nat.add_eq_zero_iff.mp h
    exact (List.mem_cons.mp hn).elim (fun e => e.trans ha) (ih.mp hl n)

/-- The mask of the triples that differ is empty where all 16 agree. -/
theorem mask_eq_zero {b : List Byte} {mine : List (List Byte)} :
    sumNat ((List.range 16).map fun i => if slice b (8 + 6 * i) 6 == mine.getD i [] then 0 else 2 ^ i) = 0
      ↔ (List.range 16).all (fun i => slice b (8 + 6 * i) 6 == mine.getD i []) = true := by
  rw [sumNat_eq_zero, List.all_eq_true]
  simp only [List.mem_map, forall_exists_index, and_imp, forall_apply_eq_imp_iff₂]
  refine forall_congr' fun i => forall_congr' fun _ => ?_
  cases slice b (8 + 6 * i) 6 == mine.getD i [] <;> simp

theorem Port.triples_get {v : Port} {base i : Nat} (hi : i < 16) : (v.triples base).getD i [] = triple i (v.slotOf (base + i)).table := by
  unfold Port.triples
  rw [List.getD_eq_getElem?_getD, List.getElem?_map, List.getElem?_range hi]
  rfl

/-- BIND puts the staged tables into force and compares the triples. -/
theorem State.applyBind_port {s : State} {p : Nat} {b : List Byte} :
    ((s.applyBind p b).port p).rxSeq = (s.port p).rxSeq
      ∧ (∀ i < 16, ((s.applyBind p b).port p).slotOf (16 + i) = { (s.port p).slotOf (16 + i) with
          table := ((s.port p).slotOf (16 + i)).staged.getD ((s.port p).slotOf (16 + i)).table, staged := none })
      ∧ ((s.applyBind p b).port p).rxBind = if (List.range 16).all (fun i => slice b (8 + 6 * i) 6
          == triple i (((s.port p).slotOf (16 + i)).staged.getD ((s.port p).slotOf (16 + i)).table)) then 1 else 2 := by
  unfold State.applyBind
  dsimp only
  generalize hu : s.modPort p _ = u
  have hbound : (u.port p).codec = (s.port p).codec.map fun (e : Nat × CodecSlot) => (e.1, CodecSlot.bound e.1 e.2) := by
    rw [← hu, State.port_modPort]
    rfl
  have hseq : (u.port p).rxSeq = (s.port p).rxSeq := by rw [← hu, State.port_modPort]
  have hslot : ∀ i, (u.port p).slotOf (16 + i) = { (s.port p).slotOf (16 + i) with
      table := ((s.port p).slotOf (16 + i)).staged.getD ((s.port p).slotOf (16 + i)).table, staged := none } := fun i =>
    Port.slotOf_bound (Nat.le_add_right 16 i) hbound
  obtain ⟨a, b', c, d, hport⟩ := State.sendSequenced_port (p := p) (kind := 3) (channel := 0)
    (s := u.modPort p fun v => { v with rxBind := if sumNat ((List.range 16).map fun i =>
      if slice b (8 + 6 * i) 6 == ((u.port p).triples 16).getD i [] then 0 else 2 ^ i) = 0 then 1 else 2 })
    (payload := ctrlPayload (if sumNat ((List.range 16).map fun i =>
      if slice b (8 + 6 * i) 6 == ((u.port p).triples 16).getD i [] then 0 else 2 ^ i) = 0 then 2 else 3) (field b 2 2)
      (sumNat ((List.range 16).map fun i => if slice b (8 + 6 * i) 6 == ((u.port p).triples 16).getD i [] then 0 else 2 ^ i)) [])
  rw [hport, State.port_modPort]
  refine ⟨hseq, fun i _ => hslot i, ?_⟩
  have htriples : (List.range 16).all (fun i => slice b (8 + 6 * i) 6 == ((u.port p).triples 16).getD i [])
      = (List.range 16).all (fun i => slice b (8 + 6 * i) 6
          == triple i (((s.port p).slotOf (16 + i)).staged.getD ((s.port p).slotOf (16 + i)).table)) := by
    rw [Bool.eq_iff_iff, List.all_eq_true, List.all_eq_true]
    refine forall_congr' fun i => forall_congr' fun hi => ?_
    rw [Port.triples_get (List.mem_range.mp hi), hslot]
  simp only [mask_eq_zero, htriples]

theorem Port.slotOf_codec {v w : Port} {i : Nat} (h : w.codec = v.codec) : w.slotOf i = v.slotOf i := by
  unfold Port.slotOf
  rw [h]

theorem Port.answers_number {v w : Port} {b : List Byte} (h : w.bindNo = v.bindNo) : w.answers b = v.answers b := by
  unfold Port.answers
  rw [h]

/-- Settles O46: an image by its slot, a BIND by the triples, an answer by its number. -/
theorem codecStreamsAreBound : Obligations.CodecStreamsAreBound := by
  refine ⟨?image, ?bind, ?ack, ?refuse⟩
  case image =>
    intro via p slot image table s happlying hheld hshadow hs himage hdown
    refine Runs.of (congrArg Host.Outcome.next (State.dictWrite_image hs happlying hheld hshadow himage)) ⟨?_, rfl⟩
    rw [State.port_dict]
    exact State.loadTable_slot hdown
  case bind =>
    intro p f s hreceives hcrc hkind harrival htype hzero
    have hexec : exec (.bind p f) s = .next (((s.acceptFlit p f).applyBind p (flitPayload f)).acknowledge p 9) := by
      have htaken : ¬((s.port p).receives = false ∨ flitKind f ≠ 3 ∨ (flitCrcOk f = true
          ∧ (field (flitPayload f) 0 1 = 2 ∨ field (flitPayload f) 0 1 = 3))) := by simp [hreceives, hkind, htype]
      refine congrArg Host.Outcome.next ((if_neg htaken).trans ((State.sequenced_accepted hcrc harrival).trans ?_))
      rw [if_pos ⟨htype, hzero⟩]
    obtain ⟨a, b, c, haccepted⟩ := State.acceptFlit_port (s := s) (p := p) (f := f)
    obtain ⟨hseq, hslots, hbind⟩ := State.applyBind_port (s := s.acceptFlit p f) (p := p) (b := flitPayload f)
    obtain ⟨o, hport⟩ := State.acknowledge_port (s := (s.acceptFlit p f).applyBind p (flitPayload f)) (p := p) (n := 9)
    have hkept : ∀ i, ((s.acceptFlit p f).port p).slotOf i = (s.port p).slotOf i := fun i => Port.slotOf_codec (by rw [haccepted])
    simp only [hkept] at hslots hbind
    rw [haccepted] at hseq
    generalize (s.acceptFlit p f).applyBind p (flitPayload f) = u at hexec hseq hslots hbind hport
    refine Runs.of hexec ?_
    rw [hport]
    exact ⟨hseq, fun i => (Port.slotOf_codec rfl).trans (hslots i i.isLt), hbind⟩
  case ack =>
    intro p f s hreceives hcrc hkind harrival htype hzero hanswers
    obtain ⟨a, b, c, haccepted⟩ := State.acceptFlit_port (s := s) (p := p) (f := f)
    have hmine : ((s.acceptFlit p f).port p).answers (flitPayload f) = true :=
      (Port.answers_number (by rw [haccepted])).trans hanswers
    have hexec : exec (.bindAck p f) s = .next (((s.acceptFlit p f).modPort p fun v => { v with txBind := 1 }).acknowledge p 9) := by
      have htaken : ¬((s.port p).receives = false ∨ flitKind f ≠ 3 ∨ (flitCrcOk f = true ∧ field (flitPayload f) 0 1 ≠ 2)) := by
        simp [hreceives, hkind, htype]
      refine congrArg Host.Outcome.next ((if_neg htaken).trans ((State.sequenced_accepted hcrc harrival).trans ?_))
      rw [if_neg (by rw [hzero]; decide), if_pos hmine]
    obtain ⟨o, hport⟩ := State.acknowledge_port (s := (s.acceptFlit p f).modPort p fun v => { v with txBind := 1 }) (p := p) (n := 9)
    refine Runs.of hexec ?_
    rw [hport, State.port_modPort, haccepted]
    exact ⟨rfl, rfl, State.acknowledge_only.log.trans State.acceptFlit_only.log⟩
  case refuse =>
    intro p f s hreceives hcrc hkind harrival htype hzero hanswers
    obtain ⟨a, b, c, haccepted⟩ := State.acceptFlit_port (s := s) (p := p) (f := f)
    have hlog : (s.acceptFlit p f).log = s.log := State.acceptFlit_only.log
    have hmine : ((s.acceptFlit p f).port p).answers (flitPayload f) = true :=
      (Port.answers_number (by rw [haccepted])).trans hanswers
    have hexec : exec (.bindRefuse p f) s = .next ((((s.acceptFlit p f).modPort p fun v => { v with txBind := 2 }).logPort p 0x0602
        (toLE 2 (field (flitPayload f) 4 2))).acknowledge p 9) := by
      have htaken : ¬((s.port p).receives = false ∨ flitKind f ≠ 3 ∨ (flitCrcOk f = true ∧ field (flitPayload f) 0 1 ≠ 3)) := by
        simp [hreceives, hkind, htype]
      refine congrArg Host.Outcome.next ((if_neg htaken).trans ((State.sequenced_accepted hcrc harrival).trans ?_))
      rw [if_neg (by rw [hzero]; decide), if_pos hmine]
    generalize hu : (s.acceptFlit p f).modPort p (fun v => { v with txBind := 2 }) = u at hexec
    have hsent : u.port p = { (s.acceptFlit p f).port p with txBind := 2 } := by rw [← hu, State.port_modPort]
    have hlast : u.log = s.log := by
      rw [← hu]
      exact hlog
    obtain ⟨o, hport⟩ := State.acknowledge_port (s := u.logPort p 0x0602 (toLE 2 (field (flitPayload f) 4 2))) (p := p) (n := 9)
    refine Runs.of hexec ?_
    rw [hport, State.logPort_port, hsent, haccepted, State.acknowledge_only.log, State.logPort_eq, State.logFrom_last, hlast]
    exact ⟨rfl, rfl, rfl⟩

end Sys2Proof.Machine
end

section
/-! The array of a tile (O47): one rule for every instruction of the extension that steps past itself, then the sums of the dot array. -/

namespace Sys2Proof.Machine

/-! ## An instruction of the extension -/

@[simp] theorem Tile.setX_pc (v : Tile) (r : Nat) (x : BitVec 32) : (v.setX r x).pc = v.pc := by
  unfold Tile.setX; split <;> rfl

@[simp] theorem Tile.setX_accs (v : Tile) (r : Nat) (x : BitVec 32) : (v.setX r x).accs = v.accs := by
  unfold Tile.setX; split <;> rfl

theorem Tile.x_setX_same (v : Tile) {r : Nat} (x : BitVec 32) (hr : r ≠ 0) : (v.setX r x).x r = x := by
  unfold Tile.x Tile.setX
  rw [if_neg hr, if_neg hr]
  exact Map.getD_put_same

/-- The instruction at the program counter is the one that runs. -/
theorem State.extStep_of {s : State} {t w : Nat} {e : TileEvent} {o : ExtOp} (h : s.extAt t = some (e, o, w)) :
    s.extStep t o = s.afterInstr t (s.extRun t e o w) := by
  unfold State.extStep
  rw [h]
  exact if_pos rfl

/-- An instruction that steps leaves its tile there, its program counter past it, unless the entry returns. -/
theorem State.afterInstr_stepped (s u : State) {t : Nat} {v : Tile} (hpc : v.pc + 4 ≠ returnAddress) :
    s.afterInstr t (u.stepped t v) = u.setTile t { v with pc := v.pc + 4 } := by
  refine if_neg ?_
  rw [State.tile_setTile]
  exact hpc

theorem State.extStep_stepped {s u : State} {t w : Nat} {e : TileEvent} {o : ExtOp} {v : Tile} (h : s.extAt t = some (e, o, w))
    (hrun : s.extRun t e o w = u.stepped t v) (hpc : v.pc + 4 ≠ returnAddress) :
    s.extStep t o = u.setTile t { v with pc := v.pc + 4 } := by
  rw [State.extStep_of h, hrun, State.afterInstr_stepped s u hpc]

/-- An instruction whose result goes to an x-register. -/
theorem State.extStep_setX {s : State} {t w : Nat} {e : TileEvent} {o : ExtOp} {r : Nat} {x : BitVec 32} (h : s.extAt t = some (e, o, w))
    (hrun : s.extRun t e o w = s.stepped t ((s.tile t).setX r x)) (hpc : (s.tile t).pc + 4 ≠ returnAddress) :
    s.extStep t o = s.setTile t { (s.tile t).setX r x with pc := (s.tile t).pc + 4 } := by
  rw [State.extStep_stepped h hrun (by rwa [Tile.setX_pc]), Tile.setX_pc]

/-- An instruction whose result goes to a d-register. -/
theorem State.extStep_setD {s : State} {t w : Nat} {e : TileEvent} {o : ExtOp} {r : Nat} {x : BitVec 64} (h : s.extAt t = some (e, o, w))
    (hrun : s.extRun t e o w = s.stepped t ((s.tile t).setD r x)) (hpc : (s.tile t).pc + 4 ≠ returnAddress) :
    s.extStep t o = s.setTile t { (s.tile t).setD r x with pc := (s.tile t).pc + 4 } :=
  State.extStep_stepped h hrun hpc

/-! ## Accumulators -/

theorem Tile.acc_setAcc_same (v : Tile) (a : Nat) (x : Acc) : (v.setAcc a x).acc a = x := Map.getD_put_same

theorem Tile.acc_setAcc_other (v : Tile) {a b : Nat} (x : Acc) (h : b ≠ a) : (v.setAcc a x).acc b = v.acc b := Map.getD_put_other h.symm

/-- XDOT's and XDSQ's pass over their vectors, each with its place: accumulator `a` and those after it take the vectors in turn. -/
def Tile.addVectors (a : Nat) (g : Acc → List Byte → Nat → Acc) (v : Tile) (l : List (List Byte × Nat)) : Tile :=
  l.foldl (fun (v : Tile) x => v.setAcc (a + x.2) (g (v.acc (a + x.2)) x.1 x.2)) v

theorem Tile.addVectors_pc {a : Nat} {g : Acc → List Byte → Nat → Acc} (v : Tile) (l : List (List Byte × Nat)) : (v.addVectors a g l).pc = v.pc := by
  induction l generalizing v with
  | nil => rfl
  | cons x l ih => exact ih _

theorem Tile.addVectors_regs {a : Nat} {g : Acc → List Byte → Nat → Acc} (v : Tile) (l : List (List Byte × Nat)) : (v.addVectors a g l).regs = v.regs := by
  induction l generalizing v with
  | nil => rfl
  | cons x l ih => exact ih _

/-- An accumulator whose place is none of the vectors' keeps its content. -/
theorem Tile.acc_addVectors_other {a k : Nat} {g : Acc → List Byte → Nat → Acc} {l : List (List Byte × Nat)} {v : Tile} (h : ∀ x ∈ l, k ≠ a + x.2) :
    (v.addVectors a g l).acc k = v.acc k := by
  induction l generalizing v with
  | nil => rfl
  | cons x l ih =>
    refine (ih fun y hy => h y (List.mem_cons_of_mem _ hy)).trans ?_
    exact v.acc_setAcc_other _ (h x List.mem_cons_self)

/-- The accumulator at a vector's place takes that vector alone. -/
theorem Tile.acc_addVectors_at {a n : Nat} {g : Acc → List Byte → Nat → Acc} {xs : List (List Byte)} {j : Nat} {x : List Byte} (h : xs[j]? = some x) (v : Tile) :
    (v.addVectors a g (xs.zipIdx n)).acc (a + (n + j)) = g (v.acc (a + (n + j))) x (n + j) := by
  induction xs generalizing n j v with
  | nil => cases h
  | cons y ys ih =>
    cases j with
    | zero =>
      obtain rfl : y = x := Option.some.inj h
      refine (Tile.acc_addVectors_other (v := v.setAcc (a + n) (g (v.acc (a + n)) y n)) ?_).trans (v.acc_setAcc_same _ _)
      intro z hz
      have hle := List.le_snd_of_mem_zipIdx hz
      omega
    | succ j =>
      have hn : n + (j + 1) = (n + 1) + j := by omega
      rw [hn]
      refine (ih (n := n + 1) h _).trans ?_
      rw [Tile.acc_setAcc_other _ _ (show a + (n + 1 + j) ≠ a + n by omega)]

/-- As many vectors are read as the instruction names. -/
theorem State.readVectors_length {s : State} {t : Nat} {e : TileEvent} {b n a : Nat} {xs : List (List Byte)} (h : s.readVectors t e b n a = some xs) :
    xs.length = n := by
  induction n generalizing a xs with
  | zero => cases h; rfl
  | succ n ih =>
    unfold State.readVectors at h
    split at h
    next x ys _ hys => cases h; exact congrArg (· + 1) (ih hys)
    next => cases h

/-- The exact sum of numbers that are numbers, in the format the instruction adds in. -/
theorem Acc.add_exact {x : Acc} {clr : Bool} {f : AccFormat} {ty : ElemType} {square : Bool} {ws q v : List Nat} {draw : Nat}
    (hq : q.any ty.bad = false) (hv : v.any ty.bad = false) (hf : clr = true ∨ x.format = f) :
    x.add clr f ty square ws q v draw = { value := (if clr then 0 else x.value) + exactSum ty square ws q v * 2 ^ (f.frac - ty.esrFrac), format := f } := by
  have hfmt : (if clr = true then f else x.format) = f := by
    rcases hf with hf | hf
    · exact if_pos hf
    · rw [hf, ite_self]
  simp [Acc.add, hq, hv, hfmt]

/-- XDOT and XDSQ, where everything they read is in reach. -/
theorem State.arraySum_eq {t : Nat} {e : TileEvent} {w : Nat} {c : Coll} {f : AccFormat} {q : List Byte} {ws : List Nat} {xs : List (List Byte)}
    {square : Bool} {s : State} (hc : s.invColl e = some c) (hf : f = (if fR2 w = 0 then plainFormat c.ty else weightedFormat c.ty))
    (hn : fRd w + (fF7 w % 32 + 1) ≤ 32) (hfmt : (fF7 w).testBit 6 = true ∨ (∀ j < fF7 w % 32 + 1, ((s.tile t).acc (fRd w + j)).format = f))
    (hq : s.operandBytes t e c.vecBytes = some q) (hws : s.weights t e (fR2 w) c.dim = some ws)
    (hxs : s.readVectors t e c.vecBytes (fF7 w % 32 + 1) ((s.tile t).x (fR1 w)).toNat = some xs) :
    s.arraySum t e w square = ({ s with draws := s.draws + (fF7 w % 32 + 1) } : State).stepped t ((s.tile t).addVectors (fRd w)
      (fun x v j => x.add ((fF7 w).testBit 6) f c.ty square ws (elements c.ty c.dim q) (elements c.ty c.dim v) (s.draws + j)) xs.zipIdx) := by
  unfold State.arraySum
  have hok : ¬(!(fF7 w).testBit 6 && (List.range (fF7 w % 32 + 1)).any fun j => ((s.tile t).acc (fRd w + j)).format != f) = true := by
    simp only [Bool.and_eq_true, Bool.not_eq_true', List.any_eq_true, List.mem_range, bne_iff_ne, not_and, not_exists]
    intro hclr j hj
    rcases hfmt with h | h
    · rw [h] at hclr; cases hclr
    · exact fun hne => hne (h j hj)
  subst hf
  simp only [hc, hq, hws, hxs, if_neg (show ¬ 32 < fRd w + (fF7 w % 32 + 1) by omega), if_neg hok]
  rfl

theorem exec_arraySum (square : Bool) (t : Fin 256) (s : State) :
    exec (if square then .xdsq t else .xdot t) s = .next (s.extStep t (if square then .xdsq else .xdot)) := by
  cases square <;> rfl

theorem State.extRun_arraySum (s : State) (t : Nat) (e : TileEvent) (square : Bool) (w : Nat) :
    s.extRun t e (if square then .xdsq else .xdot) w = s.arraySum t e w square := by
  cases square <;> rfl

/-- Bit 0 and bit 1 of XASTAT's result: zero and sign, whatever the format's code is. -/
theorem astat_bits (z n : Prop) [Decidable z] [Decidable n] (code : Nat) :
    (BitVec.ofNat 32 ((if z then 1 else 0) + (if n then 2 else 0) + 4 * code)).getLsbD 0 = decide z
      ∧ (¬ (z ∧ n) → (BitVec.ofNat 32 ((if z then 1 else 0) + (if n then 2 else 0) + 4 * code)).getLsbD 1 = decide n) := by
  have hbit (m i : Nat) (hi : i < 32) : (BitVec.ofNat 32 m).getLsbD i = decide (m / 2 ^ i % 2 = 1) := by
    rw [BitVec.getLsbD_ofNat, Nat.testBit_eq_decide_div_mod_eq]
    simp [hi]
  refine ⟨?_, fun _ => ?_⟩
  · rw [hbit _ 0 (by decide)]
    by_cases hz : z <;> by_cases hn : n <;> simp [hz, hn] <;> omega
  · rw [hbit _ 1 (by decide)]
    by_cases hz : z <;> by_cases hn : n <;> simp [hz, hn] <;> omega

/-- Settles O47: each instruction is the extension's step with what it computes; the accumulators follow from the pass over the vectors. -/
theorem arraySumsAreExact : Obligations.ArraySumsAreExact := by
  refine ⟨?qsel, ?sums, ?xrd32, ?xrd64, ?xastat⟩
  case qsel =>
    intro t e w s hat hpc
    exact congrArg Host.Outcome.next (State.extStep_stepped hat rfl hpc)
  case sums =>
    intro t e w c f q ws xs square s hat hpc hc hf hn hfmt hq hws hxs
    have hrun := (s.extRun_arraySum t e square w).trans (State.arraySum_eq (square := square) hc hf hn hfmt hq hws hxs)
    have hlen := State.readVectors_length hxs
    generalize hg : (fun x v j => Acc.add x ((fF7 w).testBit 6) f c.ty square ws (elements c.ty c.dim q) (elements c.ty c.dim v) (s.draws + j)) = g at hrun
    have hvpc := (s.tile t).addVectors_pc (a := fRd w) (g := g) xs.zipIdx
    have hvregs := (s.tile t).addVectors_regs (a := fRd w) (g := g) xs.zipIdx
    generalize hu : (s.tile t).addVectors (fRd w) g xs.zipIdx = v at hrun hvpc hvregs
    have hstep := State.extStep_stepped hat hrun (by rwa [hvpc])
    refine Runs.of ((exec_arraySum square t s).trans (congrArg Host.Outcome.next hstep)) ?_
    rw [State.tile_setTile]
    refine ⟨congrArg (· + 4) hvpc, hvregs, ?_, ?_⟩
    · intro j x hj hqb hxb
      have hjn : j < fF7 w % 32 + 1 := hlen ▸ (List.getElem?_eq_some_iff.mp hj).1
      have hacc : v.acc (fRd w + j) = g ((s.tile t).acc (fRd w + j)) x j := by
        have h := Tile.acc_addVectors_at (a := fRd w) (n := 0) (g := g) hj (s.tile t)
        rw [Nat.zero_add] at h
        rw [← hu]
        exact h
      refine hacc.trans ?_
      rw [← hg]
      exact Acc.add_exact hqb hxb (hfmt.imp id fun h => h j hjn)
    · intro k hk
      rw [← hu]
      refine Tile.acc_addVectors_other ?_
      intro x hx
      have hlt := List.snd_lt_of_mem_zipIdx hx
      omega
  case xrd32 =>
    intro t e w s hat hpc
    exact congrArg Host.Outcome.next (State.extStep_setX hat rfl hpc)
  case xrd64 =>
    intro t e w s hat hpc
    exact congrArg Host.Outcome.next (State.extStep_setD hat rfl hpc)
  case xastat =>
    intro t e w s hat hpc hrd
    have hstep := State.extStep_setX hat (show s.extRun t e .xastat w = s.stepped t _ from rfl) hpc
    refine Runs.of (congrArg Host.Outcome.next hstep) ?_
    rw [State.tile_setTile]
    generalize (s.tile t).acc (fR1 w) = a
    have hx (v : BitVec 32) : ({ (s.tile t).setX (fRd w) v with pc := (s.tile t).pc + 4 } : Tile).x (fRd w) = v := Tile.x_setX_same _ v hrd
    rw [hx]
    obtain ⟨hzero, hneg⟩ := astat_bits (a.value = 0) (a.value < 0) _
    exact ⟨hzero, hneg (by omega), Tile.setX_accs _ _ _, rfl⟩

end Sys2Proof.Machine
end

section
/-! The binary64 unit and order keys (O48), with what a kernel fault leaves of its tile. -/

namespace Sys2Proof.Machine

/-! ## Kernel faults -/

/-- A fault's mark: the slot is among the faulted ones, everything else of the tile stays. -/
theorem State.markFault_tile (s : State) (t kernel cause pc : Nat) : (s.markFault t kernel cause pc).tile t
    = { s.tile t with faulted := if (s.tile t).faulted.contains kernel then (s.tile t).faulted else (s.tile t).faulted ++ [kernel] } := by
  unfold State.markFault
  rw [State.logEvent_eq, State.tile, State.logFrom_grid]
  exact State.tile_setTile

theorem State.markFault_faults (s : State) (t kernel cause pc : Nat) :
    (s.markFault t kernel cause pc).grid.faults = (s.grid.faults + 1) % 2 ^ 32 := by
  unfold State.markFault
  rw [State.logEvent_eq, State.logFrom_grid]
  rfl

theorem State.markFault_last (s : State) (t kernel cause pc : Nat) : (s.markFault t kernel cause pc).log.last = nextEntry s.log.last := by
  unfold State.markFault
  rw [State.logEvent_eq, State.logFrom_last]
  rfl

theorem mem_marked (kernel : Nat) (l : List Nat) : kernel ∈ (if l.contains kernel then l else l ++ [kernel]) := by
  split
  next h => exact List.contains_iff_mem.mp h
  next => exact List.mem_append_right _ (List.mem_singleton_self kernel)

/-- A fault in QUERY_IN ends the invocation and nothing else: the event held no query's candidates. -/
theorem State.kernelFault_queryIn {s : State} {t cause : Nat} {e : TileEvent} (hrun : (s.tile t).running = some e) (hkind : e.kind = .queryIn) :
    s.kernelFault t cause = (s.markFault t e.kernel cause (s.tile t).pc.toNat).setTile t
      { (s.markFault t e.kernel cause (s.tile t).pc.toNat).tile t with running := none } := by
  have hrun' : ((s.markFault t e.kernel cause (s.tile t).pc.toNat).tile t).running = some e := by
    rw [State.markFault_tile]
    exact hrun
  unfold State.kernelFault
  simp only [hrun, hkind]
  rw [if_neg (by decide), List.foldl_nil]
  unfold State.endInvocation
  simp only [hrun', State.eventDone, hkind]

theorem State.kernelFault_queryIn_marks {s : State} {t cause : Nat} {e : TileEvent} (hrun : (s.tile t).running = some e) (hkind : e.kind = .queryIn) :
    e.kernel ∈ ((s.kernelFault t cause).tile t).faulted ∧ ((s.kernelFault t cause).tile t).running = none
      ∧ (s.kernelFault t cause).grid.faults = (s.grid.faults + 1) % 2 ^ 32 ∧ (s.kernelFault t cause).log.last = nextEntry s.log.last := by
  rw [State.kernelFault_queryIn hrun hkind, State.tile_setTile]
  refine ⟨?_, rfl, s.markFault_faults t e.kernel cause _, s.markFault_last t e.kernel cause _⟩
  rw [State.markFault_tile]
  exact mem_marked e.kernel _

/-! ## The unit -/

/-- XFOP's open NaN is a quiet one: exponent and quiet bit are ones. -/
theorem openNan_quiet (op draw : Nat) : (openNan op draw).extractLsb' 51 12 = 0xFFF := by
  unfold openNan
  rw [BitVec.extractLsb'_or, BitVec.extractLsb'_and, show BitVec.extractLsb' 51 12 (0x8007FFFFFFFFFFFF : BitVec 64) = 0#12 by decide, BitVec.and_zero]
  decide

theorem State.xfop_number {s : State} {t w r : Nat} (h : fOp (fopOf w) (modeOf w) ((s.tile t).d (fR1 w)).toNat ((s.tile t).d (fR2 w)).toNat = some r) :
    s.xfop t w = s.stepped t ((s.tile t).setD (fRd w) (BitVec.ofNat 64 r)) := by
  unfold State.xfop
  simp only [h]

theorem State.xfop_nan {s : State} {t w : Nat} (h : fOp (fopOf w) (modeOf w) ((s.tile t).d (fR1 w)).toNat ((s.tile t).d (fR2 w)).toNat = none) :
    s.xfop t w = (s.draw.2).stepped t ((s.tile t).setD (fRd w) (openNan (fF7 w / 16) s.draws)) := by
  unfold State.xfop
  simp only [h]

theorem State.xf32_number {s : State} {t w : Nat} (h : isNan .b64 ((s.tile t).d (fR1 w)).toNat = false) :
    s.xf32 t w = s.stepped t ((s.tile t).setX (fRd w) (BitVec.ofNat 32 (to32 (modeOf w) ((s.tile t).d (fR1 w)).toNat))) := by
  unfold State.xf32
  simp only [h, Bool.false_eq_true, if_false]

theorem State.xkey_number {s : State} {t w : Nat} (h : isNan .b32 ((s.tile t).x (fR1 w)).toNat = false) :
    s.xkey t w = s.stepped t ((s.tile t).setX (fRd w) (BitVec.ofNat 32 (orderKey
      (if fF7 w % 2 = 1 then negate32 ((s.tile t).x (fR1 w)).toNat else posZero ((s.tile t).x (fR1 w)).toNat)))) := by
  unfold State.xkey
  simp only [h, Bool.false_eq_true, if_false]

theorem State.xkey_nan {s : State} {t w : Nat} (h : isNan .b32 ((s.tile t).x (fR1 w)).toNat = true) : s.xkey t w = .fault 3 := if_pos h

theorem State.xfmvXd_eq (s : State) (t w : Nat) : s.xfmvXd t w
    = s.stepped t ((s.tile t).setX (fRd w) (((s.tile t).d (fR1 w)).extractLsb' (if fF7 w % 2 = 1 then 32 else 0) 32)) := by
  unfold State.xfmvXd
  split <;> rfl

/-- Settles O48: each instruction is the extension's step with what it computes; a NaN in XKEY is a kernel fault. -/
theorem floatInstructionsFollowIeee : Obligations.FloatInstructionsFollowIeee := by
  refine ⟨?xfop, ?xfopNan, ?xf32, ?xfmvDx, ?xfmvXd, ?xfcmp, ?xkey, ?xkeyNan, ?xfcv⟩
  case xfop =>
    intro t e w r s hat hpc hr
    exact congrArg Host.Outcome.next (State.extStep_setD hat (State.xfop_number hr) hpc)
  case xfopNan =>
    intro t e w s hat hpc hr
    refine Runs.of (congrArg Host.Outcome.next (State.extStep_stepped hat (State.xfop_nan hr) hpc)) ?_
    rw [State.tile_setTile]
    exact ⟨(congrArg (BitVec.extractLsb' 51 12) Map.getD_put_same).trans (openNan_quiet _ _), rfl⟩
  case xf32 =>
    intro t e w s hat hpc hnum
    exact congrArg Host.Outcome.next (State.extStep_setX hat (State.xf32_number hnum) hpc)
  case xfmvDx =>
    intro t e w s hat hpc
    exact congrArg Host.Outcome.next (State.extStep_setD hat rfl hpc)
  case xfmvXd =>
    intro t e w s hat hpc
    exact congrArg Host.Outcome.next (State.extStep_setX hat (s.xfmvXd_eq t w) hpc)
  case xfcmp =>
    intro t e w s hat hpc
    exact congrArg Host.Outcome.next (State.extStep_setX hat rfl hpc)
  case xkey =>
    intro t e w s hat hpc hnum
    exact congrArg Host.Outcome.next (State.extStep_setX hat (State.xkey_number hnum) hpc)
  case xkeyNan =>
    intro t e w s hat hnan hrun hkind
    have hstep : s.extStep t .xkey = s.kernelFault t 3 := by
      rw [State.extStep_of hat, show s.extRun t e .xkey w = s.xkey t w from rfl, State.xkey_nan hnan]
      rfl
    refine Runs.of (congrArg Host.Outcome.next hstep) ?_
    obtain ⟨hmark, hended, hcount, -⟩ := State.kernelFault_queryIn_marks (cause := 3) hrun hkind
    exact ⟨hmark, hended, hcount⟩
  case xfcv =>
    intro t e w s hat hpc
    exact congrArg Host.Outcome.next (State.extStep_setD hat rfl hpc)

end Sys2Proof.Machine
end

section
/-! Pass bits, posts, messages and base instructions of a kernel (O49). -/

namespace Sys2Proof.Machine

/-! ## Pass bits -/

theorem Tile.passBit_eq_true_iff (v : Tile) (b i slot : Nat) : v.passBit b i slot = true ↔ (b * 2048 + i) * 64 + slot ∈ v.passes :=
  List.contains_iff_mem

/-- The half of the slots that an instruction's lowest funct7 bit names. -/
theorem passHalf {w slot : Nat} (h : fF7 w % 2 = slot / 32) : (if fF7 w % 2 = 1 then 32 else 0) = 32 * (slot / 32) := by
  split <;> omega

/-- XPASS where none of the invocation's queries has the record's bit. -/
theorem State.xpass_none {s : State} {t w : Nat} {e : TileEvent}
    (h : ∀ p ∈ s.invQueries t e, (s.tile t).passBit e.metaBuf ((s.tile t).x (fR1 w)).toNat p.2 = false) :
    s.xpass t e w = s.stepped t ((s.tile t).setX (fRd w) 0) := by
  have hset (lo : Nat) : (if e.ofStripe then (s.invQueries t e).filter (fun p => decide (lo ≤ p.2 ∧ p.2 < lo + 32 ∧ ((s.tile t).x (fR1 w)).toNat < 2048)
      && (s.tile t).passBit e.metaBuf ((s.tile t).x (fR1 w)).toNat p.2) else []) = [] := by
    split
    · refine List.filter_eq_nil_iff.mpr fun p hp => ?_
      simp [h p hp]
    · rfl
  unfold State.xpass
  simp only [hset]
  rfl

/-- XPASS where the one query of the invocation has the record's bit. -/
theorem State.xpass_one {s : State} {t w x slot : Nat} {e : TileEvent} (hstripe : e.ofStripe = true) (hq : s.invQueries t e = [(x, slot)])
    (hi : ((s.tile t).x (fR1 w)).toNat < 2048) (hhalf : fF7 w % 2 = slot / 32)
    (hbit : (s.tile t).passBit e.metaBuf ((s.tile t).x (fR1 w)).toNat slot = true) :
    s.xpass t e w = s.stepped t ((s.tile t).setX (fRd w) (BitVec.ofNat 32 (2 ^ (slot % 32)))) := by
  have hin : 32 * (slot / 32) ≤ slot ∧ slot < 32 * (slot / 32) + 32 ∧ ((s.tile t).x (fR1 w)).toNat < 2048 := ⟨by omega, by omega, hi⟩
  have hplace : slot - 32 * (slot / 32) = slot % 32 := by omega
  unfold State.xpass
  simp [hstripe, hq, passHalf hhalf, hin, hbit, hplace, sumNat]

/-- The bits that XPCLR clears: of record `i`, the slots from `lo` on that the mask names. -/
def clearPasses (passes : List Nat) (b i lo m : Nat) : List Nat :=
  passes.filter fun k => !(k / 64 == b * 2048 + i && decide (i < 2048 ∧ lo ≤ k % 64) && m.testBit (k % 64 - lo))

theorem State.xpclr_eq {s : State} {t w : Nat} {e : TileEvent} (h : e.kind = .metaSeg ∨ e.kind = .pblock) :
    s.xpclr t e w = s.stepped t { s.tile t with passes := (clearPasses (s.tile t).passes e.metaBuf ((s.tile t).x (fR1 w)).toNat
      (if fF7 w % 2 = 1 then 32 else 0) ((s.tile t).x (fR2 w)).toNat) } := if_pos h

theorem mem_of_mem_clearPasses {passes : List Nat} {b i lo m k : Nat} (h : k ∈ clearPasses passes b i lo m) : k ∈ passes := (List.mem_filter.mp h).1

theorem not_mem_clearPasses {passes : List Nat} {b i lo m slot : Nat} (hi : i < 2048) (hslot : slot < 64) (hlo : lo ≤ slot)
    (hm : m.testBit (slot - lo) = true) : (b * 2048 + i) * 64 + slot ∉ clearPasses passes b i lo m := by
  have hdiv : ((b * 2048 + i) * 64 + slot) / 64 = b * 2048 + i := by omega
  have hmod : ((b * 2048 + i) * 64 + slot) % 64 = slot := by omega
  simp [clearPasses, List.mem_filter, hdiv, hmod, hi, hlo, hm]

/-! ## Posts -/

/-- XPOST where its checks pass: record and slot are the invocation's. -/
theorem State.xpost_checked {s : State} {t w a x : Nat} {e : TileEvent} {q : Ctx} (hkind : e.kind = .vec ∨ e.kind = .pblock) (hwhat : e.what ≠ .centroids)
    (ha : ((s.tile t).x (fR2 w)).toNat = a) (hlt : a < 2 ^ 17) (hrec : a / 64 < s.recordLimit e)
    (hfind : (s.invQueries t e).find? (fun p => p.2 == a % 64) = some (x, a % 64)) (hq : s.slotQuery t x (a % 64) = some q) :
    s.xpost t e w = (if !(s.tile t).passBit e.metaBuf (a / 64) (a % 64) || !q.beatsTau ((s.tile t).x (fR1 w)).toNat (recSeq (e.record (a / 64)))
      then s.stepped t ((s.tile t).setX (fRd w) 0)
      else if s.postFree t q.sorterNo then (s.postCand x q (s.candOf t e q (a / 64) ((s.tile t).x (fR1 w)).toNat)).stepped t ((s.tile t).setX (fRd w) 1)
      else .wait) := by
  have hscan : (!((e.kind == .vec || e.kind == .pblock) && e.what != .centroids)) = false := by
    rcases hkind with h | h <;> simp [h, hwhat]
  have hmod : a / 64 % 2048 = a / 64 := by omega
  have hin : ¬ (a / 2 ^ 17 ≠ 0 ∨ s.recordLimit e ≤ a / 64) := by omega
  unfold State.xpost
  simp only [hscan, ha, hmod, if_neg hin, hfind, hq, Bool.false_eq_true, if_false]

/-! ## Messages -/

theorem Tile.setX_sendQueue (v : Tile) (r : Nat) (x : BitVec 32) (l : List UserMsg) :
    { v with sendQueue := l }.setX r x = { v.setX r x with sendQueue := l } := by
  unfold Tile.setX
  split <;> rfl

/-- XMSEND of a message a kernel may send. -/
theorem State.xmsend_eq {s : State} {t w : Nat} {e : TileEvent} {h m : List Byte} (hh : s.tileRead t e ((s.tile t).x (fR2 w)).toNat 16 = some h)
    (hok : sendable t h = true) (hm : s.tileRead t e ((s.tile t).x (fR2 w)).toNat (64 + 64 * field h 6 2) = some m) :
    s.xmsend t e w = s.stepped t (if 32 ≤ (s.tile t).sendQueue.length then (s.tile t).setX (fRd w) 1
      else { (s.tile t).setX (fRd w) 0 with sendQueue := (s.tile t).sendQueue
        ++ [{ source := t, dest := field h 0 2, kernel := e.kernel, tag := field h 8 4, payload := m.drop 16 }] }) := by
  unfold State.xmsend
  simp only [hh, hok, hm, Bool.not_true, Bool.false_eq_true, if_false, Tile.setX_sendQueue]
  split <;> rfl

/-- A store changes nothing of the tile but its data SRAM. -/
theorem Tile.storeAt_eq {v v' : Tile} {k a : Nat} {bs : List Byte} (h : v.storeAt k a bs = some v') : v' = { v with mem := Memory.writeN 0 v.mem a bs } := by
  unfold Tile.storeAt at h
  dsimp only at h
  split at h
  · cases h; rfl
  · cases h

theorem State.xmrecv_eq {s : State} {t w : Nat} {e : TileEvent} {m : UserMsg} {rest : List UserMsg} {v : Tile}
    (hm : takeFirst (fun m => m.kernel == e.kernel) (s.tile t).recvQueue = some (m, rest))
    (hv : (s.tile t).storeAt e.kernel ((s.tile t).x (fR1 w)).toNat m.bytes = some v) :
    s.xmrecv t e w = s.stepped t (({ v with recvQueue := rest } : Tile).setX (fRd w) (BitVec.ofNat 32 m.tag)) := by
  unfold State.xmrecv
  simp only [hm, hv]

/-! ## Base instructions -/

theorem Tile.setX_running (v : Tile) (r : Nat) (x : BitVec 32) : (v.setX r x).running = v.running := by
  unfold Tile.setX
  split <;> rfl

/-- No instruction of the core ends the invocation by itself. -/
theorem State.rvExec_running {s : State} {t len : Nat} {e : TileEvent} {i : Rv} {v : Tile} (h : s.rvExec t e len i = .ok v) :
    v.running = (s.tile t).running := by
  unfold State.rvExec at h
  cases i with
  | load f3 rd r1 off =>
    dsimp only at h
    split at h
    · cases h
    · split at h
      · cases h; exact Tile.setX_running _ _ _
      · cases h
  | store f3 r1 r2 off =>
    dsimp only at h
    split at h
    · cases h
    · split at h
      next u hu =>
        have hkept : u.running = (s.tile t).running := by rw [Tile.storeAt_eq hu]
        cases h; exact hkept
      next => cases h
  | ext w => cases h
  | illegal => cases h
  | branch f3 r1 r2 off => cases h; rfl
  | fence => cases h; rfl
  | _ => cases h; exact Tile.setX_running _ _ _

/-- The end of QUERY_IN releases nothing. -/
theorem State.endInvocation_queryIn {s : State} {t : Nat} {e : TileEvent} (hrun : (s.tile t).running = some e) (hkind : e.kind = .queryIn) :
    s.endInvocation t = s.setTile t { s.tile t with running := none } := by
  unfold State.endInvocation
  simp only [hrun, State.eventDone, hkind]

/-- A base instruction of the core: the extension has none there. -/
theorem State.baseStep_of {s : State} {t len : Nat} {e : TileEvent} {i : Rv} {v : Tile} (hrun : (s.tile t).running = some e)
    (hfetch : s.rvFetch t e = some (len, i)) (hbase : ∀ w, i ≠ .ext w) (hexec : s.rvExec t e len i = .ok v) :
    s.baseStep t = s.afterInstr t (.ok (s.setTile t v)) := by
  have hat : s.extAt t = none := by
    unfold State.extAt
    simp only [hrun, hfetch]
    cases i
    case ext w => exact absurd rfl (hbase w)
    all_goals rfl
  have hany : s.anyInstr t e = .ok (s.setTile t v) := by
    unfold State.anyInstr
    rw [hfetch]
    cases i
    case ext w => exact absurd rfl (hbase w)
    all_goals simp only [hexec]
  unfold State.baseStep
  simp only [hrun, hat, hany]
  rfl

/-- Settles O49: each instruction is the extension's or the core's step with what it computes. -/
theorem kernelsPassPostAndSend : Obligations.KernelsPassPostAndSend := by
  refine ⟨?xpassNone, ?xpassOne, ?xpclr, ?xpostRefused, ?xpost, ?xmsend, ?xmrecv, ?step, ?returns⟩
  case xpassNone =>
    intro t e w s hat hpc hnone
    exact congrArg Host.Outcome.next (State.extStep_setX hat (State.xpass_none hnone) hpc)
  case xpassOne =>
    intro t e w x slot s hat hpc hstripe hq hi hhalf hbit
    exact congrArg Host.Outcome.next (State.extStep_setX hat (State.xpass_one hstripe hq hi hhalf hbit) hpc)
  case xpclr =>
    intro t e w s hat hpc hkind
    refine Runs.of (congrArg Host.Outcome.next (State.extStep_stepped hat (State.xpclr_eq hkind) hpc)) ?_
    rw [State.tile_setTile]
    refine ⟨?_, ?_, rfl⟩
    · intro b i slot h
      rw [Tile.passBit_eq_true_iff] at h ⊢
      exact mem_of_mem_clearPasses h
    · intro slot hi hslot hlo hm
      rw [← Bool.not_eq_true, Tile.passBit_eq_true_iff]
      exact not_mem_clearPasses hi hslot hlo hm
  case xpostRefused =>
    intro t e w a x q s hat hpc hkind hwhat ha hlt hrec hfind hq hno
    refine congrArg Host.Outcome.next (State.extStep_setX hat ?_ hpc)
    refine (State.xpost_checked hkind hwhat ha hlt hrec hfind hq).trans (if_pos ?_)
    rcases hno with h | h <;> simp [h]
  case xpost =>
    intro t e w a x q s hat hpc hkind hwhat ha hlt hrec hfind hq hbit hbetter hfree
    have hrun := (State.xpost_checked hkind hwhat ha hlt hrec hfind hq).trans ((if_neg (by simp [hbit, hbetter])).trans (if_pos hfree))
    refine Runs.of (congrArg Host.Outcome.next (State.extStep_stepped hat hrun (by rwa [Tile.setX_pc]))) ?_
    refine ⟨rfl, ?_, ?_⟩
    · exact congrArg Pool.outstanding State.pool_reserve
    · rw [State.tile_setTile, Tile.setX_pc]
  case xmsend =>
    intro t e w h m s hat hpc hh hok hm
    have hrun := State.xmsend_eq hh hok hm
    by_cases hfull : 32 ≤ (s.tile t).sendQueue.length
    · rw [if_pos hfull] at hrun ⊢
      exact congrArg Host.Outcome.next (State.extStep_setX hat hrun hpc)
    · rw [if_neg hfull] at hrun ⊢
      refine congrArg Host.Outcome.next ((State.extStep_stepped hat hrun (by rwa [Tile.setX_pc])).trans ?_)
      rw [Tile.setX_pc]
  case xmrecv =>
    intro t e w m rest v s hat hpc hm hv
    have hvpc : v.pc = (s.tile t).pc := by rw [Tile.storeAt_eq hv]
    refine congrArg Host.Outcome.next ((State.extStep_stepped hat (State.xmrecv_eq hm hv) ?_).trans ?_)
    · rw [Tile.setX_pc, hvpc]; exact hpc
    · rw [Tile.setX_pc, hvpc]
  case step =>
    intro t e len i v s hrun hfetch hbase hexec hpc
    refine congrArg Host.Outcome.next ((State.baseStep_of hrun hfetch hbase hexec).trans (if_neg ?_))
    rwa [State.tile_setTile]
  case returns =>
    intro t e len i v s hrun hkind hfetch hbase hexec hpc
    refine congrArg Host.Outcome.next ((State.baseStep_of hrun hfetch hbase hexec).trans ((if_pos ?_).trans ?_))
    · rwa [State.tile_setTile]
    · rw [State.endInvocation_queryIn (e := e) _ hkind, State.tile_setTile]
      rw [State.tile_setTile, State.rvExec_running hexec, hrun]

end Sys2Proof.Machine
end

section
/-! The events of the tiles (O50): what serving one leaves of the tile's queue, a call's registers, and the standard kernels' contracts. -/

namespace Sys2Proof.Machine

/-! ## The queue of a tile -/

/-- The tile without the event at the head of its queue. -/
def State.popEvent (s : State) (t : Nat) (rest : List TileEvent) : State := s.setTile t { s.tile t with events := rest }

theorem State.tile_popEvent (s : State) (t : Nat) (rest : List TileEvent) : (s.popEvent t rest).tile t = { s.tile t with events := rest } := State.tile_setTile

theorem State.nextEvent_of {s : State} {t : Nat} {e : TileEvent} {rest : List TileEvent} {k : TileEventKind} (hrun : (s.tile t).running = none)
    (hevents : (s.tile t).events = e :: rest) (hk : e.kind = k) : s.nextEvent t k = some (e, s.popEvent t rest) := by
  unfold State.nextEvent
  dsimp only
  split
  next e' rest' _ hcons => cases hevents.symm.trans hcons; exact if_pos hk
  next hno => exact absurd hevents (hno e rest hrun)

/-- A stream buffer's release leaves queue and invocation alone. -/
theorem State.freeBuffer_keeps (s : State) (t b : Nat) :
    ((s.freeBuffer t b).tile t).events = (s.tile t).events ∧ ((s.freeBuffer t b).tile t).running = (s.tile t).running := by
  unfold State.freeBuffer
  dsimp only
  split
  · have h (v : Tile) : ((s.setTile t v).giveBack 0x08 t 1).tile t = v := State.tile_setTile
    rw [h]
    exact ⟨rfl, rfl⟩
  · exact ⟨rfl, rfl⟩

theorem State.releaseMeta_keeps (s : State) (t b : Nat) :
    ((s.releaseMeta t b).tile t).events = (s.tile t).events ∧ ((s.releaseMeta t b).tile t).running = (s.tile t).running := by
  unfold State.releaseMeta
  split
  · exact ⟨rfl, rfl⟩
  · exact s.freeBuffer_keeps t b

/-- What an event held returns; queue and invocation stay. -/
theorem State.eventDone_keeps (s : State) (t : Nat) (e : TileEvent) :
    ((s.eventDone t e).tile t).events = (s.tile t).events ∧ ((s.eventDone t e).tile t).running = (s.tile t).running := by
  unfold State.eventDone
  cases e.kind with
  | queryIn => exact ⟨rfl, rfl⟩
  | metaSeg => exact s.releaseMeta_keeps t e.metaBuf
  | vec =>
    obtain ⟨hevents, hrun⟩ := s.freeBuffer_keeps t (e.vecBuf - 1)
    obtain ⟨hevents', hrun'⟩ := (s.freeBuffer t (e.vecBuf - 1)).releaseMeta_keeps t e.metaBuf
    exact ⟨hevents'.trans hevents, hrun'.trans hrun⟩
  | pblock => simp only [State.tile_setTile, and_self]
  | retire =>
    dsimp only
    split
    · have h (v : Tile) : ((s.setTile t v).giveBack 0x09 t 1).tile t = v := State.tile_setTile
      rw [h]
      exact ⟨rfl, rfl⟩
    · exact ⟨rfl, rfl⟩
  | msg => exact ⟨rfl, rfl⟩

/-! ## The standard kernels -/

/-- A standard kernel returns at once: the event is dealt with. -/
theorem State.simpleEvent_standard {s : State} {t : Nat} {e : TileEvent} {rest : List TileEvent} {k : TileEventKind} (hrun : (s.tile t).running = none)
    (hevents : (s.tile t).events = e :: rest) (hk : e.kind = k) (hstd : e.kernel < 4) : s.simpleEvent t k = (s.popEvent t rest).eventDone t e := by
  unfold State.simpleEvent
  rw [State.nextEvent_of hrun hevents hk]
  exact if_pos (.inl (decide_eq_true hstd))

/-- SCAN's order key of record `i` for a query (R10, R95). -/
def scanKey (c : Coll) (e : TileEvent) (q : Ctx) (i : Nat) : Nat :=
  rankOrderKey c.metric (score c.metric c.ty (elements c.ty c.dim q.vec) (elements c.ty c.dim (e.vector c.vecBytes i)) (recNorm (e.record i)))

/-- SCAN of a record that has its pass bit and is better than τ, with a post credit free. -/
theorem State.scanOne_posts {s : State} {t i x slot : Nat} {e : TileEvent} {c : Coll} {q : Ctx} (hpass : (s.tile t).passBit e.metaBuf i slot = true)
    (hq : s.ctx? x = some q) (hfree : s.postFree t q.sorterNo = true) (hbetter : q.beatsTau (scanKey c e q i) (recSeq (e.record i)) = true) :
    s.scanOne t e c i x slot = some (s.postCand x q (s.candOf t e q i (scanKey c e q i))) := by
  unfold scanKey at hbetter ⊢
  unfold State.scanOne
  simp only [hpass, hq, hbetter, hfree, Bool.not_true, Bool.false_eq_true, if_false, if_true]

/-- SCAN over one record for one query ends the event with what the record gives. -/
theorem State.scanEvent_one {s u popped : State} {t x slot : Nat} {e : TileEvent} {c : Coll} (hcount : e.count = 1) (hdone : e.done = 0)
    (hc : s.invColl e = some c) (hqs : s.invQueries t e = [(x, slot)]) (hone : s.scanOne t e c e.first x slot = some u) :
    s.scanEvent t e popped
      = (u.setTile t { u.tile t with events := (u.tile t).events.drop 1, invocations := (u.tile t).invocations + 1 }).eventDone t e := by
  have hpairs : s.scanPairs t e = [(e.first, x, slot)] := by
    unfold State.scanPairs
    rw [hqs, hcount]
    rfl
  unfold State.scanEvent
  simp only [hc, hpairs, hdone, List.drop_zero, State.scanAll, hone, if_true]

theorem State.scoreEvent_scan {s : State} {t : Nat} {e : TileEvent} {rest : List TileEvent} {k : TileEventKind} (hrun : (s.tile t).running = none)
    (hevents : (s.tile t).events = e :: rest) (hk : e.kind = k) (hctxs : e.ctxs ≠ []) (hkernel : e.kernel = 0) :
    s.scoreEvent t k = s.scanEvent t e (s.popEvent t rest) := by
  unfold State.scoreEvent
  rw [State.nextEvent_of hrun hevents hk]
  exact (if_neg hctxs).trans ((if_neg (by omega)).trans (if_pos (decide_eq_true (by omega))))

theorem State.scoreEvent_rank {s : State} {t : Nat} {e : TileEvent} {rest : List TileEvent} {k : TileEventKind} {c : Coll} (hrun : (s.tile t).running = none)
    (hevents : (s.tile t).events = e :: rest) (hk : e.kind = k) (hctxs : e.ctxs ≠ []) (hkernel : e.kernel = 1) (hc : s.coll? e.coll = some c) (hmetric : c.metric ≠ .custom) :
    s.scoreEvent t k = ((s.popEvent t rest).rankStandard t e c).eventDone t e := by
  unfold State.scoreEvent
  rw [State.nextEvent_of hrun hevents hk]
  dsimp only
  rw [if_neg hctxs, if_pos hkernel, hc]
  exact congrArg (State.eventDone · t e) (if_neg hmetric)

theorem State.invQueries_popEvent (s : State) (t : Nat) (rest : List TileEvent) (e : TileEvent) :
    (s.popEvent t rest).invQueries t e = s.invQueries t e := by
  unfold State.invQueries
  rw [State.tile_popEvent]

/-- RANK for the one query of an event. -/
theorem State.rankStandard_one {s : State} {t x slot : Nat} {e : TileEvent} {c : Coll} {q : Ctx} (hqs : s.invQueries t e = [(x, slot)]) (hq : s.ctx? x = some q) :
    (s.rankStandard t e c).ctx? x = some { q with ranks := q.ranks ++ (List.range e.count).filterMap fun i => rankOne c e q (e.first + i) } := by
  unfold State.rankStandard
  rw [hqs, List.foldl_cons, List.foldl_nil]
  unfold State.modCtx
  simp only [hq]
  exact State.ctx_setCtx

/-! ## A call -/

theorem Tile.x_setX (v : Tile) (r k : Nat) (x : BitVec 32) : (v.setX r x).x k = if k = r ∧ r ≠ 0 then x else v.x k := by
  by_cases hr : r = 0
  · rw [if_neg (by simp [hr]), Tile.setX, if_pos hr]
  · by_cases hk : k = r
    · rw [if_pos ⟨hk, hr⟩, hk, Tile.x_setX_same v x hr]
    · rw [if_neg (by simp [hk]), Tile.setX, if_neg hr]
      unfold Tile.x
      rw [Map.getD_put_other (Ne.symm hk)]

theorem Tile.setX_events (v : Tile) (r : Nat) (x : BitVec 32) : (v.setX r x).events = v.events := by
  unfold Tile.setX; split <;> rfl

theorem Tile.foldl_setX_events {α : Type} (r : α → Nat) (x : α → BitVec 32) (l : List α) (v : Tile) :
    (l.foldl (fun (v : Tile) a => v.setX (r a) (x a)) v).events = v.events := by
  induction l generalizing v with
  | nil => rfl
  | cons a l ih => exact (ih _).trans (Tile.setX_events _ _ _)

/-- A call leaves the queue alone. -/
theorem Tile.call_events (v : Tile) (draw entry : Nat) (args : List (Nat × BitVec 32)) : (v.call draw entry args).events = v.events := by
  refine (Tile.setX_events _ 2 0x1008C000).trans ((Tile.setX_events _ 1 returnAddress).trans ?_)
  exact (Tile.foldl_setX_events (fun p : Nat × BitVec 32 => 10 + p.1) (·.2) args _).trans
    (Tile.foldl_setX_events (· + 1) (fun i => Config.callerRegister (i + 1) draw) _ v)

/-- The registers of a call: the caller's, over them the arguments, and over them ra and sp. -/
theorem Tile.call_x (v : Tile) (draw entry k : Nat) (args : List (Nat × BitVec 32)) : (v.call draw entry args).x k
    = (((args.foldl (fun (v : Tile) p => v.setX (10 + p.1) p.2)
        ((List.range 31).foldl (fun (v : Tile) i => v.setX (i + 1) (Config.callerRegister (i + 1) draw)) v)).setX 1 returnAddress).setX 2 0x1008C000).x k := rfl

theorem Tile.call_links (v : Tile) (draw entry : Nat) (args : List (Nat × BitVec 32)) :
    (v.call draw entry args).x 1 = returnAddress ∧ (v.call draw entry args).x 2 = 0x1008C000 := by
  simp [Tile.call_x, Tile.x_setX]

/-- The five arguments of a VEC call, in a0 to a4. -/
theorem Tile.call_args (v : Tile) (draw entry : Nat) (a b c d f : BitVec 32) (u : Tile)
    (hu : u = v.call draw entry [(0, a), (1, b), (2, c), (3, d), (4, f)]) :
    u.x 10 = a ∧ u.x 11 = b ∧ u.x 12 = c ∧ u.x 13 = d ∧ u.x 14 = f := by
  subst hu
  simp [Tile.call_x, Tile.x_setX]

/-- The dispatcher's call: the invocation runs from its entry, from now on. -/
theorem State.call_tile (s : State) (t : Nat) (e : TileEvent) (entry : Nat) (args : List (Nat × BitVec 32)) : (s.call t e entry args).tile t
    = { (s.tile t).call s.draws entry args with
        running := some e, started := s.clk.now, invocations := ((s.tile t).call s.draws entry args).invocations + 1 } := State.tile_setTile

/-- A custom kernel's event is a call of its entry, VEC's with the arguments of Table 9.5. -/
theorem exec_calls {t : Fin 256} {e : TileEvent} {rest : List TileEvent} {s : State} (hrun : (s.tile t).running = none) (hevents : (s.tile t).events = e :: rest)
    (hcustom : 4 ≤ e.kernel) (hctxs : e.ctxs ≠ []) {p : Instr × TileEventKind}
    (hp : p ∈ [(Instr.queryIn t, TileEventKind.queryIn), (.metaEvent t, .metaSeg), (.vec t, .vec), (.pblock t, .pblock), (.retire t, .retire)]) (hk : e.kind = p.2) :
    ∃ args, exec p.1 s = .next ((s.popEvent t rest).call t e (s.kernel e.kernel).entry args) ∧ (e.kind = .vec → args = s.eventArgs t e) := by
  have hstd : standardKernel e.kernel = false := decide_eq_false (by omega)
  have hsimple (k : TileEventKind) (hk : e.kind = k) (hv : e.kind ≠ .vec) : ∃ args,
      Host.Outcome.next (s.simpleEvent t k) = (.next ((s.popEvent t rest).call t e (s.kernel e.kernel).entry args) : Host.Outcome State Fault Refusal)
        ∧ (e.kind = .vec → args = s.eventArgs t e) := by
    refine ⟨(s.popEvent t rest).eventArgs t e, ?_, fun h => absurd h hv⟩
    unfold State.simpleEvent
    rw [State.nextEvent_of hrun hevents hk]
    exact congrArg Host.Outcome.next (if_neg (by simp [hstd, hctxs]))
  have hscore (k : TileEventKind) (hk : e.kind = k) : ∃ args,
      Host.Outcome.next (s.scoreEvent t k) = (.next ((s.popEvent t rest).call t e (s.kernel e.kernel).entry args) : Host.Outcome State Fault Refusal)
        ∧ (e.kind = .vec → args = s.eventArgs t e) := by
    refine ⟨s.eventArgs t e, ?_, fun _ => rfl⟩
    unfold State.scoreEvent
    rw [State.nextEvent_of hrun hevents hk]
    exact congrArg Host.Outcome.next ((if_neg hctxs).trans ((if_neg (by omega)).trans (if_neg (by simp [hstd]))))
  simp only [List.mem_cons, List.not_mem_nil, or_false] at hp
  rcases hp with rfl | rfl | rfl | rfl | rfl
  · exact hsimple .queryIn hk (by simp [hk])
  · exact hsimple .metaSeg hk (by simp [hk])
  · exact hscore .vec hk
  · exact hscore .pblock hk
  · exact hsimple .retire hk (by simp [hk])

/-! ## Messages, the time limit and the reset of a tile -/

/-- The one message on its way to a tile arrives, its event last in the queue. -/
theorem State.deliverMail_of {s : State} {t f : Fin 256} {m : UserMsg} {rest : List UserMsg} (hft : f ≠ t) (hroom : (s.tile t).recvQueue.length < 32)
    (hmail : s.mail f t = some (m, rest)) (hnone : ∀ g < 256, g ≠ f.val → s.mail g t = none) :
    s.deliverMail t = ((s.draw.2).setTile f { s.tile f with sendQueue := rest }).setTile t { s.tile t with
      recvQueue := (s.tile t).recvQueue ++ [m], events := (s.tile t).events ++ [{ kind := .msg, kernel := m.kernel }] } := by
  have hsenders : (List.range 256).filter (fun u => (s.mail u t).isSome) = [f.val] := by
    have hiff : ∀ g ∈ List.range 256, (s.mail g t).isSome = (g == f.val) := by
      intro g hg
      by_cases h : g = f.val
      · rw [h, hmail]; simp
      · rw [hnone g (List.mem_range.mp hg) h]; simp [h]
    rw [List.filter_congr hiff, List.filter_beq, List.count_range, if_pos f.isLt]
    rfl
  have htile : ((s.draw.2).setTile f { s.tile f with sendQueue := rest }).tile t = s.tile t :=
    Map.getD_put_other fun h => hft (Fin.ext h)
  unfold State.deliverMail
  rw [if_neg (by omega)]
  simp only [hsenders, List.length_singleton, Nat.max_self, Nat.mod_one, List.getElem?_cons_zero, hmail, htile]

/-- While an invocation runs, no event is served. -/
theorem State.simpleEvent_running {s : State} {t : Nat} {e : TileEvent} {k : TileEventKind} (hrun : (s.tile t).running = some e) : s.simpleEvent t k = s := by
  have hnext : s.nextEvent t k = none := by
    unfold State.nextEvent
    dsimp only
    rw [hrun]
  unfold State.simpleEvent
  rw [hnext]

/-- Settles O50: the head of the queue is served by the rule of its kernel; the rest is the tile's own operations. -/
theorem tilesServeTheirEvents : Obligations.TilesServeTheirEvents := by
  refine ⟨?standard, ?custom, ?scan, ?rank, ?message, ?timeLimit, ?reset, ?resetExecute⟩
  case standard =>
    intro t e rest s hrun hevents hstd
    obtain ⟨hevents', hrun'⟩ := (s.popEvent t rest).eventDone_keeps t e
    rw [State.tile_popEvent] at hevents' hrun'
    refine ⟨fun hk => ?_, fun hk => ?_, fun hk hslot => ?_⟩
    · refine congrArg Host.Outcome.next ((State.simpleEvent_standard hrun hevents hk hstd).trans ?_)
      unfold State.eventDone
      rw [hk]
      rfl
    · exact Runs.of (congrArg Host.Outcome.next (State.simpleEvent_standard hrun hevents hk hstd)) ⟨hevents', hrun'.trans hrun⟩
    · have hdone : (s.popEvent t rest).eventDone t e
          = ((s.popEvent t rest).setTile t { s.tile t with events := rest, slots := Map.del (s.tile t).slots e.first }).giveBack 0x09 t 1 := by
        unfold State.eventDone
        simp only [hk, State.tile_popEvent]
        exact if_pos (Option.isSome_iff_ne_none.mpr hslot)
      refine Runs.of (congrArg Host.Outcome.next ((State.simpleEvent_standard hrun hevents hk hstd).trans hdone)) ⟨State.tile_setTile, ?_⟩
      exact congrArg Pool.outstanding State.pool_giveBack
  case custom =>
    intro t e rest s hrun hevents hcustom hctxs p hp hk
    obtain ⟨args, hexec, hargs⟩ := exec_calls hrun hevents hcustom hctxs hp hk
    refine Runs.of hexec ?_
    rw [State.call_tile, State.tile_popEvent]
    have hqueue := Tile.call_events { s.tile t with events := rest } (s.popEvent t rest).draws (s.kernel e.kernel).entry args
    obtain ⟨hlink, hstack⟩ := Tile.call_links { s.tile t with events := rest } (s.popEvent t rest).draws (s.kernel e.kernel).entry args
    have hentry : (Tile.call { s.tile t with events := rest } (s.popEvent t rest).draws (s.kernel e.kernel).entry args).pc
      = BitVec.ofNat 32 (s.kernel e.kernel).entry := rfl
    generalize hw : Tile.call { s.tile t with events := rest } (s.popEvent t rest).draws (s.kernel e.kernel).entry args = w at hqueue hlink hstack hentry ⊢
    refine ⟨rfl, rfl, hqueue, hentry, hlink, hstack, fun hvec => ?_⟩
    rw [hargs hvec, State.eventArgs, hvec] at hw
    exact Tile.call_args _ _ _ _ _ _ _ _ w hw.symm
  case scan =>
    intro t e rest c q x slot s hrun hevents hkernel hcount hdone hctxs hc hqs hq hpass hfree hbetter p hp hk
    have hone := State.scanOne_posts (c := c) hpass hq hfree hbetter
    have hexec : exec p.1 s = .next (s.scoreEvent t p.2) := by
      simp only [List.mem_cons, List.not_mem_nil, or_false] at hp
      rcases hp with rfl | rfl <;> rfl
    have hscan := (State.scoreEvent_scan hrun hevents hk hctxs hkernel).trans (State.scanEvent_one hcount hdone hc hqs hone)
    refine Runs.of (hexec.trans (congrArg Host.Outcome.next hscan)) ⟨?_, ?_⟩
    · exact congrArg Sched.posts State.eventDone_only.sched
    · refine (State.eventDone_keeps _ t e).1.trans ?_
      rw [State.tile_setTile]
      exact congrArg (List.drop 1) hevents
  case rank =>
    intro t e rest c q x slot s hrun hevents hk hkernel hctxs hc hmetric hqs hq
    refine Runs.of (congrArg Host.Outcome.next (State.scoreEvent_rank hrun hevents hk hctxs hkernel hc hmetric)) ?_
    refine (congrArg (fun d => Map.get? d.ctxs x) State.eventDone_only.sched).trans ?_
    exact State.rankStandard_one ((s.invQueries_popEvent t rest e).trans hqs) hq
  case message =>
    intro t f e m rest s hrun hft hroom hmail hnone
    have hdeliver := State.deliverMail_of hft hroom hmail hnone
    have hquiet : (s.deliverMail t).simpleEvent t .msg = s.deliverMail t := by
      refine State.simpleEvent_running (e := e) ?_
      rw [hdeliver, State.tile_setTile]
      exact hrun
    refine Runs.of (congrArg Host.Outcome.next (hquiet.trans hdeliver)) ?_
    rw [State.tile_setTile]
    refine ⟨rfl, rfl, ?_⟩
    have hother (u : State) (v : Tile) : (u.setTile t v).tile f = u.tile f := Map.getD_put_other fun h => hft (Fin.ext h).symm
    rw [hother, State.tile_setTile]
  case timeLimit =>
    intro t e s hrun hkind hlate
    have hover : s.overTime t = true := by
      unfold State.overTime
      rw [hrun]
      exact decide_eq_true hlate
    refine Runs.of (congrArg Host.Outcome.next (if_pos hover)) ?_
    exact State.kernelFault_queryIn_marks hrun hkind
  case reset =>
    intro via t s hs happlying
    have hvalue : leNat (toLE 2 t.val) = t.val := leNat_toLE_of_lt (by omega)
    have hrange : rangeOk (num .u16 .cmd 0 (.between 0 255)) (toLE 2 t.val) = true := by
      unfold rangeOk num
      dsimp only
      rw [hvalue]
      exact decide_eq_true ⟨Nat.zero_le _, by omega⟩
    refine congrArg Host.Outcome.next (State.dictWrite_command (o := num .u16 .cmd 0 (.between 0 255)) hs rfl rfl rfl hrange happlying (by decide)
      (u := s.tileReset t) (a := .ok false) ?_)
    rw [hvalue]
    rfl
  case resetExecute =>
    intro t s hpending hslots hrun
    have hexec : exec (.tileResetExecute t) s = .next ((s.setTile t { s.tile t with
        regs := [], pc := 0, dregs := [], accs := [], operand := none, started := 0, faulted := [], resetPending := false }).logEvent 0x010A (toLE 1 t)) := by
      refine congrArg Host.Outcome.next ((if_neg (by simp [hpending, hslots])).trans ?_)
      rw [if_neg (by simp [hrun])]
    refine Runs.of hexec ?_
    rw [State.logEvent_eq, State.tile, State.logFrom_grid, State.logFrom_last]
    simp only [State.setTile, Map.getD_put_same]
    exact ⟨trivial, trivial, fun r => ite_self _, trivial, trivial, trivial⟩

end Sys2Proof.Machine
end

section
/-! The admission of host commands (O51): what the command chosen takes, as a live command, a context or a slot. -/

namespace Sys2Proof.Machine

/-! ## Credits of other pools -/

theorem State.used_reserve_same (s : State) (code number n : Nat) : (s.reserve code number n).used code number = s.used code number + n :=
  congrArg Pool.outstanding State.pool_reserve

theorem State.used_giveBack_same (s : State) (code number n : Nat) : (s.giveBack code number n).used code number = s.used code number - n :=
  congrArg Pool.outstanding State.pool_giveBack

theorem State.used_reserve_other (s : State) {code number n c m : Nat} (h : poolKey code number ≠ poolKey c m) :
    (s.reserve code number n).used c m = s.used c m := by
  unfold State.used State.pool
  exact congrArg Pool.outstanding (Map.getD_put_other h)

theorem State.used_giveBack_other (s : State) {code number n c m : Nat} (h : poolKey code number ≠ poolKey c m) :
    (s.giveBack code number n).used c m = s.used c m := by
  unfold State.used State.pool
  exact congrArg Pool.outstanding (Map.getD_put_other h)

/-- A pool's use is that of the credits alone. -/
theorem State.used_cred {s t : State} (h : t.cred = s.cred) (code number : Nat) : t.used code number = s.used code number := by
  unfold State.used State.pool
  rw [h]

theorem State.bestSorter_congr {s t : State} {code size : Nat} (h : ∀ n, t.used code n = s.used code n) : t.bestSorter code size = s.bestSorter code size := by
  unfold State.bestSorter
  simp only [h]

/-- One of the 16 sorters is named. -/
theorem State.bestSorter_lt (s : State) (code size : Nat) : s.bestSorter code size < 16 := by
  unfold State.bestSorter
  refine List.foldlRecOn (motive := (· < 16)) _ _ (by decide) fun best hbest n hn => ?_
  split
  · exact List.mem_range.mp hn
  · exact hbest

/-! ## The chosen command -/

/-- The chosen command's fetch slots return, its completion slot is taken, and admission has none chosen any more. -/
theorem State.begin_eq {s u : State} {op : Nat} {f : Fetched} (h : s.begin_ op = some (f, u)) :
    u = { s with host := { s.host with admitting := none }, cred := u.cred } ∧ dOpcode f.bytes = op
      ∧ (∀ code number, 3 ≤ code → u.used code number = s.used code number) ∧ u.used 0x02 0 = s.used 0x02 0 + 1 := by
  unfold State.begin_ at h
  split at h
  · split at h
    next hop =>
      cases h
      refine ⟨rfl, hop.1, fun code number hcode => ?_, ?_⟩
      · rw [State.used_reserve_other _ (by unfold poolKey; omega), State.used_giveBack_other _ (by unfold poolKey; omega)]
        exact State.used_cred rfl _ _
      · rw [State.used_reserve_same, State.used_giveBack_other _ (by decide)]
        exact congrArg (· + 1) (State.used_cred rfl _ _)
    next => cases h
  · cases h

/-- The command at its lowest free key: as it was fetched, with its number in the order of admission. -/
theorem State.newLive_live (s : State) (o : Origin) (opcode coll order : Nat) (bytes : List Byte) :
    ∃ tag, (s.newLive o opcode coll order bytes).2.live? (Map.freeKey s.host.live 4096 0)
      = some { origin := o, opcode := opcode, coll := coll, bytes := bytes, order := order, admitted := s.host.admitOrder, tag := tag } :=
  ⟨_, Map.get?_put_same⟩

/-- Admission changes but the host's side and a tag; what waits stays. -/
theorem State.newLive_eq (s : State) (o : Origin) (opcode coll order : Nat) (bytes : List Byte) :
    (s.newLive o opcode coll order bytes).2 = { s with
      host := { (s.newLive o opcode coll order bytes).2.host with waiting := s.host.waiting, admitting := s.host.admitting }
      sched := { s.sched with tags := (s.newLive o opcode coll order bytes).2.sched.tags } } := rfl

/-! ## A context -/

theorem State.freeCtx_spec {s : State} {fuel x y : Nat} (h : s.freeCtx fuel x = some y) : x ≤ y ∧ y < x + fuel ∧ s.ctx? y = none := by
  induction fuel generalizing x with
  | zero => cases h
  | succ fuel ih =>
    unfold State.freeCtx at h
    split at h
    next hfree =>
      cases h
      refine ⟨Nat.le_refl _, by omega, ?_⟩
      exact Option.isNone_iff_eq_none.mp (Bool.and_eq_true_iff.mp hfree).1
    next =>
      obtain ⟨hle, hlt, hnone⟩ := ih h
      exact ⟨by omega, by omega, hnone⟩

theorem State.freeCtx_congr {s t : State} (hctxs : t.sched.ctxs = s.sched.ctxs) (hseg : t.seg = s.seg) (fuel x : Nat) : t.freeCtx fuel x = s.freeCtx fuel x := by
  induction fuel generalizing x with
  | zero => rfl
  | succ fuel ih =>
    unfold State.freeCtx State.ctx? State.withheld
    rw [hctxs, hseg, ih]

/-- A local context is taken while one is free: it holds what the command gives it, and it counts. -/
theorem State.newCtx_takes {s : State} {n : Nat} {c : Ctx} (hn : 0 < n) (h : (s.freeCtx n 0).isSome = true) :
    ∃ x u, s.newCtx 0 n c = some (x, u) ∧ x < n ∧ s.ctx? x = none
      ∧ u = (({ s with draws := s.draws + 1 }.newTag x).setCtx x c).reserve 0x03 0 1 := by
  obtain ⟨y, hy⟩ := Option.isSome_iff_exists.mp h
  have hsame : (s.draw.2).freeCtx n 0 = some y := (State.freeCtx_congr (s := s) (t := s.draw.2) rfl rfl n 0).trans hy
  obtain ⟨-, hhi, hnone⟩ := State.freeCtx_spec hy
  unfold State.newCtx
  dsimp only
  by_cases hpick : ((s.draw.2).ctx? (s.draw.1 % n + 0)).isNone && !(s.draw.2).withheld (s.draw.1 % n + 0)
  · rw [if_pos hpick]
    exact ⟨_, _, rfl, Nat.mod_lt _ hn, Option.isNone_iff_eq_none.mp (Bool.and_eq_true_iff.mp hpick).1, rfl⟩
  · rw [if_neg hpick, hsame]
    exact ⟨y, _, rfl, by omega, hnone, rfl⟩

/-! ## The stamp -/

/-- The query receives stamp, day, generation and deadline (R92). -/
theorem State.stampQuery_ready {s : State} {x stamp key : Nat} {q : Ctx} {c : Coll} (hq : s.ctx? x = some q) (hcmd : q.cmd = some key)
    (hc : s.served q.coll = some c) (hk : q.k ≠ 0) (hmedia : c.mediaQuery = false) :
    (s.stampQuery x stamp).ctx? x = some { q with
        stamp := stamp, day := s.today, generation := c.generation, root := c.root, deadline := s.clk.now + q.deadline, phase := .ready }
      ∧ (s.stampQuery x stamp).cred = s.cred := by
  unfold State.stampQuery
  simp only [hq, hcmd, hc]
  rw [if_neg hk, if_neg (by simp [hmedia])]
  cases s.live? key with
  | none => exact ⟨State.ctx_setCtx, rfl⟩
  | some l => exact ⟨State.ctx_setCtx, rfl⟩

theorem State.isSequencer_boot {s t : State} (h : t.boot = s.boot) (c : Coll) : t.isSequencer c = s.isSequencer c := by
  unfold State.isSequencer
  rw [State.deviceId_boot h]

theorem State.cfg_dict {s t : State} (h : t.dict = s.dict) (ix sub : Nat) : t.cfg ix sub = s.cfg ix sub := by
  have hbase : t.baseValue = s.baseValue := funext fun i => funext fun j => State.baseValue_base (congrArg (fun d => d.base) h)
  unfold State.cfg State.acted State.effective State.overlay State.overlayOf
  rw [hbase, h]

/-! ## The end of a live command -/

theorem State.finish_ends (s : State) (key : Nat) (c : Completion) :
    (s.finish key c).live? key = none ∧ (s.finish key c).host.waiting = s.host.waiting ++ [c] := ⟨Map.get?_del_same, rfl⟩

/-- A command that holds neither context nor mutation slot completes with its status alone. -/
theorem State.failLive_plain {s : State} {key status : Nat} {l : Live} (hl : s.live? key = some l) (hctx : l.ctx = none) (hslot : l.mutationSlot = false) :
    s.failLive key status = s.finish key (plain l.origin status) := by
  unfold State.failLive
  simp only [hl, hctx, hslot, Bool.false_eq_true, if_false]

/-! ## A QUERY, a SELECT and a mutation -/

/-- A live command is changed, and nothing else. -/
theorem State.modLive_eq (s : State) (key : Nat) (g : Live → Live) : s.modLive key g = { s with host := (s.modLive key g).host } := by
  unfold State.modLive
  cases s.live? key <;> rfl

/-- A QUERY on the sequencer device: command, context and chunks are taken, and the stamp is here. -/
theorem State.admitQuery_eq {s t v : State} {f : Fetched} {c : Coll} {key x : Nat} (ht : s.takeIn f = (key, t))
    (hnew : t.newCtx 0 Config.queryContexts { queryCtx c f.bytes key f.origin.burrow (t.cfg 0x2100 2) with sorterNo := s.bestSorter 0x04 Config.localChunks } = some (x, v))
    (hk : qK f.bytes ≠ 0) (hseq : v.isSequencer c = true) :
    s.admitQuery f c = ((v.reserve 0x04 (s.bestSorter 0x04 Config.localChunks) (chunksFor (qK f.bytes))).modLive key fun l => { l with ctx := some x }).stampQuery x c.committed := by
  unfold State.admitQuery
  dsimp only
  rw [ht]
  dsimp only
  rw [hnew]
  dsimp only
  rw [if_neg hk]
  refine if_pos ?_
  rw [← hseq]
  refine State.isSequencer_boot ?_ c
  exact (congrArg State.boot (State.modLive_eq _ key fun l => { l with ctx := some x }) :)

theorem State.admitQuery_ready {s : State} {f : Fetched} {c : Coll} (hfree : (s.freeCtx Config.queryContexts 0).isSome = true) (hseq : s.isSequencer c = true)
    (hc : s.served (dColl f.bytes) = some c) (hmedia : c.mediaQuery = false) (hk : qK f.bytes ≠ 0) :
    ∃ x < 4096, s.ctx? x = none ∧ (s.admitQuery f c).ctx? x = some { queryCtx c f.bytes (Map.freeKey s.host.live 4096 0) f.origin.burrow (s.cfg 0x2100 2) with
        sorterNo := s.bestSorter 0x04 Config.localChunks, stamp := c.committed, day := s.today, generation := c.generation, root := c.root
        deadline := s.clk.now + field f.bytes 20 4, phase := .ready }
      ∧ (s.admitQuery f c).used 0x03 0 = s.used 0x03 0 + 1
      ∧ (s.admitQuery f c).used 0x04 (s.bestSorter 0x04 Config.localChunks) = s.used 0x04 (s.bestSorter 0x04 Config.localChunks) + chunksFor (qK f.bytes) := by
  have htaken : (s.takeIn f).2 = _ := s.newLive_eq f.origin (dOpcode f.bytes) (dColl f.bytes) f.order f.bytes
  have htake : s.takeIn f = (Map.freeKey s.host.live 4096 0, (s.takeIn f).2) := rfl
  generalize (s.takeIn f).2 = t at htaken htake
  obtain ⟨x, u, hnew, hx, hnone, hu⟩ := State.newCtx_takes (s := t) (n := Config.queryContexts) (by decide)
    (c := { queryCtx c f.bytes (Map.freeKey s.host.live 4096 0) f.origin.burrow (t.cfg 0x2100 2) with sorterNo := s.bestSorter 0x04 Config.localChunks })
    (by rw [State.freeCtx_congr (s := s) (by rw [htaken]) (by rw [htaken])]; exact hfree)
  have hadmit := State.admitQuery_eq htake hnew hk (by rw [← hseq]; exact State.isSequencer_boot (by rw [hu, htaken]; rfl) c)
  have hsorter := s.bestSorter_lt 0x04 Config.localChunks
  have hcfg : t.cfg 0x2100 2 = s.cfg 0x2100 2 := State.cfg_dict (by rw [htaken]) _ _
  rw [hcfg] at hu
  generalize s.bestSorter 0x04 Config.localChunks = n at *
  have hlive := State.modLive_eq (u.reserve 0x04 n (chunksFor (qK f.bytes))) (Map.freeKey s.host.live 4096 0) fun l => { l with ctx := some x }
  generalize (u.reserve 0x04 n (chunksFor (qK f.bytes))).modLive (Map.freeKey s.host.live 4096 0) (fun l => { l with ctx := some x }) = w at hadmit hlive
  have hctx : w.ctx? x = u.ctx? x := by rw [hlive]; rfl
  have hcolls : w.colls = s.colls := by rw [hlive, hu, htaken]; rfl
  have hclk : w.clk = s.clk := by rw [hlive, hu, htaken]; rfl
  have huctx : u.ctx? x = some { queryCtx c f.bytes (Map.freeKey s.host.live 4096 0) f.origin.burrow (s.cfg 0x2100 2) with sorterNo := n } := by
    rw [hu]
    exact State.ctx_setCtx
  obtain ⟨hready, hcred⟩ := State.stampQuery_ready (stamp := c.committed) (hctx.trans huctx) rfl ((State.served_of_colls hcolls).trans hc) hk hmedia
  have hused (code m : Nat) : (s.admitQuery f c).used code m = (u.reserve 0x04 n (chunksFor (qK f.bytes))).used code m := by
    rw [hadmit]
    exact State.used_cred (hcred.trans (by rw [hlive])) code m
  refine ⟨x, hx, ?_, ?_, ?_, ?_⟩
  · rw [← hnone, htaken]; rfl
  · rw [hadmit, hready, State.today, hclk]; rfl
  · rw [hused, State.used_reserve_other _ (by unfold poolKey; omega), hu, State.used_reserve_same]
    exact congrArg (· + 1) (State.used_cred (by rw [htaken]; rfl) _ _)
  · rw [hused, State.used_reserve_same, hu, State.used_reserve_other _ (by unfold poolKey; omega)]
    exact congrArg (· + _) (State.used_cred (by rw [htaken]; rfl) _ _)

/-- The context a SELECT takes (R252). -/
def selectCtx (f : Fetched) (key now sorter : Nat) : Ctx :=
  { cmd := some key, burrow := f.origin.burrow, coll := selectColl, k := selectK f.bytes, chunks := chunksFor (selectK f.bytes)
    sorterNo := sorter, deadline := now + field f.bytes 20 4, resultAddr := field f.bytes 40 8, phase := .ready, sorter := { k := selectK f.bytes } }

theorem State.admitSelect_eq {s t v : State} {f : Fetched} {key x : Nat} (ht : s.newLive f.origin 0x20 selectColl f.order f.bytes = (key, t))
    (hnew : t.newCtx 0 Config.queryContexts (selectCtx f key t.clk.now (s.bestSorter 0x04 Config.localChunks)) = some (x, v)) (hk : selectK f.bytes ≠ 0) :
    s.admitSelect f = (v.reserve 0x04 (s.bestSorter 0x04 Config.localChunks) (chunksFor (selectK f.bytes))).modLive key fun l => { l with ctx := some x } := by
  unfold selectCtx at hnew
  unfold State.admitSelect
  dsimp only
  rw [ht]
  dsimp only
  rw [hnew]
  dsimp only
  rw [if_neg (by simp [hk]), if_neg (by simp [hk])]
  rfl

theorem State.admitSelect_ready {s : State} {f : Fetched} (hfree : (s.freeCtx Config.queryContexts 0).isSome = true) (hk : selectK f.bytes ≠ 0) :
    ∃ x < 4096, s.ctx? x = none
      ∧ (s.admitSelect f).ctx? x = some (selectCtx f (Map.freeKey s.host.live 4096 0) s.clk.now (s.bestSorter 0x04 Config.localChunks))
      ∧ (s.admitSelect f).used 0x03 0 = s.used 0x03 0 + 1 := by
  have htaken : (s.newLive f.origin 0x20 selectColl f.order f.bytes).2 = _ := s.newLive_eq f.origin 0x20 selectColl f.order f.bytes
  have htake : s.newLive f.origin 0x20 selectColl f.order f.bytes = (Map.freeKey s.host.live 4096 0, (s.newLive f.origin 0x20 selectColl f.order f.bytes).2) := rfl
  generalize (s.newLive f.origin 0x20 selectColl f.order f.bytes).2 = t at htaken htake
  have hclk : t.clk = s.clk := by rw [htaken]
  obtain ⟨x, u, hnew, hx, hnone, hu⟩ := State.newCtx_takes (s := t) (n := Config.queryContexts)
    (c := selectCtx f (Map.freeKey s.host.live 4096 0) t.clk.now (s.bestSorter 0x04 Config.localChunks)) (by decide)
    (by rw [State.freeCtx_congr (s := s) (by rw [htaken]) (by rw [htaken])]; exact hfree)
  have hadmit := State.admitSelect_eq htake hnew hk
  rw [hclk] at hu
  have hlive := State.modLive_eq (u.reserve 0x04 (s.bestSorter 0x04 Config.localChunks) (chunksFor (selectK f.bytes)))
    (Map.freeKey s.host.live 4096 0) fun l => { l with ctx := some x }
  rw [← hadmit] at hlive
  have hsorter := s.bestSorter_lt 0x04 Config.localChunks
  refine ⟨x, hx, ?_, ?_, ?_⟩
  · rw [← hnone, htaken]; rfl
  · rw [hlive, hu]
    exact State.ctx_setCtx
  · rw [hlive]
    refine (State.used_cred (s := u.reserve 0x04 (s.bestSorter 0x04 Config.localChunks) (chunksFor (selectK f.bytes))) rfl _ _).trans ?_
    rw [State.used_reserve_other _ (by unfold poolKey; omega), hu, State.used_reserve_same]
    exact congrArg (· + 1) (State.used_cred (by rw [htaken]; rfl) _ _)

/-! ## FENCE -/

/-- A FENCE without STAMP ends with its status. -/
theorem State.execFenceComplete_plain {b : Fin 64} {q : Fin 16} {key : Nat} {l : Live} {s : State} (hfence : s.liveFence b q = some (key, l))
    (hdone : s.fenceDone key l = true) (hstamp : (dFlags l.bytes).testBit 1 = false) : exec (.fenceComplete b q) s = .next (s.failLive key stOk) := by
  change execFenceComplete b q s = _
  unfold execFenceComplete
  simp only [hfence, hdone, hstamp, Bool.true_eq_false, if_false, if_true]

/-- A FENCE with STAMP on the sequencer device tells the committed sequence. -/
theorem State.execFenceComplete_stamp {b : Fin 64} {q : Fin 16} {key : Nat} {l : Live} {c : Coll} {s : State} (hfence : s.liveFence b q = some (key, l))
    (hdone : s.fenceDone key l = true) (hstamp : (dFlags l.bytes).testBit 1 = true) (hc : s.served (dColl l.bytes) = some c) (hrec : c.recovered = none)
    (hseq : s.isSequencer c = true) :
    exec (.fenceComplete b q) s = .next (s.finish key { origin := l.origin, status := stOk, stamp := c.committed }) := by
  change execFenceComplete b q s = _
  unfold execFenceComplete
  simp only [hfence, hdone, hstamp, hc, hrec, hseq, Bool.true_eq_false, if_false, if_true]

theorem State.stampLive_export {s : State} {key stamp : Nat} {l : Live} {c : Coll} (hl : s.live? key = some l) (hop : l.opcode = 0x54) (hc : s.coll? l.coll = some c) :
    (s.stampLive key stamp).live? key
      = some { l with data := toLE 6 stamp, passed := true, exporting := some { stamp := stamp, generation := c.generation, root := c.root } } := by
  unfold State.stampLive
  simp only [hl, hop, hc, if_true, Option.map_some]
  exact State.live_setLive

theorem State.live_modLive {s : State} {key : Nat} {g : Live → Live} {l : Live} (hl : s.live? key = some l) : (s.modLive key g).live? key = some (g l) := by
  unfold State.modLive
  rw [hl]
  exact State.live_setLive

/-- A command admitted with nothing but its live slot. -/
theorem State.takeIn_live {s u v : State} {op : Nat} {f : Fetched} (h : s.begin_ op = some (f, u)) (hv : v.host = u.host) : ∃ tag,
    (v.takeIn f).2.live? (Map.freeKey s.host.live 4096 0) = some { origin := f.origin, opcode := op, coll := dColl f.bytes, bytes := f.bytes
                                                                   order := f.order, admitted := s.host.admitOrder, tag := tag } := by
  obtain ⟨hu, hop, -, -⟩ := State.begin_eq h
  obtain ⟨tag, hl⟩ := v.newLive_live f.origin (dOpcode f.bytes) (dColl f.bytes) f.order f.bytes
  have hlive : v.host.live = s.host.live := by rw [hv, hu]
  have horder : v.host.admitOrder = s.host.admitOrder := by rw [hv, hu]
  rw [hop, hlive, horder] at hl
  refine ⟨tag, ?_⟩
  rw [State.takeIn, hop]
  exact hl

/-- Settles O51: what each command takes, from the admission it passes. -/
theorem hostCommandsAreAdmitted : Obligations.HostCommandsAreAdmitted := by
  refine ⟨?query, ?select, ?mutation, ?fence, ?fenceEnds, ?fenceStamps, ?manage, ?load, ?exports⟩
  case query =>
    intro f c s u hbegin hcheck hc hcredits hseq hmedia hk
    obtain ⟨hu, -, hused, -⟩ := State.begin_eq hbegin
    obtain ⟨hfree, -⟩ := Bool.and_eq_true_iff.mp hcredits
    have hexec : exec .query s = .next (u.admitQuery f c) := by
      change execQuery s = _
      unfold execQuery
      simp only [hbegin, hcheck, hc, hcredits, if_true]
    refine Runs.of hexec ?_
    have hready := State.admitQuery_ready (s := u) (f := f) (c := c) (by rw [State.freeCtx_congr (s := s) (by rw [hu]) (by rw [hu])]; exact hfree)
      ((State.isSequencer_boot (by rw [hu]) c).trans hseq) ((State.served_of_colls (by rw [hu])).trans hc) hmedia hk
    have hbest : u.bestSorter 0x04 Config.localChunks = s.bestSorter 0x04 Config.localChunks := State.bestSorter_congr fun n => hused 4 n (by decide)
    have hcfg : u.cfg 0x2100 2 = s.cfg 0x2100 2 := State.cfg_dict (by rw [hu]) _ _
    have hlive : u.host.live = s.host.live := by rw [hu]
    have hclk : u.clk = s.clk := by rw [hu]
    have hctxs (x : Nat) : u.ctx? x = s.ctx? x := by rw [hu]; rfl
    simpa only [hbest, hcfg, hlive, hclk, hctxs, State.today, hused 4 _ (by decide), hused 3 _ (by decide)] using hready
  case select =>
    intro f s u hbegin hcheck hcredits hk
    obtain ⟨hu, -, hused, -⟩ := State.begin_eq hbegin
    obtain ⟨hfree, -⟩ := Bool.and_eq_true_iff.mp hcredits
    have hexec : exec .select s = .next (u.admitSelect f) := by
      change execSelect s = _
      unfold execSelect
      simp only [hbegin, hcheck, hcredits, if_true]
    refine Runs.of hexec ?_
    obtain ⟨x, hx, hnone, hctx, hcount⟩ := State.admitSelect_ready (s := u) (f := f)
      (by rw [State.freeCtx_congr (s := s) (by rw [hu]) (by rw [hu])]; exact hfree) hk
    have hclk : u.clk = s.clk := by rw [hu]
    refine ⟨x, hx, ?_, _, hctx, rfl, rfl, ?_, rfl, ?_⟩
    · rw [← hnone, hu]; rfl
    · rw [← hclk]; rfl
    · rw [hcount, hused 3 0 (by decide)]
  case mutation =>
    intro p hp f s u hbegin hcheck hfree
    obtain ⟨hu, -, hused, hslot⟩ := State.begin_eq hbegin
    obtain ⟨tag, hl⟩ := State.takeIn_live hbegin rfl
    have hkey : (u.takeIn f).1 = Map.freeKey s.host.live 4096 0 := by rw [hu]; rfl
    have hkept := u.newLive_eq f.origin (dOpcode f.bytes) (dColl f.bytes) f.order f.bytes
    have hadmit : s.admitMutation p.2 = ((u.takeIn f).2.reserve 0x05 0 1).modLive (Map.freeKey s.host.live 4096 0) fun l => { l with mutationSlot := true } := by
      unfold State.admitMutation
      simp only [hbegin, hcheck, hfree, if_true, hkey]
    change (u.takeIn f).2 = _ at hkept
    generalize (u.takeIn f).2 = t at *
    have hexec : exec p.1 s = .next (s.admitMutation p.2) := by
      simp only [List.mem_cons, List.not_mem_nil, or_false] at hp
      rcases hp with rfl | rfl | rfl <;> rfl
    refine Runs.of (hexec.trans (congrArg Host.Outcome.next hadmit)) ?_
    have hcred : (((t.reserve 0x05 0 1).modLive (Map.freeKey s.host.live 4096 0) fun l => { l with mutationSlot := true }).cred) = (t.reserve 0x05 0 1).cred :=
      (congrArg State.cred (State.modLive_eq _ _ _) :)
    have htcred : t.cred = u.cred := by rw [hkept]
    refine ⟨_, State.live_modLive (s := t.reserve 0x05 0 1) hl, rfl, rfl, rfl, rfl, rfl, ?_, ?_, ?_⟩
    · rw [State.used_cred hcred, State.used_reserve_same, State.used_cred htcred, hused 5 0 (by decide)]
    · rw [State.used_cred hcred, State.used_reserve_other _ (by decide), State.used_cred htcred, hslot]
    · have hadmitting : t.host.admitting = none := by rw [hkept, hu]
      unfold State.modLive
      cases (t.reserve 0x05 0 1).live? (Map.freeKey s.host.live 4096 0) <;> exact hadmitting
  case fence =>
    intro f s u hbegin hcheck
    obtain ⟨hu, -, -, -⟩ := State.begin_eq hbegin
    obtain ⟨tag, hl⟩ := State.takeIn_live hbegin rfl
    have hexec : exec .fence s = .next (u.takeIn f).2 := by
      change execFence s = _
      unfold execFence
      simp only [hbegin, hcheck]
    refine Runs.of hexec ⟨_, hl, rfl, rfl, rfl, rfl, ?_⟩
    have hwaiting : u.host.waiting = s.host.waiting := by rw [hu]
    exact hwaiting
  case fenceEnds =>
    intro b q key l s hfence hl hdone hctx hslot hstamp
    have hexec := (State.execFenceComplete_plain hfence hdone hstamp).trans (congrArg Host.Outcome.next (State.failLive_plain (status := stOk) hl hctx hslot))
    exact Runs.of hexec (s.finish_ends key _)
  case fenceStamps =>
    intro b q key l c s hfence hdone hstamp hc hrec hseq
    exact Runs.of (State.execFenceComplete_stamp hfence hdone hstamp hc hrec hseq) (s.finish_ends key _)
  case manage =>
    intro p hp f s u hbegin hcheck
    obtain ⟨tag, hl⟩ := State.takeIn_live hbegin rfl
    have hadmit : s.admitManage p.2 = (u.takeIn f).2 := by
      unfold State.admitManage
      simp only [hbegin, hcheck]
    have hexec : exec p.1 s = .next (s.admitManage p.2) := by
      simp only [List.mem_cons, List.not_mem_nil, or_false] at hp
      rcases hp with rfl | rfl <;> rfl
    exact Runs.of (hexec.trans (congrArg Host.Outcome.next hadmit)) ⟨_, hl, rfl, rfl, rfl, rfl⟩
  case load =>
    intro f c data s u hbegin hcheck hc hlen himage
    obtain ⟨hu, -, -, -⟩ := State.begin_eq hbegin
    obtain ⟨tag, hl⟩ := State.takeIn_live (v := u.emit (.hostRead (f.origin.burrow + 1) (field f.bytes 16 8) data.length)) hbegin rfl
    have hexec : exec (.loadLists data) s = .next ((u.emit (.hostRead (f.origin.burrow + 1) (field f.bytes 16 8) data.length)).takeIn f).2 := by
      change execLoadLists data s = _
      unfold execLoadLists
      simp only [hbegin, hcheck, hc, hlen, himage, ne_eq, not_true_eq_false, if_false]
    refine Runs.of hexec ⟨_, hl, rfl, rfl, rfl, ?_⟩
    have hout : u.out = s.out := by rw [hu]
    exact congrArg (· ++ _) hout
  case exports =>
    intro f c s u hbegin hcheck hc hseq
    obtain ⟨tag, hl⟩ := State.takeIn_live hbegin rfl
    obtain ⟨hu, -, -, -⟩ := State.begin_eq hbegin
    have hkey : (u.takeIn f).1 = Map.freeKey s.host.live 4096 0 := by rw [hu]; rfl
    have hseq' : (u.takeIn f).2.isSequencer c = true := hseq
    have hexec : exec .snapshotExport s = .next ((u.takeIn f).2.stampLive (Map.freeKey s.host.live 4096 0) c.committed) := by
      change execSnapshotExport s = _
      unfold execSnapshotExport
      simp only [hbegin, hcheck, hc, hkey, hseq', if_true]
    have hcoll : (u.takeIn f).2.coll? (dColl f.bytes) = some c := State.served_coll hc
    exact Runs.of hexec ⟨_, State.stampLive_export hl rfl hcoll, rfl, rfl, rfl⟩

end Sys2Proof.Machine
end

section
/-! Program loads, the creation of a collection, and the payload commands (O52). -/

namespace Sys2Proof.Machine

/-! ## Kernels -/

/-- The state with a kernel loaded on one tile (R243). -/
def State.loadTile (slot : Nat) (k : Kernel) (s : State) (t : Nat) : State :=
  s.setTile t { s.tile t with
    mem := if k.owner = 0xFF then (s.tile t).mem else Memory.writeN 0 (s.tile t).mem (dataBase slot) k.data
    faulted := (s.tile t).faulted.filter (· != slot) }

theorem State.loadKernel_eq (s : State) (slot : Nat) (k : Kernel) :
    s.loadKernel slot k = (List.range 256).foldl (State.loadTile slot k) (s.setKernel slot k) := rfl

theorem State.foldl_loadTile_kept (slot : Nat) (k : Kernel) (l : List Nat) (s : State) :
    (l.foldl (State.loadTile slot k) s).grid.kernels = s.grid.kernels ∧ (l.foldl (State.loadTile slot k) s).host = s.host := by
  induction l generalizing s with
  | nil => exact ⟨rfl, rfl⟩
  | cons t l ih => exact ih (s.loadTile slot k t)

/-- A tile that has lost its FAULTED mark does not get it back. -/
theorem State.foldl_loadTile_clear (slot : Nat) (k : Kernel) {i : Nat} (l : List Nat) (s : State) (h : i ∈ l ∨ slot ∉ (s.tile i).faulted) :
    slot ∉ ((l.foldl (State.loadTile slot k) s).tile i).faulted := by
  induction l generalizing s with
  | nil => exact h.resolve_left (by simp)
  | cons t l ih =>
    refine ih _ ?_
    by_cases hit : i = t
    · right
      rw [hit, State.loadTile, State.tile_setTile]
      simp
    · refine (h.imp (fun hmem => (List.mem_cons.mp hmem).resolve_left hit) fun hclear => ?_)
      have hsame : (s.loadTile slot k t).tile i = s.tile i := Map.getD_put_other (Ne.symm hit)
      rwa [hsame]

/-- A kernel that is loaded stands in its slot, and no tile marks the slot FAULTED. -/
theorem State.loadKernel_loads (s : State) (slot : Nat) (k : Kernel) :
    (s.loadKernel slot k).kernel slot = k ∧ (s.loadKernel slot k).host = s.host ∧ ∀ i : Fin 256, slot ∉ ((s.loadKernel slot k).tile i).faulted := by
  rw [State.loadKernel_eq]
  obtain ⟨hkernels, hhost⟩ := State.foldl_loadTile_kept slot k (List.range 256) (s.setKernel slot k)
  refine ⟨?_, hhost, fun i => State.foldl_loadTile_clear slot k _ _ (.inl (List.mem_range.mpr i.isLt))⟩
  unfold State.kernel
  rw [hkernels]
  exact State.kernel_setKernel

theorem State.programKey_dict {s t : State} (h : t.dict = s.dict) (i : Nat) : t.programKey i = s.programKey i := by
  have hbase : t.baseValue = s.baseValue := funext fun i => funext fun j => State.baseValue_base (congrArg (fun d => d.base) h)
  unfold State.programKey State.effective State.overlay State.overlayOf
  rw [hbase, h]

/-! ## A collection -/

/-- Generation 0 of a collection: its root. -/
theorem State.makeColl_of {s w : State} {g r : Nat} {c : Coll} (h : s.alloc c.owner 6 g Config.noSegment 0 = some (r, w)) :
    ∃ u, s.makeColl g c = some u ∧ u.coll? g = some { c with generation := 0, root := r } ∧ u.host = s.host := by
  have hhost : w.host = s.host := (Via.caseOptSnd State.alloc_only h).host
  unfold State.makeColl
  rw [h]
  refine ⟨_, rfl, ?_, ?_⟩
  · exact (congrArg (fun m => Map.get? m g) State.segWrite_only.colls).trans State.coll_setColl
  · exact State.segWrite_only.host.trans hhost

/-- A creation that ended well serves its collection and completes. -/
theorem State.endCreation_ok {s : State} {g : Nat} {c : Coll} {k : Creation} {l : Live} (hk : k.status = stOk) (hl : s.live? k.cmd = some l)
    (hctx : l.ctx = none) (hslot : l.mutationSlot = false) :
    (s.endCreation g c k).coll? g = some { c with created := true, seqr := c.seqr.map fun q => { q with creation := none } }
      ∧ (s.endCreation g c k).host.waiting = s.host.waiting ++ [plain l.origin stOk] := by
  have hended : s.endCreation g c k
      = (s.setColl g { c with created := true, seqr := c.seqr.map fun q => { q with creation := none } }).finish k.cmd (plain l.origin stOk) := by
    unfold State.endCreation
    rw [if_pos hk]
    exact State.failLive_plain hl hctx hslot
  rw [hended]
  exact ⟨State.coll_setColl, rfl⟩

/-! ## Payloads -/

/-- A version that leaves the directory is there no more. -/
theorem State.unpublish_handle (s : State) (b h : Nat) : (s.unpublish b h).handle b h = none := by
  unfold State.unpublish
  cases hv : s.handle b h with
  | none => exact hv
  | some v =>
    unfold State.handle
    split
    · rfl
    · exact Map.get?_del_same

/-- What a segment holds is a matter of the map, the memory and the stash buffer. -/
theorem State.segRead_congr {s t : State} (hseg : t.seg = s.seg) (hmem : t.mem = s.mem) (hstash : t.stash = s.stash) (n off len : Nat) :
    t.segRead n off len = s.segRead n off len := by
  unfold State.segRead State.seg_ State.frameBytes
  rw [hseg, hmem, hstash]

theorem State.segWrite_mem_congr {s t : State} (hseg : t.seg = s.seg) (hmem : t.mem = s.mem) (n off : Nat) (bs : List Byte) :
    (t.segWrite n off bs).mem = (s.segWrite n off bs).mem := by
  unfold State.segWrite State.seg_ State.writeFrame
  rw [hseg]
  split
  · exact hmem
  · rw [hmem]

theorem exec_payloadWrite_of {key : Nat} {data : List Byte} {s : State} (hbegin : s.begin_ 0x31 = none) (hkey : s.oldestLive 0x31 = some key) :
    exec (.payloadWrite data) s = .next (s.payWriteGoes key) := by
  change execPayloadWrite data s = _
  unfold execPayloadWrite
  simp only [hbegin, hkey]

theorem exec_payloadRead_of {key : Nat} {s : State} (hbegin : s.begin_ 0x30 = none) (hkey : s.oldestLive 0x30 = some key) :
    exec .payloadRead s = .next (s.payReadGoes key) := by
  change execPayloadRead s = _
  unfold execPayloadRead
  simp only [hbegin, hkey]

/-- A PAYLOAD_WRITE that publishes ends with what it published. -/
theorem State.payWriteGoes_of {s u : State} {key status count : Nat} {l : Live} (hl : s.live? key = some l)
    (hpublish : s.payPublish l.origin.burrow l.bytes l.data = some (u, status, count)) :
    s.payWriteGoes key = u.finish key { plain l.origin status with count := count } := by
  unfold State.payWriteGoes
  simp only [hl, hpublish]

/-- The state with a version of `n` elements stored and in the directory (R265). -/
def State.published (s : State) (b seg first : Nat) (d src : List Byte) : State :=
  let size := (payFmtOf d).stored (field d 8 4)
  let u := ((s.useRun seg first (granulesFor size)).segWrite seg (4096 * first) (storedForm (payFmtOf d) (field d 8 4) src)).unpublish b (field d 4 4)
  { u with pay := { u.pay with handles := Map.put u.pay.handles (b * 2 ^ 24 + field d 4 4)
                                            { fmt := payFmtOf d, n := field d 8 4, s := size, seg := seg, granule := first } } }

theorem State.payPublish_stores {s w : State} {b seg first : Nat} {d src : List Byte} (hn : field d 8 4 ≠ 0) (hsrc : badSource d src = false)
    (hpage : s.hasPage b (field d 4 4) = true) (hrun : s.findRun b (granulesFor ((payFmtOf d).stored (field d 8 4))) = some (seg, first))
    (hcharge : s.charge b (tokensFor ((payFmtOf d).stored (field d 8 4))) = some w) :
    s.payPublish b d src = some (w.published b seg first d src, stOk, (payFmtOf d).stored (field d 8 4)) := by
  have hneed : s.needPage b (field d 4 4) = some s := if_pos hpage
  have hroom : s.needRun b (granulesFor ((payFmtOf d).stored (field d 8 4))) = some ((seg, first), s) := by
    unfold State.needRun
    simp only [hrun]
  unfold State.payPublish
  simp only [if_neg hn, hsrc, Bool.false_eq_true, if_false, hneed, hroom, hcharge, Option.map_some]
  rfl

theorem State.published_holds {s w : State} {b seg first n : Nat} {d src : List Byte} (hh : field d 4 4 ≠ 0) (hcharge : s.charge b n = some w) :
    (w.published b seg first d src).handle b (field d 4 4) = some {
        fmt := payFmtOf d, n := field d 8 4, s := (payFmtOf d).stored (field d 8 4), seg := seg, granule := first }
      ∧ (w.published b seg first d src).mem = (s.segWrite seg (4096 * first) (storedForm (payFmtOf d) (field d 8 4) src)).mem
      ∧ (w.published b seg first d src).host = s.host := by
  have hw := Via.caseOpt State.charge_only hcharge
  refine ⟨?_, ?_, ?_⟩
  · exact (if_neg hh).trans Map.get?_put_same
  · refine State.unpublish_only.mem.trans ?_
    exact State.segWrite_mem_congr (t := w.useRun seg first (granulesFor ((payFmtOf d).stored (field d 8 4)))) hw.seg hw.mem _ _ _
  · exact State.unpublish_only.host.trans (State.segWrite_only.host.trans hw.host)

/-- A handle without a version is told in the header. -/
theorem State.payReadGoes_absent {s : State} {key : Nat} {l : Live} (hl : s.live? key = some l)
    (hv : s.handle l.origin.burrow (field l.bytes 4 4) = none) (hroom : 64 ≤ field l.bytes 24 4) :
    s.payReadGoes key = (s.emit (.write (l.origin.burrow + 1) (field l.bytes 16 8) (payHeader (field l.bytes 4 4) 0xFF 1 0 0 0) true)).finish key
      (plain l.origin stOk) := by
  unfold State.payReadGoes
  simp only [hl, hv, if_neg (Nat.not_lt.mpr hroom), Nat.add_zero]

/-- A version is read as it is stored: header, then body. -/
theorem State.payReadGoes_stored {s w : State} {key : Nat} {l : Live} {v : Handle} (hl : s.live? key = some l)
    (hv : s.handle l.origin.burrow (field l.bytes 4 4) = some v) (hgood : v.damaged = false) (hform : (dFlags l.bytes).testBit 0 = false)
    (hroom : 64 + v.s ≤ field l.bytes 24 4) (hread : s.readable v.seg = true) (hcharge : s.charge l.origin.burrow (tokensFor v.s) = some w) :
    s.payReadGoes key = (((w.emit (.write (l.origin.burrow + 1) (field l.bytes 16 8) (payHeader (field l.bytes 4 4) v.fmt.code 0 0 64 v.n) true)).emit
      (.write (l.origin.burrow + 1) (field l.bytes 16 8 + 64) (w.payloadBytes v) true)).touch v.seg).finish key { plain l.origin stOk with count := 64 + v.s } := by
  have hsize : bodySize v false = v.s := rfl
  have hbody : payBody v (w.payloadBytes v) false = (w.payloadBytes v, false) := rfl
  unfold State.payReadGoes
  simp only [hl, hv, hgood, hform, hsize, hbody, State.payReady, hread, hcharge, if_neg (Nat.not_lt.mpr hroom), Bool.false_eq_true, if_false, Bool.not_true,
    Nat.add_zero]

/-- Some granule of the page stays in use: the page stays. -/
theorem State.freeGranules_some {s : State} {v : Handle} {us : List Nat} (hus : Map.get? s.pay.granules v.seg = some us)
    (hleft : ∃ j ∈ us, j < v.granule ∨ v.granule + granulesFor v.s ≤ j) :
    s.freeGranules v = { s with pay := { s.pay with granules := (Map.put s.pay.granules v.seg
      (us.filter fun j => !((List.range (granulesFor v.s)).map (v.granule + ·)).contains j)) } } := by
  obtain ⟨j, hj, hout⟩ := hleft
  have hmem : j ∈ us.filter fun j => !((List.range (granulesFor v.s)).map (v.granule + ·)).contains j := by
    refine List.mem_filter.mpr ⟨hj, ?_⟩
    simp only [Bool.not_eq_true', List.contains_eq_mem, decide_eq_false_iff_not, List.mem_map, List.mem_range, not_exists, not_and]
    omega
  unfold State.freeGranules
  simp only [hus]
  exact if_neg fun h => by rw [h.1] at hmem; cases hmem

/-- Settles O52: programs, the creation, and the payload commands, each by its own rule. -/
theorem programsCollectionsAndPayloads : Obligations.ProgramsCollectionsAndPayloads := by
  refine ⟨?empties, ?loads, ?create, ?removes, ?writes, ?absent, ?reads, ?frees⟩
  case empties =>
    intro f data s u hbegin hok hlen
    obtain ⟨hu, -, -, -⟩ := State.begin_eq hbegin
    have hexec : exec (.programLoad data) s = .next ((u.loadKernel (field f.bytes 4 1) {}).complete (plain f.origin stOk)) := by
      change execProgramLoad data s = _
      unfold execProgramLoad
      simp only [hbegin, hok, hlen, Bool.true_eq_false, if_false, if_true]
    obtain ⟨hkernel, hhost, hclear⟩ := u.loadKernel_loads (field f.bytes 4 1) {}
    generalize u.loadKernel (field f.bytes 4 1) {} = v at hexec hkernel hhost hclear
    refine Runs.of hexec ⟨hkernel, ?_, hclear⟩
    have hwaiting : v.host.waiting = s.host.waiting := by rw [hhost, hu]
    exact congrArg (· ++ [plain f.origin stOk]) hwaiting
  case loads =>
    intro f data pk k s u hbegin hok hn hlen hk hkey hpk
    obtain ⟨hu, -, -, -⟩ := State.begin_eq hbegin
    obtain ⟨v, hv⟩ : ∃ v, v = u.emit (.hostRead (f.origin.burrow + 1) (field f.bytes 8 8) (field f.bytes 16 4)) := ⟨_, rfl⟩
    have hvkey : v.programKey (field data 7 1) = some pk := (State.programKey_dict (by rw [hv, hu]; rfl) _).trans hpk
    have hvhost : v.host.waiting = s.host.waiting := by rw [hv, hu]; rfl
    have hexec : exec (.programLoad data) s = .next (if signatureOk pk data then (v.loadKernel (field f.bytes 4 1) k).complete (plain f.origin stOk)
        else (v.logEvent 0x0701 (toLE 1 (field f.bytes 4 1))).refuse f stInvalid) := by
      change execProgramLoad data s = _
      unfold execProgramLoad
      have hin : ¬ (field data 7 1 = 0 ∨ 4 < field data 7 1) := by omega
      simp only [hbegin, hok, hlen, hn, hk, hin, Bool.true_eq_false, ne_eq, not_true_eq_false, if_false]
      rw [← hv]
      simp only [hvkey]
    refine Runs.of hexec ?_
    cases signatureOk pk data with
    | true =>
      obtain ⟨hkernel, hhost, -⟩ := v.loadKernel_loads (field f.bytes 4 1) k
      simp only [if_true]
      generalize v.loadKernel (field f.bytes 4 1) k = w at hkernel hhost ⊢
      exact ⟨hkernel, congrArg (· ++ [plain f.origin stOk]) ((congrArg HostIf.waiting hhost).trans hvhost)⟩
    | false =>
      simp only [Bool.false_eq_true, if_false]
      have hvgrid : v.grid = s.grid := by rw [hv, hu]; rfl
      have hvlast : v.log.last = s.log.last := by rw [hv, hu]; rfl
      refine ⟨State.logFrom_grid.trans hvgrid, ?_, ?_⟩
      · exact congrArg (· ++ [plain f.origin stInvalid]) (State.logFrom_waiting.trans hvhost)
      · exact State.logFrom_last.trans (congrArg nextEntry hvlast)
  case create =>
    intro f r c s u v w hbegin hcheck halone htake halloc hc
    obtain ⟨hu, -, -, -⟩ := State.begin_eq hbegin
    obtain ⟨tag, hl⟩ := State.takeIn_live hbegin rfl
    have hkept : (u.takeIn f).2.host.waiting = u.host.waiting := rfl
    rw [htake] at hl hkept
    obtain ⟨k, hk⟩ : ∃ k : Creation, k = { cmd := Map.freeKey s.host.live 4096 0, waiting := [] } := ⟨_, rfl⟩
    obtain ⟨x, hmake, hcoll, hhost⟩ := State.makeColl_of (s := v) (g := dColl f.bytes) (r := r) (w := w)
      (c := { c with created := false, seqr := some { creation := some k } }) (by rw [hc]; exact halloc)
    have hexec : exec .collectionCreate s
        = .next (x.endCreation (dColl f.bytes) { c with created := false, seqr := some { creation := some k }, generation := 0, root := r } k) := by
      rw [hk, hc] at hmake hcoll ⊢
      change execCollectionCreate s = _
      unfold execCollectionCreate
      simp only [hbegin, hcheck, halone, htake, List.map_nil, List.flatten_nil, if_true, hmake, hcoll, Option.getD_some]
    have hlive : x.live? k.cmd = v.live? (Map.freeKey s.host.live 4096 0) := by
      rw [hk]
      exact congrArg (fun h : HostIf => Map.get? h.live (Map.freeKey s.host.live 4096 0)) hhost
    obtain ⟨hdone, hwaits⟩ := State.endCreation_ok (g := dColl f.bytes)
      (c := { c with created := false, seqr := some { creation := some k }, generation := 0, root := r }) (by rw [hk]; rfl) (hlive.trans hl) rfl rfl
    refine Runs.of hexec ⟨hdone, ?_⟩
    have hwaiting : x.host.waiting = s.host.waiting := by
      rw [hhost]
      refine hkept.trans ?_
      rw [hu]
    exact hwaits.trans (congrArg (· ++ [plain f.origin stOk]) hwaiting)
  case removes =>
    intro key l data s hbegin hkey hl hn
    have hpublish : s.payPublish l.origin.burrow l.bytes l.data = some (s.unpublish l.origin.burrow (field l.bytes 4 4), stOk, 0) := if_pos hn
    refine Runs.of ((exec_payloadWrite_of hbegin hkey).trans (congrArg Host.Outcome.next (State.payWriteGoes_of hl hpublish))) ⟨?_, Map.get?_del_same, ?_⟩
    · exact s.unpublish_handle _ _
    · exact congrArg (fun h => h.waiting ++ _) State.unpublish_only.host
  case writes =>
    intro key seg first l data s w hbegin hkey hl hh hn hsrc hpage hrun hcharge
    have hpublish := State.payPublish_stores hn hsrc hpage hrun hcharge
    obtain ⟨hhandle, hmem, hhost⟩ := State.published_holds (seg := seg) (first := first) (src := l.data) hh hcharge
    refine Runs.of ((exec_payloadWrite_of hbegin hkey).trans (congrArg Host.Outcome.next (State.payWriteGoes_of hl hpublish))) ⟨hhandle, hmem, ?_⟩
    exact congrArg (fun h => h.waiting ++ _) hhost
  case absent =>
    intro key l s hbegin hkey hl hv hroom
    exact Runs.of ((exec_payloadRead_of hbegin hkey).trans (congrArg Host.Outcome.next (State.payReadGoes_absent hl hv hroom))) ⟨rfl, rfl⟩
  case reads =>
    intro key l v s w hbegin hkey hl hv hgood hform hroom hread hcharge
    have hw := Via.caseOpt State.charge_only hcharge
    refine Runs.of ((exec_payloadRead_of hbegin hkey).trans (congrArg Host.Outcome.next (State.payReadGoes_stored hl hv hgood hform hroom hread hcharge))) ⟨?_, ?_⟩
    · have hbytes : w.payloadBytes v = s.payloadBytes v := State.segRead_congr hw.seg hw.mem hw.stash _ _ _
      have hout (a b : Out) (n : Nat) : (((w.emit a).emit b).touch n).out = w.out ++ [a, b] :=
        State.touch_only.out.trans (List.append_assoc w.out [a] [b])
      refine (hout _ _ v.seg).trans ?_
      rw [hw.out, hbytes]
    · have hhost (a b : Out) (n : Nat) : (((w.emit a).emit b).touch n).host = s.host := State.touch_only.host.trans hw.host
      exact congrArg (fun h : HostIf => h.waiting ++ [{ plain l.origin stOk with count := 64 + v.s }]) (hhost _ _ v.seg)
  case frees =>
    intro i b v us s hi hus hleft
    have hexec : exec (.payloadGranuleFree i) s = .next (({ s with pay := { s.pay with old := s.pay.old.eraseIdx i } } : State).freeGranules v) := by
      change execPayloadGranuleFree i s = _
      unfold execPayloadGranuleFree
      simp only [hi]
    refine Runs.of hexec ?_
    exact congrArg State.pay (State.freeGranules_some (s := { s with pay := { s.pay with old := s.pay.old.eraseIdx i } }) hus hleft)

end Sys2Proof.Machine
end

section
/-! The life of a query (O53): its stamp, dispatch, ranking and deadline. -/

namespace Sys2Proof.Machine

/-! ## Folds and keys -/

/-- A fold that acts at one element of its list, once. -/
theorem foldl_at {α β : Type} {f : α → β → α} {l : List β} {x : β} {a b : α} (hx : x ∈ l) (hother : ∀ y, y ≠ x → f a y = a) (hat : f a x = b)
    (hdone : ∀ y, f b y = b) : l.foldl f a = b := by
  induction l with
  | nil => cases hx
  | cons y l ih =>
    have hrest : l.foldl f b = b := List.foldlRecOn (motive := (· = b)) l f rfl fun c hc y _ => hc ▸ hdone y
    by_cases hy : y = x
    · rw [List.foldl_cons, hy, hat, hrest]
    · rw [List.foldl_cons, hother y hy]
      exact ih ((List.mem_cons.mp hx).resolve_left (Ne.symm hy))

theorem Map.mem_keys_of_get? {α : Type} {m : Map α} {i : Nat} {v : α} (h : Map.get? m i = some v) : i ∈ Map.keys m := by
  induction m with
  | nil => cases h
  | cons e m ih =>
    obtain ⟨k, w⟩ := e
    unfold Map.get? at h
    split at h
    next hk => exact List.mem_cons.mpr (.inl hk.symm)
    next => exact List.mem_cons_of_mem _ (ih h)

/-! ## Stamps -/

/-- A message to another device goes to the ports (R195). -/
theorem State.send_away {s : State} {dest ty flags tag requester coll : Nat} {body : List Byte}
    (h : s.deviceId ≠ some (msgDest (s.mkMsg dest ty flags tag requester coll body).bytes)) :
    s.send dest ty flags tag requester coll body = { s with fab := { s.fab with transit := s.fab.transit ++ [s.mkMsg dest ty flags tag requester coll body] } } :=
  if_neg h

/-- A stamp of one query leaves every other context. -/
theorem State.stampQuery_other {s : State} {x y stamp key : Nat} {q : Ctx} {c : Coll} (hq : s.ctx? x = some q) (hcmd : q.cmd = some key)
    (hc : s.served q.coll = some c) (hk : q.k ≠ 0) (hmedia : c.mediaQuery = false) (hy : y ≠ x) : (s.stampQuery x stamp).ctx? y = s.ctx? y := by
  unfold State.stampQuery
  simp only [hq, hcmd, hc]
  rw [if_neg hk, if_neg (by simp [hmedia])]
  cases s.live? key with
  | none => exact State.ctx_setCtx_other (Ne.symm hy)
  | some l => exact State.ctx_setCtx_other (Ne.symm hy)

/-- The one query that waits for the answer is stamped. -/
theorem State.stampShared_one {s : State} {x key owner stamp : Nat} {q : Ctx} {c : Coll} (hq : s.ctx? x = some q) (hphase : q.phase = .stamping)
    (htag : q.tag = owner) (hcmd : q.cmd = some key) (hc : s.served q.coll = some c) (hk : q.k ≠ 0) (hmedia : c.mediaQuery = false)
    (halone : ∀ y q', y ≠ x → s.ctx? y = some q' → q'.phase ≠ .stamping) : s.stampShared owner stamp = s.stampQuery x stamp := by
  obtain ⟨hready, -⟩ := State.stampQuery_ready (stamp := stamp) hq hcmd hc hk hmedia
  have hskip (t : State) (y : Nat) (hidle : ∀ q', t.ctx? y = some q' → q'.phase ≠ .stamping) : (match t.ctx? y with
      | some q => if q.phase = .stamping ∧ q.tag = owner ∧ q.cmd.isSome then t.stampQuery y stamp else t
      | none => t) = t := by
    cases hy : t.ctx? y with
    | none => rfl
    | some q' => exact if_neg fun h => hidle q' hy h.1
  refine foldl_at (Map.mem_keys_of_get? hq) (fun y hy => ?_) ?_ fun y => ?_
  · exact hskip s y fun q' => halone y q' hy
  · rw [hq]
    exact if_pos ⟨hphase, htag, by rw [hcmd]; rfl⟩
  · refine hskip _ y fun q' hq' => ?_
    by_cases hy : y = x
    · rw [hy, hready] at hq'
      obtain rfl := Option.some.inj hq'
      exact fun h => nomatch h
    · rw [State.stampQuery_other hq hcmd hc hk hmedia hy] at hq'
      exact halone y q' hy hq'

theorem exec_stampRsp_of {i : Nat} {m : List Byte} {r : Request} {s u : State} (htake : s.takeKind i mStamp 1 = some (m, u))
    (hawaited : u.awaited mStamp (msgSource m) (msgTag m) (msgColl m) = some r) :
    exec (.stampRsp i) s = .next (if 8192 ≤ r.owner then (u.endRequest r).stampLive (r.owner - 8192) (field (msgBody m) 2 6)
      else (u.endRequest r).stampShared r.owner (field (msgBody m) 2 6)) := by
  change execStampRsp i s = _
  unfold execStampRsp
  simp only [htake, hawaited]

/-- A live command's stamp; only SNAPSHOT_EXPORT reads a generation with it. -/
theorem State.stampLive_fence {s : State} {key stamp : Nat} {l : Live} (hl : s.live? key = some l) (hop : l.opcode ≠ 0x54) :
    (s.stampLive key stamp).live? key = some { l with data := toLE 6 stamp, passed := true } := by
  unfold State.stampLive
  simp only [hl, if_neg hop]
  exact State.live_setLive

/-! ## Dispatch and deadline -/

theorem isRemote_home {x : Nat} (hx : x < 4096) : isRemote x = false := decide_eq_false (by unfold remoteBase; omega)

theorem State.hasBound_kernels {s t : State} (h : t.grid.kernels = s.grid.kernels) (c : Coll) : t.hasBound c = s.hasBound c := by
  unfold State.hasBound State.kernel
  rw [h]

theorem State.takeSlots_kernels {x kernel : Nat} (ts : List Nat) (s : State) : (s.takeSlots x kernel ts).2.grid.kernels = s.grid.kernels := by
  induction ts generalizing s with
  | nil => rfl
  | cons t ts ih =>
    unfold State.takeSlots
    exact ih (s.takeSlot x t kernel).2

/-- Ranking over the centroids starts. -/
theorem State.startRanking_ctx {s : State} {x : Nat} {q : Ctx} {c : Coll} (hgen : q.generation ≠ 0) (hlists : c.lists ≠ 1) (hbound : s.hasBound c = true) :
    (s.startRanking x q c).ctx? x = some { q with phase := .ranking, ranks := [] } := by
  unfold State.startRanking
  rw [if_neg hgen, if_neg hlists, if_neg (by simp [hbound])]
  exact State.ctx_enterStream.trans State.ctx_setCtx

/-- A ready query gets slots on the tiles chosen, and its ranking starts. -/
theorem State.dispatchQuery_ranks {s : State} {x : Nat} {q : Ctx} {c : Coll} {ts : List Nat} (hx : x < 4096) (hq : s.ctx? x = some q)
    (hc : s.coll? q.coll = some c) (hphase : q.phase = .ready) (hgen : q.generation ≠ 0) (hlists : c.lists ≠ 1) (hbound : s.hasBound c = true)
    (hts : s.chooseTiles c q.generation c.kernel c.vecBytes = some ts) :
    ∃ tiles, tiles.map Prod.fst = ts ∧ (s.dispatchQuery x).ctx? x = some { q with tiles := tiles, phase := .ranking, ranks := [] } := by
  obtain ⟨htiles, -⟩ := State.takeSlots_tiles (x := x) (kernel := c.kernel) (ts := ts) (s := s.draw.2)
  have hkernels := State.takeSlots_kernels (x := x) (kernel := c.kernel) ts s.draw.2
  have hgo : ¬ (q.phase ≠ .ready ∨ isRemote x) := by simp [hphase, isRemote_home hx]
  unfold State.dispatchQuery
  simp only [hq, hc, if_neg hgo, hts]
  generalize s.draw.2.takeSlots x c.kernel ts = taken at htiles hkernels ⊢
  obtain ⟨tiles, u⟩ := taken
  have hranking := State.startRanking_ctx (s := u) (x := x) (q := { q with tiles := tiles }) hgen hlists ((State.hasBound_kernels hkernels c).trans hbound)
  refine ⟨tiles, htiles, ?_⟩
  simp only [hranking, reduceCtorEq, if_false]

/-- A ready SELECT gets slots in the group that is chosen. -/
theorem State.dispatchSelect_wave {s : State} {x : Nat} {q : Ctx} {ts : List Nat} (hphase : q.phase = .ready)
    (hts : s.groupTiles (s.draw.1 % max (16 / max (s.cfg 0x2100 5) 1) 1) (s.cfg 0x2100 5) 2 1 = some ts) :
    ∃ tiles, tiles.map Prod.fst = ts ∧ (s.dispatchSelect x q).ctx? x = some { q with tiles := tiles, phase := .wave } := by
  obtain ⟨htiles, -⟩ := State.takeSlots_tiles (x := x) (kernel := 2) (ts := ts) (s := s.draw.2)
  unfold State.dispatchSelect
  simp only [hphase, ne_eq, not_true_eq_false, if_false, hts, Option.some_or]
  exact ⟨_, htiles, State.ctx_setCtx⟩

/-- Judging a query decides nothing of how it goes on. -/
theorem State.judge_phase (s : State) (q : Ctx) (c : Coll) : (s.judge q c).phase = q.phase := by
  unfold State.judge
  split <;> rfl

/-- A query that is in no wave ends INCOMPLETE, or with what lapsed (R114, R31). -/
theorem State.endIncomplete_ctx {s : State} {x : Nat} {q : Ctx} {c : Coll} (hphase : q.phase = .ready ∨ q.phase = .ranked ∨ q.phase = .ranking) :
    ∃ q', (s.endIncomplete x q c).ctx? x = some q' ∧ q'.phase = .decided ∧ q'.status = (s.judge q c).finalStatus stIncomplete ∧ q'.sealed = false := by
  have hopen : (s.judge q c).phase ≠ .decided ∧ (s.judge q c).phase ≠ .writing ∧ (s.judge q c).phase ≠ .finished := by
    rw [State.judge_phase]
    rcases hphase with h | h | h <;> rw [h] <;> decide
  exact ⟨_, State.conclude_ctx State.ctx_setCtx hopen, rfl, rfl, rfl⟩

/-- Settles O53: each clause by the operation that the message, the dispatch or the deadline starts. -/
theorem queriesAreStampedAndRanked : Obligations.QueriesAreStampedAndRanked := by
  refine ⟨?request, ?response, ?fence, ?dispatch, ?select, ?ranking, ?deadline⟩
  case request =>
    intro i m c s u htake hc hseq haway
    obtain ⟨hu, hinbox, htransit, -, -⟩ := State.takeKind_eq htake
    have hboot : u.boot = s.boot := by rw [hu]
    have hcolls : u.colls = s.colls := by rw [hu]
    have hexec : exec (.stampReq i) s
        = .next (u.send (msgSource m) mStamp 0 (msgTag m) (msgRequester m) (msgColl m) ([1, 0] ++ toLE 6 c.committed)) := by
      change execStampReq i s = _
      unfold execStampReq
      simp only [htake, (State.served_of_colls hcolls).trans hc, (State.isSequencer_boot hboot c).trans hseq, if_true]
    rw [State.send_away (by rwa [State.deviceId_boot hboot, State.mkMsg_boot hboot])] at hexec
    refine Runs.of hexec ⟨hinbox, ?_⟩
    rw [← htransit, ← State.mkMsg_boot hboot]
  case response =>
    intro i x key m r q c s u htake hawaited howner hq hphase htag hcmd hc hk hmedia halone
    obtain ⟨hu, -, -, -, -⟩ := State.takeKind_eq htake
    obtain ⟨v, hv⟩ : ∃ v, u.endRequest r = v := ⟨_, rfl⟩
    have hkept : Only [.cred, .fab] u v := hv ▸ State.endRequest_only
    have hctx (y : Nat) : v.ctx? y = s.ctx? y := State.ctx_of_sched (hkept.sched.trans (by rw [hu]))
    have hcolls : v.served q.coll = some c := (State.served_of_colls (hkept.colls.trans (by rw [hu]))).trans hc
    have hclk : v.clk = s.clk := hkept.clk.trans (by rw [hu])
    have hexec := exec_stampRsp_of htake hawaited
    rw [if_neg (by omega), hv, State.stampShared_one ((hctx x).trans hq) hphase htag hcmd hcolls hk hmedia
      fun y q' hy hq' => halone y q' hy ((hctx y).symm.trans hq')] at hexec
    refine Runs.of hexec ?_
    rw [(State.stampQuery_ready ((hctx x).trans hq) hcmd hcolls hk hmedia).1, State.today, State.today, hclk]
  case fence =>
    intro i m r l s u htake hawaited howner hl hop
    obtain ⟨hu, -, -, -, -⟩ := State.takeKind_eq htake
    have hexec := exec_stampRsp_of htake hawaited
    rw [if_pos howner] at hexec
    refine Runs.of hexec (State.stampLive_fence ?_ hop)
    exact (State.live_of_host (State.endRequest_only.host.trans (by rw [hu]))).trans hl
  case dispatch =>
    intro x q c ts s hx hq hsel hc hphase hgen hlists hbound hts
    have hexec : exec (.queryDispatch x) s = .next (s.dispatchQuery x) := by
      change execQueryDispatch x s = _
      unfold execQueryDispatch
      simp only [hq, hsel, Bool.false_eq_true, if_false]
    exact Runs.of hexec (State.dispatchQuery_ranks hx hq hc hphase hgen hlists hbound hts)
  case select =>
    intro x q ts s hq hsel hphase hts
    have hexec : exec (.queryDispatch x) s = .next (s.dispatchSelect x q) := by
      change execQueryDispatch x s = _
      unfold execQueryDispatch
      simp only [hq, hsel, if_true]
    exact Runs.of hexec (State.dispatchSelect_wave hphase hts)
  case ranking =>
    intro x q c s hq hc hphase hidle hopen hintime
    have hexec : exec (.rankingMerge x) s = .next (s.issueWave x ({ q with phase := .ranked }.fillTable (sortRanked q.ranks)) c) := by
      change execRankingMerge x s = _
      unfold execRankingMerge
      simp only [hq, hc, hphase, hidle, hopen, hintime, ne_eq, not_true_eq_false, Bool.false_eq_true, or_self, if_false]
    obtain ⟨q', hq', hwave, hwaves, htable, -⟩ := State.issueWave_ctx (s := s) (x := x) (q := { q with phase := .ranked }.fillTable (sortRanked q.ranks)) (c := c)
    exact Runs.of hexec ⟨q', hq', hwave, hwaves, htable⟩
  case deadline =>
    intro x q c s hx hq hc hlate hphase
    have hexec : exec (.queryDeadline x) s = .next (s.endIncomplete x q c) := by
      change execQueryDeadline x s = _
      unfold execQueryDeadline
      have hgo : ¬ (isRemote x ∨ s.clk.now < q.deadline) := by
        rw [isRemote_home hx]
        simp only [Bool.false_eq_true, false_or]
        omega
      simp only [hq, hc, if_neg hgo]
      rcases hphase with h | h | h <;> rw [h]
    exact Runs.of hexec (State.endIncomplete_ctx hphase)

end Sys2Proof.Machine
end

section
/-! Streams of stripes, the sorter and the ends of waves (O54). -/

namespace Sys2Proof.Machine

/-! ## The events of the tiles -/

/-- A tile's events after another part of some tile has changed. -/
theorem State.events_setTile {s : State} {t i : Nat} {v : Tile} (h : v.events = (s.tile t).events) : ((s.setTile t v).tile i).events = (s.tile i).events := by
  by_cases hi : t = i
  · rw [← hi, State.tile_setTile, h]
  · exact congrArg Tile.events (Map.getD_put_other hi)

theorem State.freeBuffer_events (s : State) (t b i : Nat) : ((s.freeBuffer t b).tile i).events = (s.tile i).events := by
  unfold State.freeBuffer
  dsimp only
  split
  · have hback (u : State) : (u.giveBack 0x08 t 1).tile i = u.tile i := rfl
    rw [hback]
    exact State.events_setTile rfl
  · rfl

theorem State.releaseMeta_events (s : State) (t b i : Nat) : ((s.releaseMeta t b).tile i).events = (s.tile i).events := by
  unfold State.releaseMeta
  split
  · rfl
  · exact s.freeBuffer_events t b i

theorem State.foldl_releaseMeta_events (l : List (Nat × Nat)) (s : State) (i : Nat) :
    ((l.foldl (fun s tb => s.releaseMeta tb.1 tb.2) s).tile i).events = (s.tile i).events :=
  foldl_kept (f := fun (s : State) (tb : Nat × Nat) => s.releaseMeta tb.1 tb.2) (g := fun s : State => (s.tile i).events)
    (fun s tb => s.releaseMeta_events tb.1 tb.2 i) l s

/-- The end of a stripe releases buffers; the events stay. -/
theorem State.finishStripe_events (s : State) (i : Nat) (st : Stream) (j : Nat) : ((s.finishStripe i st).tile j).events = (s.tile j).events := by
  unfold State.finishStripe
  dsimp only
  rw [State.foldl_releaseMeta_events]
  have hset (u : State) (o : Option Stream) : (u.setStream i o).tile j = u.tile j := by cases o <;> rfl
  have hback (u : State) : (u.returnTag st).tile j = u.tile j := by
    unfold State.returnTag
    split <;> rfl
  have hgive (u : State) (n : Nat) : (u.giveBack 0x06 0 n).tile j = u.tile j := rfl
  split <;> simp only [hset, hback, hgive]

/-- Another event joins a tile's queue, and no queue loses one. -/
theorem State.mem_events_setTile {s : State} {t i : Nat} {v : Tile} {e e' : TileEvent} (hv : v.events = (s.tile t).events ++ [e'])
    (h : e ∈ (s.tile i).events) : e ∈ ((s.setTile t v).tile i).events := by
  by_cases hi : t = i
  · rw [← hi] at h ⊢
    rw [State.tile_setTile, hv]
    exact List.mem_append_left _ h
  · rwa [show (s.setTile t v).tile i = s.tile i from Map.getD_put_other hi]

/-! ## A charge, a tag and a stream -/

theorem State.setStream_same {s : State} {i : Nat} {st st' : Stream} (h : s.sched.streams[i]? = some st) :
    (s.setStream i (some st')).sched.streams[i]? = some st' := by
  have hget : (s.setStream i (some st')).sched.streams[i]? = (s.sched.streams[i]?).map fun _ => st' := List.getElem?_modify_eq _ _ _
  rw [hget, h]
  rfl

/-- LIST_ISSUE takes a fetch tag for the stripe that is due next. -/
theorem State.listIssue_of {s : State} {i j n : Nat} {st : Stream} {c : Coll} {w : Waiter} {ws : List Waiter} (hst : s.sched.streams[i]? = some st)
    (hc : s.coll? st.coll = some c) (hws : st.waiters = w :: ws) (hissued : st.issued = false) (hj : st.nextStripe = some j)
    (hn : s.stripeSeg c { st with stripe := j, metaBytes := [] } = some n) (htag : s.used 0x07 (s.stackOf n) < Config.stackTags)
    (hwait : s.cfg 0x2100 1 ≤ (s.clk.now - w.since) * 1000) :
    s.listIssue i = ((s.reserve 0x07 (s.stackOf n) 1).modSeg n fun v => { v with tags := v.tags + 1 }).setStream i
      (some { st with issued := true, stripe := j, phase := .metaDue, tag := some (s.stackOf n), metaBytes := [] }) := by
  have hgo : ¬ (st.issued = true ∨ Config.stackTags ≤ s.used 0x07 (s.stackOf n) ∨ (s.clk.now - w.since) * 1000 < s.cfg 0x2100 1) := by
    rw [hissued]
    simp only [Bool.false_eq_true, false_or]
    omega
  simp only [hws] at hn
  unfold State.listIssue
  simp only [hst, hc, hws, hj, hn, if_neg hgo]

/-! ## Metadata segments -/

theorem exec_delivery {i : Nat} {found : BurstRead} {slot : List Byte} {s : State} : exec (.segmentDelivery i found slot) s = .next (s.deliver i found slot) := rfl

/-- The event of a metadata segment (Table 9.5). -/
def TileEvent.isMeta (e : TileEvent) (st : Stream) (bs : List Byte) : Prop :=
  e.kind = .metaSeg ∧ e.coll = st.coll ∧ e.what = st.what ∧ e.stripe = st.stripe ∧ e.metaBytes = bs ∧ e.count = hdrCount bs

theorem State.deliverMeta_event (s : State) (c : Coll) (st : Stream) (n : Nat) (bs : List Byte) (t : Nat) :
    ∃ e ∈ ((s.deliverMeta c st n bs t).1.tile t).events, e.isMeta st bs := by
  have htile : (s.deliverMeta c st n bs t).1.tile t = _ := State.tile_setTile
  rw [htile]
  exact ⟨_, List.mem_append_right _ (List.mem_singleton_self _), rfl, rfl, rfl, rfl, rfl, rfl⟩

/-- A metadata segment that reaches a list of tiles waits at each, and no event is lost. -/
theorem State.deliverMetas_events {c : Coll} {st : Stream} {n : Nat} {bs : List Byte} (ts : List Nat) (s : State) :
    (∀ i, ∀ e ∈ (s.tile i).events, e ∈ ((s.deliverMetas c st n bs ts).1.tile i).events)
    ∧ ∀ tl ∈ ts, ∃ e ∈ ((s.deliverMetas c st n bs ts).1.tile tl).events, e.isMeta st bs := by
  induction ts generalizing s with
  | nil => exact ⟨fun _ _ h => h, fun _ h => nomatch h⟩
  | cons t ts ih =>
    obtain ⟨hkeeps, heach⟩ := ih (s.deliverMeta c st n bs t).1
    have hcons : (s.deliverMetas c st n bs (t :: ts)).1 = ((s.deliverMeta c st n bs t).1.deliverMetas c st n bs ts).1 := rfl
    rw [hcons]
    refine ⟨fun i e he => hkeeps i e ?_, fun tl htl => ?_⟩
    · exact State.mem_events_setTile rfl he
    · rcases List.mem_cons.mp htl with rfl | htl
      · obtain ⟨e, he, hmeta⟩ := s.deliverMeta_event c st n bs tl
        exact ⟨e, hkeeps tl e he, hmeta⟩
      · exact heach tl htl

/-- A read that gives bytes leaves the streams alone. -/
theorem State.readSegment_sched {s u : State} {n : Nat} {found : BurstRead} {slot bs : List Byte} (h : s.readSegment n found slot = .bytes bs u) :
    u.sched = s.sched := by
  unfold State.readSegment at h
  dsimp only at h
  split at h
  case h_5 =>
    split at h
    · split at h
      · cases h; rfl
      · cases h
    · cases h
  case h_6 =>
    split at h
    · cases h
    · cases h; exact State.touch_only.sched.trans State.countCorrected_only.sched
    · cases h; exact State.touch_only.sched
  all_goals cases h

/-- What a metadata segment's arrival leaves at the tiles, the stripe's end included: buffers change, events stay. -/
theorem State.metaArrives_events {s : State} {i n : Nat} {st : Stream} {c : Coll} {bs : List Byte} {able part : List Nat}
    (hable : s.payers 1024 64 (once (((st.waiters.filter fun w => w.stripes.contains st.stripe).map (·.ctx)).map (s.payer c))) = able)
    (hpart : (((st.waiters.filter fun w => w.stripes.contains st.stripe).map (·.ctx)).filter fun x => able.contains (s.payer c x)) = part) (hsome : part ≠ [])
    (hroom : ∀ tl ∈ s.stripeTiles st part, (s.tile tl).freeBuffer.isSome) :
    ∃ u : State, ∃ st', (st'.coll = st.coll ∧ st'.what = st.what ∧ st'.stripe = st.stripe)
      ∧ ∀ j, ((s.metaArrives i st c n bs).tile j).events = ((u.deliverMetas c st' n bs (s.stripeTiles st part)).1.tile j).events := by
  have hgo : ¬ (part = [] ∨ (s.stripeTiles st part).any fun t => (s.tile t).freeBuffer.isNone) := by
    simp only [hsome, List.any_eq_true, false_or, not_exists, not_and]
    intro t ht hnone
    rw [Option.isNone_iff_eq_none] at hnone
    have hbuf := hroom t ht
    rw [hnone] at hbuf
    cases hbuf
  unfold State.metaArrives
  simp only [hable, hpart, if_neg hgo]
  have hset (u : State) (o : Option Stream) (j : Nat) : (u.setStream i o).tile j = u.tile j := by cases o <;> rfl
  have hend (p : Prop) [Decidable p] (u : State) (o : Option Stream) (st' : Stream) (j : Nat) :
      ((if p then (u.setStream i o).finishStripe i st' else u.setStream i o).tile j).events = (u.tile j).events := by
    split
    · exact (State.finishStripe_events _ _ _ _).trans (congrArg Tile.events (hset _ _ _))
    · exact congrArg Tile.events (hset _ _ _)
  refine ⟨if st.tag.isSome then ((s.payAll 1024 able).returnTag st).modSeg n fun v => { v with tags := v.tags - 1 } else (s.payAll 1024 able).returnTag st,
    { st with part := part, tag := none, metaBytes := bs, seg := n }, ⟨rfl, rfl, rfl⟩, fun j => ?_⟩
  exact hend _ _ _ _ j

/-! ## Vector segments -/

/-- A vector segment's event at a tile. -/
theorem State.deliverVec_event (s : State) (c : Coll) (st : Stream) (v : Nat) (bs : List Byte) (tb : Nat × Nat) :
    ∃ e ∈ ((s.deliverVec c st v bs tb).tile tb.1).events, e.kind = .vec ∧ e.vecBytes = bs ∧ e.vecIndex = v ∧ e.stripe = st.stripe ∧ e.metaBuf = tb.2 := by
  have htile : (s.deliverVec c st v bs tb).tile tb.1 = _ := State.tile_setTile
  rw [htile]
  exact ⟨_, List.mem_append_right _ (List.mem_singleton_self _), rfl, rfl, rfl, rfl, rfl⟩

theorem State.deliverVecs_events {c : Coll} {st : Stream} {v : Nat} {bs : List Byte} (l : List (Nat × Nat)) (s : State) :
    (∀ i, ∀ e ∈ (s.tile i).events, e ∈ ((l.foldl (fun s tb => s.deliverVec c st v bs tb) s).tile i).events)
    ∧ ∀ tb ∈ l, ∃ e ∈ ((l.foldl (fun s tb => s.deliverVec c st v bs tb) s).tile tb.1).events,
        e.kind = .vec ∧ e.vecBytes = bs ∧ e.vecIndex = v ∧ e.stripe = st.stripe ∧ e.metaBuf = tb.2 := by
  induction l generalizing s with
  | nil => exact ⟨fun _ _ h => h, fun _ h => nomatch h⟩
  | cons t l ih =>
    obtain ⟨hkeeps, heach⟩ := ih (s.deliverVec c st v bs t)
    refine ⟨fun i e he => hkeeps i e (State.mem_events_setTile rfl he), fun tb htb => ?_⟩
    rcases List.mem_cons.mp htb with rfl | htb
    · obtain ⟨e, he, hvec⟩ := s.deliverVec_event c st v bs tb
      exact ⟨e, hkeeps tb.1 e he, hvec⟩
    · exact heach tb htb

/-- The tiles that take vector segment `v` of a stripe. -/
def State.vecTakers (s : State) (st : Stream) (c : Coll) (v : Nat) : List (Nat × Nat) :=
  st.tiles.filter fun tb => st.what == .centroids || ((s.tile tb.1).needs tb.2 (geoE c.vecBytes)).testBit v

theorem State.mem_vecTakers {s : State} {st : Stream} {c : Coll} {v : Nat} {tb : Nat × Nat} :
    tb ∈ s.vecTakers st c v ↔ tb ∈ st.tiles ∧ (st.what = .centroids ∨ ((s.tile tb.1).needs tb.2 (geoE c.vecBytes)).testBit v = true) := by
  simp [State.vecTakers]

/-- The arrival of a vector segment whose shares are paid and for which each tile has a buffer. -/
theorem State.vecArrives_eq {s : State} {i v : Nat} {st : Stream} {c : Coll} {bs : List Byte}
    (hpay : ∀ p ∈ shares 1024 (once (st.part.map (s.payer c))), s.canPay p.1 p.2 = true)
    (hroom : ∀ tb ∈ s.vecTakers st c v, (s.tile tb.1).freeBuffer.isSome) :
    s.vecArrives i st c v bs = (if st.need - 2 ^ v = 0 then (((s.vecTakers st c v).foldl (fun s tb => s.deliverVec c st v bs tb)
        (s.payAll 1024 (once (st.part.map (s.payer c))))).setStream i (some { st with need := st.need - 2 ^ v })).finishStripe i { st with need := st.need - 2 ^ v }
      else ((s.vecTakers st c v).foldl (fun s tb => s.deliverVec c st v bs tb)
        (s.payAll 1024 (once (st.part.map (s.payer c))))).setStream i (some { st with need := st.need - 2 ^ v })) := by
  refine if_neg ?_
  have hfull : (s.vecTakers st c v).any (fun tb => (s.tile tb.1).freeBuffer.isNone) = false := by
    rw [List.any_eq_false]
    intro tb htb hnone
    rw [Option.isNone_iff_eq_none] at hnone
    have hbuf := hroom tb htb
    rw [hnone] at hbuf
    cases hbuf
  have hall : ((shares 1024 (once (st.part.map (s.payer c)))).all fun p => s.canPay p.1 p.2) = true := List.all_eq_true.mpr hpay
  unfold State.vecTakers at hfull
  rw [hall, hfull]
  decide

/-- The part of `NEED_MASK` that the mask's arithmetic does not show: the lowest bit is set. -/
theorem testBit_of_lowestBit {m v : Nat} (h : lowestBit m = some v) : m.testBit v = true := List.find?_some h

theorem two_pow_le_of_testBit {m v : Nat} (h : m.testBit v = true) : 2 ^ v ≤ m := Nat.ge_two_pow_of_testBit h

/-! ## The ends of waves -/

/-- A query with nothing left to scan: nothing that lapsed is needed. -/
theorem State.judge_clear {s : State} {q : Ctx} {c : Coll} (htable : q.table = []) (hfar : q.far = []) (hout : q.outLists = []) : s.judge q c = q := by
  cases q with
  | mk =>
    dsimp only at htable hfar hout
    subst htable hfar hout
    unfold State.judge
    split
    · rfl
    · simp only [List.filter_nil, List.any_nil, Bool.or_false, List.append_nil]

/-- The end of a last wave: nothing blocks the seal, and the query is decided (R103). -/
theorem State.endHomeWave_seals {s : State} {x : Nat} {q : Ctx} {c : Coll} (hphase : q.phase = .wave) (hintime : s.tooLate q = false) (htable : q.table = [])
    (hfar : q.far = []) (hbeyond : q.beyond = none) (hout : q.outLists = []) :
    ∃ q', (s.endHomeWave x q c).ctx? x = some q' ∧ q'.phase = .decided ∧ q'.status = q.finalStatus stOk ∧ q'.sealed = (q.finalStatus stOk == stOk)
      ∧ q'.scanned = q.scanned + q.waveLists.length := by
  unfold State.endHomeWave
  extract_lets q1 q2 t
  have hclk : t.clk = s.clk := State.payloadPrefetch_only.clk.trans State.neighbourPrefetch_only.clk
  have hlate : t.tooLate q2 = false := by
    unfold State.tooLate at hintime ⊢
    rw [hclk]
    exact hintime
  rw [hlate, if_neg Bool.false_ne_true]
  unfold State.afterWave
  have hjudge : t.judge { q2 with firstTau := q2.firstTau.or (some q2.tau) } c = { q2 with firstTau := q2.firstTau.or (some q2.tau) } :=
    State.judge_clear htable hfar hout
  have hseal : ({ q2 with firstTau := q2.firstTau.or (some q2.tau) } : Ctx).sealTest = true := by
    have ht : q2.table = [] := htable
    have hb : q2.beyond = none := hbeyond
    simp [Ctx.sealTest, ht, hb]
  rw [hjudge]
  dsimp only
  rw [if_pos hseal]
  have hopen : q2.phase ≠ .decided ∧ q2.phase ≠ .writing ∧ q2.phase ≠ .finished := by
    have h2 : q2.phase = .wave := hphase
    rw [h2]; decide
  exact ⟨_, State.conclude_ctx State.ctx_setCtx hopen, rfl, rfl, rfl, rfl⟩

/-- A partial list that one message holds. -/
theorem State.sendPartial_one {s : State} {q : Ctx} {fuel : Nat} {damaged : List Nat} {recs : List (List Byte)} (h : recs.length ≤ 500) :
    s.sendPartial q (fuel + 1) damaged recs
      = s.send q.home mWaveRsp 4 q.tag q.home q.coll (waveRspBody q.waves q.waveLists.length damaged recs) := by
  unfold State.sendPartial
  simp only [decide_eq_true h, if_true, List.take_of_length_le h]

theorem isRemote_away {x : Nat} (hx : 4096 ≤ x) : isRemote x = true := decide_eq_true hx

theorem exec_waveEnd_of {x : Nat} {q : Ctx} {c : Coll} {s : State} (hq : s.ctx? x = some q) (hc : s.coll? q.coll = some c) (hphase : q.phase = .wave)
    (hdone : s.waveDone x q = true) (hremotes : q.remotes = []) :
    exec (.waveEnd x) s = .next (if isRemote x then s.endRemoteWave x q c else s.endHomeWave x q c) := by
  change execWaveEnd x s = _
  unfold execWaveEnd
  simp only [hq, hc, hphase, hdone, hremotes, Bool.not_true, ne_eq, not_true_eq_false, Bool.false_eq_true, or_self, if_false]

/-- Settles O54: each clause by the branch of the delivery, the mask, the sorter or the wave's end that its premises select. -/
theorem stripesReachTheirTiles : Obligations.StripesReachTheirTiles := by
  refine ⟨?issue, ?metas, ?vectors, ?paged, ?mask, ?post, ?lastWave, ?remoteWave⟩
  case issue =>
    intro i j n st c w ws s hst hc hws hissued hj hn htag hwait
    refine Runs.of (congrArg Host.Outcome.next (State.listIssue_of hst hc hws hissued hj hn htag hwait)) ⟨State.setStream_same hst, ?_, ?_⟩
    · exact s.used_reserve_same 0x07 (s.stackOf n) 1
    · exact congrArg Seg.tags State.seg_setSeg
  case metas =>
    intro i n found slot bs st c s u able part hst hc hissued hphase hn hread hheader hable hpart hsome hroom
    have hexec : exec (.segmentDelivery i found slot) s = .next (u.metaArrives i st c n bs) := by
      refine congrArg Host.Outcome.next ?_
      unfold State.deliver
      simp only [hst, hc, hissued, hphase, hn, hread, hheader, Bool.not_true, Bool.false_eq_true, if_false, if_true]
    refine Runs.of hexec fun tl htl => ?_
    obtain ⟨v, st', ⟨hcoll, hwhat, hstripe⟩, hevents⟩ := State.metaArrives_events (i := i) (n := n) (bs := bs) hable hpart hsome hroom
    obtain ⟨e, he, hkind, hecoll, hewhat, hestripe, hmeta, hcount⟩ := (v.deliverMetas_events (c := c) (st := st') (n := n) (bs := bs) _).2 tl htl
    exact ⟨e, by rw [hevents]; exact he, hkind, hecoll.trans hcoll, hewhat.trans hwhat, hestripe.trans hstripe, hmeta, hcount⟩
  case vectors =>
    intro i v found slot bs st c s u hst hc hissued hphase hv hread hpay hroom
    have hexec : exec (.segmentDelivery i found slot) s = .next (u.vecArrives i st c v bs) := by
      refine congrArg Host.Outcome.next ?_
      unfold State.deliver
      simp only [hst, hc, hissued, hphase, hv, hread, Bool.not_true, Bool.false_eq_true, if_false]
    rw [State.vecArrives_eq hpay fun tb htb => hroom tb (State.mem_vecTakers.mp htb).1 (State.mem_vecTakers.mp htb).2] at hexec
    have hpaid : Only [.bw] u (u.payAll 1024 (once (st.part.map (u.payer c)))) := State.payAll_only
    generalize u.payAll 1024 (once (st.part.map (u.payer c))) = w at hexec hpaid
    obtain ⟨-, heach⟩ := w.deliverVecs_events (c := c) (st := st) (v := v) (bs := bs) (u.vecTakers st c v)
    have hsched : ((u.vecTakers st c v).foldl (fun s tb => s.deliverVec c st v bs tb) w).sched = s.sched :=
      (foldl_kept (f := fun (s : State) (tb : Nat × Nat) => s.deliverVec c st v bs tb) (g := State.sched) (fun _ _ => State.deliverVec_only.sched) _ _).trans
        (hpaid.sched.trans (State.readSegment_sched hread))
    generalize (u.vecTakers st c v).foldl (fun s tb => s.deliverVec c st v bs tb) w = z at hexec heach hsched
    have htile (j : Nat) : (z.setStream i (some { st with need := st.need - 2 ^ v })).tile j = z.tile j := rfl
    refine Runs.of hexec ⟨fun tb htb htakes => ?_, fun hneed => ?_⟩
    · obtain ⟨e, he, hvec⟩ := heach tb (State.mem_vecTakers.mpr ⟨htb, htakes⟩)
      refine ⟨e, ?_, hvec⟩
      split
      · rw [State.finishStripe_events, htile]
        exact he
      · rw [htile]
        exact he
    · have hle := two_pow_le_of_testBit (testBit_of_lowestBit hv)
      rw [if_neg (by omega)]
      exact State.setStream_same (by rw [hsched]; exact hst)
  case paged =>
    intro i n found slot st c s hst hc hissued hphase hn hpaged hwanted
    refine congrArg Host.Outcome.next ?_
    have hread : s.readSegment n found slot = .wait (s.want true n) := by
      unfold State.readSegment
      simp only [hpaged]
    unfold State.deliver
    simp only [hst, hc, hissued, hphase, hn, hread, Bool.not_true, Bool.false_eq_true, if_false]
    exact if_pos ⟨hpaged, List.all_eq_true.mpr fun w hw => bne_iff_ne.mpr (hwanted w hw)⟩
  case mask =>
    intro t i st c need s hi hst hc hneed
    have hexec : ∀ st', st' = (if st.tilesDue.erase t.val = [] then { st with tilesDue := st.tilesDue.erase t.val, need := need, phase := .vectorsDue }
        else { st with tilesDue := st.tilesDue.erase t.val, need := need }) → exec (.needMask t) s
          = .next (if st'.tilesDue = [] ∧ st'.need = 0 then (s.setStream i (some st')).finishStripe i st' else s.setStream i (some st')) := by
      rintro st' rfl
      change execNeedMask t s = _
      unfold execNeedMask
      simp only [hi, hst, Option.bind_some, hc, hneed]
    by_cases hlast : st.tilesDue.erase t.val = []
    · have hrun := hexec { st with tilesDue := [], need := need, phase := .vectorsDue } (by rw [if_pos hlast, hlast])
      refine Runs.of hrun ⟨fun h => absurd hlast h, fun _ hn => ?_⟩
      rw [if_neg fun h => hn h.2]
      exact State.setStream_same hst
    · have hrun := hexec _ (if_neg hlast).symm
      refine Runs.of hrun ⟨fun _ => ?_, fun h => absurd h hlast⟩
      rw [if_neg fun h => hlast h.1]
      exact State.setStream_same hst
  case post =>
    intro n k x d rest q s hfirst hq hphase
    have hexec : exec (.sorterPost n) s = .next (({ s with sched := { s.sched with posts := rest } }.giveBack 0x0A n 1).setCtx x { q with sorter := q.sorter.post d }) := by
      refine congrArg Host.Outcome.next ?_
      unfold State.consumePost
      simp only [hfirst]
      unfold State.modCtx
      have hctx : ({ s with sched := { s.sched with posts := rest } }.giveBack 0x0A n 1 : State).ctx? x = some q := hq
      simp only [hctx, hphase, if_true]
    exact Runs.of hexec ⟨rfl, State.ctx_setCtx⟩
  case lastWave =>
    intro x q c s hx hq hc hphase hdone hremotes hintime htable hfar hbeyond hout
    have hexec := exec_waveEnd_of hq hc hphase hdone hremotes
    rw [isRemote_home hx, if_neg Bool.false_ne_true] at hexec
    exact Runs.of hexec (State.endHomeWave_seals hphase hintime htable hfar hbeyond hout)
  case remoteWave =>
    intro x q c recs s hx hq hc hphase hdone hremotes hrecs hlen haway
    have hexec := exec_waveEnd_of hq hc hphase hdone hremotes
    have hend : s.endRemoteWave x q c = (s.send q.home mWaveRsp 4 q.tag q.home q.coll (waveRspBody q.waves q.waveLists.length q.waveDamaged recs)).setCtx x
        { q with sorter := q.sorter.endWave, phase := .ranked, waveLists := [], waveDamaged := [] } := by
      unfold State.endRemoteWave
      simp only [hrecs]
      rw [State.sendPartial_one hlen]
    rw [isRemote_away hx, if_pos rfl, hend, State.send_away haway] at hexec
    exact Runs.of hexec ⟨State.ctx_setCtx, rfl⟩

end Sys2Proof.Machine
end


section
/-! ## The result records of a query (R116), and the waves of one device's query at another (R110 to R113, R205, R213, R214, R221) -/

namespace Sys2Proof.Machine

/-! ## Writing records -/

/-- A burst of records leaves as one write for each, while the burrow takes the results of the command's generation. -/
theorem State.foldl_resultWrite {o : Origin} (addr : List Byte × Nat → Nat) (bytes : List Byte × Nat → List Byte) : ∀ (l : List (List Byte × Nat)) (s : State),
    (s.burrow o.burrow).discard = false → o.gen = (s.burrow o.burrow).generation →
    l.foldl (fun (s : State) r => s.resultWrite o (addr r) (bytes r)) s
      = { s with out := s.out ++ l.map fun r => .write (o.burrow + 1) (addr r) (bytes r) true }
  | [], s, _, _ => by rw [List.foldl_nil, List.map_nil, List.append_nil]
  | r :: l, s, hkeep, hgen => by
    have hwrite : s.resultWrite o (addr r) (bytes r) = s.emit (.write (o.burrow + 1) (addr r) (bytes r) true) := by
      unfold State.resultWrite
      exact if_neg (by simp [hkeep, hgen])
    rw [List.foldl_cons, hwrite, State.foldl_resultWrite addr bytes l (s.emit (.write (o.burrow + 1) (addr r) (bytes r) true)) hkeep hgen, List.map_cons]
    unfold State.emit
    simp only [List.append_assoc, List.singleton_append]

/-- What a burst of records changes: the output, and the staging places in passing. -/
theorem State.writeBurst_eq {s : State} {o : Origin} {q : Ctx} {recs : List (List Byte)} (hkeep : (s.burrow o.burrow).discard = false)
    (hgen : o.gen = (s.burrow o.burrow).generation) :
    s.writeBurst o q recs = { s with
      cred := (s.writeBurst o q recs).cred
      out := s.out ++ recs.zipIdx.map fun r => .write (o.burrow + 1) (q.resultAddr + recordSize q.full * (q.written + r.2)) (r.1.take (recordSize q.full)) true } := by
  unfold State.writeBurst
  dsimp only
  rw [State.foldl_resultWrite (fun r => q.resultAddr + recordSize q.full * (q.written + r.2)) (fun r => r.1.take (recordSize q.full)) _ (s.reserve 0x0B 0 64) hkeep hgen]
  rfl

/-- A query without payloads whose records are all written is over. -/
theorem State.finishResults_plain {s : State} {x owner : Nat} {q : Ctx} (h : q.payload = false) : s.finishResults x q owner = s.endQuery x := by
  unfold State.finishResults
  simp only [h, Bool.not_false, if_true]

/-- One step of writing, where every record of the burst can be read. -/
theorem State.writeResults_of {s v : State} {x : Nat} {q q' : Ctx} {c : Coll} {o : Origin} {recs : List (List Byte)} (hgone : ∀ d ∈ q.sorter.top, s.recordGone d = false)
    (hrecs : s.resultRecords q c ((q.sorter.top.drop q.written).take 64) = some recs) (hpayload : q.payload = false)
    (hv : v = if (q.sorter.top.drop q.written).take 64 = [] then s else s.writeBurst o q recs)
    (hq' : q' = { q with written := q.written + ((q.sorter.top.drop q.written).take 64).length, phase := .writing }) :
    s.writeResults x q c o = if q'.written < q.sorter.top.length then v.setCtx x q' else (v.setCtx x q').endQuery x := by
  subst hv hq'
  have hnone : q.sorter.top.filter s.recordGone = [] := List.filter_eq_nil_iff.mpr fun d hd => by simp [hgone d hd]
  unfold State.writeResults
  simp only [hnone, ne_eq, not_true_eq_false, if_false, hrecs]
  rw [State.finishResults_plain (by exact hpayload)]

/-! ## Remote waves -/

/-- The lists of a wave request: those that can be scanned and those that cannot are all of them. -/
theorem State.remoteWave_ctx {s : State} {x : Nat} {q : Ctx} {c : Coll} {lists : List Nat} :
    ∃ good bad, (s.remoteWave x q c lists).ctx? x = some { q with phase := .wave, waveLists := good, waveDamaged := bad, sorter := { k := q.k }, asked := q.waves }
      ∧ (good ++ bad).Perm lists := by
  unfold State.remoteWave
  extract_lets found s1 bad good q1 s2 s3
  refine ⟨good, bad, ?_, ?_⟩
  · have h3 : s3.ctx? x = some q1 := (foldl_kept (g := fun t : State => t.ctx? x) (fun _ _ => State.ctx_issueList) good s2).trans State.ctx_setCtx
    split
    · exact State.ctx_issueStash.trans h3
    · exact h3
  · have hgood : good = lists.filter fun l => !(s1.isDamaged c q.generation q.root l || s1.blockBad q.coll c q.generation l) := by
      refine List.filter_congr fun l hl => congrArg Bool.not ?_
      rw [List.contains_eq_mem, Bool.eq_iff_iff, decide_eq_true_iff, List.mem_filter]
      exact and_iff_right hl
    rw [hgood]
    exact List.perm_append_comm.trans (List.filter_append_perm _ _)

theorem State.waveQuery_sched {s t : State} (h : t.sched = s.sched) (r : Request) : t.waveQuery r = s.waveQuery r := by
  unfold State.waveQuery State.tagOf
  rw [State.ctx_of_sched h, h]

/-- The query that a wave request serves is in its wave. -/
theorem State.waveQuery_ctx {s : State} {r : Request} {q : Ctx} (h : s.waveQuery r = some q) : s.ctx? r.owner = some q ∧ q.phase = .wave := by
  unfold State.waveQuery at h
  split at h
  · rename_i q' hq
    obtain ⟨⟨-, hphase, -⟩, rfl⟩ := Option.ite_none_right_eq_some.mp h |>.imp_right Option.some.inj
    exact ⟨hq, hphase⟩
  · cases h

theorem State.remoteCtx_sched {s t : State} (h : t.sched = s.sched) (home tag : Nat) : t.remoteCtx home tag = s.remoteCtx home tag := by
  unfold State.remoteCtx; rw [h]

/-- The state of a remote query that ends is gone. -/
theorem State.endRemote_ctx {s : State} {x : Nat} : (s.endRemote x).ctx? x = none := Map.get?_del_same

/-! ## Requests that end -/

/-- A request that starts counts no late and no lost one. -/
theorem State.startRequest_counts {s t : State} {m : Message} {r : Request} (h : s.startRequest m r = some t) :
    t.fab.lateResponses = s.fab.lateResponses ∧ t.fab.lostRequests = s.fab.lostRequests := by
  have hpost (v : State) : (v.post m).fab.lateResponses = v.fab.lateResponses ∧ (v.post m).fab.lostRequests = v.fab.lostRequests := by
    unfold State.post
    split <;> exact ⟨rfl, rfl⟩
  unfold State.startRequest at h
  dsimp only at h
  split at h
  · cases h
    exact hpost s
  · split at h
    · cases h
      exact hpost (s.reserve (requestPool m).1 r.dest (requestPool m).2)
    · cases h

theorem State.startQueued_counts : ∀ (l : List (Message × Request)) (s : State),
    (s.startQueued l).fab.lateResponses = s.fab.lateResponses ∧ (s.startQueued l).fab.lostRequests = s.fab.lostRequests
  | [], s => ⟨rfl, rfl⟩
  | (m, r) :: rest, s => by
    unfold State.startQueued
    split
    · rename_i t ht
      obtain ⟨hlate, hlost⟩ := State.startRequest_counts ht
      obtain ⟨hlate', hlost'⟩ := State.startQueued_counts rest t
      exact ⟨hlate'.trans hlate, hlost'.trans hlost⟩
    · exact State.startQueued_counts rest s

/-- A request that ends counts no late and no lost one. -/
theorem State.endRequest_counts (s : State) (r : Request) :
    (s.endRequest r).fab.lateResponses = s.fab.lateResponses ∧ (s.endRequest r).fab.lostRequests = s.fab.lostRequests := by
  unfold State.endRequest
  extract_lets fab s1 s2 waiting
  have h2 : s2.fab = s1.fab := by
    show (if r.landing = 0 then s1 else if r.kind = mStamp ∨ r.kind = mCollCtrl then s1.giveBack 0x11 r.dest r.landing else s1.giveBack 0x0E r.dest r.landing).fab = _
    split
    · rfl
    · split <;> rfl
  obtain ⟨hlate, hlost⟩ := State.startQueued_counts waiting { s2 with fab := { s2.fab with queued := [] } }
  have hlate2 : s2.fab.lateResponses = s1.fab.lateResponses := congrArg Fabric.lateResponses h2
  have hlost2 : s2.fab.lostRequests = s1.fab.lostRequests := congrArg Fabric.lostRequests h2
  exact ⟨hlate.trans hlate2, hlost.trans hlost2⟩

/-! ## Partial lists -/

/-- A record of another device goes to the sorter and the record area only. -/
theorem Ctx.takeRemote_eq (q : Ctx) (c : Coll) (r : List Byte) :
    q.takeRemote c r = { q with sorter := (q.takeRemote c r).sorter, records := (q.takeRemote c r).records } := rfl

theorem State.partialArrives_ctx {s : State} {x : Nat} {c : Coll} {m : List Byte} {q : Ctx} (h : s.ctx? x = some q) :
    ∃ q', (s.partialArrives x c m).ctx? x = some q' ∧ q'.scanned = q.scanned + field (msgBody m) 6 2
      ∧ q'.remotes = if msgLast m then q.remotes.erase (msgSource m) else q.remotes := by
  unfold State.partialArrives State.modCtx
  dsimp only
  rw [h]
  refine ⟨_, State.ctx_setCtx, congrArg (· + field (msgBody m) 6 2) ?_, ?_⟩
  · exact foldl_kept (g := Ctx.scanned) (f := fun (q : Ctx) r => q.takeRemote c r) (fun _ _ => rfl) _ q
  · have hkept (l : List (List Byte)) : (l.foldl (fun (q : Ctx) r => q.takeRemote c r) q).remotes = q.remotes :=
      foldl_kept (g := Ctx.remotes) (f := fun (q : Ctx) r => q.takeRemote c r) (fun _ _ => rfl) l q
    exact congrArg (fun l => if msgLast m = true then List.erase l (msgSource m) else l) (hkept _)

/-- Settles O55: each clause by the branch of the write, the message or the round's end that its premises select. -/
theorem resultsAreWrittenAndWavesAnswered : Obligations.ResultsAreWrittenAndWavesAnswered := by
  refine ⟨?write, ?request, ?response, ?release, ?timeout, ?lost, ?refused, ?select⟩
  case write =>
    intro x key q c l recs s hq hcmd hl hc hphase hroom hgone hrecs hkeep hgen hpayload
    obtain ⟨v, hv⟩ : ∃ v, v = if (q.sorter.top.drop q.written).take 64 = [] then s else s.writeBurst l.origin q recs := ⟨_, rfl⟩
    obtain ⟨q', hq'⟩ : ∃ q' : Ctx, q' = { q with written := q.written + ((q.sorter.top.drop q.written).take 64).length, phase := .writing } := ⟨_, rfl⟩
    have hexec : exec (.resultWrite x) s = .next (if q'.written < q.sorter.top.length then v.setCtx x q' else (v.setCtx x q').endQuery x) := by
      change execResultWrite x s = _
      unfold execResultWrite
      have hready : ¬((q.phase ≠ .decided ∧ q.phase ≠ .writing) ∨ Config.stagingPlaces < s.used 0x0B 0 + 64) := by
        rintro (⟨hd, hw⟩ | hfull)
        · exact hphase.elim hd hw
        · omega
      simp only [hq, hcmd, Option.bind_some, hl, hc, if_neg hready, State.writeResults_of hgone hrecs hpayload hv hq']
    have hout : v.out = s.out ++ recs.zipIdx.map fun r => .write (l.origin.burrow + 1) (q.resultAddr + recordSize q.full * (q.written + r.2)) (r.1.take (recordSize q.full)) true := by
      by_cases hempty : (q.sorter.top.drop q.written).take 64 = []
      · rw [hempty] at hrecs
        cases hrecs
        rw [hv, if_pos hempty, List.zipIdx_nil, List.map_nil, List.append_nil]
      · rw [hv, if_neg hempty, State.writeBurst_eq hkeep hgen]
    have hhost : v.host = s.host := by
      rw [hv]
      split
      · rfl
      · rw [State.writeBurst_eq hkeep hgen]
    have hlen : ((q.sorter.top.drop q.written).take 64).length = min 64 (q.sorter.top.length - q.written) := by rw [List.length_take, List.length_drop]
    have hwritten : q'.written = q.written + min 64 (q.sorter.top.length - q.written) := by rw [hq', ← hlen]
    refine Runs.of hexec ⟨?_, fun hmore => ?_, fun hle hlast => ?_⟩
    · split
      · exact hout
      · exact State.endQuery_only.out.trans hout
    · have h64 : q.written + min 64 (q.sorter.top.length - q.written) = q.written + 64 := by omega
      rw [if_pos (by rw [hwritten, h64]; exact hmore), State.ctx_setCtx, hq', hlen, Nat.add_left_cancel h64]
    · have hall : q'.written = q.sorter.top.length := by omega
      have hlive : (v.setCtx x q').live? key = some l := (State.live_of_host (s := s) hhost).trans hl
      have hend := State.endQuery_eq (State.ctx_setCtx (s := v) (x := x) (c := q')) (by rw [hq']; exact hcmd) hlive
      rw [if_neg (by omega), hend]
      obtain ⟨hgone', hwait⟩ := State.finish_ends ((v.setCtx x q').freeQuery x) key
        { origin := l.origin, status := q'.status, sealed := q'.sealed, count := q'.written, lists := q'.scanned, stamp := q'.stamp, waves := q'.waves % 65536, ctx := some x }
      refine ⟨hgone', hwait.trans ?_⟩
      rw [State.freeQuery_only.host, show (v.setCtx x q').host = s.host from hhost, hall, hq']
  case request =>
    intro i x m c g q s u hfence htake hserved hg hx hq
    obtain ⟨hu, -⟩ := State.take_eq htake
    have hsched : u.sched = s.sched := by rw [hu]
    have hserved' : u.served (msgColl m) = some c := (State.served_of_colls (by rw [hu])).trans hserved
    have hx' : u.remoteCtx (msgSource m) (msgTag m) = some x := (State.remoteCtx_sched hsched _ _).trans hx
    have hq' : u.ctx? x = some q := (State.ctx_of_sched hsched).trans hq
    have hnow : u.clk.now = s.clk.now := by rw [hu]
    obtain ⟨w, hw⟩ : ∃ w : Ctx, w = { q with stamp := field (msgBody m) 0 6, waves := field (msgBody m) 6 2, generation := g.1, root := g.2, day := field (msgBody m) 16 4
                                             k := field (msgBody m) 20 2, tau := wireTau (msgBody m), deadline := s.clk.now + field (msgBody m) 36 4 } := ⟨_, rfl⟩
    have hexec : exec (.waveReq i) s = .next (u.remoteWave x w c (wireLists (msgBody m))) := by
      change execWaveReq i s = _
      unfold execWaveReq State.waveRequest
      simp only [hfence, htake, hserved', hg, hx', hq', hnow, Bool.false_eq_true, if_false, Option.getD_some, hw]
    obtain ⟨good, bad, hctx, hperm⟩ := State.remoteWave_ctx (s := u) (x := x) (q := w) (c := c) (lists := wireLists (msgBody m))
    refine Runs.of hexec ⟨_, hctx, rfl, ?_⟩
    subst hw
    exact ⟨rfl, rfl, rfl, rfl, rfl, rfl, rfl, rfl, hperm⟩
  case response =>
    intro i m r c q s u htake hawaited hquery hc
    obtain ⟨hu, -, -, -, hlate⟩ := State.take_eq htake
    obtain ⟨v, hv⟩ : ∃ v, v = if msgLast m then u.endRequest r else u := ⟨_, rfl⟩
    have hkept : v.sched = s.sched ∧ v.colls = s.colls ∧ v.fab.lateResponses = s.fab.lateResponses := by
      rw [hv]
      split
      · exact ⟨State.endRequest_only.sched.trans (by rw [hu]), State.endRequest_only.colls.trans (by rw [hu]), (u.endRequest_counts r).1.trans hlate⟩
      · exact ⟨by rw [hu], by rw [hu], hlate⟩
    obtain ⟨hsched, hcolls, hlate'⟩ := hkept
    have hquery' : v.waveQuery r = some q := (State.waveQuery_sched hsched r).trans hquery
    have hexec : exec (.waveRsp i) s = .next (v.partialArrives r.owner c m) := by
      change execWaveRsp i s = _
      unfold execWaveRsp
      simp only [htake, hawaited, ← hv, hquery', (State.coll_of_colls hcolls).trans hc]
    obtain ⟨q', hq', hscanned, hremotes⟩ := State.partialArrives_ctx (c := c) (m := m) (State.waveQuery_ctx hquery').1
    exact Runs.of hexec ⟨q', hq', hscanned, hremotes, (congrArg Fabric.lateResponses State.partialArrives_only.fab).trans hlate'⟩
  case release =>
    intro i x m s u htake hx
    obtain ⟨hu, -⟩ := State.take_eq htake
    have hx' : u.remoteCtx (msgSource m) (msgTag m) = some x := (State.remoteCtx_sched (by rw [hu]) _ _).trans hx
    have hexec : exec (.release i) s = .next (u.endRemote x) := by
      change execRelease i s = _
      unfold execRelease
      simp only [htake, hx']
    exact Runs.of hexec State.endRemote_ctx
  case timeout =>
    intro x q s hx hq hlate
    have hexec : exec (.remoteStateTimeout x) s = .next (s.endRemote x) := by
      change execRemoteStateTimeout x s = _
      unfold execRemoteStateTimeout
      simp only [hq, isRemote_away hx, hlate, and_self, if_true]
    exact Runs.of hexec State.endRemote_ctx
  case lost =>
    intro i r q s hr hlate hkind hquery
    obtain ⟨v, hv⟩ : ∃ v : State, v = { s with fab := { s.fab with lostRequests := (s.fab.lostRequests + 1) % 2 ^ 32 } } := ⟨_, rfl⟩
    have hquery' : (v.endRequest r).waveQuery r = some q := (State.waveQuery_sched (State.endRequest_only.sched.trans (by rw [hv])) r).trans hquery
    have hwaits : r.waitsOn = false := by
      unfold Request.waitsOn
      rw [hkind]
      rfl
    have hexec : exec (.requestLost i) s = .next ((v.endRequest r).loseDevice r.owner q r.dest) := by
      change execRequestLost i s = _
      unfold execRequestLost State.lostEffect
      simp only [hr, Nat.not_le.mpr hlate, hwaits, Bool.false_eq_true, or_self, if_false, ← hv, hkind, hquery', if_true]
    refine Runs.of hexec ⟨?_, _, State.ctx_setCtx, rfl, rfl, rfl⟩
    rw [State.loseDevice_only.fab, (v.endRequest_counts r).2, hv]
  case refused =>
    intro i m r q s u htake hreq hkind hquery
    obtain ⟨hu, -⟩ := State.take_eq htake
    have hquery' : u.waveQuery r = some q := (State.waveQuery_sched (by rw [hu]) r).trans hquery
    have hexec : exec (.refused i) s = .next (((u.forgetWaves r.owner).setCtx r.owner { q with tableMismatch := true }).conclude r.owner stTable false false) := by
      change execRefused i s = _
      unfold execRefused State.tableRefused
      simp only [htake, hreq, hkind, hquery', if_true]
    have hphase : q.phase ≠ .decided ∧ q.phase ≠ .writing ∧ q.phase ≠ .finished := by
      rw [(State.waveQuery_ctx hquery').2]
      decide
    exact Runs.of hexec ⟨_, State.conclude_ctx State.ctx_setCtx hphase, rfl, rfl, rfl, rfl⟩
  case select =>
    intro x key first n q l source posts s hq hcmd hl hselect hphase hintime hround hmore hposts
    have hexec : exec (.selectRoundEnd x source) s = .next (s.selectRound x q l source) := by
      change execSelectRoundEnd x source s = _
      unfold execSelectRoundEnd
      simp only [hq, hcmd, Option.bind_some, hl, hselect, hphase, hintime, and_self, if_true]
    refine Runs.of hexec ?_
    unfold State.selectRound
    simp only [hround, hposts, if_pos hmore]
    exact State.ctx_setCtx

end Sys2Proof.Machine
end


section
/-! ## Mutations on the way to their sequencer, and their acceptance (R119 to R122, R129, R183) -/

namespace Sys2Proof.Machine

theorem msgSource_bound (m : List Byte) : msgSource m < 128 := by
  unfold msgSource
  omega

/-- A device that is not the first of the map does not hold the sequencer. -/
theorem State.isSequencer_away {s : State} {c : Coll} (h : sequencerOf c.shards ≠ s.self) : s.isSequencer c = false :=
  beq_eq_false_iff_ne.mpr (State.other h)

theorem exec_mutationHandoff_of {b : Fin 64} {p : Fin 16} {key : Nat} {l : Live} {c : Coll} {s : State} (hnext : s.unhanded b.val p.val = some (key, l))
    (hserved : s.served l.coll = some c) (hlost : c.lost = false ∨ l.opcode ≠ 0x51) : exec (.mutationHandoff b p) s = .next (s.handOff key l) := by
  change execMutationHandoff b p s = _
  unfold execMutationHandoff
  have hkeep : ¬(c.lost = true ∧ l.opcode = 0x51) := by
    rintro ⟨h1, h2⟩
    exact hlost.elim (fun h => by simp [h] at h1) fun h => h h2
  simp only [hnext, hserved, if_neg hkeep]

/-- A sequencer that is not held takes the command into its queue. -/
theorem State.queueMut_coll {s : State} {g : Nat} {c : Coll} {q : Sequencer} {r : MutReq} (hc : s.coll? g = some c) (hq : c.seqr = some q) (hheld : q.held = false) :
    s.queueMut g q r = s.modSeqr g (fun q => { q with queue := q.queue ++ [r] })
      ∧ (s.queueMut g q r).coll? g = some { c with seqr := some { q with queue := q.queue ++ [r] } } := by
  have heq : s.queueMut g q r = s.modSeqr g (fun q => { q with queue := q.queue ++ [r] }) := by
    unfold State.queueMut
    exact if_neg (by simp [hheld])
  exact ⟨heq, by rw [heq]; exact State.modSeqr_coll hc hq⟩

/-- A request on one of the channels with landing units. -/
theorem requestPool_of_channel {m : Message} (h : m.channel ≠ 3) : requestPool m = (0x0E, landingNeed m) := if_neg h

/-- The command of the sequencer's queue that is taken, when it is no drop and the sequencer may take it. -/
theorem exec_sequencerAccept_of {g : Nat} {c : Coll} {q : Sequencer} {r : MutReq} {rest : List MutReq} {s v : State} (hc : s.coll? g = some c) (hq : c.seqr = some q)
    (hqueue : q.queue = r :: rest) (hdropped : c.dropped = false) (hdrop : q.drop = none) (hlapsed : c.lapsed = false) (haccept : q.canAccept (dOpcode r.desc) = true)
    (hcentroids : s.centroidsMissing c (dOpcode r.desc) = []) (hop : dOpcode r.desc ≠ 0x51 ∧ dOpcode r.desc ≠ 0x52)
    (hv : v = s.modSeqr g fun q => { q with queue := rest }) :
    exec (.sequencerAccept g) s = .next (if dOpcode r.desc = 0x53 then v.acceptLoad g c r else v.acceptMutation g c q r) := by
  subst hv
  change execSequencerAccept g s = _
  unfold execSequencerAccept
  simp only [hc, hq, hqueue, hdropped, hdrop, hlapsed, haccept, hcentroids, hop.1, hop.2, Option.isSome_none, Bool.false_eq_true, or_self, if_false, ne_eq,
    not_true_eq_false, Bool.true_eq_false]

/-- What a mutation still has to pass when its collection is in order: the ID, its number, and the room in the ID map. -/
theorem State.acceptMutation_of {s : State} {g : Nat} {c : Coll} {q : Sequencer} {r : MutReq} (hlapsed : c.lapsed = false) (hmedia : c.mediaMutation = false)
    (hwrite : c.readOnly = false) (hfrozen : s.seg.frozen = false) (hload : c.load = .loaded) :
    (dOpcode r.desc = 0x11 → Map.get? q.idMap (field r.desc 16 8) = none → s.acceptMutation g c q r = s.answerMut g r.device r.tag stOk 0)
    ∧ (∀ e, dOpcode r.desc = 0x10 → Map.get? q.idMap (field r.desc 16 8) = some e → s.acceptMutation g c q r = s.answerMut g r.device r.tag stInvalid 0)
    ∧ (∀ target d, dOpcode r.desc = 0x11 → Map.get? q.idMap (field r.desc 16 8) = some (target, d) → q.committed + 1 ≤ Config.lastSequence →
      s.acceptMutation g c q r = s.sendWrites g r (q.committed + 1) d (tombRecord r.desc (q.committed + 1) target) [] (some (target, d)))
    ∧ (∀ w, dOpcode r.desc = 0x10 → Map.get? q.idMap (field r.desc 16 8) = none → q.committed + 1 ≤ Config.lastSequence → c.lists = 1 → s.idSpace g c q true = some w →
      s.acceptMutation g c q r = w.sendWrites g r (q.committed + 1) (ownerOf c.shards 0) (entryRecord c r.desc r.vec (q.committed + 1) 0 false) r.vec none) := by
  have hopen : (c.readOnly || s.seg.frozen || c.load != .loaded) = false := by simp [hwrite, hfrozen, hload]
  unfold State.acceptMutation
  refine ⟨fun hop hid => ?_, fun e hop hid => ?_, fun target d hop hid hn => ?_, fun w hop hid hn hlists hw => ?_⟩
  · simp [hlapsed, hmedia, hopen, hop, hid]
  · simp [hlapsed, hmedia, hopen, hop, hid]
  · simp [hlapsed, hmedia, hopen, hop, hid, Nat.not_lt.mpr hn, State.idSpace]
  · simp [hlapsed, hmedia, hopen, hop, hid, Nat.not_lt.mpr hn, hw, State.assignedList, hlists]

/-- The mutation whose writes have left is the one in flight. -/
theorem State.sendWrites_coll {s : State} {g n owner : Nat} {r : MutReq} {rec vec : List Byte} {kill : Option (Nat × Nat)} {c : Coll} {q : Sequencer}
    (hc : s.coll? g = some c) (hq : c.seqr = some q) :
    (s.sendWrites g r n owner rec vec kill).coll? g = some { c with seqr := some { q with current := some {
      req := r, n := n, stashAt := some owner, killAt := kill.map Prod.snd, ext := field r.desc 16 8, owner := owner
      sent := match kill with
        | some k => if k.2 = owner then [owner] else [owner, k.2]
        | none => [owner] } } } := by
  unfold State.sendWrites
  extract_lets ext cur v w
  have hw : w.coll? g = some { c with seqr := some { q with current := some cur } } :=
    (State.coll_of_colls State.requestFor_only.colls).trans (State.modSeqr_coll hc hq)
  cases kill with
  | none => exact hw
  | some k => exact (State.coll_of_colls State.requestFor_only.colls).trans hw

/-- Room for one more ID leaves the sequencer as it is. -/
theorem State.idSpace_seqr {s w : State} {g : Nat} {c c' : Coll} {q q' : Sequencer} (hc : s.coll? g = some c') (hq : c'.seqr = some q')
    (h : s.idSpace g c q true = some w) : ∃ c'', w.coll? g = some c'' ∧ c''.seqr = some q' := by
  unfold State.idSpace at h
  rw [if_pos rfl] at h
  obtain ⟨⟨held, v⟩, hspace, rfl⟩ := Option.map_eq_some_iff.mp h
  have hcolls : v.colls = s.colls := (Via.caseOptSnd State.tableSpace_only hspace).colls
  exact ⟨_, State.modColl_coll ((State.coll_of_colls hcolls).trans hc), hq⟩

/-- Settles O57: each clause by the branch of the hand-off, the message or the acceptance that its premises select. -/
theorem mutationsAreForwardedAndAccepted : Obligations.MutationsAreForwardedAndAccepted := by
  refine ⟨?here, ?away, ?forward, ?refused, ?response, ?accept⟩
  case here =>
    intro b p key l c q s hnext hserved hlost hseq hq hheld
    obtain ⟨v, hv⟩ : ∃ v, v = s.setLive key { l with passed := true } := ⟨_, rfl⟩
    have hc : v.coll? l.coll = some c := by rw [hv]; exact State.served_coll hserved
    have hseq' : v.isSequencer c = true := by rw [hv]; exact hseq
    have htag : v.self = s.self ∧ v.cmdTag key = s.cmdTag key := by rw [hv]; exact ⟨rfl, rfl⟩
    have hexec := exec_mutationHandoff_of hnext hserved hlost
    unfold State.handOff at hexec
    simp only [hserved, ← hv, hseq', hq, htag.1, htag.2] at hexec
    obtain ⟨heq, hcoll⟩ := State.queueMut_coll (r := { device := s.self, tag := s.cmdTag key, burrow := l.origin.burrow, desc := padTo 128 l.bytes
                                                       vec := if l.opcode = 0x10 ∨ l.opcode = 0x12 then cmdVector c l.bytes else [] }) hc hq hheld
    refine Runs.of hexec ⟨?_, hcoll⟩
    rw [heq, State.live_of_host State.modSeqr_only.host, hv]
    exact Map.get?_put_same
  case away =>
    intro b p key l c m s hnext hserved hlost hdest hlt hm hroom
    obtain ⟨v, hv⟩ : ∃ v, v = s.setLive key { l with passed := true } := ⟨_, rfl⟩
    have hkept : v.boot = s.boot ∧ v.cmdTag key = s.cmdTag key ∧ v.used 0x0E = s.used 0x0E ∧ v.fab = s.fab := by rw [hv]; exact ⟨rfl, rfl, rfl, rfl⟩
    obtain ⟨hboot, htag, hused, hfab⟩ := hkept
    have hself : v.self = s.self := State.self_boot hboot
    have hexec := exec_mutationHandoff_of hnext hserved hlost
    unfold State.handOff State.request at hexec
    simp only [hserved, ← hv, State.isSequencer_away (s := v) (by rw [hself]; exact hdest), htag, hself] at hexec
    have hm' : v.mkMsg (sequencerOf c.shards) mMutFwd 0 (s.cmdTag key) s.self l.coll (mutFwdBody l.origin.burrow (padTo 128 l.bytes)
        (if l.opcode = 0x10 ∨ l.opcode = 0x12 then cmdVector c l.bytes else [])) = m := (State.mkMsg_boot hboot).trans hm
    have hpool : requestPool m = (0x0E, landingNeed m) := requestPool_of_channel (by rw [← hm]; exact (by decide : (channelOf mMutFwd).getD 3 ≠ 3))
    have hsent := State.requestFor_sends (s := v) (owner := key) (by rw [hself]; exact hdest) hlt (by rw [hm', hpool, hused]; exact hroom)
    refine Runs.of hexec ⟨?_, ?_⟩
    · rw [State.live_of_host State.requestFor_only.host, hv]
      exact Map.get?_put_same
    · rw [hsent.1, hm', hfab]
  case forward =>
    intro i m c q s u hfence htake hserved hq hheld
    obtain ⟨hu, hinbox, -⟩ := State.take_eq htake
    have hserved' : u.served (msgColl m) = some c := (State.served_of_colls (by rw [hu])).trans hserved
    have hintake : s.intake = true := by unfold State.intake; rw [hfence]; rfl
    obtain ⟨r, hr⟩ : ∃ r : MutReq, r = { device := msgSource m, tag := msgTag m, burrow := field (msgBody m) 128 1 % 64, desc := (msgBody m).take 128
                                         vec := (msgBody m).drop 136 } := ⟨_, rfl⟩
    have hexec : exec (.mutFwd i) s = .next (u.queueMut (msgColl m) q r) := by
      change execMutFwd i s = _
      unfold execMutFwd
      simp only [hintake, htake, hserved', hq, Bool.true_eq_false, if_false, hr]
    obtain ⟨heq, hcoll⟩ := State.queueMut_coll (r := r) (State.served_coll hserved') hq hheld
    refine Runs.of hexec ⟨?_, by rw [hcoll, hr]⟩
    rw [heq, State.modSeqr_only.fab, hinbox]
  case refused =>
    intro i m s u hfence htake hserved hsource
    obtain ⟨hu, -, htransit, -⟩ := State.take_eq htake
    have hboot : u.boot = s.boot := by rw [hu]
    have hserved' : u.served (msgColl m) = none := (State.served_of_colls (by rw [hu])).trans hserved
    have hintake : s.intake = true := by unfold State.intake; rw [hfence]; rfl
    have hexec : exec (.mutFwd i) s = .next (u.answerMut (msgColl m) (msgSource m) (msgTag m) stNoColl 0) := by
      change execMutFwd i s = _
      unfold execMutFwd
      simp only [hintake, htake, hserved', Bool.true_eq_false, if_false]
    refine Runs.of hexec ?_
    rw [State.answerMut_eq (by rw [State.self_boot hboot]; exact hsource) (msgSource_bound m)]
    exact congr (congrArg (fun (a : List Message) b => a ++ [b]) htransit) (State.mkMsg_boot hboot)
  case response =>
    intro i key m r l s u htake hawaited htag hl
    obtain ⟨hu, -⟩ := State.take_eq htake
    obtain ⟨v, hv⟩ : ∃ v, v = u.endRequest r := ⟨_, rfl⟩
    have hhost : v.host = s.host := by rw [hv, State.endRequest_only.host, hu]
    have hsched : v.sched = s.sched := by rw [hv, State.endRequest_only.sched, hu]
    have htag' : v.byTag (msgTag m) = some key := (State.byTag_same hhost hsched).trans htag
    have hexec : exec (.mutRsp i) s = .next (v.doneMut (msgTag m) (field (msgBody m) 0 2) (field (msgBody m) 2 6)) := by
      change execMutRsp i s = _
      unfold execMutRsp
      simp only [htake, hawaited, ← hv, htag', Option.isNone_some, Bool.false_eq_true, if_false]
    obtain ⟨hgone, hwait⟩ := State.doneMut_completes (status := field (msgBody m) 0 2) (seq := field (msgBody m) 2 6) htag' ((State.live_of_host hhost).trans hl)
    exact Runs.of hexec ⟨hgone, hwait.trans (by rw [hhost]; rfl)⟩
  case accept =>
    intro g c q r rest s hc hq hqueue hdropped hdrop hlapsed haccept hcentroids hmedia hwrite hfrozen hload
    obtain ⟨v, hv⟩ : ∃ v, v = s.modSeqr g fun q => { q with queue := rest } := ⟨_, rfl⟩
    have hcoll : v.coll? g = some { c with seqr := some { q with queue := rest } } := by rw [hv]; exact State.modSeqr_coll hc hq
    have hboot : v.boot = s.boot := by rw [hv]; exact State.modSeqr_only.boot
    have hfab : v.fab = s.fab := by rw [hv]; exact State.modSeqr_only.fab
    have hfrozen' : v.seg.frozen = false := by rw [hv, State.modSeqr_only.seg]; exact hfrozen
    have hexec := exec_sequencerAccept_of hc hq hqueue hdropped hdrop hlapsed haccept hcentroids (v := v) (hv := hv)
    obtain ⟨hnothing, hexists, hdelete, hinsert⟩ := State.acceptMutation_of (s := v) (g := g) (q := q) (r := r) hlapsed hmedia hwrite hfrozen' hload
    have hanswer (status : Nat) (hdev : r.device ≠ s.self) (hlt : r.device < 128) : (v.answerMut g r.device r.tag status 0).coll? g = v.coll? g
        ∧ (v.answerMut g r.device r.tag status 0).fab.transit
          = s.fab.transit ++ [s.mkMsg r.device mMutRsp 0 r.tag r.device g (toLE 2 status ++ toLE 6 0 ++ zeros 8)] := by
      rw [State.answerMut_eq (by rw [State.self_boot hboot]; exact hdev) hlt, State.mkMsg_boot hboot, hfab]
      exact ⟨rfl, rfl⟩
    refine ⟨fun hop hid hdev hlt => ?_, fun e hop hid hdev hlt => ?_, fun target d hop hid hn => ?_, fun w hop hid hn hlists hw => ?_, fun hop => ?_⟩
    · have hrun := hexec (by simp [hop])
      rw [if_neg (by simp [hop]), hnothing hop hid] at hrun
      obtain ⟨h1, h2⟩ := hanswer stOk hdev hlt
      exact Runs.of hrun ⟨h1.trans hcoll, h2⟩
    · have hrun := hexec (by simp [hop])
      rw [if_neg (by simp [hop]), hexists e hop hid] at hrun
      obtain ⟨h1, h2⟩ := hanswer stInvalid hdev hlt
      exact Runs.of hrun ⟨h1.trans hcoll, h2⟩
    · have hrun := hexec (by simp [hop])
      rw [if_neg (by simp [hop]), hdelete target d hop hid hn] at hrun
      refine Runs.of hrun ((State.sendWrites_coll hcoll rfl).trans ?_)
      simp only [Option.map_some, if_true]
    · have hrun := hexec (by simp [hop])
      rw [if_neg (by simp [hop]), hinsert w hop hid hn hlists (by rw [hv]; exact hw)] at hrun
      obtain ⟨c', hc', hq'⟩ := State.idSpace_seqr hcoll rfl (hv ▸ hw)
      refine Runs.of hrun ?_
      rw [State.sendWrites_coll hc' hq']
      rfl
    · have hrun := hexec (by simp [hop])
      rw [if_pos hop] at hrun
      refine Runs.of hrun ((State.coll_of_colls State.ctrlAll_only.colls).trans ?_)
      exact State.modSeqr_coll hcoll rfl

end Sys2Proof.Machine
end


section
/-! ## The writes of a mutation, their answers, revocation, and the stash buffer (R66, R77, R121 to R123, R127, R137, R156) -/

namespace Sys2Proof.Machine

/-! ## Appending to the stash -/

/-- The stripe that takes a record: at most the stash of the collection grows by it. -/
theorem State.stashStripe_coll {s v : State} {g n : Nat} {c c' : Coll} {h : List Byte} (hs : s.stashStripe g c = some (n, h, c', v)) :
    ∃ stash, c' = { c with stash := stash } := by
  have hfresh : ∀ {o : Option (Nat × State)} {f : Nat × State → Nat × List Byte × Coll × State}, (∀ p, (f p).2.2.1 = { c with stash := c.stash ++ [p.1] }) →
      o.map f = some (n, h, c', v) → ∃ stash, c' = { c with stash := stash } := by
    intro o f hf ho
    obtain ⟨p, -, hp⟩ := Option.map_eq_some_iff.mp ho
    exact ⟨c.stash ++ [p.1], by rw [← hf p, hp]⟩
  unfold State.stashStripe at hs
  dsimp only at hs
  split at hs
  · split at hs
    · cases hs
      exact ⟨c.stash, rfl⟩
    · exact hfresh (fun _ => rfl) hs
  · exact hfresh (fun _ => rfl) hs

/-- A record that is appended: the locator names it, and its vector stands in the buffer (R77, R123). -/
theorem State.appendStash_places {s w : State} {g : Nat} {c : Coll} {rec vec : List Byte} (h : s.appendStash g c rec vec = some w) :
    (∃ c' n j, w.coll? g = some c' ∧ Map.get? c'.locator (recSeq rec) = some (false, n, j) ∧ c'.seen = max c.seen (recSeq rec) ∧ c'.unflushed.isSome = true)
    ∧ ∃ n j, { coll := g, seg := n, offset := j, bytes := padTo c.vecBytes vec } ∈ w.stash := by
  unfold State.appendStash at h
  split at h
  · cases h
  · rename_i n hd c' v hstripe
    obtain ⟨stash, rfl⟩ := State.stashStripe_coll hstripe
    dsimp only at h
    split at h
    · cases h
    · split at h
      · cases h
      · cases h
        refine ⟨⟨_, _, _, State.coll_setColl, Map.get?_put_same, rfl, ?_⟩, _, _, List.mem_append_right _ (List.mem_singleton_self _)⟩
        cases c.unflushed <;> rfl

/-! ## Writes that have been answered -/

/-- The mutation in flight when one of its writes has been answered with a status. -/
def InFlight.answeredWith (x : InFlight) (stash : Bool) (status : Nat) : InFlight :=
  let x := if stash then { x with stashAt := none } else { x with killAt := none }
  if status = stOk ∨ x.failed then x else { x with failed := true, status := status }

theorem State.writeAnswered_eq {s v : State} {g status : Nat} {stash : Bool} {c : Coll} {q : Sequencer} {x : InFlight} (hc : s.coll? g = some c) (hq : c.seqr = some q)
    (hx : q.current = some x) (hv : v = s.modSeqr g fun q => { q with current := q.current.map fun x => x.answeredWith stash status }) :
    s.writeAnswered g stash status = v.settleWrites g
      ∧ v.coll? g = some { c with seqr := some { q with current := some (x.answeredWith stash status) } } := by
  subst hv
  refine ⟨rfl, (State.modSeqr_coll hc hq).trans ?_⟩
  rw [hx]
  rfl

/-- What settles a mutation: nothing while a write is unanswered, else its commit or, after a failure, its revocation. -/
theorem State.settleWrites_of {s : State} {g : Nat} {c : Coll} {q : Sequencer} {x : InFlight} (hc : s.coll? g = some c) (hq : c.seqr = some q) (hx : q.current = some x) :
    s.settleWrites g = if x.stashAt.isSome ∨ x.killAt.isSome ∨ x.revoking ≠ [] then s else if x.failed then s.startRevoke g x else s.commit g q x := by
  unfold State.settleWrites
  simp only [hc, Option.bind_some, hq, hx]

/-- The law of sequence numbers holds: the audit changes nothing. -/
theorem State.sequenceAudit_lawful {s : State} {g : Nat} {c : Coll} {q : Sequencer} (hc : s.coll? g = some c) (hq : c.seqr = some q) (h : q.committed = q.accepted) :
    s.sequenceAudit g = s := by
  unfold State.sequenceAudit
  simp only [hc, hq, h, true_or, if_true]

/-- The commit of a mutation with the next number (R121). -/
theorem State.commit_coll {s : State} {g : Nat} {c : Coll} {q : Sequencer} {x : InFlight} (hc : s.coll? g = some c) (hq : c.seqr = some q) (hn : x.n = q.accepted + 1) :
    (s.commit g q x).coll? g = some { c with seqr := some { q with
      committed := x.n, accepted := q.accepted + 1, current := none, undo := q.undo ++ [(x.n, x.ext, Map.get? q.idMap x.ext)]
      idMap := if dOpcode x.req.desc = 0x11 then Map.del q.idMap x.ext else Map.put q.idMap x.ext (x.n, x.owner) } } := by
  unfold State.commit
  extract_lets ids v
  have hv : v.coll? g = some { c with seqr := some { q with committed := x.n, accepted := q.accepted + 1, idMap := ids, current := none
                                                            undo := q.undo ++ [(x.n, x.ext, Map.get? q.idMap x.ext)] } } := State.modSeqr_coll hc hq
  have hw := (State.coll_of_colls (State.answerMut_only (g := g) (device := x.req.device) (tag := x.req.tag) (status := stOk) (seq := x.n)).colls).trans hv
  rw [State.sequenceAudit_lawful hw rfl hn]
  exact hw

/-- A failed mutation is revoked on every device that received a write of it (R127). -/
theorem State.startRevoke_coll {s : State} {g : Nat} {c : Coll} {q : Sequencer} {x : InFlight} (hc : s.coll? g = some c) (hq : c.seqr = some q) (hsent : x.sent ≠ []) :
    (s.startRevoke g x).coll? g = some { c with seqr := some { q with current := some { x with revoking := x.sent } } } := by
  unfold State.startRevoke
  rw [if_neg hsent]
  refine (State.coll_of_colls ?_).trans (State.modSeqr_coll (f := fun q => { q with current := some { x with revoking := x.sent } }) hc hq)
  exact foldl_kept (f := fun (s : State) d => s.requestFor d mRevoke 0 x.req.tag x.req.device g g (toLE 6 x.n ++ zeros 2)) (g := State.colls)
    (fun _ _ => State.requestFor_only.colls) x.sent _

/-- The state in which an answer that is awaited is served. -/
theorem State.answered_coll {s u : State} {i ty g : Nat} {m : List Byte} {r : Request} {c : Coll} (htake : s.take i ty = some (m, u)) (hc : s.coll? g = some c) :
    (u.endRequest r).coll? g = some c := by
  obtain ⟨hu, -⟩ := State.take_eq htake
  refine (State.coll_of_colls ?_).trans hc
  rw [State.endRequest_only.colls, hu]

theorem State.takeAck_of {s u : State} {i ty request : Nat} {stash : Bool} {m : List Byte} {r : Request} (htake : s.take i ty = some (m, u))
    (hawaited : u.awaited request (msgSource m) (msgTag m) (msgColl m) = some r) :
    s.takeAck i ty request stash = (u.endRequest r).writeAnswered (msgColl m) stash (field (msgBody m) 0 2) := by
  unfold State.takeAck
  simp only [htake, hawaited]

/-! ## Kills -/

theorem exec_killWrite_of {i : Nat} {m : List Byte} {c : Coll} {s u w : State} (htake : s.take i mKillWrite = some (m, u)) (hc : u.coll? (msgColl m) = some c)
    (hkill : u.killRecord (msgColl m) c (field (msgBody m) 0 6) (field (msgBody m) 6 6) (msgSource m) (msgTag m) = some w) :
    exec (.killWrite i) s = .next (w.modColl (msgColl m) fun c => { c with
      kills := c.kills ++ [(field (msgBody m) 6 6, field (msgBody m) 0 6)], seen := max c.seen (field (msgBody m) 6 6)
      flushed := if c.unflushed = none then max c.flushed (field (msgBody m) 6 6) else c.flushed }) := by
  change execKillWrite i s = _
  unfold execKillWrite
  simp only [htake, hc, hkill]

/-- The kill of a record whose only copy stands in a segment. -/
theorem State.killRecord_segment {s : State} {g target seq dest tag n j : Nat} {c : Coll} (hcopies : c.copiesOf target = [])
    (hat : Map.get? c.locator target = some (false, n, j)) : s.killRecord g c target seq dest tag = some (s.killAt n (256 + 64 * j) seq dest tag) := by
  unfold State.killRecord
  simp only [hcopies, hat, List.any_nil, Bool.false_eq_true, if_false, List.foldl_nil]

/-- A kill in a resident segment that no buffered bytes cover. -/
theorem State.killAt_resident {s : State} {n off seq dest tag f : Nat} (hcopying : (s.seg_ n).copying = false) (hstate : (s.seg_ n).state = .resident)
    (hframe : (s.seg_ n).frame = some f) (hstash : ∀ it ∈ s.stash, it.seg ≠ n) :
    s.killAt n off seq dest tag = (s.writeFrame f (off + 8) (toLE 6 seq)).killAck dest tag (s.seg_ n).coll seq := by
  have hany : (s.stash.any fun it => it.seg == n) = false := List.any_eq_false.mpr fun it hit => by simp [hstash it hit]
  unfold State.killAt State.poke
  simp only [hcopying, hstate, hframe, hany, Bool.false_eq_true, reduceCtorEq, or_self, if_false]

/-- A kill in a segment that is copied or paged in is held. -/
theorem State.killAt_holds {s : State} {n off seq dest tag : Nat} (h : (s.seg_ n).copying = true ∨ (s.seg_ n).state = .pagingIn) :
    s.killAt n off seq dest tag = s.setSeg n { s.seg_ n with kills := (s.seg_ n).kills ++ [(off, seq, dest, tag)] } := if_pos h

/-! ## The stash buffer -/

/-- The buffer of a collection is emptied, and its flushed sequence moves up: as far as it goes where no kill waits (R123, R138). -/
theorem State.flushStash_coll {s : State} {g : Nat} {c : Coll} (hc : s.coll? g = some c) :
    (s.flushStash g).stash = s.stash.filter (fun it => it.coll != g)
      ∧ ∃ top, (s.flushStash g).coll? g = some { c with unflushed := none, flushed := max c.flushed top }
        ∧ (s.waitingKills g = [] → top = max c.seen c.committed) := by
  unfold State.flushStash
  simp -zeta only [hc]
  extract_lets items paid flushed top
  have hpaid : Only [.bw] s paid := State.chargeUpTo_only
  have hkept (l : List Buffered) (v : State) : (l.foldl State.flushItem v).stash = v.stash ∧ (l.foldl State.flushItem v).seg = v.seg :=
    ⟨foldl_kept (f := State.flushItem) (g := State.stash) (fun _ _ => State.flushItem_only.stash) l v,
      foldl_kept (f := State.flushItem) (g := State.seg) (fun _ _ => State.flushItem_only.seg) l v⟩
  obtain ⟨hstash, hseg⟩ := hkept items { paid with stash := paid.stash.filter fun it => it.coll != g }
  refine ⟨hstash.trans (by rw [hpaid.stash]), top, State.coll_setColl, fun hkills => ?_⟩
  have hnone : flushed.waitingKills g = [] := by
    have hsame : flushed.seg = s.seg := hseg.trans hpaid.seg
    unfold State.waitingKills at hkills ⊢
    rw [hsame]
    exact hkills
  show (flushed.waitingKills g).foldl (fun top n => min top (n - 1)) (max c.seen c.committed) = _
  rw [hnone, List.foldl_nil]

/-! ## Stash writes -/

/-- A stash write that has room in the buffer, for a record that is no tombstone. -/
theorem exec_stashWrite_of {i : Nat} {m : List Byte} {c : Coll} {s u : State} (htake : s.take i mStashWrite = some (m, u)) (hserved : s.served (msgColl m) = some c)
    (hfence : s.boot.fenced = false) (hroom : s.stashUsed + 576 + c.vecBytes ≤ Config.stashBufferBytes) (hmedia : c.mediaMutation = false)
    (htomb : recTomb ((msgBody m).take 64) = false) :
    (∀ w, u.appendStash (msgColl m) c ((msgBody m).take 64) ((msgBody m).drop 64) = some w → c.flushed < recSeq ((msgBody m).take 64) →
      exec (.stashWrite i) s = .next (w.send (msgSource m) mStashAck 0 (msgTag m) (msgRequester m) (msgColl m)
        (toLE 2 stOk ++ toLE 6 (recSeq ((msgBody m).take 64)))))
    ∧ (u.appendStash (msgColl m) c ((msgBody m).take 64) ((msgBody m).drop 64) = none →
      exec (.stashWrite i) s = .next (u.send (msgSource m) mStashAck 0 (msgTag m) (msgRequester m) (msgColl m)
        (toLE 2 stQuota ++ toLE 6 (recSeq ((msgBody m).take 64))))) := by
  have hserved' : u.served (msgColl m) = some c := (State.served_of_colls (by rw [(State.take_eq htake).1])).trans hserved
  have hopen : ¬(s.intake = false ∨ Config.stashBufferBytes < s.stashUsed + 576 + c.vecBytes) := by
    unfold State.intake
    rw [hfence]
    simp only [Bool.not_false, Bool.true_eq_false, false_or, Nat.not_lt]
    exact hroom
  refine ⟨fun w happend hnew => ?_, fun happend => ?_⟩
  · change execStashWrite i s = _
    unfold execStashWrite
    simp only [htake, hserved', if_neg hopen, hmedia, htomb, happend, if_neg (Nat.not_le.mpr hnew), Bool.false_eq_true, if_false]
  · change execStashWrite i s = _
    unfold execStashWrite
    simp only [htake, hserved', if_neg hopen, hmedia, htomb, happend, Bool.false_eq_true, if_false]

/-- A message to another device leaves as this device's, from a state with this device's boot and transit. -/
theorem State.send_transit {s v : State} {dest ty flags tag requester coll : Nat} {body : List Byte} (hboot : v.boot = s.boot) (htransit : v.fab.transit = s.fab.transit)
    (hdest : dest < 128) (haway : dest ≠ s.self) :
    v.send dest ty flags tag requester coll body = { v with fab := { v.fab with transit := s.fab.transit ++ [s.mkMsg dest ty flags tag requester coll body] } } := by
  rw [State.send_eq (by rw [State.self_boot hboot, Nat.mod_eq_of_lt hdest]; exact haway), htransit, State.mkMsg_boot hboot]

/-- Settles O58: each clause by the branch of the write, the answer, the revocation or the flush that its premises select. -/
theorem writesLandCommitOrAreRevoked : Obligations.WritesLandCommitOrAreRevoked := by
  refine ⟨?append, ?quota, ?full, ?kill, ?held, ?stashAck, ?killAck, ?revoke, ?revokeAck, ?flush⟩
  case append =>
    intro i m c s u w htake hserved hfence hroom hmedia htomb happend hnew hsource
    obtain ⟨hu, -, htransit, -⟩ := State.take_eq htake
    have honly := Via.caseOpt State.appendStash_only happend
    have hrun := (exec_stashWrite_of htake hserved hfence hroom hmedia htomb).1 w happend hnew
    rw [State.send_transit (s := s) (honly.boot.trans (by rw [hu])) (honly.fab ▸ htransit) (msgSource_bound m) hsource] at hrun
    obtain ⟨hcoll, hstash⟩ := State.appendStash_places happend
    exact Runs.of hrun ⟨hcoll, hstash, rfl⟩
  case quota =>
    intro i m c s u htake hserved hfence hroom hmedia htomb happend hsource
    obtain ⟨hu, -, htransit, -⟩ := State.take_eq htake
    have hrun := (exec_stashWrite_of htake hserved hfence hroom hmedia htomb).2 happend
    rw [State.send_transit (s := s) (by rw [hu]) htransit (msgSource_bound m) hsource] at hrun
    have hcolls : u.colls = s.colls := by rw [hu]
    have hstash : u.stash = s.stash := by rw [hu]
    exact Runs.of hrun ⟨hcolls, hstash, rfl⟩
  case full =>
    intro i m c s u htake hserved hfull
    have hserved' : u.served (msgColl m) = some c := (State.served_of_colls (by rw [(State.take_eq htake).1])).trans hserved
    change execStashWrite i s = _
    unfold execStashWrite
    simp only [htake, hserved', hfull, or_true, if_true]
  case kill =>
    intro i n j f m c s u htake hc hcopies hat hcopying hstate hframe hstash hcoll hsource
    obtain ⟨hu, -, htransit, -⟩ := State.take_eq htake
    have hc' : u.coll? (msgColl m) = some c := (State.coll_of_colls (by rw [hu])).trans hc
    have hseg : u.seg_ n = s.seg_ n := State.seg_of_seg (by rw [hu])
    have hkill : u.killRecord (msgColl m) c (field (msgBody m) 0 6) (field (msgBody m) 6 6) (msgSource m) (msgTag m)
        = some ((u.writeFrame f (256 + 64 * j + 8) (toLE 6 (field (msgBody m) 6 6))).killAck (msgSource m) (msgTag m) (msgColl m) (field (msgBody m) 6 6)) := by
      rw [State.killRecord_segment hcopies hat, State.killAt_resident (by rw [hseg]; exact hcopying) (by rw [hseg]; exact hstate) (by rw [hseg]; exact hframe)
        (by rw [hu]; exact hstash), hseg, hcoll]
    have hwritten : (u.writeFrame f (256 + 64 * j + 8) (toLE 6 (field (msgBody m) 6 6))).mem = (s.writeFrame f (256 + 64 * j + 8) (toLE 6 (field (msgBody m) 6 6))).mem := by
      have hmem : u.mem = s.mem := by rw [hu]
      unfold State.writeFrame
      exact congrArg (fun mem => Memory.writeN 0 mem (f * Config.frameBytes + (256 + 64 * j + 8)) (toLE 6 (field (msgBody m) 6 6))) hmem
    have hboot : (u.writeFrame f (256 + 64 * j + 8) (toLE 6 (field (msgBody m) 6 6))).boot = s.boot := State.writeFrame_only.boot.trans (by rw [hu])
    have hcolls : (u.writeFrame f (256 + 64 * j + 8) (toLE 6 (field (msgBody m) 6 6))).coll? (msgColl m) = some c := hc'
    have hfab : (u.writeFrame f (256 + 64 * j + 8) (toLE 6 (field (msgBody m) 6 6))).fab.transit = s.fab.transit := htransit
    unfold State.killAck at hkill
    generalize u.writeFrame f (256 + 64 * j + 8) (toLE 6 (field (msgBody m) 6 6)) = w at hkill hwritten hboot hcolls hfab
    rw [State.send_transit hboot hfab (msgSource_bound m) hsource] at hkill
    refine Runs.of (exec_killWrite_of htake hc' hkill) ⟨?_, ?_, _, State.modColl_coll hcolls, rfl⟩
    · exact State.modColl_only.mem.trans hwritten
    · rw [State.modColl_only.fab]
  case held =>
    intro i n j m c s u htake hc hcopies hat hholds
    obtain ⟨hu, -, htransit, -⟩ := State.take_eq htake
    have hc' : u.coll? (msgColl m) = some c := (State.coll_of_colls (by rw [hu])).trans hc
    have hseg : u.seg_ n = s.seg_ n := State.seg_of_seg (by rw [hu])
    have hmem : u.mem = s.mem := by rw [hu]
    have hkill : u.killRecord (msgColl m) c (field (msgBody m) 0 6) (field (msgBody m) 6 6) (msgSource m) (msgTag m)
        = some (u.setSeg n { s.seg_ n with kills := (s.seg_ n).kills ++ [(256 + 64 * j, field (msgBody m) 6 6, msgSource m, msgTag m)] }) := by
      rw [State.killRecord_segment hcopies hat, State.killAt_holds (by rw [hseg]; exact hholds), hseg]
    refine Runs.of (exec_killWrite_of htake hc' hkill) ⟨?_, ?_, ?_⟩
    · exact State.modColl_only.mem.trans hmem
    · rw [State.modColl_only.fab]
      exact htransit
    · rw [State.seg_of_seg State.modColl_only.seg]
      exact State.seg_setSeg
  case stashAck =>
    intro i m r c q x s u htake hawaited hc hq hx
    have hc' := State.answered_coll (r := r) htake hc
    have hexec : exec (.stashAck i) s = .next ((u.endRequest r).writeAnswered (msgColl m) true (field (msgBody m) 0 2)) :=
      congrArg Host.Outcome.next (State.takeAck_of htake hawaited)
    obtain ⟨v, hv⟩ : ∃ v, v = (u.endRequest r).modSeqr (msgColl m) fun q => { q with current := q.current.map fun x => x.answeredWith true (field (msgBody m) 0 2) } := ⟨_, rfl⟩
    obtain ⟨heq, hcoll⟩ := State.writeAnswered_eq hc' hq hx hv
    rw [heq, State.settleWrites_of hcoll rfl rfl] at hexec
    refine ⟨fun hkill hok => ?_, fun hkill hrevoking hfailed hok hop hn => ?_, fun hkill hrevoking hfailed hbad hsent => ?_⟩
    · have hans : x.answeredWith true (field (msgBody m) 0 2) = { x with stashAt := none } := if_pos (Or.inl hok)
      rw [hans] at hexec hcoll
      rw [if_pos (Or.inr (Or.inl hkill))] at hexec
      exact Runs.of hexec hcoll
    · have hans : x.answeredWith true (field (msgBody m) 0 2) = { x with stashAt := none } := if_pos (Or.inl hok)
      rw [hans] at hexec hcoll
      simp only [hkill, hrevoking, hfailed, Option.isSome_none, Bool.false_eq_true, ne_eq, not_true_eq_false, or_self, if_false] at hexec
      refine Runs.of hexec ((State.commit_coll hcoll rfl hn).trans ?_)
      simp only [if_neg hop]
    · obtain ⟨y, hy⟩ : ∃ y : InFlight, y = { x with stashAt := none, failed := true, status := field (msgBody m) 0 2 } := ⟨_, rfl⟩
      have hans : x.answeredWith true (field (msgBody m) 0 2) = y := by
        rw [hy]
        unfold InFlight.answeredWith
        simp [hbad, hfailed]
      rw [hans] at hexec hcoll
      have hall : ¬(y.stashAt.isSome ∨ y.killAt.isSome ∨ y.revoking ≠ []) := by simp [hy, hkill, hrevoking]
      rw [if_neg hall, if_pos (by rw [hy])] at hexec
      exact Runs.of hexec ((State.startRevoke_coll hcoll rfl (by rw [hy]; exact hsent)).trans (by rw [hy]))
  case killAck =>
    intro i m r c q x s u htake hawaited hc hq hx hstash hrevoking hfailed hok hop hn
    have hc' := State.answered_coll (r := r) htake hc
    have hexec : exec (.killAck i) s = .next ((u.endRequest r).writeAnswered (msgColl m) false (field (msgBody m) 0 2)) :=
      congrArg Host.Outcome.next (State.takeAck_of htake hawaited)
    obtain ⟨v, hv⟩ : ∃ v, v = (u.endRequest r).modSeqr (msgColl m) fun q => { q with current := q.current.map fun x => x.answeredWith false (field (msgBody m) 0 2) } := ⟨_, rfl⟩
    obtain ⟨heq, hcoll⟩ := State.writeAnswered_eq hc' hq hx hv
    have hans : x.answeredWith false (field (msgBody m) 0 2) = { x with killAt := none } := if_pos (Or.inl hok)
    rw [heq, State.settleWrites_of hcoll rfl rfl] at hexec
    rw [hans] at hexec hcoll
    simp only [hstash, hrevoking, hfailed, Option.isSome_none, Bool.false_eq_true, ne_eq, not_true_eq_false, or_self, if_false] at hexec
    refine Runs.of hexec ((State.commit_coll hcoll rfl hn).trans ?_)
    simp only [if_pos hop]
  case revoke =>
    intro i m c s u w htake hc hunkill hsource
    obtain ⟨hu, -, htransit, -⟩ := State.take_eq htake
    have hc' : u.coll? (msgColl m) = some c := (State.coll_of_colls (by rw [hu])).trans hc
    have honly := Via.caseOpt State.unkill_only hunkill
    obtain ⟨v, hv⟩ : ∃ v, v = w.invalidate c (field (msgBody m) 0 6) := ⟨_, rfl⟩
    have hvonly : Only [.out, .mem, .stash] w v := by rw [hv]; exact State.invalidate_only
    have hvc : v.coll? (msgColl m) = some c := (State.coll_of_colls (hvonly.colls.trans honly.colls)).trans hc'
    obtain ⟨z, hz⟩ : ∃ z, z = v.modColl (msgColl m) fun c =>
        { c with locator := Map.del c.locator (field (msgBody m) 0 6), kills := c.kills.filter fun k => k.1 != field (msgBody m) 0 6 } := ⟨_, rfl⟩
    have hzc := hz ▸ State.modColl_coll hvc
    have hboot : z.boot = s.boot := by rw [hz, State.modColl_only.boot, hvonly.boot, honly.boot, hu]
    have hfab : z.fab.transit = s.fab.transit := by rw [hz, State.modColl_only.fab, hvonly.fab, honly.fab, htransit]
    have hexec : exec (.revoke i) s = .next (z.send (msgSource m) mRevokeAck 0 (msgTag m) (msgRequester m) (msgColl m) (toLE 6 (field (msgBody m) 0 6) ++ zeros 2)) := by
      change execRevoke i s = _
      unfold execRevoke
      simp only [htake, hc', hunkill, ← hv, ← hz]
    rw [State.send_transit hboot hfab (msgSource_bound m) hsource] at hexec
    exact Runs.of hexec ⟨hzc, rfl⟩
  case revokeAck =>
    intro i m r c q x s u htake hawaited hc hq hx
    have hc' := State.answered_coll (r := r) htake hc
    have hexec : exec (.revokeAck i) s = .next ((u.endRequest r).revoked (msgColl m) (msgSource m)) := by
      change execRevokeAck i s = _
      unfold execRevokeAck
      simp only [htake, hawaited]
    generalize u.endRequest r = v at hc' hexec
    unfold State.revoked at hexec
    simp only [hc', Option.bind_some, hq, hx] at hexec
    refine ⟨fun hmore => ?_, fun hlast => ?_⟩
    · rw [if_pos hmore] at hexec
      exact Runs.of hexec (State.modSeqr_coll hc' hq)
    · rw [if_neg (not_not_intro hlast)] at hexec
      refine Runs.of hexec ?_
      have hdone := State.modSeqr_coll (f := fun q => { q with current := none, held := false }) hc' hq
      split
      · exact hdone
      · exact (State.coll_of_colls State.answerMut_only.colls).trans hdone
  case flush =>
    intro g c s hc hdirty hkills
    have hexec : exec (.stashFlush g) s = .next (s.flushStash g) := by
      change execStashFlush g s = _
      unfold execStashFlush
      simp only [hc, hdirty, if_true]
    obtain ⟨hstash, top, hcoll, htop⟩ := State.flushStash_coll hc
    rw [htop hkills] at hcoll
    exact Runs.of hexec ⟨hstash, hcoll⟩

end Sys2Proof.Machine
end


section
/-! ## Control messages between the devices of a shard map (R60, R67, R88, R137, R139, R183, R349) -/

namespace Sys2Proof.Machine

/-! ## What the operations on a collection leave -/

/-- The acknowledgement of a control message of another device. -/
theorem State.ackCtrl_transit {s v : State} {m : List Byte} {status seq : Nat} (hboot : v.boot = s.boot) (htransit : v.fab.transit = s.fab.transit)
    (haway : msgSource m ≠ s.self) :
    v.ackCtrl m status seq = { v with fab := { v.fab with transit := s.fab.transit
      ++ [s.mkMsg (msgSource m) mCollCtrl 0 (msgTag m) (msgRequester m) (msgColl m) (ctrlBody 1 (field (msgBody m) 1 1) status 0 seq 0)] } } :=
  State.send_transit hboot htransit (msgSource_bound m) haway

/-- A collection that is made has a root of its own in generation 0 (R60). -/
theorem State.makeColl_coll {s w : State} {g : Nat} {c : Coll} (h : s.makeColl g c = some w) :
    ∃ root, w.coll? g = some { c with generation := 0, root := root } := by
  unfold State.makeColl at h
  split at h
  · cases h
  · cases h
    exact ⟨_, (State.coll_of_colls State.segWrite_only.colls).trans State.coll_setColl⟩

/-- A prepared generation whose root is written. -/
theorem State.writeRoot_coll {s w : State} {g : Nat} {c : Coll} {p : Prepared} (hc : s.coll? g = some c) (hp : c.prepared = some p) (h : s.writeRoot g = some w) :
    ∃ root, w.coll? g = some { c with prepared := some { p with root := some root } } := by
  unfold State.writeRoot at h
  simp only [hc, hp] at h
  split at h
  · cases h
  · cases h
    exact ⟨_, State.coll_setColl⟩

/-- Without a generation in preparation there is nothing to give up. -/
theorem State.abandonBuild_idle {s : State} {g : Nat} {c : Coll} (hc : s.coll? g = some c) (hp : c.prepared = none) : s.abandonBuild g = s := by
  unfold State.abandonBuild
  simp only [hc, hp]

/-- The prepared generation is the one in force (R67). -/
theorem State.flip_coll {s : State} {g r : Nat} {c : Coll} {p : Prepared} (hc : s.coll? g = some c) (hp : c.prepared = some p) (hr : p.root = some r) :
    ∃ c', (s.flip g).coll? g = some c' ∧ c'.generation = p.generation ∧ c'.root = r ∧ c'.prepared = none ∧ c'.old = (c.generation, c.root) :: c.old
      ∧ c'.blocks = p.blocks := by
  unfold State.flip
  simp -zeta only [hc, hp, hr]
  extract_lets kept tables keep stays c'
  exact ⟨c', (State.coll_of_colls State.retireRest_only.colls).trans State.coll_setColl, rfl, rfl, rfl, rfl, rfl⟩

/-- A collection that is dropped points at no root, and nothing of it is buffered (R183). -/
theorem State.dropColl_coll {s : State} {g : Nat} {c : Coll} (hc : s.coll? g = some c) (hlive : c.dropped = false) (hp : c.prepared = none) :
    (s.dropColl g).stash = s.stash.filter (fun it => it.coll != g)
    ∧ ∃ c', (s.dropColl g).coll? g = some c' ∧ c'.dropped = true ∧ c'.generation = c.generation + 1 ∧ c'.root = Config.droppedRoot ∧ c'.stash = []
      ∧ c'.old = (c.generation, c.root) :: c.old := by
  unfold State.dropColl
  simp only [State.abandonBuild_idle hc hp, hc, hlive, Bool.false_eq_true, if_false]
  obtain ⟨hstash, top, hcoll, -⟩ := State.flushStash_coll hc
  have hcleared : ((s.flushStash g).clearGrants g).coll? g = some { c with unflushed := none, flushed := max c.flushed top } :=
    (State.coll_of_colls State.clearGrants_only.colls).trans hcoll
  rw [hcleared, Option.getD_some]
  have hcut : ((s.flushStash g).clearGrants g).stash = s.stash.filter (fun it => it.coll != g) := State.clearGrants_only.stash.trans hstash
  refine ⟨?_, _, (State.coll_of_colls State.retireRest_only.colls).trans State.coll_setColl, rfl, rfl, rfl, rfl, rfl⟩
  exact State.retireRest_only.stash.trans hcut

/-! ## The roll-back -/

/-- Kills that are taken back change no collection and send nothing. -/
theorem State.foldl_unkillAt_only {s : State} {kills : List (Nat × Nat)} {places : Nat × Nat → List (Bool × Nat × Nat)} :
    Only [.out, .mem, .seg, .stash, .grid] s
      (kills.foldl (fun (s : State) k => (places k).foldl (fun (s : State) at_ => (s.unkillAt k.1 at_).getD s) s) s) :=
  Only.foldl (fun _ _ hu => Only.foldl (fun v _ hv => Only.step (Only.getD State.unkillAt_only (Only.refl _ v)) rfl hv) hu) (Only.refl _ s)

/-- What a roll-back leaves of a collection that has no sequencer here (R139). -/
theorem State.rollBack_coll {s : State} {g r : Nat} {c : Coll} (hc : s.coll? g = some c) (hq : c.seqr = none) :
    (s.rollBack g r).fab = s.fab
    ∧ ∃ c', (s.rollBack g r).coll? g = some c' ∧ c'.recovered = some r ∧ c'.seen = min c.seen r ∧ (∀ k ∈ c'.kills, k.1 ≤ r) := by
  unfold State.rollBack
  simp -zeta only [hc, hq, Option.bind_none]
  extract_lets s1 s2 s3 s4
  have h1 : Only [.out, .mem, .seg, .stash, .grid] s s1 :=
    State.foldl_unkillAt_only (places := fun k => (Map.get? c.locator k.2).toList ++ c.copiesOf k.2)
  have h2 : Only [.out, .mem, .seg, .stash, .grid] s s2 :=
    Only.with_stash (Only.step (Via.caseFst State.cutStripes_only (rfl : s1.cutStripes g c r c.stash = (_, _))) rfl h1) rfl
  have h4 : Only [.out, .mem, .seg, .stash, .grid] s s4 := by
    show Only _ s (if (s1.cutStripes g c r c.stash).2.isEmpty = true then c.generations.foldl (fun (s : State) gr =>
      if gr.2 = Config.droppedRoot then s else s.segWrite gr.2 272 (toLE 4 Config.noSegment)) s2 else s2)
    refine Only.ite (fun _ => Only.foldl (fun v gr hv => Only.ite (fun _ => hv) fun _ => ?_) h2) fun _ => h2
    exact Only.step State.segWrite_only rfl hv
  refine ⟨State.modColl_only.fab.trans h4.fab, _, State.modColl_coll ((State.coll_of_colls h4.colls).trans hc), rfl, rfl, fun k hk => ?_⟩
  exact of_decide_eq_true (List.mem_filter.mp hk).2

/-! ## Requests -/

theorem length_mkMsg {s : State} {dest ty flags tag requester coll : Nat} {body : List Byte} :
    (s.mkMsg dest ty flags tag requester coll body).bytes.length = 16 + body.length := by
  show (msgHeader _ _ _ _ _ _ _ _ _ ++ body).length = _
  unfold msgHeader
  simp only [List.length_append, toLE_length, List.length_cons, List.length_nil]

/-- The first pull of a load asks for the image's header (R88). -/
theorem State.goOnPulling_starts {s : State} {g : Nat} {c : Coll} {p : Pull} (hc : s.coll? g = some c) (hp : c.pull = some p) (hgot : p.got = []) :
    s.goOnPulling g = s.requestFor p.loader mImagePull 0 p.tag p.loader g 0 (toLE 8 0 ++ toLE 4 128 ++ zeros 4) := by
  have hlacks : p.has (0, 128) = false := by
    unfold Pull.has
    rw [hgot]
    rfl
  have hnext : s.nextPull c p = some (0, 128) := by
    unfold State.nextPull State.pullPlan
    simp only [hlacks, Bool.not_false, if_true, List.find?_cons_of_pos]
  unfold State.goOnPulling
  simp only [hc, hp, hnext]
  rfl

/-- Settles O59: each clause by the branch of the control message or of its acknowledgement that its premises select. -/
theorem controlMessagesChangeCollections : Obligations.ControlMessagesChangeCollections := by
  refine ⟨?piece, ?create, ?prepare, ?flip, ?drop, ?lost, ?loadPrepare, ?loadAbandon, ?scrub, ?ack⟩
  case piece =>
    intro i m s u htake hnew hfirst hmore hsource
    obtain ⟨hu, -, htransit, -⟩ := State.takeCtrl_eq htake
    have hnew' : u.coll? (msgColl m) = none := (State.coll_of_colls (by rw [hu])).trans hnew
    have hlast : decide (field (slice (msgBody m) 24 16) 10 2 ≤ 0 + field (msgBody m) 42 1) = false := decide_eq_false (by omega)
    obtain ⟨c, hc⟩ : ∃ c : Coll, c = { newColl (slice (msgBody m) 24 16) (field (msgBody m) 40 1) 0 [] with
        created := false, shards := parseRanges ((msgBody m).drop 48) (field (msgBody m) 42 1), pieces := [0] } := ⟨_, rfl⟩
    have hexec : exec (.collCtrlCreate i) s = .next ((u.setColl (msgColl m) c).ackCtrl m stOk 0) := by
      change execCollCtrlCreate i s = _
      unfold execCollCtrlCreate
      simp only [htake, hnew', hfirst, hlast, if_true, Bool.not_false, hc]
      rfl
    have hboot : u.boot = s.boot := by rw [hu]
    rw [State.ackCtrl_transit (s := s) (v := u.setColl (msgColl m) c) hboot htransit hsource] at hexec
    exact Runs.of hexec ⟨by rw [← hc]; exact State.coll_setColl, rfl⟩
  case create =>
    intro i m c s u w htake hc hopen hlast hsource hmake
    obtain ⟨hu, -, htransit, -⟩ := State.takeCtrl_eq htake
    have hc' : u.coll? (msgColl m) = some c := (State.coll_of_colls (by rw [hu])).trans hc
    have hdraws : u.draws = s.draws := by rw [hu]
    have hexec : exec (.collCtrlCreate i) s = .next (w.ackCtrl m stOk 0) := by
      change execCollCtrlCreate i s = _
      unfold execCollCtrlCreate
      simp only [htake, hc', hopen, decide_eq_true hlast, Bool.false_eq_true, if_false, Bool.not_true, hdraws, hmake]
    have honly := Via.caseOpt State.makeColl_only hmake
    have hboot : u.draw.2.boot = s.boot := by
      rw [hu]
      rfl
    rw [State.ackCtrl_transit (s := s) (honly.boot.trans hboot) ((congrArg Fabric.transit honly.fab).trans htransit) hsource] at hexec
    have hcoll := State.makeColl_coll hmake
    exact Runs.of hexec ⟨hcoll, rfl⟩
  case prepare =>
    intro i m c p s u htake hserved hp hgen hsource
    obtain ⟨hu, -, htransit, -⟩ := State.takeCtrl_eq htake
    have hcolls : u.colls = s.colls := by rw [hu]
    have hserved' : u.served (msgColl m) = some c := (State.served_of_colls hcolls).trans hserved
    have hc := State.served_coll hserved'
    refine ⟨fun r hr hcut => ?_, fun w hr hwrite => ?_⟩
    · have hexec : exec (.collCtrlPrepare i) s = .next (u.ackCtrl m (if p.lacking then stMedia else stOk) 0) := by
        change execCollCtrlPrepare i s = _
        unfold execCollCtrlPrepare State.prepareBuild
        simp only [htake, hserved', hp, hr, hgen, hcut, hc, Option.map_some, Option.getD_some, Option.isSome_some, Option.isNone_some, bne_self_eq_false,
          Bool.and_false, Bool.or_false, Bool.false_eq_true, if_false, if_true, false_and, ne_eq, not_true_eq_false, Option.bind_some]
      rw [State.ackCtrl_transit (s := s) (by rw [hu]) htransit hsource] at hexec
      exact Runs.of hexec ⟨hcolls, rfl⟩
    · have hexec : exec (.collCtrlPrepare i) s = .next (w.ackCtrl m (if p.lacking then stMedia else stOk) 0) := by
        change execCollCtrlPrepare i s = _
        unfold execCollCtrlPrepare State.prepareBuild
        simp only [htake, hserved', hp, hr, hgen, hc, hwrite, Option.map_some, Option.getD_some, Option.isSome_some, Option.isSome_none, Option.isNone_some,
          bne_self_eq_false, Bool.false_and, Bool.or_false, Bool.false_eq_true, if_false, if_true, false_and, ne_eq, not_true_eq_false, Option.bind_some]
      have honly := Via.caseOpt State.writeRoot_only hwrite
      rw [State.ackCtrl_transit (s := s) (honly.boot.trans (by rw [hu])) ((congrArg Fabric.transit honly.fab).trans htransit) hsource] at hexec
      have hcoll := State.writeRoot_coll hc hp hwrite
      exact Runs.of hexec ⟨hcoll, rfl⟩
  case flip =>
    intro i r m c p s u htake hc hp hr hgen hsource
    obtain ⟨hu, -, htransit, -⟩ := State.takeCtrl_eq htake
    have hc' : u.coll? (msgColl m) = some c := (State.coll_of_colls (by rw [hu])).trans hc
    have hexec : exec (.collCtrlFlip i) s = .next ((u.flip (msgColl m)).ackCtrl m stOk 0) := by
      change execCollCtrlFlip i s = _
      unfold execCollCtrlFlip
      simp only [htake, hc', hp, hr, hgen, Option.bind_some, Option.map_some, Option.isSome_some, Bool.true_and, beq_self_eq_true, Option.getD_some, if_true]
    have honly : Only [.seg, .colls] u (u.flip (msgColl m)) := State.flip_only
    have hflip := State.flip_coll hc' hp hr
    generalize u.flip (msgColl m) = v at hexec honly hflip
    rw [State.ackCtrl_transit (s := s) (honly.boot.trans (by rw [hu])) ((congrArg Fabric.transit honly.fab).trans htransit) hsource] at hexec
    exact Runs.of hexec ⟨hflip, rfl⟩
  case drop =>
    intro i m c s u htake hc hlive hp hsource
    obtain ⟨hu, -, htransit, -⟩ := State.takeCtrl_eq htake
    have hc' : u.coll? (msgColl m) = some c := (State.coll_of_colls (by rw [hu])).trans hc
    have hexec : exec (.collCtrlDrop i) s = .next ((u.dropColl (msgColl m)).ackCtrl m stOk 0) := by
      change execCollCtrlDrop i s = _
      unfold execCollCtrlDrop
      simp only [htake]
    have honly := State.dropColl_only (s := u) (g := msgColl m)
    obtain ⟨hstash, hcoll⟩ := State.dropColl_coll hc' hlive hp
    generalize u.dropColl (msgColl m) = v at hexec honly hstash hcoll
    rw [State.ackCtrl_transit (s := s) (honly.boot.trans (by rw [hu])) ((congrArg Fabric.transit honly.fab).trans htransit) hsource] at hexec
    refine Runs.of hexec ⟨hcoll, fun it hit => ?_, rfl⟩
    have hit' : it ∈ v.stash := hit
    rw [hstash] at hit'
    exact bne_iff_ne.mp (List.mem_filter.mp hit').2
  case lost =>
    intro i m c s u htake hc hsource
    obtain ⟨hu, -, htransit, -⟩ := State.takeCtrl_eq htake
    have hc' : u.coll? (msgColl m) = some c := (State.coll_of_colls (by rw [hu])).trans hc
    have hexec : exec (.collCtrlLost i) s = .next ((u.modColl (msgColl m) fun c => { c with lost := true }).ackCtrl m stOk 0) := by
      change execCollCtrlLost i s = _
      unfold execCollCtrlLost
      simp only [htake]
    have honly := State.modColl_only (s := u) (g := msgColl m) (f := fun c => { c with lost := true })
    have hcoll := State.modColl_coll (f := fun c => { c with lost := true }) hc'
    generalize (u.modColl (msgColl m) fun c => { c with lost := true }) = v at hexec honly hcoll
    rw [State.ackCtrl_transit (s := s) (honly.boot.trans (by rw [hu])) ((congrArg Fabric.transit honly.fab).trans htransit) hsource] at hexec
    exact Runs.of hexec ⟨hcoll, rfl⟩
  case loadPrepare =>
    intro i m c s u htake hserved hp haway hroom
    obtain ⟨hu, -, htransit, -⟩ := State.takeCtrl_eq htake
    have hserved' : u.served (msgColl m) = some c := (State.served_of_colls (by rw [hu])).trans hserved
    have hc := State.served_coll hserved'
    obtain ⟨p, hpull⟩ : ∃ p : Pull, p = { loader := field (msgBody m) 22 1 % 128, tag := msgTag m } := ⟨_, rfl⟩
    obtain ⟨v, hv⟩ : ∃ v, v = u.modColl (msgColl m) fun c => { c with pull := some p, load := if c.load = .notLoaded then .running else c.load } := ⟨_, rfl⟩
    have hcoll : v.coll? (msgColl m) = some { c with pull := some p, load := if c.load = .notLoaded then .running else c.load } := by
      rw [hv]
      exact State.modColl_coll hc
    have honly : Only [.colls] u v := by rw [hv]; exact State.modColl_only
    have hboot : v.boot = s.boot := honly.boot.trans (by rw [hu])
    have hself : v.self = s.self := State.self_boot hboot
    have hexec : exec (.collCtrlLoadPrepare i) s = .next (v.goOnPulling (msgColl m)) := by
      change execCollCtrlLoadPrepare i s = _
      unfold execCollCtrlLoadPrepare
      simp only [htake, hserved', State.abandonBuild_idle hc hp, ← hpull, ← hv]
    rw [State.goOnPulling_starts hcoll rfl (by rw [hpull])] at hexec
    have hpool : requestPool (v.mkMsg p.loader mImagePull 0 p.tag p.loader (msgColl m) (toLE 8 0 ++ toLE 4 128 ++ zeros 4)) = (0x0E, 1) := by
      rw [requestPool_of_channel (by exact (by decide : (channelOf mImagePull).getD 3 ≠ 3))]
      unfold landingNeed
      rw [length_mkMsg]
      rfl
    have hused : v.used 0x0E p.loader = s.used 0x0E p.loader := by
      refine State.used_cred ?_ 0x0E p.loader
      rw [honly.cred, hu]
    have hsent := State.requestFor_sends (s := v) (owner := 0) (dest := p.loader) (ty := mImagePull) (flags := 0) (tag := p.tag) (requester := p.loader) (coll := msgColl m)
      (body := toLE 8 0 ++ toLE 4 128 ++ zeros 4) (by rw [hself, hpull]; exact haway) (by rw [hpull]; exact Nat.mod_lt _ (by decide))
      (by rw [hpool, hused, hpull]; exact hroom)
    refine Runs.of hexec ⟨?_, ?_⟩
    · rw [State.coll_of_colls State.requestFor_only.colls, hcoll, hpull]
    · rw [hsent.1, State.mkMsg_boot hboot, honly.fab, htransit, hpull]
  case loadAbandon =>
    intro i m c s u htake hc hp hsource
    obtain ⟨hu, -, htransit, -⟩ := State.takeCtrl_eq htake
    have hc' : u.coll? (msgColl m) = some c := (State.coll_of_colls (by rw [hu])).trans hc
    obtain ⟨v, hv⟩ : ∃ v, v = u.modColl (msgColl m) fun c => { c with pull := none, load := if c.load = .running then .notLoaded else c.load } := ⟨_, rfl⟩
    have hcoll : v.coll? (msgColl m) = some { c with pull := none, load := if c.load = .running then .notLoaded else c.load } := by
      rw [hv]
      exact State.modColl_coll hc'
    have honly : Only [.colls] u v := by rw [hv]; exact State.modColl_only
    have hexec : exec (.collCtrlLoadAbandon i) s = .next (v.ackCtrl m stOk 0) := by
      change execCollCtrlLoadAbandon i s = _
      unfold execCollCtrlLoadAbandon State.abandonLoad
      simp only [htake, State.abandonBuild_idle hc' hp, ← hv]
    rw [State.ackCtrl_transit (s := s) (honly.boot.trans (by rw [hu])) ((congrArg Fabric.transit honly.fab).trans htransit) hsource] at hexec
    exact Runs.of hexec ⟨hcoll, rfl⟩
  case scrub =>
    intro i m c c' s u htake hc hidle hq hc' hsource
    obtain ⟨hu, -, htransit, -⟩ := State.takeCtrl_eq htake
    have hcu : u.coll? (msgColl m) = some c := (State.coll_of_colls (by rw [hu])).trans hc
    have honly := State.flushStash_only (s := u) (g := msgColl m)
    obtain ⟨-, top, hflushed, -⟩ := State.flushStash_coll hcu
    have hsame : c' = { c with unflushed := none, flushed := max c.flushed top } := Option.some.inj (hc'.symm.trans hflushed)
    have hidle' : c'.scrubbing = false := by rw [hsame]; exact hidle
    have hq' : c'.seqr = none := by rw [hsame]; exact hq
    obtain ⟨v, hv⟩ : ∃ v, v = u.flushStash (msgColl m) := ⟨_, rfl⟩
    rw [← hv] at hc' honly
    obtain ⟨z, hz⟩ : ∃ z, z = v.ackCtrl m stOk c'.flushed := ⟨_, rfl⟩
    have hexec : exec (.collCtrlScrubState i) s = .next (z.rollBack (msgColl m) (min c'.flushed (field (msgBody m) 16 6))) := by
      change execCollCtrlScrubState i s = _
      unfold execCollCtrlScrubState
      simp only [htake, hcu, Option.map_some, Option.getD_some, hidle, Bool.false_eq_true, if_false, ← hv, hc', hidle', ← hz]
    rw [State.ackCtrl_transit (s := s) (honly.boot.trans (by rw [hu])) ((congrArg Fabric.transit honly.fab).trans htransit) hsource] at hz
    have hcz : z.coll? (msgColl m) = some c' := by rw [hz]; exact hc'
    obtain ⟨hfab, hcoll⟩ := State.rollBack_coll (r := min c'.flushed (field (msgBody m) 16 6)) hcz hq'
    exact Runs.of hexec ⟨hcoll, by rw [hfab, hz]⟩
  case ack =>
    intro i device tag ds m r c q s u htake hop hawaited hc hq hdrop
    obtain ⟨hu, -⟩ := State.takeKind_eq htake
    obtain ⟨v, hv⟩ : ∃ v, v = u.endRequest r := ⟨_, rfl⟩
    have honly : Only [.cred, .fab] u v := by rw [hv]; exact State.endRequest_only
    have hc' : v.coll? (msgColl m) = some c := (State.coll_of_colls (honly.colls.trans (by rw [hu]))).trans hc
    have hexec : exec (.ctrlAck i) s = .next (v.dropAcked (msgColl m) (msgSource m)) := by
      change execCtrlAck i s = _
      unfold execCtrlAck
      simp only [htake, hop, hawaited, ← hv, if_neg (by decide : opDrop ≠ opCreate), if_neg (by decide : opDrop ≠ opPrepare), if_neg (by decide : opDrop ≠ opFlip),
        if_true]
    unfold State.dropAcked at hexec
    simp only [hc', Option.bind_some, hq, hdrop] at hexec
    refine ⟨fun hmore => ?_, fun key l hlast hhere htag hl => ?_⟩
    · rw [if_pos hmore] at hexec
      exact Runs.of hexec (State.modSeqr_coll hc' hq)
    · rw [if_neg (not_not_intro hlast)] at hexec
      have hdone := State.modSeqr_coll (f := fun q => { q with drop := none }) hc' hq
      have hboot : (v.modSeqr (msgColl m) fun q => { q with drop := none }).boot = s.boot := State.modSeqr_only.boot.trans (honly.boot.trans (by rw [hu]))
      have hhost : (v.modSeqr (msgColl m) fun q => { q with drop := none }).host = s.host := State.modSeqr_only.host.trans (honly.host.trans (by rw [hu]))
      have hsched : (v.modSeqr (msgColl m) fun q => { q with drop := none }).sched = s.sched := State.modSeqr_only.sched.trans (honly.sched.trans (by rw [hu]))
      generalize (v.modSeqr (msgColl m) fun q => { q with drop := none }) = z at hexec hdone hboot hhost hsched
      unfold State.answerMut at hexec
      rw [if_pos (by rw [State.self_boot hboot]; exact hhere)] at hexec
      obtain ⟨hgone, hwait⟩ := State.doneMut_completes (status := stOk) (seq := 0) ((State.byTag_same hhost hsched).trans htag) ((State.live_of_host hhost).trans hl)
      exact Runs.of hexec ⟨(State.coll_of_colls State.doneMut_only.colls).trans hdone, hgone, hwait.trans (by rw [hhost])⟩

end Sys2Proof.Machine
end


section
/-! ## Compaction runs, freeing, the start-up scrub, list and image transfers (R88, R135 to R141, R148, R203) -/

namespace Sys2Proof.Machine

/-! ## Runs -/

/-- A run that may start sets its cut, where both proposals lie above the one in force (R136). -/
theorem State.startRun_cuts {s w v : State} {g own rest : Nat} {c : Coll} {q : Sequencer} (hc : s.coll? g = some c) (hq : c.seqr = some q)
    (hfrozen : s.seg.frozen = false) (hload : c.load = .loaded) (hown : s.proposal g c q.committed = (w, own)) (hrest : w.otherProposals c q.committed = (v, rest))
    (hcut : rootCut (s.rootBody c.root) < min own rest) :
    (s.startRun g []).coll? g = some { c with seqr := some { q with run := some { cut := min own rest }, compactNow := [] } } := by
  have hmax : max (rootCut (s.rootBody c.root)) (min own rest) = min own rest := Nat.max_eq_right (Nat.le_of_lt hcut)
  have hv : v.coll? g = some c := (State.coll_of_colls ((Via.caseFst State.otherProposals_only hrest).colls.trans (Via.caseFst State.proposal_only hown).colls)).trans hc
  have hopen : (s.seg.frozen || c.load != .loaded) = false := by rw [hfrozen, hload]; rfl
  have habove : ¬(min own rest ≤ rootCut (s.rootBody c.root) ∧ v.killedOnly c (min own rest) = false) := fun h => Nat.not_le.mpr hcut h.1
  unfold State.startRun
  simp only [hc, hq, hopen, Bool.false_eq_true, if_false, hown, hrest, hmax, if_neg habove]
  exact State.modSeqr_coll hv hq

/-- A run that may start by itself: its collection is loaded, and allocation goes on (R135). -/
theorem State.mayCompact_open {s : State} {c : Coll} {q : Sequencer} (h : s.mayCompact c q = true) : c.load = .loaded ∧ s.seg.frozen = false := by
  unfold State.mayCompact at h
  simp only [Bool.and_eq_true, beq_iff_eq, Bool.not_eq_true'] at h
  obtain ⟨⟨⟨⟨⟨⟨⟨-, hload⟩, -⟩, -⟩, hfrozen⟩, -⟩, -⟩, -⟩ := h
  exact ⟨hload, hfrozen⟩

/-! ## Freeing -/

theorem Map.mem_of_get? {α : Type} {m : Map α} {i : Nat} {v : α} (h : Map.get? m i = some v) : (i, v) ∈ m := by
  induction m with
  | nil => cases h
  | cons e m ih =>
    obtain ⟨k, w⟩ := e
    unfold Map.get? at h
    split at h
    · rename_i hk
      cases h
      exact hk ▸ List.mem_cons_self
    · exact List.mem_cons_of_mem _ (ih h)

/-- A segment that the map lists stands in it. -/
theorem State.mem_segs {s : State} {n : Nat} (h : (s.seg_ n).state ≠ .free) : (n, s.seg_ n) ∈ s.seg.map := by
  unfold State.seg_ Map.getD at h ⊢
  cases hn : Map.get? s.seg.map n with
  | none =>
    rw [hn] at h
    exact absurd rfl h
  | some v => exact Map.mem_of_get? hn

/-- The map of segments without one that becomes FREE. -/
theorem State.freeSeg_map {s : State} {n : Nat} (h : (s.seg_ n).state ≠ .free) : (s.freeSeg n).seg.map = Map.del s.seg.map n := by
  have hout (v : State) (st : SegState) : (v.countOut st).seg.map = v.seg.map := by cases st <;> rfl
  have hback (v : State) (f : Nat) : (v.frameBack f).seg.map = v.seg.map := by
    unfold State.frameBack
    split <;> rfl
  unfold State.freeSeg
  dsimp only
  rw [if_neg h]
  show Map.del _ n = _
  split
  · rw [hback, hout]
  · rfl

theorem State.freeSeg_frees (s : State) (n : Nat) : ((s.freeSeg n).seg_ n).state = .free := by
  by_cases h : (s.seg_ n).state = .free
  · unfold State.freeSeg
    dsimp only
    rw [if_pos h]
    exact h
  · unfold State.seg_ Map.getD
    rw [State.freeSeg_map h, Map.get?_del_same]
    rfl

theorem State.freeSeg_keeps_free {s : State} {k n : Nat} (hn : (s.seg_ n).state = .free) : ((s.freeSeg k).seg_ n).state = .free := by
  by_cases h : (s.seg_ k).state = .free
  · unfold State.freeSeg
    dsimp only
    rw [if_pos h]
    exact hn
  · unfold State.seg_ Map.getD at hn ⊢
    rw [State.freeSeg_map h, Map.get?_del]
    split
    · rfl
    · exact hn

/-- Every segment of a list of segments that become FREE is FREE. -/
theorem State.foldl_freeSeg_free {n : Nat} : ∀ {l : List (Nat × Seg)} {s : State}, ((∃ v, (n, v) ∈ l) ∨ (s.seg_ n).state = .free) →
    ((l.foldl (fun (s : State) e => s.freeSeg e.1) s).seg_ n).state = .free
  | [], _, h => h.elim (fun ⟨_, hv⟩ => absurd hv List.not_mem_nil) id
  | e :: l, s, h => by
    refine State.foldl_freeSeg_free (l := l) (s := s.freeSeg e.1) ?_
    rcases h with ⟨v, hv⟩ | hfree
    · rcases List.mem_cons.mp hv with rfl | hl
      · exact Or.inr (s.freeSeg_frees n)
      · exact Or.inl ⟨v, hl⟩
    · exact Or.inr (State.freeSeg_keeps_free hfree)

/-- Freeing in a collection that lives: generations without a reader are forgotten, and a RETIRING segment that no remaining one
references is FREE (R137, R148). -/
theorem State.freeGenerations_of {s : State} {g : Nat} {c : Coll} (hc : s.coll? g = some c) (hlive : c.dropped = false) :
    (∃ c', (s.freeGenerations g).coll? g = some c' ∧ c'.old = c.old.filter fun gr => s.hasReader g gr.1)
    ∧ ∀ n, (s.seg_ n).coll = g → (s.seg_ n).kind ≠ 0x0B → (s.seg_ n).state = .retiring → n ∉ s.refs g c c.root →
      (∀ gr ∈ c.old, s.hasReader g gr.1 = true → n ∉ s.refs g c gr.2) → ((s.freeGenerations g).seg_ n).state = .free := by
  unfold State.freeGenerations
  simp -zeta only [hc]
  extract_lets old c' held s1 goes s2 s3 stays s4 busy gone s5
  have hlast : ((c'.dropped && old.isEmpty && !busy) && s5.seg.map.all fun e => e.2.coll != g || e.2.kind == 0x0B) = false := by
    have hd : c'.dropped = false := hlive
    rw [hd]
    rfl
  rw [if_neg (by rw [hlast]; exact Bool.false_ne_true)]
  have hcoll1 : s1.coll? g = some c' := State.coll_setColl
  have hcoll2 : ∃ q, s2.coll? g = some { c' with seqr := q } := by
    show ∃ q, (if s1.seg.map.any goes = true then s1.modSeqr g fun q => { q with starved := false } else s1).coll? g = some { c' with seqr := q }
    split
    · exact ⟨_, State.modColl_coll hcoll1⟩
    · exact ⟨_, hcoll1⟩
  have hseg2 : s2.seg = s.seg := by
    show (if s1.seg.map.any goes = true then s1.modSeqr g fun q => { q with starved := false } else s1).seg = s.seg
    split
    · exact State.modSeqr_only.seg
    · rfl
  have hcolls4 : s4.colls = s2.colls := State.clearBlocks_only.colls.trans
    (foldl_kept (f := fun (s : State) (e : Nat × Seg) => s.freeSeg e.1) (g := State.colls) (fun _ _ => State.freeSeg_only.colls) _ s2)
  obtain ⟨q, hq⟩ := hcoll2
  refine ⟨⟨_, State.modColl_coll ((State.coll_of_colls hcolls4).trans hq), rfl⟩, fun n hmine hkind hretiring hroot hold => ?_⟩
  have hheld : n ∉ held := by
    refine fun hn => (List.mem_append.mp hn).elim (fun hn => ?_) fun hn => ?_
    · obtain ⟨l, hl, hnl⟩ := List.mem_flatten.mp hn
      obtain ⟨gr, hgr, rfl⟩ := List.mem_map.mp hl
      obtain ⟨hmem, hreader⟩ := List.mem_filter.mp hgr
      exact hold gr hmem hreader hnl
    · rw [if_neg (by rw [hlive]; exact Bool.false_ne_true)] at hn
      exact hroot hn
  have hgoes : (n, s.seg_ n) ∈ s1.seg.map.filter goes := by
    refine List.mem_filter.mpr ⟨State.mem_segs (s := s) (by rw [hretiring]; decide), ?_⟩
    simp [goes, hmine, hkind, hretiring, hheld]
  have hfree : (s3.seg_ n).state = .free := State.foldl_freeSeg_free (Or.inl ⟨s.seg_ n, by rw [hseg2]; exact hgoes⟩)
  have hkept : s5.seg = s3.seg := State.modColl_only.seg.trans State.clearBlocks_only.seg
  rw [State.seg_of_seg hkept]
  exact hfree

/-! ## The start-up scrub -/

/-- A collection of this device alone, with nothing prepared, rolls back to its own flushed sequence (R139). -/
theorem State.scrubColl_alone {s : State} {g : Nat} {c : Coll} (hc : s.coll? g = some c) (hp : c.prepared = none) (hq : c.seqr = none)
    (halone : (mapDevices c.shards).filter (· != s.self) = []) (hreported : c.reported = []) :
    ∃ c', (s.scrubColl g).coll? g = some c' ∧ c'.recovered = some c.flushed ∧ c'.scrubbing = false := by
  have hsettled : s.settlePrepared g = s := by
    unfold State.settlePrepared
    simp only [hc, hp]
  have hsingle : s.scrubColl g = s.endScrub g c := by
    unfold State.scrubColl
    simp only [hsettled, hc, hq, halone, Option.bind_none, if_true]
    rfl
  obtain ⟨-, c', hc', hrecovered, -, -⟩ := State.rollBack_coll (r := c.flushed) hc hq
  rw [hsingle]
  unfold State.endScrub
  rw [hreported]
  exact ⟨_, (State.coll_of_colls State.logEvent_only.colls).trans (State.modColl_coll hc'), hrecovered, rfl⟩

/-- The scrub of every collection, after which what nothing references is FREE (R139, steps 1 to 4). -/
def State.scrubbed (s : State) : State :=
  let s := (Map.keys s.colls).foldl State.scrubColl s
  (s.seg.map.filter fun (e : Nat × Seg) => !s.referenced.contains e.1).foldl (fun (s : State) e => s.freeSeg e.1) s

theorem exec_startupScrub_of {s : State} (h : s.boot.scrubbing = true) :
    exec .startupScrub s = .next ({ s.scrubbed.recount with boot := { s.scrubbed.recount.boot with scrubbing := false } }.segmentAudit) :=
  congrArg Host.Outcome.next (if_neg (by simp [h]))

theorem State.scrubbed_colls (s : State) : s.scrubbed.colls = ((Map.keys s.colls).foldl State.scrubColl s).colls :=
  foldl_kept (f := fun (s : State) (e : Nat × Seg) => s.freeSeg e.1) (g := State.colls) (fun _ _ => State.freeSeg_only.colls) _ _

/-! ## Lists and images in pieces -/

/-- A list that one piece holds. -/
theorem pieces_one {α : Type} {n : Nat} {xs : List α} (hne : xs ≠ []) (h : xs.length ≤ n) : pieces n xs.length xs = [xs] := by
  have hrest (fuel : Nat) : pieces n fuel ([] : List α) = [] := by cases fuel <;> rfl
  cases xs with
  | nil => exact absurd rfl hne
  | cons x xs =>
    show (if (x :: xs).isEmpty = true then [] else (x :: xs).take n :: pieces n xs.length ((x :: xs).drop n)) = _
    rw [if_neg (by simp), List.take_of_length_le h, List.drop_of_length_le h, hrest]

/-- A SNAPSHOT_EXPORT in progress with the records of a LIST_DATA message added to the range that they belong to (R141). -/
def Exporting.received (x : Exporting) (m : List Byte) (range : Nat) (c : Coll) : Exporting :=
  let b := msgBody m
  let n := field b 8 4
  let all := Map.getD x.got range [] ++ (List.range n).map fun j => (slice b (16 + 64 * j) 64, slice b (16 + 64 * n + c.vecBytes * j) c.vecBytes)
  let ends := msgLast m && decide (all.length < field b 0 8 / c.pullUnit + c.perPull)
  { x with got := Map.put x.got range all, complete := if ends then x.complete ++ [range] else x.complete }

/-- The answer of a pull that one message holds (R141). -/
theorem State.sendListData_one {s : State} {m : List Byte} {off : Nat} {part : List Entry} {n : Nat} (h : part.length ≤ n) :
    s.sendListData m off (pieces (max n 1) part.length part)
      = s.send (msgSource m) mListData 4 (msgTag m) (msgRequester m) (msgColl m) (listDataBody off part) := by
  by_cases hne : part = []
  · rw [hne]
    rfl
  · rw [pieces_one hne (Nat.le_trans h (Nat.le_max_left n 1))]
    rfl

/-- Settles O60: each clause by the branch of the run, the scrub or the transfer that its premises select. -/
theorem runsScrubsAndTransfersProceed : Obligations.RunsScrubsAndTransfersProceed := by
  refine ⟨?trigger, ?quiet, ?copy, ?free, ?unscrubbed, ?counts, ?recovers, ?listPull, ?listData, ?imagePull, ?imageData⟩
  case trigger =>
    intro g own rest c q s w v hkeys hc hq hmay htrig hown hrest hcut
    obtain ⟨hload, hfrozen⟩ := State.mayCompact_open hmay
    have hexec : exec .compactTriggerEval s = .next (s.startRun g []) := by
      change execCompactTriggerEval s = _
      unfold execCompactTriggerEval
      simp only [hkeys, List.foldl_cons, List.foldl_nil, hc, hq, hmay, htrig, Bool.and_self, if_true]
    exact Runs.of hexec (State.startRun_cuts hc hq hfrozen hload hown hrest hcut)
  case quiet =>
    intro s hnone
    refine congrArg Host.Outcome.next (foldl_same fun g _ => ?_)
    cases hc : s.coll? g with
    | none => rfl
    | some c =>
      cases hq : c.seqr with
      | none => simp only [hq]
      | some q => simp only [hq, hnone g c q hc hq, Bool.false_eq_true, if_false]
  case copy =>
    intro g c q r s hc hq hr hload hphase hwhole hmedia
    refine ⟨fun hmissing => ?_, fun p w hall hp hbuild => ?_⟩
    · change execCompactCopyDone g s = _
      unfold execCompactCopyDone
      simp only [hc, hq, hr, Option.bind_some, hload, hphase, hwhole, hmedia, Bool.false_eq_true, ne_eq, not_true_eq_false, or_self, if_false, if_pos hmissing]
    · have hexec : exec (.compactCopyDone g) s = .next ((w.modColl g fun c => { c with prepared := some p }).sendPrepare g c r) := by
        change execCompactCopyDone g s = _
        unfold execCompactCopyDone
        simp only [hc, hq, hr, Option.bind_some, hload, hphase, hwhole, hmedia, hall, Bool.false_eq_true, ne_eq, not_true_eq_false, or_self, if_false,
          State.abandonBuild_idle hc hp, hbuild]
      have hcw : w.coll? g = some c := (State.coll_of_colls (Via.caseExcSnd State.buildRun_only hbuild).colls).trans hc
      have hprepared := State.modColl_coll (f := fun c => { c with prepared := some p }) hcw
      refine Runs.of hexec ((State.coll_of_colls State.ctrlAll_only.colls).trans ?_)
      exact State.modSeqr_coll hprepared hq
  case free =>
    intro g c s hc hlive
    obtain ⟨⟨c', hc', hold⟩, hfree⟩ := State.freeGenerations_of hc hlive
    refine Runs.of rfl ⟨⟨c', (State.coll_of_colls State.segmentAudit_only.colls).trans hc', hold⟩, fun n hmine hkind hretiring hroot hkept => ?_⟩
    have hmap : (s.freeGenerations g).segmentAudit.seg.map = (s.freeGenerations g).seg.map := by rw [State.segmentAudit_seg]
    have hsame : (s.freeGenerations g).segmentAudit.seg_ n = (s.freeGenerations g).seg_ n := by
      unfold State.seg_
      rw [hmap]
    rw [hsame]
    exact hfree n hmine hkind hretiring hroot hkept
  case unscrubbed =>
    intro s h
    exact congrArg Host.Outcome.next (if_pos h)
  case counts =>
    intro s h
    refine Runs.of (exec_startupScrub_of h) ?_
    generalize s.scrubbed = v
    obtain ⟨fence, hboot⟩ := State.segmentAudit_boot (s := { v.recount with boot := { v.recount.boot with scrubbing := false } })
    rw [hboot, State.segmentAudit_seg]
    exact ⟨rfl, rfl⟩
  case recovers =>
    intro g c s h hone hp hq halone hreported
    have hc : s.coll? g = some c := by
      unfold State.coll?
      rw [hone]
      exact if_pos rfl
    obtain ⟨c', hc', hdone⟩ := State.scrubColl_alone hc hp hq halone hreported
    refine Runs.of (exec_startupScrub_of h) ⟨c', ?_, hdone⟩
    have hcolls : s.scrubbed.colls = (s.scrubColl g).colls := by
      rw [State.scrubbed_colls, hone]
      rfl
    generalize s.scrubbed = v at hcolls
    refine (State.coll_of_colls (State.segmentAudit_only.colls.trans ?_)).trans hc'
    exact State.recount_only.colls.trans hcolls
  case listPull =>
    intro i m c gr ls part s u hfence htake hserved hgr hls hdamaged hmissing hpart hfits hsource
    obtain ⟨hu, -, htransit, -⟩ := State.take_eq htake
    have hboot : u.boot = s.boot := by rw [hu]
    have hserved' : u.served (msgColl m) = some c := (State.served_of_colls (by rw [hu])).trans hserved
    have hintake : s.intake = true := by unfold State.intake; rw [hfence]; rfl
    have hexec : exec (.listPull i) s = .next (u.sendListData m (field (msgBody m) 24 8) (pieces (max c.perData 1) part.length part)) := by
      change execListPull i s = _
      unfold execListPull
      simp only [hintake, Bool.true_eq_false, if_false, htake, hserved', hgr, hls, hdamaged, Bool.false_eq_true, hmissing, ne_eq, not_true_eq_false, hpart]
    rw [State.sendListData_one hfits, State.send_transit hboot htransit (msgSource_bound m) hsource] at hexec
    exact Runs.of hexec rfl
  case listData =>
    intro i key m r l c x s u htake hawaited htag hl hx hc
    obtain ⟨hu, -⟩ := State.take_eq htake
    obtain ⟨v, hv⟩ : ∃ v, v = if msgLast m then u.endRequest r else u := ⟨_, rfl⟩
    have honly : Only [.cred, .fab] u v := by
      rw [hv]
      exact Only.ite (fun _ => State.endRequest_only) fun _ => Only.refl _ _
    have hhost : v.host = s.host := honly.host.trans (by rw [hu])
    have htag' : v.byTag (msgTag m) = some key := (State.byTag_same hhost (honly.sched.trans (by rw [hu]))).trans htag
    have hc' : v.coll? (msgColl m) = some c := (State.coll_of_colls (honly.colls.trans (by rw [hu]))).trans hc
    have hl' : v.live? key = some l := (State.live_of_host hhost).trans hl
    refine Runs.of (t := v.modLive key fun l => { l with exporting := l.exporting.map fun x => x.received m r.owner c }) ?_ ⟨x.received m r.owner c, ?_, ?_, ?_⟩
    · change execListData i s = _
      unfold execListData
      simp only [htake, hawaited, ← hv, htag', hc']
      rfl
    · rw [State.live_modLive hl', hx]
      rfl
    · exact Map.get?_put_same
    · intro hlast
      show (if (msgLast m && _) = true then _ else x.complete) = x.complete
      rw [hlast]
      rfl
  case imagePull =>
    intro i key data m l s u htake htag hl hop hlen hpos hfits hsource
    obtain ⟨hu, -, htransit, -⟩ := State.take_eq htake
    have hhost : u.host = s.host := by rw [hu]
    have htag' : u.byTag (msgTag m) = some key := (State.byTag_same hhost (by rw [hu])).trans htag
    have hl' : u.live? key = some l := (State.live_of_host hhost).trans hl
    have hone : pieces 20448 data.length data = [data] := pieces_one (List.ne_nil_of_length_pos hpos) hfits
    obtain ⟨v, hv⟩ : ∃ v, v = u.emit (.hostRead (l.origin.burrow + 1) (field l.bytes 16 8 + field (msgBody m) 0 8) data.length) := ⟨_, rfl⟩
    have hexec : exec (.imagePull i data) s = .next (v.send (msgSource m) mImageData 4 (msgTag m) (msgRequester m) (msgColl m)
        (toLE 8 (field (msgBody m) 0 8) ++ toLE 4 data.length ++ zeros 4 ++ data)) := by
      change execImagePull i data s = _
      unfold execImagePull
      simp only [htake, htag', Option.bind_some, hl', hop, hlen.symm, ne_eq, not_true_eq_false, if_false, hone, ← hv]
      rfl
    have hboot : v.boot = s.boot := by rw [hv, hu]; rfl
    have htransit' : v.fab.transit = s.fab.transit := by rw [hv]; exact htransit
    have hout : v.out = s.out ++ [.hostRead (l.origin.burrow + 1) (field l.bytes 16 8 + field (msgBody m) 0 8) data.length] := by rw [hv, hu]; rfl
    rw [State.send_transit hboot htransit' (msgSource_bound m) hsource] at hexec
    exact Runs.of hexec ⟨hout, rfl⟩
  case imageData =>
    intro i m r c p s u htake hawaited hc hp hnext hlast
    obtain ⟨hu, -⟩ := State.take_eq htake
    have hc' : u.coll? (msgColl m) = some c := (State.coll_of_colls (by rw [hu])).trans hc
    have hexec : exec (.imageData i) s = .next (u.modColl (msgColl m) fun c => { c with pull := c.pull.map fun p =>
        { p with got := Map.put p.got r.owner (Map.getD p.got r.owner [] ++ (msgBody m).drop 16) } }) := by
      change execImageData i s = _
      unfold execImageData
      simp only [htake, hawaited, hc', Option.bind_some, hp, Option.map_some, Option.getD_some, hnext, ne_eq, not_true_eq_false, if_false, hlast, Bool.false_eq_true]
    refine Runs.of hexec ((State.modColl_coll hc').trans ?_)
    rw [hp]
    rfl

end Sys2Proof.Machine
end
